-- ==== Sys2Proof/Word.lean ====
section
/-! DEFINITION. The words and bytes of the module and their plainest arithmetic (R4: every multi-byte field is
little-endian, byte 0 at the lowest address). -/

namespace Sys2Proof

/-- One byte of memory (R4). -/
abbrev Byte := BitVec 8

/-- A byte string, lowest address first (R4). -/
abbrev Bytes := List Byte

/-- The little-endian number that a byte string spells (R4). -/
def leNat : Bytes → Nat
  | [] => 0
  | b :: bs => b.toNat + 256 * leNat bs

/-- The `n` little-endian bytes of a number; bits above are dropped (R4). -/
def natLe : Nat → Nat → Bytes
  | 0, _ => []
  | n + 1, v => BitVec.ofNat 8 v :: natLe n (v / 256)

/-- `n` bytes of a byte string from an offset; bytes past the end read as zero. -/
def slice (bs : Bytes) (off n : Nat) : Bytes :=
  (List.range n).map fun i => bs.getD (off + i) 0

/-- The little-endian field of `n` bytes at an offset of a layout table (R4). -/
def field (bs : Bytes) (off n : Nat) : Nat := leNat (slice bs off n)

/-- Bits [hi:lo] of a number (Numbers and units of 00_scope.md). -/
def bits (v hi lo : Nat) : Nat := (v / 2 ^ lo) % 2 ^ (hi + 1 - lo)

/-- Bit `i` of a number. -/
def bit (v i : Nat) : Bool := (v / 2 ^ i) % 2 == 1

/-- `n` zero bytes. -/
def zeros (n : Nat) : Bytes := List.replicate n 0

/-- Division that rounds up (`ceil` of the manual's arithmetic). -/
def ceilDiv (a b : Nat) : Nat := (a + (b - 1)) / b

/-- A value clamped to a range (R260, R426). -/
def clampNat (lo hi v : Nat) : Nat := if v < lo then lo else if hi < v then hi else v

/-- Addition that saturates at 2^64 - 1 (R408). -/
def satAdd64 (a b : Nat) : Nat := Nat.min (a + b) (2 ^ 64 - 1)

/-- 1 for true, 0 for false: a flag as a bit. -/
def b2n (b : Bool) : Nat := if b then 1 else 0

end Sys2Proof
end

