-- ==== Sys2Proof/Syntax.lean ====
section
/-! DEFINITION. The commands of the block: one constructor of `Instr` per row of spec/opcode_table.json, with the
operands of the row, and the structures those operands are made of. An operand holds what reaches the module from
outside its State with the command (a register value, a page a caddy returned, the values a brew program computed),
or a choice the spec leaves free (which read, which addend comes next). -/

namespace Sys2Proof

/-- A PCIe function that carries Welgil registers and doorbells (R232): PF1, or VF `n + 1`. -/
inductive PcieFn where
  | pf1
  | vf (n : Fin 8)
deriving DecidableEq, Repr, Inhabited

/-- Which ring of a pot's ring block a register write names (Table 19.8, R233). -/
inductive RingSel where
  | sq (i : Fin 16)
  | cq (i : Fin 16)
  | ev
deriving DecidableEq, Repr, Inhabited

/-- The common header of a Koelnu instruction word (R157, Table 7.1). -/
structure KHdr where
  wen : Bool := false
  wtk : BitVec 5 := 0
  wcnt : BitVec 8 := 0
  wexp : BitVec 4 := 0
  sen : Bool := false
  stk : BitVec 5 := 0
  scnt : BitVec 8 := 0
  sexp : BitVec 4 := 0
deriving DecidableEq, Repr, Inhabited

/-- A short sync field (R158). -/
structure KSync where
  en : Bool := false
  tk : BitVec 5 := 0
  cnt : BitVec 8 := 0
deriving DecidableEq, Repr, Inhabited

/-- Operands of a vector instruction (R167, Table 7.8); `n1` is N - 1. -/
structure VOps where
  dad : BitVec 4 := 0
  aad : BitVec 4 := 0
  bad : BitVec 4 := 0
  n1 : BitVec 20 := 0
  afmt : BitVec 4 := 0
  dfmt : BitVec 4 := 0
  blk : Bool := false
  bimm : Bool := false
  imm : BitVec 32 := 0
  cond : BitVec 3 := 0
deriving DecidableEq, Repr, Inhabited

/-- Operands of `MM` (R164, Table 7.6). -/
structure MmOps where
  sad : BitVec 4 := 0
  xad : BitVec 4 := 0
  dad : BitVec 4 := 0
  shp : BitVec 3 := 0
  spc : BitVec 3 := 0
  role : BitVec 2 := 0
  area : Bool := false
  trans : Bool := false
  sfmt : BitVec 3 := 0
  xfmt : BitVec 3 := 0
  acc : Bool := false
  keep : Bool := false
  xw : KSync := {}
  dw : KSync := {}
  xs : KSync := {}
deriving DecidableEq, Repr, Inhabited

/-- Operands of `SPOUT` (R163, Table 7.5). -/
structure SpoutOps where
  sci : BitVec 3 := 0
  scale : BitVec 2 := 0
  bias : BitVec 2 := 0
  act : BitVec 3 := 0
  ofmt : BitVec 4 := 0
  blk : Bool := false
  dest : BitVec 2 := 0
  scalead : BitVec 4 := 0
  biasad : BitVec 4 := 0
deriving DecidableEq, Repr, Inhabited

/-- Operands of `MOV` (R170, Table 7.11); `len1` is LEN - 1. -/
structure MovOps where
  src : BitVec 4 := 0
  dst : BitVec 4 := 0
  len1 : BitVec 24 := 0
  pfmt : BitVec 3 := 0
  dw : KSync := {}
  xs : KSync := {}
deriving DecidableEq, Repr, Inhabited

/-- Operands of `MOV2D` (R170, Table 7.11); `row1` is row bytes - 1, `rows1` rows - 1; strides in 8-byte units. -/
structure Mov2dOps where
  src : BitVec 4 := 0
  dst : BitVec 4 := 0
  row1 : BitVec 16 := 0
  rows1 : BitVec 16 := 0
  sstr : BitVec 16 := 0
  dstr : BitVec 16 := 0
  pfmt : BitVec 3 := 0
deriving DecidableEq, Repr, Inhabited

/-- Operands of `LEAFRD` (R172). -/
structure LeafrdOps where
  list : BitVec 4 := 0
  dst : BitVec 4 := 0
  count1 : BitVec 12 := 0
  dw : KSync := {}
deriving DecidableEq, Repr, Inhabited

/-- The vector operations of Table 7.9. -/
inductive VecOp where
  | vadd | vmul | vfma | vmax | vmin | vcmp | vsel | vcvt | vexp | vln | vrcp | vrsq | vtanh
  | vsum | vrmax | vtopk | vpart | vmerge | vsample
deriving DecidableEq, Repr, Inhabited

/-- The operation of a Koelnu word (R161, Table 7.3) with its operands. -/
inductive KOp where
  | nop (unit : BitVec 3)
  | group (layer oper : BitVec 16)
  | point
  | fence (mask : BitVec 5)
  | loop (count1 : BitVec 16) (body : BitVec 12)
  | endInv
  | addr (reg : BitVec 4) (value : BitVec 48) (ostr : BitVec 16)
  | addri (reg : BitVec 4) (delta : BitVec 32)
  | vec (op : VecOp) (o : VOps)
  | mm (o : MmOps)
  | shape (shi : BitVec 3) (m1 k1 n1 : BitVec 16)
  | stride (shi : BitVec 3) (sstr xstr dstr : BitVec 16)
  | spout (o : SpoutOps)
  | spoutv (sci : BitVec 3) (scalar cap : BitVec 32)
  | mov (o : MovOps)
  | mov2d (o : Mov2dOps)
  | leafrd (o : LeafrdOps)
  | tkset (tk : BitVec 5) (value : BitVec 16)
  | semacq (sem : BitVec 5) (units : BitVec 16)
  | semrel (sem : BitVec 5) (units : BitVec 16)
deriving DecidableEq, Repr, Inhabited

/-- A decoded Koelnu instruction word. -/
structure KWord where
  hdr : KHdr
  op : KOp
deriving DecidableEq, Repr, Inhabited

/-- The key and value of one token for one layer and KV head as the cores encode them, 68 bytes each: 64 code bytes, 4 E8 scales (Table
10.13); and the elements of both that saturated in the encoding (R17). -/
structure KvRow where
  key : Bytes
  value : Bytes
  sats : Nat := 0
deriving DecidableEq, Repr, Inhabited

/-- What one cup's step computed on the tile cores (R63, R74, R75): the rows of its new tokens, per layer, KV head and token, and the FP32
logits of the step's last row. -/
structure StepOut where
  cup : Nat
  rows : List (Nat × Nat × KvRow)
  logits : List (BitVec 32)
deriving DecidableEq, Repr, Inhabited

/-- The BF16 queries of one cup for one layer and KV head in the step that begins (R27). -/
structure StepQ where
  cup : Nat
  layer : Nat
  head : Nat
  queries : List (List (BitVec 16))
deriving DecidableEq, Repr, Inhabited

/-- The attention of one token and query head that a member forms at a layer of a sharded prefill (R346). -/
structure HeadOut where
  token : Nat
  head : Nat
  tokens : Nat
  lam : BitVec 32
  o : List (BitVec 32)
deriving DecidableEq, Repr, Inhabited

/-- What the cores computed for a stage of a steep job (Tables 3.2, 10.13): chunk vectors of stage 2, or the key and value
rows of the committed layer (KV head, then token) and the hidden state that feeds the next layer; the attention outputs of
this module's share that a sharded prefill sends (R346). -/
structure StageData where
  vectors : List (List (BitVec 32)) := []
  rows : List KvRow := []
  hidden : Bytes := []
  outs : List HeadOut := []
deriving DecidableEq, Repr, Inhabited

/-- How the data of a tier read or move arrived (R152, R226). -/
inductive Arrival where
  | good
  | flashBad
  | memBad
deriving DecidableEq, Repr, Inhabited

/-- A memory of Table 18.1's family 4. -/
inductive MemTier where
  | core (n : Fin 52)
  | quadrant (n : Fin 4)
  | dram (n : Fin 8)
  | media (n : Fin 4)
  | control (n : Fin 16)
deriving DecidableEq, Repr, Inhabited

/-- What a scrub read reads: a word of a memory with the bits found in error there, or a member page of a flash block
group with what its read needed (R361, R362). -/
inductive ScrubTarget where
  | word (tier : MemTier) (addr : Nat) (errs : List (Fin 80)) (retry : Bool)
  | flash (bay : Fin 8) (group : Nat) (soft heavy unreadable : Bool)
deriving DecidableEq, Repr, Inhabited

/-- The data-pointer of an NVMe command, resolved: the host address of each 4,096-byte unit (R277: PRP only). -/
abbrev Prp := List Nat

/-- Who and what an NVMe command is: its queue, identifier, namespace (R276, R277). -/
structure NvCmd where
  sqid : Nat := 0
  cid : Nat := 0
  nsid : Nat := 0
deriving DecidableEq, Repr, Inhabited

/-- The fields of a firmware manifest that the module acts on, as the element reads and checks them (R375, R376, Table 16.3).
The digests and the signature check are done by the element; `sigOk` is what its ML-DSA-44 check answered. -/
structure Manifest where
  magicOk : Bool := true
  keyIndex : Nat := 0
  svn : Nat := 0
  version : Nat := 0
  revoke : Nat := 0
  keyDigestOk : Bool := true
  sigOk : Bool := true
  componentsOk : Bool := true
  digest : Nat := 0
  seDigest : Nat := 0
  oeDigest : Nat := 0
  length : Nat := 0
deriving DecidableEq, Repr, Inhabited

/-- One signature of an AUTHORISE message (R380): whose key, its index, the digest of its public key, and what the
element's ML-DSA-44 check of the token answered. -/
structure AuthSig where
  role : Nat := 0
  keyIndex : Nat := 0
  keyDigest : Nat := 0
  valid : Bool := false
deriving DecidableEq, Repr, Inhabited

/-- An AUTHORISE message (R380): the token bytes, the signature count field, the signatures. -/
structure Authorise where
  token : Bytes := []
  sigs : List AuthSig := []
  wellFormed : Bool := true
deriving DecidableEq, Repr, Inhabited

/-- What the identity record and the signed challenge of a caddy gave (R320, R374). -/
structure CaddyIdent where
  magicOk : Bool := true
  formatOk : Bool := true
  compat : Nat := 1
  keyDigestOk : Bool := true
  chainOk : Bool := true
  sigOk : Bool := true
  serial : Nat := 0
  rated : Nat := 1500
deriving DecidableEq, Repr, Inhabited

/-- What the metadata read of order 5 of Table 13.12 found on a caddy (R321, R323). -/
structure CaddyMeta where
  readable : Bool := true
  badMapOk : Bool := true
  membership : Option (Nat × Nat × Nat) := none
  wearUsed : Nat := 0
  spareLeft : Nat := 100
  counters : List Nat := []
deriving DecidableEq, Repr, Inhabited

/-- A JTAG access of the probe (R381, R414, R446). -/
inductive Jtag where
  | idcode
  | bypass
  | sample
  | extest
  | halt (cc : Fin 16)
  | resume (cc : Fin 16)
  | stepCc (cc : Fin 16)
  | readMem (tier : MemTier) (addr : Nat) (n : Nat)
  | writeMem (tier : MemTier) (addr : Nat) (data : Bytes)
  | readCounter (family inst index : Nat)
  | readReg (off : Nat)
  | writeReg (off : Nat) (value : BitVec 64)
  | watch (n : Fin 16) (word : Fin 4) (value : BitVec 64)
deriving DecidableEq, Repr, Inhabited

/-- A peer-link packet header as received (R342, Table 14.4); `reserved` says that some reserved bit was one. -/
structure PktHdr where
  src : Nat := 0
  dst : Nat := 0
  groupId : Nat := 0
  jobId : Nat := 0
  layer : Nat := 0xFFFF
  oper : Nat := 0xFFFF
  xfer : Nat := 0
  status : Nat := 0
  tc : Nat := 0
  last : Bool := false
  standing : Bool := false
  lfmt : Nat := 0
  arg : Nat := 0
  reserved : Bool := false
deriving DecidableEq, Repr, Inhabited

/-- The transfer descriptor that ANNOUNCE carries (R344, Table 14.7). -/
structure XferDesc where
  kind : Nat := 1
  object : Nat := 0
  total : Nat := 0
  target : Nat := 0
  notifyTk : BitVec 5 := 0
  ordinal : Nat := 0
  notifyCount : Nat := 0
  reserved : Bool := false
deriving DecidableEq, Repr, Inhabited

/-- The fields of HELLO (R336). -/
structure HelloPkt where
  hdr : PktHdr := {}
  groupId : Nat := 0
  own : Nat := 7
  expects : Nat := 7
  fwMajor : Nat := 4
  digest : Nat := 0
deriving DecidableEq, Repr, Inhabited

/-- A flit as received (R332, Table 14.1); `checkOk` is what its CRC-64 check gave. -/
structure FlitIn where
  checkOk : Bool := true
  seq : Nat := 0
  tc : Fin 4 := 0
  idle : Bool := false
  ackValid : Bool := false
  ackSeq : Nat := 0
  nak : Bool := false
  crTc : Fin 4 := 0
  crCount : Nat := 0
deriving DecidableEq, Repr, Inhabited

/-- One cup record of STEP_CLOSE (R350). -/
structure CloseRec where
  cup : Nat
  joined : Bool := false
  left : Bool := false
  failed : Bool := false
  token : Nat := 0
deriving DecidableEq, Repr, Inhabited

/-- A hardware failure: one that R368 says stops the module, or an optical engine's (R367). -/
inductive HwPart where
  | dramStack (n : Fin 8)
  | pcie
  | network (q : Fin 4)
  | element
  | opticalEngine (n : Fin 8)
deriving DecidableEq, Repr, Inhabited

/-- The sensor groups of Table 16.13 that are not caddies. -/
inductive SensorKind where
  | die
  | dram
  | optical
deriving DecidableEq, Repr, Inhabited

/-- What starts a module reset (Table 17.3). -/
inductive ResetCause where
  | perst
  | hotReset
  | bmc
  | write (fn : PcieFn) (value : BitVec 32)
deriving DecidableEq, Repr, Inhabited

/-- A page of a collection (R82): kind (Table 4.2), column of a column page, first record or slot. -/
structure CollPage where
  kind : Nat
  column : Nat := 0
  first : Nat
deriving DecidableEq, Repr, Inhabited

/-- A RECALL that runs: its job's key, and the pages of its collection that cannot be read (R98, R104). -/
structure RecallRun where
  job : Nat
  lost : List CollPage := []
deriving DecidableEq, Repr, Inhabited

/-- THE COMMANDS: one constructor per row of spec/opcode_table.json, in the table's order. -/
inductive Instr where
  -- Doorbells, fetch and admission (chapter 10)
  | sqTailDoorbell (fn : PcieFn) (page off : Nat) (size : Nat) (value : BitVec 32)
      (host : List (Nat × Byte))
  | cqHeadDoorbell (fn : PcieFn) (page off : Nat) (size : Nat) (value : BitVec 32)
  | eventHeadDoorbell (fn : PcieFn) (off : Nat) (size : Nat) (value : BitVec 32)
  | descriptorFetch (pot : Fin 8)
  | descriptorFetchFailed (pot : Fin 8)
  | orderedJobAdmit (job : Nat)
  | deferredJobAdmit (job : Nat)
  -- Job types (Table 10.3); `job` is the key of a fetched job
  | imageLoad (job : Nat)
  | imageUnload (job : Nat)
  | steep (job : Nat)
  | steepResume (job : Nat)
  | generate (job : Nat)
  | attend (job : Nat)
  | collectionCreate (job : Nat)
  | collectionAppend (job : Nat) (vectors : List (List (BitVec 32)))
  | collectionDelete (job : Nat)
  | filter (job : Nat)
  | search (job : Nat)
  | recallJob (run : RecallRun)
  | fetchJob (job : Nat)
  | tableCreate (job : Nat)
  | tableRule (job : Nat)
  | bag (job : Nat)
  | addJob (job : Nat)
  | update (job : Nat)
  | tableSave (job : Nat)
  | tableLoad (job : Nat)
  | dropJob (job : Nat)
  | runJob (job : Nat)
  -- Steeping, generation, infuser (chapters 2, 3)
  | steepCheckpointCommit (job : Nat) (data : StageData)
  | stepBoundary (pot : Fin 8) (outs : List StepOut) (queries : List StepQ)
  | tailLeafProgramDone (pot : Fin 8) (cup : Nat) (layer head index : Nat)
  | leafReadComplete (read : Nat) (page : Bytes)
  | lateReadExpiry (read : Nat)
  | reconstructComplete (read : Nat) (page : Option Bytes) (bays : BitVec 8)
  | centroidPageRead (corpus : Nat) (index : Nat) (page : Bytes)
  | groupStepLimitExpiry (pot : Fin 8)
  -- Strainer and search (chapter 4)
  | strainerPageEval (job item column first : Nat) (page : Option Bytes)
  | searchExpansion (job item : Nat) (page : Option Bytes)
  | searchRerank (job item : Nat) (unreadable : List Nat)
  | mendingPassEnd (collection : Nat)
  -- Embedding bags (chapter 5)
  | bagPartReceived (job item : Nat) (member : Fin 5) (part : Bytes)
  | bagWaitExpiry (job item : Nat)
  | atomicAdd (n : Nat)
  | ruleApplication (n : Nat)
  | shelfRedirectFlip (table row : Nat)
  | shelfAbandoned (table row : Nat)
  | shelfDemotion (table row : Nat)
  | hotWindowExpiry (quadrant : Fin 4)
  -- Koelnu instructions (chapter 7), on a logical core
  | nop (core : Fin 48) (h : KHdr) (unit : BitVec 3)
  | group (core : Fin 48) (h : KHdr) (layer oper : BitVec 16)
  | point (core : Fin 48) (h : KHdr)
  | fence (core : Fin 48) (h : KHdr) (mask : BitVec 5)
  | loop (core : Fin 48) (h : KHdr) (count1 : BitVec 16) (body : BitVec 12)
  | endInv (core : Fin 48) (h : KHdr)
  | addr (core : Fin 48) (h : KHdr) (reg : BitVec 4) (value : BitVec 48) (ostr : BitVec 16)
  | addri (core : Fin 48) (h : KHdr) (reg : BitVec 4) (delta : BitVec 32)
  | vadd (core : Fin 48) (h : KHdr) (o : VOps)
  | vmul (core : Fin 48) (h : KHdr) (o : VOps)
  | vfma (core : Fin 48) (h : KHdr) (o : VOps)
  | vmax (core : Fin 48) (h : KHdr) (o : VOps)
  | vmin (core : Fin 48) (h : KHdr) (o : VOps)
  | vcmp (core : Fin 48) (h : KHdr) (o : VOps)
  | vsel (core : Fin 48) (h : KHdr) (o : VOps)
  | vcvt (core : Fin 48) (h : KHdr) (o : VOps)
  | vexp (core : Fin 48) (h : KHdr) (o : VOps)
  | vln (core : Fin 48) (h : KHdr) (o : VOps)
  | vrcp (core : Fin 48) (h : KHdr) (o : VOps)
  | vrsq (core : Fin 48) (h : KHdr) (o : VOps)
  | vtanh (core : Fin 48) (h : KHdr) (o : VOps)
  | vsum (core : Fin 48) (h : KHdr) (o : VOps)
  | vrmax (core : Fin 48) (h : KHdr) (o : VOps)
  | vtopk (core : Fin 48) (h : KHdr) (o : VOps)
  | vpart (core : Fin 48) (h : KHdr) (o : VOps)
  | vmerge (core : Fin 48) (h : KHdr) (o : VOps)
  | vsample (core : Fin 48) (h : KHdr) (o : VOps)
  | mm (core : Fin 48) (h : KHdr) (o : MmOps)
  | shape (core : Fin 48) (h : KHdr) (shi : BitVec 3) (m1 k1 n1 : BitVec 16)
  | stride (core : Fin 48) (h : KHdr) (shi : BitVec 3) (sstr xstr dstr : BitVec 16)
  | spout (core : Fin 48) (h : KHdr) (o : SpoutOps)
  | spoutv (core : Fin 48) (h : KHdr) (sci : BitVec 3) (scalar cap : BitVec 32)
  | mov (core : Fin 48) (h : KHdr) (o : MovOps)
  | mov2d (core : Fin 48) (h : KHdr) (o : Mov2dOps)
  | leafrd (core : Fin 48) (h : KHdr) (o : LeafrdOps)
  | tkset (core : Fin 48) (h : KHdr) (tk : BitVec 5) (value : BitVec 16)
  | semacq (core : Fin 48) (h : KHdr) (sem : BitVec 5) (units : BitVec 16)
  | semrel (core : Fin 48) (h : KHdr) (sem : BitVec 5) (units : BitVec 16)
  -- Tile-core engine events (chapters 6, 15)
  | stationaryLoadDone (core : Fin 48)
  | passLanded (core : Fin 48)
  | spoutDrain (core : Fin 48)
  | moveArrived (core : Fin 48) (move : Nat) (how : Arrival)
  | coreProgressExpiry (core : Fin 48)
  | intervalOverrun (core : Fin 48)
  | datapathCheckFail (phys : Fin 52)
  | spareTakeoverResume (quadrant : Fin 4) (ok : Bool)
  -- Memory tiers (chapter 9)
  | evictWaitEnd (pot : Fin 8)
  | stallLimitExpiry (job : Nat) (cause : Fin 17) (bay : Option (Fin 8)) (waitedNs : Nat) (layer oper : BitVec 16)
  | scrubRead (target : ScrubTarget)
  -- Pots (chapter 11)
  | sliceEnd (pot : Fin 8) (elapsedNs : Nat)
  | preemptDrainExpiry (pot : Fin 8)
  | preemptLimitExpiry (pot : Fin 8) (overNs : Nat)
  | latencyTargetExpiry (job : Nat) (overNs : Nat)
  -- NVMe (chapter 12)
  | nvmRead (c : NvCmd) (slba nlb : Nat) (prp : Prp) (readable : Bool)
  | nvmWrite (c : NvCmd) (slba nlb : Nat) (prp : Prp) (fua : Bool)
  | nvmFlush (c : NvCmd)
  | writeZeroes (c : NvCmd) (slba nlb : Nat)
  | datasetManagement (c : NvCmd) (deallocate : Bool) (ranges : List (Nat × Nat))
  | identify (c : NvCmd) (cns : Nat) (prp : Prp)
  | getLogPage (c : NvCmd) (lid offset len lsp : Nat) (rae : Bool) (prp : Prp)
  | getFeatures (c : NvCmd) (fid : Nat)
  | setFeatures (c : NvCmd) (fid : Nat) (dw11 : BitVec 32) (hmb : List (Nat × Nat))
  | createIoQueue (c : NvCmd) (completion : Bool) (qid size cqid : Nat) (base : Nat)
  | deleteIoQueue (c : NvCmd) (completion : Bool) (qid : Nat)
  | abortCmd (c : NvCmd) (sqid cid : Nat)
  | asyncEventRequest (c : NvCmd)
  | namespaceCreate (c : NvCmd) (nsze : Nat) (vendor : Byte)
  | namespaceDelete (c : NvCmd)
  | namespaceAttachment (c : NvCmd) (attach : Bool)
  | formatNvm (c : NvCmd) (ses : Nat)
  | sanitizeBlockErase (c : NvCmd)
  | sanitizeCryptoErase (c : NvCmd)
  | firmwareImageDownload (c : NvCmd) (offset : Nat) (data : Bytes)
  | fwCommitReplace (c : NvCmd) (slot : Nat) (m : Manifest)
  | fwCommitActivateNext (c : NvCmd) (slot : Nat) (m : Manifest)
  | fwCommitSelectSlot (c : NvCmd) (slot : Nat)
  | fwCommitActivateNow (c : NvCmd) (slot : Nat) (m : Manifest)
  | activationQuiesced
  | activationQuiesceExpiry
  | invalidCommandOpcode (c : NvCmd) (opcode : Byte)
  | writeBufferProgram (nsid lba group page : Nat)
  | feedLost (feed : Fin 2)
  | feedRejoin (feed : Fin 2)
  | powerLoss
  -- Flash media and caddies (chapter 13)
  | flashReadDone (op : Nat) (ok : Bool)
  | flashProgramDone (op : Nat) (ok : Bool)
  | flashEraseDone (op : Nat) (ok : Bool)
  | eraseSuspend (op : Nat)
  | eraseResume (op : Nat)
  | garbageCollection
  | fold (group target page : Nat)
  | readDisturbRefresh (bay : Fin 8) (group : Nat)
  | journalProgram
  | mapCheckpoint
  | counterPersist
  | dieOpTimeout (op : Nat)
  | caddyInsert (bay : Fin 8)
  | caddyLinkTrained (bay : Fin 8) (lanes : Fin 13)
  | caddyAuthenticate (bay : Fin 8) (ident : CaddyIdent)
  | caddyClassify (bay : Fin 8) (found : CaddyMeta)
  | bayRemove (bay : Fin 8)
  | bayAdopt (bay : Fin 8)
  | leverOpen (bay : Fin 8)
  | leverClose (bay : Fin 8)
  | removalQuiesced (bay : Fin 8)
  | caddySurpriseRemoval (bay : Fin 8)
  | caddyPulled (bay : Fin 8)
  | rebuildGroup (bay : Fin 8)
  | caddyLaneFrameFail (bay : Fin 8) (lane : Fin 12)
  -- Peer links (chapter 14)
  | peerSignalDetect (port : Fin 4)
  | linkTrainTimeout (port : Fin 4)
  | hello (port : Fin 4) (h : HelloPkt)
  | spdmPeerMessage (port : Fin 4) (hdr : PktHdr) (proved : Option Nat)
  | linkUp (port : Fin 4) (lanes : Fin 9)
  | flitReceive (port : Fin 4) (f : FlitIn)
  | peerLaneOut (port : Fin 4) (lane : Fin 8)
  | linkRetrain (port : Fin 4)
  | linkHoldExpiry (port : Fin 4)
  | statusPacket (port : Fin 4) (h : PktHdr) (state power stepCount : Nat)
  | statusTimer
  | peerStatusTimeout (port : Fin 4)
  | announce (port : Fin 4) (h : PktHdr) (d : XferDesc)
  | xferReady (port : Fin 4) (h : PktHdr)
  | dataPacket (port : Fin 4) (h : PktHdr) (payload : Bytes)
  | xferDone (port : Fin 4) (h : PktHdr)
  | peerNak (port : Fin 4) (h : PktHdr)
  | cancel (port : Fin 4) (h : PktHdr)
  | stepClose (port : Fin 4) (h : PktHdr) (step : Nat) (recs : List CloseRec)
  | grantWaitExpiry (port : Fin 4) (xfer : Nat)
  -- Availability (chapter 15)
  | controlCoreWatchdog (cc : Fin 16) (journalOk : Bool)
  | pcieRetrain (recovered : Bool)
  -- SPDM and lifecycle (chapter 16)
  | getVersion
  | getCapabilities
  | negotiateAlgorithms (hash mldsa : Bool)
  | getDigests
  | getCertificate (slot : Fin 8) (offset len : Nat)
  | challenge (slot : Fin 8) (nonce : Bytes)
  | getMeasurements (index : Nat) (signed : Bool) (nonce : Bytes)
  | getCsr
  | setCertificate (slot : Fin 8) (chain : Bytes)
  | chunkSend (handle seq : Nat) (last : Bool) (chunk : Bytes)
  | chunkGet (handle seq : Nat)
  | spdmUnsupportedRequest (code : Byte)
  | stateQuery
  | tokenRequest (action : Nat)
  | actionService (a : Authorise)
  | actionOpen (a : Authorise)
  | actionProvisioned (a : Authorise)
  | actionOperational (a : Authorise)
  | actionReturn (a : Authorise)
  | actionBlank (a : Authorise)
  | relock
  | tokenExpiry
  | lockoutExpiry
  -- Power, kettle, thermal (chapter 16)
  | powerReq (fn : PcieFn) (value : BitVec 3)
  | powerStepDone
  | powerStepLimitExpiry
  | kettleSample (milliwatts : Nat)
  | kettleTrial
  | kettleTrialEnd
  | thermalThrottleTick (hot : Bool)
  | thermalTrip (sensor : SensorKind)
  | caddyTrip (bay : Fin 8)
  | caddyCoolExpiry (bay : Fin 8)
  -- Start-up, resets, settings (chapters 17, 19)
  | powerOn (straps : BitVec 3) (failedCores : List (Fin 52)) (slotA slotB : Option Manifest) (copyA copyB : Bool)
  | dramTrainingDone
  | moduleReady (mapReadable : Bool)
  | weightReload (image : Nat)
  | bootWatchdog
  | seWatchdog
  | commit (fn : PcieFn)
  | commitDone (verified : Bool)
  | moduleReset (cause : ResetCause)
  | resetDrainDone
  | resetDrainExpiry
  | pf1Flr
  | vfFlr (vf : Fin 8)
  | pf0Reset
  | vfEnableChange (numVfs : Fin 9)
  | potStop (fn : PcieFn) (pot : Fin 8)
  | potRestart (fn : PcieFn) (pot : Fin 8)
  | ringEnable (fn : PcieFn) (pot : Option (Fin 8)) (ring : RingSel) (value : BitVec 64)
  | ringDisable (fn : PcieFn) (pot : Option (Fin 8)) (ring : RingSel)
  | coalesceTimerExpiry (pot : Option (Fin 8)) (ring : RingSel)
  | snapshotStart (fn : PcieFn)
  | snapshotDone (fn : PcieFn) (startCclk endCclk : BitVec 64)
  | sidebandRead (offset : Nat)
  | sidebandWrite (offset : Nat) (value : BitVec 64)
  | registerWrite (fn : PcieFn) (offset size : Nat) (value : BitVec 64)
  -- Observability (chapter 18)
  | traceControl (start : Bool) (mask : BitVec 67) (period : Nat) (groupEn : Bool)
  | markerPulse (counters : List (BitVec 64))
  | traceSyncTimer (source : Fin 67) (counter : BitVec 64) (pc : BitVec 64)
  | traceFrame
  | mapRebuildDone
  | hardwareFailure (part : HwPart)
  | controllerEnable
  | jtagAccess (a : Jtag)
  | quotaWaitExpiry (pot other : Fin 8) (bytes : Nat)
  | shareWindowEnd (pot winner : Fin 8) (shortNs : Nat)
  | thermalTripClear
deriving DecidableEq, Repr

end Sys2Proof
end

