-- ==== Sys2Proof/Decode.lean ====
section
/-! DEFINITION. The command that a word of the opcode table spells. Every row of spec/opcode_table.json has an empty field
list: commands reach the block as register writes, ring entries, packets, NVMe commands and events, not as words of one
encoding, so no word spells one (assumption log 18). The 128-bit Koelnu words, which have an encoding of their own
(R157), are decoded in Machine/KWord.lean. -/

namespace Sys2Proof

/-- The command spelled by the `nbits` bits `w`: none, since the table gives its rows no bits. -/
def decodeTableWord (_nbits _w : Nat) : Option Instr := none

end Sys2Proof
end

