-- ==== Sys2Proof/Machine/Digest.lean ====
section
/-! DEFINITION. The checks the module computes over bytes: CRC-64 of R20, and the SHA3-256 digests of R185, R370 and R379
(FIPS 202, which the manual names and does not repeat: PRESUMED, assumption log 15). -/

namespace Sys2Proof

/-- The ECMA-182 polynomial of R20. -/
def crcPoly : BitVec 64 := 0x42F0E1EBA9EA3693

/-- One bit of the CRC register, no reflection (R20). -/
def crcBit (r : BitVec 64) : BitVec 64 := if r.msb then (r <<< 1) ^^^ crcPoly else r <<< 1

/-- One byte into the CRC register (R20). -/
def crcByte (r : BitVec 64) (b : Byte) : BitVec 64 :=
  crcBit (crcBit (crcBit (crcBit (crcBit (crcBit (crcBit (crcBit (r ^^^ (b.zeroExtend 64 <<< 56)))))))))

/-- CRC-64 over a byte string: initial value zero, no final inversion (R20). -/
def crc64 (bs : Bytes) : BitVec 64 := bs.foldl crcByte 0

/-- The check as stored, little-endian (R20). -/
def crcBytes (bs : Bytes) : Bytes := natLe 8 (crc64 bs).toNat

-- SHA3-256 (FIPS 202): five planes of five lanes

/-- The lanes of a plane, each in the place of the one `k` before it. -/
def turn (k : Nat) (p : List (BitVec 64)) : List (BitVec 64) := p.drop k ++ p.take k
/-- Two planes, lane by lane. -/
def xorPlane (p q : List (BitVec 64)) : List (BitVec 64) := List.zipWith (· ^^^ ·) p q
/-- θ: every plane takes up the parities of the neighbouring columns. -/
def stepTheta (a : List (List (BitVec 64))) : List (List (BitVec 64)) :=
  let p := a.foldl xorPlane (List.replicate 5 0)
  let d := xorPlane (turn 4 p) ((turn 1 p).map fun v => v.rotateLeft 1)
  a.map fun q => xorPlane q d
/-- The places, 5y + x, that ρ visits one after another from (1, 0); π takes each lane to the next of them. -/
def visits : Nat → Nat → List Nat
  | 0, _ => []
  | n + 1, i => i :: visits n (i / 5 + 5 * ((2 * (i % 5) + 3 * (i / 5)) % 5))
/-- ρ and π: the lane at visit t turns by the triangular number of t + 1 and moves on one visit. -/
def stepRhoPi (a : List (List (BitVec 64))) : List (List (BitVec 64)) :=
  let l := a.flatten
  let vs := visits 25 1
  let m := ((vs.zip vs.tail).zipIdx).foldl (fun m e => m.set e.1.2 ((l.getD e.1.1 0).rotateLeft ((e.2 + 1) * (e.2 + 2) / 2 % 64))) l
  (List.range 5).map fun y => (m.drop (5 * y)).take 5
/-- χ: each lane of a plane with the two after it. -/
def stepChi (p : List (BitVec 64)) : List (BitVec 64) := xorPlane p (List.zipWith (fun u v => ~~~u &&& v) (turn 1 p) (turn 2 p))
/-- The shift register of ι, one step on. -/
def lfsr (r : Nat) : Nat := let d := 2 * r; if d < 256 then d else Nat.xor d 0x171
/-- The constant of a round, from seven bits of the register, and the register after them. -/
def roundWord (r : Nat) : BitVec 64 × Nat :=
  (List.range 7).foldl (fun a j => (if a.2 % 2 = 1 then a.1 ^^^ (1 <<< (2 ^ j - 1)) else a.1, lfsr a.2)) (0, r)
/-- ι, on the first lane. -/
def stepIota (k : BitVec 64) : List (List (BitVec 64)) → List (List (BitVec 64))
  | (v :: p) :: a => ((v ^^^ k) :: p) :: a
  | a => a
/-- Keccak-f[1600]: so many rounds, the register running along. -/
def keccakF : Nat → Nat → List (List (BitVec 64)) → List (List (BitVec 64))
  | 0, _, a => a
  | n + 1, r, a => let k := roundWord r; keccakF n k.2 (stepIota k.1 ((stepRhoPi (stepTheta a)).map stepChi))
/-- A block of 136 bytes, the rate of SHA3-256, as planes. -/
def blockPlanes (b : Bytes) : List (List (BitVec 64)) :=
  (List.range 5).map fun y => (List.range 5).map fun x => BitVec.ofNat 64 (field b (8 * (5 * y + x)) 8)
/-- Takes up blocks, the first argument bounding them. -/
def sponge : Nat → List (List (BitVec 64)) → Bytes → List (List (BitVec 64))
  | 0, a, _ => a
  | n + 1, a, bs => if bs.isEmpty then a else sponge n (keccakF 24 1 (List.zipWith xorPlane a (blockPlanes (bs.take 136)))) (bs.drop 136)

/-- The padding of SHA3: 0x06, zeros, 0x80 in the last byte of the block. -/
def sha3Pad (bs : Bytes) : Bytes :=
  let k := 136 - bs.length % 136
  if k = 1 then bs ++ [0x86] else bs ++ [0x06] ++ zeros (k - 2) ++ [0x80]

/-- The SHA3-256 digest as its 32 bytes. -/
def sha3 (bs : Bytes) : Bytes :=
  let p := sha3Pad bs
  let a := sponge (p.length / 136) (List.replicate 5 (List.replicate 5 0)) p
  ((a.flatten.take 4).map fun l => natLe 8 l.toNat).flatten

end Sys2Proof
end

