-- ==== Sys2Proof/Config.lean ====
section
/-! DEFINITION. What the manual leaves open as a value or a choice: uninterpreted constants with no body, applied to the
counter of free values that State holds (`State.free`), so that nothing about them can be proved and every claim holds for
every value of them. Assumption log 1. -/

namespace Sys2Proof.Config

/-- A free choice: number `i` of the choices made at counter `c`. Users take it modulo the number of alternatives. -/
opaque choice (c i : Nat) : Nat

/-- A free 64-bit word: number `i` of the words taken at counter `c`. -/
opaque freeWord (c i : Nat) : BitVec 64

/-- A BF16 element of a trained codebook (R92 names the training and does not define it): counter, subspace, entry, element. -/
opaque codebook (c subspace entry i : Nat) : BitVec 16

/-- The digest of Ouvzil service key `i` that the element's ROM holds (R380 gives no value). -/
opaque serviceKey (i : Nat) : Nat

/-- The Ouvzil certificate chain of slot 0, byte by byte, and its length (R378 gives no content). -/
opaque chainByte (i : Nat) : BitVec 8
opaque chainLength : Nat

/-- SHA3-256 of the committed record with its signature, by its `SEQ` (R379; the signature's bytes are not the manual's). -/
opaque recordDigest (seq : Nat) : BitVec 256

/-- One of `n` alternatives that the manual leaves open (for `n` = 0 there is none to pick and the number is the choice itself). -/
def pick (c i n : Nat) : Nat := choice c i % n

end Sys2Proof.Config
end

