-- ==== Sys2Proof/Machine/Num.lean ====
section
/-! DEFINITION. Number formats and narrowing (chapter 8), and the FP32 arithmetic of the tile cores (R133, R148): exact
values, rounding to nearest with ties to even, saturation, E8 block scales, sums in free order, and the functions that the
manual bounds in ulp. -/

namespace Sys2Proof

/-- The exact value of an element: (-1)^neg · m · 2^e, an infinity or NaN. -/
inductive Val where
  | nan
  | inf (neg : Bool)
  | fin (neg : Bool) (m : Nat) (e : Int)
deriving DecidableEq, Repr, Inhabited

/-- The bit layout of a floating-point format of Table 8.1. -/
structure Fmt where
  ebits : Nat
  mbits : Nat
  bias : Nat
  hasInf : Bool := true
deriving DecidableEq, Repr

/-- FP32, BF16, FP16, E4M3, E5M2 of Table 8.1, and FP64 for the sums of R203. -/
def fp32 : Fmt := { ebits := 8, mbits := 23, bias := 127 }
def bf16 : Fmt := { ebits := 8, mbits := 7, bias := 127 }
def fp16 : Fmt := { ebits := 5, mbits := 10, bias := 15 }
def e4m3 : Fmt := { ebits := 4, mbits := 3, bias := 7, hasInf := false }
def e5m2 : Fmt := { ebits := 5, mbits := 2, bias := 15 }
def fp64 : Fmt := { ebits := 11, mbits := 52, bias := 1023 }

/-- The value that the bits of a floating-point format encode (R190). -/
def Fmt.decode (f : Fmt) (b : Nat) : Val :=
  let man := b % 2 ^ f.mbits
  let ex := (b / 2 ^ f.mbits) % 2 ^ f.ebits
  let neg := (b / 2 ^ (f.mbits + f.ebits)) % 2 == 1
  if ex = 2 ^ f.ebits - 1 ∧ f.hasInf = true then (if man = 0 then .inf neg else .nan)
  else if ex = 2 ^ f.ebits - 1 ∧ man = 2 ^ f.mbits - 1 then .nan
  else if ex = 0 then .fin neg man (1 - (f.bias : Int) - f.mbits)
  else .fin neg (2 ^ f.mbits + man) ((ex : Int) - f.bias - f.mbits)

/-- A saturation or NaN counted by a narrowing (R194, Table 8.3). -/
inductive Sat where
  | none
  | range
  | clip
  | nan
deriving DecidableEq, Repr, Inhabited

/-- `m / 2^s` rounded to nearest, ties to even (R193). -/
def rneShift (m s : Nat) : Nat :=
  let q := m / 2 ^ s
  let r := m % 2 ^ s
  let h := 2 ^ s / 2
  if s = 0 then m else if r < h then q else if h < r then q + 1 else if q % 2 = 0 then q else q + 1

/-- A magnitude rounded to `p` significant bits with exponent at least `emin` (R193: subnormals kept). -/
def roundMag (p : Nat) (emin : Int) (m : Nat) (e : Int) : Nat × Int :=
  if m = 0 then (0, emin) else
  let t := max (e + (m.log2 + 1 : Nat) - p) emin
  if t ≤ e then (m * 2 ^ (e - t).toNat, t)
  else
    let q := rneShift m (t - e).toNat
    if q = 2 ^ p then (2 ^ (p - 1), t + 1) else (q, t)

/-- The bits of a format's largest finite magnitude (Table 8.1). -/
def Fmt.maxBits (f : Fmt) : Nat :=
  if f.hasInf then (2 ^ f.ebits - 1) * 2 ^ f.mbits - 1 else 2 ^ (f.ebits + f.mbits) - 2

/-- The canonical NaN of a format (Table 8.1). -/
def Fmt.nanBits (f : Fmt) : Nat :=
  if f.hasInf then (2 ^ f.ebits - 1) * 2 ^ f.mbits + 2 ^ (f.mbits - 1) else 2 ^ (f.ebits + f.mbits) - 1

/-- Narrowing of a value to a floating-point format (R193, R194, Table 8.3). -/
def Fmt.narrow (f : Fmt) (v : Val) : Nat × Sat :=
  let sgn (n : Bool) : Nat := if n then 2 ^ (f.ebits + f.mbits) else 0
  match v with
  | .nan => (f.nanBits, .none)
  | .inf n => if f.hasInf then (sgn n + (2 ^ f.ebits - 1) * 2 ^ f.mbits, .none) else (sgn n + f.maxBits, .range)
  | .fin n m e =>
    let r := roundMag (f.mbits + 1) (1 - (f.bias : Int) - f.mbits) m e
    if r.1 < 2 ^ f.mbits then (sgn n + r.1, .none)
    else
      let b := (r.2 + f.bias + f.mbits).toNat * 2 ^ f.mbits + (r.1 - 2 ^ f.mbits)
      if f.maxBits < b then (sgn n + f.maxBits, .range) else (sgn n + b, .none)

/-- The value of an FP32 word. -/
def ofF32 (w : BitVec 32) : Val := fp32.decode w.toNat

/-- A value narrowed to FP32. -/
def toF32 (v : Val) : BitVec 32 := BitVec.ofNat 32 (fp32.narrow v).1

/-- A natural number and an integer as values. -/
def Val.ofNat (n : Nat) : Val := .fin false n 0
def Val.ofInt (i : Int) : Val := .fin (decide (i < 0)) i.natAbs 0

/-- The negation of a value. -/
def Val.neg : Val → Val
  | .nan => .nan
  | .inf n => .inf (!n)
  | .fin n m e => .fin (!n) m e

/-- The magnitude of a value. -/
def Val.abs : Val → Val
  | .nan => .nan
  | .inf _ => .inf false
  | .fin _ m e => .fin false m e

/-- A finite value as an integer multiple of 2^e for an exponent not above its own. -/
def scaled (n : Bool) (m : Nat) (e lo : Int) : Int :=
  let k : Int := m * 2 ^ (e - lo).toNat
  if n then -k else k

/-- The exact sum; none where the manual states no result (an infinity less itself, or a NaN). -/
def Val.add? (a b : Val) : Option Val :=
  match a, b with
  | .nan, _ => none
  | _, .nan => none
  | .inf m, .inf n => if m = n then some (.inf m) else none
  | .inf m, _ => some (.inf m)
  | _, .inf n => some (.inf n)
  | .fin n1 m1 e1, .fin n2 m2 e2 =>
    let lo := min e1 e2
    let s := scaled n1 m1 e1 lo + scaled n2 m2 e2 lo
    some (.fin (if s = 0 then n1 && n2 else decide (s < 0)) s.natAbs lo)

/-- The exact product; none where the manual states no result (zero times an infinity, or a NaN). -/
def Val.mul? (a b : Val) : Option Val :=
  match a, b with
  | .nan, _ => none
  | _, .nan => none
  | .inf m, .inf n => some (.inf (m != n))
  | .inf m, .fin n k _ => if k = 0 then none else some (.inf (m != n))
  | .fin n k _, .inf m => if k = 0 then none else some (.inf (m != n))
  | .fin n1 m1 e1, .fin n2 m2 e2 => some (.fin (n1 != n2) (m1 * m2) (e1 + e2))

/-- The exact sum and product, NaN where the manual states none. -/
def Val.plus (a b : Val) : Val := (a.add? b).getD .nan
def Val.times (a b : Val) : Val := (a.mul? b).getD .nan

/-- Whether a value is below another; NaN is below nothing and nothing is below it (R84 for F32). -/
def Val.lt (a b : Val) : Bool :=
  match a, b with
  | .nan, _ => false
  | _, .nan => false
  | .inf m, .inf n => m && !n
  | .inf m, _ => m
  | _, .inf n => !n
  | .fin n1 m1 e1, .fin n2 m2 e2 =>
    let lo := min e1 e2
    decide (scaled n1 m1 e1 lo < scaled n2 m2 e2 lo)

/-- Whether two values are equal numbers; -0 equals +0, NaN equals nothing (R84). -/
def Val.eq (a b : Val) : Bool :=
  match a, b with
  | .nan, _ => false
  | _, .nan => false
  | _, _ => !a.lt b && !b.lt a

/-- Not above: less or equal. -/
def Val.le (a b : Val) : Bool := a.lt b || a.eq b

/-- Whether a value is NaN. -/
def Val.isNan : Val → Bool
  | .nan => true
  | _ => false

/-- An FP32 result: the exact value rounded once, or a free word where the manual states none. -/
def f32Of (c i : Nat) : Option Val → BitVec 32
  | some v => toF32 v
  | none => (Config.freeWord c i).truncate 32

/-- FP32 addition, multiplication and fused multiply-add, rounded once (R148). -/
def f32Add (c i : Nat) (a b : BitVec 32) : BitVec 32 := f32Of c i ((ofF32 a).add? (ofF32 b))
def f32Sub (c i : Nat) (a b : BitVec 32) : BitVec 32 := f32Of c i ((ofF32 a).add? (ofF32 b).neg)
def f32Mul (c i : Nat) (a b : BitVec 32) : BitVec 32 := f32Of c i ((ofF32 a).mul? (ofF32 b))
def f32Fma (c i : Nat) (a b d : BitVec 32) : BitVec 32 :=
  f32Of c i (((ofF32 a).mul? (ofF32 b)).bind fun p => p.add? (ofF32 d))

/-- The exact quotient with a sticky bit, good for one rounding to at most 64 bits; none for a zero divisor or a non-finite operand. -/
def Val.div? (a b : Val) : Option Val :=
  match a, b with
  | .fin n1 m1 e1, .fin n2 m2 e2 =>
    if m2 = 0 then none else
    let s := 80 + m2.log2
    let q := m1 * 2 ^ s / m2
    let r := m1 * 2 ^ s % m2
    some (.fin (n1 != n2) (2 * q + (if r = 0 then 0 else 1)) (e1 - e2 - s - 1))
  | .fin n1 _ _, .inf n2 => some (.fin (n1 != n2) 0 0)
  | _, _ => none

/-- FP32 division, rounded once. -/
def f32Div (c i : Nat) (a b : BitVec 32) : BitVec 32 := f32Of c i ((ofF32 a).div? (ofF32 b))

/-- The integer square root by bits: `n` bits of result still to try. -/
def isqrtGo : Nat → Nat → Nat → Nat
  | 0, _, r => r
  | n + 1, m, r => isqrtGo n m (if (r + 2 ^ n) * (r + 2 ^ n) ≤ m then r + 2 ^ n else r)

/-- The integer square root, rounded down. -/
def isqrt (m : Nat) : Nat := isqrtGo (m.log2 / 2 + 1) m 0

/-- The exact square root with a sticky bit; none below zero. -/
def Val.sqrt? (a : Val) : Option Val :=
  match a with
  | .fin n m e =>
    if m = 0 then some (.fin n 0 0) else if n then none else
    let e0 := if e % 2 = 0 then e else e - 1
    let m0 := if e % 2 = 0 then m else 2 * m
    let k := m0 * 2 ^ 160
    let q := isqrt k
    some (.fin false (2 * q + (if q * q = k then 0 else 1)) (e0 / 2 - 80 - 1))
  | .inf false => some (.inf false)
  | _ => none

/-- FP32 square root, rounded once. -/
def f32Sqrt (c i : Nat) (a : BitVec 32) : BitVec 32 := f32Of c i (ofF32 a).sqrt?

/-- The maximum and minimum of two FP32 words; a free word when one is NaN (the manual states no result). -/
def f32Max (c i : Nat) (a b : BitVec 32) : BitVec 32 :=
  if (ofF32 a).isNan || (ofF32 b).isNan then (Config.freeWord c i).truncate 32
  else if (ofF32 a).lt (ofF32 b) then b else a
def f32Min (c i : Nat) (a b : BitVec 32) : BitVec 32 :=
  if (ofF32 a).isNan || (ofF32 b).isNan then (Config.freeWord c i).truncate 32
  else if (ofF32 b).lt (ofF32 a) then b else a

/-- Take the element at an index out of a list. -/
def takeOut (xs : List α) (i : Nat) : List α := xs.eraseIdx i

/-- Whether writing a value to FP32 would pass the largest finite value (R196). -/
def f32Passes (v : Val) : Bool := (fp32.narrow v).2 == .range

/-- A sum of values in free order: two free elements are added and put back, rounding to FP32 at every addition (R133,
R204); `n` bounds the additions. Beside it, whether some addition passed the largest finite value (R196). -/
def sumGo (c : Nat) : Nat → List Val → Val × Bool
  | 0, xs => (xs.headD (.fin false 0 0), false)
  | n + 1, xs =>
    match xs with
    | [] => (.fin false 0 0, false)
    | [x] => (x, false)
    | x :: y :: zs =>
      let l := x :: y :: zs
      let i := Config.pick c (2 * n) l.length
      let a := l.getD i .nan
      let l1 := takeOut l i
      let j := Config.pick c (2 * n + 1) l1.length
      let v := a.add? (l1.getD j .nan)
      let r := sumGo c n (ofF32 (f32Of c n v) :: takeOut l1 j)
      (r.1, r.2 || v.any f32Passes)

/-- The FP32 sum of exact values in free order; no value gives +0. -/
def sumFree (c : Nat) (xs : List Val) : BitVec 32 := toF32 (sumGo c xs.length xs).1
/-- Some magnitude on the way to that sum passed the largest finite value and was taken back to it (R196). -/
def sumPasses (c : Nat) (xs : List Val) : Bool := let r := sumGo c xs.length xs; r.2 || f32Passes r.1

/-! Functions that the manual bounds in ulp of the FP32 result (R148, Table 6.7): a fixed-point approximation good to
well below an ulp, then a free step of at most the bound. -/

/-- Fractional bits of the fixed-point approximations. -/
def fxBits : Nat := 96

/-- ln 2 in fixed point, 96 fractional bits. -/
def fxLn2 : Int := 54916777467707473351141471128

/-- A finite value in fixed point, rounded toward minus infinity. -/
def fxOf (n : Bool) (m : Nat) (e : Int) : Int :=
  let k : Int := if e + fxBits ≥ 0 then m * 2 ^ (e + fxBits).toNat else m / 2 ^ (-(e + fxBits)).toNat
  if n then -k else k

/-- The Taylor sum of exp on a fixed-point argument: term i, terms left, current term, sum. -/
def expGo (x : Int) : Nat → Nat → Int → Int → Int
  | 0, _, _, acc => acc
  | n + 1, i, t, acc => let t' := t * x / 2 ^ fxBits / (i : Int); expGo x n (i + 1) t' (acc + t')

/-- exp of a finite value, approximately: a value whose relative error is far below an FP32 ulp. -/
def expApprox (n : Bool) (m : Nat) (e : Int) : Val :=
  let x := fxOf n m e
  if x > 200 * 2 ^ fxBits then .fin false 1 300
  else if x < -200 * 2 ^ fxBits then .fin false 1 (-300)
  else
    let k := x / fxLn2
    let r := x - k * fxLn2
    .fin false (expGo r 40 1 (2 ^ fxBits) (2 ^ fxBits)).toNat (k - fxBits)

/-- The series 2·(t + t³/3 + t⁵/5 …) of ln((1 + t)/(1 − t)) in fixed point. -/
def lnGo (t2 : Int) : Nat → Nat → Int → Int → Int
  | 0, _, _, acc => acc
  | n + 1, i, p, acc => lnGo t2 n (i + 2) (p * t2 / 2 ^ fxBits) (acc + p / (i : Int))

/-- ln of a positive finite value, approximately. -/
def lnApprox (m : Nat) (e : Int) : Val :=
  let k : Int := e + m.log2
  let y : Int := m * 2 ^ fxBits / 2 ^ m.log2
  let t := (y - 2 ^ fxBits) * 2 ^ fxBits / (y + 2 ^ fxBits)
  let s := 2 * lnGo (t * t / 2 ^ fxBits) 60 1 t 0 + k * fxLn2
  .fin (decide (s < 0)) s.natAbs (-(fxBits : Int))

/-- exp and, above zero, ln of a finite value to that precision; NaN of any other. -/
def Val.exp : Val → Val
  | .fin n m e => expApprox n m e
  | _ => .nan
def Val.ln : Val → Val
  | .fin false m e => if m = 0 then .nan else lnApprox m e
  | _ => .nan

/-- A value times a power of two, exactly. -/
def Val.scaleBy (v : Val) (k : Int) : Val :=
  match v with
  | .fin n m e => .fin n m (e + k)
  | w => w

/-- FP32 words in numeric order as integers, and back. -/
def ordOf (w : BitVec 32) : Int := if w.msb then -((w.toNat - 2 ^ 31 : Nat) : Int) else w.toNat
def ordTo (i : Int) : BitVec 32 := if i < 0 then BitVec.ofNat 32 (2 ^ 31 + i.natAbs) else BitVec.ofNat 32 i.toNat

/-- The FP32 word of a value, unless a candidate word lies no farther from it than a bound. -/
def boundedBy (v bound : Val) (w : BitVec 32) : BitVec 32 :=
  if (v.neg.plus (ofF32 w)).abs.le bound then w else toF32 v
/-- The unit of the last place of an FP32 word, at least 2^-126 (Table 6.7). -/
def ulpOf (w : BitVec 32) : Val := .fin false 1 (max (-126) (((w.toNat / 2 ^ 23 % 256 : Nat) : Int) - 150))

/-- A free FP32 word within `n` ulp of a value, kept finite (R148, Table 6.7): a word some steps away that lies within the
bound, else the value rounded. -/
def withinUlp (c i n : Nat) (v : Val) : BitVec 32 :=
  let w := if v.abs.lt (.fin false 1 (-103)) then
      toF32 (v.plus ((Val.ofInt ((Config.pick c i (n * 2 ^ 24 + 1) : Int) - n * 2 ^ 23)).scaleBy (-149)))
    else
      let o := ordOf (toF32 v) + (Config.pick c i (2 * n + 1) : Int) - n
      ordTo (max (-(0x7F7FFFFF : Int)) (min 0x7F7FFFFF o))
  boundedBy v ((Val.ofNat n).times (ulpOf w)) w

/-- Exponential (R148: 2 ulp); exp of -∞ is zero (R166); free for NaN; +∞ for +∞. -/
def f32Exp (c i : Nat) (a : BitVec 32) : BitVec 32 :=
  match ofF32 a with
  | .nan => (Config.freeWord c i).truncate 32
  | .inf true => 0
  | .inf false => toF32 (.inf false)
  | .fin n m e => withinUlp c i 2 (expApprox n m e)

/-- Natural logarithm (R148: 2 ulp); free at zero, below zero, at infinities and NaN (the manual states no result). -/
def f32Ln (c i : Nat) (a : BitVec 32) : BitVec 32 :=
  match ofF32 a with
  | .fin false m e => if m = 0 then (Config.freeWord c i).truncate 32 else withinUlp c i 2 (lnApprox m e)
  | _ => (Config.freeWord c i).truncate 32

/-- Reciprocal (R148: 2 ulp); free at zero and NaN. -/
def f32Rcp (c i : Nat) (a : BitVec 32) : BitVec 32 :=
  match (Val.ofNat 1).div? (ofF32 a) with
  | some v => withinUlp c i 2 v
  | none => (Config.freeWord c i).truncate 32

/-- Reciprocal square root (R148: 2 ulp); free at zero, below zero, at infinity and NaN. -/
def f32Rsq (c i : Nat) (a : BitVec 32) : BitVec 32 :=
  match ((ofF32 a).sqrt?).bind fun v => (Val.ofNat 1).div? v with
  | some v => withinUlp c i 2 v
  | none => (Config.freeWord c i).truncate 32

/-- tanh of a finite value, approximately: (E − 1)/(E + 1) with E = exp(2|x|). -/
def tanhApprox (n : Bool) (m : Nat) (e : Int) : Val :=
  let x := (fxOf false m e)
  if x > 40 * 2 ^ fxBits then .fin n 1 0
  else if m = 0 then .fin n 0 0
  else if x < 2 ^ (fxBits - 30) then .fin n m e
  else
    match expApprox false m (e + 1) with
    | .fin _ em ee =>
      let t : Int := if ee + fxBits ≥ 0 then em * 2 ^ (ee + fxBits).toNat else em / 2 ^ (-(ee + fxBits)).toNat
      .fin n ((t - 2 ^ fxBits) * 2 ^ fxBits / (t + 2 ^ fxBits)).toNat (-(fxBits : Int))
    | v => v

/-- tanh (R148: 2 ulp), ±1 at the infinities, free for NaN. -/
def f32Tanh (c i ulp : Nat) (a : BitVec 32) : BitVec 32 :=
  match ofF32 a with
  | .nan => (Config.freeWord c i).truncate 32
  | .inf n => toF32 (.fin n 1 0)
  | .fin n m e => withinUlp c i ulp (tanhApprox n m e)

/-! Element formats by their codes of Table 7.8. -/

/-- The BG4 grid by magnitude index, in quarters (R192, Table 8.2). -/
def bg4Grid : List Nat := [0, 3, 6, 9, 12, 16, 22, 30]

/-- The value of a BG4 code before scaling; code 0x8 decodes as zero (R190, R192). -/
def bg4Val (code : Nat) : Val := .fin (code % 16 ≥ 8 && code % 8 != 0) (bg4Grid.getD (code % 8) 0) (-2)

/-- The power of two that an E8 scale encodes; none for 0xFF (R191). -/
def e8Exp (s : Nat) : Option Int := if s = 255 then none else some ((s : Int) - 127)

/-- A value times a power of two, exactly. -/
def Val.scale (v : Val) (k : Int) : Val := v.scaleBy k

/-- The value of an element of format code 0 to 7 before scaling (R190, R448). -/
def elemVal (fmt code : Nat) : Val :=
  match fmt with
  | 0 => fp32.decode code
  | 1 => bf16.decode code
  | 2 => fp16.decode code
  | 3 => e4m3.decode code
  | 4 => e5m2.decode code
  | 5 => Val.ofInt (if code % 256 ≥ 128 then (code % 256 : Int) - 256 else (code % 256 : Int))
  | 6 => bg4Val code
  | _ => Val.ofNat code

/-- A value of a block with E8 scale `s` (R191). -/
def blockVal (fmt s code : Nat) : Val :=
  match e8Exp s with
  | none => .nan
  | some k => (elemVal fmt code).scale k

/-- The nearest BG4 magnitude index to m·2^e (e in quarters scaled by `q = 4·m·2^e`), boundaries to the even index (R193). -/
def bg4Index (m : Nat) (e : Int) : Nat × Bool :=
  -- compare 8·m·2^e (eighths) with the boundaries of Table 8.2 in eighths: 3, 9, 15, 21, 28, 38, 52
  let cmp (b : Nat) : Ordering :=
    if e + 3 ≥ 0 then compare (m * 2 ^ (e + 3).toNat) b else compare m (b * 2 ^ (-(e + 3)).toNat)
  let up (i b : Nat) : Bool := match cmp b with
    | .gt => true
    | .eq => i % 2 == 0
    | .lt => false
  -- `up i b` moves to index i when the value is past the boundary b below it
  let idx := ([3, 9, 15, 21, 28, 38, 52].zipIdx).foldl (fun a (b, i) => if up (i + 1) b then i + 1 else a) 0
  (idx, cmp 60 == .gt)

/-- Rounding of a finite value to the nearest integer, ties to even. -/
def roundInt (n : Bool) (m : Nat) (e : Int) : Int :=
  let k : Int := if e ≥ 0 then m * 2 ^ e.toNat else rneShift m (-e).toNat
  if n then -k else k

/-- Narrowing of a value (after any block scale) to format code 0 to 7 (R193, R194, Table 8.3, R448). -/
def narrowElem (fmt : Nat) (v : Val) : Nat × Sat :=
  match fmt with
  | 0 => fp32.narrow v
  | 1 => bf16.narrow v
  | 2 => fp16.narrow v
  | 3 => e4m3.narrow v
  | 4 => e5m2.narrow v
  | 5 =>
    match v with
    | .nan => (0, .nan)
    | .inf n => (if n then 129 else 127, .range)
    | .fin n m e =>
      let i := roundInt n m e
      if i > 127 then (127, .range) else if i < -127 then (129, .range) else ((i % 256).toNat, .none)
  | 6 =>
    match v with
    | .nan => (0, .nan)
    | .inf n => (if n then 15 else 7, .range)
    | .fin n m e =>
      let r := bg4Index m e
      ((if n && r.1 != 0 then 8 else 0) + r.1, if r.2 then .range else .none)
  | _ =>
    match v with
    | .nan => (0, .nan)
    | .inf n => (if n then 0 else 2 ^ 32 - 1, .range)
    | .fin n m e =>
      let i := roundInt n m e
      if i < 0 then (0, .range) else if i > 2 ^ 32 - 1 then (2 ^ 32 - 1, .range) else (i.toNat, .none)

/-- The limit of a block-scaled format as m·2^e (R195). -/
def fmtLimit (fmt : Nat) : Nat × Int :=
  match fmt with
  | 3 => (448, 0)
  | 4 => (57344, 0)
  | 5 => (127, 0)
  | _ => (30, -2)

/-- ceil(log₂(a·2^x ÷ b·2^y)) for a, b above zero. -/
def ceilLog2Ratio (a : Nat) (x : Int) (b : Nat) (y : Int) : Int :=
  -- smallest k with a·2^x ≤ b·2^(y+k)
  let k0 : Int := (x + a.log2) - (y + b.log2)
  let ok (k : Int) : Bool :=
    if x ≥ y + k then decide (a * 2 ^ (x - y - k).toNat ≤ b) else decide (a ≤ b * 2 ^ (y + k - x).toNat)
  if ok (k0 - 1) then k0 - 1 else if ok k0 then k0 else k0 + 1

/-- The finite magnitude of a value, 0 for a non-finite one. -/
def Val.finMag : Val → Nat × Int
  | .fin _ m e => (m, e)
  | _ => (0, 0)

/-- The largest finite magnitude of a block (R195: NaN and infinite elements never set the scale). -/
def maxMag (vs : List Val) : Nat × Int :=
  vs.foldl (fun a v => let b := v.finMag; if (Val.fin false a.1 a.2).lt (.fin false b.1 b.2) then b else a) (0, 0)

/-- The E8 scale of a block (R195). -/
def blockScale (fmt : Nat) (vs : List Val) : Nat :=
  let m := maxMag vs
  if m.1 = 0 then 0 else
  let l := fmtLimit fmt
  (max 0 (min 254 (127 + ceilLog2Ratio m.1 m.2 l.1 l.2))).toNat

/-- A block narrowed with a given scale: codes and what each element counted. -/
def narrowWith (fmt s : Nat) (vs : List Val) : List (Nat × Sat) :=
  vs.map fun v => narrowElem fmt (v.scale (127 - (s : Int)))

/-- A block narrowed under R195: scale, codes, saturations. -/
def narrowBlock (fmt : Nat) (vs : List Val) : Nat × List (Nat × Sat) :=
  let s := blockScale fmt vs
  (s, narrowWith fmt s vs)

/-- A value divided into blocks of 32 (the last may be shorter); `n` bounds the blocks. -/
def chunks32 : Nat → List α → List (List α)
  | 0, _ => []
  | n + 1, xs => match xs with
    | [] => []
    | _ => xs.take 32 :: chunks32 n (xs.drop 32)

/-- Blocks of 32 of a list. -/
def blocks32 (xs : List α) : List (List α) := chunks32 (xs.length / 32 + 1) xs

/-- Bytes per element of a format code, BG4 apart (Table 8.1). -/
def elemBytes (fmt : Nat) : Nat :=
  match fmt with
  | 0 => 4
  | 1 => 2
  | 2 => 2
  | 7 => 4
  | _ => 1

/-- Whether a format code carries E8 scales under the BLK bit (R167, R448). -/
def scaledFmt (fmt : Nat) (blk : Bool) : Bool := fmt == 6 || (blk && (fmt == 3 || fmt == 4 || fmt == 5))

/-- Bytes of a row of `n` elements: the codes, then one E8 scale per 32 elements where the format is scaled. -/
def rowBytes (fmt : Nat) (blk : Bool) (n : Nat) : Nat :=
  (if fmt = 6 then ceilDiv n 2 else n * elemBytes fmt) + (if scaledFmt fmt blk then ceilDiv n 32 else 0)

/-- Pack nibbles, even element in bits [3:0] (R18). -/
def packNibbles : List Nat → Bytes
  | [] => []
  | [a] => [BitVec.ofNat 8 (a % 16)]
  | a :: b :: r => BitVec.ofNat 8 (a % 16 + 16 * (b % 16)) :: packNibbles r

/-- Element codes as bytes. -/
def packCodes (fmt : Nat) (cs : List Nat) : Bytes :=
  if fmt = 6 then packNibbles cs else (cs.map fun c => natLe (elemBytes fmt) c).flatten

/-- Code of element `i` of a row. -/
def rowCode (fmt : Nat) (bs : Bytes) (i : Nat) : Nat :=
  if fmt = 6 then ((bs.getD (i / 2) 0).toNat / (if i % 2 = 0 then 1 else 16)) % 16
  else field bs (i * elemBytes fmt) (elemBytes fmt)

/-- The exact values of a row of `n` elements in memory: all codes, then all scales (Table 10.13's row form; log 16). -/
def rowVals (fmt : Nat) (blk : Bool) (bs : Bytes) (n : Nat) : List Val :=
  let codes := if fmt = 6 then ceilDiv n 2 else n * elemBytes fmt
  (List.range n).map fun i =>
    if scaledFmt fmt blk then blockVal fmt (bs.getD (codes + i / 32) 0).toNat (rowCode fmt bs i)
    else elemVal fmt (rowCode fmt bs i)

/-- A row of values narrowed and laid out; saturations in element order. -/
def narrowRow (fmt : Nat) (blk : Bool) (vs : List Val) : Bytes × List Sat :=
  if scaledFmt fmt blk then
    let bl := (blocks32 vs).map (narrowBlock fmt)
    (packCodes fmt (bl.map fun b => b.2.map Prod.fst).flatten ++ bl.map (fun b => BitVec.ofNat 8 b.1),
     (bl.map fun b => b.2.map Prod.snd).flatten)
  else
    let r := vs.map (narrowElem fmt)
    (packCodes fmt (r.map Prod.fst), r.map Prod.snd)

/-- Counts of range saturations, clip saturations and NaNs narrowed in a list (R201). -/
def satCounts (l : List Sat) : Nat × Nat × Nat :=
  (l.count .range, l.count .clip, l.count .nan)

end Sys2Proof
end

