-- ==== Sys2Proof/Machine/KWord.lean ====
section
/-! DEFINITION. The 128-bit Koelnu instruction words and their illegal encodings (R157 to R182, Tables 7.1 to 7.11). -/

namespace Sys2Proof.Machine

/-- Bits [hi:lo] of a word. -/
def kf (w : BitVec 128) (hi lo : Nat) : Nat := bits w.toNat hi lo
/-- Reserved bits [hi:lo] are zero. -/
def kz (w : BitVec 128) (hi lo : Nat) : Bool := kf w hi lo == 0

/-- The common header; a disabled wait or signal has zero fields (R157, R158). -/
def decodeHdr (w : BitVec 128) : Option KHdr :=
  let h : KHdr := { wen := bit w.toNat 8, wtk := BitVec.ofNat 5 (kf w 13 9), wcnt := BitVec.ofNat 8 (kf w 21 14)
                    wexp := BitVec.ofNat 4 (kf w 25 22), sen := bit w.toNat 26, stk := BitVec.ofNat 5 (kf w 31 27)
                    scnt := BitVec.ofNat 8 (kf w 39 32), sexp := BitVec.ofNat 4 (kf w 43 40) }
  if kz w 47 44 && (h.wen || kz w 25 9) && (h.sen || kz w 43 27) then some h else none

/-- A short sync field of 14 bits from `lo` (R158). -/
def decodeSync (w : BitVec 128) (lo : Nat) : Option KSync :=
  let v := kf w (lo + 13) lo
  if bit v 0 then some { en := true, tk := BitVec.ofNat 5 (bits v 5 1), cnt := BitVec.ofNat 8 (bits v 13 6) }
  else if v = 0 then some {} else none

/-- The vector operations by opcode (Table 7.9). -/
def vecOps : List VecOp := [.vadd, .vmul, .vfma, .vmax, .vmin, .vcmp, .vsel, .vcvt, .vexp, .vln, .vrcp, .vrsq, .vtanh,
  .vsum, .vrmax, .vtopk, .vpart, .vmerge, .vsample]

/-- Operations with no B (R168). -/
def vecNoB (o : VecOp) : Bool :=
  [VecOp.vcvt, .vexp, .vln, .vrcp, .vrsq, .vtanh, .vsum, .vrmax, .vmerge].contains o

/-- The operands of a vector word and its encoding rules (R167, R168, R448, Tables 7.8, 7.9). -/
def decodeVec (w : BitVec 128) (op : VecOp) : Option KOp :=
  let o : VOps := { dad := BitVec.ofNat 4 (kf w 51 48), aad := BitVec.ofNat 4 (kf w 55 52), bad := BitVec.ofNat 4 (kf w 59 56)
                    n1 := BitVec.ofNat 20 (kf w 79 60), afmt := BitVec.ofNat 4 (kf w 83 80), dfmt := BitVec.ofNat 4 (kf w 87 84)
                    blk := bit w.toNat 88, bimm := bit w.toNat 89, imm := BitVec.ofNat 32 (kf w 121 90)
                    cond := BitVec.ofNat 3 (kf w 124 122) }
  let big := [VecOp.vtopk, .vpart, .vmerge, .vsample].contains op
  if kz w 127 125 && decide (o.afmt.toNat < 8) && decide (o.dfmt.toNat < 8) &&
     (!(o.bimm || vecNoB op) || o.bad == 0) && (if op == .vcmp then decide (o.cond.toNat < 6) else o.cond == 0) &&
     !(o.bimm && big) && (op != .vmerge || o.afmt == 0 || o.afmt == 3)
  then some (.vec op o) else none

/-- Legal pairs of stationary and streaming formats, by the codes of Table 7.6 (Table 6.2, R134). -/
def pairOk (sf xf : Nat) : Bool :=
  (sf < 2 && xf < 2) || (sf == 2 && xf == 2) || (sf == 3 && xf == 3) || (sf == 4 && xf == 4) || ((sf == 5 || sf == 6) && xf < 2)
/-- The roles' formats (Table 6.3, R135, R164). -/
def roleOk (role sf : Nat) : Bool :=
  match role with
  | 0 => true
  | 1 => sf == 5
  | _ => sf ≤ 4

/-- `MM` (R164, Table 7.6). -/
def decodeMm (w : BitVec 128) : Option KOp :=
  match decodeSync w 78, decodeSync w 92, decodeSync w 106 with
  | some xw, some dw, some xs =>
    let o : MmOps := { sad := BitVec.ofNat 4 (kf w 51 48), xad := BitVec.ofNat 4 (kf w 55 52), dad := BitVec.ofNat 4 (kf w 59 56)
                       shp := BitVec.ofNat 3 (kf w 62 60), spc := BitVec.ofNat 3 (kf w 65 63), role := BitVec.ofNat 2 (kf w 67 66)
                       area := bit w.toNat 68, trans := bit w.toNat 69, sfmt := BitVec.ofNat 3 (kf w 72 70)
                       xfmt := BitVec.ofNat 3 (kf w 75 73), acc := bit w.toNat 76, keep := bit w.toNat 77, xw := xw, dw := dw, xs := xs }
    if kz w 127 120 && decide (o.role.toNat < 3) && decide (o.sfmt.toNat < 7) && decide (o.xfmt.toNat < 5) &&
       pairOk o.sfmt.toNat o.xfmt.toNat && roleOk o.role.toNat o.sfmt.toNat && (o.role == 1 || !o.area) && (o.role == 2 || !o.trans) &&
       (!o.keep || o.dad == 0)
    then some (.mm o) else none
  | _, _, _ => none

/-- `SPOUT` (R163, Table 7.5). -/
def decodeSpout (w : BitVec 128) : Option KOp :=
  let o : SpoutOps := { sci := BitVec.ofNat 3 (kf w 50 48), scale := BitVec.ofNat 2 (kf w 53 52), bias := BitVec.ofNat 2 (kf w 55 54)
                        act := BitVec.ofNat 3 (kf w 58 56), ofmt := BitVec.ofNat 4 (kf w 62 59), blk := bit w.toNat 63
                        dest := BitVec.ofNat 2 (kf w 65 64), scalead := BitVec.ofNat 4 (kf w 69 66), biasad := BitVec.ofNat 4 (kf w 73 70) }
  let f := o.ofmt.toNat
  if kz w 51 51 && kz w 127 74 && decide (o.scale.toNat < 3) && decide (o.bias.toNat < 3) && decide (o.act.toNat < 7) && decide (f < 7) &&
     decide (o.dest.toNat < 3) && (if f = 6 then o.blk else (!o.blk || f == 3 || f == 4 || f == 5)) && (o.dest != 2 || f == 0) &&
     (o.scale == 1 || o.scalead == 0) && (o.bias != 0 || o.biasad == 0)
  then some (.spout o) else none

/-- `CAP` lies from 1 to 2^16 and neither value is NaN (R163). -/
def spoutvOk (scalar cap : BitVec 32) : Bool :=
  !(ofF32 scalar).isNan && (Val.ofNat 1).le (ofF32 cap) && (ofF32 cap).le (Val.ofNat 65536)

/-- The operation of a word (R161, Table 7.3); none for an illegal encoding. -/
def decodeOp (w : BitVec 128) : Option KOp :=
  let op := kf w 7 0
  if 0x20 ≤ op ∧ op ≤ 0x32 then (vecOps[op - 0x20]?).bind (decodeVec w) else
  match op with
  | 0x00 => if kz w 127 51 && decide (kf w 50 48 < 6) then some (.nop (BitVec.ofNat 3 (kf w 50 48))) else none
  | 0x01 => if kz w 127 80 then some (.group (BitVec.ofNat 16 (kf w 63 48)) (BitVec.ofNat 16 (kf w 79 64))) else none
  | 0x02 => if kz w 127 48 then some .point else none
  | 0x03 => if kz w 127 53 && kf w 52 48 != 0 then some (.fence (BitVec.ofNat 5 (kf w 52 48))) else none
  | 0x04 => if kz w 127 76 && kf w 75 64 != 0 then some (.loop (BitVec.ofNat 16 (kf w 63 48)) (BitVec.ofNat 12 (kf w 75 64))) else none
  | 0x05 => if kz w 127 48 then some .endInv else none
  | 0x06 => if kz w 127 116 then some (.addr (BitVec.ofNat 4 (kf w 51 48)) (BitVec.ofNat 48 (kf w 99 52)) (BitVec.ofNat 16 (kf w 115 100))) else none
  | 0x07 => if kz w 127 84 then some (.addri (BitVec.ofNat 4 (kf w 51 48)) (BitVec.ofNat 32 (kf w 83 52))) else none
  | 0x40 => decodeMm w
  | 0x41 => if kz w 51 51 && kz w 127 100 then
      some (.shape (BitVec.ofNat 3 (kf w 50 48)) (BitVec.ofNat 16 (kf w 67 52)) (BitVec.ofNat 16 (kf w 83 68)) (BitVec.ofNat 16 (kf w 99 84))) else none
  | 0x42 => if kz w 51 51 && kz w 127 100 then
      some (.stride (BitVec.ofNat 3 (kf w 50 48)) (BitVec.ofNat 16 (kf w 67 52)) (BitVec.ofNat 16 (kf w 83 68)) (BitVec.ofNat 16 (kf w 99 84))) else none
  | 0x43 => decodeSpout w
  | 0x44 => let sc := BitVec.ofNat 32 (kf w 83 52); let cap := BitVec.ofNat 32 (kf w 115 84)
      if kz w 51 51 && kz w 127 116 && spoutvOk sc cap then some (.spoutv (BitVec.ofNat 3 (kf w 50 48)) sc cap) else none
  | 0x60 => match decodeSync w 83, decodeSync w 97 with
      | some dw, some xs => if kz w 127 111 && decide (kf w 82 80 < 6) then
          some (.mov { src := BitVec.ofNat 4 (kf w 51 48), dst := BitVec.ofNat 4 (kf w 55 52), len1 := BitVec.ofNat 24 (kf w 79 56)
                       pfmt := BitVec.ofNat 3 (kf w 82 80), dw := dw, xs := xs }) else none
      | _, _ => none
  | 0x61 => if kz w 127 123 && decide (kf w 122 120 < 6) then
      some (.mov2d { src := BitVec.ofNat 4 (kf w 51 48), dst := BitVec.ofNat 4 (kf w 55 52), row1 := BitVec.ofNat 16 (kf w 71 56)
                     rows1 := BitVec.ofNat 16 (kf w 87 72), sstr := BitVec.ofNat 16 (kf w 103 88), dstr := BitVec.ofNat 16 (kf w 119 104)
                     pfmt := BitVec.ofNat 3 (kf w 122 120) }) else none
  | 0x62 => match decodeSync w 68 with
      | some dw => if kz w 127 82 then some (.leafrd { list := BitVec.ofNat 4 (kf w 51 48), dst := BitVec.ofNat 4 (kf w 55 52)
                                                       count1 := BitVec.ofNat 12 (kf w 67 56), dw := dw }) else none
      | none => none
  | 0x80 => if kz w 127 69 then some (.tkset (BitVec.ofNat 5 (kf w 52 48)) (BitVec.ofNat 16 (kf w 68 53))) else none
  | 0x81 => if kz w 127 69 && kf w 68 53 != 0 then some (.semacq (BitVec.ofNat 5 (kf w 52 48)) (BitVec.ofNat 16 (kf w 68 53))) else none
  | 0x82 => if kz w 127 69 && kf w 68 53 != 0 then some (.semrel (BitVec.ofNat 5 (kf w 52 48)) (BitVec.ofNat 16 (kf w 68 53))) else none
  | _ => none

/-- A word decoded; none for an illegal encoding (R157, R183). -/
def decodeK (w : BitVec 128) : Option KWord :=
  match decodeHdr w, decodeOp w with
  | some h, some op => some { hdr := h, op := op }
  | _, _ => none

/-- Rows a `KEEP` instruction needs: M within one group and ceil(nt ÷ 2) × q within the bank (R140). -/
def keepFits (paired : Bool) (m n : Nat) : Bool :=
  let w := if paired then 256 else 128
  let g := if paired then 1024 else 2048
  decide (m ≤ g) && decide (ceilDiv (ceilDiv n w) 2 * ceilDiv m 4 ≤ (if paired then 256 else 512))

/-- Loop bodies lie in their variant and in their enclosing bodies, at most four deep (R180); `open_` holds the ends of the
bodies around word `i`, innermost first. -/
def loopsOkFrom (len : Nat) : Nat → List Nat → List (BitVec 128) → Bool
  | _, _, [] => true
  | i, open_, w :: ws =>
    let open_ := open_.filter fun e => decide (i < e)
    match decodeK w with
    | some { op := .loop _ body, .. } =>
      let e := i + 1 + body.toNat
      decide (e ≤ len) && decide (open_.length < 4) && (open_.all fun x => decide (e ≤ x)) && loopsOkFrom len (i + 1) (e :: open_) ws
    | some _ => loopsOkFrom len (i + 1) open_ ws
    | none => false

/-- Every word of a variant decodes without an illegal encoding (Table 7.15, check 5). -/
def codeOk (code : List (BitVec 128)) : Bool := loopsOkFrom code.length 0 [] code

end Sys2Proof.Machine
end

