-- ==== Sys2Proof/Machine/State.lean ====
section
/-! DEFINITION. The state of the module as plain data: every register, ring, queue, buffer, object, counter, mode and pin
that the manual gives it, with its value after reset as each field's default, and the reasons a step can stop.
Each field's comment gives its width or kind, the rule that names it, and its reset value. -/

namespace Sys2Proof.Machine

/-- The reasons a step stops with a fault. -/
inductive Fault where
  /-- Raised by `jtagAccess` alone: a probe in debug OPEN names an address that lies outside the memory it names (Table 9.1
  gives the sizes; R381 exposes every memory, and no rule says what an access beyond one does). Safe: the model stops. -/
  | noSuchAddress
deriving DecidableEq, Repr

/-- The reasons a step has no meaning. -/
inductive Refusal where
  /-- Raised by an arm of `exec` that has no meaning yet; the mnemonic is the table's. Safe: the model stops. -/
  | notModelled (mnemonic : String)
deriving DecidableEq, Repr

/-- Sparse memory: (address, byte) pairs with rising addresses, no entry zero; an unlisted address reads as zero. -/
abbrev Mem := List Host.Cell

/-- An MSI-X table entry (R430: masking follows the PCIe specification; Table 19.1). -/
structure Msix where
  /-- 64 bits; message address (19, R430); reset 0: DESIGN CHOICE 0, log 5. -/
  addr : BitVec 64 := 0
  /-- 32 bits; message data (19, R430); reset 0: DESIGN CHOICE 0, log 5. -/
  data : BitVec 32 := 0
  /-- 1 bit; vector control mask (19, R430); reset 1: PRESUMED 1 (PCIe's), log 5. -/
  masked : Bool := true
  /-- 1 bit; its bit of the pending-bit array (19, Table 19.1); reset 0: PRESUMED 0 (PCIe's), log 5. -/
  pend : Bool := false
deriving DecidableEq, Repr, Inhabited

/-- A completion entry before it is written (R251, Table 10.7), with its job's `NO_IRQ`. -/
structure CqEntry where
  jobId : Nat := 0
  item : Nat := 0
  status : Nat := 0
  final : Bool := true
  last : Bool := false
  truncated : Bool := false
  damage : Bool := false
  sq : Nat := 0
  resA : Nat := 0
  resC : Nat := 0
  resB : Nat := 0
  noIrq : Bool := false
  /-- key of its job; not part of what host software sees. -/
  job : Nat := 0
deriving DecidableEq, Repr, Inhabited

/-- A ring register with what the module keeps for the ring (Table 19.8, R234 to R238, R429, R430). -/
structure Ring where
  /-- 64 bits; `BASE` with zeros below bit 12 (19, Table 19.8); reset 0. -/
  base : BitVec 64 := 0
  /-- 5 bits; `SIZE_LOG2` (19, Table 19.8); reset 0. -/
  sizeLog2 : BitVec 5 := 0
  /-- 1 bit; `ENABLE` (19, Table 19.8); reset 0. -/
  enable : Bool := false
  /-- 1 bit; `ERROR` (19, Table 19.8); reset 0. -/
  error : Bool := false
  /-- 3 bits; `ERR_CAUSE` (19, Table 19.8); reset 0. -/
  errCause : BitVec 3 := 0
  /-- 4 bits; `TARGET_CQ` of an SQ (19, Table 19.8); reset 0. -/
  targetCq : BitVec 4 := 0
  /-- 8 bits; `VECTOR` of a CQ or event ring (19, Table 19.8); reset 17p + c, 17p + 16, 136 on PF1 and c, 16 on a VF. -/
  vector : BitVec 8 := 0
  /-- 16 bits; `COAL_COUNT` (19, Table 19.8); reset 0. -/
  coalCount : BitVec 16 := 0
  /-- 16 bits; `COAL_TIME` (19, Table 19.8); reset 0. -/
  coalTime : BitVec 16 := 0
  /-- 16 bits; `MODULE_INDEX` (19, Table 19.8); reset 0. -/
  moduleIndex : BitVec 16 := 0
  /-- 16 bits; `HOST_INDEX` (19, Table 19.8); reset 0. -/
  hostIndex : BitVec 16 := 0
  /-- 1 bit; phase the module writes next (10, R235); reset 1 when enabled (R429). -/
  phase : Bool := true
  /-- count; events dropped since the last posted event (10, R237); reset 0. -/
  lost : Nat := 0
  /-- queue; completion entries held while the ring is full (10, R237); reset empty. -/
  held : List CqEntry := []
  /-- count; entries since the last interrupt that count toward `COAL_COUNT` (19, R430); reset 0. -/
  unannounced : Nat := 0
  /-- 1 bit; the `COAL_TIME` interval runs (19, R430); reset 0. -/
  coalArmed : Bool := false
deriving DecidableEq, Repr, Inhabited

/-- The snapshot fields of a function (Table 19.7). -/
structure Snap where
  /-- 64 bits; `SNAP_ADDR` (19, Table 19.7); reset 0. -/
  addr : BitVec 64 := 0
  /-- 32 bits; `SNAP_LEN` (19, Table 19.7); reset 0. -/
  len : BitVec 32 := 0
  /-- 8 bits; `SNAP_MASK` (19, Table 19.7); reset 0. -/
  mask : BitVec 8 := 0
  /-- 1 bit; `BUSY` (19, Table 19.7, R409); reset 0. -/
  busy : Bool := false
deriving DecidableEq, Repr, Inhabited

/-- The host interface: what PF1 and the VFs carry (chapters 10 and 19), and host memory as the module's DMA sees it. -/
structure HostIf where
  /-- bytes by address; host memory, outside the module, that DMA reads and writes (10, R234, R249); reset unlisted, reads 0:
  DESIGN CHOICE 0, log 2. -/
  mem : Mem := []
  /-- address ranges (first, length) whose DMA reads PCIe completes with an error (10, R249); reset none: DESIGN CHOICE none, log 2. -/
  bad : List (Nat × Nat) := []
  /-- 8 × 16 rings; submission rings (10, R233); reset Table 19.8. -/
  sq : Vector (Vector Ring 16) 8 := Vector.replicate 8 (Vector.replicate 16 {})
  /-- 8 × 16 rings; completion rings (10, R233); reset Table 19.8. -/
  cq : Vector (Vector Ring 16) 8 :=
    Vector.ofFn fun p => Vector.ofFn fun c => { vector := BitVec.ofNat 8 (17 * p.val + c.val) }
  /-- 8 rings; the pots' event rings (10, R233); reset Table 19.8. -/
  ev : Vector Ring 8 := Vector.ofFn fun p => { vector := BitVec.ofNat 8 (17 * p.val + 16) }
  /-- ring; the module event ring (10, R232); reset Table 19.8. -/
  modEv : Ring := { vector := 136 }
  /-- 137 entries; PF1's MSI-X table and pending bits (19, Table 19.1); reset as `Msix`. -/
  msix : Vector Msix 137 := Vector.replicate 137 {}
  /-- 8 × 17 entries; the VFs' MSI-X tables (19, Table 19.10); reset as `Msix`. -/
  vfMsix : Vector (Vector Msix 17) 8 := Vector.replicate 8 (Vector.replicate 17 {})
  /-- list; MSI-X messages sent, newest first: function (0 PF1, n VF n) and vector (10, R238); reset none. -/
  irqs : List (Nat × Nat) := []
  /-- 4 bits; NumVFs when VF Enable is set, 0 when clear (10, R232; `VFS_ENABLED` of 19); reset 0. -/
  numVfs : Nat := 0
  /-- 8 × 4 bits; the ring each pot's queue core looks at next (10, R233); reset 0: DESIGN CHOICE 0, log 6. -/
  next : Vector Nat 8 := Vector.replicate 8 0
  /-- 9 × snapshot fields; PF1's then the VFs' (19, Table 19.7, Table 19.10); reset 0. -/
  snaps : Vector Snap 9 := Vector.replicate 9 {}
  /-- 1 bit; the PCIe link retrains and completions are held (15, R360); reset 0. -/
  retraining : Bool := false
  /-- queue; entries (pot, CQ, entry) held while the link retrains (15, R360); reset empty. -/
  linkHeld : List (Nat × Nat × CqEntry) := []
  /-- list; bytes read by the last sideband command: the answered value, none for an error completion (19, R424); reset none. -/
  sideband : Option (Option (BitVec 64)) := none
deriving DecidableEq, Repr, Inhabited

/-- Where a job stands between fetch and its `LAST` entry (R246 to R248, R218, R265). -/
inductive JobPhase where
  | fetched
  | ordered
  | deferred
  | admitted
  | preempted
deriving DecidableEq, Repr, Inhabited

/-- A lost-leaf record (R37, Table 2.5). -/
structure LostRec where
  space : Nat := 0
  layer : Nat := 0
  head : Nat := 0
  tail : Bool := false
  check : Bool := false
  known : Bool := false
  index : Nat := 0
  bays : BitVec 8 := 0
  step : Nat := 0
deriving DecidableEq, Repr, Inhabited

/-- One item of a job in flight (R251 to R254). -/
structure Item where
  /-- 32 bits; item index (10, R251). -/
  idx : Nat := 0
  /-- 1 bit; the final entry is posted (10, R252). -/
  done : Bool := false
  /-- 8 bits; the status earned so far, the first failure standing (10, R254). -/
  status : Nat := 0
  /-- 1 bit; an interim `DEFERRED` entry was posted (3, R64). -/
  deferred : Bool := false
  /-- 32 bits; `RESULT_A` so far (10, R253). -/
  resA : Nat := 0
  /-- 32 bits; `RESULT_C` so far, the lost-leaf count or owner mask (10, R253). -/
  resC : Nat := 0
  /-- 64 bits; `RESULT_B` so far (10, R253). -/
  resB : Nat := 0
  /-- 1 bit; `TRUNCATED` (10, R251). -/
  truncated : Bool := false
  /-- 1 bit; `GRAPH_DAMAGE` (10, R251). -/
  damage : Bool := false
  /-- at most 64; lost-leaf records in the order found (2, R37). -/
  lost : List LostRec := []
  /-- prompt tokens of a generate item, from admission to join (10, R244). -/
  prompt : List Nat := []
deriving DecidableEq, Repr, Inhabited

/-- An invocation on a core (R257). -/
structure Invocation where
  job : Nat := 0
  /-- item index, 0xFFFF_FFFF for step work. -/
  item : Nat := 0
  image : Nat := 0
  variant : Nat := 0
  ordinal : Nat := 0
  kind : Nat := 1
  rows : Nat := 0
  tokens : Nat := 0
  /-- END was dispatched. -/
  ending : Bool := false
  /-- END has completed. -/
  ended : Bool := false
  /-- a move to `JOB` or `PEER` was dispatched in this interval (7, R179). -/
  wrote : Bool := false
  /-- layer of its block, 0xFFFF for none (10, R257). -/
  layer : Nat := 0xFFFF
  /-- a `POINT` has fired since its entry (7, R179). -/
  pointed : Bool := false
  /-- weight ranges its pour window holds: core-store offset, weight offset, length (11, R268). -/
  poured : List (Nat × Nat × Nat) := []
deriving DecidableEq, Repr, Inhabited

/-- A leaf or centroid read in flight (R29, R33, R172). -/
structure LeafRead where
  /-- number; names the read. -/
  key : Nat := 0
  pot : Nat := 0
  space : Nat := 0
  tail : Bool := false
  layer : Nat := 0
  head : Nat := 0
  index : Nat := 0
  gen : Nat := 0
  /-- only dense cups want it (2, R30). -/
  dense : Bool := false
  /-- past the late-read limit or sent to reconstruction (2, R33). -/
  rebuilding : Bool := false
  /-- a copy arrived and failed R21. -/
  check : Bool := false
  /-- the original copy is unusable (2, R33, R35). -/
  origBad : Bool := false
  /-- its reconstruction failed: the unreadable bays (2, R35). -/
  rebuildBad : Option (BitVec 8) := none
  /-- cups of the step that selected it (2, R35). -/
  cups : List Nat := []
  /-- it reads the centroid page `index` of corpus `space` (2, R24, R25). -/
  cent : Bool := false
  /-- past the late-read limit (2, R33). -/
  late : Bool := false
  /-- `ATTEND` items that selected it: job and item (2, R35). -/
  atts : List (Nat × Nat) := []
  /-- core and move number of a `LEAFRD` that awaits it, with the page index (7, R172). -/
  movs : List (Nat × Nat × Nat) := []
deriving DecidableEq, Repr, Inhabited

/-- Where an `ATTEND` job stands (Table 10.3, R51): its item and layer, the pages that the layer's heads select. -/
structure Attending where
  item : Nat := 0
  layer : Nat := 0
  /-- the item's queries as read from host memory, and its result address. -/
  queries : Bytes := []
  resultAddr : Nat := 0
  /-- the layer's missing centroid pages have been asked for; its selection has been made. -/
  asked : Bool := false
  chosen : Bool := false
  /-- pages selected for the layer, head by head in sequence order. -/
  selected : List LeafRead := []
  /-- pages whose staging group is still to be read (2, R51). -/
  queued : List LeafRead := []
deriving DecidableEq, Repr, Inhabited

/-- A job in flight (R246). -/
structure Job where
  /-- number; names the job inside the module, in fetch order (10, R246). -/
  key : Nat := 0
  /-- 3 bits; the pot it was submitted on (10, R232). -/
  pot : Nat := 0
  /-- 4 bits; its submission ring (10, R233). -/
  ring : Nat := 0
  /-- 4 bits; the completion ring named at fetch (10, R233). -/
  cq : Nat := 0
  /-- 128 bytes; the descriptor as fetched (10, R239). -/
  desc : Bytes := []
  /-- where it stands (10, R247, R248). -/
  phase : JobPhase := .fetched
  /-- list; its items, once admitted (10, R252). -/
  items : List Item := []
  /-- number; admission order (11, R265). -/
  admitted : Nat := 0
  /-- µs of `time`; when it was fetched (11, R267 `QUEUE_WAIT`). -/
  fetchedAt : Nat := 0
  /-- µs of `time`; when it last became ready for a slice (11, R267 `QUEUE_WAIT`, `PREEMPT_TIME`). -/
  readyAt : Nat := 0
  /-- bytes; its owned footprint while admitted (9, R218, R269). -/
  footprint : Nat := 0
  /-- 1 bit; it has had a slice (11, R275). -/
  sliced : Bool := false
  /-- 1 bit; a whole-job `DEFERRED` was posted (9, R218). -/
  deferPosted : Bool := false
  /-- count; range saturations and NaNs narrowed since the last `SAT_EVENT` (8, R202). -/
  sat : Nat := 0
  /-- format code, layer and operator of the first of them (8, R202). -/
  satFirst : Nat × BitVec 16 × BitVec 16 := (0, 0xFFFF, 0xFFFF)
  /-- µs; time of its last `SAT_EVENT` (8, R202). -/
  satAt : Option Nat := none
  /-- µs; time of its last `STALL` (9, R224). -/
  stallAt : Option Nat := none
  /-- list (corpus, layer, generation); generations fixed at admission of a job without steps (2, R26). -/
  gens : List (Nat × Nat × Nat) := []
  /-- list; members still to answer, by ordinal (14, R346). -/
  awaiting : List Nat := []
  /-- list; its invocations saved at a pre-emption, one per core ordinal (11, R268); the saved areas are pool entries. -/
  parked : List Invocation := []
  /-- port and tag of the object-control transfer that it answers on a member module (14, R346); none on the home module. -/
  remote : Option (Nat × Nat) := none
  /-- 1 bit; this module's own part of a group object's job is done (14, R346). -/
  own : Bool := false
  /-- members that answered a group object's job with `OK`, by ordinal (14, R346). -/
  answered : List Nat := []
  /-- µs of `time`; when an instruction of it last fired on a core (7, R176). -/
  firedAt : Nat := 0
  /-- item of a `COLLECTION_APPEND` job whose `ENCODE` invocation has ended (4, R100; 10, R257). -/
  encoded : Option Nat := none
  /-- what an `ATTEND` job has in hand (10, Table 10.3); none for another and before it begins. -/
  attend : Option Attending := none
deriving DecidableEq, Repr, Inhabited

/-- A Koelnu program variant of a brew image (R186). -/
structure Variant where
  cores : Nat := 1
  entries : List (Nat × Nat) := []
  code : List (BitVec 128) := []
deriving DecidableEq, Repr, Inhabited

/-- A region of a brew image (R187). -/
structure RegionDef where
  number : Nat := 0
  tier : Nat := 0
  perCore : Bool := false
  receive : Bool := false
  size : Nat := 0
deriving DecidableEq, Repr, Inhabited

/-- A loaded brew image (R184 to R188, R449). -/
structure Image where
  /-- 32 bits; ID the module assigned (10, R241). -/
  id : Nat := 0
  /-- 3 bits; the pot that loaded it (10, R247). -/
  pot : Nat := 0
  /-- 1 bit; unloading (10, R449). -/
  unloading : Bool := false
  /-- job key of the unload in progress (10, R449). -/
  unloadJob : Nat := 0
  /-- 256 bytes; the header (7, R184). -/
  header : Bytes := []
  /-- list; its variants (7, R186). -/
  variants : List Variant := []
  /-- list; its regions (7, R187). -/
  regions : List RegionDef := []
  /-- bytes; the weight section, in the flash copy of R221 (9). -/
  weights : Bytes := []
  /-- 64 bits; `MODEL_TAG` of its weight section (7, R185). -/
  modelTag : Nat := 0
  /-- count; layers claimed as resident (3, R72). -/
  resident : Nat := 0
  /-- bytes; resident weight bytes (3, R72). -/
  residentBytes : Nat := 0
  /-- 1 bit; its resident layers wait for reload (17, R402). -/
  reload : Bool := false
  /-- bytes; units of its flash copy (9, R221). -/
  units : Nat := 0
  /-- variant and word of code words found uncorrectable in DRAM (7, R183; 9, R228); reset none. -/
  badCode : List (Nat × Nat) := []
deriving DecidableEq, Repr, Inhabited

/-- The states of a corpus (R56). -/
inductive CorpusState where
  | steeping
  | suspended
  | ready
  | deleting
deriving DecidableEq, Repr, Inhabited

/-- A stored leaf page (R17, R22): slot, generation and the page's bytes. -/
structure LeafPage where
  slot : Nat
  gen : Nat
  page : Bytes
deriving DecidableEq, Repr, Inhabited

/-- An entry of a space's lost list (R36). -/
structure LostLeaf where
  layer : Nat
  head : Nat
  index : Nat
  check : Bool
  bays : BitVec 8
deriving DecidableEq, Repr, Inhabited

/-- The last commit record of a steep (R57): the stage (0 none, 1 STAGED, 2 ENCODED, 3 INDEXED, 4 LAYER) and last layer. -/
structure SteepMark where
  stage : Nat := 0
  layers : Nat := 0
  gen : Nat := 1
  modelTag : Nat := 0
  encTag : Nat := 0
deriving DecidableEq, Repr, Inhabited

/-- A corpus (R22, R23, R56 to R60). -/
structure Corpus where
  /-- 32 bits; corpus ID (2, R22). -/
  id : Nat := 0
  /-- 3 bits; owning pot (2, R23). -/
  pot : Nat := 0
  /-- state (3, R56). -/
  st : CorpusState := .steeping
  /-- tokens T (2, R22). -/
  tokens : Nat := 0
  /-- layers L (2, R22). -/
  layers : Nat := 0
  /-- query heads H_q (2, R48). -/
  qHeads : Nat := 0
  /-- KV heads H_kv (2, R22). -/
  kvHeads : Nat := 0
  /-- 32 bits; its collection (10, Table 10.3). -/
  coll : Nat := 0
  /-- list; current `STEEP_GEN` of each layer, 0 before its first commit (2, R26). -/
  gens : List Nat := []
  /-- list; leaf pages on flash (2, R22). -/
  leaves : List LeafPage := []
  /-- list (index, generation, page); centroid pages on flash (2, R24). -/
  centroids : List (Nat × Nat × Bytes) := []
  /-- list; lost leaves (2, R36). -/
  lost : List LostLeaf := []
  /-- 1 bit; it carries a centroid graph (2, R25). -/
  graph : Bool := false
  /-- last commit record (3, R57). -/
  mark : SteepMark := {}
  /-- (first layer, count) of the steep that runs or was cut (3, R53). -/
  range : Nat × Nat := (0, 0)
  /-- job key of the steep that runs (3, R56). -/
  job : Option Nat := none
  /-- two hidden-state checkpoint copies (3, R57). -/
  hidden : Bytes × Bytes := ([], [])
  /-- staged token stream (3, Table 3.2). -/
  stream : List Nat := []
  /-- units; reserved and charged (3, R54). -/
  units : Nat := 0
  /-- shard mode 0 none, 1 native, 2 pool; member byte (2, R45). -/
  shard : Nat × Nat := (0, 0)
  /-- ordinal of the home module (10, Table 10.3). -/
  home : Nat := 0
  /-- records that its stage 1 wrote, in order (3, Table 3.2). -/
  recs : List Nat := []
  /-- chunk vectors of stage 2 that wait for the graph build of stage 3 (3, Table 3.2). -/
  vecs : List (List (BitVec 32)) := []
  /-- units reserved for collection pages until stage 3 commits (3, R54). -/
  collUnits : Nat := 0
  /-- prefill outputs of kind 8 that members sent: ordinal, layer, bytes (14, R346). -/
  outs : List (Nat × Nat × Bytes) := []
  /-- last layer whose prefill outputs this module sent in the steep that runs (14, R346); reset none. -/
  sentLayer : Option Nat := none
deriving DecidableEq, Repr, Inhabited

/-- A column of a collection's schema (R79, R81, R245). -/
structure Column where
  type : Nat := 1
  dict : List Bytes := []
deriving DecidableEq, Repr, Inhabited

/-- The state of a record or graph slot (R82, "The graph index"). -/
inductive LiveState where
  | free
  | live
  | dead
deriving DecidableEq, Repr, Inhabited

/-- A record (R78 to R82); `values` holds each column's stored bytes, none for null. -/
structure Rec where
  idx : Nat := 0
  gen : Nat := 0
  st : LiveState := .live
  values : List (Option Bytes) := []
  tokens : List Nat := []
  /-- chunk size and overlap of the steep that brought it (10, Table 10.3); (0, 0): the collection's. -/
  cut : Nat × Nat := (0, 0)
deriving DecidableEq, Repr, Inhabited

/-- A slot of a chunk graph with its slot word, code, list and vector (R91, R92). -/
structure Slot where
  idx : Nat := 0
  record : Nat := 0
  chunk : Nat := 0
  gen : Nat := 0
  st : LiveState := .live
  code : List (BitVec 8) := []
  vector : List (BitVec 16) := []
  edges : List (Nat × Nat) := []
  /-- the tombstone was set before the mending pass in progress began (4, R102). -/
  old : Bool := false
  /-- its list record was found unreadable (4, R98). -/
  listLost : Bool := false
deriving DecidableEq, Repr, Inhabited

/-- A collection (R78 to R82, R92). -/
structure Coll where
  /-- 32 bits; collection ID (4, R78). -/
  id : Nat := 0
  /-- 3 bits; owning pot (4, R78). -/
  pot : Nat := 0
  /-- 32 bits; encoder image (4, R79). -/
  encoder : Nat := 0
  /-- chunk size and overlap (4, R79). -/
  chunk : Nat := 512
  overlap : Nat := 0
  /-- 1 to 64; schema (4, R79). -/
  columns : List Column := []
  /-- graph build parameters of Table 4.6 (4, R92). -/
  distance : Nat := 0
  degree : Nat := 32
  dim : Nat := 64
  codeBytes : Nat := 16
  beam : Nat := 128
  alpha : BitVec 32 := 0x3F99999A
  /-- records (4, R82). -/
  recs : List Rec := []
  /-- slots of the chunk graph (4, R91). -/
  slots : List Slot := []
  /-- at most 8; entry slots (4, R91). -/
  entries : List Nat := []
  /-- the codebook, as the number of the free values it was trained to (`Config.codebook`); none before the first build (4, R92). -/
  codebook : Option Nat := none
  /-- job keys of the `RECALL`s that run (4, R105). -/
  recallers : List Nat := []
  /-- capacity units held (4, R82). -/
  units : Nat := 0
deriving DecidableEq, Repr, Inhabited

/-- Where a row of an embedding table is served from (R126). -/
inductive Redirect where
  | copy
  | shelf
  | demote
deriving DecidableEq, Repr, Inhabited

/-- A row record (R112): weight blocks, momentum blocks, row scalar; `bad` after an uncorrectable word (R228). -/
structure RowRec where
  row : Nat := 0
  w : List Bytes := []
  m : List Bytes := []
  scalar : BitVec 32 := 0
  bad : Bool := false
  /-- of a shelf copy: order of its last access (5, R125). -/
  used : Nat := 0
deriving DecidableEq, Repr, Inhabited

/-- An embedding table's slice on this module (R108 to R112, R120 to R129). -/
structure Table where
  /-- 32 bits; table ID (5, R108). -/
  id : Nat := 0
  /-- 3 bits; owning pot (5, R108). -/
  pot : Nat := 0
  rows : Nat := 0
  width : Nat := 32
  /-- 0 E4M3, 1 INT8, 2 BF16 (5, R109). -/
  format : Nat := 0
  /-- rule code (5, Table 5.2). -/
  rule : Nat := 0
  /-- 0 native, 1 pool (5, R110, R111). -/
  mode : Nat := 0
  /-- member byte (10, Table 10.3). -/
  members : Nat := 1
  /-- ordinal of the home module (10, R241). -/
  home : Nat := 0
  /-- list (holder, source); replica ranges (5, R111). -/
  replicas : List (Nat × Nat) := []
  /-- 10 × FP32; rule record (5, R122). -/
  hyper : List (BitVec 32) := []
  /-- 1 bit; `EMPTY` (5, R129). -/
  empty : Bool := false
  /-- row records written since the table was made or loaded; an unlisted row is all zero (5, R112). -/
  recs : List RowRec := []
  /-- shelf copies (5, R125). -/
  shelf : List RowRec := []
  /-- redirect entries (5, R126). -/
  redirect : List (Nat × Redirect) := []
  /-- four copies of the column statistics c of rule 3 (5, R121). -/
  stats : List (List (BitVec 32)) := []
  /-- last complete image: records and statistics (5, R129). -/
  image : Option (List RowRec × List (List (BitVec 32))) := none
  /-- of the home module: the image that a `TABLE_SAVE` has written and that not every member has answered for yet (5, R129). -/
  pending : Option (List RowRec × List (List (BitVec 32))) := none
  /-- quadrants whose copy of the column statistics is unreadable (9, R228). -/
  badStats : List Nat := []
  /-- promotions and demotions (5, R128). -/
  moves : Nat × Nat := (0, 0)
  /-- capacity units of its image (5, R129). -/
  units : Nat := 0
  /-- 2 × 64 bits, saturating; range saturations and NaNs narrowed of its writes (8, R201). -/
  sats : Nat × Nat := (0, 0)
deriving DecidableEq, Repr, Inhabited

/-- An addend or gradient that has arrived and is not yet applied (R117, R120). -/
structure Arrive where
  grad : Bool := false
  table : Nat := 0
  row : Nat := 0
  vals : List (BitVec 32) := []
  /-- the home item (job key, item), or the link transfer (port, tag) it answers (5, R119; 14, R345). -/
  item : Nat × Nat := (0, 0)
  link : Option (Nat × Nat) := none
deriving DecidableEq, Repr, Inhabited

/-- A bag item that waits for members' parts (R114, R116). -/
structure BagWait where
  job : Nat
  item : Nat
  /-- ordinals of the members outstanding. -/
  left : List Nat
  /-- FP32 accumulators of the table's full width, per bag. -/
  acc : List (List (BitVec 32))
deriving DecidableEq, Repr, Inhabited

/-- An add or update item in progress (R119, R124). -/
structure RowWait where
  job : Nat
  item : Nat
  table : Nat
  /-- ordinals of the members outstanding. -/
  left : List Nat
  /-- members that applied all of the item's rows. -/
  applied : List Nat
  /-- an own row could not be changed (9, R228). -/
  bad : Bool := false
deriving DecidableEq, Repr, Inhabited

/-- The embedding engines (chapter 5). -/
structure Embed where
  /-- addends and gradients to apply, in arrival order (5, R117, R120); reset empty. -/
  arrivals : List Arrive := []
  /-- 4 × 64; migration buffers of the quadrants, with the row that migrates (5, R126, R127); reset empty. -/
  buffer : Vector (List Arrive) 4 := Vector.replicate 4 []
  /-- 4 sketches: (table, row, count) in the current 10 ms window (5, R125); reset empty. -/
  sketch : Vector (List (Nat × Nat × Nat)) 4 := Vector.replicate 4 []
  /-- per quadrant, the `HOT_THRESHOLD` of a window that began before the last commit (19, R426); reset empty. -/
  hotOld : List (Nat × Nat) := []
  /-- hot rows that wait for shelf space: (table, row), oldest first (5, R125); reset empty. -/
  wanted : List (Nat × Nat) := []
  /-- rows not promoted again before a time in µs (5, R127); reset empty. -/
  bar : List (Nat × Nat × Nat) := []
  /-- bag items that wait for parts (5, R114); reset empty. -/
  bags : List BagWait := []
  /-- add and update items in progress (5, R119, R124); reset empty. -/
  waits : List RowWait := []
deriving DecidableEq, Repr, Inhabited

/-- A strainer pass of a filter item or a search (R86, R87, R96). -/
structure Strain where
  job : Nat := 0
  item : Nat := 0
  /-- true: the bitmap feeds a search; false: a `FILTER` item. -/
  search : Bool := false
  coll : Nat := 0
  /-- the predicate block (10, R245). -/
  pred : Bytes := []
  /-- live records at admission (4, R86). -/
  live : List Nat := []
  /-- column pages still to arrive: (column, first record, count) (4, R82). -/
  pages : List (Nat × Nat × Nat) := []
  /-- columns that the rows of a `FILTER` item give out (4, R89, R90). -/
  outs : List Nat := []
  /-- time in µs since which it waits for a page; an unusable copy came and a page is being reconstructed (4, R89). -/
  since : Nat := 0
  rebuilding : Bool := false
deriving DecidableEq, Repr, Inhabited

/-- A running graph search (R96). -/
structure Searching where
  job : Nat := 0
  item : Nat := 0
  coll : Nat := 0
  query : List (BitVec 32) := []
  /-- its strainer pass still runs (4, R96). -/
  waiting : Bool := false
  /-- slots live at admission (4, R96). -/
  atStart : List Nat := []
  /-- records that pass the filter, none for no predicate. -/
  pass : Option (List Nat) := none
  nf : Nat := 0
  k : Nat := 1
  w : Nat := 1
  rerank : Nat := 1
  prefetch : Nat := 0
  hopLimit : Nat := 0
  /-- beam: (code distance, slot, expanded), ordered. -/
  beam : List (BitVec 32 × Nat × Bool) := []
  visited : List Nat := []
  /-- result: (code distance, slot), ordered. -/
  result : List (BitVec 32 × Nat) := []
  hops : Nat := 0
  /-- an unreadable list page was met (4, R98). -/
  damage : Bool := false
  /-- list pages whose reads were issued (4, R96, R105). -/
  read : List Nat := []
  /-- list pages found unreadable (4, R98). -/
  lostPages : List Nat := []
  /-- time in µs since which it waits for a list page; an unusable copy came and the page is being reconstructed; it waits for codes or
  slot words from flash (4, R94, R98). -/
  since : Nat := 0
  rebuilding : Bool := false
  codes : Bool := false
  /-- traversal has ended; the rerank is due. -/
  traversed : Bool := false
deriving DecidableEq, Repr, Inhabited

/-- Where a cup stands (Table 3.3). -/
inductive CupPhase where
  | prefill
  | decode
  | leaving
deriving DecidableEq, Repr, Inhabited

/-- An open tail leaf of one layer and KV head: the rows of its tokens (R18, R67). -/
structure OpenLeaf where
  layer : Nat
  head : Nat
  rows : List KvRow
deriving DecidableEq, Repr, Inhabited

/-- A cup (R61 to R71, Table 3.3). -/
structure Cup where
  /-- 8 bits; cup index (3, R61). -/
  idx : Nat := 0
  pot : Nat := 0
  job : Nat := 0
  item : Nat := 0
  /-- the image that its job runs; 0 for a cup of another module. -/
  image : Nat := 0
  phase : CupPhase := .prefill
  /-- corpus attended, none for 0xFFFF_FFFF (10, Table 10.3). -/
  corpus : Option Nat := none
  /-- prompt tokens and how many are processed (3, R62). -/
  prompt : List Nat := []
  processed : Nat := 0
  /-- chunk fixed for the running step, 0 in decode (3, R63). -/
  chunk : Nat := 0
  /-- tokens sampled, in order (3, R77). -/
  out : List Nat := []
  maxNew : Nat := 0
  /-- sampling block (10, R243) and seed used (3, R74). -/
  sampling : Bytes := []
  seed : Nat := 0
  outAddr : Nat := 0
  resultAddr : Nat := 0
  /-- 32 bits; tail-space ID (2, "Corpora, spaces and leaf addresses"). -/
  tail : Nat := 0
  /-- sealed leaves per layer and KV head (3, R68), and the pages written (slot address, page). -/
  sealedLeaves : Nat := 0
  sealedPages : List (Nat × Nat × Nat × Bytes) := []
  /-- tokens held in the sealed leaves, for `FIRST_POSITION` (3, R70). -/
  sealedTokens : Nat := 0
  /-- open tail leaves (3, R67). -/
  openLeaves : List OpenLeaf := []
  /-- lost list of the tail space (2, R36). -/
  lost : List LostLeaf := []
  /-- steps run (2, Table 2.5). -/
  steps : Nat := 0
  /-- units reserved in the tail space (3, R67). -/
  units : Nat := 0
  /-- ordinal of its home module, none for a cup of this module (14, R350). -/
  home : Option Nat := none
  /-- 1 bit; its item has failed: `FAILED` of its last STEP_CLOSE record (14, R350). -/
  failed : Bool := false
deriving DecidableEq, Repr, Inhabited

/-- The step loop of one pot (R63). -/
structure StepLoop where
  /-- 1 bit; a step runs (3, R63); reset 0. -/
  running : Bool := false
  /-- 32 bits; the pot's step count (10, R257); reset 0. -/
  count : Nat := 0
  /-- generations pinned for the step: (corpus, layer, generation) (2, R26); reset empty. -/
  pinned : List (Nat × Nat × Nat) := []
  /-- attended spaces in pin order (10, R257); reset empty. -/
  spaces : List Nat := []
  /-- queries of the step whose centroid pages are still to come (2, R25); reset none. -/
  queries : Option (List StepQ) := none
  /-- queries of the running step (2, R27). -/
  asked : List StepQ := []
  /-- class 1 records that members sent for the running step: ordinal, bytes (14, R349); reset empty. -/
  records : List (Nat × Bytes) := []
  /-- `STEP_CLOSE` packets held for the next step: ordinal, step count, records (14, R350); reset empty. -/
  closes : List (Nat × Nat × List CloseRec) := []
  /-- the step's union: its pages, each with the cups that selected it (2, R29); reset empty. -/
  selected : List LeafRead := []
  /-- pages of the union whose staging group is still to be read (2, R51); reset empty. -/
  queued : List LeafRead := []
  /-- tail programs that the next step waits for: (cup, layer, head, index) (3, R69); reset empty. -/
  tailWait : List (Nat × Nat × Nat × Nat) := []
  /-- tail programs from growth buffers: (cup, layer, head, index) (3, R68); reset empty. -/
  growth : List (Nat × Nat × Nat × Nat) := []
  /-- peers whose STEP_CLOSE for the step the next one awaits (14, R350); reset empty. -/
  peers : List Nat := []
  /-- images whose pass of the running step is still to come, with their rows (3, R63; 10, R257); reset empty. -/
  passes : List (Nat × Nat) := []
  /-- 1 bit; orders 1 to 4 of a boundary are done and the step has not begun (3, R69); reset 0. -/
  between : Bool := false
deriving DecidableEq, Repr, Inhabited

/-- A shape register (R160, R162). -/
structure Shape where
  valid : Bool := false
  m : Nat := 1
  k : Nat := 1
  n : Nat := 1
  sstr : Nat := 0
  xstr : Nat := 0
  dstr : Nat := 0
deriving DecidableEq, Repr, Inhabited

/-- A spout configuration register (R160, R163). -/
structure SpoutCfg where
  valid : Bool := false
  o : SpoutOps := {}
  scalar : BitVec 32 := 0x3F800000
  cap : BitVec 32 := 0x3F800000
deriving DecidableEq, Repr, Inhabited

/-- A level of the loop stack (R180, Table 7.12). -/
structure LoopLevel where
  start : Nat
  left : Nat
  body : Nat
deriving DecidableEq, Repr, Inhabited

/-- An instruction in a unit's queue with the registers and tags read at dispatch (R159, R160). -/
structure QEntry where
  word : KWord
  /-- its word index. -/
  pc : Nat := 0
  /-- the registers the word names: D, A, B or S, X, D. -/
  regs : List (BitVec 48) := []
  shape : Shape := {}
  cfg : SpoutCfg := {}
  cfgAd : BitVec 48 × BitVec 48 := (0, 0)
  layer : BitVec 16 := 0xFFFF
  oper : BitVec 16 := 0xFFFF
deriving DecidableEq, Repr, Inhabited

/-- A stationary tile in load registers or active registers (R137): what each cell holds, row by row, with its check columns (R358). -/
structure Tile where
  rows : List (List Val) := []
  /-- the check columns' values of each row: the sum of its cells and of their magnitudes, FP32, or INT32 (15, R358). -/
  checks : List (BitVec 32 × BitVec 32) := []
  /-- some byte of it was poisoned (6, R152). -/
  poison : Option Arrival := none
  /-- the leaf's `TOKENS` as the tile was read, under `KEYS` (7, R166). -/
  tokens : Nat := 0
deriving DecidableEq, Repr, Inhabited

/-- What the check rows hold for a bank row (R358): the accumulated check value and magnitude, the inner dimension in them, and whether
an element or a sum was not finite or saturated, where the comparison has no meaning. -/
structure CheckRow where
  y : BitVec 32 := 0
  a : BitVec 32 := 0
  k : Nat := 0
  void : Bool := false
deriving DecidableEq, Repr, Inhabited

/-- A matrix instruction between its first load and its last drain (R139, R149). -/
structure MmRun where
  q : QEntry
  /-- number; tells it from every other one of its core. -/
  num : Nat := 0
  /-- loader has fired (stationary token taken), arrays have fired (streaming token taken), drains have begun. -/
  loaderOn : Bool := false
  arraysOn : Bool := false
  spoutOn : Bool := false
  loaded : Nat := 0
  landed : Nat := 0
  drained : Nat := 0
  /-- it continues a `KEEP` instruction (R140). -/
  cont : Bool := false
  /-- the leaf's `TOKENS` as the tile was read, under `KEYS` (7, R166). -/
  tokens : Nat := 0
deriving DecidableEq, Repr, Inhabited

/-- What a pool entry holds (Table 9.3). -/
inductive PoolKey where
  | leaf (space layer head index gen : Nat)
  | centroid (corpus page : Nat)
  | weights (image : Nat)
  | cup (idx : Nat)
  | staging (job : Nat)
  | table (id : Nat)
  | growth (cup layer head index : Nat)
  | region (job number copy : Nat)
  | steep (job part : Nat)
  | graph (coll part : Nat)
  | page (coll kind column first : Nat)
  | saved (job : Nat)
deriving DecidableEq, Repr, Inhabited

/-- A move in flight (R149, R170, R172): the bytes read at issue, where they go, and its signals. -/
structure Move where
  num : Nat := 0
  word : KWord
  regs : List (BitVec 48) := []
  layer : BitVec 16 := 0xFFFF
  oper : BitVec 16 := 0xFFFF
  /-- chunks (destination register value, bytes). -/
  chunks : List (BitVec 48 × Bytes) := []
  poison : Option Arrival := none
  /-- leaf pages still to land, by page index. -/
  leaves : List Nat := []
  /-- its word index. -/
  pc : Nat := 0
  /-- link transfers (port, tag) it became and that are not acknowledged, for `PEER`. -/
  peers : List (Nat × Nat) := []
  /-- pool entries it uses: none of them is taken before it has arrived (9, R216). -/
  uses : List PoolKey := []
  /-- the cause under which a wait for it is counted (9, Table 9.4). -/
  cause : Nat := 0
deriving DecidableEq, Repr, Inhabited

/-- A clip window (R197, R199, R203). -/
structure Window where
  layer : BitVec 16 := 0
  oper : BitVec 16 := 0
  /-- clip saturations of each of the last 256 blocks, newest first. -/
  blocks : List Nat := []
  /-- element count and the FP64 sums Σx², Σ(x − q)². -/
  sums : Nat × BitVec 64 × BitVec 64 := (0, 0, 0)
deriving DecidableEq, Repr, Inhabited

/-- A core's fault record (R183, Table 18.3). -/
structure FaultRec where
  kind : Nat := 0
  variant : Nat := 0
  pc : Nat := 0
  layer : BitVec 16 := 0xFFFF
  oper : BitVec 16 := 0xFFFF
deriving DecidableEq, Repr, Inhabited

/-- A logical tile core (chapters 6 and 7). -/
structure Core where
  /-- 6 bits; physical core, none when absent (6, R132); reset none until the self-test. -/
  phys : Option Nat := none
  /-- 20 MiB; core store (6, Table 6.1); reset 0 (R231). -/
  store : Mem := []
  /-- list (first, length, cause); poisoned core-store ranges (6, R152); reset empty. -/
  poison : List (Nat × Nat × Arrival) := []
  /-- 16 × 48 bits; AD0–AD15 (7, Table 7.2); reset 0. -/
  ad : Vector (BitVec 48) 16 := Vector.replicate 16 0
  /-- 8; SH0–SH7 (7, Table 7.2); reset invalid. -/
  sh : Vector Shape 8 := Vector.replicate 8 {}
  /-- 8; SC0–SC7 (7, Table 7.2); reset invalid. -/
  sc : Vector SpoutCfg 8 := Vector.replicate 8 {}
  /-- 16 bits; layer tag (7, Table 7.2); reset 0xFFFF. -/
  layer : BitVec 16 := 0xFFFF
  /-- 16 bits; operator tag (7, Table 7.2); reset 0xFFFF. -/
  oper : BitVec 16 := 0xFFFF
  /-- 32 × 16 bits; TK0–TK31 (6, R149); reset 0. -/
  tk : Vector (BitVec 16) 32 := Vector.replicate 32 0
  /-- at most 4; loop stack, innermost first (7, R180); reset empty. -/
  loops : List LoopLevel := []
  /-- word index; next word to dispatch (7, R159); reset 0. -/
  pc : Nat := 0
  /-- the invocation it runs (10, R257); reset none. -/
  run : Option Invocation := none
  /-- the front-end instruction that has been dispatched and not fired (7, R159); reset none. -/
  front : Option QEntry := none
  /-- at most 64; instructions before the loader, in order: `MM` and `NOP` (7, R159); reset empty. -/
  qLoader : List QEntry := []
  qArrays : List QEntry := []
  qSpout : List QEntry := []
  qVector : List QEntry := []
  qMove : List QEntry := []
  /-- matrix instructions in progress, oldest first (6, R149); reset empty. -/
  mms : List MmRun := []
  /-- moves in flight (6, R149); reset empty. -/
  moves : List Move := []
  /-- number of the next move. -/
  nextMove : Nat := 0
  /-- 2 banks per array: (bank, row, column) to the 32-bit value, zero when unlisted (6, R141); reset 0. -/
  banks : List ((Nat × Nat × Nat) × BitVec 32) := []
  /-- bank rows (bank, row) that hold poisoned values (6, R152); reset empty. -/
  bankPoison : List ((Nat × Nat) × Arrival) := []
  /-- check rows of the banks, by (bank, row) (15, R358); reset empty. -/
  checkRows : List ((Nat × Nat) × CheckRow) := []
  /-- at most 4; tiles in the load registers behind successive fronts, oldest first (6, R137, R138); reset empty. -/
  loads : List Tile := []
  /-- the tile in the active registers (6, R137); reset none. -/
  cells : Option Tile := none
  /-- number of the next matrix instruction. -/
  nextMm : Nat := 0
  /-- the `KEEP` instruction that holds the banks: M, N, tile width (6, R140); reset none. -/
  keep : Option (Nat × Nat × Nat) := none
  /-- 512 × FP32; the vector unit's lanes as the spout last filled them, lane 128a + c from column c of array a (6, R146); reset 0. -/
  lanes : Vector (BitVec 32) 512 := Vector.replicate 512 0
  /-- at most 64, most recently used first; clip windows (8, R199); reset empty. -/
  windows : List Window := []
  /-- 8 formats; conversion sums: count and FP64 Σx², Σ(x − q)² (8, R203); reset 0. -/
  conv : Vector (Nat × BitVec 64 × BitVec 64) 8 := Vector.replicate 8 (0, 0, 0)
  /-- its most recent fault record (18, R410); reset none. -/
  fault : Option FaultRec := none
  /-- it stands at a pre-emption point with the restart record written (11, R268); reset 0. -/
  parked : Bool := false
deriving DecidableEq, Repr, Inhabited

/-- The class of a pool entry (R211). -/
inductive PoolClass where
  | cached
  | owned
  | pinned
deriving DecidableEq, Repr, Inhabited

/-- A pool entry (R211, R212). -/
structure PoolEntry where
  key : PoolKey
  pot : Nat
  cls : PoolClass
  size : Nat
  /-- it is being moved to another tier (9, R216). -/
  hold : Bool := false
  /-- of an owned entry: the first 64 KiB frame of its object that this run of frames holds (9, R211). -/
  first : Nat := 0
  /-- of a pinned entry that waits: it belongs in the quadrant-store pool (9, R214). -/
  quad : Bool := false
  /-- placed as the oldest under R30 and used by dense cups alone since (9, R212). -/
  streamed : Bool := false
deriving DecidableEq, Repr, Inhabited

/-- The pools and the memories of the tiers (chapter 9). -/
structure Tiers where
  /-- DRAM pool, oldest first (9, R212); reset empty. -/
  dram : List PoolEntry := []
  /-- quadrant-store pool, oldest first (9, R212); reset empty. -/
  qstore : List PoolEntry := []
  /-- pinned allocations that wait: pot and entry (9, R214); reset empty. -/
  waits : List PoolEntry := []
  /-- the 16 GiB pour staging ring: image, layer and bytes of the flash-poured layers it holds, oldest first (3, R72); reset empty. -/
  ring : List (Nat × Nat × Nat) := []
  /-- owned frames spilled to flash: entry (9, R217); reset empty. -/
  spilled : List PoolEntry := []
  /-- region contents: (job, number, copy) to bytes (7, R187); reset empty. -/
  regions : List ((Nat × Nat × Nat) × Mem) := []
  /-- poisoned ranges of regions: region, first, length, cause (6, R152); reset empty. -/
  regionPoison : List ((Nat × Nat × Nat) × Nat × Nat × Arrival) := []
  /-- 4 × 64 MiB; quadrant stores as addressed by the probe (9, Table 9.1); reset 0 (R231). -/
  quads : Vector Mem 4 := Vector.replicate 4 []
  /-- 8 × 48 GiB; DRAM stacks as addressed by the probe (9, Table 9.1); reset 0 (R231). -/
  dramMem : Vector Mem 8 := Vector.replicate 8 []
  /-- 4; media buffers (9, R225); reset 0 (R231). -/
  media : Vector Mem 4 := Vector.replicate 4 []
  /-- 16; control-core memories (9, R225); reset 0 (R231). -/
  control : Vector Mem 16 := Vector.replicate 16 []
  /-- core stores of physical cores that no logical core maps, as the probe sees them (9); reset 0 (R231). -/
  spare : List (Nat × Mem) := []
  /-- memory and addresses whose byte is the probe's last write; the module's own placement is not the manual's (16, R381); reset
  empty: DESIGN CHOICE, log 19. -/
  probed : List (MemTier × Nat) := []
  /-- words whose last scrub read was corrected: tier, address, bit positions (9, R227); reset empty. -/
  suspects : List (MemTier × Nat × List (Fin 80)) := []
  /-- hard-fault records: tier, word address (9, R227); reset empty. -/
  hard : List (MemTier × Nat) := []
deriving DecidableEq, Repr, Inhabited

/-- A semaphore (R175). -/
structure Sem where
  count : Nat := 1
  /-- units held per job. -/
  held : List (Nat × Nat) := []
  /-- waiting acquires in arrival order: core, job, units. -/
  waiting : List (Nat × Nat × Nat) := []
deriving DecidableEq, Repr, Inhabited

/-- The running state of a pot (chapter 11). -/
structure Pot where
  /-- 2 bits; `POT_STATE` (19, Table 19.3); reset pot 0: 1, others 0. -/
  st : BitVec 2 := 0
  /-- 48 bits; its cores now, as absent cores leave (6, R156); reset from the committed record. -/
  cores : BitVec 48 := 0
  /-- 2 bits; quadrant whose queue core serves it (10, R233); reset 0. -/
  quad : Nat := 0
  /-- 32; semaphores (7, R175); reset 1 each. -/
  sems : Vector Sem 32 := Vector.replicate 32 {}
  /-- 16, signed core-ns; ring deficits (11, R265); reset 0. -/
  deficit : Vector Int 16 := Vector.replicate 16 0
  /-- 16; engine time charged to each ring since the last choice (11, R265); reset 0. -/
  charged : Vector Nat 16 := Vector.replicate 16 0
  /-- key of the core or task job that holds the slice (11, R265); reset none. -/
  running : Option Nat := none
  /-- words of its record, by offset, that stay in force to its next slice boundary (11, R261); reset none. -/
  kept : List (Nat × BitVec 64) := []
  /-- 1 bit; its slice has ended and the next point pre-empts it (11, R265); reset 0. -/
  switchDue : Bool := false
  /-- 1 bit; the drain of R270 has been given up at this point (11); reset 0. -/
  drainRetry : Bool := false
  /-- the waiting job that a semaphore loan charges, and the holder it runs (11, R271); reset none. -/
  loan : Option (Nat × Nat) := none
  /-- step loop (3, R63); reset idle. -/
  loop : StepLoop := {}
  /-- `GUARANTEE_BROKEN` amounts not yet posted, per code 3 to 5, and when each code was last posted (11, R275); reset none. -/
  owed : List (Nat × Nat) := []
  postedAt : List (Nat × Nat) := []
  /-- words corrected and words uncorrectable in what it holds (9, R226; 15, R359); reset 0. -/
  words : Nat × Nat := (0, 0)
deriving DecidableEq, Repr, Inhabited

/-- The NVMe completion statuses the manual names (chapter 12, 17). -/
inductive NvStatus where
  | success
  | invalidOpcode
  | invalidField
  | invalidNamespace
  | notReady
  | writeFault
  | unrecoveredRead
  | invalidQueueId
  | invalidQueueSize
  | nsIdUnavailable
  | nsCapacity
  | invalidFwImage
  | invalidFwSlot
  | sequenceError
  | needsReset
  | maxTimeViolation
  | internalError
  | other
deriving DecidableEq, Repr, Inhabited

/-- An NVMe completion posted (R276). -/
structure NvDone where
  cmd : NvCmd
  status : NvStatus
  result : Nat := 0
deriving DecidableEq, Repr, Inhabited

/-- A block of acknowledged or waiting write data (R284): namespace, LBA, data, its write. -/
structure BufBlock where
  nsid : Nat
  lba : Nat
  data : Bytes
  seq : Nat
deriving DecidableEq, Repr, Inhabited

/-- An intent record (R288, Table 12.4). -/
structure Intent where
  nsid : Nat
  slba : Nat
  nlb : Nat
  sqid : Nat
  cid : Nat
  seq : Nat
deriving DecidableEq, Repr, Inhabited

/-- An entry of the loss log (Table 12.4). -/
structure LossEntry where
  nsid : Nat
  unknown : Bool
  slba : Nat
  nlb : Nat
  sqid : Nat
  cid : Nat
  ackSeq : Nat
deriving DecidableEq, Repr, Inhabited

/-- A namespace (R280): its durable blocks, and which of them a completed Flush or a FUA write covers (R293). -/
structure Namespace where
  nsid : Nat := 0
  pot : Nat := 0
  nsze : Nat := 0
  attached : Bool := false
  key : Nat := 0
  /-- durable blocks: LBA, sequence of the write or deallocation, data (none of it: deallocated). -/
  blocks : List (Nat × Nat × Bytes) := []
  /-- blocks that a completed Flush or a FUA write covers (12, R293). -/
  flushed : List Nat := []
deriving DecidableEq, Repr, Inhabited

/-- An I/O command of PF0 (Table 12.1). -/
inductive NvIo where
  | read (slba nlb : Nat) (prp : Prp) (readable : Bool)
  | write (slba nlb : Nat) (prp : Prp) (fua : Bool)
  | flush
  | zeroes (slba nlb : Nat)
  | dsm (deallocate : Bool) (ranges : List (Nat × Nat))
deriving DecidableEq, Repr, Inhabited

/-- A command that waits for data to become durable or for room (R284 to R288). -/
inductive NvWait where
  /-- a write that completes when durable: its sequence. -/
  | write (cmd : NvCmd) (seq : Nat)
  /-- a Flush: the sequence next when it was fetched, and the writes it still waits for. -/
  | flush (cmd : NvCmd) (bound : Nat) (seqs : List Nat)
  /-- a write that waits for room or for an intent record. -/
  | room (cmd : NvCmd) (slba : Nat) (data : List Bytes) (fua : Bool)
  /-- a namespace delete that waits for earlier commands. -/
  | delete (cmd : NvCmd)
  /-- an I/O command held in PS3 or PS4 (16, Table 16.10). -/
  | io (cmd : NvCmd) (io : NvIo)
deriving DecidableEq, Repr, Inhabited

/-- The storage function (chapter 12). -/
structure Nvme where
  /-- 1 bit; CC.EN (12, R276); reset 0: PRESUMED 0 (NVMe's), log 9. -/
  enabled : Bool := false
  /-- 1 bit; CSTS.RDY (17, R390); reset 0. -/
  ready : Bool := false
  /-- 1 bit; CSTS.CFS (17, R396); reset 0. -/
  cfs : Bool := false
  /-- 1 bit; CSTS.PP (17, R404); reset 0. -/
  paused : Bool := false
  /-- I/O completion queues: id, size, base (12, R279); reset none. -/
  cqs : List (Nat × Nat × Nat) := []
  /-- I/O submission queues: id, size, base, CQ (12, R279); reset none. -/
  sqs : List (Nat × Nat × Nat × Nat) := []
  /-- namespaces (12, R280); reset none. -/
  spaces : List Namespace := []
  /-- write buffer: acknowledged blocks not yet durable (12, R284); reset empty. -/
  buffer : List BufBlock := []
  /-- intent records (12, R288); reset empty. -/
  intents : List Intent := []
  /-- number; sequence of the next write command (12, R287; 13, Table 13.3); reset 1: DESIGN CHOICE 1, log 10. -/
  seq : Nat := 1
  /-- commands that wait (12, R284 to R286); reset empty. -/
  waits : List NvWait := []
  /-- 1 bit; volatile write cache enabled (12, R285); reset 1: PRESUMED 1 (NVMe drives'), log 9. -/
  wce : Bool := true
  /-- Host Memory Buffer descriptors, none when revoked (12, R294); reset none. -/
  hmb : Option (List (Nat × Nat)) := none
  /-- other feature values set by Set Features: id, value (12, R277); reset none. -/
  features : List (Nat × Nat) := []
  /-- Asynchronous Event Requests held (12, R291); reset none. -/
  aers : List NvCmd := []
  /-- asynchronous events not yet reported: the log page each names (12, R291); reset none. -/
  events : List Nat := []
  /-- completions posted, newest first (12, R276); reset none. -/
  done : List NvDone := []
  /-- loss log entries, oldest first (12, R290); reset empty. -/
  loss : List LossEntry := []
  /-- power losses recorded since the log was cleared (12, Table 12.3); reset 0. -/
  losses : Nat := 0
  /-- what the dump of a power loss will enter into the loss log at the next start (12, R289, R290); reset empty. -/
  dump : List LossEntry := []
  /-- error log, newest first: NSID, block, time, flushed (12, Table 12.6); reset empty. -/
  errors : List (Nat × Nat × Nat × Bool) := []
  /-- counts of Table 12.6 page 0xC3: Flushes, HMB misses, HMB check failures; unsafe shutdowns; integrity errors (12); reset 0. -/
  flushes : Nat := 0
  hmbMisses : Nat := 0
  hmbFails : Nat := 0
  unsafeShutdowns : Nat := 0
  integrity : Nat := 0
  /-- the last sanitize: 0 none, 1 block erase, 2 crypto erase (12, R277); reset 0. -/
  sanitized : Nat := 0
deriving DecidableEq, Repr, Inhabited

/-- The state of a physical block (R308, Table 13.7). -/
inductive BlockState where
  | free
  | openPslc
  | openQlc
  | closed
  | erasing
  | suspended
  | eraseUnknown
  | retired
deriving DecidableEq, Repr, Inhabited

/-- A physical block's entry of the block table (R308, R309, R315). -/
structure Block where
  st : BlockState := .free
  /-- 30 bits; erase counter (13, R309). -/
  erases : Nat := 0
  /-- reads since the last erase (13, R315), and the durable count. -/
  reads : Nat := 0
  durable : Nat := 0
  /-- `SEQ` of its last page when closed (13, R313). -/
  seq : Nat := 0
  /-- 1 bit; programmed in pSLC mode (13, R315). -/
  pslc : Bool := false
  /-- die watchdog expiries (17, R405). -/
  timeouts : Nat := 0
  /-- 1 bit; marked bad at manufacture (13, R326). -/
  factory : Bool := false
  /-- powered minutes at closing (15, R362). -/
  closedAt : Nat := 0
deriving DecidableEq, Repr, Inhabited

/-- A wear-log entry (R321, Table 13.11). -/
structure WearEntry where
  kind : Nat
  bay : Nat
  wearUsed : Nat
  spareLeft : Nat
  epoch : Nat
deriving DecidableEq, Repr, Inhabited

/-- How far the bring-up of a bay has come (Table 13.12). -/
inductive BayStage where
  | idle
  | powering
  | linked
  | authentic
  | up
deriving DecidableEq, Repr, Inhabited

/-- A bay and the caddy in it (R299 to R330, Tables 13.14, 19.5). -/
structure Bay where
  /-- 3 bits; `STATE` of Table 13.14 (13, R325); reset 0 (empty). -/
  st : BitVec 3 := 0
  /-- 1 bit; a caddy is seated (13, R323); reset 0: DESIGN CHOICE 0, log 11. -/
  present : Bool := false
  /-- stage of Table 13.12 (13, R323); reset idle. -/
  stage : BayStage := .idle
  /-- 4 bits; `LANES` (19, Table 19.5); reset 0. -/
  lanes : Nat := 0
  /-- 64 bits; `SERIAL` (19, Table 19.5); reset 0. -/
  serial : Nat := 0
  /-- 1 bit; `SAFE` (19, Table 19.5); reset 0. -/
  safe : Bool := false
  /-- 1 bit; a removal is in progress (13, R324); reset 0. -/
  removing : Bool := false
  /-- 1 bit; lever open (20, R443); reset 0: DESIGN CHOICE 0, log 11. -/
  lever : Bool := false
  /-- 1 bit; `CADDY_INSERTED` was posted, or it was present at the last start (13, R324); reset 0. -/
  announced : Bool := false
  /-- 1 bit; present at a start, so its bring-up posts nothing (17, R391); reset 0. -/
  quiet : Bool := false
  /-- membership record: module digest, bay, epoch (13, R321); reset none. -/
  member : Option (Nat × Nat × Nat) := none
  /-- 8 bits; `WEAR_USED` (13, R322); reset 0. -/
  wearUsed : Nat := 0
  /-- 8 bits; `SPARE_LEFT` (13, R322); reset 0 (empty bay): DESIGN CHOICE 0, log 11. -/
  spareLeft : Nat := 0
  /-- 16 bits; `RATED` (13, R320); reset 1500. -/
  rated : Nat := 1500
  /-- 1 bit; read-only at end of life (13, R322); reset 0. -/
  readOnly : Bool := false
  /-- 8 × 64 bits; counters of Table 13.14 (13, R325); reset 0. -/
  counters : Vector Nat 8 := Vector.replicate 8 0
  /-- the counters as last made durable (13, R325); reset 0. -/
  durable : Vector Nat 8 := Vector.replicate 8 0
  /-- Kelvin; `TEMP_NOW`, `TEMP_MAX` (13, R325); reset 0: DESIGN CHOICE 0, log 11. -/
  tempNow : Nat := 0
  tempMax : Nat := 0
  /-- 16 counts; `TEMP_HIST` (13, R325); reset 0. -/
  tempHist : Vector Nat 16 := Vector.replicate 16 0
  /-- 1 bit; its member is absent until rebuilt (13, R323); reset 0. -/
  absent : Bool := false
  /-- rebuild mark: groups walked, none when no rebuild (13, R329); reset none. -/
  rebuild : Option Nat := none
  /-- stripes rebuilt so far (10, Table 10.11); reset 0. -/
  rebuilt : Nat := 0
  /-- block table entries that differ from `blank` (13, R308); reset empty. -/
  blocks : List (Nat × Block) := []
  /-- what an unlisted block is (13, R308); reset FREE, no erases: DESIGN CHOICE, log 11. -/
  blank : Block := {}
  /-- positions moved to a spare block: position, physical block (13, R303); reset none. -/
  remap : List (Nat × Nat) := []
  /-- at most 1,024, newest first; wear log (13, R321); reset empty. -/
  wearLog : List WearEntry := []
  /-- 1 bit; powered down after a thermal trip (16, R388); reset 0. -/
  tripped : Bool := false
  /-- lanes taken out of service since the bay powered up (15, R355); reset none. -/
  lanesOut : List Nat := []
deriving DecidableEq, Repr, Inhabited

/-- What a stripe member's program carries (R304). -/
inductive Payload where
  | host (nsid lba seq : Nat)
  | journal
  | other
deriving DecidableEq, Repr, Inhabited

/-- A die operation in flight (R300, R310, R405). -/
structure MediaOp where
  key : Nat := 0
  /-- 0 read, 1 program, 2 erase. -/
  kind : Nat := 0
  bay : Nat := 0
  group : Nat := 0
  page : Nat := 0
  /-- stripe it belongs to, for a program. -/
  stripe : Nat := 0
  /-- read attempts made (13, R301). -/
  tries : Nat := 0
  /-- suspensions taken and reads served in the current one (13, R310). -/
  suspends : Nat := 0
  served : Nat := 0
  suspended : Bool := false
  /-- the leaf read it serves, 0 for none. -/
  read : Nat := 0
deriving DecidableEq, Repr, Inhabited

/-- A stripe whose programs are in flight or that waits for its journal commit (R304, R317). -/
structure Stripe where
  key : Nat := 0
  group : Nat := 0
  page : Nat := 0
  pslc : Bool := true
  /-- bays whose member is programmed, still in flight, cut off. -/
  ok : List Nat := []
  flying : List Nat := []
  load : Payload := .other
  data : Bytes := []
  /-- 1 bit; `POWER_FAIL_MODE` when its programs were issued (13, R312; 19, R426). -/
  mode : Nat := 0
deriving DecidableEq, Repr, Inhabited

/-- A block group with its stripes (R303, R313). -/
structure Group where
  pos : Nat := 0
  st : BlockState := .free
  pslc : Bool := false
  /-- valid pages: page index and what it carries. -/
  valid : List (Nat × Payload) := []
  pages : Nat := 0
  seq : Nat := 0
  /-- pages whose stripe lacks members (13, R305): (page, bays). -/
  degraded : List (Nat × List Nat) := []
deriving DecidableEq, Repr, Inhabited

/-- Flash and its bays (chapter 13). -/
structure Media where
  /-- 8; the bays (13, R323); reset empty. -/
  bays : Vector Bay 8 := Vector.replicate 8 {}
  /-- 64 bits; set epoch (13, R321); reset 0: DESIGN CHOICE 0, log 11. -/
  epoch : Nat := 0
  /-- at most 131,072; operations in flight (1, R14); reset empty. -/
  ops : List MediaOp := []
  /-- number of the next operation or stripe. -/
  nextKey : Nat := 1
  /-- stripes not yet durable or not yet committed (13, R304); reset empty. -/
  stripes : List Stripe := []
  /-- groups that are not free and unused (13, R303); reset empty. -/
  groups : List Group := []
  /-- 48 bits; module page sequence number (13, Table 13.3); reset 0. -/
  seq : Nat := 0
  /-- map-journal records that wait for the next journal program: stripe keys (13, R317); reset empty. -/
  journal : List Nat := []
  /-- bytes of journal since the last checkpoint (13, R317); reset 0. -/
  journalBytes : Nat := 0
  /-- which checkpoint copy is current (13, R317), and which copies are readable; reset 0. -/
  checkpoint : Nat := 0
  /-- 1 bit; the orderly-stop mark is on flash (17, R395); reset 1: DESIGN CHOICE 1, log 11. -/
  orderly : Bool := true
  /-- 1 bit; the last start followed an orderly stop (13, R316); reset 1: DESIGN CHOICE 1, log 11. -/
  startOrderly : Bool := true
  /-- bytes held in the pSLC buffer (13, R307); reset 0. -/
  pslcBytes : Nat := 0
  /-- 1 bit; the flash scrub runs at four times its rate (15, R363); reset 0. -/
  fastScrub : Bool := false
  /-- serials of member caddies whose removal came as a surprise and is not recorded yet (13, R324); reset none. -/
  unrecorded : List Nat := []
  /-- bays whose rebuild is due, the running one first (13, R330); reset none. -/
  rebuilds : List Nat := []
  /-- 1 bit; a map rebuild runs (13, R319); reset 0. -/
  rebuildingMap : Bool := false
deriving DecidableEq, Repr, Inhabited

/-- The states of a link (Table 19.6). -/
inductive LinkState where
  | down
  | training
  | up
  | retraining
  | mismatch
deriving DecidableEq, Repr, Inhabited

/-- The identifiers that a packet carries of the work it belongs to (Table 14.4, R240). -/
structure PktTags where
  jobId : Nat := 0
  layer : BitVec 16 := 0xFFFF
  oper : BitVec 16 := 0xFFFF
deriving DecidableEq, Repr, Inhabited

/-- A transfer this module sends (R344, R347). -/
structure XferOut where
  tag : Nat := 0
  desc : XferDesc := {}
  job : Nat := 0
  item : Nat := 0
  core : Option (Nat × Nat) := none
  tc : Nat := 3
  announced : Bool := true
  granted : Nat := 0
  sent : Nat := 0
  data : Bytes := []
  /-- a standing grant's: `announced` says that its records are sent. -/
  standing : Bool := false
  /-- tags of the work it belongs to (10, R240), and its payload format (14, Table 14.8). -/
  tags : PktTags := {}
  lfmt : Nat := 0
deriving DecidableEq, Repr, Inhabited

/-- A transfer this module receives (R345). -/
structure XferIn where
  tag : Nat := 0
  desc : XferDesc := {}
  jobId : Nat := 0
  /-- tags of its announce (14, Table 14.4). -/
  layer : BitVec 16 := 0xFFFF
  oper : BitVec 16 := 0xFFFF
  granted : Nat := 0
  got : Nat := 0
  data : Bytes := []
  /-- key of the job it writes to, for kind 1. -/
  job : Nat := 0
  withheld : Bool := false
  standing : Bool := false
  tc : Nat := 3
  /-- status that its rows have earned (14, R345). -/
  status : Nat := 0
deriving DecidableEq, Repr, Inhabited

/-- A packet this module sends, as the fields a receiver acts on (R342). -/
structure PktOut where
  type : Nat
  dst : Nat
  xfer : Nat
  status : Nat := 0
  arg : Nat := 0
  standing : Bool := false
  desc : Option XferDesc := none
  payload : Bytes := []
  /-- class of the transfer's data, and its last `DATA` packet. -/
  tc : Nat := 0
  last : Bool := false
  tags : PktTags := {}
  lfmt : Nat := 0
deriving DecidableEq, Repr, Inhabited

/-- A peer port (chapter 14, Table 19.6). -/
structure Port where
  /-- 3 bits; `LINK_STATE` (19, Table 19.6); reset `DOWN`. -/
  st : LinkState := .down
  /-- 8 bits; lanes in service (14, R335); reset 0. -/
  lanes : BitVec 8 := 0
  /-- 4 bits; `CAUSE` (19, Table 19.6); reset 0. -/
  cause : BitVec 4 := 0
  /-- 3 bits; `PEER_ORDINAL` (19, Table 19.6); reset 7. -/
  ordinal : Nat := 7
  /-- 1 bit; `PRESENT` (19, Table 19.6); reset 0. -/
  present : Bool := false
  /-- 64 bits; `PEER_DIGEST` (19, Table 19.6); reset 0. -/
  digest : Nat := 0
  /-- digest of the last `HELLO` that passed, not yet authenticated (14, R336). -/
  helloDigest : Option Nat := none
  /-- 1 bit; order 6 has passed (14, R334); reset 0. -/
  authed : Bool := false
  /-- 1 bit; the peer reports `HOLD` (14, R341); reset 0. -/
  hold : Bool := false
  /-- 12 bits each; next flit sequence sent, oldest unacknowledged, next expected (14, R333); reset 0. -/
  txSeq : Nat := 0
  acked : Nat := 0
  rxSeq : Nat := 0
  /-- flits in the replay buffer (14, R333), their classes; reset empty. -/
  replay : List (Nat × Nat) := []
  /-- 1 bit; `NAK` is set in the next flit sent (14, R333); reset 0. -/
  nakDue : Bool := false
  /-- failures in a row of the same flit (14, R333); reset 0. -/
  fails : Nat := 0
  /-- 4; transmit credits (14, R343); reset 0. -/
  credits : Vector Nat 4 := Vector.replicate 4 0
  /-- 4; credits owed to the peer (14, R343); reset 0. -/
  owed : Vector Nat 4 := Vector.replicate 4 0
  /-- transfers sent (14, R344); reset empty. -/
  out : List XferOut := []
  /-- transfers received (14, R345); reset empty. -/
  inn : List XferIn := []
  /-- packets handed to the link, newest first (14, R342); reset empty. -/
  sent : List PktOut := []
  /-- 16 bits; next transfer tag (14, Table 14.4); reset 0. -/
  nextTag : Nat := 0
deriving DecidableEq, Repr, Inhabited

/-- Lifecycle (R380, Table 16.7). -/
inductive Lifecycle where
  | blank
  | provisioned
  | operational
  | returned
deriving DecidableEq, Repr, Inhabited

/-- Debug level (R381). -/
inductive Debug where
  | closed
  | service
  | opened
deriving DecidableEq, Repr, Inhabited

/-- The answer of the security element to its last SPDM or vendor request (R378 to R380). -/
inductive Reply where
  | none
  | version (v : Nat)
  | capabilities
  | algorithms
  | digests (slots : BitVec 8)
  | certificate (slot : Nat) (portion : Bytes) (remainder : Nat)
  | challengeAuth (slot : Nat) (nonce : Bytes)
  | measurements (vals : List (Nat × Bytes)) (signed : Bool) (nonce : Bytes)
  | csr
  | certificateSet
  | chunkAck (handle seq : Nat)
  | chunk (handle seq : Nat) (data : Bytes) (last : Bool)
  | unsupported
  | error
  | state (lifecycle debug power : Nat) (epoch failures : Nat)
  | token (t : Bytes)
  | status (code : Nat)
deriving DecidableEq, Repr, Inhabited

/-- The security element (chapter 16). -/
structure Sec where
  /-- 256 bits; SHA3-256 of the identity public key, `MODULE_DIGEST` (16, Table 16.7; 19, Table 19.2); reset 0: DESIGN CHOICE 0,
  log 4. -/
  identity : BitVec 256 := 0
  /-- lifecycle (16, R380); reset BLANK: DEDUCED, log 4. -/
  lifecycle : Lifecycle := .blank
  /-- debug level (16, R381); reset CLOSED (R382). -/
  debug : Debug := .closed
  /-- 32 bits; owner epoch (16, R371); reset 0: DESIGN CHOICE 0, log 4. -/
  epoch : BitVec 32 := 0
  /-- the token outstanding (16, R380); reset none. -/
  token : Option Bytes := none
  /-- consecutive failed AUTHORISE messages (16, R380); reset 0. -/
  failures : Nat := 0
  /-- 1 bit; TOKEN_REQUEST is locked out (16, R380); reset 0. -/
  locked : Bool := false
  /-- digest of the owner key (16, R380); reset none. -/
  ownerKey : Option Nat := none
  /-- 4 bits; revoked Ouvzil service keys (16, R380); reset 0: DESIGN CHOICE 0, log 4. -/
  serviceRevoked : BitVec 4 := 0
  /-- metadata key, by making number (16, R370); reset none. -/
  metaKey : Option Nat := none
  /-- 8; pot data keys, by making number (16, R370); reset none. -/
  potKeys : Vector (Option Nat) 8 := Vector.replicate 8 none
  /-- number of the next key or random value made (16, R370); reset 1: DESIGN CHOICE 1, log 4. -/
  nextKey : Nat := 1
  /-- 1 bit; the key set is the debug key set (16, R383); reset 0. -/
  debugKeys : Bool := false
  /-- certificate chain of slot 1 (16, R378); reset none. -/
  slot1 : Option Bytes := none
  /-- SPDM request sequence: version got, algorithms agreed (16, R378); reset 0. -/
  versionOk : Bool := false
  algorithmsOk : Bool := false
  /-- large request being assembled: handle, next sequence, bytes (16, R378); reset none. -/
  chunks : Option (Nat × Nat × Bytes) := none
  /-- large response being read: handle, next sequence, the rest (16, R378); reset none. -/
  large : Option (Nat × Nat × Bytes) := none
  /-- 8 × 256 bits; measurement chain of each pot (16, Table 16.5); reset 0. -/
  chain : Vector (BitVec 256) 8 := Vector.replicate 8 0
  /-- the last answer sent (16, R378, R380); reset none. -/
  reply : Reply := .none
deriving DecidableEq, Repr, Inhabited

/-- Power states, the kettle, feeds and sensors (chapters 16 and 20). -/
structure Power where
  /-- 3 bits; current state, 0–4 (19, `POWER`); reset 0. -/
  st : Nat := 0
  /-- 3 bits; `POWER_REQ` (19, Table 19.3); reset 0. -/
  req : Nat := 0
  /-- the state the running step leads to (16, R386; 19, `TRANSITION`); reset none. -/
  step : Option Nat := none
  /-- 1 bit; a non-caddy trip holds shallower requests (16, R388); reset 0. -/
  tripped : Bool := false
  /-- 5 bits; `KETTLE_LEVEL` (16, R387); reset 0. -/
  level : Nat := 0
  /-- input power samples in mW, newest first, at most 1,000 (16, R387); reset none. -/
  samples : List Nat := []
  /-- falls Δ recorded per level, in hundredths of a mW (16, R387); reset none. -/
  deltas : List (Nat × Int) := []
  /-- deeper moves whose fall is not yet measured: the level before them, the sum of 100 samples before them (16, R387); reset none. -/
  measuring : Option (Nat × Nat) := none
  /-- samples since the last deeper move of any kind (16, R387); reset 0. -/
  sinceDeeper : Nat := 0
  /-- samples since the last single deeper move or counted overrun (16, R387); reset 100 (1 ms): DESIGN CHOICE, log 12. -/
  sincePaced : Nat := 100
  /-- a trial in progress: the deeper level it came from, the sum of 100 samples before it (16, R387); reset none. -/
  trial : Option (Nat × Nat) := none
  /-- samples since the last trial began (16, R387); reset 100,000 (1 s): DESIGN CHOICE, log 12. -/
  sinceTrial : Nat := 100000
  /-- 1 bit; some sensor is at or above its throttle threshold (16, R388); reset 0. -/
  hot : Bool := false
  /-- 2 bits; feed A, feed B within range (20, R437); reset 0: DESIGN CHOICE 0, log 3. -/
  feeds : Vector Bool 2 := Vector.replicate 2 false
  /-- 3 bits; SB_MODE and SB_ADDR as sampled (20, R436); reset 0: DESIGN CHOICE 0, log 3. -/
  straps : BitVec 3 := 0
  /-- 1 bit; TRIGGER_OUT (20, R446); reset 0. -/
  trigger : Bool := false
  /-- 1 bit; control cores halted by the probe or a watchpoint, by core (18, R414); reset 0. -/
  halted : BitVec 16 := 0
deriving DecidableEq, Repr, Inhabited

/-- Where the module stands between power and readiness (R389, R394 to R396). -/
inductive Phase where
  | off
  | training
  | booting
  | ready
  | draining (next : Nat)
  | failed
  | bootFailed
  | lost
deriving DecidableEq, Repr, Inhabited

/-- A firmware slot (R403, Table 17.6). -/
structure FwSlot where
  /-- the manifest fields committed: SVN, version, digest (17, Table 17.6); reset none. -/
  record : Option Manifest := none
  /-- commits made to this slot (17, Table 17.6); reset 0. -/
  commits : Nat := 0
  /-- downloaded bytes (17, R403); reset empty. -/
  image : Mem := []
  /-- 1 bit; a download cleared the record since the last start or commit (17, R403); reset 0. -/
  touched : Bool := false
deriving DecidableEq, Repr, Inhabited

/-- An activation hold (R404, Table 17.8). -/
structure Hold where
  cmd : NvCmd
  slot : Nat
deriving DecidableEq, Repr, Inhabited

/-- Start-up, settings and firmware (chapters 17, 19). -/
structure Boot where
  /-- phase (17, R389, R394); reset off. -/
  phase : Phase := .off
  /-- 52 bits; physical cores that failed self-test or are held out (6, R132, R154); reset 0. -/
  heldOut : BitVec 52 := 0
  /-- 4 × spare: physical core and in-use (6, R132; 19, `SPARES`); reset none. -/
  spares : Vector (Option (Nat × Bool)) 4 := Vector.replicate 4 none
  /-- takeovers in progress: quadrant, logical core, spare (6, R154); reset none. -/
  takeovers : List (Nat × Nat) := []
  /-- committed RS words that differ from their After cold start values: offset, word (19, R422); reset none. -/
  settings : List (Nat × BitVec 64) := []
  /-- staged RS bits: offset, value, mask of staged bits (19, R422); reset none. -/
  staged : List (Nat × BitVec 64 × BitVec 64) := []
  /-- 64 bits; `SEQ` of the committed record (17, Table 17.2); reset 1: DESIGN CHOICE 1, log 4. -/
  settingsSeq : Nat := 1
  /-- the other copy of the record: words and `SEQ` (17, R392, R393); reset none: DESIGN CHOICE, log 4. -/
  older : Option (List (Nat × BitVec 64) × Nat) := none
  /-- snapshot of a commit that runs (17, R393); reset none. -/
  committing : Option (List (Nat × BitVec 64 × BitVec 64)) := none
  /-- pots whose `RESTART` waits for the commit to end (19, R425); reset none. -/
  restarts : List Nat := []
  /-- 1 bit; `FATAL` (19, Table 19.2); reset 0. -/
  fatal : Bool := false
  /-- 1 bit; `SETTINGS_INVALID` (19, Table 19.2); reset 0. -/
  invalid : Bool := false
  /-- 1 bit; `SETTINGS_ERROR` (19, Table 19.2); reset 0. -/
  error : Bool := false
  /-- 2; firmware slots 1 and 2 (17, R403); reset slot 1 committed with firmware 4.0.0 (R1): DESIGN CHOICE, log 4. -/
  slots : Vector FwSlot 2 := #v[{ record := some { version := 0x04000000 }, commits := 1 }, {}]
  /-- boot pointer, 1 or 2 (17, R403); reset 1: DESIGN CHOICE 1, log 4. -/
  pointer : Nat := 1
  /-- `ACTIVE_SLOT` (19, Table 19.2); reset 0 before boot: DESIGN CHOICE 0, log 4. -/
  active : Nat := 0
  /-- 32 bits; `FW_VERSION` of the running manifest (19, Table 19.2); reset 0 before boot. -/
  version : Nat := 0
  /-- 32 bits; anti-rollback counter (16, R377); reset 0: DESIGN CHOICE 0, log 4. -/
  rollback : Nat := 0
  /-- 4 bits; revoked firmware keys (16, R377); reset 0: DESIGN CHOICE 0, log 4. -/
  revoked : BitVec 4 := 0
  /-- an activation hold in progress (17, R404); reset none. -/
  hold : Option Hold := none
  /-- times in µs of control-core restarts, newest first (15, R366); reset none. -/
  restartsAt : List (Nat × Nat) := []
  /-- the hardware part that failed (15, R368); reset none. -/
  failedPart : Option HwPart := none
  /-- optical engines that have failed; they stay so until the module is replaced (15, R367); reset none. -/
  engines : List Nat := []
  /-- 1 bit; `LOSS_LOG_PRESENT` is due when the module event ring is first enabled (17, R391); reset 0. -/
  lossDue : Bool := false
  /-- pots whose event ring has been enabled while debug is OPEN (16, R383); reset none. -/
  openPosted : List Nat := []
deriving DecidableEq, Repr, Inhabited

/-- A watchpoint (R412, Table 18.4), its four 64-bit words. -/
structure Watch where
  /-- 64 bits each; `BASE`, `LIMIT`, control word 0x10, tag word 0x18 (18, Table 18.4); reset 0. -/
  base : BitVec 64 := 0
  limit : BitVec 64 := 0
  ctl : BitVec 64 := 0
  tag : BitVec 64 := 0
deriving DecidableEq, Repr, Inhabited

/-- A trace record (R416, Table 18.5), TIME left to its source's clock. -/
structure TraceRec where
  kind : Nat
  source : Nat
  aux : Nat
  time : BitVec 32
  value : BitVec 64
deriving DecidableEq, Repr, Inhabited

/-- An attribution entry (R411). -/
structure Attrib where
  jobId : Nat := 0
  layer : BitVec 16 := 0xFFFF
  oper : BitVec 16 := 0xFFFF
  /-- key of the job, to tell which `LAST` was posted earliest. -/
  job : Nat := 0
  /-- order in which its job posted `LAST`, none in flight. -/
  ended : Option Nat := none
  vals : List (Nat × Nat) := []
deriving DecidableEq, Repr, Inhabited

/-- Counters, watchpoints and trace (chapter 18). -/
structure Obs where
  /-- counters that are not zero: (family, instance, index) to value (18, R407); reset none. -/
  counters : List ((Nat × Nat × Nat) × Int) := []
  /-- 8 attribution tables of at most 4,096 entries (18, R411); reset empty. -/
  attrib : Vector (List Attrib) 8 := Vector.replicate 8 []
  /-- 8 retired and 8 overflow entries (18, R411); reset zero. -/
  retired : Vector Attrib 8 := Vector.replicate 8 {}
  overflow : Vector Attrib 8 := Vector.replicate 8 {}
  /-- order of the next `LAST` (18, R411); reset 0. -/
  lastSeq : Nat := 0
  /-- 16; watchpoints (18, R412); reset 0. -/
  watch : Vector Watch 16 := Vector.replicate 16 {}
  /-- 1 bit; trace runs (18, R415); reset 0. -/
  tracing : Bool := false
  /-- 67 bits; source mask: CC0–15, TC0–47, watchpoint, marker, port (18, R415); reset 0: DESIGN CHOICE 0, log 13. -/
  mask : BitVec 67 := 0
  /-- µs; marker period (18, R419); reset 10. -/
  period : Nat := 10
  /-- 1 bit; `GROUP` enable (18, R415); reset 0: DESIGN CHOICE 0, log 13. -/
  groupEn : Bool := false
  /-- records buffered, oldest first (18, R417); reset empty. -/
  buffer : List TraceRec := []
  /-- records dropped per source since its last `OVERFLOW` (18, R417); reset none. -/
  dropped : List (Nat × Nat) := []
  /-- 64 bits; marker sequence (18, R419); reset 0: DESIGN CHOICE 0, log 13. -/
  marker : BitVec 64 := 0
  /-- 32 bits; frame sequence (18, R418); reset 0: DESIGN CHOICE 0, log 13. -/
  frame : BitVec 32 := 0
  /-- frames sent, newest first: lane, records (18, R418); reset none. -/
  frames : List (Nat × Nat × List TraceRec) := []
  /-- what the probe last read (18, R381); reset none. -/
  probe : Option Bytes := none
deriving DecidableEq, Repr, Inhabited

/-- The whole module. -/
structure State where
  /-- queue of commands that wait, first in first out; the MODEL's own field; reset empty. -/
  pending : List Instr := []
  /-- µs of control-core time, advanced by the kettle's 10 µs samples (0, R6; 16); the MODEL's clock; reset 0: DESIGN CHOICE, log 14. -/
  time : Nat := 0
  /-- count of free values taken; the MODEL's own field; reset 0: DESIGN CHOICE, log 1. -/
  free : Nat := 0
  /-- number of the next job, read or object the module names; the MODEL's own field; reset 1: DESIGN CHOICE, log 7. -/
  nextId : Nat := 1
  /-- the host interface (10, 19). -/
  host : HostIf := {}
  /-- jobs in flight, in fetch order (10, R246); reset none. -/
  jobs : List Job := []
  /-- images loaded, in load order (7, R188); reset none. -/
  images : List Image := []
  /-- corpora (2, R22); reset none. -/
  corpora : List Corpus := []
  /-- collections (4, R78); reset none. -/
  colls : List Coll := []
  /-- embedding tables (5, R108); reset none. -/
  tables : List Table := []
  /-- embedding engines (5). -/
  embed : Embed := {}
  /-- strainer passes in progress (4, R87); reset none. -/
  strains : List Strain := []
  /-- searches in progress (4, R96); reset none. -/
  searches : List Searching := []
  /-- cups (3, R61); reset none. -/
  cups : List Cup := []
  /-- generate items that wait to join: job, item, in submission order (3, R63); reset none. -/
  waiting : List (Nat × Nat) := []
  /-- leaf reads in flight (2, R29); reset none. -/
  reads : List LeafRead := []
  /-- 48; logical tile cores (6, R132). -/
  cores : Vector Core 48 := Vector.replicate 48 {}
  /-- pools and memories (9). -/
  tiers : Tiers := {}
  /-- 8; pots (11, R259); reset pot 0 running, others disabled. -/
  pots : Vector Pot 8 := Vector.ofFn fun p => if p.val = 0 then { st := 1 } else {}
  /-- the storage function (12). -/
  nvme : Nvme := {}
  /-- flash and bays (13). -/
  media : Media := {}
  /-- 4; peer ports PL0–PL3 (14). -/
  ports : Vector Port 4 := Vector.replicate 4 {}
  /-- security element (16). -/
  sec : Sec := {}
  /-- power, kettle, feeds (16, 20). -/
  power : Power := {}
  /-- start-up, settings, firmware (17, 19). -/
  boot : Boot := {}
  /-- counters, watchpoints, trace (18). -/
  obs : Obs := {}
deriving DecidableEq, Repr, Inhabited

/-- The module right after reset: no power has come yet, every register at its After cold start value, every tier zero,
no object, the retained settings of manufacture (R392). What the manual gives no reset value for is named in the
assumption log. -/
def State.reset : State := {}

end Sys2Proof.Machine
end

