-- ==== Sys2Proof/Machine/Ops.lean ====
section
/-! DEFINITION. The named operations that every family shares: sparse memory, the retained settings, counters and
attribution, watchpoints and trace records, host memory, rings, completions, events, interrupts, jobs and items. -/

namespace Sys2Proof.Machine

/-- The outcome type of every meaning. -/
abbrev Out := Host.Outcome State Fault Refusal

-- Sparse memory

/-- Reads a byte; an unlisted address reads as zero (R231). -/
def Memory.read : Mem → Nat → Byte
  | [], _ => 0
  | (x, b) :: m, a => if a < x then 0 else if a = x then b else Memory.read m a

/-- Writes a byte and keeps the canonical form. -/
def Memory.write : Mem → Nat → Byte → Mem
  | [], a, b => if b = 0 then [] else [(a, b)]
  | (x, y) :: m, a, b =>
    if a < x then (if b = 0 then (x, y) :: m else (a, b) :: (x, y) :: m)
    else if a = x then (if b = 0 then m else (a, b) :: m)
    else (x, y) :: Memory.write m a b

/-- Reads `n` bytes, lowest address first (R4). -/
def Memory.readN (m : Mem) (a n : Nat) : Bytes := (List.range n).map fun i => Memory.read m (a + i)

/-- Writes bytes, lowest address first (R4). -/
def Memory.writeN : Mem → Nat → Bytes → Mem
  | m, _, [] => m
  | m, a, b :: bs => Memory.writeN (Memory.write m a b) (a + 1) bs

/-- Every listed address is above `lo`, addresses rise strictly, no listed byte is zero. -/
def Memory.wfFrom : Option Nat → Mem → Bool
  | _, [] => true
  | lo, (a, b) :: m => (match lo with | none => true | some l => decide (l < a)) && b != 0 && Memory.wfFrom (some a) m

/-- A sparse memory is in canonical form. -/
def Memory.wf (m : Mem) : Bool := Memory.wfFrom none m

-- Association lists and vectors

/-- The value at a key, or a default. -/
def lookupD [BEq κ] (l : List (κ × α)) (k : κ) (d : α) : α := (l.lookup k).getD d

/-- Changes the value at a key, appending the key when it is missing. -/
def upsert [BEq κ] : List (κ × α) → κ → α → (α → α) → List (κ × α)
  | [], k, d, f => [(k, f d)]
  | (k', v) :: l, k, d, f => if k' == k then (k', f v) :: l else (k', v) :: upsert l k d f

/-- Changes element `i` of a list. -/
def modAt (l : List α) (i : Nat) (f : α → α) : List α := l.modify i f

/-- A pot number as an index. -/
def fin8 (n : Nat) : Fin 8 := Fin.ofNat 8 n
/-- A ring number as an index. -/
def fin16 (n : Nat) : Fin 16 := Fin.ofNat 16 n

def State.pot (s : State) (p : Nat) : Pot := s.pots[p]?.getD {}
def State.modPot (s : State) (p : Nat) (f : Pot → Pot) : State := { s with pots := s.pots.setIfInBounds p (f (s.pot p)) }
def State.core (s : State) (c : Nat) : Core := s.cores[c]?.getD {}
def State.modCore (s : State) (c : Nat) (f : Core → Core) : State := { s with cores := s.cores.setIfInBounds c (f (s.core c)) }
def State.port (s : State) (p : Nat) : Port := s.ports[p]?.getD {}
def State.modPort (s : State) (p : Nat) (f : Port → Port) : State := { s with ports := s.ports.setIfInBounds p (f (s.port p)) }
def State.bay (s : State) (b : Nat) : Bay := s.media.bays[b]?.getD {}
def State.modBay (s : State) (b : Nat) (f : Bay → Bay) : State :=
  { s with media := { s.media with bays := s.media.bays.setIfInBounds b (f (s.bay b)) } }

def State.modObs (s : State) (f : Obs → Obs) : State := { s with obs := f s.obs }
def State.modHost (s : State) (f : HostIf → HostIf) : State := { s with host := f s.host }
def State.modMedia (s : State) (f : Media → Media) : State := { s with media := f s.media }
def State.modNvme (s : State) (f : Nvme → Nvme) : State := { s with nvme := f s.nvme }
def State.modSec (s : State) (f : Sec → Sec) : State := { s with sec := f s.sec }
def State.modPower (s : State) (f : Power → Power) : State := { s with power := f s.power }
def State.modBoot (s : State) (f : Boot → Boot) : State := { s with boot := f s.boot }
def State.modTiers (s : State) (f : Tiers → Tiers) : State := { s with tiers := f s.tiers }
def State.modEmbed (s : State) (f : Embed → Embed) : State := { s with embed := f s.embed }

/-- Takes one free value number: the state after uses the next one (assumption log 1). -/
def State.used (s : State) : State := { s with free := s.free + 1 }

-- Retained settings (R7, R422)

/-- The bit mask of the logical cores present (R132, R156). -/
def State.present (s : State) : Nat :=
  (List.range 48).foldl (fun m n => if (s.core n).phys.isSome then m + 2 ^ n else m) 0

/-- After cold start value of the RS word at an offset (Tables 11.1, 14.3, 19.4). -/
def rsDefault (s : State) (off : Nat) : Nat :=
  if 0x1000 ≤ off ∧ off < 0x1800 then
    let first := decide (off < 0x1100)
    let k := off % 0x100
    if k = 0x00 then (if first then s.present + 2 ^ 48 else 0)
    else if k = 0x08 then 64 + 10 * 2 ^ 16 + 100 * 2 ^ 32 + 10 * 2 ^ 48
    else if k = 0x10 then (if first then 352 + 208 * 2 ^ 16 else 0) + 64 * 2 ^ 32
    else if k = 0x18 then (if first then 74505 else 0) + 1024 * 2 ^ 32
    else if k = 0x20 then 100
    else if 0x40 ≤ k ∧ k < 0xC0 then 64
    else 0
  else if 0x1808 ≤ off ∧ off < 0x1828 then 7
  else if off = 0x1848 then 100 + 10 * 2 ^ 16 + 4 * 2 ^ 32 + 2 * 2 ^ 36 + 1 * 2 ^ 40
  else if off = 0x1900 then 1800 + 2 ^ 16 + 10 * 2 ^ 24 + 2 * 2 ^ 32 + 8 * 2 ^ 40 + 256 * 2 ^ 48
  else if off = 0x1908 then 256
  else 0

/-- The bits of the RS word at an offset that are RS fields (Tables 11.1, 14.3, 19.4). -/
def rsMask (off : Nat) : Nat :=
  if 0x1000 ≤ off ∧ off < 0x1800 then
    let k := off % 0x100
    if k = 0x00 then 2 ^ 51 - 1
    else if k = 0x08 then 0x7FF + 0x7F * 2 ^ 16 + 0x3FF * 2 ^ 32 + 0x1F * 2 ^ 48
    else if k = 0x10 then 0x1FF + 0xFF * 2 ^ 16 + 0x7FFF * 2 ^ 32
    else if k = 0x18 then 0x1FFFF + 0xFFFFFFFF * 2 ^ 32
    else if k = 0x20 then 0x3FFF
    else if 0x40 ≤ k ∧ k < 0xC0 ∧ k % 8 = 0 then 0x7FF + 0xFFFF * 2 ^ 16
    else 0
  else if off = 0x1800 then 2 ^ 38 - 1
  else if 0x1808 ≤ off ∧ off < 0x1828 ∧ off % 8 = 0 then 7
  else if 0x1828 ≤ off ∧ off < 0x1848 ∧ off % 8 = 0 then 2 ^ 64 - 1
  else if off = 0x1848 then 0x3FF + 0x3FF * 2 ^ 16 + 7 * 2 ^ 32 + 7 * 2 ^ 36 + 7 * 2 ^ 40
  else if off = 0x1900 then 0x7FF + 2 ^ 16 + 0xFF * 2 ^ 24 + 0x1F * 2 ^ 32 + 0x3F * 2 ^ 40 + 0x7FF * 2 ^ 48
  else if off = 0x1908 then 0x1FFFF
  else 0

/-- The committed value of the RS word at an offset (R422). -/
def State.rs (s : State) (off : Nat) : Nat :=
  match s.boot.settings.lookup off with
  | some v => v.toNat
  | none => rsDefault s off

/-- Word `k` (byte offset) of pot `p`'s committed record (Table 11.1). -/
def State.potRec (s : State) (p k : Nat) : Nat := s.rs (0x1000 + 0x100 * p + k)
def State.potEnabled (s : State) (p : Nat) : Bool := bit (s.potRec p 0) 48
def State.potQuota (s : State) (p : Nat) : Bool := bit (s.potRec p 0) 49
/-- A word of pot `p`'s record as its fields that are not structural act now: a commit reaches them at the pot's next slice
boundary (R261). -/
def State.potLive (s : State) (p k : Nat) : Nat := match (s.pot p).kept.lookup k with | some w => w.toNat | none => s.potRec p k
def State.potAbort (s : State) (p : Nat) : Bool := bit (s.potLive p 0) 50
def State.potSlice (s : State) (p : Nat) : Nat := bits (s.potLive p 8) 22 16
def State.potClipN (s : State) (p : Nat) : Nat := bits (s.potLive p 8) 52 48
/-- DRAM share or quota in bytes (Table 11.1). -/
def State.potDram (s : State) (p : Nat) : Nat := bits (s.potRec p 0x10) 8 0 * 2 ^ 30
/-- Quadrant-store share or quota in bytes (Table 11.1). -/
def State.potQstore (s : State) (p : Nat) : Nat := bits (s.potRec p 0x10) 23 16 * 2 ^ 20
/-- Spill allowance in GiB (Table 11.1). -/
def State.potSpill (s : State) (p : Nat) : Nat := bits (s.potRec p 0x10) 46 32
/-- Flash share in capacity units of 4 KiB (Table 11.1). -/
def State.potFlash (s : State) (p : Nat) : Nat := bits (s.potRec p 0x18) 16 0 * 262144
def State.potSat (s : State) (p : Nat) : Nat := bits (s.potLive p 0x18) 63 32
/-- STALL_EVENT_LIMIT in µs (Table 11.1, R224). -/
def State.potStall (s : State) (p : Nat) : Nat := bits (s.potLive p 0x20) 13 0 * 100
def State.ringWeight (s : State) (p r : Nat) : Nat := bits (s.potLive p (0x40 + 8 * r)) 10 0
def State.latencyTarget (s : State) (p r : Nat) : Nat := bits (s.potLive p (0x40 + 8 * r)) 31 16
def State.groupId (s : State) : Nat := bits (s.rs 0x1800) 31 0
def State.self (s : State) : Nat := bits (s.rs 0x1800) 34 32
def State.servingPot (s : State) : Nat := bits (s.rs 0x1800) 37 35
def State.portOrdinal (s : State) (n : Nat) : Nat := bits (s.rs (0x1808 + 8 * n)) 2 0
def State.portDigest (s : State) (n : Nat) : Nat := s.rs (0x1828 + 8 * n)
def State.powerFailMode (s : State) : Nat := bits (s.rs 0x1900) 16 16
def State.powerLimit (s : State) : Nat := bits (s.rs 0x1900) 10 0
def State.shelfBytes (s : State) : Nat := bits (s.rs 0x1900) 45 40 * 2 ^ 20
def State.hotThreshold (s : State) : Nat := bits (s.rs 0x1908) 16 0
/-- The port that the peer of an ordinal is on, when its peer is present (R341). -/
def State.portOf (s : State) (ord : Nat) : Option Nat :=
  (List.range 4).find? fun n => decide (s.portOrdinal n = ord) && (s.port n).present
/-- The cores of a pot now, in logical order (R156, R259). -/
def State.potCores (s : State) (p : Nat) : List Nat :=
  (List.range 48).filter fun n => bit (s.pot p).cores.toNat n && (s.core n).phys.isSome
/-- The pot that a logical core belongs to (R259). -/
def State.corePot (s : State) (c : Nat) : Option Nat :=
  (List.range 8).find? fun p => s.potEnabled p && bit (s.pot p).cores.toNat c

-- Counters (R407, R408)

def State.counter (s : State) (fam inst idx : Nat) : Int := lookupD s.obs.counters (fam, inst, idx) 0
/-- Adds to a counter, saturating at 2^64 - 1 (R408). -/
def State.count (s : State) (fam inst idx n : Nat) : State :=
  if n = 0 then s else
  s.modObs fun o => { o with counters := upsert o.counters (fam, inst, idx) 0 fun v => min (v + n) (2 ^ 64 - 1 : Nat) }
/-- Clears the counters of a family that an instance predicate and an index predicate name (Table 18.1). -/
def State.clearCounters (s : State) (fam : Nat) (inst idx : Nat → Bool) : State :=
  s.modObs fun o => { o with counters := o.counters.filter fun e => !(e.1.1 == fam && inst e.1.2.1 && idx e.1.2.2) }
/-- Sets a counter (SHARE_DEFICIT alone falls, R408). -/
def State.setCounter (s : State) (fam inst idx : Nat) (v : Int) : State :=
  s.modObs fun o => { o with counters := upsert o.counters (fam, inst, idx) 0 fun _ => v }

/-- Adds to value `i` of an attribution entry. -/
def Attrib.add (a : Attrib) (i n : Nat) : Attrib := { a with vals := upsert a.vals i 0 fun v => satAdd64 v n }
/-- Adds all values of one entry into another (R411). -/
def Attrib.merge (a b : Attrib) : Attrib := b.vals.foldl (fun a v => a.add v.1 v.2) a
/-- The entry of the job whose `LAST` was posted earliest (R411): its position and order. -/
def oldestEnded (l : List Attrib) : Option (Nat × Nat) :=
  l.zipIdx.foldl (fun best a => match a.1.ended, best with
    | some t, some (_, u) => if t < u then some (a.2, t) else best
    | some t, none => some (a.2, t)
    | none, _ => best) none
/-- An increment of an attribution counter of a pot (R411). -/
def State.attribute (s : State) (pot key jobId : Nat) (layer oper : BitVec 16) (i n : Nat) : State :=
  if n = 0 then s else
  let p := fin8 pot
  let tab := s.obs.attrib[p]
  let mine := fun a : Attrib => a.jobId == jobId && a.layer == layer && a.oper == oper
  let new : Attrib := ({ jobId := jobId, layer := layer, oper := oper, job := key } : Attrib).add i n
  if tab.any mine then
    s.modObs fun o => { o with
      attrib := o.attrib.set p (tab.map fun a => if mine a then { a.add i n with job := key, ended := none } else a) }
  else if tab.length < 4096 then
    s.modObs fun o => { o with attrib := o.attrib.set p (tab ++ [new]) }
  else match oldestEnded tab with
    | some (k, _) =>
      s.modObs fun o => { o with
        retired := o.retired.set p (o.retired[p].merge (tab.getD k {}))
        attrib := o.attrib.set p (tab.eraseIdx k ++ [new]) }
    | none =>
      (s.modObs fun o => { o with overflow := o.overflow.set p (o.overflow[p].add i n) }).count 2 pot 40 1

-- Trace (R415 to R417) and watchpoints (R412 to R414)

/-- The free low half of a source's domain counter (assumption log 13). -/
def State.clock (s : State) (i : Nat) : BitVec 64 := Config.freeWord s.free i

/-- `AUX` of a source's `SYNC` (Table 18.5): TCLK with the kettle level for tile cores, CCLK for the rest (log 13). -/
def State.syncAux (s : State) (source : Nat) : Nat := if 16 ≤ source ∧ source < 64 then 256 * Nat.min s.power.level 11 else 2

/-- Puts a record into its source's buffer of 256 (R417). -/
def Obs.push (o : Obs) (r : TraceRec) : Obs × Bool :=
  if (o.buffer.filter fun x => x.source == r.source).length < 256 then ({ o with buffer := o.buffer ++ [r] }, true)
  else ({ o with dropped := upsert o.dropped r.source 0 (· + 1) }, false)

/-- Emits a trace record of an enabled source while trace runs, its `TIME` given or free; after its own losses a source first sends
`OVERFLOW`, then `SYNC`, and a control core then `PC` (R416, R417). -/
def State.traceAt (s : State) (time : Option (BitVec 32)) (source kind aux : Nat) (value : BitVec 64) : State :=
  if !s.obs.tracing || !s.obs.mask.getLsbD source then s else
  let t := time.getD ((s.clock 0).truncate 32)
  let lost := lookupD s.obs.dropped source 0
  let room := decide ((s.obs.buffer.filter fun x => x.source == source).length < 256)
  let first : List TraceRec := if lost = 0 || !room then [] else
    [{ kind := 0x09, source := source, aux := source, time := t, value := BitVec.ofNat 64 lost },
     { kind := 0x01, source := source, aux := s.syncAux source, time := t, value := s.clock 0 }] ++
    (if source < 16 then [{ kind := 0x02, source := source, aux := 3, time := t, value := s.clock 1 }] else [])
  let o := if first.isEmpty then s.obs else { s.obs with dropped := s.obs.dropped.filter fun d => d.1 != source }
  let last : TraceRec := { kind := kind, source := source, aux := aux, time := t, value := value }
  let (o, n) := (first ++ [last]).foldl (fun (a : Obs × Nat) r => ((a.1.push r).1, if (a.1.push r).2 then a.2 else a.2 + 1)) (o, 0)
  ({ s with obs := o } : State).used.count 7 0 19 n
/-- A trace record whose `TIME` is its source's clock. -/
def State.trace (s : State) (source kind aux : Nat) (value : BitVec 64) : State := s.traceAt none source kind aux value

/-- Stops trace with a `CONTROL` record; with `discard`, what is buffered is lost and counted (R414, R415). -/
def State.stopTrace (s : State) (reason value : Nat) (discard : Bool) : State :=
  if !s.obs.tracing then s else
  let n := s.obs.buffer.length
  let s := if discard then ({ s with obs := { s.obs with buffer := [], dropped := [] } } : State).count 7 0 19 n else s
  let r : TraceRec := { kind := 0x0A, source := 0x42, aux := reason, time := (s.clock 0).truncate 32, value := BitVec.ofNat 64 value }
  ({ s with obs := { s.obs with tracing := false, buffer := s.obs.buffer ++ [r] } } : State).used
/-- What every reset does, of a function or of the module: trace stops and a pending token lapses (R380, R415). -/
def State.anyReset (s : State) : State := (s.stopTrace 4 0 true).modSec fun x => { x with token := none }

def Watch.space (w : Watch) : Nat := bits w.ctl.toNat 2 0
def Watch.inst (w : Watch) : Nat := bits w.ctl.toNat 8 3
def Watch.acts (w : Watch) : Nat := bits w.ctl.toNat 36 32
/-- An access hits a watchpoint (R413). -/
def Watch.hits (w : Watch) (space inst agent : Nat) (write : Bool) (first len : Nat)
    (tags : Option (BitVec 16 × BitVec 16)) : Bool :=
  w.acts != 0 && w.space == space && (2 ≤ space || w.inst == inst) && bit w.ctl.toNat (16 + agent) &&
  bit w.ctl.toNat (if write then 10 else 9) && decide (0 < len) && decide (first ≤ w.limit.toNat) &&
  decide (w.base.toNat ≤ first + (len - 1)) &&
  (!bit w.tag.toNat 32 || (match tags with
    | some (l, o) => w.tag.toNat % 2 ^ 16 == l.toNat && bits w.tag.toNat 31 16 == o.toNat
    | none => false))

/-- The actions of a hit of watchpoint `n` (R414). -/
def State.watchAct (s : State) (n : Nat) (w : Watch) (agent : Nat) (write : Bool) (first : Nat) : State :=
  let a := w.acts
  let s := if bit a 0 then s.count 7 0 (3 + n) 1 else s
  let s := if bit a 1 then s.trace 0x40 0x07 (n + 16 * b2n write + 2 ^ 8 * 2 + 2 ^ 13 * agent)
      (BitVec.ofNat 64 (w.space * 2 ^ 60 + (Nat.max first w.base.toNat) % 2 ^ 60)) else s
  let s := if bit a 2 then { s with power := { s.power with trigger := true } } else s
  let s := if bit a 3 then s.stopTrace 3 n false else s
  if bit a 4 then { s with power := { s.power with halted := BitVec.allOnes 16 } } else s

/-- An access by an agent is matched against every watchpoint (R413, R414). -/
def State.watched (s : State) (space inst agent : Nat) (write : Bool) (first len : Nat)
    (tags : Option (BitVec 16 × BitVec 16)) : State :=
  (List.finRange 16).foldl (fun s n =>
    let w := s.obs.watch[n]
    if w.hits space inst agent write first len tags then s.watchAct n w agent write first else s) s

-- Collections

def State.coll? (s : State) (id : Nat) : Option Coll := s.colls.find? (·.id == id)
def State.modColl (s : State) (id : Nat) (f : Coll → Coll) : State :=
  { s with colls := s.colls.map fun c => if c.id == id then f c else c }

-- Host memory by DMA (R234, R249)

/-- A DMA read of host memory; none when PCIe completes it with an error (R249). -/
def State.hostRead (s : State) (a n : Nat) : Option Bytes :=
  if 2 ^ 64 < a + n || s.host.bad.any fun r => decide (r.1 < a + n) && decide (a < r.1 + r.2) && decide (0 < n) then none
  else some (Memory.readN s.host.mem a n)

/-- A DMA write of host memory: posted, done when sent (R249); watched as space 4, agent 5 (R413). -/
def State.hostWriteAs (s : State) (tags : Option (BitVec 16 × BitVec 16)) (a : Nat) (bs : Bytes) : State :=
  let s := s.watched 4 0 5 true a bs.length tags
  { s with host := { s.host with mem := Memory.writeN s.host.mem a bs } }
/-- One that belongs to no job's work. -/
def State.hostWrite (s : State) (a : Nat) (bs : Bytes) : State := s.hostWriteAs none a bs

/-- A DMA read seen by the watchpoints. -/
def State.hostSeen (s : State) (a n : Nat) : State := s.watched 4 0 5 false a n none

-- Rings (R233 to R238, R429, R430)

def State.ring (s : State) (pot : Option (Fin 8)) (sel : RingSel) : Ring :=
  match pot, sel with
  | none, _ => s.host.modEv
  | some p, .sq i => s.host.sq[p][i]
  | some p, .cq i => s.host.cq[p][i]
  | some p, .ev => s.host.ev[p]

def State.setRing (s : State) (pot : Option (Fin 8)) (sel : RingSel) (r : Ring) : State :=
  match pot, sel with
  | none, _ => { s with host := { s.host with modEv := r } }
  | some p, .sq i => { s with host := { s.host with sq := s.host.sq.set p (s.host.sq[p].set i r) } }
  | some p, .cq i => { s with host := { s.host with cq := s.host.cq.set p (s.host.cq[p].set i r) } }
  | some p, .ev => { s with host := { s.host with ev := s.host.ev.set p r } }

def Ring.size (r : Ring) : Nat := 2 ^ r.sizeLog2.toNat
/-- One entry always stays empty (R234): full for the module as producer. -/
def Ring.full (r : Ring) : Bool := (r.moduleIndex.toNat + 1) % r.size == r.hostIndex.toNat
/-- The module's index moves on; the phase inverts on each wrap (R235). -/
def Ring.advance (r : Ring) : Ring :=
  if (r.moduleIndex.toNat + 1) % r.size = 0 then { r with moduleIndex := 0, phase := !r.phase }
  else { r with moduleIndex := BitVec.ofNat 16 (r.moduleIndex.toNat + 1) }
def Ring.slot (r : Ring) (entry : Nat) : Nat := r.base.toNat + entry * r.moduleIndex.toNat
def Ring.fail (r : Ring) (cause : BitVec 3) : Ring := { r with error := true, errCause := cause }

/-- The function that carries a pot's ring set: 0 PF1, n VF n (R232). -/
def State.carrier (s : State) (pot : Option (Fin 8)) : Nat :=
  match pot with
  | some p => if p.val < s.host.numVfs then p.val + 1 else 0
  | none => 0

/-- Sends an MSI-X message, or sets the pending bit of a masked vector (R238, R430). -/
def State.sendVector (s : State) (pot : Option (Fin 8)) (v : Nat) : State :=
  let fn := s.carrier pot
  if fn = 0 then
    match s.host.msix[v]? with
    | none => s
    | some e => if e.masked then s.modHost fun h => { h with msix := h.msix.setIfInBounds v { e with pend := true } }
      else s.modHost fun h => { h with irqs := (0, v) :: h.irqs }
  else
    let t := s.host.vfMsix[fn - 1]?.getD (Vector.replicate 17 {})
    match t[v]? with
    | none => s
    | some e => if e.masked then s.modHost fun h => { h with
          vfMsix := h.vfMsix.setIfInBounds (fn - 1) (t.setIfInBounds v { e with pend := true }) }
      else s.modHost fun h => { h with irqs := (fn, v) :: h.irqs }

/-- Raises a ring's vector: everything posted is announced (R430). -/
def State.raiseRing (s : State) (pot : Option (Fin 8)) (sel : RingSel) : State :=
  let r := s.ring pot sel
  (s.setRing pot sel { r with unannounced := 0, coalArmed := false }).sendVector pot r.vector.toNat

/-- What an entry just written does to its ring's interrupt (R238, R430). -/
def State.coalesce (s : State) (pot : Option (Fin 8)) (sel : RingSel) (noIrq : Bool) : State :=
  if noIrq then s else
  let r := s.ring pot sel
  let n := r.unannounced + 1
  let s := s.setRing pot sel { r with unannounced := n, coalArmed := true }
  if r.coalCount.toNat ≤ n || r.coalTime.toNat == 0 then s.raiseRing pot sel else s

/-- The 32 bytes of a completion entry (R251, Table 10.7). -/
def CqEntry.bytes (e : CqEntry) (phase : Bool) (sqHead : Nat) : Bytes :=
  natLe 4 e.jobId ++ natLe 4 e.item ++ natLe 1 e.status ++
  natLe 1 (b2n phase + 2 * b2n e.final + 4 * b2n e.last + 8 * b2n e.truncated + 16 * b2n e.damage) ++
  natLe 2 sqHead ++ natLe 1 e.sq ++ zeros 3 ++ natLe 4 e.resA ++ natLe 4 e.resC ++ natLe 8 e.resB

/-- A job's `LAST` entry is posted: its attribution entries may be taken from now on, in this order (R411). -/
def State.lastPosted (s : State) (key : Nat) : State := s.modObs fun o => { o with
  lastSeq := o.lastSeq + 1
  attrib := o.attrib.map fun t => t.map fun a => if a.job == key then { a with ended := some o.lastSeq } else a }
/-- Entries of a pot that are formed and not yet posted: its completion ring is full, or the PCIe link retrains (R237, R360). -/
def State.heldEntries (s : State) (p : Nat) : List CqEntry :=
  (s.host.cq[fin8 p].toList.map (·.held)).flatten ++ (s.host.linkHeld.filter (·.1 == p)).map (·.2.2)
/-- Those that are some job's `LAST`: the job is in flight until it is posted (R246). -/
def State.heldLast (s : State) (p : Nat) : List CqEntry := (s.heldEntries p).filter (·.last)
/-- Held entries of a pot are given up: a reset is their report (R252). -/
def State.dropHeldLast (s : State) (p : Nat) : State := (s.heldLast p).foldl (fun s e => s.lastPosted e.job) s
/-- Writes a completion entry into the next slot of a ring that has room (R235, R249). -/
def State.putCq (s : State) (p : Fin 8) (c : Fin 16) (e : CqEntry) : State :=
  let r := s.ring (some p) (.cq c)
  let head := (s.ring (some p) (.sq (fin16 e.sq))).moduleIndex.toNat
  let s := s.hostWrite (r.slot 32) (e.bytes r.phase head)
  let s := if e.last then s.lastPosted e.job else s
  ((s.setRing (some p) (.cq c) r.advance).coalesce (some p) (.cq c) e.noIrq)

/-- Posts a completion entry: held while the PCIe link retrains (R360) or the ring is full (R237). -/
def State.postCq (s : State) (p : Fin 8) (c : Fin 16) (e : CqEntry) : State :=
  let r := s.ring (some p) (.cq c)
  if !r.enable then s
  else if s.host.retraining then { s with host := { s.host with linkHeld := s.host.linkHeld ++ [(p.val, c.val, e)] } }
  else if r.full || !r.held.isEmpty then s.setRing (some p) (.cq c) { r with held := r.held ++ [e] }
  else s.putCq p c e

/-- Writes held entries while the ring has room, oldest first (R237). -/
def State.drainHeld (s : State) (p : Fin 8) (c : Fin 16) : Nat → State
  | 0 => s
  | n + 1 =>
    let r := s.ring (some p) (.cq c)
    match r.held with
    | [] => s
    | e :: rest => if r.full then s
      else State.drainHeld ((s.setRing (some p) (.cq c) { r with held := rest }).putCq p c e) p c n

/-- The 32 bytes of an event entry (R255, Table 10.10). -/
def eventBytes (phase : Bool) (code lost jobId pot : Nat) (layer oper : BitVec 16) (payload : Bytes) : Bytes :=
  natLe 2 code ++ natLe 1 (b2n phase) ++ natLe 1 (Nat.min lost 255) ++ natLe 4 jobId ++ natLe 1 pot ++ zeros 1 ++
  natLe 2 layer.toNat ++ natLe 2 oper.toNat ++ zeros 2 ++ slice payload 0 16

/-- Posts an event on a pot's ring or the module's, or drops and counts it (R237, R255). -/
def State.postEvent (s : State) (pot : Option (Fin 8)) (code jobId : Nat) (layer oper : BitVec 16) (payload : Bytes) : State :=
  let r := s.ring pot .ev
  if !r.enable || r.full || s.host.retraining then
    let s := s.setRing pot .ev { r with lost := r.lost + 1 }
    match pot with
    | some p => s.count 2 p 41 1
    | none => s.count 7 0 0 1
  else
    let id := match pot with | some p => p.val | none => 0xFF
    let job := match pot with | some _ => jobId | none => 0
    let s := s.hostWrite (r.slot 32) (eventBytes r.phase code r.lost job id layer oper payload)
    (s.setRing pot .ev { r.advance with lost := 0 }).coalesce pot .ev false

/-- An event of the module event ring without tags (R255). -/
def State.modEvent (s : State) (code : Nat) (payload : Bytes) : State := s.postEvent none code 0 0xFFFF 0xFFFF payload

/-- GUARANTEE_BROKEN, at most once per pot and guarantee in each 100 ms, its amount accumulating (R274, R275). -/
def State.guarantee (s : State) (pot : Nat) (code winner amount jobId : Nat) : State :=
  let q := s.pot pot
  let due := match q.postedAt.lookup code with | some t => decide (t + 100000 ≤ s.time) | none => true
  let sum := satAdd64 (lookupD q.owed code 0) amount
  if due then
    let s := s.modPot pot fun q => { q with owed := q.owed.filter (·.1 != code), postedAt := upsert q.postedAt code 0 fun _ => s.time }
    s.postEvent (some (fin8 pot)) 0x0007 jobId 0xFFFF 0xFFFF (natLe 1 code ++ natLe 1 winner ++ zeros 6 ++ natLe 8 sum)
  else s.modPot pot fun q => { q with owed := upsert q.owed code 0 fun _ => sum }

-- Jobs and items (R239, R246 to R254)

def Job.f (j : Job) (off n : Nat) : Nat := field j.desc off n
def Job.type (j : Job) : Nat := j.f 0x00 1
def Job.ordered (j : Job) : Bool := bit (j.f 0x01 1) 0
def Job.noIrq (j : Job) : Bool := bit (j.f 0x01 1) 1
def Job.jobId (j : Job) : Nat := j.f 0x04 4
def Job.layerId (j : Job) : BitVec 16 := BitVec.ofNat 16 (j.f 0x08 2)
def Job.operId (j : Job) : BitVec 16 := BitVec.ofNat 16 (j.f 0x0A 2)
def Job.nItems (j : Job) : Nat := j.f 0x0C 4
def Job.imageId (j : Job) : Nat := j.f 0x1C 4
def Job.bufs (j : Job) : Nat := j.f 0x28 1

def State.job? (s : State) (key : Nat) : Option Job := s.jobs.find? (·.key == key)
/-- A DMA write that the module makes for a job on its own, under the tags of the job's descriptor (R240). -/
def State.jobWrite (s : State) (key a : Nat) (bs : Bytes) : State :=
  s.hostWriteAs ((s.job? key).map fun j => (j.layerId, j.operId)) a bs
def State.modJob (s : State) (key : Nat) (f : Job → Job) : State :=
  { s with jobs := s.jobs.map fun j => if j.key == key then f j else j }
def State.modItem (s : State) (key idx : Nat) (f : Item → Item) : State :=
  s.modJob key fun j => { j with items := j.items.map fun i => if i.idx == idx then f i else i }
def Job.item? (j : Job) (idx : Nat) : Option Item := j.items.find? (·.idx == idx)
def State.item? (s : State) (key idx : Nat) : Option Item := (s.job? key).bind (·.item? idx)
/-- An item that is still to complete. -/
def State.live? (s : State) (key idx : Nat) : Option (Job × Item) :=
  (s.job? key).bind fun j => (j.item? idx).bind fun i => if i.done then none else some (j, i)

/-- Entry `b` of the job buffer table: host address and length (R240). -/
def State.buffer? (s : State) (j : Job) (b : Nat) : Option (Nat × Nat) :=
  if j.bufs ≤ b then none else
  (s.hostRead (j.f 0x20 8 + 16 * b) 16).map fun e => (field e 0 8, field e 8 8)

/-- An item meets a failure; the first failure stands and a failure outweighs what is below 0x10 (R254). -/
def Item.fail (i : Item) (st : Nat) : Item := if 0x10 ≤ i.status then i else { i with status := st }
/-- An item earns a status below 0x10 (R254). -/
def Item.note (i : Item) (st : Nat) : Item := if i.status = 0 then { i with status := st } else i

/-- The flash copy, regions and weights of an image that is no longer used are freed (R449, R221). -/
def State.freeImage (s : State) (id : Nat) : State :=
  { s with
    images := s.images.filter (·.id != id)
    tiers := { s.tiers with dram := s.tiers.dram.filter (fun e => e.key != .weights id), ring := s.tiers.ring.filter fun r => r.1 != id
                            waits := s.tiers.waits.filter fun e => e.key != .weights id } }

/-- A job admitted before the unload that keeps an image (R449). -/
def State.usesImage (s : State) (id : Nat) (j : Job) : Bool :=
  (j.phase == .admitted || j.phase == .preempted) && j.type != 0x02 &&
  (j.imageId == id || (j.type == 0x03 && j.f 0x38 4 == id) ||
   (j.type == 0x07 && s.colls.any fun c => c.id == j.f 0x30 4 && c.encoder == id))

/-- The tags of a transfer received, which its answers carry back. -/
def XferIn.tags (x : XferIn) : PktTags := { jobId := x.jobId, layer := x.layer, oper := x.oper }
def Port.inTags (p : Port) (tag : Nat) : PktTags := ((p.inn.find? fun x => x.tag == tag && !x.standing).map XferIn.tags).getD {}
/-- `XFER_DONE` for a transfer received on a port, with its status (R345). -/
def State.xferDone (s : State) (port tag status : Nat) : State := s.modPort port fun q => { q with
  sent := { type := 0x08, dst := q.ordinal, xfer := tag, status := status, tags := q.inTags tag } :: q.sent }

/-- Writes an item's final entry (R252), without ending its job; a member's part of a group object's job answers the home
module instead (R346). -/
def State.postItem (s : State) (j : Job) (i : Item) (last : Bool) : State :=
  match j.remote with
  | some (p, t) => if last then s.xferDone p t i.status else s
  | none => s.postCq (fin8 j.pot) (fin16 j.cq)
    { job := j.key, jobId := j.jobId, item := i.idx, status := i.status, final := true, last := last, truncated := i.truncated,
      damage := i.damage, sq := j.ring, resA := i.resA, resC := i.resC, resB := i.resB, noIrq := j.noIrq }

/-- A core with no invocation: its queues, moves and loop stack are empty (R182). -/
def Core.idle (c : Core) : Core := { c with
  run := none, front := none, qLoader := [], qArrays := [], qSpout := [], qVector := [], qMove := [], mms := [], moves := []
  loads := [], loops := [], parked := false }

/-- What ends with a job (an uncompleted steep leaves its corpus SUSPENDED, R58; its cups leave at the next boundary, R65): its place in flight, its staging, regions and saved areas, its passes and waits, its
semaphore units, its invocations on cores, its attribution order (R175, R246, R411). -/
def State.removeJob (s : State) (key : Nat) : State :=
  let keep := fun e : PoolEntry => match e.key with
    | .staging j => j != key
    | .region j _ _ => j != key
    | .steep j _ => j != key
    | .saved j => j != key
    | _ => true
  let lastDue := ((s.job? key).map fun j => (s.heldLast j.pot).any (·.job == key)).getD false
  { s with
    jobs := s.jobs.filter (·.key != key)
    waiting := s.waiting.filter (·.1 != key)
    strains := s.strains.filter (·.job != key)
    searches := s.searches.filter (·.job != key)
    colls := s.colls.map fun c => { c with recallers := c.recallers.filter (· != key) }
    corpora := s.corpora.map fun c => if c.job == some key then
        { c with job := none, st := if c.st == .deleting then .deleting else .suspended, outs := [], sentLayer := none } else c
    cups := s.cups.map fun c => if c.job = key then { c with phase := .leaving } else c
    embed := { s.embed with bags := s.embed.bags.filter (·.job != key), waits := s.embed.waits.filter (·.job != key) }
    tiers := { s.tiers with dram := s.tiers.dram.filter keep, qstore := s.tiers.qstore.filter keep
                            spilled := s.tiers.spilled.filter keep, waits := s.tiers.waits.filter keep
                            regions := s.tiers.regions.filter fun r => r.1.1 != key
                            regionPoison := s.tiers.regionPoison.filter fun r => r.1.1 != key }
    pots := s.pots.map fun p => { p with
      running := if p.running == some key then none else p.running
      loan := match p.loan with | some (a, b) => if a = key ∨ b = key then none else some (a, b) | none => none
      sems := p.sems.map fun m => { m with
        count := m.count + ((m.held.filter (·.1 == key)).map (·.2)).sum,
        held := m.held.filter (·.1 != key), waiting := m.waiting.filter (·.2.1 != key) } }
    cores := s.cores.map fun c => match c.run with
      | some r => if r.job = key then c.idle else c
      | none => c
    obs := { s.obs with
      lastSeq := s.obs.lastSeq + 1
      attrib := s.obs.attrib.map fun t => t.map fun a =>
        if a.job == key && a.ended.isNone && !lastDue then { a with ended := some s.obs.lastSeq } else a } }

/-- A caddy is readable: present, authenticated, linked, and not being removed (R304, R324). -/
def Bay.isReadable (b : Bay) : Bool := b.present && b.stage == .up && (b.st == 1 || b.st == 2 || b.st == 3) && !b.removing
/-- A caddy is writable (R304): readable and not read-only. -/
def Bay.isWritable (b : Bay) : Bool := b.isReadable && !b.readOnly
def State.readables (s : State) : List Nat := (List.range 8).filter fun n => (s.bay n).isReadable
def State.writables (s : State) : List Nat := (List.range 8).filter fun n => (s.bay n).isWritable
/-- Flash takes writes: six or more writable caddies (Table 13.4). -/
def State.writeOk (s : State) : Bool := decide (6 ≤ s.writables.length)

/-- The set epoch rises and every member caddy's membership record is written again (R321, R373). -/
def State.bumpEpoch (s : State) : State :=
  let e := s.media.epoch + 1
  let d := s.sec.identity.toNat % 2 ^ 64
  let write := fun (b : Bay) (n : Nat) => if b.member.isSome && b.isReadable then { b with member := some (d, n, e) } else b
  let s := s.modMedia fun m => { m with epoch := e }
  (List.range 8).foldl (fun s n => s.modBay n fun b => write b n) s

/-- Unloads whose image no admitted job keeps complete with `OK` (R449). -/
def State.settleUnloads (s : State) : State :=
  s.images.foldl (fun s im =>
    if im.unloading && !(s.jobs.any fun j => s.usesImage im.id j) then
      let s := s.freeImage im.id
      match s.job? im.unloadJob with
      | some j => (s.postItem j { idx := 0 } true).removeJob j.key
      | none => s
    else s) s

/-- Ends a job whose `LAST` entry is posted. -/
def State.endJob (s : State) (key : Nat) : State := (s.removeJob key).settleUnloads

/-- Completes an item: what `f` makes of it is its final entry; the last one ends the job (R252). -/
def State.complete (s : State) (key idx : Nat) (f : Item → Item) : State :=
  match s.live? key idx with
  | none => s
  | some (j, i) =>
    let last := j.items.all fun k => k.done || k.idx == idx
    let s := s.postItem j (f i) last
    if last then s.endJob key else s.modItem key idx fun i => { f i with done := true }

/-- Completes every unfinished item of a job with a failure (R262, R252). -/
def State.failJob (s : State) (key st : Nat) : State :=
  match s.job? key with
  | none => s
  | some j => j.items.foldl (fun s i => s.complete key i.idx fun i => i.fail st) s

/-- Refuses a whole job: one entry, `FINAL` and `LAST`, in place of every item's (R247, R252). -/
def State.refuseJob (s : State) (key st : Nat) : State :=
  match s.job? key with
  | none => s
  | some j => match j.remote with
    | some (p, t) => (s.xferDone p t st).endJob key
    | none => (s.postCq (fin8 j.pot) (fin16 j.cq)
      { job := key, jobId := j.jobId, item := 0xFFFFFFFF, status := st, final := true, last := true, sq := j.ring, noIrq := j.noIrq }).endJob key

/-- An interim `DEFERRED` entry of an item, or of the whole job (R252, R64, R218). -/
def State.postDeferred (s : State) (j : Job) (item : Nat) : State :=
  if j.remote.isSome then s else s.postCq (fin8 j.pot) (fin16 j.cq)
    { job := j.key, jobId := j.jobId, item := item, status := 3, final := false, sq := j.ring, noIrq := j.noIrq }

/-- Ends a job of a stopping pot or an aborted one: item by item when admitted, as a whole otherwise (R262). -/
def State.stopJob (s : State) (key st : Nat) : State :=
  match s.job? key with
  | none => s
  | some j => if j.items.isEmpty then s.refuseJob key st else s.failJob key st

/-- Adds engine time or traffic to a job's pot, ring and attribution, under the given tags (R177, R267). -/
def State.accountAs (s : State) (j : Job) (tags : BitVec 16 × BitVec 16) (idx n : Nat) : State :=
  let s := (s.count 2 j.pot idx n).count 3 (16 * j.pot + j.ring) idx n
  let s := s.attribute j.pot j.key j.jobId tags.1 tags.2 (32 + idx) (if idx < 3 then n else 0)
  if idx = 0 then s.modPot j.pot fun p => { p with charged := p.charged.setIfInBounds j.ring ((p.charged[j.ring]?.getD 0) + n) } else s
/-- The same under the tags of the job's descriptor, for what the module does for it on its own (R240). -/
def State.account (s : State) (j : Job) (idx n : Nat) : State := s.accountAs j (j.layerId, j.operId) idx n

end Sys2Proof.Machine
end

