-- ==== Sys2Proof/Machine/Xfer.lean ====
section
/-! DEFINITION. Packets handed to a peer link, transfers begun and cancelled by this module (R342, R344, R347, R348). -/

namespace Sys2Proof.Machine

/-- The tags of what the module does for a job on its own (R240). -/
def Job.pktTags (j : Job) : PktTags := { jobId := j.jobId, layer := j.layerId, oper := j.operId }

/-- Flits that a packet fills on its own: 32 header bytes and its payload over 240 (R332, R342). -/
def PktOut.flits (p : PktOut) : Nat :=
  ceilDiv (32 + (if p.desc.isSome then 32 else p.payload.length)) 240
/-- Hands a packet to a port's link: its flits take credits, are kept for replay and counted (R333, R343). -/
def State.sendPkt (s : State) (port : Nat) (p : PktOut) : State :=
  let n := p.flits
  let s := s.modPort port fun q => { q with
    sent := p :: q.sent, txSeq := (q.txSeq + n) % 4096, credits := q.credits.setIfInBounds p.tc ((q.credits[p.tc]?.getD 0) - n)
    replay := (q.replay ++ (List.range n).map fun i => ((q.txSeq + i) % 4096, p.tc)).drop ((q.replay.length + n) - 2048) }
  s.count 6 port p.tc n

/-- The state that this module reports (R341): 1 in an activation hold, 0 serving, 2 not serving. -/
def State.ownStatus (s : State) : Nat :=
  let p := s.servingPot
  if s.boot.hold.isSome then 1
  else if s.boot.phase == .ready && s.sec.lifecycle == .operational && s.power.st == 0 && s.potEnabled p && (s.pot p).st != 3 then 0
  else 2
/-- `STATUS` on every UP link (R341). -/
def State.sendStatus (s : State) : State :=
  let body := natLe 1 s.ownStatus ++ natLe 1 s.power.st ++ natLe 4 (s.pot s.servingPot).loop.count ++ zeros 10
  (List.range 4).foldl (fun s n =>
    if (s.port n).st == .up then s.sendPkt n { type := 0x03, dst := (s.port n).ordinal, xfer := 0, payload := body } else s) s

/-- Transfers announced on a link and not yet seen done (R347). -/
def Port.announced (p : Port) : Nat := (p.out.filter fun x => x.announced && !x.standing).length

/-- Begins a transfer: announced at once, or waiting at the sender past 4,096 (R344, R347). Answers its tag. -/
def State.beginXfer (s : State) (port : Nat) (dst : Nat) (x : XferOut) : State × Nat :=
  let p := s.port port
  let tag := p.nextTag
  let room := decide (p.announced < 4096)
  let s := s.modPort port fun p => { p with nextTag := (tag + 1) % 65536, out := p.out ++ [{ x with tag := tag, announced := room }] }
  if room then (s.sendPkt port { type := 0x05, dst := dst, xfer := tag, desc := some x.desc, tags := x.tags }, tag)
  else (s.count 6 port 15 1, tag)

/-- Transfers that waited for room are announced, oldest first (R347). -/
def State.announceWaiting (s : State) (port : Nat) : State :=
  (s.port port).out.foldl (fun s x =>
    if !x.announced && !x.standing && decide ((s.port port).announced < 4096) then
      (s.modPort port fun p => { p with out := p.out.map fun y => if y.tag == x.tag then { y with announced := true } else y }).sendPkt port
        { type := 0x05, dst := (s.port port).ordinal, xfer := x.tag, desc := some x.desc, tags := x.tags }
    else s) s

/-- `CANCEL` for each transfer a job has announced and not drained (R348). -/
def State.cancelXfers (s : State) (job : Nat) : State :=
  (List.range 4).foldl (fun s n =>
    ((s.port n).out.filter fun x => x.job == job && x.announced).foldl (fun s x =>
      s.sendPkt n { type := 0x0A, dst := (s.port n).ordinal, xfer := x.tag, tags := x.tags }) s) s

/-- Some transfer of a job is announced and not done (R270, R348). -/
def State.xfersOf (s : State) (job : Nat) : Bool := s.ports.toList.any fun p => p.out.any (·.job == job)

/-- A job that stops without draining cancels its transfers and completes its unfinished items (R262, R273, R348). -/
def State.abortJob (s : State) (key st : Nat) : State := (s.cancelXfers key).stopJob key st

end Sys2Proof.Machine
end

