-- ==== Sys2Proof/Machine/KCore.lean ====
section
/-! DEFINITION. What every Koelnu instruction shares: the running invocation, core store, tokens, illegal operations,
saturation counts and conversion sums, dispatch and the loop stack (chapters 6, 7 and 8). -/

namespace Sys2Proof.Machine

def State.image? (s : State) (id : Nat) : Option Image := s.images.find? (·.id == id)
/-- The variant an invocation runs (R186). -/
def State.variantOf (s : State) (r : Invocation) : Variant :=
  ((s.image? r.image).bind fun im => im.variants[r.variant]?).getD {}
/-- The image is flagged restartable (R155, Table 7.14). -/
def Image.restartable (im : Image) : Bool := bit (field im.header 0x0A 2) 0
/-- The word at the program counter of a core that runs (R159, R183). -/
def State.wordAt (s : State) (c : Nat) : Option KWord :=
  match (s.core c).run with
  | some r => ((s.variantOf r).code[(s.core c).pc]?).bind decodeK
  | none => none

/-- The layer and operator tags of an entry. -/
def QEntry.tags (q : QEntry) : BitVec 16 × BitVec 16 := (q.layer, q.oper)

-- Core store (R208, R229)

def coreBytes : Nat := 20 * 2 ^ 20
/-- Adds to an attribution counter of the job that a core runs, under the given tags (R177, R411). -/
def State.attributeRun (s : State) (c : Nat) (tags : BitVec 16 × BitVec 16) (i n : Nat) : State :=
  match ((s.core c).run).bind fun r => s.job? r.job with
  | some j => s.attribute j.pot j.key j.jobId tags.1 tags.2 i n
  | none => s
def State.coreRead (s : State) (c a n : Nat) : Bytes := Memory.readN (s.core c).store a n
/-- Words of a write that it covers only in part (R229). -/
def partialWords (a n : Nat) : Nat :=
  if n = 0 then 0 else
  let first := a / 8
  let last := (a + n - 1) / 8
  if first = last then (if a % 8 = 0 ∧ n = 8 then 0 else 1)
  else b2n (decide (a % 8 ≠ 0)) + b2n (decide ((a + n) % 8 ≠ 0))
/-- A write of core store: watched, read-modify-writes counted, poison of what it covers replaced (R152, R230, R413). -/
def State.coreWrite (s : State) (c agent a : Nat) (bs : Bytes) (tags : BitVec 16 × BitVec 16) (poison : Option Arrival) : State :=
  let n := bs.length
  let s := ((s.watched 0 c agent true a n (some tags)).count 1 c 5 (partialWords a n)).attributeRun c tags 38 (partialWords a n)
  s.modCore c fun k =>
    let keep := k.poison.filter fun r => !(decide (a ≤ r.1) && decide (r.1 + r.2.1 ≤ a + n))
    { k with store := Memory.writeN k.store a bs, poison := match poison with | some p => keep ++ [(a, n, p)] | none => keep }
/-- Poison that lies in a range (R152). -/
def Core.poisonIn (k : Core) (a n : Nat) : Option Arrival :=
  (k.poison.find? fun r => decide (r.1 < a + n) && decide (a < r.1 + r.2.1)).map (·.2.2)
/-- The first of two poisons. -/
def orPoison (a b : Option Arrival) : Option Arrival := match a with | some x => some x | none => b

/-- Offset in `CORE` that an address register value names, when `n` bytes from it lie in the core store (R168, R169). -/
def inCore (v : BitVec 48) (n : Nat) : Option Nat :=
  let a := v.toNat % 2 ^ 44
  if v.toNat / 2 ^ 44 = 0 ∧ a < 2 ^ 25 ∧ a + n ≤ coreBytes then some a else none

-- Stopping (R152, R153, R155, R183)

/-- Every item of the job that a core runs which is not yet complete completes with a status; the job ends (R153). -/
def State.failServed (s : State) (c st : Nat) : State :=
  match (s.core c).run with
  | some r => s.abortJob r.job st
  | none => s

/-- Records a fault of a core (R410, Table 18.3). -/
def State.faultRecord (s : State) (c kind pc : Nat) (tags : BitVec 16 × BitVec 16) : State :=
  let v := match (s.core c).run with | some r => r.variant | none => 0
  s.modCore c fun k => { k with fault := some { kind := kind, variant := v, pc := pc, layer := tags.1, oper := tags.2 } }

/-- An illegal operation: counted, recorded, and the job stops on every core at once (R183). -/
def State.illegal (s : State) (c : Nat) (q : QEntry) : State :=
  (((s.count 1 c 6 1).faultRecord c 1 q.pc q.tags).failServed c 0x10).modCore c Core.idle

/-- The status of an item whose output would carry poison (R152). -/
def arrivalStatus : Arrival → Nat
  | .flashBad => 0x20
  | _ => 0x50

-- Tokens (R149, R151, R158)

def waitN (h : KHdr) : Nat := h.wcnt.toNat * 2 ^ h.wexp.toNat
def sigN (h : KHdr) : Nat := h.scnt.toNat * 2 ^ h.sexp.toNat
def Core.token (k : Core) (t : Nat) : Nat := (k.tk[t]?.getD 0).toNat
def Core.take (k : Core) (t n : Nat) : Core := { k with tk := k.tk.setIfInBounds t (BitVec.ofNat 16 (k.token t - n)) }
/-- The header wait is satisfied. -/
def Core.hdrReady (k : Core) (h : KHdr) : Bool := !h.wen || decide (waitN h ≤ k.token h.wtk.toNat)
def Core.hdrTake (k : Core) (h : KHdr) : Core := if h.wen then k.take h.wtk.toNat (waitN h) else k
def Core.syncReady (k : Core) (y : KSync) : Bool := !y.en || decide (y.cnt.toNat ≤ k.token y.tk.toNat)
def Core.syncTake (k : Core) (y : KSync) : Core := if y.en then k.take y.tk.toNat y.cnt.toNat else k
/-- A header count past 65,535 (R151, R158). -/
def tooMany (h : KHdr) : Bool := decide (65535 < waitN h) || decide (65535 < sigN h)
/-- Adds to a counter of core `to`; past 65,535 it is an illegal operation of the instruction (R151). -/
def State.signal (s : State) (c to_ : Nat) (q : QEntry) (t n : Nat) : State :=
  let v := (s.core to_).token t + n
  if 65535 < v then s.illegal c q
  else s.modCore to_ fun k => { k with tk := k.tk.setIfInBounds t (BitVec.ofNat 16 v) }
def State.hdrSignal (s : State) (c to_ : Nat) (q : QEntry) : State :=
  if q.word.hdr.sen then s.signal c to_ q q.word.hdr.stk.toNat (sigN q.word.hdr) else s
def State.syncSignal (s : State) (c : Nat) (q : QEntry) (y : KSync) : State :=
  if y.en then s.signal c c q y.tk.toNat y.cnt.toNat else s

-- Saturations and conversion sums (R197 to R203)

/-- `SAT_EVENT` of a job whose saturations and NaNs narrowed have reached its pot's threshold, at most one in each 10 ms (R202). -/
def State.postSat (s : State) (key : Nat) : State :=
  match s.job? key with
  | none => s
  | some j =>
    let due := match j.satAt with | some t => decide (t + 10000 ≤ s.time) | none => true
    if 0 < j.sat ∧ s.potSat j.pot ≤ j.sat ∧ due = true then
      (s.modJob j.key fun j => { j with sat := 0, satAt := some s.time }).postEvent (some (fin8 j.pot)) 0x0001 j.jobId
        j.satFirst.2.1 j.satFirst.2.2 (natLe 8 j.sat ++ natLe 1 j.satFirst.1 ++ zeros 7)
    else s
/-- Saturations and NaNs narrowed of a job's work, the first of them remembered (R202). -/
def State.jobSats (s : State) (key fmt : Nat) (tags : BitVec 16 × BitVec 16) (n : Nat) : State :=
  if n = 0 then s else
  (s.modJob key fun j => { j with
    sat := j.sat + n, satFirst := if j.sat = 0 then (fmt, tags.1, tags.2) else j.satFirst }).postSat key
/-- Counts a narrowing's saturations against a core, its job and the tags (R201, R202). -/
def State.countSatsOf (s : State) (job : Option Job) (c fmt : Nat) (tags : BitVec 16 × BitVec 16) (sats : List Sat) : State :=
  let (r, cl, n) := satCounts sats
  let s := ((s.count 1 c (32 + 3 * fmt) r).count 1 c (33 + 3 * fmt) cl).count 1 c (34 + 3 * fmt) n
  match job with
  | none => s
  | some j => ((s.attribute j.pot j.key j.jobId tags.1 tags.2 35 (r + n)).attribute j.pot j.key j.jobId tags.1 tags.2 36 cl).jobSats
      j.key fmt tags (r + n)
/-- The same for the job that the core runs. -/
def State.countSats (s : State) (c fmt : Nat) (tags : BitVec 16 × BitVec 16) (sats : List Sat) : State :=
  s.countSatsOf (((s.core c).run).bind fun i => s.job? i.job) c fmt tags sats

/-- Adds a value to a 64-bit floating-point sum (R203). -/
def f64Add (a : BitVec 64) (v : Val) : BitVec 64 :=
  match (fp64.decode a.toNat).add? v with
  | some w => BitVec.ofNat 64 (fp64.narrow w).1
  | none => a
/-- The three sums after a block of values `x` narrowed to `q`, finite ones (R203). -/
def addSums (t : Nat × BitVec 64 × BitVec 64) (x q : List Val) : Nat × BitVec 64 × BitVec 64 :=
  (x.zip q).foldl (fun t (a, b) =>
    let d := (a.add? b.neg).getD (.fin false 0 0)
    (t.1 + 1, f64Add t.2.1 ((a.mul? a).getD (.fin false 0 0)), f64Add t.2.2 ((d.mul? d).getD (.fin false 0 0)))) t

/-- The block is clipped (R197): the target is on, the window full and below it, and at most one element lies above 7.5 of
the halved scale. -/
def clips (n e : Nat) (w : Window) (vs : List Val) : Bool :=
  let hits := ((w.blocks.take 256).sum)
  n != 0 && decide (256 ≤ w.blocks.length) && decide (hits * 2 ^ n < 8192) && decide (1 ≤ e) &&
  decide ((vs.filter fun v => match v with
    | .nan => false
    | .inf _ => true
    | .fin _ m x => (Val.fin false 30 (e - 130)).lt (.fin false m x)).length ≤ 1)

/-- Adds a block narrowed with a scale to a core's sums of its output format (R203). -/
def State.addConv (s : State) (c fmt : Nat) (x q : List Val) : State :=
  s.modCore c fun k => { k with conv := k.conv.setIfInBounds fmt (addSums (k.conv[fmt]?.getD (0, 0, 0)) x q) }

/-- Narrows one block of 32 on a core: scale and codes, windows and sums kept; the spout and `VCVT` may clip (R195, R197, R199, R203). -/
def State.narrowBlockK (s : State) (c fmt : Nat) (mayClip : Bool) (tags : BitVec 16 × BitVec 16) (vs : List Val) :
    State × Nat × List (Nat × Sat) :=
  let k := s.core c
  let e := blockScale fmt vs
  let old : Window := (k.windows.find? fun w => w.layer == tags.1 && w.oper == tags.2).getD { layer := tags.1, oper := tags.2 }
  let n := match k.run.bind fun i => s.job? i.job with | some j => s.potClipN j.pot | none => 0
  let clip := mayClip && fmt == 6 && clips n e old vs
  let e := if clip then e - 1 else e
  let codes := (narrowWith fmt e vs).zip vs |>.map fun (x, v) => match x.2, v with
    | .range, .fin _ _ _ => (x.1, if clip then Sat.clip else Sat.range)
    | _, _ => x
  let q := codes.map fun x => blockVal fmt e x.1
  let s := s.addConv c fmt vs q
  let s := if fmt = 6 then s.modCore c fun k =>
      let w := { old with blocks := ((codes.filter fun x => x.2 == .clip).length :: old.blocks).take 256, sums := addSums old.sums vs q }
      { k with windows := (w :: k.windows.filter fun w => !(w.layer == tags.1 && w.oper == tags.2)).take 64 }
    else s
  (s, e, codes)

/-- Narrows a row: codes, scales (empty without block scales) and what each element counted (R145, R167). -/
def State.narrowRowK (s : State) (c fmt : Nat) (blk mayClip : Bool) (tags : BitVec 16 × BitVec 16) (vs : List Val) :
    State × List Nat × List Nat × List Sat :=
  if scaledFmt fmt blk then
    (blocks32 vs).foldl (fun (s, cs, es, sats) b =>
      let (s, e, r) := State.narrowBlockK s c fmt mayClip tags b
      (s, cs ++ r.map (·.1), es ++ [e], sats ++ r.map (·.2))) (s, [], [], [])
  else
    let r := vs.map (narrowElem fmt)
    (s, r.map (·.1), [], r.map (·.2))

-- Dispatch (R159, R160, R180)

/-- Leaves loop bodies that end at `next`, taking the innermost iterations that remain (R180). -/
def loopNext : Nat → Nat → List LoopLevel → Nat × List LoopLevel
  | 0, next, l => (next, l)
  | _, next, [] => (next, [])
  | n + 1, next, l :: rest =>
    if l.start + l.body = next then
      (if 0 < l.left then (l.start, { l with left := l.left - 1 } :: rest) else loopNext n next rest)
    else (next, l :: rest)
/-- The program counter moves past the word at it. -/
def Core.advance (k : Core) : Core :=
  let (pc, loops) := loopNext 5 (k.pc + 1) k.loops
  { k with pc := pc, loops := loops }

/-- The spare is taking the core over: nothing on it fires or dispatches (R154). -/
def State.takingOver (s : State) (c : Nat) : Bool := s.boot.takeovers.any (·.1 == c)
/-- The core can dispatch the word: it runs, is not parked, its front end is free, and this word is at its program counter. -/
def State.atWord (s : State) (c : Nat) (w : KWord) : Bool :=
  (match (s.core c).run with | some r => !r.ending && !r.ended | none => false) &&
  !(s.core c).parked && !s.takingOver c && (s.core c).front.isNone && decide (s.power.st = 0) && s.boot.phase == .ready && s.wordAt c == some w

/-- A dispatched instruction with the tags and the named registers as read at dispatch (R160). -/
def Core.entry (k : Core) (w : KWord) (regs : List (BitVec 4)) : QEntry :=
  { word := w, pc := k.pc, layer := k.layer, oper := k.oper, regs := regs.map fun r => k.ad[r.toNat]?.getD 0 }
def QEntry.reg (q : QEntry) (i : Nat) : BitVec 48 := q.regs.getD i 0

/-- Every unit has completed what was dispatched to it (R178, R179, R182). -/
def Core.unitsIdle (k : Core) : Bool :=
  k.qLoader.isEmpty && k.qArrays.isEmpty && k.qSpout.isEmpty && k.qVector.isEmpty && k.qMove.isEmpty && k.mms.isEmpty && k.moves.isEmpty
/-- The units that a fence mask names have completed what was dispatched to them (R178). -/
def Core.fenceOk (k : Core) (mask : BitVec 5) : Bool :=
  (!mask.getLsbD 0 || (k.qLoader.isEmpty && k.mms.isEmpty)) && (!mask.getLsbD 1 || (k.qArrays.isEmpty && k.mms.isEmpty)) &&
  (!mask.getLsbD 2 || (k.qSpout.isEmpty && k.mms.isEmpty)) && (!mask.getLsbD 3 || k.qVector.isEmpty) &&
  (!mask.getLsbD 4 || (k.qMove.isEmpty && k.moves.isEmpty))

/-- The counters an instruction names, as waits or signals (R173). -/
def wordCounters (w : KWord) : List (BitVec 5) :=
  (if w.hdr.wen then [w.hdr.wtk] else []) ++ (if w.hdr.sen then [w.hdr.stk] else []) ++
  (match w.op with
    | .mm o => ([o.xw, o.dw, o.xs].filter (·.en)).map (·.tk)
    | .mov o => ([o.dw, o.xs].filter (·.en)).map (·.tk)
    | .leafrd o => ([o.dw].filter (·.en)).map (·.tk)
    | _ => [])
/-- Some dispatched instruction that names a counter has not fired and signalled (R173). -/
def Core.counterBusy (k : Core) (t : BitVec 5) : Bool :=
  let names := fun w : KWord => (wordCounters w).contains t
  ((k.qLoader ++ k.qArrays ++ k.qSpout ++ k.qVector ++ k.qMove).any fun q => names q.word) ||
  (k.mms.any fun m => names m.q.word) || (k.moves.any fun m => names m.word)

end Sys2Proof.Machine
end

