-- ==== Sys2Proof/Machine/KMat.lean ====
section
/-! DEFINITION. The arrays, banks and spout: the fold of a matrix instruction, its passes and its drains (R133 to R147, R162 to R166). -/

namespace Sys2Proof.Machine

def mmOps (q : QEntry) : MmOps := match q.word.op with | .mm o => o | _ => {}
/-- Format code of Table 8.1 of a stationary or streaming format code of Table 7.6. -/
def mmFmt (f : Nat) : Nat :=
  match f with | 0 => 3 | 1 => 4 | 2 => 5 | 3 => 1 | 4 => 2 | _ => 6

/-- The fold of R139. -/
structure Fold where
  w : Nat
  kc : Nat
  nt : Nat
  gmax : Nat
  groups : Nat
deriving DecidableEq, Repr

def foldOf (q : QEntry) : Fold :=
  let paired := (mmOps q).sfmt == 6
  let w := if paired then 256 else 128
  let g := if paired then 1024 else 2048
  { w := w, kc := ceilDiv q.shape.k 128, nt := ceilDiv q.shape.n w, gmax := g, groups := ceilDiv q.shape.m g }
def Fold.tiles (f : Fold) : Nat := f.groups * f.nt
def Fold.passes (f : Fold) : Nat := f.groups * f.nt * f.kc
/-- Vectors of group `g`. -/
def Fold.vectors (f : Fold) (m g : Nat) : Nat := Nat.min f.gmax (m - g * f.gmax)
/-- First bank row of output tile `j` of a group of `q` vectors per array (R139). -/
def MmRun.row0 (r : MmRun) (j q : Nat) : Nat := if (mmOps r.q).keep || r.cont then (j / 2) * q else 0

def packed (len stride : Nat) : Nat := if stride = 0 then ceilDiv len 8 * 8 else stride * 8

-- Operands in core store

/-- Bytes of a stationary row as stored: K rows of N, or under `TRANS` N rows of K (R135). -/
def statRow (q : QEntry) : Nat :=
  let o := mmOps q
  rowBytes (mmFmt o.sfmt.toNat) false (if o.trans then q.shape.k else q.shape.n)
def statBytes (q : QEntry) : Nat :=
  let o := mmOps q
  if o.role = 1 then 18432 else
  let rows := if o.trans then q.shape.n else q.shape.k
  (rows - 1) * packed (statRow q) q.shape.sstr + statRow q
def streamRow (q : QEntry) : Nat := rowBytes (mmFmt (mmOps q).xfmt.toNat) false q.shape.k
def streamBytes (q : QEntry) : Nat := (q.shape.m - 1) * packed (streamRow q) q.shape.xstr + streamRow q
/-- Bytes of the codes of `n` elements. -/
def codeBytes (fmt n : Nat) : Nat := if fmt = 6 then ceilDiv n 2 else n * elemBytes fmt
/-- Bytes of a destination row: N elements with their scales in row order, M codes transposed (R146). -/
def destRow (q : QEntry) : Nat :=
  let fmt := q.cfg.o.ofmt.toNat
  if q.cfg.o.dest = 1 then codeBytes fmt q.shape.m else rowBytes fmt q.cfg.o.blk q.shape.n
/-- Offset of the scale of row `m`, columns 32b …, of a transposed destination: a plane of scales follows the N code rows, M to a scale
row (DESIGN CHOICE, log 16). -/
def scalePlane (q : QEntry) (b m : Nat) : Nat :=
  q.shape.n * packed (destRow q) q.shape.dstr + b * packed q.shape.m 0 + m
def destBytes (q : QEntry) : Nat :=
  let o := q.cfg.o
  if o.dest = 1 ∧ scaledFmt o.ofmt.toNat o.blk = true then scalePlane q (ceilDiv q.shape.n 32 - 1) q.shape.m
  else ((if o.dest = 1 then q.shape.n else q.shape.m) - 1) * packed (destRow q) q.shape.dstr + destRow q

/-- Element (k, n) of the stationary operand (R135, Table 6.3). -/
def statElem (store : Mem) (q : QEntry) (base k n : Nat) : Val :=
  let o := mmOps q
  if o.role = 1 then
    let t := if o.area then k else n
    let d := if o.area then n else k
    let tokens := (Memory.read store (base + 0x0B)).toNat
    if tokens ≤ t then .fin false 0 0 else
    let e := t * 128 + d
    let sc := (Memory.read store (base + (if o.area then 0x0340 else 0x0140) + e / 32)).toNat
    let b := (Memory.read store (base + (if o.area then 0x2540 else 0x0540) + e / 2)).toNat
    blockVal 6 sc ((b / (if e % 2 = 0 then 1 else 16)) % 16)
  else
    let f := mmFmt o.sfmt.toNat
    let row := base + (if o.trans then n else k) * packed (statRow q) q.shape.sstr
    let i := if o.trans then k else n
    let len := if o.trans then q.shape.k else q.shape.n
    if f = 6 then
      let b := (Memory.read store (row + i / 2)).toNat
      blockVal 6 (Memory.read store (row + ceilDiv len 2 + i / 32)).toNat ((b / (if i % 2 = 0 then 1 else 16)) % 16)
    else elemVal f (leNat (Memory.readN store (row + i * elemBytes f) (elemBytes f)))
/-- Element k of streaming vector `m`. -/
def streamElem (store : Mem) (q : QEntry) (base m k : Nat) : Val :=
  let f := mmFmt (mmOps q).xfmt.toNat
  elemVal f (leNat (Memory.readN store (base + m * packed (streamRow q) q.shape.xstr + k * elemBytes f) (elemBytes f)))

/-- Where `n` elements from element `i` of a row of `len` elements lie: their codes, and their scales under BG4. -/
def rowPieces (f len row i n : Nat) : List (Nat × Nat) :=
  if f = 6 then [(row + i / 2, ceilDiv n 2), (row + ceilDiv len 2 + i / 32, ceilDiv n 32)]
  else [(row + i * elemBytes f, n * elemBytes f)]
/-- The parts of core store that tile (kk, j) is loaded from (R135, Table 6.3). -/
def statPieces (q : QEntry) (base kk j : Nat) : List (Nat × Nat) :=
  let o := mmOps q
  let w := (foldOf q).w
  let ks := Nat.min 128 (q.shape.k - kk * 128)
  let ns := Nat.min w (q.shape.n - j * w)
  if o.role = 1 then [(base + 0x0B, 1), (base + (if o.area then 0x0340 else 0x0140), 512), (base + (if o.area then 0x2540 else 0x0540), 8192)]
  else
    let row := fun r => base + r * packed (statRow q) q.shape.sstr
    let f := mmFmt o.sfmt.toNat
    if o.trans then ((List.range ns).map fun n => rowPieces f q.shape.k (row (j * w + n)) (kk * 128) ks).flatten
    else ((List.range ks).map fun k => rowPieces f q.shape.n (row (kk * 128 + k)) (j * w) ns).flatten
/-- The first poison in some parts of core store (R152). -/
def Core.poisonOf (k : Core) (parts : List (Nat × Nat)) : Option Arrival := parts.foldl (fun p r => orPoison p (k.poisonIn r.1 r.2)) none

/-- The checks of R165 when `MM` fires; `prev` is the `KEEP` instruction this one continues. -/
def mmLegal (q : QEntry) (prev : Option (Nat × Nat × Nat)) : Bool :=
  let o := mmOps q
  let f := foldOf q
  let sc := q.cfg.o
  q.shape.valid && (o.keep || q.cfg.valid) &&
  (o.role != 1 || (q.shape.k == 128 && q.shape.n == 128 && (o.area || o.keep || sc.ofmt == 0))) &&
  (!o.keep || keepFits (o.sfmt == 6) q.shape.m q.shape.n) &&
  (match prev with | some (m, n, w) => m == q.shape.m && n == q.shape.n && w == f.w | none => true) &&
  (inCore (q.reg 0) (statBytes q)).isSome && (inCore (q.reg 1) (streamBytes q)).isSome &&
  (o.keep || ((sc.dest == 2 || (inCore (q.reg 2) (destBytes q)).isSome) &&
    (sc.scale != 1 || (inCore q.cfgAd.1 (4 * q.shape.n)).isSome) &&
    (sc.bias == 0 || (inCore q.cfgAd.2 ((if sc.bias = 1 then 4 else 2) * q.shape.n)).isSome)))

-- Passes

/-- A value of a bank; unlisted values read zero (R141). -/
def Core.bank (k : Core) (b row col : Nat) : BitVec 32 := lookupD k.banks (b, row, col) 0
def Core.setBank (k : Core) (b row col : Nat) (v : BitVec 32) : Core :=
  { k with banks := (k.banks.filter fun e => e.1 != (b, row, col)) ++ (if v = 0 then [] else [((b, row, col), v)]) }

/-- An FP32 sum in free order as a bank takes it: the word, and 1 when a magnitude passed the largest finite value (R133, R196). -/
def bankSum (c : Nat) (xs : List Val) : BitVec 32 × Nat := (sumFree c xs, b2n (sumPasses c xs))

/-- The exact integer sum of products of integers. -/
def intSum (xs : List Val) : Int := xs.foldl (fun a x => match x with | .fin n m e => a + roundInt n m e | _ => a) 0

/-- An INT32 bank value: exact, saturating (R143). -/
def bankInt (old : BitVec 32) (xs : List Val) : BitVec 32 × Nat :=
  let v := old.toInt + intSum xs
  if v > 2 ^ 31 - 1 then (BitVec.ofInt 32 (2 ^ 31 - 1), 1)
  else if v < -(2 ^ 31) then (BitVec.ofInt 32 (-(2 ^ 31)), 1) else (BitVec.ofInt 32 v, 0)

/-- What the load registers hold once pass `loaded` of a run is loaded: the tile, its check columns, its poison (R137, R152, R358). -/
def Core.readTile (k : Core) (c : Nat) (r : MmRun) : Tile :=
  let q := r.q
  let f := foldOf q
  let kk := r.loaded % f.kc
  let j := r.loaded / f.kc % f.nt
  let base := (inCore (q.reg 0) 0).getD 0
  let rows := (List.range (Nat.min 128 (q.shape.k - kk * 128))).map fun i =>
    (List.range (Nat.min f.w (q.shape.n - j * f.w))).map fun col => statElem k.store q base (kk * 128 + i) (j * f.w + col)
  { rows := rows, poison := k.poisonOf (statPieces q base kk j), tokens := (Memory.read k.store (base + 0x0B)).toNat
    checks := rows.zipIdx.map fun (row, i) => if (mmOps q).sfmt = 2 then (BitVec.ofInt 32 (intSum row), 0)
      else (sumFree (c + i) row, sumFree (c + i) (row.map Val.abs)) }

/-- A check row after a vector's pass under R358: as its bank row, by the overwrite/add rule; `sat` says that the row saturated. -/
def CheckRow.pass (old : CheckRow) (c : Nat) (add int sat : Bool) (xs : List Val) (tile : Tile) : CheckRow :=
  let odd := fun (v : Val) => match v with | .fin _ _ _ => false | _ => true
  let old := if add then old else {}
  let void := old.void || sat || xs.any odd || tile.rows.any (·.any odd)
  if int then { old with
    y := old.y + BitVec.ofInt 32 (intSum ((xs.zip tile.checks).map fun (x, s) => x.times (Val.ofInt s.1.toInt))), k := old.k + xs.length, void := void }
  else
    { y := sumFree c (ofF32 old.y :: (xs.zip tile.checks).map fun (x, s) => x.times (ofF32 s.1))
      a := sumFree (c + 1) (ofF32 old.a :: (xs.zip tile.checks).map fun (x, s) => x.abs.times (ofF32 s.2))
      k := old.k + xs.length, void := void }

/-- The result of pass `landed` of a run, in its bank, its tile in the active registers; poison and check rows go with the bank rows
(R137, R139, R141, R152, R358). -/
def State.landPass (s : State) (c : Nat) (r : MmRun) : State :=
  let k := s.core c
  let q := r.q
  let o := mmOps q
  let f := foldOf q
  let tile := k.loads.headD {}
  let t := r.landed / f.kc
  let kk := r.landed % f.kc
  let g := t / f.nt
  let j := t % f.nt
  let m := f.vectors q.shape.m g
  let per := ceilDiv m 4
  let row0 := r.row0 j per
  let xb := (inCore (q.reg 1) 0).getD 0
  let int := o.sfmt == 2
  let add := o.acc || decide (0 < kk)
  let cols := Nat.min f.w (q.shape.n - j * f.w)
  let xf := mmFmt o.xfmt.toNat
  let (k', sats) := (List.range m).foldl (fun (a : Core × Nat) v =>
    let row := 512 * (v / per) + row0 + v % per
    let vec := g * f.gmax + v
    let xs := (List.range tile.rows.length).map fun i => streamElem k.store q xb vec (kk * 128 + i)
    let (k1, n) := (List.range cols).foldl (fun (a : Core × Nat) col =>
      let prods := (xs.zip tile.rows).map fun (x, row) => x.times (row.getD col .nan)
      let old := if add then a.1.bank (j % 2) row col else 0
      let (y, n) := if int then bankInt old prods
        else bankSum (s.free + (v * cols + col)) (if add then ofF32 old :: prods else prods)
      (a.1.setBank (j % 2) row col y, a.2 + n)) (a.1, 0)
    let at_ := (j % 2, row)
    let p := orPoison (if add then k1.bankPoison.lookup at_ else none) (orPoison tile.poison
      (k.poisonOf (rowPieces xf q.shape.k (xb + vec * packed (streamRow q) q.shape.xstr) (kk * 128) xs.length)))
    ({ k1 with
      bankPoison := k1.bankPoison.filter (·.1 != at_) ++ (p.map fun x => (at_, x)).toList
      checkRows := upsert k1.checkRows at_ {} fun w => w.pass (s.free + v) add int (decide (0 < n)) xs tile }, a.2 + n)) (k, 0)
  let s := (s.modCore c fun _ => { k' with
    loads := k'.loads.drop 1, cells := some tile
    mms := k'.mms.map fun x => if x.num == r.num then { x with landed := x.landed + 1, tokens := tile.tokens } else x }).used
  ((s.count 1 c 2 1).countSats c 7 q.tags (List.replicate sats .range)).attributeRun c q.tags 39 1

-- Drains

/-- 1 ÷ (1 + exp(-x)) of a finite value, to the precision of `expApprox`. -/
def sigmoidApprox (n : Bool) (m : Nat) (e : Int) : Val :=
  ((Val.ofNat 1).div? (((Val.ofNat 1).add? (expApprox (!n) m e)).getD .nan)).getD (.fin false 0 0)
/-- A decimal fraction with a millionth as unit. -/
def micro (n : Nat) : Val := ((Val.ofNat n).div? (Val.ofNat 1000000)).getD .nan

/-- The activation of Table 6.7 in FP32, within its error; at an infinity the limit, free where there is none. -/
def activate (c i act : Nat) (cap x : BitVec 32) : BitVec 32 :=
  let free : BitVec 32 := (Config.freeWord c i).truncate 32
  match act, ofF32 x with
  | 0, _ => x
  | 1, _ => f32Max c i x 0
  | 2, .fin n m e =>
    let v : Val := .fin n m e
    let inner := ((((v.mul? v).bind (·.mul? v)).bind (·.mul? (micro 44715))).bind (·.add? v)).getD .nan
    match (inner.mul? (micro 797885)).getD .nan with
    | .fin n2 m2 e2 => withinUlp c i 4 ((v.mul? (sigmoidApprox n2 m2 (e2 + 1))).getD .nan)
    | _ => free
  | 2, .inf false => x
  | 3, .fin n m e => withinUlp c i 4 (((Val.fin n m e).mul? (sigmoidApprox n m e)).getD .nan)
  | 3, .inf false => x
  | 4, .fin n m e => withinUlp c i 2 (sigmoidApprox n m e)
  | 4, .inf n => if n then 0 else 0x3F800000
  | 5, _ => f32Tanh c i 2 x
  | 6, .fin n m e =>
    match ((Val.fin n m e).div? (ofF32 cap)).getD .nan with
    | .fin n2 m2 e2 => withinUlp c i 4 (((ofF32 cap).mul? (tanhApprox n2 m2 e2)).getD .nan)
    | _ => free
  | 6, .inf n => if n then cap ||| 0x80000000 else cap
  | _, _ => free

/-- Convert, Scale with the mask of R166, Bias and Activation on one bank value (Table 6.6). -/
def spoutValue (c i : Nat) (q : QEntry) (tokens : Nat) (k : Core) (col : Nat) (bank : BitVec 32) : BitVec 32 :=
  let o := mmOps q
  let sc := q.cfg.o
  let masked := o.role == 1 && !o.area && decide (tokens ≤ col)
  if masked then 0xFF800000 else
  let x := if o.sfmt = 2 then toF32 (Val.ofInt bank.toInt) else bank
  let x := match sc.scale.toNat with
    | 1 => f32Mul c (4 * i) x (BitVec.ofNat 32 (leNat (Memory.readN k.store ((inCore q.cfgAd.1 0).getD 0 + 4 * col) 4)))
    | 2 => f32Mul c (4 * i) x q.cfg.scalar
    | _ => x
  let ba := (inCore q.cfgAd.2 0).getD 0
  let x := match sc.bias.toNat with
    | 1 => f32Add c (4 * i + 1) x (BitVec.ofNat 32 (leNat (Memory.readN k.store (ba + 4 * col) 4)))
    | 2 => f32Add c (4 * i + 1) x (toF32 (bf16.decode (leNat (Memory.readN k.store (ba + 2 * col) 2))))
    | _ => x
  activate c (4 * i + 2) sc.act.toNat q.cfg.cap x

/-- Writes element codes of a row at columns `col0 …`, BG4 nibbles one by one (R146). -/
def State.placeCodes (s : State) (c fmt row col0 : Nat) (cs : List Nat) (tags : BitVec 16 × BitVec 16) (poison : Option Arrival) : State :=
  if fmt = 6 then
    if col0 % 2 = 0 ∧ cs.length % 2 = 0 then s.coreWrite c 1 (row + col0 / 2) (packNibbles cs) tags poison
    else cs.zipIdx.foldl (fun s (x, i) =>
      let a := row + (col0 + i) / 2
      let old := (Memory.read (s.core c).store a).toNat
      let v := if (col0 + i) % 2 = 0 then old / 16 * 16 + x % 16 else old % 16 + 16 * (x % 16)
      s.coreWrite c 1 a [BitVec.ofNat 8 v] tags poison) s
  else s.coreWrite c 1 (row + col0 * elemBytes fmt) (packCodes fmt cs) tags poison

/-- Bank row of vector `v` of a run's output tile `drained` (R139). -/
def MmRun.drainRow (r : MmRun) (v : Nat) : Nat :=
  let f := foldOf r.q
  let per := ceilDiv (f.vectors r.q.shape.m (r.drained / f.nt)) 4
  512 * (v / per) + r.row0 (r.drained % f.nt) per + v % per

/-- The check of R358 on a drained bank row: the check value against the FP32 sum of the row's results, within the tolerance; exact in
wrapping INT32; nothing to compare where a value was not finite or saturated (assumption log 49). -/
def rowChecks (c : Nat) (int : Bool) (w : CheckRow) (vals : List (BitVec 32)) : Bool :=
  w.void ||
  (if int then w.y == vals.foldl (· + ·) 0
   else (((ofF32 w.y).neg.plus (ofF32 (sumFree c (vals.map ofF32)))).abs).le
     (((Val.fin false 1 (-10)).plus (.fin false w.k (-22))).times (ofF32 w.a)))
/-- Every bank row of a run's output tile `drained` passes its check. -/
def State.tileChecks (s : State) (c : Nat) (r : MmRun) : Bool :=
  let k := s.core c
  let f := foldOf r.q
  let j := r.drained % f.nt
  (List.range (f.vectors r.q.shape.m (r.drained / f.nt))).all fun v =>
    rowChecks (s.free + v) ((mmOps r.q).sfmt == 2) (lookupD k.checkRows (j % 2, r.drainRow v) {})
      ((List.range (Nat.min f.w (r.q.shape.n - j * f.w))).map fun col => k.bank (j % 2) (r.drainRow v) col)

/-- A row of array `a` fills the vector unit's lanes, a paired row in two halves (R144, R146). -/
def Core.fillLanes (k : Core) (a : Nat) (vals : List (BitVec 32)) : Core :=
  { k with lanes := vals.zipIdx.foldl (fun l (x, col) => l.setIfInBounds (128 * a + col % 128) x) k.lanes }

/-- Drains output tile `drained` of a run through the spout (R144 to R147). -/
def State.drainTile (s : State) (c : Nat) (r : MmRun) : State :=
  let k := s.core c
  let q := r.q
  let f := foldOf q
  let sc := q.cfg.o
  let fmt := sc.ofmt.toNat
  let g := r.drained / f.nt
  let j := r.drained % f.nt
  let m := f.vectors q.shape.m g
  let cols := Nat.min f.w (q.shape.n - j * f.w)
  let base := (inCore (q.reg 2) 0).getD 0
  let stride := packed (destRow q) q.shape.dstr
  let params := orPoison (if sc.scale = 1 then k.poisonIn ((inCore q.cfgAd.1 0).getD 0 + 4 * j * f.w) (4 * cols) else none)
    (let w := if sc.bias = 1 then 4 else 2
     if sc.bias = 0 then none else k.poisonIn ((inCore q.cfgAd.2 0).getD 0 + w * j * f.w) (w * cols))
  let s := (List.range m).foldl (fun s v =>
    let row := r.drainRow v
    let vals := (List.range cols).map fun col => spoutValue s.free (v * cols + col) q r.tokens k (j * f.w + col) (k.bank (j % 2) row col)
    if sc.dest = 2 then s.modCore c fun k => k.fillLanes (v / ceilDiv m 4) vals
    else
      let poison := orPoison (k.bankPoison.lookup (j % 2, row)) params
      let (s, cs, es, sats) := State.narrowRowK s c fmt sc.blk true q.tags (vals.map ofF32)
      let mrow := g * f.gmax + v
      let s := if sc.dest = 0 then
          let at_ := base + mrow * stride
          let s := s.placeCodes c fmt at_ (j * f.w) cs q.tags poison
          if es.isEmpty then s else
            s.coreWrite c 1 (at_ + codeBytes fmt q.shape.n + j * f.w / 32) (es.map (BitVec.ofNat 8)) q.tags poison
        else
          let s := cs.zipIdx.foldl (fun s (x, i) => s.placeCodes c fmt (base + (j * f.w + i) * stride) mrow [x] q.tags poison) s
          es.zipIdx.foldl (fun s (e, b) =>
            s.coreWrite c 1 (base + scalePlane q (j * f.w / 32 + b) mrow) [BitVec.ofNat 8 e] q.tags poison) s
      s.countSats c fmt q.tags sats) s
  let drained := fun (at_ : Nat × Nat) => at_.1 == j % 2 && (List.range m).any fun v => r.drainRow v == at_.2
  let s := (s.modCore c fun k => { k with
    banks := k.banks.filter fun e => !drained (e.1.1, e.1.2.1)
    bankPoison := k.bankPoison.filter fun e => !drained e.1
    checkRows := k.checkRows.filter fun e => !drained e.1
    mms := k.mms.map fun x => if x.num == r.num then { x with drained := x.drained + 1 } else x }).used
  s.count 1 c 3 m

/-- Bank `b` is busy for tile `t` of a run: an earlier tile in it is not drained (R142). -/
def bankBusy (mms : List MmRun) (r : MmRun) (t : Nat) : Bool :=
  let f := foldOf r.q
  let b := (t % f.nt) % 2
  let pending := fun (x : MmRun) (upto : Nat) =>
    (List.range upto).any fun u => decide (x.drained ≤ u) && (u % (foldOf x.q).nt) % 2 == b
  ((mms.takeWhile (·.num != r.num)).any fun x => !(mmOps x.q).keep && pending x (foldOf x.q).tiles) ||
  (!(mmOps r.q).keep && !r.cont && pending r t)

/-- The run whose next tile the loader writes: loads remain and at most four tiles are ahead of the fronts (R138). -/
def Core.loadingRun (k : Core) : Option MmRun :=
  if 4 ≤ ((k.mms.map fun r => r.loaded - r.landed).sum) then none
  else k.mms.find? fun r => decide (r.loaded < (foldOf r.q).passes)
/-- The run whose next pass can land: the tile is loaded, the stream's token taken, the bank not busy (R149, Table 6.9). -/
def Core.landingRun (k : Core) : Option MmRun :=
  match k.mms.find? fun r => decide (r.landed < (foldOf r.q).passes) with
  | some r => if r.arraysOn && decide (r.landed < r.loaded) && !bankBusy k.mms r (r.landed / (foldOf r.q).kc) then some r else none
  | none => none
/-- The run whose next tile the spout can drain (R142, Table 6.9). -/
def Core.drainingRun (k : Core) : Option MmRun :=
  match k.mms.find? fun r => !(mmOps r.q).keep && decide (r.drained < (foldOf r.q).tiles) with
  | some r => if r.spoutOn && decide ((r.drained + 1) * (foldOf r.q).kc ≤ r.landed) then some r else none
  | none => none

end Sys2Proof.Machine
end

