-- ==== Sys2Proof/Machine/Leaves.lean ====
section
/-! DEFINITION. Leaf pages, centroid pages, selection, partials and their merge, attention over leaves, and sampling
(chapters 2 and 3). A free value is taken at counter `c`; different uses in one command use different counters. -/

namespace Sys2Proof.Machine

-- Leaf pages (Tables 2.1, 2.2)

def leafTokens (pg : Bytes) : Nat := field pg 0x0B 1
/-- Key or value of token `t`, dimension `d` as decoded (R18): exact. -/
def leafKey (pg : Bytes) (t d : Nat) : Val :=
  let e := t * 128 + d
  blockVal 6 (pg.getD (0x0140 + e / 32) 0).toNat (((pg.getD (0x0540 + e / 2) 0).toNat / (if e % 2 = 0 then 1 else 16)) % 16)
def leafValue (pg : Bytes) (t d : Nat) : Val :=
  let e := t * 128 + d
  blockVal 6 (pg.getD (0x0340 + e / 32) 0).toNat (((pg.getD (0x2540 + e / 2) 0).toNat / (if e % 2 = 0 then 1 else 16)) % 16)
/-- The FP16 centroid of a leaf (R17). -/
def leafCentroid (pg : Bytes) : List (BitVec 16) := (List.range 128).map fun d => BitVec.ofNat 16 (field pg (0x40 + 2 * d) 2)

/-- Centroid dimension `d` of rows: the FP32 mean of the decoded keys, rounded to FP16 (R19). -/
def centroidOf (c : Nat) (keys : List Bytes) (d : Nat) : BitVec 16 :=
  let s := sumFree (128 * c + d) (keys.map fun k => blockVal 6 (k.getD (64 + d / 32) 0).toNat (rowCode 6 k d))
  BitVec.ofNat 16 (fp16.narrow (ofF32 (f32Div c d s (toF32 (Val.ofNat keys.length))))).1

/-- A leaf page from 68-byte key and value rows (Tables 2.1, 2.2; R17 to R20); `SAT_COUNT` is what saturated as its rows were encoded. -/
def leafPage (c : Nat) (tail : Bool) (space layer head index first gen tag : Nat) (rows : List KvRow) : Bytes :=
  let n := rows.length
  let pad := 128 - n
  let body := natLe 2 1 ++ natLe 2 (b2n tail + 2 * b2n (decide (n < 128))) ++ natLe 4 space ++ natLe 2 layer ++ natLe 1 head ++
    natLe 1 n ++ natLe 2 (index % 2 ^ 15) ++ zeros 2 ++ natLe 4 first ++ natLe 4 gen ++ natLe 8 tag ++
    natLe 2 (Nat.min 32768 (rows.map (·.sats)).sum) ++ zeros 30 ++
    ((List.range 128).map fun d => natLe 2 (centroidOf c (rows.map (·.key)) d).toNat).flatten ++
    (rows.map fun r => slice r.key 64 4).flatten ++ zeros (4 * pad) ++ (rows.map fun r => slice r.value 64 4).flatten ++ zeros (4 * pad) ++
    (rows.map fun r => slice r.key 0 64).flatten ++ zeros (64 * pad) ++ (rows.map fun r => slice r.value 0 64).flatten ++ zeros (64 * pad) ++
    zeros 696
  body ++ crcBytes body

/-- The checks of R21 on a page read from a caddy: check word, format and address. -/
def leafOk (pg : Bytes) (space layer head index : Nat) : Bool :=
  pg.length == 18432 && crcBytes (pg.take 18424) == slice pg 18424 8 && field pg 0 2 == 1 && field pg 4 4 == space &&
  field pg 8 2 == layer && field pg 0x0A 1 == head && field pg 0x0C 2 == index

/-- A centroid page of up to 71 centroids (R24). -/
def centroidPage (space first gen : Nat) (cs : List (List (BitVec 16))) : Bytes :=
  let body := natLe 2 3 ++ zeros 2 ++ natLe 4 space ++ natLe 4 first ++ natLe 2 cs.length ++ zeros 2 ++ natLe 4 gen ++ zeros 44 ++
    (cs.map fun v => (v.map fun x => natLe 2 x.toNat).flatten).flatten ++ zeros (256 * (71 - cs.length)) ++ zeros 184
  body ++ crcBytes body

/-- The checks of R24 on a centroid page. -/
def centroidOk (pg : Bytes) (space first : Nat) : Bool :=
  pg.length == 18432 && crcBytes (pg.take 18424) == slice pg 18424 8 && field pg 4 4 == space && field pg 8 4 == first

-- Ordered choice (R28, R97, Table 7.9)

/-- `a` orders before `b` from the top: larger first, NaN below every number (R168). -/
def above (a b : BitVec 32) : Bool :=
  match ofF32 a, ofF32 b with
  | .nan, _ => false
  | _, .nan => true
  | x, y => y.lt x
/-- Inserts after every element that is not below it. -/
def insertTop (x : BitVec 32 × Nat) : List (BitVec 32 × Nat) → List (BitVec 32 × Nat)
  | [] => [x]
  | y :: l => if above x.1 y.1 then x :: y :: l else y :: insertTop x l
/-- The `k` largest with their indices, largest first, ties to the lower index. -/
def topK (k : Nat) (xs : List (BitVec 32)) : List (BitVec 32 × Nat) :=
  xs.zipIdx.foldl (fun l x => (insertTop x l).take k) []

/-- The score of a centroid against a query group: the largest FP32 dot product (R27). -/
def leafScore (c : Nat) (queries : List (List (BitVec 16))) (centroid : List (BitVec 16)) : BitVec 32 :=
  let cent := centroid.map fun x => bf16.decode (bf16.narrow (fp16.decode x.toNat)).1
  let dots := queries.zipIdx.map fun (q, i) =>
    sumFree (c + i) ((q.zip cent).map fun (a, b) => ((bf16.decode a.toNat).mul? b).getD .nan)
  ((topK 1 dots).map (·.1)).headD 0xFF800000

/-- Selection of R28 over the leaves of a sequence in order, given each leaf's centroid: the positions chosen. -/
def selectLeaves (c b r k : Nat) (queries : List (List (BitVec 16))) (seq : List (List (BitVec 16))) : List Nat :=
  let n := seq.length
  let sink := List.range (Nat.min k n)
  let rest := (List.range n).filter fun i => !sink.contains i
  let recent := rest.filter fun i => decide (n ≤ i + r)
  let cand := rest.filter fun i => !recent.contains i
  let chosen := if cand.length ≤ b then cand else
    let top := topK b (cand.map fun i => leafScore (c + i * 4096) queries (seq.getD i []))
    top.map fun t => cand.getD t.2 0
  sink ++ recent ++ chosen

-- Partials (R38 to R42)

/-- A running partial: maximum, sum, output sum, tokens, whether a lost leaf was left out. -/
structure Partial where
  m : BitVec 32 := 0xFF800000
  s : BitVec 32 := 0
  acc : List (BitVec 32) := []
  tokens : Nat := 0
  lost : Bool := false
deriving DecidableEq, Repr, Inhabited

/-- A merged or finished partial: λ, output, flags (R40, R42). -/
structure Merged where
  empty : Bool := true
  lost : Bool := false
  final : Bool := false
  tokens : Nat := 0
  lam : BitVec 32 := 0
  o : List (BitVec 32) := []
deriving DecidableEq, Repr, Inhabited

/-- A BF16 query narrowed once to E4M3 with an E8 scale per 32 dimensions, as exact values, with its saturations (R38, R195, R201). -/
def narrowQuery (q : List (BitVec 16)) : List Val × List Sat :=
  let r := narrowRow 3 true (q.map fun x => bf16.decode x.toNat)
  (rowVals 3 true r.1 q.length, r.2)

/-- One leaf's keys, then its values, attended by one query (R38): scores scaled by `scale`, the running maximum and sum
updated in FP32, probabilities streamed in E4M3 with E8 scales, the output rescaled and added. -/
def attendLeaf (c : Nat) (q : List Val) (scale : BitVec 32) (p : Partial) (pg : Bytes) : Partial :=
  let n := leafTokens pg
  if n = 0 then p else
  let scores := (List.range n).map fun t =>
    f32Mul c t (sumFree (256 * c + t) ((q.zipIdx).map fun (x, d) => (x.mul? (leafKey pg t d)).getD .nan)) scale
  let m := scores.foldl (f32Max c 300) p.m
  let rho := f32Exp c 301 (f32Sub c 302 p.m m)
  let probs := scores.zipIdx.map fun (x, t) => f32Exp c (400 + t) (f32Sub c (600 + t) x m)
  let s := sumFree (256 * c + 200) (ofF32 (f32Mul c 303 p.s rho) :: probs.map ofF32)
  let pv := rowVals 3 true (narrowRow 3 true (probs.map ofF32)).1 n
  let acc := (List.range 128).map fun d =>
    let y := sumFree (256 * c + 300 + d) (pv.zipIdx.map fun (x, t) => (x.mul? (leafValue pg t d)).getD .nan)
    f32Fma c (800 + d) (p.acc.getD d 0) rho y
  { p with m := m, s := s, acc := acc, tokens := p.tokens + n }

/-- A running partial in log-sum-exp form (R38). -/
def Partial.finish (c : Nat) (p : Partial) (final : Bool) : Merged :=
  if p.tokens = 0 then { lost := p.lost, final := final } else
  { empty := false, lost := p.lost, final := final, tokens := p.tokens, lam := f32Add c 0 p.m (f32Ln c 1 p.s)
    o := p.acc.zipIdx.map fun (a, d) => f32Div c (2 + d) a p.s }

/-- The largest of some magnitudes. -/
def largest (vs : List Val) : Val := vs.foldl (fun a v => if a.lt v.abs then v.abs else a) (.fin false 0 0)
/-- A sum without rounding. -/
def sumExact (vs : List Val) : Val := vs.foldl Val.plus (.fin false 0 0)

/-- R207: the exact attention λ*, o* of one query over the tokens of some pages, each with the bound within which an FP32 partial lies. -/
def exactPartial (q : List Val) (scale : BitVec 32) (pages : List Bytes) : (Val × Val) × List (Val × Val) :=
  let toks := (pages.map fun pg => (List.range (leafTokens pg)).map fun t => (pg, t)).flatten
  let sc := ofF32 scale
  let t := toks.length
  let terms := toks.map fun k => q.zipIdx.map fun (x, d) => x.times (leafKey k.1 k.2 d)
  let scores := terms.map fun l => (sumExact l).times sc
  let m := scores.foldl (fun a x => if a.lt x then x else a) (scores.headD .nan)
  let es := scores.map fun x => (x.plus m.neg).exp
  let sum := sumExact es
  let lam := m.plus sum.ln
  let delta := (((largest (terms.map fun l => sumExact (l.map Val.abs))).times sc.abs).scaleBy (-17)).plus ((largest scores).scaleBy (-23))
  let twice := delta.scaleBy 1
  let slack := fun n : Nat => (Val.ofNat (t + n)).scaleBy (-24)
  let part := (((Val.fin false 1 (-4)).plus (.fin false 1 (-12))).plus ((twice.exp.plus (Val.ofInt (-1))).scaleBy 1)).plus (slack 140)
  ((lam, (twice.plus (slack 12)).plus (lam.abs.scaleBy (-22))), (List.range 128).map fun d =>
    let vs := toks.map fun k => leafValue k.1 k.2 d
    (((sumExact ((es.zip vs).map fun (e, v) => e.times v)).div? sum).getD .nan, part.times (largest vs)))

/-- A partial kept within the bounds of R207 of the exact attention; a value that leaves its bound is the exact one rounded. -/
def Merged.bounded (p : Merged) (q : List Val) (scale : BitVec 32) (pages : List Bytes) : Merged :=
  let x := exactPartial q scale pages
  let keep := fun (b : Val × Val) (w : BitVec 32) => if b.1.isNan then w else boundedBy b.1 b.2 w
  if p.empty then p else { p with lam := keep x.1 p.lam, o := (x.2.zip p.o).map fun (b, w) => keep b w }

/-- Merge of partials of one cup, query head and layer in FP32, additions in free order (R42, R204). -/
def mergePartials (c : Nat) (ps : List Merged) : Merged :=
  let live := ps.filter fun p => !p.empty
  let lost := ps.any (·.lost)
  let tokens := (ps.map (·.tokens)).sum
  if live.isEmpty then { lost := lost, tokens := tokens } else
  let top := (live.map (·.lam)).foldl (f32Max c 0) 0xFF800000
  let ws := live.zipIdx.map fun (p, i) => f32Exp c (1 + 2 * i) (f32Sub c (2 + 2 * i) p.lam top)
  let sum := sumFree (512 * c + 1) (ws.map ofF32)
  { empty := false, lost := lost, final := false, tokens := tokens, lam := f32Add c 5000 top (f32Ln c 5001 sum)
    o := (List.range 128).map fun d =>
      let y := sumFree (512 * c + 100 + d) ((live.zip ws).zipIdx.map fun ((p, w), i) => ofF32 (f32Mul c (6000 + 200 * i + d) w (p.o.getD d 0)))
      f32Div c (5100 + d) y sum }

/-- λ as four E4M3 terms and their scale (R41). -/
def encodeLam (lam : BitVec 32) : Nat × List Nat :=
  let v := ofF32 lam
  let e := blockScale 3 [v]
  let step := fun (a : List Nat × Val) (_ : Nat) =>
    let t := (narrowElem 3 a.2).1
    (a.1 ++ [t], ((a.2.add? (e4m3.decode t).neg).getD .nan))
  (e, ((List.range 4).foldl step ([], v.scale (127 - (e : Int)))).1)

/-- A partial record (R40, Table 2.6); what an `EMPTY` record holds beside its flags is free. -/
def partialRecord (c layer cup head : Nat) (p : Merged) : Bytes :=
  let flags := b2n p.empty + 2 * b2n p.final + 4 * b2n p.lost
  let free := fun i n => natLe n (Config.freeWord c i).toNat
  let head8 := natLe 2 layer ++ natLe 1 cup ++ natLe 1 head ++ natLe 1 flags
  if p.empty then
    head8 ++ free 0 1 ++ zeros 2 ++ natLe 4 p.tokens ++ free 1 4 ++ free 2 4 ++ zeros 12 ++ ((List.range 16).map fun i => free (3 + i) 8).flatten
  else
    let lam := encodeLam p.lam
    let o := (narrowRow 3 true (p.o.map ofF32)).1
    head8 ++ natLe 1 lam.1 ++ zeros 2 ++ natLe 4 p.tokens ++ (lam.2.map fun t => natLe 1 t).flatten ++ slice o 128 4 ++ zeros 12 ++ slice o 0 128

/-- A partial from a record: λ is the FP32 sum of its terms times the scale (R41), o exact. -/
def recordPartial (c : Nat) (r : Bytes) : Merged :=
  let flags := field r 4 1
  let terms := (List.range 4).map fun i => blockVal 3 (field r 5 1) (field r (0x0C + i) 1)
  { empty := bit flags 0, final := bit flags 1, lost := bit flags 2, tokens := field r 8 4, lam := sumFree c terms
    o := (List.range 128).map fun d => toF32 (blockVal 3 (field r (0x10 + d / 32) 1) (field r (0x20 + d) 1)) }

/-- A partial state in core store, 528 bytes (R167). -/
def stateBytes (layer cup head : Nat) (p : Merged) : Bytes :=
  natLe 2 layer ++ natLe 1 cup ++ natLe 1 head ++ natLe 1 (b2n p.empty + 2 * b2n p.final + 4 * b2n p.lost) ++ zeros 3 ++
  natLe 4 p.tokens ++ natLe 4 p.lam.toNat ++ ((List.range 128).map fun d => natLe 4 (p.o.getD d 0).toNat).flatten
def statePartial (r : Bytes) : Merged :=
  let flags := field r 4 1
  { empty := bit flags 0, final := bit flags 1, lost := bit flags 2, tokens := field r 8 4, lam := BitVec.ofNat 32 (field r 12 4)
    o := (List.range 128).map fun d => BitVec.ofNat 32 (field r (16 + 4 * d) 4) }

/-- Takes elements out of a list in free order (R204). -/
def freeOrder (c : Nat) : Nat → List α → List α
  | 0, _ => []
  | n + 1, xs =>
    let i := Config.pick c n xs.length
    match xs[i]? with
    | none => []
    | some x => x :: freeOrder c n (xs.eraseIdx i)

/-- Attention of one BF16 query over leaf pages: the leaves are divided freely among cores, each core attends its own in a
free order within the bounds of R207, and the partials merge (R38, R39, R204); `whole` tells that they cover the whole sequence (R40). -/
def attendAll (c cores : Nat) (q : List (BitVec 16)) (scale : BitVec 32) (pages : List Bytes) (lost whole : Bool) : Merged :=
  let qv := (narrowQuery q).1
  let tagged := pages.zipIdx.map fun (pg, i) => (Config.pick c (70000 + i) cores, pg)
  let parts := (List.range cores).map fun k =>
    let mine := freeOrder (c + 1 + k) (tagged.filter (·.1 == k)).length ((tagged.filter (·.1 == k)).map (·.2))
    ((mine.zipIdx).foldl (fun p (pg, i) => attendLeaf (c + 100 + 70000 * k + i) qv scale p pg) ({} : Partial)).finish (c + 60 + k) false |>.bounded qv scale mine
  { mergePartials (c + 55) parts with final := whole, lost := lost }

-- Sampling (R74 to R77)

/-- uniform(seed, pos) × 2^24 (R76). -/
def uniform24 (seed pos : Nat) : Nat :=
  let z : BitVec 64 := BitVec.ofNat 64 (seed + (pos + 1) * 0x9E3779B97F4A7C15)
  let z := (z ^^^ (z >>> 30)) * 0xBF58476D1CE4E5B9
  let z := (z ^^^ (z >>> 27)) * 0x94D049BB133111EB
  let z := z ^^^ (z >>> 31)
  (z >>> 40).toNat

/-- A Table 10.5 option with its default at zero (R243). -/
def optF32 (b : Bytes) (off : Nat) : BitVec 32 := let v := field b off 4; if v = 0 then 0x3F800000 else BitVec.ofNat 32 v

/-- Probabilities of scaled logits over the whole vocabulary, in FP32; repeatable for equal logits (R75, R204). -/
def softmax32 (a : List (BitVec 32)) : List (BitVec 32) :=
  let m := ((topK 1 a).map (·.1)).headD 0
  let e := a.zipIdx.map fun (x, i) => f32Exp 0 (2 * i) (f32Sub 0 (2 * i + 1) x m)
  let r := f32Rcp 0 0 (sumFree 0 (e.map ofF32))
  e.zipIdx.map fun (x, i) => f32Mul 0 i x r

/-- Candidates until the FP32 running sum reaches `p`; always at least one (R75). -/
def topPrefix (p : BitVec 32) : BitVec 32 → List (BitVec 32 × Nat) → List (BitVec 32 × Nat)
  | _, [] => []
  | sum, x :: l => let s := f32Add 0 0 sum x.1; if (ofF32 p).le (ofF32 s) then [x] else x :: topPrefix p s l
/-- The first candidate at which the running sum exceeds `u`, else the last (R75). -/
def walk (u : BitVec 32) : BitVec 32 → List (BitVec 32 × Nat) → Nat
  | _, [] => 0
  | _, [x] => x.2
  | sum, x :: l => let s := f32Add 0 0 sum x.1; if (ofF32 u).lt (ofF32 s) then x.2 else walk u s l

/-- What R75 returns: the token, and every token's probability after penalty and temperature. -/
def sampleToken (logits : List (BitVec 32)) (blk : Bytes) (seed pos : Nat) (tail : List Nat) : Nat × List (BitVec 32) :=
  let rho := optF32 blk 0x10
  let win := (tail.drop (tail.length - field blk 0x06 2)).eraseDups
  let z := logits.zipIdx.map fun (x, t) =>
    if win.contains t then (if (Val.ofNat 0).lt (ofF32 x) then f32Div 0 t x rho else f32Mul 0 t x rho) else x
  let greedy := bit (field blk 0x16 2) 0
  let tau := optF32 blk 0
  let prob := softmax32 (if greedy then z else z.zipIdx.map fun (x, i) => f32Div 0 i x tau)
  if greedy then (((topK 1 z).map (·.2)).headD 0, prob) else
  let k := let k := field blk 4 2; if k = 0 then 1024 else k
  let cand := topPrefix (optF32 blk 8) 0 (topK k prob)
  let first := (cand.map (·.1)).headD 0
  let cut := f32Mul 0 1 (BitVec.ofNat 32 (field blk 0x0C 4)) first
  let cand := cand.filter fun x => (ofF32 cut).le (ofF32 x.1)
  let total := cand.foldl (fun s x => f32Add 0 0 s x.1) 0
  let u := f32Mul 0 2 (toF32 (.fin false (uniform24 seed pos) (-24))) total
  (walk u 0 cand, prob)

/-- A token record of Table 3.7. -/
def tokenRecord (tok : Nat) (prob : List (BitVec 32)) (alts : Nat) : Bytes :=
  natLe 4 tok ++ natLe 4 (f32Ln 0 0 (prob.getD tok 0)).toNat ++
  ((topK alts prob).map fun a => natLe 4 a.2 ++ natLe 4 (f32Ln 0 0 a.1).toNat).flatten ++
  ((List.range (alts - prob.length)).map fun i => natLe 8 (Config.freeWord 0 i).toNat).flatten

end Sys2Proof.Machine
end

