-- ==== Sys2Proof/Machine/Predicate.lean ====
section
/-! DEFINITION. Column values, predicates and their evaluation (R81, R83 to R87, R90, R245). -/

namespace Sys2Proof.Machine

-- UTF-8 (R81, R85)

/-- One Unicode scalar value at the head of a byte string, and how many bytes it takes. -/
def utf8Head (bs : Bytes) : Option (Nat × Nat) :=
  let b := fun i => (bs.getD i 0).toNat
  let tail := fun n => decide (n ≤ bs.length) && (List.range (n - 1)).all fun i => b (i + 1) / 64 == 2
  let b0 := b 0
  if b0 < 0x80 then some (b0, 1)
  else if 0xC2 ≤ b0 ∧ b0 < 0xE0 ∧ tail 2 then some (b0 % 32 * 64 + b 1 % 64, 2)
  else if 0xE0 ≤ b0 ∧ b0 < 0xF0 ∧ tail 3 then
    let v := (b0 % 16 * 64 + b 1 % 64) * 64 + b 2 % 64
    if 0x800 ≤ v ∧ ¬(0xD800 ≤ v ∧ v < 0xE000) then some (v, 3) else none
  else if 0xF0 ≤ b0 ∧ b0 < 0xF5 ∧ tail 4 then
    let v := ((b0 % 8 * 64 + b 1 % 64) * 64 + b 2 % 64) * 64 + b 3 % 64
    if 0x10000 ≤ v ∧ v < 0x110000 then some (v, 4) else none
  else none

/-- The scalar values of a UTF-8 string; none when it is not valid. The first argument bounds the steps. -/
def utf8Go : Nat → Bytes → Option (List Nat)
  | _, [] => some []
  | 0, _ => none
  | n + 1, bs => (utf8Head bs).bind fun (v, k) => (utf8Go n (bs.drop k)).map (v :: ·)
def utf8 (bs : Bytes) : Option (List Nat) := utf8Go bs.length bs

/-- Splits a list at a separator: always at least one part. -/
def splitAt' [BEq α] (sep : α) : List α → List (List α)
  | [] => [[]]
  | x :: xs =>
    if x == sep then [] :: splitAt' sep xs
    else match splitAt' sep xs with
      | [] => [[x]]
      | p :: ps => (x :: p) :: ps
/-- The components of a path: split at `/`. -/
def components (bs : Bytes) : List Bytes := splitAt' 0x2F bs

-- Columns (Table 4.1)

/-- Bytes of a fixed-width type; none for `STRING`, `PATH` and `TAGS`. -/
def colWidth : Nat → Option Nat
  | 0x01 | 0x02 | 0x05 => some 4
  | 0x03 | 0x04 | 0x06 => some 8
  | 0x07 => some 1
  | 0x08 => some 2
  | _ => none
def isNumeric (ty : Nat) : Bool := decide (1 ≤ ty) && decide (ty ≤ 6)
def isString (ty : Nat) : Bool := ty == 0x09 || ty == 0x0A
/-- The codes of a `TAGS` value: a count byte, then its codes (R82). -/
def tagCodes (v : Bytes) : List Nat := (List.range (field v 0 1)).map fun i => field v (1 + 2 * i) 2

/-- The status that a value earns its appending item: none where it obeys R81, given the size of its dictionary. -/
def valueFail (ty dict : Nat) (v : Bytes) : Option Nat :=
  if isString ty then
    if 1024 < v.length ∨ (ty = 0x0A ∧ v.length = 0) then some 0x12
    else if (utf8 v).isNone then some 0x10
    else if ty = 0x0A ∧ (components v).any (·.isEmpty) then some 0x10
    else none
  else if ty = 0x0B then
    if 32 < field v 0 1 then some 0x12
    else if v.length ≠ 1 + 2 * field v 0 1 then some 0x10
    else if (tagCodes v).all (· < dict) then none else some 0x10
  else if ty = 0x07 then (if field v 0 1 < 2 then none else some 0x10)
  else if ty = 0x08 then (if field v 0 2 < dict then none else some 0x10)
  else none

/-- A row of R90 without its handle: the value of each column from byte `off` on, and where the row ends. -/
def rowGo : List (Nat × Nat) → Nat → Bytes → Nat → Option (List (Option Bytes) × Nat)
  | [], _, _, off => some ([], off)
  | (ty, i) :: cols, mask, bs, off =>
    if bit mask i then (rowGo cols mask bs off).map fun r => (none :: r.1, r.2)
    else
      let (start, n) := match colWidth ty with
        | some w => (off, w)
        | none => (off + 2, field bs off 2)
      if bs.length < start + n then none
      else (rowGo cols mask bs (start + n)).map fun r => (some (slice bs start n) :: r.1, r.2)
/-- The values of a row: null mask, then the columns in order. A mask bit that names no column is a reserved encoding (R8). -/
def rowValues (types : List Nat) (bs : Bytes) : Option (List (Option Bytes) × Nat) :=
  if bs.length < 8 ∨ 2 ^ types.length ≤ field bs 0 8 then none else rowGo types.zipIdx (field bs 0 8) bs 8

/-- `n` rounded up to a multiple of 8. -/
def pad8 (n : Nat) : Nat := ceilDiv n 8 * 8

/-- A row as written (R90): handle, null mask, selected non-null columns, padding to 8. -/
def rowOut (handle : Nat) (types : List Nat) (select : Nat) (values : List (Option Bytes)) : Bytes :=
  let nulls := ((values.zipIdx.filter fun v => v.1.isNone).map fun v => 2 ^ v.2).sum
  let cols := ((types.zip values).zipIdx.map fun ((ty, v), i) => match v with
    | some b => if bit select i then (if (colWidth ty).isSome then b else natLe 2 b.length ++ b) else []
    | none => []).flatten
  let body := natLe 8 handle ++ natLe 8 nulls ++ cols
  body ++ zeros (pad8 body.length - body.length)

-- Comparison (R84)

/-- The sign of a two's-complement or unsigned stored value. -/
def storedInt (ty : Nat) (v : Bytes) : Int :=
  let n := leNat v
  let w := 8 * v.length
  if (ty = 0x02 ∨ ty = 0x04 ∨ ty = 0x06) ∧ 2 ^ (w - 1) ≤ n then (n : Int) - 2 ^ w else n

/-- Byte by byte; a proper prefix sorts first. -/
def cmpBytes : Bytes → Bytes → Ordering
  | [], [] => .eq
  | [], _ => .lt
  | _, [] => .gt
  | a :: as, b :: bs => if a < b then .lt else if b < a then .gt else cmpBytes as bs

/-- How a value compares with a constant of its column's type; none for an `F32` NaN. -/
def cmpVal (ty : Nat) (a b : Bytes) : Option Ordering :=
  if isString ty then some (cmpBytes a b)
  else if ty = 0x05 then
    let x := ofF32 (BitVec.ofNat 32 (leNat a))
    let y := ofF32 (BitVec.ofNat 32 (leNat b))
    if x = .nan ∨ y = .nan then none else if x.lt y then some .lt else if y.lt x then some .gt else some .eq
  else some (compare (storedInt ty a) (storedInt ty b))

-- GLOB (R85)

/-- One element of a component pattern. -/
inductive GTok where
  | star
  | any
  | lit (c : Nat)
  | set (neg : Bool) (ranges : List (Nat × Nat))
deriving DecidableEq, Repr

/-- The ranges of a set up to its `]`, and what follows; none when it does not close or a `\` ends it. -/
def gset : Nat → List Nat → Option (List (Nat × Nat) × List Nat)
  | 0, _ => none
  | _ + 1, [] => none
  | n + 1, c :: cs =>
    if c = 0x5D then some ([], cs) else
    (if c = 0x5C then (match cs with | d :: r => some (d, r) | [] => none) else some (c, cs)).bind fun (lo, rest) =>
      match rest with
      | 0x2D :: h :: r =>
        if h = 0x5D then (gset n rest).map fun x => ((lo, lo) :: x.1, x.2)
        else (if h = 0x5C then (match r with | d :: r' => some (d, r') | [] => none) else some (h, r)).bind fun (hi, r') =>
          (gset n r').map fun x => ((lo, hi) :: x.1, x.2)
      | _ => (gset n rest).map fun x => ((lo, lo) :: x.1, x.2)

/-- The tokens of a component pattern; none when it is malformed (an open or empty set, a `\` at its end). -/
def gtoks : Nat → List Nat → Option (List GTok)
  | _, [] => some []
  | 0, _ => none
  | n + 1, c :: cs =>
    if c = 0x2A then (gtoks n cs).map (.star :: ·)
    else if c = 0x3F then (gtoks n cs).map (.any :: ·)
    else if c = 0x5C then match cs with
      | d :: r => (gtoks n r).map (.lit d :: ·)
      | [] => none
    else if c = 0x5B then
      let neg := cs.head? == some 0x21
      match gset (cs.length + 1) (if neg then cs.drop 1 else cs) with
      | some (rs, rest) => if rs.isEmpty then none else (gtoks n rest).map (.set neg rs :: ·)
      | none => none
    else (gtoks n cs).map (.lit c :: ·)

/-- Every tail of a list, the list itself first. -/
def tailsOf : List α → List (List α)
  | [] => [[]]
  | x :: xs => (x :: xs) :: tailsOf xs

/-- A component matches its pattern. -/
def gmatch : List GTok → List Nat → Bool
  | [], cs => cs.isEmpty
  | .star :: ts, cs => (tailsOf cs).any fun t => gmatch ts t
  | .any :: ts, cs => match cs with | _ :: r => gmatch ts r | [] => false
  | .lit c :: ts, cs => match cs with | d :: r => c == d && gmatch ts r | [] => false
  | .set neg rs :: ts, cs => match cs with
    | d :: r => ((rs.any fun x => decide (x.1 ≤ d) && decide (d ≤ x.2)) != neg) && gmatch ts r
    | [] => false

/-- A path matches component patterns; none is `**`. -/
def pmatch : List (Option (List GTok)) → List (List Nat) → Bool
  | [], vs => vs.isEmpty
  | none :: ps, vs => (tailsOf vs).any fun t => pmatch ps t
  | some ts :: ps, vs => match vs with | v :: r => gmatch ts v && pmatch ps r | [] => false

/-- The component patterns of a `GLOB` pattern; none when it breaks R85. -/
def globOf (pat : Bytes) : Option (List (Option (List GTok))) :=
  if 256 < pat.length then none else
  (utf8 pat).bind fun cs =>
    let comps := splitAt' 0x2F cs
    if comps.any (·.isEmpty) then none else
    let ps := comps.map fun c => if c = [0x2A, 0x2A] then some none else (gtoks (c.length + 1) c).map some
    if 4 < (ps.filter (· == some none)).length then none else ps.foldr (fun p l => p.bind fun p => l.map (p :: ·)) (some [])
/-- A `PATH` value matches a pattern. -/
def globMatch (pat v : Bytes) : Bool :=
  match globOf pat with
  | some ps => pmatch ps ((components v).map fun c => (utf8 c).getD [])
  | none => false

-- Predicates (R83, Tables 4.3 and 4.4)

/-- A predicate node. -/
structure PNode where
  op : Nat
  col : Nat
  flags : Nat
  rsv : Nat
  len : Nat
  arg : Nat
deriving DecidableEq, Repr

def pnode (b : Bytes) : PNode :=
  { op := field b 0 1, col := field b 1 1, flags := field b 2 1, rsv := field b 3 1, len := field b 4 4, arg := field b 8 8 }
/-- The bytes a predicate block takes, from its 8-byte header (R245). -/
def predLen (hd : Bytes) : Nat := 8 + 16 * field hd 0 1 + field hd 2 2
def predNodes (blk : Bytes) : List PNode := (List.range (field blk 0 1)).map fun i => pnode (slice blk (8 + 16 * i) 16)
def predArea (blk : Bytes) : Bytes := slice blk (8 + 16 * field blk 0 1) (field blk 2 2)

/-- The constant of a type at an offset of the constant area, and where it ends. -/
def constAt (ty : Nat) (area : Bytes) (off : Nat) : Option (Bytes × Nat) :=
  let (start, n) := match colWidth ty with
    | some w => (off, w)
    | none => (off + 2, field area off 2)
  if area.length < start + n then none else some (slice area start n, start + n)
/-- `n` constants one after another. -/
def constsAt (ty : Nat) (area : Bytes) : Nat → Nat → Option (List Bytes × Nat)
  | 0, off => some ([], off)
  | n + 1, off => (constAt ty area off).bind fun (c, o) => (constsAt ty area n o).map fun r => (c :: r.1, r.2)
/-- Ascending without duplicates. -/
def ascending (ty : Nat) : List Bytes → Bool
  | a :: b :: l => cmpVal ty a b == some .lt && ascending ty (b :: l)
  | _ => true

/-- The constants a node names for a column type, none where the node breaks R83; of an `ARG` that is an offset, bits [63:16], of which no
rule speaks, are ignored (DESIGN CHOICE, assumption log 53). -/
def PNode.consts (n : PNode) (ty : Nat) (area : Bytes) : Option (List Bytes) :=
  let off := n.arg % 65536
  let exact := fun (r : Option (List Bytes × Nat)) => (r.filter fun x => x.2 == off + n.len).map (·.1)
  let one := fun (ty : Nat) =>
    if n.len = 0 then (match colWidth ty with | some w => if n.arg < 256 ^ w then some [natLe w n.arg] else none | none => none)
    else exact (constsAt ty area 1 off)
  let set := fun (ty : Nat) =>
    let k := field area off 2
    if n.len = 0 ∨ area.length < off + 2 ∨ k = 0 ∨ 1024 < k then none else exact (constsAt ty area k (off + 2))
  if n.op ≤ 0x06 then one ty
  else match n.op with
    | 0x07 => if n.len = 0 then none else exact (constsAt ty area 2 off)
    | 0x08 => (set ty).filter (ascending ty)
    | 0x09 => one ty
    | 0x0A => (one ty).filter fun c => (globOf (c.headD [])).isSome
    | 0x0C => one 0x08
    | 0x0D => set 0x08
    | _ => if n.len = 0 then some [] else none

/-- An operation applies to a column type (Table 4.1). -/
def opApplies (op ty : Nat) : Bool :=
  match op with
  | 0x01 | 0x02 => isNumeric ty || isString ty || ty == 0x07 || ty == 0x08
  | 0x03 | 0x04 | 0x05 | 0x06 | 0x07 => isNumeric ty || isString ty
  | 0x08 => isNumeric ty || isString ty || ty == 0x08
  | 0x09 => isString ty
  | 0x0A => ty == 0x0A
  | 0x0B => true
  | 0x0C | 0x0D => ty == 0x0B
  | _ => false
def PNode.leaf (n : PNode) : Bool := decide (1 ≤ n.op) && decide (n.op ≤ 0x0D)

/-- A node obeys R83 and Table 4.3. -/
def PNode.ok (n : PNode) (types : List Nat) (area : Bytes) : Bool :=
  decide (n.flags < 2) && n.rsv == 0 &&
  (if n.leaf then match types[n.col]? with
    | some ty => opApplies n.op ty && (n.consts ty area).isSome
    | none => false
  else (n.op == 0x20 || n.op == 0x21 || n.op == 0x22 || n.op == 0x23) && n.col == 0 && n.len == 0)

/-- The stack depth after the nodes; none when it falls below what a node pops or passes 16. -/
def depthGo : List PNode → Nat → Option Nat
  | [], d => some d
  | n :: ns, d =>
    let d' := if n.op = 0x20 ∨ n.op = 0x21 then (if 2 ≤ d then some (d - 1) else none)
      else if n.op = 0x22 then (if 1 ≤ d then some d else none)
      else if d < 16 then some (d + 1) else none
    d'.bind (depthGo ns)

/-- A predicate block is well formed for a schema (R83). -/
def predOk (types : List Nat) (blk : Bytes) : Bool :=
  let k := field blk 0 1
  decide (1 ≤ k) && decide (k ≤ 64) && decide (field blk 2 2 ≤ 4096) && field blk 1 1 == 0 && field blk 4 4 == 0 &&
  ((predNodes blk).all fun n => n.ok types (predArea blk)) && depthGo (predNodes blk) 0 == some 1

/-- What a leaf operation yields on a non-null value (Table 4.4, R84). -/
def leafTrue (op ty : Nat) (cs : List Bytes) (v : Bytes) : Bool :=
  let c := cs.headD []
  let r := cmpVal ty v c
  match op with
  | 0x01 => r == some .eq
  | 0x02 => r != some .eq
  | 0x03 => r == some .lt
  | 0x04 => r == some .lt || r == some .eq
  | 0x05 => r == some .gt
  | 0x06 => r == some .gt || r == some .eq
  | 0x07 => (r == some .gt || r == some .eq) && cmpVal ty v (cs.getD 1 []) == some .lt
  | 0x08 => cs.any fun k => cmpVal ty v k == some .eq
  | 0x09 => if ty = 0x0A then c.isEmpty || (components c).isPrefixOf (components v) else c.isPrefixOf v
  | 0x0A => globMatch c v
  | 0x0C => (tagCodes v).contains (leNat c)
  | 0x0D => cs.any fun k => (tagCodes v).contains (leNat k)
  | _ => false
/-- A leaf on a value that may be null (R84). -/
def PNode.eval (n : PNode) (ty : Nat) (area : Bytes) (v : Option Bytes) : Bool :=
  match v with
  | none => n.op == 0x0B || bit n.flags 0
  | some b => leafTrue n.op ty ((n.consts ty area).getD []) b

/-- Three-valued conjunction and disjunction: none is a value not yet known. -/
def and3 : Option Bool → Option Bool → Option Bool
  | some false, _ => some false
  | _, some false => some false
  | some true, x => x
  | x, some true => x
  | none, none => none
def or3 (a b : Option Bool) : Option Bool := (and3 (a.map (!·)) (b.map (!·))).map (!·)

/-- Runs a predicate over a stack; `leaf` answers a leaf's value, none while its column is not present. -/
def predRun (leaf : PNode → Option Bool) : List PNode → List (Option Bool) → Option Bool
  | [], st => st.headD none
  | n :: ns, st =>
    if n.op = 0x20 then match st with
      | a :: b :: r => predRun leaf ns (and3 a b :: r)
      | _ => none
    else if n.op = 0x21 then match st with
      | a :: b :: r => predRun leaf ns (or3 a b :: r)
      | _ => none
    else if n.op = 0x22 then match st with
      | a :: r => predRun leaf ns (a.map (!·) :: r)
      | _ => none
    else if n.op = 0x23 then predRun leaf ns (some true :: st)
    else predRun leaf ns (leaf n :: st)

/-- A page's smallest and largest non-null values prove a leaf's result on every non-null value of it (R87). -/
def provenBetween (op ty : Nat) (cs : List Bytes) (lo hi : Bytes) : Bool :=
  let at_ := leafTrue op ty cs lo == leafTrue op ty cs hi
  let outside := fun c : Bytes => cmpVal ty c lo == some .lt || cmpVal ty c hi == some .gt
  if ty = 0x05 then false
  else if lo = hi then true
  else match op with
    | 0x01 | 0x02 | 0x08 => cs.all outside
    | 0x03 | 0x04 | 0x05 | 0x06 => at_
    | 0x07 => at_ && (leafTrue op ty cs lo || (cmpVal ty hi (cs.headD []) == some .lt || cmpVal ty lo (cs.getD 1 []) != some .lt))
    | 0x0B => true
    | _ => false

/-- What the header of a column page says of its records (Table 4.2): how many, how many null, the smallest and largest non-null value of a
numeric column, in the column's width. -/
structure ColHead where
  count : Nat
  nulls : Nat
  lo : Bytes
  hi : Bytes
deriving DecidableEq, Repr, Inhabited
/-- The header of a page of these values. -/
def colHead (ty : Nat) (vals : List (Option Bytes)) : ColHead :=
  let present := vals.filterMap id
  let best := fun (o : Ordering) => if isNumeric ty then present.foldl (fun a b => if cmpVal ty b a == some o then b else a) (present.headD []) else []
  { count := vals.length, nulls := vals.length - present.length, lo := best .lt, hi := best .gt }

/-- The header of a column page proves a leaf's value for every record of it (R87). -/
def PNode.proven (n : PNode) (ty : Nat) (area : Bytes) (h : ColHead) : Bool :=
  let nullResult := n.op == 0x0B || bit n.flags 0
  if h.nulls = h.count then true
  else if n.op = 0x0B then h.nulls == 0
  else if !isNumeric ty then false
  else
    let cs := (n.consts ty area).getD []
    provenBetween n.op ty cs h.lo h.hi && (h.nulls == 0 || nullResult == leafTrue n.op ty cs h.lo)

end Sys2Proof.Machine
end

