-- ==== Sys2Proof/Machine/Graph.lean ====
section
/-! DEFINITION. Collections, handles and the chunk graph: distances, beam search, insertion and mending (R80, R82, R91 to
R103). The codebook, the codes, and which candidates a prune keeps are named by the manual and not defined by it: free values
(assumption log 1). -/

namespace Sys2Proof.Machine

-- Records, chunks, handles (R80)

def Coll.rec? (c : Coll) (i : Nat) : Option Rec := c.recs.find? (·.idx == i)
def Coll.types (c : Coll) : List Nat := c.columns.map (·.type)
/-- The chunks of `t` tokens under a chunk size and overlap: the fewest that cover them; a short record forms one (Table 3.1, R80). -/
def chunksOf (cut : Nat × Nat) (t : Nat) : Nat := if t ≤ cut.1 then 1 else 1 + ceilDiv (t - cut.1) (cut.1 - cut.2)
/-- Chunk size and overlap of a record: the collection's, or those that the steep which brought it gave (R80, R241, Table 10.3). -/
def Coll.cut (c : Coll) (r : Rec) : Nat × Nat := if r.cut.1 = 0 then (c.chunk, c.overlap) else r.cut
def Coll.chunks (c : Coll) (r : Rec) : Nat := chunksOf (c.cut r) r.tokens.length
/-- The tokens of chunk `i` of a record. -/
def Coll.chunkTokens (c : Coll) (r : Rec) (i : Nat) : List Nat := (r.tokens.drop (i * ((c.cut r).1 - (c.cut r).2))).take (c.cut r).1

/-- The handle of a record, or of one of its chunks (R80). -/
def Rec.handle (r : Rec) (chunk : Option Nat) : Nat :=
  r.idx + (match chunk with | some i => 2 ^ 24 + i * 2 ^ 32 | none => 0) + r.gen * 2 ^ 48
/-- What a handle names; none when it is malformed or stale (R80). -/
def Coll.resolve (c : Coll) (h : Nat) : Option (Rec × Option Nat) :=
  let chunk := bits h 47 32
  if bits h 31 25 ≠ 0 ∨ (!bit h 24 ∧ chunk ≠ 0) then none else
  ((c.rec? (bits h 23 0)).filter fun r => r.st == .live && r.gen == bits h 63 48 && (!bit h 24 || decide (chunk < c.chunks r))).map
    fun r => (r, if bit h 24 then some chunk else none)
/-- The tokens that a handle names (R80). -/
def Coll.handleTokens (c : Coll) (h : Nat) : Option (List Nat) :=
  (c.resolve h).map fun (r, k) => match k with | some i => c.chunkTokens r i | none => r.tokens

-- List and vector pages (R91)

/-- Bytes of a neighbour list record. -/
def Coll.listSize (c : Coll) : Nat := pad8 (16 + 6 * c.degree)
/-- Lists and vectors to a page. -/
def Coll.listsPer (c : Coll) : Nat := 18360 / c.listSize
def Coll.vecsPer (c : Coll) : Nat := 18360 / (2 * c.dim)
def Coll.listPage (c : Coll) (slot : Nat) : Nat := slot / c.listsPer
def Coll.vecPage (c : Coll) (slot : Nat) : Nat := slot / c.vecsPer

-- Distances (R93)

/-- `a` is nearer than `b`: smaller first, NaN last, ties to the lower slot. -/
def nearer (a b : BitVec 32 × Nat) : Bool :=
  match ofF32 a.1, ofF32 b.1 with
  | .nan, .nan => decide (a.2 < b.2)
  | .nan, _ => false
  | _, .nan => true
  | x, y => x.lt y || (!y.lt x && decide (a.2 < b.2))
/-- Inserts in order of distance. -/
def insertNear (x : BitVec 32 × Nat) : List (BitVec 32 × Nat) → List (BitVec 32 × Nat)
  | [] => [x]
  | y :: l => if nearer x y then x :: y :: l else y :: insertNear x l
def sortNear (l : List (BitVec 32 × Nat)) : List (BitVec 32 × Nat) := l.foldl (fun a x => insertNear x a) []

/-- FP32 dot product or squared distance of two FP32 vectors: products and sums in FP32, sums in free order. -/
def f32Pair (c : Nat) (sq : Bool) (a b : List (BitVec 32)) : BitVec 32 :=
  sumFree c ((a.zip b).zipIdx.map fun ((x, y), i) =>
    if sq then let d := f32Sub c (3 * i) x y; ofF32 (f32Mul c (3 * i + 1) d d) else ofF32 (f32Mul c (3 * i + 2) x y))
/-- A vector normalised in FP32 (R93). -/
def f32Normal (c : Nat) (v : List (BitVec 32)) : List (BitVec 32) :=
  let n := f32Sqrt c 1 (f32Pair c false v v)
  v.zipIdx.map fun (x, i) => f32Div c (2 + i) x n
/-- The query as a search uses it. -/
def Coll.query (c : Coll) (cnt : Nat) (q : List (BitVec 32)) : List (BitVec 32) := if c.distance = 1 then f32Normal cnt q else q
/-- A vector as it is stored. -/
def Coll.stored (c : Coll) (cnt : Nat) (v : List (BitVec 32)) : List (BitVec 16) :=
  (c.query cnt v).map fun x => BitVec.ofNat 16 (bf16.narrow (ofF32 x)).1
def bfWide (v : List (BitVec 16)) : List (BitVec 32) := v.map fun x => toF32 (bf16.decode x.toNat)

/-- Ordering value and reported score of a product or squared distance (Table 4.7). -/
def Coll.order (c : Coll) (cnt : Nat) (x : BitVec 32) : BitVec 32 :=
  match c.distance with
  | 0 => x ^^^ 0x80000000
  | 1 => f32Sub cnt 0 0x3F800000 x
  | _ => x
/-- The ordering value of a query against a stored vector, and the score (R93). -/
def Coll.exact (c : Coll) (cnt : Nat) (q : List (BitVec 32)) (v : List (BitVec 16)) : BitVec 32 × BitVec 32 :=
  let x := f32Pair cnt (c.distance == 2) q (bfWide v)
  (c.order cnt x, x)
/-- The code distance: FP32 sum over the subspaces of their look-up tables (R93). -/
def Coll.codeDist (c : Coll) (cnt : Nat) (q : List (BitVec 32)) (s : Slot) : BitVec 32 :=
  let n := c.dim / c.codeBytes
  let tab := fun m : Nat =>
    let sub := (List.range n).map fun i =>
      toF32 (bf16.decode (Config.codebook (c.codebook.getD 0) m ((s.code.getD m 0).toNat) i).toNat)
    ofF32 (f32Pair (cnt + 1 + m) (c.distance == 2) ((q.drop (m * n)).take n) sub)
  c.order cnt (sumFree cnt ((List.range c.codeBytes).map tab))

-- Search (R96)

def Coll.slot? (c : Coll) (i : Nat) : Option Slot := c.slots.find? (·.idx == i)
def Coll.liveSlots (c : Coll) : List Slot := c.slots.filter (·.st == .live)
def Coll.near (c : Coll) (cnt : Nat) (q : List (BitVec 32)) (l : List Slot) : List (BitVec 32 × Nat) :=
  sortNear (l.map fun s => (c.codeDist (cnt + 1000 * s.idx) q s, s.idx))
/-- A slot passes a search's filter. -/
def Searching.passes (x : Searching) (s : Slot) : Bool :=
  match x.pass with | some l => l.contains s.record | none => true

/-- The start of a search once its filter is whole: the true count, then every slot that passes or the entry slots. -/
def Coll.searchStart (c : Coll) (cnt exhaustive : Nat) (x : Searching) : Searching :=
  let all := c.slots.filter fun s => x.atStart.contains s.idx && x.passes s
  let x := { x with waiting := false, nf := all.length }
  if all.length ≤ Nat.max exhaustive x.k then { x with result := c.near cnt x.query all, traversed := true }
  else
    let es := c.near cnt x.query (c.entries.filterMap c.slot?)
    { x with
      beam := (es.take x.w).map fun e => (e.1, e.2, false)
      visited := c.entries
      result := (es.filter fun e => match c.slot? e.2 with | some s => s.st == .live && x.passes s | none => false).take x.w }

/-- The slot to be expanded next (strict order of code distance). -/
def Searching.front (x : Searching) : Option Nat := (x.beam.find? fun b => !b.2.2).map (·.2.1)
/-- The traversal is over: nothing unexpanded, or the hop limit. -/
def Searching.isOver (x : Searching) : Bool := x.traversed || x.front.isNone || decide (x.hopLimit ≤ x.hops)

/-- One edge of an expanded list; counts what is absent. -/
def Coll.follow (c : Coll) (cnt : Nat) (a : Searching × Nat) (e : Nat × Nat) : Searching × Nat :=
  let (x, absent) := a
  match (c.slot? e.1).filter fun s => s.st != .free && s.gen == e.2 with
  | none => (x, absent + 1)
  | some s =>
    if x.visited.contains s.idx then (x, absent) else
    let d := c.codeDist (cnt + 1000 * s.idx) x.query s
    let beam := insertNear (d, s.idx) (x.beam.map fun b => (b.1, b.2.1))
    let x := { x with
      visited := x.visited ++ [s.idx]
      beam := (beam.take x.w).map fun b => (b.1, b.2, x.beam.any fun o => o.2.1 == b.2 && o.2.2) }
    (if s.st == .live && x.passes s then { x with result := (insertNear (d, s.idx) x.result).take x.w } else x, absent)

/-- Expands the front slot with its list page, or without edges when that is or was found unreadable in this search (R96, R98): the search
and the absent edges met. -/
def Coll.expand (c : Coll) (cnt : Nat) (x : Searching) (readable : Bool) : Searching × Nat :=
  match x.front with
  | none => (x, 0)
  | some f =>
    let x := { x with
      hops := x.hops + 1
      read := (x.read ++ (((x.beam.filter fun b => !b.2.2).take x.prefetch).map fun b => c.listPage b.2.1) ++ [c.listPage f]).eraseDups
      beam := x.beam.map fun b => if b.2.1 == f then (b.1, b.2.1, true) else b }
    match c.slot? f with
    | none => (x, 0)
    | some s =>
      if x.lostPages.contains (c.listPage f) then (x, 0)
      else if !readable then ({ x with damage := true, lostPages := x.lostPages ++ [c.listPage f] }, 0)
      else s.edges.foldl (c.follow cnt) (x, 0)

/-- Runs a search's traversal to its end, some list pages being unreadable; the last argument but one bounds the expansions. -/
def Coll.traverse (c : Coll) (cnt : Nat) (lost : List Nat) : Nat → Searching × Nat → Searching × Nat
  | 0, a => a
  | n + 1, (x, k) =>
    if x.isOver then (x, k) else
    let (x', m) := c.expand (cnt + n) x !(lost.contains ((x.front.map c.listPage).getD 0))
    Coll.traverse c cnt lost n (x', k + m)

/-- The hits of a traversed search: exact distances of the first K that are live now, the code distance where the vector page
is unreadable; the first k (R96, R98). Each is (score, slot, `CODE_SCORE`). -/
def Coll.hits (c : Coll) (cnt : Nat) (x : Searching) (unreadable : List Nat) : List (BitVec 32 × Nat × Bool) :=
  let top := (x.result.take x.rerank).filterMap fun r => (c.slot? r.2).filter (·.st == .live) |>.map fun s =>
    if unreadable.contains (c.vecPage s.idx) then (r.1, r.1, s.idx, true)
    else let (o, sc) := c.exact (cnt + 1000 * s.idx) x.query s.vector; (o, sc, s.idx, false)
  let order := sortNear (top.map fun t => (t.1, t.2.2.1))
  (order.take x.k).filterMap fun o => (top.find? fun t => t.2.2.1 == o.2).map fun t => (t.2.1, t.2.2.1, t.2.2.2)

/-- The record of a hit (Table 4.9). -/
def Coll.hitRecord (c : Coll) (h : BitVec 32 × Nat × Bool) : Bytes :=
  let handle := match c.slot? h.2.1 with
    | some s => match c.rec? s.record with | some r => r.handle (some s.chunk) | none => 0
    | none => 0
  natLe 8 handle ++ natLe 4 h.1.toNat ++ natLe 2 (b2n h.2.2) ++ zeros 2

-- Insertion (R100)

/-- The distance between two nodes' vectors. -/
def Coll.between (c : Coll) (cnt : Nat) (a b : Slot) : BitVec 32 := (c.exact cnt (bfWide a.vector) b.vector).1
/-- Candidate edges pruned with α to the degree: which of them it keeps is free; nearest first, each with the generation of its making
(R91, R100, R103). -/
def Coll.prune (c : Coll) (cnt : Nat) (node : Slot) (cands : List (Nat × Nat)) : List (Nat × Nat) :=
  let es := (cands.filter (·.1 != node.idx)).eraseDups
  let near := sortNear (es.zipIdx.filterMap fun (e, i) => (c.slot? e.1).map fun s => (c.between (cnt + s.idx) node s, i))
  let kept := if near.length ≤ c.degree then near else near.filter fun x => Config.pick cnt x.2 2 == 0
  (kept.take c.degree).filterMap fun x => es[x.2]?
def Coll.setSlot (c : Coll) (s : Slot) : Coll :=
  { c with slots := if c.slots.any (·.idx == s.idx) then c.slots.map fun t => if t.idx == s.idx then s else t else c.slots ++ [s] }
/-- Adds the reverse edge of `new` to node `i`, pruned past the degree. -/
def Coll.reverse (c : Coll) (cnt : Nat) (new : Slot) (i : Nat) : Coll :=
  match c.slot? i with
  | none => c
  | some s => c.setSlot { s with edges := c.prune (cnt + 7 * i) s (s.edges ++ [(new.idx, new.gen)]) }
/-- Links a node into the graph: a search with the build beam, a pruned list, and the reverse edges (R100). Which slots are the up to eight
entry slots no rule says: the first node is the only one (DESIGN CHOICE, assumption log 53). -/
def Coll.link (c : Coll) (cnt : Nat) (new : Slot) : Coll :=
  let x : Searching := { query := bfWide new.vector, k := 1, w := c.beam, hopLimit := 8 * c.beam }
  let x := c.searchStart cnt 0 { x with atStart := c.liveSlots.map (·.idx) }
  let (x, _) := c.traverse cnt [] (c.slots.length + 1) (x, 0)
  let cands := (if x.traversed then x.result.map (·.2) else x.visited).filterMap fun i => (c.slot? i).map fun s => (i, s.gen)
  let new := { new with edges := c.prune cnt new cands, listLost := false }
  let c := c.setSlot new
  let c := if c.entries.isEmpty then { c with entries := [new.idx] } else c
  new.edges.foldl (fun c e => c.reverse cnt new e.1) c

/-- The slot that the next node takes: a free one, its generation one up, or a new one (R102, R103). -/
def Coll.nextSlot (c : Coll) : Option (Nat × Nat) :=
  match c.slots.find? (·.st == .free) with
  | some s => some (s.idx, (s.gen + 1) % 65536)
  | none => if c.slots.length < 268435456 then some (c.slots.length, 0) else none
/-- Slots that appends can still take. -/
def Coll.roomSlots (c : Coll) : Nat := (c.slots.filter (·.st == .free)).length + (268435456 - c.slots.length)
/-- Inserts the node of a chunk; its code is what the codebook gives it, which is free. -/
def Coll.insertChunk (c : Coll) (cnt record chunk : Nat) (vec : List (BitVec 32)) : Coll :=
  match c.nextSlot with
  | none => c
  | some (i, g) =>
    let c := if c.codebook.isNone then { c with codebook := some cnt } else c
    c.link (cnt + 1) { idx := i, record := record, chunk := chunk, gen := g, vector := c.stored cnt vec
                       code := (List.range c.codeBytes).map fun m => (Config.freeWord cnt m).truncate 8 }

-- Mending (R102, R103)

/-- What a mending pass makes of one node's list. -/
def Coll.mendList (c : Coll) (cnt : Nat) (s : Slot) : Slot :=
  let present := s.edges.filter fun e => match c.slot? e.1 with | some t => t.st != .free && t.gen == e.2 | none => false
  let cands := (present.map fun e => match c.slot? e.1 with
    | some t => if t.st == .dead then (t.edges.filter fun f => match c.slot? f.1 with
        | some u => u.st == .live && u.gen == f.2 | none => false) else [e]
    | none => []).flatten
  if present.length == s.edges.length && present.all (fun e => match c.slot? e.1 with | some t => t.st == .live | none => false) then s
  else { s with edges := c.prune (cnt + 11 * s.idx) s cands }
/-- An entry slot that is a tombstone gives way to its nearest live neighbour. -/
def Coll.mendEntry (c : Coll) (cnt : Nat) (i : Nat) : Option Nat :=
  match c.slot? i with
  | none => none
  | some s => if s.st == .live then some i else
    ((sortNear ((c.liveSlots.filter fun t => s.edges.contains (t.idx, t.gen)).map fun t => (c.between (cnt + t.idx) s t, t.idx))).head?).map (·.2)
/-- A whole pass: lists mended, entries replaced, lists found unreadable built afresh, tombstones that preceded the pass freed
with their records, the rest now precede the next pass. -/
def Coll.mend (c : Coll) (cnt : Nat) : Coll :=
  let entries := (c.entries.filterMap (c.mendEntry cnt)).eraseDups
  let lost := c.slots.filter fun s => s.listLost && s.st == .live
  let c := { c with slots := c.slots.map (c.mendList cnt), entries := entries }
  let c := lost.foldl (fun c s => c.link (cnt + 13 * s.idx) s) c
  let slots := c.slots.map fun s => if s.st == .dead then (if s.old then { s with st := .free, old := false, edges := [] } else { s with old := true }) else s
  { c with
    slots := slots
    recs := c.recs.map fun r => if r.st == .dead && (slots.all fun s => s.record != r.idx || s.st == .free) then { r with st := .free } else r }

end Sys2Proof.Machine
end

