-- ==== Sys2Proof/Machine/Pools.lean ====
section
/-! DEFINITION. The pools of the quadrant stores and DRAM, their shares, quotas and spill (chapter 9), and capacity units. -/

namespace Sys2Proof.Machine

/-- Tier of a pool: true DRAM, false quadrant store. -/
def State.pool (s : State) (dram : Bool) : List PoolEntry := if dram then s.tiers.dram else s.tiers.qstore
def State.setPool (s : State) (dram : Bool) (l : List PoolEntry) : State :=
  s.modTiers fun t => if dram then { t with dram := l } else { t with qstore := l }
/-- Size of a pool in bytes (Table 9.2). -/
def State.poolSize (s : State) (dram : Bool) : Nat :=
  if dram then 352 * 2 ^ 30 else 4 * (60 * 2 ^ 20 - s.shelfBytes)
def sizes (l : List PoolEntry) : Nat := (l.map (·.size)).sum
/-- A pot's holding in a pool (R213). -/
def State.holding (s : State) (dram : Bool) (p : Nat) : Nat := sizes ((s.pool dram).filter (·.pot == p))
/-- A pot's pinned holding in a pool (R214). -/
def State.pinned (s : State) (dram : Bool) (p : Nat) : Nat :=
  sizes ((s.pool dram).filter fun e => e.pot == p && e.cls == .pinned)
/-- A pot's share or quota in a pool (R213, R215). -/
def State.share (s : State) (dram : Bool) (p : Nat) : Nat := if dram then s.potDram p else s.potQstore p

/-- Free space that pot `p` may take: its quota's rest, or the pool less every entry and every idle quota (R213, R215). -/
def State.poolFree (s : State) (dram : Bool) (p : Nat) : Nat :=
  if s.potQuota p then s.share dram p - s.holding dram p
  else
    let quota := ((List.range 8).map fun q => if s.potEnabled q && s.potQuota q then Nat.max (s.share dram q) (s.holding dram q) else 0).sum
    let shared := sizes ((s.pool dram).filter fun e => !s.potQuota e.pot)
    s.poolSize dram - (quota + shared)

/-- The key of a read's page in the pool. -/
def LeafRead.poolKey (r : LeafRead) : PoolKey := if r.cent then .centroid r.space r.index else .leaf r.space r.layer r.head r.index r.gen
/-- A running step or an `ATTEND` item attends a page (R30). -/
def State.attends (s : State) (key : PoolKey) : Bool :=
  (s.pots.toList.any fun q => q.loop.selected.any fun r => r.poolKey == key) ||
  s.jobs.any fun j => match j.attend with | some a => a.selected.any fun r => r.poolKey == key | none => false
/-- A move in flight uses an entry (R216). -/
def State.inUse (s : State) (key : PoolKey) : Bool := s.cores.toList.any fun k => k.moves.any fun m => m.uses.contains key

/-- An entry that may be taken for pot `p`: not pinned, not attended, not used by a move, of a share-mode pot over its share (R30, R213,
R216), or of `p` itself when `own`. -/
def State.takeable (s : State) (dram : Bool) (p : Nat) (own : Bool) (e : PoolEntry) : Bool :=
  e.cls != .pinned && !e.hold && !s.inUse e.key && !s.attends e.key &&
  (if own || s.potQuota p then e.pot == p else !s.potQuota e.pot && decide (s.share dram e.pot < s.holding dram e.pot))

/-- The entry that gives way next for pot `p`, in age order (R213). -/
def State.victim (s : State) (dram : Bool) (p : Nat) : Option PoolEntry :=
  match (s.pool dram).find? (s.takeable dram p false) with
  | some e => some e
  | none => (s.pool dram).find? (s.takeable dram p true)

/-- Bytes of whole 64 KiB frames (R211). -/
def frames (n : Nat) : Nat := 65536 * ceilDiv n 65536

/-- What a victim gives up for `need` bytes: a cached entry goes whole; an owned one frame by frame, another pot's no further than to
that pot's share (R213, R217). -/
def State.gives (s : State) (dram : Bool) (p need : Nat) (e : PoolEntry) : Nat :=
  if e.cls != .owned then e.size else
  let want := need - s.poolFree dram p
  Nat.min e.size (frames (if e.pot == p then want else Nat.min want (s.holding dram e.pot - s.share dram e.pot)))

/-- The first `n` bytes of a run of frames, and the rest of it. -/
def PoolEntry.head (e : PoolEntry) (n : Nat) : PoolEntry := { e with size := n }
def PoolEntry.rest (e : PoolEntry) (n : Nat) : PoolEntry := { e with size := e.size - n, first := e.first + n / 65536 }

/-- A list of entries in which `n` bytes of one are taken; its rest keeps its place in the age order. -/
def takeFrom (l : List PoolEntry) (e : PoolEntry) (n : Nat) : List PoolEntry :=
  if e.size ≤ n then l.erase e else l.replace e (e.rest n)

/-- Makes room in the DRAM pool: cached entries are dropped, owned frames go to flash (R213, R217). -/
def State.roomDram (s : State) (p need : Nat) : Nat → State × Bool
  | 0 => (s, decide (need ≤ s.poolFree true p))
  | n + 1 =>
    if need ≤ s.poolFree true p then (s, true) else
    match s.victim true p with
    | none => (s, false)
    | some e =>
      let k := s.gives true p need e
      let s := s.modTiers fun t => { t with
        dram := takeFrom t.dram e k, spilled := if e.cls == .owned then t.spilled ++ [e.head k] else t.spilled }
      State.roomDram s p need n

/-- Places frames on flash, or none when there are none. -/
def State.toFlash (s : State) (e : PoolEntry) : State :=
  if e.size = 0 then s else s.modTiers fun t => { t with spilled := t.spilled ++ [e] }

/-- Bytes of a run of frames that a tier takes after room was made: all of it, or the frames for which room was found. -/
def State.fits (s : State) (dram ok : Bool) (e : PoolEntry) : Nat :=
  if ok then e.size else Nat.min e.size (65536 * (s.poolFree dram e.pot / 65536))

/-- Places a run of frames in the DRAM pool as the pot's newest, those without room on flash (R217). -/
def State.toDram (s : State) (e : PoolEntry) : State :=
  let r := s.roomDram e.pot e.size (2 * s.tiers.dram.length + 2)
  let n := r.1.fits true r.2 e
  (r.1.modTiers fun t => if n = 0 then t else { t with dram := t.dram ++ [e.head n] }).toFlash (e.rest n)

/-- Makes room in the quadrant-store pool: an owned frame taken enters the DRAM pool as the newest, or flash (R217). -/
def State.roomQ (s : State) (p need : Nat) : Nat → State × Bool
  | 0 => (s, decide (need ≤ s.poolFree false p))
  | n + 1 =>
    if need ≤ s.poolFree false p then (s, true) else
    match s.victim false p with
    | none => (s, false)
    | some e =>
      let k := s.gives false p need e
      let s := s.modTiers fun t => { t with qstore := takeFrom t.qstore e k }
      State.roomQ (if e.cls == .owned then s.toDram (e.head k) else s) p need n

/-- Makes room in a pool for pot `p` (R213). -/
def State.room (s : State) (dram : Bool) (p need : Nat) : State × Bool :=
  if dram then s.roomDram p need (2 * s.tiers.dram.length + 2) else s.roomQ p need (2 * s.tiers.qstore.length + 2)

/-- What an allocation of a pinned entry comes to (R214). -/
inductive Alloc where
  | granted
  | refused
  | waits
deriving DecidableEq, Repr

/-- Allocates a pinned entry: never past the pot's share; within it, taken at once or waiting under `EVICT_WAIT` (R214). -/
def State.allocPinned (s : State) (dram : Bool) (e : PoolEntry) : State × Alloc :=
  let exceeds := decide (s.share dram e.pot < s.pinned dram e.pot + e.size)
  let r := s.room dram e.pot e.size
  (if exceeds then s
   else if r.2 then r.1.setPool dram (r.1.pool dram ++ [e])
   else r.1.modTiers fun t => { t with waits := t.waits ++ [{ e with quad := !dram }] },
   if exceeds then .refused else if r.2 then .granted else .waits)

/-- Claims a pinned entry of the DRAM pool, or waits for it (R217, R218). -/
def State.claim (s : State) (e : PoolEntry) : State := (s.allocPinned true e).1

/-- Allocates an owned entry in frames of 64 KiB: each always finds room in some tier, the hinted one first (R211, R217, R218). -/
def State.allocOwned (s : State) (dram : Bool) (e : PoolEntry) : State :=
  let e := { e with size := frames e.size }
  if dram then s.toDram e else
    let r := s.room false e.pot e.size
    let n := r.1.fits false r.2 e
    let s := if n = 0 then r.1 else r.1.setPool false (r.1.pool false ++ [e.head n])
    if n = e.size then s else s.toDram (e.rest n)

/-- The frames `lo` to `hi` of an object's run of frames, and what of the run lies outside them. -/
def PoolEntry.split (e : PoolEntry) (lo hi : Nat) : List PoolEntry × List PoolEntry :=
  let a := Nat.max e.first lo
  let z := e.first + e.size / 65536
  let b := Nat.min z (hi + 1)
  if b ≤ a then ([e], []) else
  ((if e.first < a then [{ e with size := 65536 * (a - e.first) }] else []) ++
    (if b < z then [{ e with size := 65536 * (z - b), first := b }] else []), [{ e with size := 65536 * (b - a), first := a }])
/-- A tier's entries without, and with, the frames that a use of an object names. -/
def splitFrames (l : List PoolEntry) (key : PoolKey) (lo hi : Nat) : List PoolEntry × List PoolEntry :=
  ((l.map fun e => if e.key == key then (e.split lo hi).1 else [e]).flatten,
    (l.map fun e => if e.key == key then (e.split lo hi).2 else []).flatten)

/-- Frames found below their hinted tier move back there as far as it has room for the pot (R219). -/
def State.moveBack (s : State) (dram : Bool) (e : PoolEntry) : State :=
  let held := { e with hold := true }
  let s := s.modTiers fun t => { t with dram := t.dram.replace e held, spilled := t.spilled.replace e held }
  let r := s.room dram e.pot e.size
  let n := r.1.fits dram r.2 e
  let s := r.1.modTiers fun t => { t with
    dram := if n = e.size then t.dram.erase held else t.dram.replace held (e.rest n)
    spilled := if n = e.size then t.spilled.erase held else t.spilled.replace held (e.rest n) }
  if n = 0 then s else s.setPool dram (s.pool dram ++ [e.head n])

/-- A use of `n` bytes at `a` of an owned object (R212, R219): its frames become the newest of their tiers, and those below the
hinted tier move back; with it the cause of a wait for them: `SPILL_READ`, `DRAM_READ`, `QSTORE_READ` (Table 9.4). -/
def State.useFrames (s : State) (key : PoolKey) (dram : Bool) (a n : Nat) : State × Nat :=
  let lo := a / 65536
  let hi := (a + n - 1) / 65536
  let q := splitFrames s.tiers.qstore key lo hi
  let d := splitFrames s.tiers.dram key lo hi
  let f := splitFrames s.tiers.spilled key lo hi
  let s := s.modTiers fun t => { t with qstore := q.1 ++ q.2, dram := d.1 ++ d.2, spilled := f.1 ++ f.2 }
  let below := f.2 ++ if dram then [] else d.2
  (below.foldl (fun s e => s.moveBack dram e) s, if !below.isEmpty then 0x0C else if dram then 0x0A else 0x09)

/-- Caches a copy as the newest entry, or as the oldest when R30 says so, where room can be found (R212, R213). -/
def State.cache (s : State) (e : PoolEntry) : State :=
  let s := s.setPool true ((s.pool true).filter (·.key != e.key))
  let (s, ok) := s.room true e.pot e.size
  if !ok then s else if e.streamed then s.setPool true (e :: s.pool true) else s.setPool true (s.pool true ++ [e])

/-- A use makes an unpinned entry the newest (R212). -/
def State.touch (s : State) (key : PoolKey) : State :=
  match s.tiers.dram.find? (·.key == key) with
  | some e => if e.cls == .pinned then s else s.setPool true (s.tiers.dram.erase e ++ [{ e with streamed := false }])
  | none => s
/-- The use of a page by dense cups alone: one that R30 placed as the oldest stays there, any other becomes the newest (R212). -/
def State.touchDense (s : State) (key : PoolKey) : State :=
  if s.tiers.dram.any fun e => e.key == key && e.streamed then s else s.touch key
/-- The end of an attention pin: the entry becomes the newest, but for one that R30 keeps as the oldest (R212). -/
def State.release (s : State) (key : PoolKey) : State := if s.attends key then s else s.touchDense key

def State.cached (s : State) (key : PoolKey) : Bool := s.tiers.dram.any (·.key == key)

/-- Drops every pool entry that a predicate names. -/
def State.dropEntries (s : State) (f : PoolEntry → Bool) : State :=
  s.modTiers fun t => { t with
    dram := t.dram.filter fun e => !f e, qstore := t.qstore.filter fun e => !f e
    spilled := t.spilled.filter fun e => !f e, waits := t.waits.filter fun e => !f e }

/-- A waiting pinned allocation is taken if it now can be; one that its share has no room for waits on (R214). -/
def State.retryWait (s : State) (e : PoolEntry) : State :=
  let r := (s.modTiers fun t => { t with waits := t.waits.erase e }).allocPinned (!e.quad) { e with quad := false }
  if r.2 = .refused then s else r.1
/-- Waiting pinned allocations that can now be taken are taken, oldest first (R214). -/
def State.retryWaits (s : State) : State := s.tiers.waits.foldl State.retryWait s
/-- A pinned claim of a job, or of the weights it runs, still waits under `EVICT_WAIT` (R214): it does not go on before the claim is
granted. -/
def State.claimWaits (s : State) (job image : Nat) : Bool := s.tiers.waits.any fun e => e.key == .staging job || e.key == .weights image

-- The pour (R72, R220, R221)

/-- Layers and bytes of a layer of a weight section; a section without a layer count is one layer (DEDUCED, log 32). -/
def layerSplit (weights layers : Nat) : Nat × Nat := if layers = 0 then (1, weights) else (layers, ceilDiv weights layers)
/-- Flash-poured layers of an image that hold a weight range, with their bytes (R72). -/
def Image.flashLayers (im : Image) (a n : Nat) : List (Nat × Nat) :=
  let (ls, size) := layerSplit im.weights.length (field im.header 0x14 2)
  ((List.range ls).filter fun l => decide (im.resident ≤ l) && decide (l * size < a + n) && decide (a < (l + 1) * size)).map fun l =>
    (l, Nat.min size (im.weights.length - l * size))
/-- The staging ring after a layer is read into it: the oldest layers make room within its 16 GiB (R72). -/
def ringWith (ring : List (Nat × Nat × Nat)) (x : Nat × Nat × Nat) : Nat → List (Nat × Nat × Nat)
  | 0 => ring ++ [x]
  | n + 1 => if (ring.map (·.2.2)).sum + x.2.2 ≤ 2 ^ 34 then ring ++ [x] else ringWith (ring.drop 1) x n
/-- A pour of a weight range (R220, R221): from the DRAM pool, or from the staging ring, into which its flash-poured layers are read
first; with it the cause of a wait for it. -/
def State.pour (s : State) (im : Image) (a n : Nat) : State × Nat :=
  let missing := (im.flashLayers a n).filter fun l => !(s.tiers.ring.any fun r => r.1 == im.id && r.2.1 == l.1)
  (missing.foldl (fun s l => s.modTiers fun t => { t with ring := ringWith t.ring (im.id, l.1, l.2) t.ring.length }) s,
    if missing.isEmpty && !im.reload then 0x0B else 0x07)

-- Capacity units (R15, R16, R218)

/-- Units that a pot's objects hold on flash: images, corpora, collections, tables, tail spaces, namespaces. -/
def State.unitsHeld (s : State) (p : Nat) : Nat :=
  ((s.images.filter (·.pot == p)).map (·.units)).sum + ((s.corpora.filter (·.pot == p)).map (·.units)).sum +
  ((s.colls.filter (·.pot == p)).map (·.units)).sum + ((s.tables.filter (·.pot == p)).map (·.units)).sum +
  ((s.cups.filter (·.pot == p)).map (·.units)).sum + ((s.nvme.spaces.filter (·.pot == p)).map (·.nsze)).sum

/-- Units a pot can still take: its flash share less the spill allowance reserved from it (R218) and what it holds, within the
module's pool (R16). -/
def State.unitsFree (s : State) (p : Nat) : Nat :=
  let all := ((List.range 8).map s.unitsHeld).sum
  Nat.min (s.potFlash p - (s.potSpill p * 262144 + s.unitsHeld p)) (19531250000 - all)

/-- The DRAM measure of R50: the pot's share or quota. -/
def State.dramMeasure (s : State) (p : Nat) : Nat := s.potDram p

/-- Owned footprints of a pot's admitted jobs (R218). -/
def State.footprints (s : State) (p : Nat) : Nat :=
  ((s.jobs.filter fun j => j.pot == p && (j.phase == .admitted || j.phase == .preempted)).map (·.footprint)).sum

/-- A further owned footprint fits the pot (R218). -/
def State.footprintFits (s : State) (p need : Nat) : Bool :=
  decide (s.footprints p + need ≤ s.dramMeasure p + s.potSpill p * 2 ^ 30)

end Sys2Proof.Machine
end

