-- ==== Sys2Proof/Machine/Reads.lean ====
section
/-! DEFINITION. The union read: leaf addresses, the leaf cache, reads in flight, lost leaves and their charge (R22 to R37),
and the leaf pages a `LEAFRD` lands (R172). -/

namespace Sys2Proof.Machine

def State.corpus? (s : State) (id : Nat) : Option Corpus := s.corpora.find? (·.id == id)
def State.modCorpus (s : State) (id : Nat) (f : Corpus → Corpus) : State :=
  { s with corpora := s.corpora.map fun c => if c.id == id then f c else c }
def State.cup? (s : State) (idx : Nat) : Option Cup := s.cups.find? (·.idx == idx)
def State.modCup (s : State) (idx : Nat) (f : Cup → Cup) : State :=
  { s with cups := s.cups.map fun c => if c.idx == idx then f c else c }
/-- Leaves per layer and KV head (R22). -/
def Corpus.n (c : Corpus) : Nat := ceilDiv c.tokens 128
/-- Slot of a leaf in its corpus's region (R22). -/
def Corpus.slot (c : Corpus) (layer head index : Nat) : Nat := (layer * c.kvHeads + head) * c.n + index

/-- The pot that owns a space. -/
def State.spacePot (s : State) (tail : Bool) (space : Nat) : Nat :=
  if tail then ((s.cups.find? (·.tail == space)).map (·.pot)).getD 0 else ((s.corpus? space).map (·.pot)).getD 0

/-- Two reads of one page. -/
def LeafRead.same (a b : LeafRead) : Bool :=
  a.cent == b.cent && a.space == b.space && a.tail == b.tail && a.layer == b.layer && a.head == b.head && a.index == b.index && a.gen == b.gen

/-- A page passes the checks of its kind (R20, R21, R24). -/
def LeafRead.passes (r : LeafRead) (pg : Bytes) : Bool :=
  if r.cent then centroidOk pg r.space (71 * r.index) else leafOk pg r.space r.layer r.head r.index

/-- The page of a read as the module holds it; of a centroid page the newest. -/
def State.storedLeaf (s : State) (r : LeafRead) : Option Bytes :=
  if r.cent then (s.corpus? r.space).bind fun c =>
    ((c.centroids.filter (·.1 == r.index)).foldl (fun (b : Option (Nat × Nat × Bytes)) p => match b with
      | some q => if q.2.1 ≤ p.2.1 then some p else b
      | none => some p) none).map (·.2.2)
  else if r.tail then
    (s.cups.find? (·.tail == r.space)).bind fun c =>
      (c.sealedPages.find? fun p => p.1 == r.layer && p.2.1 == r.head && p.2.2.1 == r.index).map (·.2.2.2)
  else (s.corpus? r.space).bind fun c =>
    (c.leaves.find? fun p => p.slot == c.slot r.layer r.head r.index && p.gen == r.gen).map (·.page)
/-- The page that a caddy gave stands for the leaf. -/
def State.storeLeaf (s : State) (r : LeafRead) (pg : Bytes) : State :=
  if r.cent then s.modCorpus r.space fun c => { c with
    centroids := c.centroids.map fun p => if p.1 == r.index && p.2.1 == field pg 0x10 4 then (p.1, p.2.1, pg) else p }
  else if r.tail then s else s.modCorpus r.space fun c => { c with
    leaves := c.leaves.map fun p => if p.slot == c.slot r.layer r.head r.index && p.gen == r.gen then { p with page := pg } else p }

/-- The page is in DRAM: in the leaf cache, or still in a growth buffer (R29, R68). -/
def State.leafInDram (s : State) (r : LeafRead) : Bool :=
  s.cached r.poolKey || (r.tail && match s.cups.find? (·.tail == r.space) with
    | some c => s.tiers.dram.any (·.key == .growth c.idx r.layer r.head r.index)
    | none => false)

/-- The entry of a space's lost list (R36). -/
def State.knownLost (s : State) (r : LeafRead) : Option LostLeaf :=
  let l := if r.cent then [] else if r.tail then ((s.cups.find? (·.tail == r.space)).map (·.lost)).getD []
    else ((s.corpus? r.space).map (·.lost)).getD []
  l.find? fun e => e.layer == r.layer && e.head == r.head && e.index == r.index

/-- Adds a leaf to its space's lost list (R36). -/
def State.addLost (s : State) (r : LeafRead) (check : Bool) (bays : BitVec 8) : State :=
  let e : LostLeaf := { layer := r.layer, head := r.head, index := r.index, check := check, bays := bays }
  if (s.knownLost r).isSome then s
  else if r.tail then { s with cups := s.cups.map fun c => if c.tail == r.space then { c with lost := c.lost ++ [e] } else c }
  else s.modCorpus r.space fun c => { c with lost := c.lost ++ [e] }

/-- The 16 bytes of a lost-leaf record (R37, Table 2.5). -/
def LostRec.bytes (r : LostRec) : Bytes :=
  natLe 4 r.space ++ natLe 2 r.layer ++ natLe 1 r.head ++ natLe 1 (b2n r.tail + 2 * b2n r.check + 4 * b2n r.known) ++
  natLe 2 (r.index % 2 ^ 15) ++ natLe 1 r.bays.toNat ++ zeros 1 ++ natLe 4 r.step
/-- An item takes a loss: exact count, at most 64 records (R35, R37). -/
def Item.lose (i : Item) (r : LostRec) : Item :=
  { i.note 2 with
    resC := i.resC + 1, lost := if i.lost.length < 64 then i.lost ++ [r] else i.lost
    truncated := i.truncated || decide (64 ≤ i.lost.length) }
/-- The record of a loss. -/
def LeafRead.lostRec (r : LeafRead) (e : LostLeaf) (known : Bool) (step : Nat) : LostRec :=
  { space := r.space, layer := r.layer, head := r.head, tail := r.tail, check := e.check, known := known, index := r.index
    bays := e.bays, step := step }
/-- Writes a lost-leaf record into an item's result area: at most 64 (R37). -/
def State.writeLost (s : State) (job item addr : Nat) (rec : LostRec) : State :=
  let n := ((s.item? job item).map fun i => i.lost.length).getD 64
  if addr = 0 ∨ 64 ≤ n then s else s.jobWrite job (addr + 16 * n) rec.bytes
/-- A cup whose item is not complete takes a loss; under `FAIL_CUP` it leaves at the end of the step, charged to its end (R35, R65). -/
def State.chargeCup (s : State) (idx : Nat) (rec : LostRec) : State :=
  match s.cup? idx with
  | none => s
  | some c =>
    if ((s.item? c.job c.item).map (·.done)).getD true then s else
    let s := (s.writeLost c.job c.item c.resultAddr rec).modItem c.job c.item fun i => i.lose rec
    match s.job? c.job with
    | some j => if bit (j.f 0x3C 1) 1 then s.modCup idx fun c => { c with phase := .leaving } else s
    | none => s

/-- The cups of a job whose sequence holds a leaf (R172). -/
def State.holders (s : State) (job : Nat) (r : LeafRead) : List Cup :=
  s.cups.filter fun c => c.job == job && (if r.tail then c.tail == r.space else c.corpus == some r.space)

-- Landing a page of LEAFRD (R172)

/-- The entry a move's signals are charged to. -/
def Move.q (m : Move) : QEntry := { word := m.word, pc := m.pc, regs := m.regs, layer := m.layer, oper := m.oper }
def State.move? (s : State) (c num : Nat) : Option Move := (s.core c).moves.find? (·.num == num)
/-- A move has ended: it leaves the engine and its header signal is given to core `to_`. -/
def State.endMove (s : State) (c num to_ : Nat) : State :=
  match s.move? c num with
  | none => s
  | some m => (s.modCore c fun k => { k with moves := k.moves.filter (·.num != num) }).hdrSignal c to_ m.q

/-- The slot header of a lost leaf: `TOKENS` zero; the rest of the slot is free (R172). -/
def lostSlot (c : Nat) (r : LeafRead) : Bytes :=
  natLe 2 1 ++ natLe 2 (b2n r.tail) ++ natLe 4 r.space ++ natLe 2 r.layer ++ natLe 1 r.head ++ natLe 1 0 ++
  natLe 2 (r.index % 2 ^ 15) ++ zeros 50 ++ ((List.range 2296).map fun i => natLe 8 (Config.freeWord c i).toNat).flatten

/-- Page `j` of a `LEAFRD` lands at `DST` + j × 18,432; the last one ends the move (R172). -/
def State.landLeaf (s : State) (c num j : Nat) (r : LeafRead) (page : Option Bytes) : State :=
  match s.move? c num with
  | none => s
  | some m =>
    let a := (m.regs.getD 1 0).toNat % 2 ^ 44 + 18432 * j
    let bs := match page with | some p => slice p 0 18432 | none => lostSlot s.free r
    let s := (s.coreWrite c 0 a bs (m.layer, m.oper) none).used
    let s := (s.count 1 c 4 18432).modCore c fun k => { k with
      moves := k.moves.map fun x => if x.num == num then { x with leaves := x.leaves.erase j } else x }
    if (m.leaves.erase j).isEmpty then s.endMove c num c else s

/-- A loss is charged to what a core's `LEAFRD` serves (R172). -/
def State.chargeMove (s : State) (c : Nat) (r : LeafRead) (e : LostLeaf) (known : Bool) : State :=
  match (s.core c).run with
  | none => s
  | some inv =>
    if inv.item = 0xFFFFFFFF then
      (s.holders inv.job r).foldl (fun s k => s.chargeCup k.idx (r.lostRec e known k.steps)) s
    else s.modItem inv.job inv.item fun i => { i.note 2 with resC := i.resC + 1, truncated := true }

-- Reads

/-- An `ATTEND` item takes a loss (R35, R37). -/
def State.chargeAttend (s : State) (job item : Nat) (rec_ : LostRec) : State :=
  let addr := (((s.job? job).bind (·.attend)).map (·.resultAddr)).getD 0
  (s.writeLost job item addr rec_).modItem job item fun i => i.lose rec_
/-- A leaf is lost for everyone who asked (R35, R36, R172). -/
def State.loseLeaf (s : State) (r : LeafRead) (e : LostLeaf) (known : Bool) : State :=
  let s := r.cups.foldl (fun s k => s.chargeCup k (r.lostRec e known ((s.cup? k).map (·.steps) |>.getD 0))) s
  let s := r.atts.foldl (fun s a => s.chargeAttend a.1 a.2 (r.lostRec e known 0)) s
  r.movs.foldl (fun s (c, num, j) => (s.chargeMove c r e known).landLeaf c num j r none) s

/-- What a read of one page asks for joins what another asks for (R29, R30). -/
def LeafRead.joined (x r : LeafRead) : LeafRead := { x with
  cups := (x.cups ++ r.cups).eraseDups, atts := (x.atts ++ r.atts).eraseDups, movs := x.movs ++ r.movs, dense := x.dense && r.dense }

/-- Starts a read from a caddy, in the bay where the page lies (free, log 1); a bay that is empty or whose caddy has failed gives no
copy, and the page's reconstruction starts at once (R33). -/
def State.readCaddy (s : State) (r : LeafRead) : State :=
  let bay := Config.pick s.free 0 8
  let op : MediaOp := { key := s.media.nextKey, kind := 0, bay := bay, group := Config.pick s.free 1 304896, page := Config.pick s.free 2 768, read := s.nextId }
  let there := (s.bay bay).isReadable
  let r := { r with key := s.nextId, origBad := !there, rebuilding := !there, late := false }
  ({ s with reads := s.reads ++ [r], nextId := s.nextId + 1 } : State).used.modMedia
    fun m => { m with ops := if there then m.ops ++ [op] else m.ops, nextKey := m.nextKey + 1 }

/-- A page in DRAM that fails its check on its way to a core store leaves the cache, is counted and read again (R20, R31). -/
def State.reread (s : State) (r : LeafRead) : State :=
  ((s.dropEntries fun e => e.key == r.poolKey).count 2 (s.spacePot r.tail r.space) 33 (if r.cent then 0 else 1)).readCaddy r

/-- Starts, joins or serves a read of a page (R29, R30, R36): from DRAM at once, from the lost list, from a read in flight, or from a
caddy. -/
def State.startRead (s : State) (r : LeafRead) : State :=
  match s.knownLost r with
  | some e => s.loseLeaf r e true
  | none =>
    if s.reads.any (·.same r) then { s with reads := s.reads.map fun x => if x.same r then x.joined r else x }
    else if s.leafInDram r then
      let pg := (s.storedLeaf r).getD []
      if !r.passes pg then s.reread r else
      let s := if r.dense then s.touchDense r.poolKey else s.touch r.poolKey
      r.movs.foldl (fun s (c, num, j) => s.landLeaf c num j r (some pg)) s
    else s.readCaddy r

def State.modRead (s : State) (key : Nat) (f : LeafRead → LeafRead) : State :=
  { s with reads := s.reads.map fun r => if r.key == key then f r else r }
/-- A read is over: it and its die operation leave flight. -/
def State.dropRead (s : State) (key : Nat) : State :=
  ({ s with reads := s.reads.filter (·.key != key) } : State).modMedia fun m => { m with ops := m.ops.filter (·.read != key) }

/-- A page that came in good form stands for its copy and enters the DRAM pool (R24, R25, R30). -/
def State.takePage (s : State) (r : LeafRead) (pg : Bytes) : State :=
  (s.storeLeaf r pg).cache { key := r.poolKey, pot := s.spacePot r.tail r.space, cls := .cached, size := 18432, streamed := r.dense }
/-- A good copy arrives: it enters the leaf cache, newest or, for dense cups alone, oldest, held while its step attends it
(R30), and lands where `LEAFRD` asked. -/
def State.deliver (s : State) (r : LeafRead) (pg : Bytes) : State :=
  let s := (s.dropRead r.key).takePage r pg
  r.movs.foldl (fun s (c, num, j) => s.landLeaf c num j r (some pg)) s

/-- A leaf is lost once neither its original copy nor its reconstruction yields a good page (R35); a centroid page is then read anew, as
its centroids are never missing (R25; DESIGN CHOICE, assumption log 52). -/
def State.settleRead (s : State) (read : Nat) : State :=
  match s.reads.find? (·.key == read) with
  | none => s
  | some r =>
    match r.origBad, r.rebuildBad with
    | true, some bays =>
      if r.cent then (s.dropRead read).readCaddy { r with rebuildBad := none, check := false } else
      let e : LostLeaf := { layer := r.layer, head := r.head, index := r.index, check := r.check, bays := bays }
      ((s.dropRead read).addLost r r.check bays).loseLeaf r e false
    | _, _ => s

/-- The original copy of a read is unusable: reconstruction starts at once (R33). -/
def State.originalBad (s : State) (read : Nat) (check : Bool) : State :=
  (s.modRead read fun r => { r with check := r.check || check, origBad := true, rebuilding := true }).settleRead read

end Sys2Proof.Machine
end

