-- ==== Sys2Proof/Machine/Sched.lean ====
section
/-! DEFINITION. Jobs on a pot's cores: variants, invocations and their blocks, restart records, the choice by ring deficit,
pre-emption and resumption, tasks (R186, R257, R179, R262 to R272). -/

namespace Sys2Proof.Machine

-- Images and invocations (R186, R257)

/-- The variant with the most cores not above `n` (R186): its position. -/
def Image.variantFor (im : Image) (n : Nat) : Option Nat :=
  (im.variants.zipIdx.foldl (fun (b : Option (Nat × Nat)) (v, i) =>
    if v.cores ≤ n then (match b with | some (_, m) => if m < v.cores then some (i, v.cores) else b | none => some (i, v.cores)) else b) none).map (·.1)
/-- A core job (Table 11.2). -/
def Job.isCore (j : Job) : Bool := j.type == 0x03 || j.type == 0x04 || j.type == 0x05 || j.type == 0x07 || j.type == 0x15
/-- A task job (Table 11.2). -/
def Job.isTask (j : Job) : Bool := j.type == 0x0A || j.type == 0x0B
/-- A core job whose program is the module's own, on cores that no invocation occupies: `ATTEND` (assumption log 40). -/
def Job.isWhole (j : Job) : Bool := j.type == 0x05
def Job.ready (j : Job) : Bool := j.phase == .admitted || j.phase == .preempted
/-- The image whose program a core job runs: an append's is its collection's encoder (R100). -/
def Job.program (j : Job) : Nat := j.imageId
def State.jobImage (s : State) (j : Job) : Option Image :=
  if j.type = 0x07 then (s.coll? (j.f 0x30 4)).bind fun c => s.image? c.encoder else s.image? j.imageId
/-- Cores that a core job's variant holds in a pot: every core for `ATTEND` (R186, Table 11.2). -/
def State.jobCores (s : State) (p : Nat) (j : Job) : Nat :=
  let n := (s.potCores p).length
  if j.type = 0x05 then n else
  (((s.jobImage j).bind fun im => (im.variantFor n).map fun v => (im.variants.getD v {}).cores)).getD 0

/-- A core number as `PER_CORE` copy or ordinal of the cores that run a job. -/
def State.coresOf (s : State) (job : Nat) : List Nat :=
  (List.range 48).filter fun c => match (s.core c).run with | some r => r.job == job | none => false
/-- The core that runs an ordinal of a job. -/
def State.coreAt (s : State) (job ord : Nat) : Option Nat :=
  (List.range 48).find? fun c => match (s.core c).run with | some r => r.job == job && r.ordinal == ord && r.kind != 0 | none => false

/-- The 320 bytes at core-store offset 0x120_0100: the invocation block and the attended spaces (R257); the address fields
beside `RUN`'s parameter block lie where the module placed the data, which is free (log 1). -/
def invocationBlock (c : Nat) (inv : Invocation) (jobId step : Nat) (spaces : List Nat) : Bytes :=
  natLe 4 jobId ++ natLe 4 inv.item ++ natLe 2 inv.kind ++ natLe 2 inv.layer ++ natLe 2 inv.rows ++ natLe 2 inv.ordinal ++
  natLe 4 inv.tokens ++ natLe 4 step ++
  ((List.range 5).map fun i => natLe 8 (if inv.kind = 1 ∧ i = 0 then 0x1300000 else (Config.freeWord c i).toNat)).flatten ++
  ((List.range 64).map fun i => natLe 4 (spaces.getD i 0xFFFFFFFF)).flatten

/-- Registers at entry (Table 7.2) and the entry's first word; every bank is empty. -/
def Core.enter (k : Core) (inv : Invocation) (pc : Nat) : Core := { k with
  ad := (Vector.replicate 16 0).set 0 0x1200100, sh := Vector.replicate 8 {}, sc := Vector.replicate 8 {}
  layer := 0xFFFF, oper := 0xFFFF, tk := Vector.replicate 32 0, loops := [], pc := pc, run := some inv, front := none
  qLoader := [], qArrays := [], qSpout := [], qVector := [], qMove := [], mms := [], moves := [], banks := [], bankPoison := []
  checkRows := [], loads := [], keep := none, parked := false }

/-- The table of attended spaces that an invocation sees (R257): the step's, in the order it pins them; for a job without steps the
corpora whose generations its admission fixed (R26), at most 64, in that order (DESIGN CHOICE, assumption log 50). -/
def State.attended (s : State) (inv : Invocation) (j : Job) : List Nat :=
  if inv.item = 0xFFFFFFFF then (s.pot j.pot).loop.spaces else (j.gens.map (·.1)).eraseDups.take 64

/-- Starts an image entry on one core (R257): the block, `RUN`'s parameters, AD0. -/
def State.enterCore (s : State) (c : Nat) (inv : Invocation) (j : Job) (pc : Nat) (params : Bytes) : State :=
  let blk := invocationBlock s.free inv j.jobId (s.pot j.pot).loop.count (s.attended inv j)
  let part := partialWords 0x1300000 params.length
  ((s.count 1 c 5 part).attribute j.pot j.key j.jobId j.layerId j.operId 38 part |>.modCore c fun k => { k.enter inv pc with
    store := Memory.writeN (Memory.writeN k.store 0x1200100 blk) 0x1300000 params
    poison := k.poison.filter fun r => !(decide (0x1200100 ≤ r.1) && decide (r.1 + r.2.1 ≤ 0x1200240)) &&
      !(decide (0x1300000 ≤ r.1) && decide (r.1 + r.2.1 ≤ 0x1300000 + params.length)) }).used

/-- Starts an invocation of a job on the first cores of its pot, one per ordinal (R186, R257). -/
def State.invoke (s : State) (j : Job) (image item kind layer rows tokens : Nat) (params : Bytes) : State :=
  match (s.image? image).bind fun im => (im.variantFor (s.potCores j.pot).length).map fun v => (im, v) with
  | none => s
  | some (im, v) =>
    let var := im.variants.getD v {}
    match var.entries.lookup kind with
    | none => s
    | some pc =>
      (((s.potCores j.pot).take var.cores).zipIdx).foldl (fun s (c, ord) =>
        s.enterCore c { job := j.key, item := item, image := im.id, variant := v, ordinal := ord, kind := kind, rows := rows
                        tokens := tokens, layer := layer } j pc params) s

-- Restart record (R179, Table 7.12)

/-- The 256 bytes of the restart record. -/
def restartRecord (k : Core) (pc : Nat) : Bytes :=
  let lv := fun i => match k.loops[i]? with
    | some l => natLe 4 l.start ++ natLe 2 l.left ++ natLe 2 l.body
    | none => zeros 8
  let body := natLe 4 pc ++ natLe 2 k.layer.toNat ++ natLe 2 k.oper.toNat ++ (k.tk.toList.map fun t => natLe 2 t.toNat).flatten ++
    (k.ad.toList.map fun a => natLe 6 a.toNat).flatten ++ lv 0 ++ lv 1 ++ lv 2 ++ lv 3 ++ natLe 1 k.loops.length ++ zeros 47
  body ++ crcBytes body
/-- A core's registers loaded from a restart record; shapes and spout configurations stay invalid (R179). -/
def Core.restore (k : Core) (r : Bytes) : Core := { k with
  pc := field r 0 4, layer := BitVec.ofNat 16 (field r 4 2), oper := BitVec.ofNat 16 (field r 6 2)
  tk := Vector.ofFn fun i => BitVec.ofNat 16 (field r (8 + 2 * i.val) 2)
  ad := Vector.ofFn fun i => BitVec.ofNat 48 (field r (0x48 + 6 * i.val) 6)
  sh := Vector.replicate 8 {}, sc := Vector.replicate 8 {}
  loops := (List.range (field r 0xC8 1)).map fun i => { start := field r (0xA8 + 8 * i) 4, left := field r (0xAC + 8 * i) 2, body := field r (0xAE + 8 * i) 2 } }
/-- Writes the restart record of a core at its working area. -/
def State.writeRestart (s : State) (c pc : Nat) : State :=
  let k := s.core c
  s.coreWrite c 6 0x1200000 (restartRecord k pc) (k.layer, k.oper) none

-- Charging and the choice (R265, R267)

/-- The job that a pot's engine time is charged to: the waiter of a loan, else the job itself (R271). -/
def State.charged (s : State) (p key : Nat) : Nat :=
  match (s.pot p).loan with | some (w, h) => if h = key then w else key | none => key
/-- Charges `elapsed` ns of the cores that the running job holds (R267, R271). -/
def State.chargeCores (s : State) (p elapsed : Nat) : State :=
  match (s.pot p).running with
  | none => s
  | some key =>
    match s.job? (s.charged p key) with
    | some j => s.account j 0 ((s.coresOf key).length * elapsed)
    | none => s

/-- Rings with an admitted core or task job (R265). -/
def State.activeRings (s : State) (p : Nat) : List Nat :=
  (List.range 16).filter fun r => s.jobs.any fun j => j.pot == p && j.ring == r && j.ready && (j.isCore || j.isTask)

/-- The deficits after `elapsed` ns, clamped; a ring that is not active keeps none (R265). -/
def State.newDeficit (s : State) (p elapsed : Nat) (active : List Nat) (r : Nat) : Int :=
  let q := s.pot p
  let n : Int := (s.potCores p).length
  let sum : Int := ((active.map (s.ringWeight p)).sum : Nat)
  let top : Int := 10 * ((s.potSlice p * 1000000 : Nat) : Int) * n
  if !active.contains r then 0 else
  let d := q.deficit[r]?.getD 0 + (elapsed : Int) * n * (s.ringWeight p r : Int) / sum - ((q.charged[r]?.getD 0 : Nat) : Int)
  if d < -top then -top else if top < d then top else d

/-- The deficit round of R265, at a slice boundary: deficits updated, the chosen ring answered, committed fields in force (R261). No
rule gives the pot's own `SHARE_DEFICIT` (assumption log 36). -/
def State.deficits (s : State) (p elapsed : Nat) : State × Option Nat :=
  let active := s.activeRings p
  let ds := Vector.ofFn fun i : Fin 16 => s.newDeficit p elapsed active i.val
  let s := s.modPot p fun q => { q with deficit := ds, charged := Vector.replicate 16 0, kept := [] }
  let s := (List.range 16).foldl (fun s r => s.setCounter 3 (16 * p + r) 6 (ds[r]?.getD 0)) s
  let s := (s.setCounter 2 p 6 (Config.freeWord s.free 0).toInt).used
  let best := active.foldl (fun (b : Option Nat) r => match b with
    | some t => if ds[t]?.getD 0 < ds[r]?.getD 0 then some r else b
    | none => some r) none
  (s, best)

/-- The oldest admitted core or task job of a ring (R265). -/
def State.oldestOf (s : State) (p r : Nat) : Option Job :=
  (s.jobs.filter fun j => j.pot == p && j.ring == r && j.ready && (j.isCore || j.isTask)).foldl (fun (b : Option Job) j =>
    match b with | some x => if j.admitted < x.admitted then some j else b | none => some j) none

-- Pre-emption (R268)

/-- Regions that hold a pre-empted core's working area: `number` 1000, one per ordinal. -/
def savedArea (job ord : Nat) : Nat × Nat × Nat := (job, 1000, ord)

/-- Saves one core's working area and takes its invocation off (R268, order 2 and 3). -/
def State.saveCore (s : State) (key c : Nat) : State :=
  match (s.core c).run with
  | none => s
  | some inv =>
    let area := (s.core c).store.filter fun b => decide (0x1200000 ≤ b.1)
    let at_ := savedArea key inv.ordinal
    let bad := ((s.core c).poison.filter fun r => decide (0x1200000 ≤ r.1)).map fun r => (at_, r)
    ((s.modTiers fun t => { t with
        regions := upsert t.regions at_ [] fun _ => area, regionPoison := t.regionPoison ++ bad }).modJob key fun j =>
      { j with parked := j.parked ++ [inv] }).modCore c Core.idle

/-- A job that runs loses its cores at a point (R268). -/
def State.preempt (s : State) (p key : Nat) : State :=
  match s.job? key with
  | none => s
  | some j =>
    let cs := s.coresOf key
    let s := (((s.chargeCores p (Config.choice s.free 61)).used.count 2 p 4 1).count 3 (16 * p + j.ring) 4 1)
    let s := if cs.isEmpty then s else s.allocOwned true { key := .saved key, pot := p, cls := .owned, size := cs.length * 2 ^ 21 }
    let s := (cs.foldl (fun s c => s.saveCore key c) s).modJob key fun j => { j with phase := .preempted, readyAt := s.time }
    s.modPot p fun q => { q with
      running := none, switchDue := false, drainRetry := false
      loan := match q.loan with | some (w, h) => if h = key then none else some (w, h) | none => none }

/-- Brings a saved core back: working area restored, window refilled with the weights it held, registers from the restart
record (R268, R272). -/
def State.restoreCore (s : State) (key : Nat) (inv : Invocation) (c : Nat) : State :=
  let s := inv.poured.foldl (fun s r => (s.pour ((s.image? inv.image).getD {}) r.2.1 r.2.2).1) s
  let area := lookupD s.tiers.regions (savedArea key inv.ordinal) []
  let weights := ((s.image? inv.image).map (·.weights)).getD []
  s.modCore c fun k =>
    let store := k.store.filter (fun b => decide (b.1 < 0x1200000)) ++ area
    let store := inv.poured.foldl (fun m (a, off, n) => Memory.writeN m a (slice weights off n)) store
    { (({ k with store := store } : Core).enter inv 0).restore (Memory.readN store 0x1200000 256) with
      poison := (k.poison.filter fun r => decide (r.1 < 0x1200000)) ++
        ((s.tiers.regionPoison.filter fun r => r.1 == savedArea key inv.ordinal).map (·.2)) }

/-- A pre-empted job takes its cores again. -/
def State.resume (s : State) (p : Nat) (j : Job) : State :=
  let waited := (s.time - j.readyAt) * 1000
  let s := (s.count 2 p 5 waited).count 3 (16 * p + j.ring) 5 waited
  let s := j.parked.foldl (fun s inv => match (s.potCores p)[inv.ordinal]? with
    | some c => s.restoreCore j.key inv c
    | none => s) s
  let s := s.dropEntries fun e => e.key == .saved j.key
  let s := s.modTiers fun t => { t with
    regions := t.regions.filter fun r => !(r.1.1 == j.key && r.1.2.1 == 1000)
    regionPoison := t.regionPoison.filter fun r => !(r.1.1 == j.key && r.1.2.1 == 1000) }
  s.modJob j.key fun j => { j with phase := .admitted, parked := [] }

-- Starting work

/-- `RUN` items run one after another (R153): the next one is started, an item whose parameters cannot be read fails. -/
def State.nextRun (s : State) (key : Nat) : Nat → State
  | 0 => s
  | n + 1 =>
    match s.job? key with
    | none => s
    | some j =>
      match j.items.find? (!·.done) with
      | none => s
      | some i =>
        let rec_ := (s.hostRead (j.f 0x10 8 + 16 * i.idx) 16).getD []
        match s.hostRead (field rec_ 0 8) (field rec_ 8 4) with
        | some ps => s.invoke j j.program i.idx 1 0xFFFF 0 0 ps
        | none => State.nextRun (s.complete key i.idx fun i => i.fail 0x10) key n

/-- `COLLECTION_APPEND` items are encoded one after another (R100, R257): the next one's record is read and `ENCODE` invoked over its
chunks; an item whose record cannot be read fails. -/
def State.nextAppend (s : State) (key : Nat) : Nat → State
  | 0 => s
  | n + 1 =>
    match (s.job? key).bind fun j => (j.items.find? (!·.done)).map fun i => (j, i) with
    | none => s
    | some (j, i) =>
      let rec_ := (s.hostRead (j.f 0x10 8 + 16 * i.idx) 16).getD []
      match s.coll? (j.f 0x30 4), (s.hostRead (field rec_ 0 8) (field rec_ 8 4)).filter fun b => decide (8 ≤ b.length) with
      | some c, some b => s.invoke j c.encoder i.idx 2 0xFFFF (chunksOf (c.chunk, c.overlap) (field b 0 4)) (field b 0 4) []
      | _, _ => State.nextAppend (s.complete key i.idx fun i => i.fail 0x10) key n

/-- The program that a steep runs next (Table 3.2): after `STAGED` the encoder's, after `INDEXED` or a layer the model's
next layer. -/
def State.startSteep (s : State) (j : Job) : State :=
  match s.corpora.find? fun c => c.job == some j.key with
  | none => s
  | some c =>
    if c.mark.stage = 1 then
      let rows := match s.coll? c.coll with
        | some k => (c.recs.map fun i => ((k.rec? i).map k.chunks).getD 0).sum
        | none => 0
      s.invoke j (j.f 0x38 4) 0 2 0xFFFF rows c.tokens []
    else if 3 ≤ c.mark.stage ∧ c.mark.layers < c.range.1 + c.range.2 then
      s.invoke j j.program 0 3 (Nat.max c.range.1 c.mark.layers) (c.tokens % 65536) c.tokens []
    else s

/-- What a core job does on the cores it has just been granted for the first time: `RUN` starts its first item, an append encodes its first record, a steep runs its
stage's program; a `GENERATE` job begins at its pot's step boundary. -/
def State.beginJob (s : State) (j : Job) : State :=
  if j.type = 0x15 then s.nextRun j.key (j.items.length + 1)
  else if j.type = 0x03 then s.startSteep j
  else if j.type = 0x07 then s.nextAppend j.key (j.items.length + 1)
  else s

/-- The cores that a core job's variant takes, when none of them is occupied. -/
def State.coresFree (s : State) (p : Nat) (j : Job) : Bool :=
  ((s.potCores p).take (s.jobCores p j)).all fun c => (s.core c).run.isNone

/-- Cores may run work at all: PS0 and no step away from it, ready, no activation hold (R385, R404). -/
def State.coresOn (s : State) : Bool :=
  decide (s.power.st = 0) && s.power.step.isNone && s.boot.phase == .ready && s.boot.hold.isNone

/-- The running core job takes its cores when it holds none, they are free and its pinned claims are granted (R214): resumed, or begun once its image's resident layers
are reloaded (R402). -/
def State.grant (s : State) (p : Nat) : State :=
  match ((s.pot p).running.bind fun key => s.job? key) with
  | none => s
  | some j =>
    if !j.isCore || !(s.coresOf j.key).isEmpty || !s.coresFree p j || s.claimWaits j.key j.imageId then s
    else
      let waited := (s.time - j.readyAt) * 1000
      if j.phase == .preempted then s.resume p j
      else if j.sliced || ((s.jobImage j).map (·.reload)).getD false then s
      else ((((s.count 2 p 3 waited).count 3 (16 * p + j.ring) 3 waited).modJob j.key fun j => { j with sliced := true })).beginJob j

/-- The job that holds the pot's slice. -/
def State.runningJob (s : State) (p : Nat) : Option Job := (s.pot p).running.bind fun key => s.job? key
/-- The free core of a pot with the lowest logical index that a task may take: none in a pot of fewer than 12 cores while a
core job runs (R263, R264), none before any job has the slice. -/
def State.taskCore (s : State) (p : Nat) : Option Nat :=
  let cores := s.potCores p
  match s.runningJob p with
  | none => none
  | some j =>
    if j.isCore && decide (cores.length < 12) then none
    else (cores.drop (if j.isCore then s.jobCores p j else 0)).find? fun c => (s.core c).run.isNone
/-- The core that runs a task. -/
def State.taskOn (s : State) (job item : Nat) : Option Nat :=
  (List.range 48).find? fun c => match (s.core c).run with | some r => r.kind == 0 && r.job == job && r.item == item | none => false

/-- Waiting searches take free cores of the pot, lowest first (R263, R264). -/
def State.grantTasks (s : State) (p : Nat) : State :=
  (s.searches.filter fun x => match s.job? x.job with | some j => j.pot == p && j.ready | none => false).foldl (fun s x =>
    if (s.taskOn x.job x.item).isSome then s else
    match s.taskCore p with
    | none => s
    | some c => (s.modCore c fun k => { k with run := some { job := x.job, item := x.item, kind := 0 } }).modJob x.job
        fun j => { j with sliced := true }) s

/-- Chooses the next core or task job when the pot has none and its cores run (R264, R265, R271), then grants cores. -/
def State.schedule (s : State) (p elapsed : Nat) : State :=
  if !s.coresOn || ((s.pot p).st != 1 && (s.pot p).st != 2) then s else
  let s := if (s.pot p).running.isSome then s else
    match (s.pot p).loan with
    | some (_, h) => if (s.job? h).isSome then s.modPot p fun q => { q with running := some h } else s
    | none =>
      let (s, r) := s.deficits p elapsed
      match r.bind (s.oldestOf p) with
      | some j => s.modPot p fun q => { q with running := some j.key }
      | none => s
  (s.grant p).grantTasks p

/-- After a job or item may have ended: the pot chooses again; the time since the last choice is free (log 1). -/
def State.reschedule (s : State) (p : Nat) : State :=
  (s.schedule p (Config.choice s.free 60)).used

/-- Ends the slice's hold when a job that held it is gone, for every pot. -/
def State.rescheduleAll (s : State) : State := (List.range 8).foldl (fun s p => if s.potEnabled p then s.reschedule p else s) s

-- Points (R262, R268, R270)

/-- The pot's running job is to give its cores up at a point (R265, R271, R386), unless its drain was given up (R270). -/
def State.preempting (s : State) (p : Nat) : Bool :=
  ((s.pot p).switchDue && !(s.pot p).drainRetry) || s.power.step == some 1
/-- A core that reaches a point stays there: pre-emption, a stopping pot (R262), an activation hold (R404). -/
def State.parkDue (s : State) (p : Nat) : Bool := s.preempting p || (s.pot p).st == 2 || s.boot.hold.isSome

/-- Every job of a stopping pot is gone: it is stopped (R262). -/
def State.settleStop (s : State) (p : Nat) : State :=
  if (s.pot p).st == 2 && !(s.jobs.any (·.pot == p)) then
    let s := s.modPot p fun q => { q with st := 3, kept := [] }
    if p = s.servingPot then s.sendStatus else s
  else s

/-- When every core of the running job stands at a point or has ended: a stopping pot ends the job; a drained one that is due
is switched out and the next job is chosen (R262, R268, R270). -/
def State.settlePoint (s : State) (p : Nat) : State :=
  match (s.pot p).running with
  | none => s
  | some key =>
    let cs := s.coresOf key
    let stand := cs.all fun c => (s.core c).parked || (match (s.core c).run with | some r => r.ended | none => true)
    if cs.isEmpty || !stand || cs.any s.takingOver || !(cs.any fun c => (s.core c).parked) then s
    else if (s.pot p).st == 2 then (s.abortJob key 0x41).settleStop p
    else if s.preempting p then
      if s.xfersOf key then s else (s.preempt p key).reschedule p
    else s

/-- Cores parked with no reason left go on (R270, R404). -/
def State.unpark (s : State) (p : Nat) : State :=
  (s.potCores p).foldl (fun s c => s.modCore c fun k => { k with parked := false }) s

end Sys2Proof.Machine
end

