-- ==== Sys2Proof/Machine/KMove.lean ====
section
/-! DEFINITION. The move engine: address spaces, what a move reads at issue, where its data lands (R169 to R172, R152). -/

namespace Sys2Proof.Machine

/-- A place in one of the address spaces of Table 7.10. -/
inductive Place where
  | core (c a : Nat)
  | region (num copy a tier : Nat)
  | weights (a : Nat)
  | host (a : Nat)
  | peer (m a : Nat)
deriving DecidableEq, Repr

/-- The place that an address register value, advanced by `adv` bytes within the field that the space uses, names for `n` bytes on a core
(R169, R240). -/
def State.place (s : State) (c : Nat) (v : BitVec 48) (adv n : Nat) : Option Place :=
  match (s.core c).run with
  | none => none
  | some inv =>
    let o := v.toNat % 2 ^ 44
    let im := (s.image? inv.image).getD {}
    let var := s.variantOf inv
    match v.toNat / 2 ^ 44 with
    | 0 => if o + adv + n ≤ coreBytes then some (.core c (o + adv)) else none
    | 1 =>
      if bits o 37 25 ≠ 0 ∨ var.cores ≤ o / 2 ^ 38 ∨ coreBytes < o % 2 ^ 25 + adv + n then none
      else (s.coreAt inv.job (o / 2 ^ 38)).map fun d => .core d (o % 2 ^ 25 + adv)
    | 2 => (im.regions.find? fun r => r.number == o / 2 ^ 36).bind fun r =>
        let a := o % 2 ^ 36 + adv
        if a + n ≤ r.size then some (.region r.number (if r.perCore then inv.ordinal else 0) a r.tier) else none
    | 3 => if o < 2 ^ 40 ∧ o + adv + n ≤ im.weights.length then some (.weights (o + adv)) else none
    | 4 => ((s.job? inv.job).bind fun j => s.buffer? j (o / 2 ^ 40)).bind fun b =>
        let a := o % 2 ^ 40 + adv
        if a + n ≤ b.2 then some (.host (b.1 + a)) else none
    | 5 => if o / 2 ^ 41 ≤ 4 ∧ o % 2 ^ 41 + adv + n ≤ 2 ^ 41 then some (.peer (o / 2 ^ 41) (o % 2 ^ 41 + adv)) else none
    | _ => none

/-- The job a core runs. -/
def State.coreJob (s : State) (c : Nat) : Option Job := ((s.core c).run).bind fun i => s.job? i.job

/-- An item fails for what a core's move met: its own item, or every item that the step work serves (R152, R249). -/
def State.noteServed (s : State) (c st : Nat) : State :=
  match (s.core c).run with
  | none => s
  | some inv =>
    if inv.item = 0xFFFFFFFF then s.modJob inv.job fun j => { j with items := j.items.map fun i => if i.done then i else i.fail st }
    else s.modItem inv.job inv.item fun i => i.fail st

/-- The bytes of a source place as a move reads them, with their poison; a host read that PCIe fails gives free bytes, poisoned. -/
def State.readPlace (s : State) (c : Nat) (p : Place) (n : Nat) : Bytes × Option Arrival :=
  match p with
  | .core d a => (s.coreRead d a n, (s.core d).poisonIn a n)
  | .region num copy a _ =>
    let key := ((s.coreJob c).map (·.key)).getD 0
    (Memory.readN (lookupD s.tiers.regions (key, num, copy) []) a n,
      (s.tiers.regionPoison.find? fun r => r.1 == (key, num, copy) && decide (r.2.1 < a + n) && decide (a < r.2.1 + r.2.2.1)).map (·.2.2.2))
  | .weights a => (slice (((s.image? (((s.core c).run.map (·.image)).getD 0)).map (·.weights)).getD []) a n, none)
  | .host a => match s.hostRead a n with
    | some bs => (bs, none)
    | none => ((List.range n).map fun i => (Config.freeWord s.free i).truncate 8, some .memBad)
  | .peer _ _ => ([], none)

/-- The image whose program a core runs. -/
def State.coreImage (s : State) (c : Nat) : Image := ((s.core c).run.bind fun r => s.image? r.image).getD {}

/-- What a read of a place does beside its data: watchpoints, host errors, DRAM traffic, the frames and layers it uses (R212, R219 to
R221, R249, R267, R413); with it the cause of a wait for it (Table 9.4), 0 for a place that is no tier. -/
def State.seePlace (s : State) (c : Nat) (p : Place) (n : Nat) (tags : BitVec 16 × BitVec 16) : State × Nat :=
  let acct := fun (s : State) => match s.coreJob c with | some j => s.accountAs j tags 2 n | none => s
  match p with
  | .core d a => (s.watched 0 d 0 false a n (some tags), 0)
  | .region num copy a tier =>
    let r := match s.coreJob c with | some j => s.useFrames (.region j.key num copy) (tier != 0) a n | none => (s, 0)
    (if tier = 0 then r.1 else acct r.1, r.2)
  | .weights a => let r := s.pour (s.coreImage c) a n; (acct r.1, r.2)
  | .host a => match s.hostRead a n with
    | some _ => (s.watched 4 0 5 false a n (some tags), 0)
    | none => (s.noteServed c 0x10, 0)
  | .peer _ _ => (s, 0)

/-- The pool entry that a place of a job lies in. -/
def Place.entry (p : Place) (job : Nat) : Option PoolKey :=
  match p with
  | .region num copy _ _ => some (.region job num copy)
  | _ => none
/-- The causes of waits from the nearest to the medium to the farthest (R223); `STAGING_FULL` and `EVICT_WAIT` stand with the DRAM causes
(DEDUCED, assumption log 51). -/
def causeOrder : List Nat := [1, 2, 3, 8, 7, 6, 5, 0x0C, 4, 0x0A, 0x0B, 0x0D, 9, 0x0E, 0x0F, 0x10]
/-- The cause that counts of those that hold a wait up: the nearest to the medium, 0 for none (R223). -/
def nearest (causes : List Nat) : Nat := (causeOrder.find? causes.contains).getD 0

/-- Data lands at a place; poison never reaches host memory: the item fails instead (R152, R170). -/
def State.landPlace (s : State) (c : Nat) (p : Place) (bs : Bytes) (tags : BitVec 16 × BitVec 16) (poison : Option Arrival) : State :=
  let n := bs.length
  match p with
  | .core d a => s.coreWrite d 0 a bs tags poison
  | .region num copy a tier =>
    match s.coreJob c with
    | none => s
    | some j =>
      let k := (j.key, num, copy)
      let s := (s.useFrames (.region j.key num copy) (tier != 0) a n).1.modTiers fun t => { t with
        regions := upsert t.regions k [] fun m => Memory.writeN m a bs
        regionPoison := (t.regionPoison.filter fun r => !(r.1 == k && decide (a ≤ r.2.1) && decide (r.2.1 + r.2.2.1 ≤ a + n))) ++
          (match poison with | some p => [(k, a, n, p)] | none => []) }
      let s := (s.count 1 c 5 (partialWords a n)).attributeRun c tags 38 (partialWords a n)
      if tier = 0 then s else s.accountAs j tags 2 n
  | .host a => match poison with
    | some x => s.noteServed c (arrivalStatus x)
    | none => (s.watched 4 0 5 true a n (some tags)).modHost fun h => { h with mem := Memory.writeN h.mem a bs }
  | .weights _ => s
  | .peer _ _ => s

-- Moves to PEER (R170, R351)

/-- Bytes of a source block by `PFMT` (R170). -/
def pfmtBlock (f : Nat) : Nat := match f with | 1 => 128 | 2 => 64 | 3 => 33 | 4 => 17 | 5 => 528 | _ => 1
/-- One source block in its link form, with the saturations of its narrowing. -/
def linkBlock (c f : Nat) (b : Bytes) : Bytes × List Sat :=
  match f with
  | 1 => narrowRow 3 true (rowVals 0 false b 32)
  | 2 => narrowRow 3 true (rowVals 1 false b 32)
  | 5 =>
    let p := statePartial b
    (partialRecord c (field b 0 2) (field b 2 1) (field b 3 1) p, (narrowRow 3 true (p.o.map ofF32)).2)
  | _ => (b, [])
/-- A row in its link form. -/
def linkRow (c f : Nat) (b : Bytes) : Bytes × List Sat :=
  let n := pfmtBlock f
  let r := (List.range (b.length / n)).map fun i => linkBlock (c + i) f (slice b (i * n) n)
  ((r.map (·.1)).flatten, (r.map (·.2)).flatten)

/-- The values of a source block that its link form narrows to E4M3 under a block scale (R203). -/
def linkVals (f : Nat) (b : Bytes) : List Val :=
  match f with
  | 1 => rowVals 0 false b 32
  | 2 => rowVals 1 false b 32
  | 5 => (statePartial b).o.map ofF32
  | _ => []
/-- The narrowings of a row's blocks join the sums of the core whose move engine makes them (R203). -/
def State.linkSums (s : State) (c f : Nat) (b : Bytes) : State :=
  let n := pfmtBlock f
  ((List.range (b.length / n)).map fun i => blocks32 (linkVals f (slice b (i * n) n))).flatten.foldl
    (fun s vs => s.addConv c 3 vs (rowVals 3 true (narrowRow 3 true vs).1 vs.length)) s

/-- The space code of an address register value. -/
def spaceOf (v : BitVec 48) : Nat := v.toNat / 2 ^ 44

/-- A move fires (R149, R169, R170): it checks its spaces, reads its source, gives `XS`, and is in flight until its data
arrives. -/
def State.issueMove (s : State) (c : Nat) (q : QEntry) (rows len ss ds pf : Nat) (xs : KSync) : State :=
  let src := q.reg 0
  let dst := q.reg 1
  let peer := spaceOf dst == 5
  let block := pfmtBlock pf
  let wire := if peer then len / block * (match pf with | 1 => 33 | 2 => 33 | 3 => 33 | 4 => 17 | _ => 160) else len
  let srcs := (List.range rows).map fun i => s.place c src (i * ss) len
  let dsts := (List.range rows).map fun i => s.place c dst (i * ds) wire
  let reg := fun i => BitVec.ofNat 48 (dst.toNat + i * ds)
  if srcs.any (·.isNone) || dsts.any (·.isNone) || spaceOf src == 5 || spaceOf dst == 3 ||
     (spaceOf src == 3 && !(spaceOf dst == 0 || spaceOf dst == 1)) || peer != (pf != 0) || (peer && len % block != 0)
  then s.illegal c q else
  let ps := srcs.filterMap id
  let data := ps.map fun p => s.readPlace c p len
  let poison := data.foldl (fun a d => orPoison a d.2) none
  let seen := ps.foldl (fun (x : State × List Nat) p => let r := x.1.seePlace c p len q.tags; (r.1, x.2 ++ [r.2])) (s, [])
  let s := seen.1.used
  let sent := data.map fun d => if peer then linkRow s.free pf d.1 else (d.1, [])
  let s := if peer then ((data.foldl (fun s d => s.linkSums c pf d.1) s).countSats c 3 q.tags ((sent.map (·.2)).flatten)).used else s
  let s := s.modCore c fun k => { k with
    nextMove := k.nextMove + 1
    moves := k.moves ++ [{ num := k.nextMove, word := q.word, pc := q.pc, regs := q.regs, layer := q.layer, oper := q.oper
                           chunks := (sent.zipIdx).map fun (d, i) => (reg i, d.1), poison := poison
                           uses := ((ps ++ dsts.filterMap id).filterMap fun p => p.entry (((s.coreJob c).map (·.key)).getD 0)).eraseDups
                           cause := nearest seen.2 }] }
  s.syncSignal c q xs

/-- The references of a `LEAFRD` list, or none when one of them is an illegal operation (R172). -/
def State.leafRefs (s : State) (inv : Invocation) (j : Job) (raw : Bytes) (n : Nat) : Option (List LeafRead) :=
  let spaces := s.attended inv j
  (List.range n).mapM fun i =>
    let r := field raw (8 * i) 8
    let sel := bits r 47 40
    let cup := bits r 55 48
    let base : LeafRead := { pot := j.pot, layer := bits r 39 24, head := bits r 23 16, index := r % 2 ^ 15 }
    if bit r 15 || bits r 63 56 != 0 || (sel != 0xFF && cup != 0) then none
    else if sel = 0xFF then
      match s.cup? cup with
      | some k => if k.pot == j.pot && decide (base.index < k.sealedLeaves)
          then some { base with space := k.tail, tail := true } else none
      | none => none
    else if 64 ≤ sel then none
    else
      let id := spaces.getD sel 0xFFFFFFFF
      if id = 0xFFFFFFFF then none else
      let pins := if inv.item = 0xFFFFFFFF then (s.pot j.pot).loop.pinned else j.gens
      let gen := match pins.find? fun p => p.1 == id && p.2.1 == base.layer with
        | some p => p.2.2
        | none => ((s.corpus? id).bind fun k => k.gens[base.layer]?).getD 0
      some { base with space := id, gen := gen }

/-- `LEAFRD` fires (R172): its list lies in a space a move may read, its pages are read by the union read. -/
def State.issueLeafrd (s : State) (c : Nat) (q : QEntry) (n : Nat) : State :=
  match (s.core c).run, s.coreJob c, s.place c (q.reg 0) 0 (8 * n), inCore (q.reg 1) (18432 * n) with
  | some inv, some j, some p, some _ =>
    if spaceOf (q.reg 0) == 5 then s.illegal c q else
    match s.leafRefs inv j (s.readPlace c p (8 * n)).1 n with
    | none => s.illegal c q
    | some refs =>
      let num := (s.core c).nextMove
      let s := (s.seePlace c p (8 * n) q.tags).1.modCore c fun k => { k with
        nextMove := k.nextMove + 1
        moves := k.moves ++ [{ num := num, word := q.word, pc := q.pc, regs := q.regs, layer := q.layer, oper := q.oper, leaves := List.range n }] }
      refs.zipIdx.foldl (fun s (r, i) => s.startRead { r with movs := [(c, num, i)] }) s
  | _, _, _, _ => s.illegal c q

/-- The payload format of a move to `PEER` (R170, Table 14.8). -/
def moveLfmt (o : KOp) : Nat :=
  match (match o with | .mov o => o.pfmt.toNat | .mov2d o => o.pfmt.toNat | _ => 0) with
  | 4 => 2
  | 5 => 3
  | _ => 1
/-- A move to `PEER` becomes one transfer per row: the last one carries the header's counter and count (R345, DEDUCED, log 31). -/
def State.sendMove (s : State) (c : Nat) (m : Move) : State :=
  match (s.core c).run, s.coreJob c with
  | some inv, some j =>
    let member := ((m.regs.getD 1 0).toNat % 2 ^ 44) / 2 ^ 41
    match s.portOf member with
    | none => s.abortJob j.key 0x22
    | some port =>
      let h := m.word.hdr
      let n := m.chunks.length
      let (s, tags) := m.chunks.zipIdx.foldl (fun (a : State × List (Nat × Nat)) (ch, i) =>
        let last := decide (i + 1 = n) && h.sen
        let d : XferDesc := { kind := 1, object := 0, total := ch.2.length, target := ch.1.toNat % 2 ^ 41
                              notifyTk := if last then h.stk else 0, ordinal := inv.ordinal, notifyCount := if last then sigN h else 0 }
        let (s, tag) := a.1.beginXfer port member { desc := d, job := j.key, item := inv.item, core := some (c, m.num), tc := 3, data := ch.2,
                                                     lfmt := moveLfmt m.word.op, tags := { jobId := j.jobId, layer := m.layer, oper := m.oper } }
        (s, a.2 ++ [(port, tag)])) (s, [])
      s.modCore c fun k => { k with moves := k.moves.map fun x => if x.num == m.num then { x with peers := tags, chunks := [] } else x }
  | _, _ => s

/-- The data of a move arrives (R152, R170, R171). -/
def State.arriveMove (s : State) (c : Nat) (m : Move) (how : Arrival) : State :=
  let src := m.regs.getD 0 0
  let dst := m.regs.getD 1 0
  let poison := orPoison m.poison (if how == .good || spaceOf src == 4 then none else some how)
  let tags := (m.layer, m.oper)
  let total := (m.chunks.map (·.2.length)).sum
  let s := s.count 1 c 4 total
  if spaceOf dst == 5 then
    match poison with
    | some x => (s.noteServed c (arrivalStatus x)).endMove c m.num c
    | none => s.sendMove c m
  else
    let to_ := match s.place c dst 0 0 with | some (.core d _) => d | _ => c
    let s := m.chunks.foldl (fun s ch => match s.place c ch.1 0 ch.2.length with
      | some p => s.landPlace c p ch.2 tags poison
      | none => s) s
    let s := if spaceOf src == 3 then s.modCore to_ fun k => { k with
        run := k.run.map fun r => { r with poured := r.poured ++ ((m.chunks.zipIdx.filter fun (ch, _) => decide (ch.1.toNat % 2 ^ 25 < 0x1200000)).map fun (ch, i) =>
          (ch.1.toNat % 2 ^ 25, src.toNat % 2 ^ 44 + i * (match m.word.op with | .mov2d o => 8 * o.sstr.toNat | _ => 0), ch.2.length)) } }
      else s
    s.endMove c m.num to_

end Sys2Proof.Machine
end

