-- ==== Sys2Proof/Machine/KVec.lean ====
section
/-! DEFINITION. The vector unit: operands, the operations of Table 7.9, and the write of their result (R148, R167, R168, R448). -/

namespace Sys2Proof.Machine

/-- What a vector operation forms: the values of D, bytes written to B, bytes written to D in place of values. -/
structure VResult where
  vals : List Val := []
  toB : Bytes := []
  raw : Option Bytes := none
deriving DecidableEq, Repr

def vfp (l : List (BitVec 32)) : List Val := l.map ofF32

/-- D = A + B (VADD). -/
def vAdd (c : Nat) (a b : List (BitVec 32)) : List (BitVec 32) := (a.zip b).zipIdx.map fun ((x, y), i) => f32Add c i x y
/-- D = A × B (VMUL). -/
def vMul (c : Nat) (a b : List (BitVec 32)) : List (BitVec 32) := (a.zip b).zipIdx.map fun ((x, y), i) => f32Mul c i x y
/-- D = A × B + D, rounded once (VFMA). -/
def vFma (c : Nat) (a b d : List (BitVec 32)) : List (BitVec 32) := ((a.zip b).zip d).zipIdx.map fun (((x, y), z), i) => f32Fma c i x y z
/-- D = max(A, B) (VMAX). -/
def vMax (c : Nat) (a b : List (BitVec 32)) : List (BitVec 32) := (a.zip b).zipIdx.map fun ((x, y), i) => f32Max c i x y
/-- D = min(A, B) (VMIN). -/
def vMin (c : Nat) (a b : List (BitVec 32)) : List (BitVec 32) := (a.zip b).zipIdx.map fun ((x, y), i) => f32Min c i x y
/-- A `COND` B on FP32 values: EQ, NE, LT, LE, GT, GE (VCMP). -/
def vCond (cond : Nat) (a b : BitVec 32) : Bool :=
  let x := ofF32 a
  let y := ofF32 b
  match cond with
  | 0 => x.eq y
  | 1 => !x.eq y
  | 2 => x.lt y
  | 3 => x.le y
  | 4 => y.lt x
  | _ => y.le x
def vCmp (cond : Nat) (a b : List (BitVec 32)) : List (BitVec 32) :=
  (a.zip b).map fun (x, y) => if vCond cond x y then 0x3F800000 else 0
/-- D = A where B ≠ 0, else `IMM` (VSEL). -/
def vSel (imm : BitVec 32) (a b : List (BitVec 32)) : List (BitVec 32) :=
  (a.zip b).map fun (x, y) => if (ofF32 y).eq (.fin false 0 0) then imm else x
/-- D = function of A (VEXP, VLN, VRCP, VRSQ, VTANH). -/
def vFun (c : Nat) (f : Nat → Nat → BitVec 32 → BitVec 32) (a : List (BitVec 32)) : List (BitVec 32) :=
  a.zipIdx.map fun (x, i) => f c i x
/-- D[0] = maximum of A (VRMAX). -/
def vRmax (c : Nat) : List (BitVec 32) → BitVec 32
  | [] => 0
  | x :: l => l.zipIdx.foldl (fun m (y, i) => f32Max c i m y) x
/-- VPART: m′, s′, ρ and exp(A − m′). -/
def vPart (c : Nat) (m s : BitVec 32) (a : List (BitVec 32)) : BitVec 32 × BitVec 32 × BitVec 32 × List (BitVec 32) :=
  let m' := a.zipIdx.foldl (fun m (y, i) => f32Max c i m y) m
  let rho := f32Exp c 2000000 (f32Sub c 2000001 m m')
  let e := a.zipIdx.map fun (x, i) => f32Exp c (3000000 + i) (f32Sub c (5000000 + i) x m')
  (m', sumFree c (ofF32 (f32Mul c 2000002 s rho) :: vfp e), rho, e)

/-- This module's cups of a pot that run an image, by cup index: the rows of its `LOGITS` (assumption log 48). -/
def State.stepCups (s : State) (pot image : Nat) : List Cup :=
  (List.range 256).filterMap fun i => s.cups.find? fun c => c.idx == i && c.pot == pot && c.home.isNone && c.image == image
/-- Token rows of a step's pass of an image: a chunk per prefilling cup, else one per cup (R257). -/
def State.stepRows (s : State) (pot image : Nat) : Nat :=
  ((s.stepCups pot image).map fun c => if c.phase == .prefill then c.chunk else 1).sum
/-- The cup of row `r` of a `LOGITS` invocation of an image. -/
def State.rowCup (s : State) (pot image r : Nat) : Option Cup := (s.stepCups pot image)[r]?
/-- Tokens of a corpus a cup attends (R67). -/
def State.cupBase (s : State) (c : Cup) : Nat :=
  (c.corpus.bind fun id => s.corpora.find? (·.id == id)).elim 0 (·.tokens)
/-- Tokens of a cup's own tail, with the chunk that the running step processes. -/
def Cup.tailTokens (c : Cup) : List Nat := c.prompt.take (c.processed + c.chunk) ++ c.out

/-- VSAMPLE's seed, position and penalty tokens (R167): the seed of the block B, or for 0 the one chosen for the cup (R74); position and
tokens of the row's cup in a `LOGITS` invocation, else from `IMM`. -/
def State.sampleArgs (s : State) (inv : Invocation) (pot : Nat) (imm : BitVec 32) (blk : Bytes) : Option (Nat × Nat × List Nat) :=
  let sd := field blk 0x38 8
  if inv.kind = 5 then
    if imm.toNat / 256 ≠ 0 ∨ inv.rows ≤ imm.toNat % 256 then none
    else match s.rowCup pot inv.image (imm.toNat % 256) with
      | some c => some (if sd = 0 then c.seed else sd, s.cupBase c + c.tailTokens.length, c.tailTokens)
      | none => some ((Config.freeWord s.free 0).toNat, (Config.freeWord s.free 1).toNat % 2 ^ 32, [])
  else some (if sd = 0 then (Config.freeWord s.free 0).toNat else sd, imm.toNat, [])

/-- Bytes of B that an operation reads or writes (R167). -/
def vecBBytes (op : VecOp) (o : VOps) (n : Nat) : Nat :=
  match op with
  | .vtopk => 4 * (o.imm.toNat % 8192 + 1)
  | .vpart => 16
  | .vsample => 64
  | _ => if o.bimm || vecNoB op then 0 else rowBytes o.afmt.toNat o.blk n
/-- Bytes of A. -/
def vecABytes (op : VecOp) (o : VOps) (n : Nat) : Nat :=
  if op = .vmerge then n * (if o.afmt = 3 then 160 else 528) else rowBytes o.afmt.toNat o.blk n
/-- Bytes of D, given the alternatives of a sampling block. -/
def vecDBytes (op : VecOp) (o : VOps) (n alts : Nat) : Nat :=
  match op with
  | .vmerge => 528
  | .vsample => 8 + 8 * alts
  | .vtopk => rowBytes o.dfmt.toNat o.blk (o.imm.toNat % 8192 + 1)
  | .vsum => rowBytes o.dfmt.toNat o.blk 1
  | .vrmax => rowBytes o.dfmt.toNat o.blk 1
  | _ => rowBytes o.dfmt.toNat o.blk n

/-- Two ranges coincide exactly or lie apart (R168). -/
def apart (a n b m : Nat) : Bool := (a == b && n == m) || decide (a + n ≤ b) || decide (b + m ≤ a) || n == 0 || m == 0

/-- The result of an operation over its operands as read (Table 7.9). -/
def vecResult (c : Nat) (op : VecOp) (o : VOps) (n : Nat) (aRaw bRaw dRaw : Bytes) (sample : Option (Nat × Nat × List Nat)) : VResult :=
  let exact := rowVals o.afmt.toNat o.blk aRaw n
  let a := exact.map toF32
  let b := if o.bimm then List.replicate n o.imm else (rowVals o.afmt.toNat o.blk bRaw n).map toF32
  match op with
  | .vadd => { vals := vfp (vAdd c a b) }
  | .vmul => { vals := vfp (vMul c a b) }
  | .vfma => { vals := vfp (vFma c a b ((rowVals o.dfmt.toNat o.blk dRaw n).map toF32)) }
  | .vmax => { vals := vfp (vMax c a b) }
  | .vmin => { vals := vfp (vMin c a b) }
  | .vcmp => { vals := vfp (vCmp o.cond.toNat a b) }
  | .vsel => { vals := vfp (vSel o.imm a b) }
  | .vcvt => { vals := exact }
  | .vexp => { vals := vfp (vFun c f32Exp a) }
  | .vln => { vals := vfp (vFun c f32Ln a) }
  | .vrcp => { vals := vfp (vFun c f32Rcp a) }
  | .vrsq => { vals := vfp (vFun c f32Rsq a) }
  | .vtanh => { vals := vfp (vFun c (fun c i => f32Tanh c i 2) a) }
  | .vsum => { vals := [ofF32 (sumFree c (vfp a))] }
  | .vrmax => { vals := [ofF32 (vRmax c a)] }
  | .vtopk =>
    let t := topK (o.imm.toNat % 8192 + 1) a
    { vals := t.map fun x => ofF32 x.1, toB := (t.map fun x => natLe 4 x.2).flatten }
  | .vpart =>
    let p := vPart c (BitVec.ofNat 32 (field bRaw 0 4)) (BitVec.ofNat 32 (field bRaw 4 4)) a
    { vals := vfp p.2.2.2, toB := natLe 4 p.1.toNat ++ natLe 4 p.2.1.toNat ++ natLe 4 p.2.2.1.toNat }
  | .vmerge =>
    let recs := (List.range n).map fun i =>
      if o.afmt = 3 then recordPartial (c + 1 + i) (slice aRaw (160 * i) 160) else statePartial (slice aRaw (528 * i) 528)
    { raw := some (stateBytes (field aRaw 0 2) (field aRaw 2 1) (field aRaw 3 1) (mergePartials c recs)) }
  | .vsample =>
    match sample with
    | some (seed, pos, tail) =>
      let (tok, prob) := sampleToken a bRaw seed pos tail
      { raw := some (tokenRecord tok prob (field bRaw 0x15 1)) }
    | none => {}

/-- Fires a vector instruction: checks of R168, operands read, result narrowed and written (R148, R167). -/
def State.fireVec (s : State) (c : Nat) (q : QEntry) (op : VecOp) (o : VOps) : State :=
  let n := o.n1.toNat + 1
  let k := s.core c
  let inv := k.run.getD {}
  let an := vecABytes op o n
  let bn := vecBBytes op o n
  let big := op == .vtopk && (decide (n < o.imm.toNat % 8192 + 1))
  match inCore (q.reg 1) an, inCore (if bn = 0 then 0 else q.reg 2) bn with
  | some a, some b =>
    let aRaw := s.coreRead c a an
    let bRaw := s.coreRead c b bn
    let dn := vecDBytes op o n (field bRaw 0x15 1)
    match inCore (q.reg 0) dn with
    | none => s.illegal c q
    | some d =>
      let sample := if op = .vsample then s.sampleArgs inv (((s.job? inv.job).map (·.pot)).getD 0) o.imm bRaw else none
      if big || !apart d dn a an || !apart d dn b bn || (op == .vsample && sample.isNone) then s.illegal c q else
      let r := vecResult s.free op o n aRaw bRaw (s.coreRead c d dn) sample
      let poison := orPoison (k.poisonIn a an) (orPoison (k.poisonIn b bn) (if op = .vfma then k.poisonIn d dn else none))
      let s := s.used
      let s := if r.toB.isEmpty then s else s.coreWrite c 6 b r.toB q.tags poison
      match r.raw with
      | some bs => s.coreWrite c 6 d bs q.tags poison
      | none =>
        let (s, cs, es, sats) := s.narrowRowK c o.dfmt.toNat o.blk (op == .vcvt) q.tags r.vals
        let s := s.coreWrite c 6 d (packCodes o.dfmt.toNat cs ++ es.map (BitVec.ofNat 8)) q.tags poison
        s.countSats c o.dfmt.toNat q.tags sats
  | _, _ => s.illegal c q

end Sys2Proof.Machine
end

