-- ==== Sys2Proof/Machine/KFire.lean ====
section
/-! DEFINITION. Firing: what each unit and the front end do with the instruction at their head, and the pump that fires
whatever can fire (R149 to R151, R159, R173 to R182, R271). A firing that cannot happen yet is `none`. -/

namespace Sys2Proof.Machine

/-- The signal of a fired instruction, unless it has just stopped its job. -/
def State.signalIf (s : State) (c : Nat) (q : QEntry) : State :=
  if (s.core c).run.isSome then s.hdrSignal c c q else s

-- Units

/-- The vector unit's head fires (R148, R167, R174). -/
def State.fireVector (s : State) (c : Nat) : Option State :=
  match (s.core c).qVector with
  | [] => none
  | q :: rest =>
    if tooMany q.word.hdr then some (s.illegal c q)
    else if !(s.core c).hdrReady q.word.hdr then none
    else
      let s := s.modCore c fun k => { k.hdrTake q.word.hdr with qVector := rest }
      some ((match q.word.op with | .vec op o => s.fireVec c q op o | _ => s).signalIf c q)

/-- The move engine's head fires (R149, R170, R172, R174). -/
def State.fireMover (s : State) (c : Nat) : Option State :=
  match (s.core c).qMove with
  | [] => none
  | q :: rest =>
    let dw : KSync := match q.word.op with | .mov o => o.dw | .leafrd o => o.dw | _ => {}
    if tooMany q.word.hdr then some (s.illegal c q)
    else if !(s.core c).hdrReady q.word.hdr then none
    else if !((s.core c).hdrTake q.word.hdr).syncReady dw then none
    else
      let s := s.modCore c fun k => { (k.hdrTake q.word.hdr).syncTake dw with qMove := rest }
      some (match q.word.op with
        | .mov o => s.issueMove c q 1 (o.len1.toNat + 1) 0 0 o.pfmt.toNat o.xs
        | .mov2d o => s.issueMove c q (o.rows1.toNat + 1) (o.row1.toNat + 1) (8 * o.sstr.toNat) (8 * o.dstr.toNat) o.pfmt.toNat {}
        | .leafrd o => s.issueLeafrd c q (o.count1.toNat + 1)
        | _ => s.signalIf c q)

/-- The word is `MM`. -/
def isMm (w : KWord) : Bool := match w.op with | .mm _ => true | _ => false

/-- The `KEEP` instruction that the next `MM` of a core continues (R140). -/
def Core.prevKeep (k : Core) : Option (Nat × Nat × Nat) :=
  match k.mms.getLast? with
  | some r => if (mmOps r.q).keep then some (r.q.shape.m, r.q.shape.n, (foldOf r.q).w) else none
  | none => k.keep

/-- The loader's head fires: a `NOP`, or the stationary token of an `MM`, whose checks are made (R149, R165). -/
def State.fireLoader (s : State) (c : Nat) : Option State :=
  match (s.core c).qLoader with
  | [] => none
  | q :: rest =>
    if tooMany q.word.hdr then some (s.illegal c q)
    else if isMm q.word && ((s.core c).mms.any fun r => decide (r.loaded < (foldOf r.q).passes)) then none
    else if !(s.core c).hdrReady q.word.hdr then none
    else if isMm q.word then
      let prev := (s.core c).prevKeep
      let s := s.modCore c fun k => k.hdrTake q.word.hdr
      if mmLegal q prev then
        some (s.modCore c fun k => { k with
          mms := k.mms ++ [{ q := q, num := k.nextMm, loaderOn := true, cont := prev.isSome }], nextMm := k.nextMm + 1, keep := none })
      else some (s.illegal c q)
    else some ((s.modCore c fun k => { k.hdrTake q.word.hdr with qLoader := rest }).signalIf c q)

/-- The arrays' head fires: a `NOP`, or the streaming token of the `MM` whose passes come next (R149). -/
def State.fireArrays (s : State) (c : Nat) : Option State :=
  match (s.core c).qArrays with
  | [] => none
  | q :: rest =>
    if isMm q.word then
      match (s.core c).mms.find? fun r => decide (r.landed < (foldOf r.q).passes) with
      | none => none
      | some r =>
        if r.arraysOn || r.loaded = 0 || !(s.core c).syncReady (mmOps q).xw then none
        else some (s.modCore c fun k => { k.syncTake (mmOps q).xw with
          mms := k.mms.map fun x => if x.num == r.num then { x with arraysOn := true } else x })
    else if tooMany q.word.hdr then some (s.illegal c q)
    else if !(s.core c).hdrReady q.word.hdr then none
    else some ((s.modCore c fun k => { k.hdrTake q.word.hdr with qArrays := rest }).signalIf c q)

/-- The oldest matrix instruction is complete and leaves: a `KEEP` holds its rows until its continuation, unless that is in progress
already, and gave its header signal as its last pass landed; any other gives it now (R140, R164). -/
def State.finishMm (s : State) (c : Nat) (r : MmRun) : State :=
  let keep := (mmOps r.q).keep
  let s := s.modCore c fun k => { k with
    mms := k.mms.drop 1, qSpout := k.qSpout.drop 1
    keep := if keep && (k.mms.drop 1).isEmpty then some (r.q.shape.m, r.q.shape.n, (foldOf r.q).w) else k.keep }
  if keep then s else s.signalIf c r.q

/-- The spout's head fires: a `NOP`, a `KEEP` instruction that has landed, or the destination credit of an `MM` (R149, R164). -/
def State.fireSpout (s : State) (c : Nat) : Option State :=
  match (s.core c).qSpout with
  | [] => none
  | q :: rest =>
    if isMm q.word then
      match (s.core c).mms with
      | [] => none
      | r :: _ =>
        if (mmOps q).keep then (if r.landed = (foldOf r.q).passes then some (s.finishMm c r) else none)
        else if r.spoutOn || decide (r.landed < (foldOf r.q).kc) || !(s.core c).syncReady (mmOps q).dw then none
        else some (s.modCore c fun k => { k.syncTake (mmOps q).dw with
          mms := k.mms.map fun x => if x.num == r.num then { x with spoutOn := true } else x })
    else if tooMany q.word.hdr then some (s.illegal c q)
    else if !(s.core c).hdrReady q.word.hdr then none
    else some ((s.modCore c fun k => { k.hdrTake q.word.hdr with qSpout := rest }).signalIf c q)

-- Semaphores (R175, R271)

def State.sem (s : State) (p n : Nat) : Sem := (s.pot p).sems[n]?.getD {}
def State.modSem (s : State) (p n : Nat) (f : Sem → Sem) : State :=
  s.modPot p fun q => { q with sems := q.sems.setIfInBounds n (f (q.sems[n]?.getD {})) }
/-- Units a job holds of a semaphore. -/
def Sem.holds (m : Sem) (job : Nat) : Nat := lookupD m.held job 0

/-- The front-end word of a core is done: the program counter moves past it. -/
def State.frontDone (s : State) (c : Nat) (q : QEntry) : State :=
  (s.modCore c fun k => { k.hdrTake q.word.hdr with front := none }.advance).signalIf c q

/-- A bank is busy under `KEEP`: its rows wait for the continuation, or the continuation has not drained them (R142). -/
def Core.keptBusy (k : Core) : Bool := k.keep.isSome || k.mms.any fun r => r.cont || (mmOps r.q).keep
/-- The running job may lend to a pre-empted holder: not when that one waits for this job's own units (R271). -/
def State.mayLend (s : State) (p job holder : Nat) : Bool :=
  match (s.pot p).loan with | some (w, h) => !(h == job && w == holder) | none => true
/-- `SEMACQ` at the front: granted in arrival order, lent to a pre-empted holder once its units stand as at a `POINT`, or waiting
(R175, R271). -/
def State.fireSemacq (s : State) (c : Nat) (q : QEntry) (sem units : Nat) : Option State :=
  match (s.core c).run, s.coreJob c with
  | some inv, some j =>
    let p := j.pot
    let m := s.sem p sem
    let mine := fun w : Nat × Nat × Nat => w.1 == c
    if !(m.waiting.any mine) then some (s.modSem p sem fun m => { m with waiting := m.waiting ++ [(c, inv.job, units)] })
    else if (m.waiting.head?.map mine).getD false && decide (units ≤ m.count) then
      if 12 ≤ (s.potCores p).length ∧ (s.core c).keptBusy = true then some (s.illegal c q) else
      some ((s.modSem p sem fun m => { m with
        count := m.count - units, waiting := m.waiting.drop 1, held := upsert m.held inv.job 0 fun u => u + units }).frontDone c q)
    else
      match m.held.find? fun h => decide (0 < h.2) && (match s.job? h.1 with | some x => x.phase == .preempted | none => false) with
      | some h =>
        if !s.mayLend p inv.job h.1 || !(s.core c).unitsIdle then none else
        if (s.core c).keep.isSome then some (s.illegal c q) else
        let s := (s.modSem p sem fun m => { m with waiting := m.waiting.filter fun w => !mine w }).writeRestart c q.pc
        let s := (s.modCore c fun k => { k with front := none, parked := true }).modPot p fun y => { y with
          switchDue := true, loan := some (inv.job, h.1) }
        some (s.settlePoint p)
      | none => none
  | _, _ => none

/-- `SEMREL` at the front (R175, R271): the units return; a release by the holder of a loan ends it at its next point. -/
def State.fireSemrel (s : State) (c : Nat) (q : QEntry) (sem units : Nat) : State :=
  match (s.core c).run, s.coreJob c with
  | some inv, some j =>
    let p := j.pot
    if 65535 < (s.sem p sem).count + units then s.illegal c q else
    let s := s.modSem p sem fun m => { m with
      count := m.count + units, held := (upsert m.held inv.job 0 fun u => u - units).filter fun h => decide (0 < h.2) }
    let s := match (s.pot p).loan with
      | some (_, h) => if h = inv.job then s.modPot p fun y => { y with switchDue := true } else s
      | none => s
    s.frontDone c q
  | _, _ => s

-- Control (R177 to R182)

/-- `POINT` fires (R179): a busy bank is illegal; the restart record is written, shapes and configurations become invalid, and
the core stays when a switch, a stop or a hold is due (R262, R268, R404). -/
def State.firePoint (s : State) (c : Nat) (q : QEntry) : State :=
  if (s.core c).keep.isSome then s.illegal c q else
  let s := s.frontDone c q
  match s.coreJob c with
  | none => s
  | some j =>
    let s := s.writeRestart c (s.core c).pc
    let s := s.modCore c fun k => { k with
      sh := Vector.replicate 8 {}, sc := Vector.replicate 8 {}
      run := k.run.map fun r => { r with wrote := false, pointed := true }, parked := s.parkDue j.pot }
    s.settlePoint j.pot

/-- What follows an invocation that has ended on every core of a job (R182, R257, Table 3.2): a `RUN` item completes and the next
one starts; `LAYER_PRE` is followed by `LAYER_POST`, a step's layer by the next one or by `LOGITS`; an append's record can be appended; the rest waits for its
step or stage to close. -/
def State.invocationEnded (s : State) (key : Nat) (inv : Invocation) : State :=
  let s := (s.coresOf key).foldl (fun s c => s.modCore c Core.idle) s
  match s.job? key with
  | none => s
  | some j =>
    let layers := ((s.image? inv.image).map fun im => field im.header 0x14 2).getD 0
    match inv.kind with
    | 1 =>
      let s := s.complete key inv.item id
      if (s.job? key).isSome then s.nextRun key (j.items.length + 1)
      else (s.modPot j.pot fun q => { q with switchDue := false, drainRetry := false }).reschedule j.pot
    | 2 => if j.type = 0x07 then s.modJob key fun j => { j with encoded := some inv.item } else s
    | 3 => s.invoke j inv.image inv.item 4 inv.layer inv.rows inv.tokens []
    | 4 => if j.type = 0x03 then s
      else if inv.layer + 1 < layers then s.invoke j inv.image inv.item 3 (inv.layer + 1) inv.rows inv.tokens []
      else s.invoke j inv.image inv.item 5 0xFFFF (s.stepCups j.pot inv.image).length inv.tokens []
    | 5 => match (s.pot j.pot).loop.passes with
      | (im, rows) :: rest => (s.modPot j.pot fun p => { p with loop := { p.loop with passes := rest } }).invoke j im inv.item 3 0 rows rows []
      | [] => s
    | _ => s

/-- `END` fires (R182). -/
def State.fireEnd (s : State) (c : Nat) (q : QEntry) : State :=
  let s := (s.modCore c fun k => { k.hdrTake q.word.hdr with front := none, run := k.run.map fun r => { r with ended := true } }).signalIf c q
  match (s.core c).run, s.coreJob c with
  | some inv, some j =>
    if (s.coresOf inv.job).all fun d => match (s.core d).run with | some r => r.ended | none => true
    then s.invocationEnded inv.job inv
    else s.settlePoint j.pot
  | _, _ => s

/-- `GROUP` fires (R155, R177, R416). -/
def State.fireGroup (s : State) (c : Nat) (q : QEntry) (layer oper : BitVec 16) : State :=
  match (s.core c).run, s.coreJob c with
  | some inv, some j =>
    if inv.wrote && ((s.image? inv.image).map (·.restartable)).getD false then s.illegal c q else
    let s := (s.modCore c fun k => { k with layer := layer, oper := oper }).frontDone c q
    if s.obs.groupEn then
      s.trace (16 + c) 0x06 j.pot (BitVec.ofNat 64 (layer.toNat + 2 ^ 16 * oper.toNat + 2 ^ 32 * j.jobId))
    else s
  | _, _ => s

/-- The register that `ADDR` makes: `VALUE` + ordinal × `OSTR` × 64 (R181). -/
def addrValue (value : BitVec 48) (ostr : BitVec 16) (ordinal : Nat) : BitVec 48 :=
  BitVec.ofNat 48 (value.toNat + ordinal * ostr.toNat * 64)
/-- The register after `ADDRI`: its offset moves by a signed count, its space stays (R181). -/
def addriValue (v : BitVec 48) (delta : BitVec 32) : BitVec 48 :=
  BitVec.ofNat 48 (v.toNat / 2 ^ 44 * 2 ^ 44 + (((v.toNat % 2 ^ 44 : Nat) : Int) + delta.toInt).emod (2 ^ 44) |>.toNat)

def Core.setAd (k : Core) (r : BitVec 4) (v : BitVec 48) : Core := { k with ad := k.ad.setIfInBounds r.toNat v }
/-- `SHAPE` and `STRIDE` (R162). -/
def Core.setShape (k : Core) (i : BitVec 3) (m1 k1 n1 : BitVec 16) : Core := { k with
  sh := k.sh.setIfInBounds i.toNat { valid := true, m := m1.toNat + 1, k := k1.toNat + 1, n := n1.toNat + 1 } }
def Core.setStride (k : Core) (i : BitVec 3) (a b d : BitVec 16) : Core := { k with
  sh := k.sh.setIfInBounds i.toNat { (k.sh[i.toNat]?.getD {}) with sstr := a.toNat, xstr := b.toNat, dstr := d.toNat } }
/-- `SPOUT` and `SPOUTV` (R163). -/
def Core.setSpout (k : Core) (o : SpoutOps) : Core := { k with sc := k.sc.setIfInBounds o.sci.toNat { valid := true, o := o } }
def Core.setSpoutv (k : Core) (i : BitVec 3) (scalar cap : BitVec 32) : Core := { k with
  sc := k.sc.setIfInBounds i.toNat { (k.sc[i.toNat]?.getD {}) with scalar := scalar, cap := cap } }

/-- A front-end word that only changes the core's own registers: its wait is taken, then the change is made, then its signal is
given (R151, R159). -/
def State.regFire (s : State) (c : Nat) (q : QEntry) (f : Core → Core) : State :=
  (s.modCore c fun k => { f (k.hdrTake q.word.hdr) with front := none }.advance).signalIf c q

/-- The front end's instruction fires when its header wait and its own condition allow (R159). -/
def State.fireFront (s : State) (c : Nat) : Option State :=
  match (s.core c).front, (s.core c).run with
  | some q, some inv =>
    let k := s.core c
    if tooMany q.word.hdr then some (s.illegal c q)
    else if !k.hdrReady q.word.hdr then none
    else match q.word.op with
      | .nop _ => some (s.frontDone c q)
      | .group l o => some (s.fireGroup c q l o)
      | .point => if k.unitsIdle then some (s.firePoint c q) else none
      | .fence m => if k.fenceOk m then some (s.frontDone c q) else none
      | .loop count1 body => some (s.regFire c q fun k => { k with
          loops := { start := q.pc + 1, left := count1.toNat, body := body.toNat } :: k.loops })
      | .endInv => if k.unitsIdle then some (s.fireEnd c q) else none
      | .addr r v o => some (s.regFire c q fun k => k.setAd r (addrValue v o inv.ordinal))
      | .addri r d => some (s.regFire c q fun k => k.setAd r (addriValue (k.ad[r.toNat]?.getD 0) d))
      | .shape i m k' n => some (s.regFire c q fun k => k.setShape i m k' n)
      | .stride i a b d => some (s.regFire c q fun k => k.setStride i a b d)
      | .spout o => some (s.regFire c q fun k => k.setSpout o)
      | .spoutv i v cap => some (s.regFire c q fun k => k.setSpoutv i v cap)
      | .tkset t v => if k.counterBusy t then none else some (s.regFire c q fun k => { k with tk := k.tk.setIfInBounds t.toNat v })
      | .semacq n u => s.fireSemacq c q n.toNat u.toNat
      | .semrel n u => some (s.fireSemrel c q n.toNat u.toNat)
      | .vec _ _ => none
      | .mm _ => none
      | .mov _ => none
      | .mov2d _ => none
      | .leafrd _ => none
  | _, _ => none

-- The pump

/-- One unit of one core fires. -/
def State.fireUnit (s : State) (c : Nat) : Option State :=
  (s.fireFront c).orElse fun _ => (s.fireLoader c).orElse fun _ => (s.fireArrays c).orElse fun _ =>
    (s.fireSpout c).orElse fun _ => (s.fireVector c).orElse fun _ => s.fireMover c
/-- One unit of a core that runs and is not parked fires; the time stays with its job (R176). -/
def State.fireCore (s : State) (c : Nat) : Option State :=
  match (s.core c).run with
  | none => none
  | some r => if (s.core c).parked || s.takingOver c then none else
    (s.fireUnit c).map fun t => t.modJob r.job fun j => { j with firedAt := t.time }

/-- Fires everything that can fire, on every core, in program order within each unit (R150). -/
def State.pump : Nat → State → State
  | 0, s => s
  | n + 1, s =>
    match (List.range 48).findSome? s.fireCore with
    | some s' => State.pump n s'
    | none => s
/-- A bound that no run of firings passes: each one empties a queue place, a wait or a part of a matrix instruction. -/
def pumpFuel : Nat := 65536
def State.pumped (s : State) : State := s.pump pumpFuel

/-- What every command that may end work does last: what can fire fires, and a pot without a running job chooses again
(R264, R265). -/
def State.tidy (s : State) : State :=
  let s := s.pumped
  let s := (List.range 8).foldl (fun s p =>
    if !s.potEnabled p then s
    else if (s.pot p).running.isNone && !(s.activeRings p).isEmpty then s.reschedule p
    else if s.coresOn && ((s.pot p).st == 1 || (s.pot p).st == 2) then (s.grant p).grantTasks p else s) s
  (List.range 8).foldl (fun s p => s.settleStop p) s

end Sys2Proof.Machine
end

