-- ==== Sys2Proof/Machine/JobBase.lean ====
section
/-! DEFINITION. What the admission of every job type shares: the descriptor's form, its items, the images it names
(R239 to R242, R247, R257), and the commands' way from a fetched job to its admission (R247, R248, R218). -/

namespace Sys2Proof.Machine

/-- The form of a job type's descriptor (Tables 10.1, 10.3): items, item bytes, whether it names an image, its fields. -/
structure JobSpec where
  maxItems : Nat := 1
  itemSize : Nat := 0
  image : Bool := false
  fields : List (Nat × Nat) := []
deriving DecidableEq, Repr

/-- Table 10.3. -/
def jobSpec : Nat → Option JobSpec
  | 0x01 => some { fields := [(0x30, 16)] }
  | 0x02 => some { image := true }
  | 0x03 => some { image := true, fields := [(0x30, 30)] }
  | 0x04 => some { maxItems := 256, itemSize := 128, image := true, fields := [(0x30, 13), (0x40, 4)] }
  | 0x05 => some { maxItems := 256, itemSize := 32, fields := [(0x30, 13), (0x40, 4)] }
  | 0x06 => some { image := true, fields := [(0x30, 4), (0x38, 7), (0x40, 6), (0x48, 4)] }
  | 0x07 => some { maxItems := 65536, itemSize := 16, fields := [(0x30, 4)] }
  | 0x08 => some { maxItems := 65536, itemSize := 8, fields := [(0x30, 4)] }
  | 0x09 => some { maxItems := 256, itemSize := 32, fields := [(0x30, 4)] }
  | 0x0A => some { maxItems := 256, itemSize := 16, fields := [(0x30, 10), (0x3C, 8), (0x48, 8)] }
  | 0x0B => some { itemSize := 16, fields := [(0x30, 10), (0x3C, 8), (0x48, 8), (0x50, 3), (0x58, 8)] }
  | 0x0C => some { maxItems := 65536, itemSize := 24, fields := [(0x30, 4)] }
  | 0x0D => some { fields := [(0x30, 21), (0x48, 16)] }
  | 0x0E => some { fields := [(0x30, 4), (0x48, 8)] }
  | 0x0F => some { maxItems := 256, itemSize := 32, fields := [(0x30, 4)] }
  | 0x10 => some { maxItems := 256, itemSize := 16, fields := [(0x30, 4)] }
  | 0x11 => some { maxItems := 256, itemSize := 16, fields := [(0x30, 5)] }
  | 0x12 => some { fields := [(0x30, 4)] }
  | 0x13 => some { fields := [(0x30, 4)] }
  | 0x14 => some { fields := [(0x30, 1), (0x34, 4)] }
  | 0x15 => some { maxItems := 65536, itemSize := 16, image := true }
  | _ => none

/-- Every byte of the descriptor that no table assigns is zero (R8, R239). -/
def Job.zeroElsewhere (j : Job) (sp : JobSpec) : Bool :=
  j.f 0x01 1 < 4 && j.f 0x02 2 == 0 && j.f 0x1A 2 == 0 && j.f 0x29 7 == 0 &&
  (List.range 80).all fun i => (sp.fields.any fun f => decide (f.1 ≤ 0x30 + i) && decide (0x30 + i < f.1 + f.2)) || j.f (0x30 + i) 1 == 0

/-- The part of check 1 that every type shares (R8, R9, R239, R241, Table 10.14): form, items, buffers, fixed fields. -/
def Job.formOk (j : Job) : Bool :=
  match jobSpec j.type with
  | none => false
  | some sp => j.zeroElsewhere sp && decide (1 ≤ j.nItems) && decide (j.nItems ≤ sp.maxItems) && j.f 0x18 2 == sp.itemSize &&
    (sp.itemSize != 0 || j.f 0x10 8 == 0) && (sp.image || j.imageId == 0) && decide (j.bufs ≤ 16)

/-- An image that is on the module and not unloading (check 1 of Table 10.6, R449). -/
def State.liveImage (s : State) (id : Nat) : Option Image := s.images.find? fun im => im.id == id && !im.unloading

/-- The variant of an image that a pot would run holds an entry of each kind (R186, R257). -/
def State.hasEntries (s : State) (im : Image) (pot : Nat) (kinds : List Nat) : Bool :=
  match im.variantFor (s.potCores pot).length with
  | some v => kinds.all fun k => ((im.variants.getD v {}).entries.lookup k).isSome
  | none => false

/-- Item record `i` of a job in host memory (R242). -/
def State.itemRec (s : State) (j : Job) (i : Nat) : Option Bytes := s.hostRead (j.f 0x10 8 + j.f 0x18 2 * i) (j.f 0x18 2)
/-- Reads bytes that an item needs; zero length needs none. -/
def State.hostBytes (s : State) (a n : Nat) : Option Bytes := if n = 0 then some [] else s.hostRead a n

/-- The first check that fails, in order: the status of each, none where it passes (Table 10.6). -/
def firstFail (l : List (Bool × Nat)) : Option Nat := (l.find? fun c => !c.1).map (·.2)

/-- What a type's admission is: the whole job's first failing check, an item's own failure, its owned footprint, its
reservation and first work once admitted. -/
structure Admission where
  whole : Option Nat
  items : List (Nat × Nat)
  footprint : Nat

/-- The owned footprint of the regions of a job's image (R218), and of the saved working areas (R269). -/
def State.regionBytes (s : State) (im : Image) (pot : Nat) (core : Bool) : Nat :=
  let n := ((im.variantFor (s.potCores pot).length).map fun v => (im.variants.getD v {}).cores).getD 1
  ((im.regions.map fun r => if r.perCore then r.size * n else r.size).sum) +
    (if core && decide (12 ≤ (s.potCores pot).length) then 2 ^ 21 * n else 0)

/-- The regions of a job's image become owned entries (R187, R211). -/
def State.makeRegions (s : State) (j : Job) (im : Image) : State :=
  let n := ((im.variantFor (s.potCores j.pot).length).map fun v => (im.variants.getD v {}).cores).getD 1
  im.regions.foldl (fun s r =>
    (List.range (if r.perCore then n else 1)).foldl (fun s k =>
      s.allocOwned (r.tier != 0) { key := .region j.key r.number k, pot := j.pot, cls := .owned, size := r.size }) s) s

/-- A job is admitted (R247): its items exist, its place in the admission order is fixed, its queue wait counted; items that
fail a check of their own complete at once. -/
def State.markAdmitted (s : State) (j : Job) (footprint : Nat) : State :=
  let waited := (s.time - j.fetchedAt) * 1000
  let s := (s.count 2 j.pot 3 waited).count 3 (16 * j.pot + j.ring) 3 waited
  { s.modJob j.key fun j => { j with
      phase := .admitted, admitted := s.nextId, footprint := footprint, readyAt := s.time
      items := (List.range j.nItems).map fun i => { idx := i } } with nextId := s.nextId + 1 }
/-- Completes the items that failed a check of their own, in the order given (R247). -/
def State.failItems (s : State) (key : Nat) (l : List (Nat × Nat)) : State :=
  l.foldl (fun s (i, st) => s.complete key i fun it => it.fail st) s

/-- Checks, then waits for the footprint (R218) or admits and begins (R247). -/
def State.admitWith (s : State) (j : Job) (a : Admission) (begin_ : State → State) : State :=
  match a.whole with
  | some st => s.refuseJob j.key st
  | none =>
    if !s.footprintFits j.pot a.footprint then
      let s := if j.deferPosted then s else s.postDeferred j 0xFFFFFFFF
      s.modJob j.key fun j => { j with phase := .deferred, deferPosted := true }
    else begin_ ((s.markAdmitted j a.footprint).failItems j.key a.items)

/-- An earlier job of the same ring that is in flight (R248). -/
def State.earlier (s : State) (j : Job) : List Job := s.jobs.filter fun k => k.pot == j.pot && k.ring == j.ring && k.remote.isNone && decide (k.key < j.key)
/-- Some earlier job of its ring has not posted its `LAST` entry (R248). -/
def State.lastAwaited (s : State) (j : Job) : Bool :=
  !(s.earlier j).isEmpty || (s.heldLast j.pot).any fun e => e.sq == j.ring && decide (e.job < j.key)
/-- Jobs are admitted in PS0 and PS1 of a module that is ready (Table 16.10). -/
def State.admits (s : State) : Bool := s.boot.phase == .ready && decide (s.power.st ≤ 1)
/-- An earlier `ORDERED` job of the ring is not yet admitted: no later one is (R248). -/
def State.behindOrdered (s : State) (j : Job) : Bool :=
  (s.earlier j).any fun k => k.ordered && (k.phase == .fetched || k.phase == .ordered || k.phase == .deferred)

/-- A job command finds its job: fetched, of the type, in a pot that runs, not behind an `ORDERED` job. -/
def State.fetchedJob (s : State) (key : Nat) (isType : Job → Bool) : Option Job :=
  (s.job? key).filter fun j => j.phase == .fetched && isType j && (s.pot j.pot).st == 1 && s.admits && !s.behindOrdered j

-- Kind 1 grants (R344, R345)

/-- The region of an image that peers write to (R187). -/
def Image.receive (im : Image) : Option RegionDef := im.regions.find? (·.receive)
/-- The job a kind 1 transfer goes to: of the serving pot, with its `JOB_ID`, with a `RECEIVE` region, the oldest admitted (R345). -/
def State.receiver (s : State) (jobId : Nat) : Option (Job × RegionDef) :=
  (s.jobs.filter fun j => j.pot == s.servingPot && j.jobId == jobId && j.ready).foldl (fun best j =>
    match (s.image? j.imageId).bind Image.receive, best with
    | some r, none => some (j, r)
    | some r, some (k, _) => if j.admitted < k.admitted then some (j, r) else best
    | none, _ => best) none
/-- What is granted next of a transfer: 4 KiB to 1 MiB (R344). -/
def XferIn.nextGrant (x : XferIn) : Nat := clampNat 4096 1048576 (x.desc.total - x.granted)
/-- `XFER_READY` for the next bytes of a transfer. -/
def State.grantXfer (s : State) (port : Nat) (x : XferIn) : State :=
  let n := x.nextGrant
  (s.modPort port fun q => { q with inn := q.inn.map fun (y : XferIn) =>
    if y.tag == x.tag && !y.standing then { y with granted := y.granted + n, withheld := false, job := x.job } else y }).sendPkt port
      { type := 0x06, dst := (s.port port).ordinal, xfer := x.tag, arg := n, tags := x.tags }
/-- `NAK` of an announce. -/
def State.nakXfer (s : State) (port tag st : Nat) : State :=
  let tags := (s.port port).inTags tag
  (s.modPort port fun q => { q with inn := q.inn.filter fun y => !(y.tag == tag && !y.standing) }).sendPkt port
    { type := 0x09, dst := (s.port port).ordinal, xfer := tag, status := st, tags := tags }
/-- A kind 1 transfer meets its job: granted within the region, refused beyond it, withheld while no such job exists. -/
def State.decideWrite (s : State) (port : Nat) (x : XferIn) : State :=
  match s.receiver x.jobId with
  | none => s
  | some (j, r) => if r.size < x.desc.target + x.desc.total then s.nakXfer port x.tag 0x10 else s.grantXfer port { x with job := j.key }
/-- Withheld grants are decided anew after an admission (R345). -/
def State.regrant (s : State) : State :=
  (List.range 4).foldl (fun s n => ((s.port n).inn.filter (·.withheld)).foldl (fun s x => s.decideWrite n x) s) s

/-- Outside OPERATIONAL every job is denied (Table 16.9); else its admission begins. -/
def State.startAllowed (s : State) (j : Job) (start : State → Job → State) : State :=
  if s.sec.lifecycle == .operational then (start s j).regrant else s.refuseJob j.key 0x40

/-- A fetched job meets admission: an `ORDERED` one waits while earlier jobs of its ring are in flight (R248). -/
def State.jobAdmit (s : State) (key : Nat) (isType : Job → Bool) (start : State → Job → State) : State :=
  match s.fetchedJob key isType with
  | none => s
  | some j =>
    if j.ordered && s.lastAwaited j then s.modJob key fun j => { j with phase := .ordered }
    else (s.startAllowed j start).tidy
/-- A job command. -/
def State.jobCommand (s : State) (key type : Nat) (start : State → Job → State) : Out :=
  .next (s.jobAdmit key (fun j => j.type == type) start)

end Sys2Proof.Machine
end

