-- ==== Sys2Proof/Machine/JobsImage.lean ====
section
/-! DEFINITION. Brew images: load, checks and unload (R72, R184 to R188, R221, R379, R449). -/

namespace Sys2Proof.Machine

/-- A section table entry (R185). -/
structure Section where
  kind : Nat
  off : Nat
  len : Nat
  digest : Bytes
  reserved : Bool
deriving DecidableEq, Repr

def sectionsOf (im : Bytes) : List Section :=
  (List.range (field im 0x34 2)).map fun i =>
    let b := 0x100 + 64 * i
    { kind := field im b 2, off := field im (b + 8) 8, len := field im (b + 16) 8, digest := slice im (b + 32) 32
      reserved := field im (b + 2) 6 != 0 || field im (b + 24) 8 != 0 }
def Section.bytes (c : Section) (im : Bytes) : Bytes := slice im c.off c.len
def kindCount (l : List Section) (k : Nat) : Nat := (l.filter (·.kind == k)).length

/-- Check 1 of Table 7.15. -/
def imgCheck1 (im : Bytes) : Bool :=
  let n := field im 0x34 2
  let ss := sectionsOf im
  let model := bit (field im 0x0A 2) 1
  decide (256 ≤ im.length) && slice im 0 8 == ([0x4B, 0x4F, 0x45, 0x4C, 0x42, 0x52, 0x45, 0x57] : Bytes) && field im 8 2 == 1 &&
  decide (field im 0x0A 2 < 4) && slice im 0x38 200 == zeros 200 && decide (1 ≤ n) && decide (n ≤ 64) && decide (0x100 + 64 * n ≤ im.length) &&
  (ss.all fun c => !c.reserved && decide (1 ≤ c.kind) && decide (c.kind ≤ 4) && c.off % 64 == 0 &&
    decide (c.off + c.len ≤ im.length)) &&
  decide (1 ≤ kindCount ss 1) && decide (kindCount ss 1 ≤ 16) && decide (kindCount ss 2 ≤ 1) && decide (kindCount ss 3 ≤ 1) &&
  field im 0x20 8 == ((ss.find? (·.kind == 3)).map (·.len)).getD 0 &&
  (model || (field im 0x10 4 == 0 && field im 0x14 2 == 0 && field im 0x16 2 == 0 && field im 0x18 2 == 0 && field im 0x1A 2 == 0 &&
    field im 0x1C 4 == 0 && field im 0x28 8 == 0))

/-- Check 2: the digest of every section. -/
def imgCheck2 (im : Bytes) : Bool := (sectionsOf im).all fun c => sha3 (c.bytes im) == c.digest

/-- Check 3: limits. -/
def imgCheck3 (im : Bytes) : Bool :=
  let f := field im
  let q := f 0x16 2
  let h := f 0x18 2
  let e := f 0x36 2
  (!bit (f 0x0A 2) 1 || (decide (2 ≤ f 0x10 4) && decide (f 0x10 4 ≤ 262144) && decide (1 ≤ f 0x14 2) && decide (f 0x14 2 ≤ 512) &&
    decide (1 ≤ h) && decide (h ≤ 64) && decide (1 ≤ q) && decide (q ≤ 256) && q % h == 0 && decide (q / h ≤ 16) && f 0x1A 2 == 128)) &&
  decide (f 0x20 8 ≤ 640000000000) && decide (f 0x30 4 ≤ 20000000) && (e == 0 || (decide (64 ≤ e) && decide (e ≤ 4096) && e % 64 == 0))

/-- A variant section as stored (R186). -/
def variantOfBytes (b : Bytes) : Variant :=
  let words := field b 4 4
  { cores := field b 0 2
    entries := (List.range (field b 2 2)).map fun i => (field b (64 + 8 * i) 2, field b (64 + 8 * i + 4) 4)
    code := (List.range words).map fun i => BitVec.ofNat 128 (field b (192 + 16 * i) 16) }
/-- The rules of R186 on one variant section. -/
def variantOk (b : Bytes) : Bool :=
  let n := field b 2 2
  let words := field b 4 4
  let v := variantOfBytes b
  decide (192 ≤ b.length) && decide (1 ≤ v.cores) && decide (v.cores ≤ 48) && decide (1 ≤ n) && decide (n ≤ 16) && decide (1 ≤ words) &&
  decide (words ≤ 4194304) && b.length == 192 + 16 * words && slice b 8 56 == zeros 56 && slice b (64 + 8 * n) (128 - 8 * n) == zeros (128 - 8 * n) &&
  (v.entries.all fun e => decide (1 ≤ e.1) && decide (e.1 ≤ 5) && decide (e.2 < words)) &&
  ((List.range n).all fun i => field b (64 + 8 * i + 2) 2 == 0) && (v.entries.map (·.1)).eraseDups.length == n
/-- The regions of a region section (R187). -/
def regionsOfBytes (b : Bytes) : List RegionDef :=
  (List.range (b.length / 16)).map fun i =>
    { number := field b (16 * i) 1, tier := field b (16 * i + 1) 1, perCore := bit (field b (16 * i + 2) 2) 0
      receive := bit (field b (16 * i + 2) 2) 1, size := field b (16 * i + 4) 8 }
def regionsOk (b : Bytes) : Bool :=
  let rs := regionsOfBytes b
  b.length % 16 == 0 && decide (rs.length ≤ 256) && (rs.map (·.number)).eraseDups.length == rs.length &&
  decide ((rs.filter (·.receive)).length ≤ 1) && (rs.all fun r => decide (r.tier ≤ 1) && r.size % 64 == 0 && decide (r.size ≤ 2 ^ 36)) &&
  (List.range (b.length / 16)).all fun i => decide (field b (16 * i + 2) 2 < 4) && field b (16 * i + 12) 4 == 0

def variantSections (im : Bytes) : List Bytes := ((sectionsOf im).filter (·.kind == 1)).map (·.bytes im)
def regionSection (im : Bytes) : Bytes := (((sectionsOf im).find? (·.kind == 2)).map (·.bytes im)).getD []
def weightSection (im : Bytes) : Bytes := (((sectionsOf im).find? (·.kind == 3)).map (·.bytes im)).getD []

/-- Check 4: variants, entries, regions (R184, R186, R187). -/
def imgCheck4 (im : Bytes) : Bool :=
  let bs := variantSections im
  let vs := bs.map variantOfBytes
  bs.all variantOk && (vs.any (·.cores == 1)) && (vs.map (·.cores)).eraseDups.length == vs.length &&
  (decide (field im 0x36 2 ≠ 0) == vs.any fun v => (v.entries.lookup 2).isSome) && regionsOk (regionSection im)

/-- Check 5: every code word decodes. -/
def imgCheck5 (im : Bytes) : Bool := ((variantSections im).map variantOfBytes).all fun v => codeOk v.code

/-- The checks of Table 7.15 in order. -/
def imgFail (im : Bytes) : Option Nat :=
  firstFail [(imgCheck1 im, 0x10), (imgCheck2 im, 0x10), (imgCheck3 im, 0x12), (imgCheck4 im, 0x10), (imgCheck5 im, 0x10)]

/-- Resident weight bytes of all images (R72). -/
def State.residentWeights (s : State) : Nat := (s.images.map (·.residentBytes)).sum
/-- Capacity units of the flash copy of a weight section (R15, R221; DEDUCED, log 32). -/
def imageUnits (weights : Nat) : Nat := 4 * ceilDiv weights 16384

/-- Whole layers are claimed in layer order, within the module's 160 × 10⁹ bytes and the pot's DRAM share (R72, R214). -/
def State.residentLayers (s : State) (pot weights layers : Nat) : Nat :=
  let (n, size) := layerSplit weights layers
  if size = 0 then 0 else
  Nat.min n (Nat.min ((160000000000 - s.residentWeights) / size) ((s.potDram pot - s.pinned true pot) / size))

/-- A new image from its bytes, placed (check 6 of Table 7.15): its measurement extends the pot's chain (R379). -/
def State.placeImage (s : State) (j : Job) (bytes : Bytes) : State :=
  let w := weightSection bytes
  let layers := field bytes 0x14 2
  let n := s.residentLayers j.pot w.length layers
  let resident := Nat.min w.length (n * (layerSplit w.length layers).2)
  let tag := if (sectionsOf bytes).any (·.kind == 3) then field (sha3 w) 0 8 else 0
  let im : Image := {
    id := s.nextId, pot := j.pot, header := slice bytes 0 256, variants := (variantSections bytes).map variantOfBytes
    regions := regionsOfBytes (regionSection bytes), weights := w, modelTag := tag
    resident := n, residentBytes := resident, units := imageUnits w.length }
  let s := if resident = 0 then s else s.claim { key := .weights im.id, pot := j.pot, cls := .pinned, size := resident }
  let table := slice bytes 0x100 (64 * field bytes 0x34 2)
  let old := natLe 32 ((s.sec.chain[j.pot]?.getD 0).toNat)
  let new := BitVec.ofNat 256 (leNat (sha3 (old ++ sha3 table)))
  let s := s.modSec fun x => { x with chain := x.chain.setIfInBounds j.pot new }
  let s : State := { s with images := s.images ++ [im], nextId := s.nextId + 1 }
  s.complete j.key 0 fun i => { i with resA := im.id, resC := n, resB := resident }

/-- Admission of `IMAGE_LOAD`. -/
def admitImageLoad (j : Job) : Admission :=
  { whole := firstFail [(j.formOk, 0x10)], items := [], footprint := 0 }
/-- The load itself (R188): the first failing check refuses it, and a refused image leaves no trace. -/
def State.beginImageLoad (s : State) (j : Job) : State :=
  match s.hostRead (j.f 0x30 8) (j.f 0x38 8) with
  | none => s.complete j.key 0 fun i => i.fail 0x10
  | some bytes =>
    match imgFail bytes with
    | some st => s.complete j.key 0 fun i => i.fail st
    | none =>
      if s.unitsFree j.pot < imageUnits (weightSection bytes).length then s.complete j.key 0 fun i => i.fail 0x11
      else if !s.writeOk then s.complete j.key 0 fun i => i.fail 0x20
      else s.placeImage j bytes
def State.startImageLoad (s : State) (j : Job) : State := s.admitWith j (admitImageLoad j) (·.beginImageLoad j)

/-- Admission of `IMAGE_UNLOAD` (R449). -/
def State.admitImageUnload (s : State) (j : Job) : Admission :=
  let im := s.liveImage j.imageId
  { whole := firstFail [(j.formOk && im.isSome, 0x10), ((im.map fun i => i.pot == j.pot).getD true, 0x40)], items := [], footprint := 0 }
/-- The image becomes unloading; the unload completes once unused (R449). -/
def State.beginImageUnload (s : State) (j : Job) : State :=
  ({ s with images := s.images.map fun i => if i.id == j.imageId then { i with unloading := true, unloadJob := j.key } else i } : State).settleUnloads
def State.startImageUnload (s : State) (j : Job) : State := s.admitWith j (s.admitImageUnload j) (·.beginImageUnload j)

end Sys2Proof.Machine
end

