-- ==== Sys2Proof/Machine/Group.lean ====
section
/-! DEFINITION. Group objects: member lists, the split of a group's work, object control sent to the members and their answers
(Table 10.3, R45, R110, R111, R340, R345, R346). -/

namespace Sys2Proof.Machine

/-- The member list of a member byte: the home module first, then the others in ascending ordinal. -/
def memberList (home byte : Nat) : List Nat := home :: ((List.range 5).filter fun n => bit byte n && n != home)
/-- Part `i` of `n` things split into `k` contiguous parts, sizes differing by at most one, larger parts first: first, count.
Table 2.7 leaves which groups of heads or leaves are the larger ones open (assumption log 41). -/
def splitPart (n k i : Nat) : Nat × Nat :=
  let q := n / k
  let r := n % k
  (i * q + Nat.min i r, q + b2n (decide (i < r)))
/-- A module's part by its place in the member list. -/
def partOf (n : Nat) (members : List Nat) (self : Nat) : Nat × Nat := splitPart n members.length (members.idxOf self)
/-- The members other than this module. -/
def State.others (s : State) (members : List Nat) : List Nat := members.filter (· != s.self)
/-- Every other member is present (R341). -/
def State.allPresent (s : State) (members : List Nat) : Bool := (s.others members).all fun n => (s.portOf n).isSome
/-- A member byte in its form: reserved bits zero, the home module's own bit set, and no other without a group (Table 10.3). -/
def State.memberByteOk (s : State) (byte : Nat) (group : Bool) : Bool :=
  decide (byte < 32) && bit byte s.self && (group || byte == 2 ^ s.self)

/-- A link block of 33 bytes: codes, then the E8 scale (R114, Table 14.8). -/
def linkBlocks (vs : List Val) : Bytes :=
  ((blocks32 vs).map fun b => let r := narrowBlock 3 b; r.2.map (fun x => BitVec.ofNat 8 x.1) ++ [BitVec.ofNat 8 r.1]).flatten
/-- Begins a transfer of bytes to a member; none is begun to one that is absent. -/
def State.sendTo (s : State) (ord kind object target : Nat) (x : XferOut) : State :=
  match s.portOf ord with
  | none => s
  | some p => (s.beginXfer p ord { x with desc := { kind := kind, object := object, total := x.data.length, target := target } }).1
/-- The `TARGET` of kinds 2 to 8: the home item's index and its `JOB_ID` (Table 14.7). -/
def targetOf (item jobId : Nat) : Nat := item + jobId * 2 ^ 32

/-- Object control to every other member, whose answers the home module then awaits (R346). -/
def State.control (s : State) (j : Job) (object : Nat) (members : List Nat) (extra : Bytes) : State :=
  let os := s.others members
  let s := s.modJob j.key fun j => { j with awaiting := os }
  os.foldl (fun s n => s.sendTo n 6 object (targetOf 0 j.jobId)
    { job := j.key, lfmt := 6, tags := j.pktTags, data := slice j.desc 0 128 ++ extra }) s

/-- A 128-byte `DROP` descriptor of a table (R346). -/
def dropTableDesc (jobId id : Nat) : Bytes :=
  [0x14, 0, 0, 0] ++ natLe 4 jobId ++ natLe 2 0xFFFF ++ natLe 2 0xFFFF ++ natLe 4 1 ++ zeros 32 ++ [3, 0, 0, 0] ++ natLe 4 id ++ zeros 72

/-- A group object's job whose own part is done and whose members have all answered completes; a `TABLE_CREATE` that failed
somewhere is undone everywhere; a `TABLE_SAVE` leaves its image, a `TABLE_LOAD` a table that is not `EMPTY` (R129); a corpus steeped everywhere is READY (R56, R112, R346). -/
def State.settleGroup (s : State) (key : Nat) : State :=
  match s.job? key with
  | none => s
  | some j =>
    if !j.own || !j.awaiting.isEmpty then s else
    let failed := (j.items.head?.map fun i => decide (0x10 ≤ i.status)).getD false
    let s := if failed && j.type == 0x0D then
        let id := j.f 0x30 4
        let s : State := (({ s with tables := s.tables.filter (·.id != id) } : State).dropEntries fun e => e.key == .table id)
        j.answered.foldl (fun s n => s.sendTo n 6 id (targetOf 0 j.jobId) { lfmt := 6, tags := j.pktTags, data := dropTableDesc j.jobId id }) s
      else s
    let close := fun c : Corpus =>
      if c.job == some key then { c with st := if c.st == .deleting then .deleting else .ready, job := none } else c
    let s : State := if failed || j.type != 0x03 then s else { s with corpora := s.corpora.map close }
    let kept := fun t : Table => if t.id != j.f 0x30 4 then t
      else if j.type = 0x12 then { t with image := if failed then t.image else t.pending, pending := none }
      else if j.type = 0x13 ∧ !failed then { t with empty := false }
      else t
    let s : State := if j.type = 0x12 ∨ j.type = 0x13 then { s with tables := s.tables.map kept } else s
    s.complete key 0 id
/-- This module's own part of a job is done. -/
def State.ownDone (s : State) (key : Nat) (f : Item → Item) : State :=
  (((s.modJob key fun j => { j with own := true }).modItem key 0 f)).settleGroup key

/-- The status that a peer's answer gives the home item (R345). -/
def peerStatus (st : Nat) : Nat := if st = 0x30 ∨ st = 0x41 then 0x22 else st
/-- A member's answer to object control (R346): a steep ends at a member's failure, the rest collects every answer. -/
def State.memberAnswer (s : State) (key ord st : Nat) : State :=
  let s := s.modJob key fun j => { j with
    awaiting := j.awaiting.erase ord, answered := if st = 0 then j.answered ++ [ord] else j.answered }
  let s := if st = 0 then s else s.modItem key 0 fun i => i.fail (peerStatus st)
  match s.job? key with
  | some j => if j.type = 0x03 ∧ st ≠ 0 then s.abortJob key (peerStatus st) else s.settleGroup key
  | none => s

end Sys2Proof.Machine
end

