-- ==== Sys2Proof/Machine/Pages.lean ====
section
/-! DEFINITION. The pages of a collection: how records, tokens, lists and vectors lie in them, their bytes and checks, the units they
take, their copies and those of codes and slot words in the DRAM pool (R15, R54, R82, R91, R94, R216). -/

namespace Sys2Proof.Machine

-- Layout (R82)

/-- Bytes that `n` values of a column take in a page body, with `heap` bytes of variable ones: null bitmap, values or offsets, heap. -/
def columnBytes (ty n heap : Nat) : Nat :=
  pad8 (ceilDiv n 8) + match colWidth ty with
    | some w => w * n
    | none => 2 * (n + 1) + heap
/-- Bytes of a value in the heap of its page. -/
def heapBytes (ty : Nat) (v : Option Bytes) : Nat := if (colWidth ty).isSome then 0 else (v.getD []).length
/-- Consecutive values put into pages, each page as full as 2,048 records and its body of 18,360 bytes let it be (DEDUCED, assumption
log 56): first record and count. The arguments: the page begun, its count and heap. -/
def packGo (ty : Nat) : List Nat → Nat → Nat → Nat → List (Nat × Nat)
  | [], first, n, _ => if n = 0 then [] else [(first, n)]
  | v :: l, first, n, heap =>
    if n < 2048 ∧ columnBytes ty (n + 1) (heap + v) ≤ 18360 then packGo ty l first (n + 1) (heap + v)
    else (first, n) :: packGo ty l (first + n) 1 v
def Coll.type (c : Coll) (k : Nat) : Nat := c.types.getD k 1
/-- A column's values, record by record. -/
def Coll.column (c : Coll) (k : Nat) : List (Option Bytes) := c.recs.map fun r => r.values.getD k none
/-- The pages of a column: first record and count. -/
def Coll.colPages (c : Coll) (k : Nat) : List (Nat × Nat) := packGo (c.type k) ((c.column k).map (heapBytes (c.type k))) 0 0 0
/-- The values on a page of a column. -/
def Coll.onPage (c : Coll) (k first count : Nat) : List (Option Bytes) := ((c.column k).drop first).take count
/-- Tokens of the records before one, which is the position of its first token: the text is in record order. -/
def Coll.textPos (c : Coll) (i : Nat) : Nat := ((c.recs.take i).map fun r => r.tokens.length).sum
/-- The 16 bytes that DRAM keeps of a record; the places of the fields in them are the model's (DESIGN CHOICE, assumption log 56). -/
def Coll.recordWord (c : Coll) (r : Rec) : Bytes :=
  natLe 4 (c.textPos r.idx) ++ natLe 4 r.tokens.length ++ natLe 2 r.gen ++
    natLe 1 (match r.st with | .free => 0 | .live => 1 | .dead => 2) ++ zeros 5

-- Bytes (Tables 4.2 and 4.5)

/-- A page from its header fields and body. -/
def collPage (c : Coll) (kind column first count lo hi nulls : Nat) (body : Bytes) : Bytes :=
  let page := natLe 2 2 ++ natLe 1 kind ++ natLe 1 column ++ natLe 4 c.id ++ natLe 4 first ++ natLe 2 count ++ zeros 2 ++ natLe 8 lo ++
    natLe 8 hi ++ natLe 4 nulls ++ zeros 28 ++ body ++ zeros (18360 - body.length)
  page ++ crcBytes page
/-- Bits packed from bit 0 of byte 0. -/
def bitBytes (l : List Bool) : Bytes :=
  (List.range (ceilDiv l.length 8)).map fun i => BitVec.ofNat 8 ((List.range 8).map fun b => if l.getD (8 * i + b) false then 2 ^ b else 0).sum
/-- The body of a column page; a bit of the bitmap is set where the value is null, and offsets count from the heap's start (DEDUCED,
assumption log 56). -/
def columnBody (ty : Nat) (vals : List (Option Bytes)) : Bytes :=
  let nulls := bitBytes (vals.map Option.isNone)
  nulls ++ zeros (pad8 nulls.length - nulls.length) ++ match colWidth ty with
    | some w => (vals.map fun v => v.getD (zeros w)).flatten
    | none => ((List.range (vals.length + 1)).map fun i => natLe 2 ((vals.take i).map (heapBytes ty)).sum).flatten ++ (vals.map (·.getD [])).flatten
/-- A neighbour list record (Table 4.5). -/
def Coll.listRecord (c : Coll) (s : Slot) : Bytes :=
  let r := natLe 4 s.idx ++ natLe 2 s.gen ++ natLe 1 s.edges.length ++ natLe 1 (b2n (s.st == .dead) + 2 * b2n (c.entries.contains s.idx)) ++
    zeros 8 ++ (s.edges.map fun e => natLe 4 e.1 ++ natLe 2 e.2).flatten
  r ++ zeros (c.listSize - r.length)
/-- The slots of a page that begins at `first` and has room for `n`. -/
def Coll.slotsAt (c : Coll) (first n : Nat) : List Slot := (c.slots.drop first).take n
/-- The bytes of a page as the module writes it: column, text, list, vector. A text page's `FIRST` is the record of its first token. -/
def Coll.pageBytes (c : Coll) (p : CollPage) : Bytes :=
  match p.kind with
  | 1 =>
    let count := ((c.colPages p.column).lookup p.first).getD 0
    let vals := c.onPage p.column p.first count
    let h := colHead (c.type p.column) vals
    collPage c 1 p.column p.first count (leNat h.lo) (leNat h.hi) h.nulls (columnBody (c.type p.column) vals)
  | 2 =>
    let toks := (((c.recs.map (·.tokens)).flatten).drop (c.textPos p.first / 4590 * 4590)).take 4590
    collPage c 2 0 p.first toks.length 0 0 0 (toks.map (natLe 4)).flatten
  | 3 => let l := c.slotsAt p.first c.listsPer; collPage c 3 0 p.first l.length 0 0 0 (l.map c.listRecord).flatten
  | _ => let l := c.slotsAt p.first c.vecsPer; collPage c 4 0 p.first l.length 0 0 0 (l.map fun s => (s.vector.map fun x => natLe 2 x.toNat).flatten).flatten
/-- What the module verifies on every page it reads: the check, the collection's ID and the first index (R82). A page that passes holds
what was written there (DESIGN CHOICE, assumption log 56). -/
def Coll.pageOk (c : Coll) (first : Nat) (pg : Bytes) : Bool :=
  pg.length == 18432 && crcBytes (pg.take 18424) == slice pg 18424 8 && field pg 4 4 == c.id && field pg 8 4 == first

-- Capacity units (R15, R54)

/-- Pages of the lists and of the vectors of `slots` slots. -/
def Coll.graphPages (c : Coll) (slots : Nat) : Nat := ceilDiv slots c.listsPer + ceilDiv slots c.vecsPer
def Coll.tokenCount (c : Coll) : Nat := (c.recs.map fun r => r.tokens.length).sum
/-- Units of the pages that a collection holds. -/
def Coll.unitsNow (c : Coll) : Nat :=
  4 * (((List.range c.columns.length).map fun k => (c.colPages k).length).sum + ceilDiv c.tokenCount 4590 + c.graphPages c.slots.length)
/-- Never less than the pages of a column need: fixed widths fill them with 2,048 records, of a variable column every page but the last
holds as many or leaves less room than one value takes. -/
def pagesBound (ty records heap : Nat) : Nat :=
  ceilDiv records 2048 + if (colWidth ty).isSome then 0 else 1 + ceilDiv (3 * records + heap) 17000
/-- What a new steep reserves for its collection's pages (R54): never less than they need, whatever other steeps and appends reserve
meanwhile, so each part is rounded up on its own. -/
def Coll.steepReserve (c : Coll) (cut : Nat × Nat) (records tokens len : Nat) : Nat :=
  let cols := (List.range c.columns.length).map fun k =>
    pagesBound (c.type k) (c.recs.length + records) (((c.column k).map (heapBytes (c.type k))).sum + len) + 2
  4 * (cols.sum + ceilDiv (c.tokenCount + tokens) 4590 + 3 +
    c.graphPages (c.slots.length + records + ceilDiv tokens (cut.1 - cut.2))) - c.units

-- Copies in the DRAM pool (R94, R216)

/-- A page in the pool. -/
def Coll.pageKey (c : Coll) (p : CollPage) : PoolKey := .page c.id p.kind p.column p.first
/-- A page that was read enters the pool as the newest, or is renewed there by its use (R212). -/
def State.usePage (s : State) (c : Coll) (p : CollPage) : State :=
  if s.cached (c.pageKey p) then s.touch (c.pageKey p) else s.cache { key := c.pageKey p, pot := c.pot, cls := .cached, size := 18432 }
/-- The parts of 18,360 bytes in which the codebook, then slot words and codes slot by slot, lie in the pool (DESIGN CHOICE, assumption
log 56), as far as some slots need them. -/
def Coll.codeParts (c : Coll) (slots : List Nat) : List Nat :=
  let book := ceilDiv (512 * c.dim) 18360
  let n := 8 + c.codeBytes
  if slots.isEmpty then [] else
  List.range book ++ (slots.map fun i => [book + i * n / 18360, book + (i * n + n - 1) / 18360]).flatten.eraseDups
/-- Codes, slot words and the codebook are used for some slots: what is not resident is read from its flash copy (R94); whether any was. -/
def State.useCodes (s : State) (c : Coll) (slots : List Nat) : State × Bool :=
  let keys := (c.codeParts slots).map (PoolKey.graph c.id)
  (keys.foldl (fun s k => if s.cached k then s.touch k else s.cache { key := k, pot := c.pot, cls := .cached, size := 18360 }) s,
    keys.any fun k => !s.cached k)
/-- Column pages that a change of a collection laid out anew leave the pool. -/
def State.dropMoved (s : State) (c : Coll) : State :=
  s.dropEntries fun e => match e.key with
    | .page id 1 k first => id == c.id && ((c.colPages k).lookup first).isNone
    | _ => false

end Sys2Proof.Machine
end

