-- ==== Sys2Proof/Machine/JobsColl.lean ====
section
/-! DEFINITION. Collections: creation, appends, deletes, filters, searches, recall, fetches, mending (R78 to R107). -/

namespace Sys2Proof.Machine

/-- Every byte of an item record outside its fields is zero (R8, R242). -/
def itemZero (rec_ : Bytes) (fields : List (Nat × Nat)) : Bool :=
  (List.range rec_.length).all fun i => (fields.any fun f => decide (f.1 ≤ i) && decide (i < f.1 + f.2)) || field rec_ i 1 == 0
/-- The item records of a job with the status each earns by a check of its own: an unreadable record fails its item (R249). -/
def State.itemFails (s : State) (j : Job) (check : Bytes → Option Nat) : List (Nat × Nat) :=
  (List.range j.nItems).filterMap fun i =>
    (match s.itemRec j i with
     | none => some 0x10
     | some r => check r).map fun st => (i, st)

/-- Checks 1 to 3 of Table 10.6 for a job that names a collection (R78). -/
def State.collChecks (s : State) (j : Job) (ok1 : Bool) : List (Bool × Nat) :=
  let c := s.coll? (j.f 0x30 4)
  [(j.formOk && ok1, 0x10), ((c.map fun c => c.pot == j.pot).getD true, 0x40), (c.isSome, 0x10)]

-- COLLECTION_CREATE (R79, R81, R92, R245)

/-- The entries of a dictionary from an offset of buffer 1; the status where they break R81. -/
def dictGo : Nat → Bytes → Nat → Except Nat (List Bytes)
  | 0, _, _ => .ok []
  | n + 1, b, off =>
    let len := field b off 2
    if b.length < off + 2 ∨ b.length < off + 2 + len then .error 0x10
    else if 256 < len then .error 0x12
    else if (utf8 (slice b (off + 2) len)).isNone then .error 0x10
    else match dictGo n b (off + 2 + len) with
      | .ok l => .ok (slice b (off + 2) len :: l)
      | .error e => .error e
/-- One schema entry with its dictionary. -/
def columnOf (dicts : Bytes) (e : Bytes) : Except Nat Column :=
  let ty := field e 0 1
  let n := field e 4 4
  if ty = 0 ∨ 0x0B < ty ∨ field e 1 3 ≠ 0 then .error 0x10
  else if ty = 0x08 ∨ ty = 0x0B then
    if 65536 < n then .error 0x12
    else match dictGo n dicts (field e 8 8) with
      | .ok d => .ok { type := ty, dict := d }
      | .error x => .error x
  else if n ≠ 0 ∨ field e 8 8 ≠ 0 then .error 0x10
  else .ok { type := ty }
/-- A whole schema: the first entry that fails decides. -/
def schemaOf (dicts : Bytes) : List Bytes → Except Nat (List Column)
  | [] => .ok []
  | e :: l => match columnOf dicts e with
    | .error x => .error x
    | .ok c => match schemaOf dicts l with
      | .ok cs => .ok (c :: cs)
      | .error x => .error x
/-- The schema of a creating job, from buffers 0 and 1. -/
def State.schema (s : State) (j : Job) : Except Nat (List Column) :=
  let n := j.f 0x3C 1
  match s.buffer? j 0 with
  | none => .error 0x10
  | some (a, len) =>
    if len < 16 * n then .error 0x10 else
    match s.hostRead a (16 * n) with
    | none => .error 0x10
    | some raw =>
      let es := (List.range n).map fun i => slice raw (16 * i) 16
      let dicts := (s.buffer? j 1).bind fun b => s.hostRead b.1 b.2
      if (es.any fun e => field e 4 4 != 0) && dicts.isNone then .error 0x10 else schemaOf (dicts.getD []) es

/-- A value, or the default of Table 4.6 at zero. -/
def orDefault (v d : Nat) : Nat := if v = 0 then d else v
/-- `ENC_DIM` of an image (Table 7.14). -/
def Image.encDim (im : Image) : Nat := field im.header 0x36 2
/-- The collection that a creating job asks for. -/
def collOf (j : Job) (im : Image) (cols : List Column) : Coll :=
  { id := j.f 0x30 4, pot := j.pot, encoder := im.id, chunk := j.f 0x38 2, overlap := j.f 0x3A 2, columns := cols
    distance := j.f 0x3D 1, degree := orDefault (j.f 0x3E 1) 32, dim := im.encDim
    codeBytes := orDefault (j.f 0x42 2) (Nat.max 16 (im.encDim / 8)), beam := orDefault (j.f 0x44 2) 128
    alpha := BitVec.ofNat 32 (orDefault (j.f 0x48 4) 0x3F99999A) }

/-- COLLECTION_CREATE at admission: a refusal creates nothing (R79). A distance that Table 4.6 does not assign is a reserved encoding (R9);
a count of zero columns, to which no rule gives a status, is past the limits of Table 4.11 (DESIGN CHOICE, assumption log 53). -/
def State.admitCollectionCreate (s : State) (j : Job) : Admission :=
  let im := s.liveImage j.imageId
  let chunk := j.f 0x38 2
  let n := j.f 0x3C 1
  let dim := j.f 0x40 2
  let sch := s.schema j
  let whole := firstFail [
    (j.formOk && im.isSome && decide (j.f 0x3D 1 ≤ 2), 0x10),
    ((im.map fun i => i.pot == j.pot).getD true, 0x40),
    ((im.map fun i => s.hasEntries i j.pot [2] && (dim == 0 || dim == i.encDim)).getD false && (s.coll? (j.f 0x30 4)).isNone, 0x10),
    (decide (s.colls.length < 4096) && decide (64 ≤ chunk) && decide (chunk ≤ 2048) && decide (2 * j.f 0x3A 2 ≤ chunk) &&
      decide (1 ≤ n) && decide (n ≤ 64), 0x12),
    ((match sch with | .ok _ => true | .error _ => false), (match sch with | .error e => e | .ok _ => 0x10))]
  { whole := whole, items := [], footprint := 0 }
/-- The collection of a creation that passed its checks, by its image and schema (R79, R92). -/
def State.newColl (s : State) (j : Job) : Option Coll :=
  match s.liveImage j.imageId, s.schema j with
  | some i, .ok cols => some (collOf j i cols)
  | _, _ => none
/-- The collection comes into being, unless flash takes no writes. -/
def State.beginCollectionCreate (s : State) (j : Job) (c : Option Coll) : State :=
  match c with
  | some c => if !s.writeOk then s.complete j.key 0 fun i => i.fail 0x20 else ({ s with colls := s.colls ++ [c] } : State).complete j.key 0 id
  | none => s
def State.startCollectionCreate (s : State) (j : Job) : State :=
  s.admitWith j (s.admitCollectionCreate j) fun t => t.beginCollectionCreate j (s.newColl j)

-- COLLECTION_APPEND (R100, R245)

/-- A record as host software supplies it (R245), under a chunk size and overlap: column values, tokens, length taken. -/
def recordOf (c : Coll) (cut : Nat × Nat) (b : Bytes) : Except Nat (List (Option Bytes) × List Nat × Nat) :=
  let t := field b 0 4
  let n := field b 4 4
  let start := 8 + pad8 n
  if b.length < 8 then .error 0x10
  else if 4194304 < t ∨ 65536 < chunksOf cut t then .error 0x12
  else if b.length < start + 4 * t then .error 0x10
  else match rowValues c.types (slice b 8 n) with
    | none => .error 0x10
    | some (vals, used) =>
      if pad8 used ≠ pad8 n then .error 0x10 else
      let bad := (c.columns.zip vals).filterMap fun (col, v) => v.bind (valueFail col.type col.dict.length)
      match bad.head? with
      | some e => .error e
      | none => .ok (vals, (List.range t).map fun i => field b (start + 4 * i) 4, start + pad8 (4 * t))

/-- The index and generation that the next record takes; none when 16,777,216 are used (Table 4.11, R102). -/
def Coll.nextRec (c : Coll) : Option (Nat × Nat) :=
  match c.recs.find? (·.st == .free) with
  | some r => some (r.idx, (r.gen + 1) % 65536)
  | none => if c.recs.length < 16777216 then some (c.recs.length, 0) else none
def Coll.setRec (c : Coll) (r : Rec) : Coll :=
  { c with recs := if c.recs.any (·.idx == r.idx) then c.recs.map fun t => if t.idx == r.idx then r else t else c.recs ++ [r] }
/-- Appends one record with the vectors of its chunks, or answers the status that keeps it out (R100). -/
def State.appendRecord (s : State) (c : Coll) (b : Bytes) (vectors : List (List (BitVec 32))) : Except Nat (Coll × Rec × Nat) :=
  match recordOf c (c.chunk, c.overlap) b with
  | .error e => .error e
  | .ok (vals, toks, _) =>
    match c.nextRec with
    | none => .error 0x12
    | some (i, g) =>
      let r : Rec := { idx := i, gen := g, values := vals, tokens := toks }
      let n := c.chunks r
      if c.roomSlots < n then .error 0x12 else
      let c' := (List.range n).foldl (fun c k => c.insertChunk (s.free + 100000 * (k + 1)) i k (vectors.getD k [])) (c.setRec r)
      let c' := { c' with units := Nat.max c.units c'.unitsNow }
      if s.unitsFree c.pot < c'.units - c.units then .error 0x11 else .ok (c', r, n)

/-- Passes and searches that began before a record took a used index never meet it there (R86, R96). -/
def State.notBefore (s : State) (c : Coll) (r : Nat) : State :=
  { s with
    strains := s.strains.map fun x => if x.coll == c.id then { x with live := x.live.filter (· != r) } else x
    searches := s.searches.map fun x => if x.coll == c.id then { x with
      pass := x.pass.map fun l => l.filter (· != r)
      atStart := if x.waiting then x.atStart.filter fun i => ((c.slot? i).map fun t => t.record != r).getD true else x.atStart } else x }
/-- The slots of a record. -/
def Coll.slotsOf (c : Coll) (record : Nat) : List Nat := (c.slots.filter (·.record == record)).map (·.idx)
/-- A collection with a record that has come to it: its codes lie in the pool, and column pages laid out anew leave it (R94). -/
def State.putRecord (s : State) (c : Coll) (r : Rec) : State :=
  ((((s.modColl c.id fun _ => c).dropMoved c).useCodes c (c.slotsOf r.idx)).1.used).notBefore c r.idx
/-- Item `i` of an append job. -/
def State.appendItem (s : State) (j : Job) (i : Nat) (vectors : List (List (BitVec 32))) : State :=
  match s.live? j.key i, s.coll? (j.f 0x30 4), s.itemRec j i with
  | some _, some c, some r =>
    match s.hostBytes (field r 0 8) (field r 8 4) with
    | none => s.complete j.key i fun it => it.fail 0x10
    | some b =>
      match s.appendRecord c b vectors with
      | .error e => s.complete j.key i fun it => it.fail e
      | .ok (c', x, n) => if !s.writeOk then s.complete j.key i fun it => it.fail 0x20 else
        (s.putRecord c' x).complete j.key i fun it => { it with resA := n, resB := x.handle none }
  | some _, _, _ => s.complete j.key i fun it => it.fail 0x10
  | none, _, _ => s

/-- COLLECTION_APPEND at admission (R100): the collection's encoder is present; it waits in its ring while a `RECALL` runs
(R105). -/
def State.admitCollectionAppend (s : State) (j : Job) : Admission :=
  let im := (s.coll? (j.f 0x30 4)).bind fun c => s.liveImage c.encoder
  let whole := firstFail (s.collChecks j true ++ [((im.map fun i => s.hasEntries i j.pot [2]).getD false, 0x10)])
  { whole := whole, items := s.itemFails j fun r => if itemZero r [(0, 12)] then none else some 0x10
    footprint := (im.map fun i => s.regionBytes i j.pot true).getD 0 }
/-- A `RECALL` holds a collection (R105). -/
def State.recalling (s : State) (id : Nat) : Bool := ((s.coll? id).map fun c => !c.recallers.isEmpty).getD false
/-- It waits while a recall holds the collection. -/
def State.startCollectionAppend (s : State) (j : Job) : State :=
  if s.recalling (j.f 0x30 4) then s else s.admitWith j (s.admitCollectionAppend j) id

/-- A whole core job has its slice and its cores. -/
def State.wholeRuns (s : State) (j : Job) : Bool := j.isWhole && (s.pot j.pot).running == some j.key && s.coresFree j.pot j && s.coresOn

/-- COLLECTION_APPEND on a job that has its slice (R100): the item whose `ENCODE` invocation has ended is appended with the vectors that
the program left, and the next item is encoded; between two items the job can lose its slice (R268). It waits while a `RECALL` runs (R105). -/
def State.runAppend (s : State) (key : Nat) (vectors : List (List (BitVec 32))) : State :=
  match (s.job? key).filter fun j => j.type == 0x07 && j.phase == .admitted && j.sliced && (s.pot j.pot).running == some key && s.coresOn &&
      (s.coresOf key).isEmpty && !s.recalling (j.f 0x30 4) with
  | none => s
  | some j =>
    let s := match j.encoded with
      | some i => (s.appendItem j i vectors).modJob key fun j => { j with encoded := none }
      | none => s
    if s.preempting j.pot then (s.preempt j.pot key).reschedule j.pot else s.nextAppend key (j.items.length + 1)

-- COLLECTION_DELETE (R101)

/-- Nothing of a graph is to be mended, so that no mending pass is under way (DESIGN CHOICE, assumption log 46). -/
def Coll.whole (c : Coll) : Bool :=
  c.slots.all fun s => s.st != .dead && !s.listLost && s.edges.all fun e => match c.slot? e.1 with
    | some t => t.st == .live && t.gen == e.2
    | none => false
/-- Marks a record deleted and its nodes tombstoned; where no pass is under way, the next one begins after this (R102). -/
def Coll.delete (c : Coll) (r : Rec) : Coll :=
  { c with
    recs := c.recs.map fun x => if x.idx == r.idx then { x with st := .dead } else x
    slots := c.slots.map fun t => if t.record == r.idx && t.st == .live then { t with st := .dead, old := c.whole } else t }
def State.deleteItem (s : State) (j : Job) (i : Nat) : State :=
  match s.live? j.key i, s.coll? (j.f 0x30 4) with
  | some _, some c =>
    match ((s.itemRec j i).bind fun r => c.resolve (field r 0 8)).filter (·.2.isNone) with
    | some (r, _) => if !s.writeOk then s.complete j.key i fun it => it.fail 0x20 else (s.modColl c.id fun _ => c.delete r).complete j.key i id
    | none => s.complete j.key i fun it => it.fail 0x10
  | _, _ => s
/-- COLLECTION_DELETE (R101): its items run at once, or wait while a `RECALL` runs (R105). -/
def State.startCollectionDelete (s : State) (j : Job) : State :=
  if s.recalling (j.f 0x30 4) then s else
  s.admitWith j { whole := firstFail (s.collChecks j true), items := [], footprint := 0 } fun s =>
    (List.range j.nItems).foldl (fun s i => s.deleteItem j i) s

-- The strainer (R83 to R90)

/-- A predicate block from host memory. -/
def State.readPred (s : State) (a : Nat) : Option Bytes :=
  (s.hostRead a 8).bind fun h => s.hostRead a (predLen h)
/-- The pages of some columns that hold live records: column, first record, count. -/
def Coll.pagesOf (c : Coll) (cols live : List Nat) : List (Nat × Nat × Nat) :=
  (cols.eraseDups.map fun k => ((c.colPages k).filter fun p => live.any fun i => decide (p.1 ≤ i) && decide (i < p.1 + p.2)).map fun p => (k, p.1, p.2)).flatten
/-- A page holds a record. -/
def covers (p : Nat × Nat × Nat) (i : Nat) : Bool := decide (p.2.1 ≤ i) && decide (i < p.2.1 + p.2.2)
/-- The header of a page proves a leaf on its column (R87). -/
def Strain.proven (x : Strain) (c : Coll) (p : Nat × Nat × Nat) (n : PNode) : Bool :=
  n.proven (c.type p.1) (predArea x.pred) (colHead (c.type p.1) (c.onPage p.1 p.2.1 p.2.2))
/-- A record's result with the leaves whose pages are present or prove them (R87). -/
def Strain.result (x : Strain) (c : Coll) (i : Nat) : Option Bool :=
  let vals := ((c.rec? i).map (·.values)).getD []
  predRun (fun n =>
    if (x.pages.find? fun p => p.1 == n.col && covers p i).any fun p => !x.proven c p n then none
    else some (n.eval (c.type n.col) (predArea x.pred) (vals.getD n.col none))) (predNodes x.pred) []
/-- A page is still needed: for a predicate that its header does not prove, while a record of it is undecided (R87); for the rows to give
out, while a record of it may match (R90). -/
def Strain.needs (x : Strain) (c : Coll) (p : Nat × Nat × Nat) : Bool :=
  let mine := x.live.filter (covers p)
  ((predNodes x.pred).any fun n => n.leaf && n.col == p.1 && !x.proven c p n) && (mine.any fun i => (x.result c i).isNone) ||
  x.outs.contains p.1 && mine.any fun i => x.result c i != some false
/-- Skips the pages that nothing needs. -/
def Strain.skip (x : Strain) (c : Coll) : Strain := { x with pages := x.pages.filter (x.needs c) }
/-- The records that match, ascending: records stand in index order (R90). -/
def Strain.matches (x : Strain) (c : Coll) : List Nat :=
  ((c.recs.map (·.idx)).filter fun i => x.live.contains i && x.result c i == some true)

/-- Writes a filter's entries and completes its item (R90). -/
def State.filterDone (s : State) (x : Strain) (c : Coll) : State :=
  match (s.job? x.job).bind fun j => s.itemRec j x.item with
  | none => s.complete x.job x.item fun it => it.fail 0x10
  | some r =>
    let all := x.matches c
    let cap := field r 0x10 4
    let out := (all.take cap).map fun i => match c.rec? i with
      | some rc => if field r 0x14 1 = 0 then natLe 8 (rc.handle none) else rowOut (rc.handle none) c.types (field r 0x18 8) rc.values
      | none => []
    (s.jobWrite x.job (field r 8 8) out.flatten).complete x.job x.item fun it => { it with
      resA := Nat.min all.length cap, resB := all.length, truncated := decide (cap < all.length) }

/-- The slots that a search's walk begins with: every one that it measures by its code. -/
def Searching.measured (x : Searching) : List Nat := (x.visited ++ x.result.map (·.2)).eraseDups
/-- A search's walk begins, its filter's bitmap whole (R94, R96). -/
def State.beginWalk (s : State) (c : Coll) (exhaustive job item : Nat) (pass : Option (List Nat)) : State :=
  match s.searches.find? fun q => q.job == job && q.item == item with
  | none => s
  | some q =>
    let x := c.searchStart s.free exhaustive { q with pass := pass, since := s.time }
    let r := s.used.useCodes c x.measured
    { r.1 with searches := r.1.searches.map fun q => if q.job == job && q.item == item then { x with codes := r.2 } else q }
/-- A strainer pass that needs no further page ends: a filter completes, a search begins (R96). -/
def State.strainStep (s : State) (x : Strain) : State :=
  match s.coll? x.coll with
  | none => s
  | some c =>
    let x := x.skip c
    let same := fun y : Strain => y.job == x.job && y.item == x.item
    if !x.pages.isEmpty then { s with strains := s.strains.map fun y => if same y then x else y }
    else
      let s : State := { s with strains := s.strains.filter fun y => !same y }
      if !x.search then s.filterDone x c
      else
        let e := ((s.job? x.job).map fun j => j.f 0x40 4).getD 0
        s.beginWalk c e x.job x.item (some (x.matches c))
/-- Begins a strainer pass over the records live now (R86). -/
def State.startStrain (s : State) (x : Strain) (c : Coll) : State :=
  let live := (c.recs.filter (·.st == .live)).map (·.idx)
  let cols := ((predNodes x.pred).filter PNode.leaf).map (·.col)
  let x := { x with coll := c.id, live := live, pages := c.pagesOf (cols ++ x.outs) live, since := s.time }
  ({ s with strains := s.strains ++ [x] } : State).strainStep x

/-- The status of a filter item's own fields. -/
def State.filterItemFail (s : State) (c : Coll) (r : Bytes) : Option Nat :=
  if !itemZero r [(0, 0x15), (0x18, 8)] || decide (1 < field r 0x14 1) ||
      (field r 0x14 1 == 1 && decide (2 ^ c.columns.length ≤ field r 0x18 8)) then some 0x10
  else match s.readPred (field r 0 8) with
    | some p => if predOk c.types p then none else some 0x10
    | none => some 0x10
/-- FILTER at admission: one strainer pass per item (R86 to R90). -/
def State.admitFilter (s : State) (j : Job) : Admission :=
  { whole := firstFail (s.collChecks j true)
    items := ((s.coll? (j.f 0x30 4)).map fun c => s.itemFails j (s.filterItemFail c)).getD [], footprint := 0 }
/-- The columns that an item's rows give out (R90). -/
def State.filterOuts (s : State) (j : Job) (c : Coll) (i : Nat) : List Nat :=
  match s.itemRec j i with
  | some r => if field r 0x14 1 = 0 then [] else (List.range c.columns.length).filter fun k => bit (field r 0x18 8) k
  | none => []
/-- A filter item begins its pass. -/
def State.filterItem (s : State) (j : Job) (c : Coll) (i : Nat) : State :=
  match s.live? j.key i, (s.itemRec j i).bind fun r => s.readPred (field r 0 8) with
  | some _, some p => s.startStrain { job := j.key, item := i, pred := p, outs := s.filterOuts j c i } c
  | _, _ => s
def State.beginFilter (s : State) (j : Job) (c : Option Coll) : State :=
  match c with
  | none => s
  | some c => (List.range j.nItems).foldl (fun s i => s.filterItem j c i) s
def State.startFilter (s : State) (j : Job) : State :=
  s.admitWith j (s.admitFilter j) fun t => t.beginFilter j (s.coll? (j.f 0x30 4))

/-- The item of a strainer pass fails: a page of it is unreadable (R89). -/
def State.failStrain (s : State) (job item : Nat) : State :=
  ({ s with
    strains := s.strains.filter fun y => !(y.job == job && y.item == item)
    searches := s.searches.filter fun y => !(y.job == job && y.item == item) } : State).complete job item fun it => it.fail 0x20
/-- STRAINER_PAGE_EVAL (R82, R87, R89): a column page is found in the DRAM pool, or arrives from a caddy or from reconstruction, and is
evaluated; a copy that fails its check is unusable, and its reconstruction starts; a page that stays unreadable (none) fails the item. -/
def execStrainerPageEval (job item column first : Nat) (page : Option Bytes) (s : State) : Out :=
  match s.strains.find? fun x => x.job == job && x.item == item with
  | none => .next s
  | some x =>
    match s.coll? x.coll, x.pages.find? fun p => p.1 == column && p.2.1 == first with
    | some c, some p =>
      let key : CollPage := { kind := 1, column := column, first := first }
      let here := s.cached (c.pageKey key)
      if !here && page.isNone then .next (s.failStrain job item).tidy
      else if here || (page.map (c.pageOk first)).getD false then
        .next ((s.usePage c key).strainStep { x with pages := x.pages.erase p, since := s.time, rebuilding := false }).tidy
      else .next { s with strains := s.strains.map fun y => if y.job == job && y.item == item then { y with rebuilding := true } else y }
    | _, _ => .next s

-- SEARCH (R95 to R99)

/-- The parameters of Table 4.8 as a job gives them: k, W, rerank, hop limit. -/
def Job.searchK (j : Job) : Nat := j.f 0x34 2
def Job.searchW (j : Job) : Nat := orDefault (j.f 0x36 2) (Nat.max 128 j.searchK)
def Job.searchRerank (j : Job) : Nat := orDefault (j.f 0x3C 2) j.searchW
/-- The ranges of Table 4.8. -/
def Job.searchRanges (j : Job) : Bool :=
  decide (1 ≤ j.searchK) && decide (j.searchK ≤ 1024) && decide (j.searchK ≤ j.searchW) && decide (j.searchW ≤ 4096) &&
  decide (j.f 0x38 1 ≤ 32) && decide (j.searchK ≤ j.searchRerank) && decide (j.searchRerank ≤ j.searchW) && decide (j.f 0x40 4 ≤ 262144)
/-- A search of a query under a job's parameters. -/
def Job.searching (j : Job) (c : Coll) (cnt item : Nat) (q : List (BitVec 32)) : Searching :=
  { job := j.key, item := item, coll := c.id, query := c.query cnt q, k := j.searchK, w := j.searchW, rerank := j.searchRerank
    prefetch := j.f 0x38 1, hopLimit := orDefault (j.f 0x3E 2) (8 * j.searchW), waiting := true
    atStart := c.liveSlots.map (·.idx) }
/-- FP32 values from bytes. -/
def f32s (b : Bytes) (n : Nat) : List (BitVec 32) := (List.range n).map fun i => BitVec.ofNat 32 (field b (4 * i) 4)

/-- The job's predicate: none when it names none, `some none` when it cannot be read or is not well formed. -/
def State.jobPred (s : State) (j : Job) (c : Coll) : Option (Option Bytes) :=
  if j.f 0x48 8 = 0 then none else some ((s.readPred (j.f 0x48 8)).filter (predOk c.types))
/-- What fails every item of a search job: its distance, its predicate (R83, R95). -/
def State.searchBad (s : State) (j : Job) (c : Coll) : Bool := j.f 0x39 1 != c.distance || s.jobPred j c == some none

/-- SEARCH at admission: each item's filter pass begins, or its traversal (R95, R96). -/
def State.admitSearch (s : State) (j : Job) : Admission :=
  { whole := firstFail (s.collChecks j true ++ [(j.searchRanges, 0x12)])
    items := ((s.coll? (j.f 0x30 4)).map fun c => s.itemFails j fun r =>
      if s.searchBad j c || (s.hostBytes (field r 0 8) (4 * c.dim)).isNone then some 0x10 else none).getD []
    footprint := 0 }
/-- A search item begins: its filter's pass first, or its walk. -/
def State.searchItem (s : State) (j : Job) (c : Coll) (i : Nat) : State :=
  match s.live? j.key i, (s.itemRec j i).bind fun r => s.hostBytes (field r 0 8) (4 * c.dim) with
  | some _, some q =>
    let x := j.searching c s.free i (f32s q c.dim)
    let s := s.used
    match s.jobPred j c with
    | some (some p) => ({ s with searches := s.searches ++ [x] } : State).startStrain { job := j.key, item := i, search := true, pred := p } c
    | _ => ({ s with searches := s.searches ++ [x] } : State).beginWalk c (j.f 0x40 4) j.key i none
  | _, _ => s
def State.beginSearch (s : State) (j : Job) (c : Option Coll) : State :=
  match c with
  | none => s
  | some c => (List.range j.nItems).foldl (fun s i => s.searchItem j c i) s
def State.startSearch (s : State) (j : Job) : State :=
  s.admitWith j (s.admitSearch j) fun t => t.beginSearch j (s.coll? (j.f 0x30 4))

def State.search? (s : State) (job item : Nat) : Option Searching :=
  (s.searches.find? fun x => x.job == job && x.item == item).filter fun x => !x.waiting && (s.taskOn job item).isSome
/-- A task ends: its search and its core are freed. -/
def State.endTask (s : State) (job item : Nat) : State :=
  let s : State := { s with searches := s.searches.filter fun x => !(x.job == job && x.item == item) }
  match s.taskOn job item with
  | some c => s.modCore c Core.idle
  | none => s

/-- A walk takes one expansion: with the list page of its front slot, or without edges (R94, R96, R98); a page newly found unreadable is
counted, and its lists are due for mending. -/
def State.expandSearch (s : State) (c : Coll) (x : Searching) (readable : Bool) : State :=
  let page := (x.front.map c.listPage).getD 0
  let r := c.expand s.free x readable
  let u := s.used.useCodes c (r.1.visited.drop x.visited.length)
  let y := { r.1 with since := s.time, rebuilding := false, codes := u.2 }
  let s := ({ u.1 with searches := u.1.searches.map fun z => if z.job == x.job && z.item == x.item then y else z } : State).count 2 c.pot 35 r.2
  if y.lostPages.length = x.lostPages.length then s else
  (s.count 2 c.pot 36 1).modColl c.id fun c => { c with
    slots := c.slots.map fun t => if c.listPage t.idx == page then { t with listLost := true } else t }
/-- SEARCH_EXPANSION (R82, R96, R98): the list page that the search waits for is found in the DRAM pool, or arrives from a caddy or from
reconstruction; a copy that fails its check is unusable, and its reconstruction starts; the page stays unreadable (none). -/
def execSearchExpansion (job item : Nat) (page : Option Bytes) (s : State) : Out :=
  match s.search? job item with
  | none => .next s
  | some x =>
    match s.coll? x.coll with
    | none => .next s
    | some c =>
      let p := (x.front.map c.listPage).getD 0
      let key : CollPage := { kind := 3, first := p * c.listsPer }
      let here := s.cached (c.pageKey key)
      if x.isOver then .next s
      else if x.lostPages.contains p || (!here && page.isNone) then .next (s.expandSearch c x false)
      else if here || (page.map (c.pageOk (p * c.listsPer))).getD false then .next ((s.usePage c key).expandSearch c x true)
      else .next { s with searches := s.searches.map fun y => if y.job == job && y.item == item then { y with rebuilding := true } else y }

/-- SEARCH_RERANK (R93, R96 to R99): the hits are formed and written, the item completes. -/
def execSearchRerank (job item : Nat) (unreadable : List Nat) (s : State) : Out :=
  match s.search? job item with
  | none => .next s
  | some x =>
    match s.coll? x.coll, (s.job? job).bind fun j => s.itemRec j item with
    | some c, some r =>
      if !x.isOver then .next s else
      let hits := c.hits s.free x unreadable
      let s := (s.used.endTask job item).jobWrite job (field r 8 8) (hits.map c.hitRecord).flatten
      .next (s.complete job item fun it =>
        { (if hits.length < x.k then it.note 1 else it) with resA := hits.length, resB := x.nf, damage := x.damage }).tidy
    | _, _ => .next ((s.endTask job item).complete job item fun it => it.fail 0x10).tidy

-- RECALL (R104, R105)

/-- The queries of a recall job: buffer 0, or drawn from the live nodes (the draw is free, log 1). -/
def State.recallQueries (s : State) (j : Job) (c : Coll) : Option (List (List (BitVec 32))) :=
  let n := j.f 0x50 2
  if j.f 0x52 1 = 0 then
    ((s.buffer? j 0).filter fun b => decide (4 * c.dim * n ≤ b.2)).bind fun b =>
      (s.hostRead b.1 (4 * c.dim * n)).map fun raw => (List.range n).map fun i => f32s (slice raw (4 * c.dim * i) (4 * c.dim)) c.dim
  else if c.liveSlots.isEmpty then some []
  else some ((List.range n).map fun i => bfWide ((c.liveSlots.getD (Config.pick s.free i c.liveSlots.length) {}).vector))

/-- One query measured: hits returned, hits found, expansions, pages read, true count, damage, absent edges. -/
structure Measured where
  hits : Nat
  found : Nat
  hops : Nat
  pages : Nat
  nf : Nat
  damage : Bool
  absent : Nat
  lost : List Nat
deriving DecidableEq, Repr

/-- Searches one query and scores every live matching node exactly (R104), some list and vector pages being unreadable. A node whose
vector cannot be read keeps its code distance there too (DEDUCED from R98, assumption log 46). -/
def Coll.measure (c : Coll) (cnt exhaustive : Nat) (lists vecs : List Nat) (x : Searching) : Measured :=
  let x := c.searchStart cnt exhaustive x
  let (x, absent) := c.traverse cnt lists (c.slots.length + 1) (x, 0)
  let hits := c.hits cnt x vecs
  let dist := fun (t : Slot) =>
    if vecs.contains (c.vecPage t.idx) then c.codeDist (cnt + 1000 * t.idx) x.query t else (c.exact (cnt + 1000 * t.idx) x.query t.vector).1
  let best := ((sortNear ((c.slots.filter fun t => t.st == .live && x.passes t).map fun t => (dist t, t.idx))).take x.k).getLast?
  let found := hits.filter fun h => match best, c.slot? h.2.1 with
    | some b, some t => !nearer (b.1, 0) (dist t, 0)
    | _, _ => false
  { hits := hits.length, found := found.length, hops := x.hops, nf := x.nf, damage := x.damage, absent := absent, lost := x.lostPages
    pages := x.read.length + (((x.result.take x.rerank).map fun r => c.vecPage r.2).eraseDups).length }

def f32Nat (n : Nat) : BitVec 32 := toF32 (Val.ofNat n)
/-- The mean of FP32 values in free order. -/
def f32Mean (c : Nat) (l : List (BitVec 32)) : BitVec 32 := f32Div c 90 (sumFree c (l.map ofF32)) (f32Nat l.length)
/-- The summary of Table 4.10 and its records; latencies are free, and so is the recall of a query that nothing matches. -/
def recallOut (c k : Nat) (ms : List Measured) : Bytes :=
  let rec_ := ms.zipIdx.map fun (m, i) => if m.nf = 0 then (Config.freeWord c (1000 + i)).truncate 32 else f32Div c i (f32Nat m.found) (f32Nat (Nat.min k m.nf))
  natLe 4 ms.length ++ natLe 4 k ++ natLe 4 (f32Mean (c + 1) rec_).toNat ++
  natLe 4 (rec_.foldl (f32Min c 91) (rec_.headD 0x3F800000)).toNat ++ natLe 4 (f32Mean (c + 2) (ms.map fun m => f32Nat m.pages)).toNat ++
  natLe 4 (Config.freeWord c 92).toNat ++ zeros 8 ++
  (ms.zipIdx.map fun (m, i) => natLe 4 i ++ natLe 2 m.hits ++ natLe 2 m.found ++ natLe 2 m.hops ++ zeros 2 ++ natLe 4 m.pages).flatten

/-- RECALL at admission: appends, deletes and mending on the collection wait from here (R105). -/
def State.admitRecall (s : State) (j : Job) : Admission :=
  let c := s.coll? (j.f 0x30 4)
  let n := j.f 0x50 2
  let items := (c.map fun c => s.itemFails j fun r =>
    if s.searchBad j c || decide (field r 8 8 < 32 + 16 * n) then some 0x10 else none).getD []
  { whole := firstFail (s.collChecks j (decide (j.f 0x52 1 < 2)) ++ [(j.searchRanges && decide (1 ≤ n) && decide (n ≤ 4096), 0x12)])
    items := items, footprint := 0 }
/-- The recall holds its collection. -/
def State.beginRecall (s : State) (j : Job) : State :=
  if (s.job? j.key).isSome then s.modColl (j.f 0x30 4) fun c => { c with recallers := c.recallers ++ [j.key] } else s
def State.startRecall (s : State) (j : Job) : State := s.admitWith j (s.admitRecall j) (·.beginRecall j)

/-- The pages of a kind among those that stay unreadable: none that lies in the pool. -/
def State.unread (s : State) (c : Coll) (lost : List CollPage) (kind : Nat) : List CollPage := lost.filter fun p => p.kind == kind && !s.cached (c.pageKey p)
/-- The predicate's bitmap of a recall; none where a column page that it needs stays unreadable (R89). -/
def State.recallPass (s : State) (j : Job) (c : Coll) (lost : List CollPage) : Option (Option (List Nat)) :=
  match (s.jobPred j c).join with
  | none => some none
  | some p =>
    let live := (c.recs.filter (·.st == .live)).map (·.idx)
    let x : Strain := { pred := p, live := live, pages := c.pagesOf (((predNodes p).filter PNode.leaf).map (·.col)) live }
    if (x.skip c).pages.any fun q => (s.unread c lost 1).any fun l => l.column == q.1 && l.first == q.2.1 then none
    else some (some (({ x with pages := [] } : Strain).matches c))
/-- RECALL on an admitted job that has a free core: the sample is measured and written (R104, R105), while some of the collection's pages
stay unreadable after their reconstruction (R89, R98). -/
def State.runRecall (s : State) (key : Nat) (lost : List CollPage) : State :=
  match (s.job? key).filter fun j => j.type == 0x0B && j.ready with
  | none => s
  | some j =>
    match s.coll? (j.f 0x30 4), s.itemRec j 0, s.taskCore j.pot with
    | some c, some r, some _ =>
      if !s.coresOn then s else
      match s.recallQueries j c, s.recallPass j c lost with
      | none, _ => s.complete key 0 fun it => it.fail 0x10
      | some _, none => s.complete key 0 fun it => it.fail 0x20
      | some qs, some pass =>
        let lists := (s.unread c lost 3).map fun p => p.first / c.listsPer
        let vecs := (s.unread c lost 4).map fun p => p.first / c.vecsPer
        let ms := qs.zipIdx.map fun (q, i) => c.measure (s.free + 100000 * i) (j.f 0x40 4) lists vecs { j.searching c (s.free + i) 0 q with pass := pass }
        let met := ((ms.map (·.lost)).flatten).eraseDups
        let s := (s.used.count 2 c.pot 35 (ms.map (·.absent)).sum).count 2 c.pot 36 met.length
        let s := s.modColl c.id fun c => { c with slots := c.slots.map fun t => if met.contains (c.listPage t.idx) then { t with listLost := true } else t }
        (s.jobWrite key (field r 0 8) (recallOut s.free j.searchK ms)).complete key 0 fun it =>
          { it with resA := ms.length, damage := ms.any (·.damage) }
    | _, _, _ => s

-- FETCH

/-- The output of a fetch item: token IDs of the record or chunk, or the record as a row of all columns (Table 10.4). -/
def Coll.fetched (c : Coll) (h mode : Nat) : Option Bytes :=
  (c.resolve h).map fun (r, k) =>
    if mode = 0 then ((match k with | some i => c.chunkTokens r i | none => r.tokens).map fun t => natLe 4 t).flatten
    else rowOut (r.handle none) c.types (2 ^ c.columns.length - 1) r.values
def State.fetchItem (s : State) (j : Job) (i : Nat) : State :=
  match s.live? j.key i, s.coll? (j.f 0x30 4), s.itemRec j i with
  | some _, some c, some r =>
    match c.fetched (field r 0 8) (field r 0x14 1) with
    | none => s.complete j.key i fun it => it.fail 0x10
    | some b =>
      let n := field r 0x10 4
      (s.jobWrite j.key (field r 8 8) (b.take n)).complete j.key i fun it => { it with
        resA := Nat.min b.length n, truncated := decide (n < b.length) }
  | some _, _, _ => s.complete j.key i fun it => it.fail 0x10
  | none, _, _ => s
/-- FETCH (Table 10.3). -/
def State.admitFetch (s : State) (j : Job) : Admission :=
  { whole := firstFail (s.collChecks j true)
    items := ((s.coll? (j.f 0x30 4)).map fun c => s.itemFails j fun r =>
      if itemZero r [(0, 0x15)] && decide (field r 0x14 1 < 2) && (c.resolve (field r 0 8)).isSome then none else some 0x10).getD []
    footprint := 0 }
def State.startFetch (s : State) (j : Job) : State :=
  s.admitWith j (s.admitFetch j) fun s => (List.range j.nItems).foldl (fun s i => s.fetchItem j i) s

/-- MENDING_PASS_END (R102, R103): no pass ends at a mending share of 0 or while a `RECALL` runs (R105). -/
def execMendingPassEnd (collection : Nat) (s : State) : Out :=
  match s.coll? collection with
  | none => .next s
  | some c =>
    if !c.recallers.isEmpty || bits (s.rs 0x1900) 36 32 == 0 then .next s
    else .next (s.modColl collection fun c => c.mend s.free).used

end Sys2Proof.Machine
end

