-- ==== Sys2Proof/Machine/JobsSteep.lean ====
section
/-! DEFINITION. Steeping: admission, stages, commits, resumption; generations, deletion of corpora (R22 to R26, R36, R45, R52
to R60). -/

namespace Sys2Proof.Machine

-- Fields of a steep (Table 10.3)

def Job.sflags (j : Job) : Nat := j.f 0x4C 1
def Job.isResume (j : Job) : Bool := bit j.sflags 0
def Job.shardMode (j : Job) : Nat := bits j.sflags 3 2
def Image.layers (im : Image) : Nat := field im.header 0x14 2
def Image.qHeads (im : Image) : Nat := field im.header 0x16 2
def Image.kvHeads (im : Image) : Nat := field im.header 0x18 2
def Image.vocab (im : Image) : Nat := field im.header 0x10 4
def Image.tokeniser (im : Image) : Nat := field im.header 0x0C 4
def Image.isModel (im : Image) : Bool := bit (field im.header 0x0A 2) 1
/-- First layer and count; a count of 0 means all (Table 10.3). -/
def Job.layerRange (j : Job) (layers : Nat) : Nat × Nat :=
  (j.f 0x48 2, if j.f 0x4A 2 = 0 then layers - j.f 0x48 2 else j.f 0x4A 2)

-- What a corpus holds on this module (R22, Table 2.7)

/-- KV heads and leaf indices of a corpus that this module holds: first, count. -/
def State.ownHeads (s : State) (c : Corpus) : Nat × Nat :=
  if c.shard.1 = 1 then partOf c.kvHeads (memberList c.home c.shard.2) s.self else (0, c.kvHeads)
def State.ownLeaves (s : State) (c : Corpus) : Nat × Nat :=
  if c.shard.1 = 2 then partOf c.n (memberList c.home c.shard.2) s.self else (0, c.n)
/-- Leaves of one layer that this module holds. -/
def State.layerLeaves (s : State) (c : Corpus) : Nat := (s.ownHeads c).2 * (s.ownLeaves c).2
/-- Centroid pages that hold a slot of a layer range. -/
def centroidPages (per first count : Nat) : Nat := if per * count = 0 then 0 else (per * (first + count) - 1) / 71 + 1 - per * first / 71
/-- Units of the two hidden-state copies (R54). -/
def hiddenUnits (tokens qHeads : Nat) : Nat := 2 * ceilDiv (tokens * qHeads * 128 * 2) 4096
/-- What a steep of a layer range reserves, collection pages apart (R54). -/
def State.steepUnits (s : State) (c : Corpus) (first count : Nat) : Nat :=
  let per := s.layerLeaves c
  4 * per * count + 4 * centroidPages per first count + hiddenUnits c.tokens c.qHeads
-- Records (R245, R52)

/-- Chunk size and overlap of a steep: 0 takes the collection's (Table 10.3). -/
def Job.steepCut (j : Job) (c : Coll) : Nat × Nat := (orDefault (j.f 0x44 2) c.chunk, orDefault (j.f 0x46 2) c.overlap)
/-- The records of buffer 0, one after another. -/
def recordsGo (c : Coll) (cut : Nat × Nat) : Nat → Bytes → Except Nat (List (List (Option Bytes) × List Nat))
  | 0, _ => .ok []
  | n + 1, b => match recordOf c cut b with
    | .error e => .error e
    | .ok (vals, toks, len) => match recordsGo c cut n (b.drop len) with
      | .ok l => .ok ((vals, toks) :: l)
      | .error e => .error e
/-- The records of a steep job, all of the model's vocabulary (R52). No rule says what a token total other than `TOKENS` earns: it is taken
as malformed (DESIGN CHOICE, assumption log 53). -/
def State.steepRecords (s : State) (j : Job) (c : Coll) (vocab tokens : Nat) : Except Nat (List (List (Option Bytes) × List Nat)) :=
  match (s.buffer? j 0).bind fun b => s.hostRead b.1 b.2 with
  | none => .error 0x10
  | some raw => match recordsGo c (j.steepCut c) (j.f 0x40 4) raw with
    | .error e => .error e
    | .ok l => if (l.map fun r => r.2.length).sum ≠ tokens ∨ l.any (fun r => r.2.any fun t => decide (vocab ≤ t)) then .error 0x10 else .ok l

-- Admission

/-- The corpus that a new steep makes. -/
def newCorpus (j : Job) (im : Image) (home : Nat) : Corpus :=
  { id := j.f 0x30 4, pot := j.pot, tokens := j.f 0x3C 4, layers := im.layers, qHeads := im.qHeads, kvHeads := im.kvHeads
    coll := j.f 0x34 4, gens := List.replicate im.layers 0, range := (0, im.layers), job := some j.key
    shard := (j.shardMode, j.f 0x4D 1), home := home }

/-- The states of the objects that a steep names and its layer range (check 3): R52, R56, R59, R257, Table 3.1; a resume's images are held
to the recorded `MODEL_TAG` values alone (R59). -/
def State.steepStates (s : State) (j : Job) (im enc : Image) (coll : Coll) (c : Option Corpus) : Bool :=
  let r := j.layerRange im.layers
  im.isModel && s.hasEntries im j.pot [3, 4, 5] && s.hasEntries enc j.pot [2] && im.tokeniser == enc.tokeniser &&
  (j.isResume || coll.encoder == enc.id) && decide (1 ≤ r.2) && decide (r.1 + r.2 ≤ im.layers) &&
  (match c with
   | none => !j.isResume && r == (0, im.layers)
   | some c =>
     let shape := c.layers == im.layers && c.kvHeads == im.kvHeads && c.qHeads == im.qHeads
     if j.isResume then c.st == .suspended && shape && (c.mark.stage == 0 || (c.mark.modelTag == im.modelTag && c.mark.encTag == enc.modelTag))
     else c.st == .ready && c.job.isNone && shape)

/-- The ranges of Tables 3.1, 4.6 and 2.8 (check 4), of every field as it is written (R241): R45, R48, R53, R92. -/
def State.steepRanges (s : State) (j : Job) (im : Image) (coll : Coll) (c : Option Corpus) : Bool :=
  let cut := j.steepCut coll
  let k := (memberList s.self (j.f 0x4D 1)).length
  let fresh := match c with | none => true | some c => j.isResume && c.mark.stage == 0
  decide (1 ≤ j.f 0x3C 4) && decide (j.f 0x3C 4 ≤ 4194304) && decide (1 ≤ j.f 0x40 4) && decide (j.f 0x40 4 ≤ 16777216) &&
  (!fresh || decide (coll.recs.length + j.f 0x40 4 ≤ 16777216)) &&
  decide (64 ≤ cut.1) && decide (cut.1 ≤ 2048) && decide (2 * cut.2 ≤ cut.1) &&
  (j.shardMode == 0 || (decide (2 ≤ k) && decide (k ≤ 5) && (j.shardMode != 1 || decide (k ≤ im.kvHeads)))) &&
  (c.isSome || decide (s.corpora.length < 4096)) &&
  (c.isSome || (decide (16 ≤ coll.codeBytes) && decide (coll.codeBytes ≤ 512) && coll.dim % coll.codeBytes == 0 &&
    decide (coll.dim / coll.codeBytes ≤ 64) && decide (16 ≤ coll.degree) && decide (coll.degree ≤ 64) && decide (64 ≤ coll.beam) &&
    decide (coll.beam ≤ 1024) && decide (coll.distance ≤ 2) && (ofF32 coll.alpha).le (Val.ofNat 2) && (Val.ofNat 1).le (ofF32 coll.alpha)))

/-- The owned entries of a steep's working set (R55, Table 9.3): the hidden state, 2 × T × d bytes; a staging of leaves of two times 128
pages and the current layer's keys and values in leaf form, whose sizes no rule gives (DESIGN CHOICE, assumption log 55). -/
def State.steepSpace (s : State) (j : Job) (im : Image) (tokens : Nat) : State :=
  [2 * tokens * im.qHeads * 128, 4718592, tokens * im.kvHeads * 136].zipIdx.foldl (fun s (n, i) =>
    s.allocOwned true { key := .steep j.key i, pot := j.pot, cls := .owned, size := n }) s
/-- Units that a new steep reserves for its collection's pages (R54). -/
def State.collReserve (s : State) (j : Job) (k : Coll) (tokens : Nat) : Nat :=
  k.steepReserve (j.steepCut k) (j.f 0x40 4) tokens (((s.buffer? j 0).map (·.2)).getD 0)
/-- Begins a steep that was admitted: a new corpus, a re-steep of a layer range under a higher generation, or the way on after
the last commit (R26, R54, R58, R59). A re-steep starts past stage 3, as nothing of it is staged, encoded or indexed: one that is
suspended before its first commit goes on at its first layer and needs no records (DESIGN CHOICE, assumption log 53). -/
def State.beginSteep (s : State) (j : Job) (im : Image) (encTag home : Nat) (coll : Option Coll) : State :=
  let id := j.f 0x30 4
  let s := match s.corpus? id with
    | none =>
      let c := newCorpus j im home
      let extra := (coll.map fun (k : Coll) => s.collReserve j k c.tokens).getD 0
      let c := { c with
        units := s.steepUnits c 0 im.layers + extra, collUnits := extra
        mark := { stage := 0, gen := 1, modelTag := im.modelTag, encTag := encTag } }
      { s with corpora := s.corpora ++ [c] }
    | some c =>
      if j.isResume then s.modCorpus id fun c => { c with
        st := .steeping, job := some j.key, mark := { c.mark with modelTag := im.modelTag, encTag := encTag } }
      else
        let r := j.layerRange im.layers
        let units := s.steepUnits c r.1 r.2
        s.modCorpus id fun c => { c with
          job := some j.key, range := r, units := c.units + units
          mark := { stage := 3, layers := r.1, gen := c.gens.foldl Nat.max 0 + 1, modelTag := im.modelTag, encTag := encTag } }
  (s.steepSpace j im (((s.corpus? id).map fun (c : Corpus) => c.tokens).getD 0)).makeRegions j im

/-- STEEP and STEEP_RESUME at admission on the home module. -/
def State.steepAdmission (s : State) (j : Job) : Admission :=
  let im := s.liveImage j.imageId
  let enc := s.liveImage (j.f 0x38 4)
  let coll := s.coll? (j.f 0x34 4)
  let c := s.corpus? (j.f 0x30 4)
  let mode := j.shardMode
  let members := memberList s.self (j.f 0x4D 1)
  let mine := fun (p : Option Nat) => (p.map (· == j.pot)).getD true
  let tokens := (c.map (·.tokens)).getD (j.f 0x3C 4)
  let fresh := match c with | none => true | some c => j.isResume && c.mark.stage == 0
  let units := match im, coll, c with
    | some i, some k, none => s.steepUnits (newCorpus j i s.self) 0 i.layers + s.collReserve j k tokens
    | some i, _, some c => if j.isResume then 0 else s.steepUnits c (j.layerRange i.layers).1 (j.layerRange i.layers).2
    | _, _, _ => 0
  let whole := firstFail [
    (j.formOk && im.isSome && enc.isSome && decide (j.sflags < 16) && decide (mode ≤ 2) && s.memberByteOk (j.f 0x4D 1) (mode != 0), 0x10),
    (mine (im.map (·.pot)) && mine (enc.map (·.pot)) && mine (coll.map (·.pot)) && mine (c.map (·.pot)) &&
      (mode == 0 || j.pot == s.servingPot), 0x40),
    ((match im, enc, coll with | some i, some e, some k => s.steepStates j i e k c | _, _, _ => false), 0x10),
    ((match im, coll with | some i, some k => s.steepRanges j i k c | _, _ => true), 0x12),
    (s.allPresent members, 0x22),
    (decide (67108864 ≤ s.dramMeasure j.pot) && decide (units ≤ s.unitsFree j.pot), 0x11)]
  let foot := (im.map fun i => s.regionBytes i j.pot true + 2 * tokens * i.qHeads * 128).getD 0
  let bad := match im, coll with
    | some i, some k => if fresh then (match s.steepRecords j k i.vocab tokens with | .ok _ => none | .error e => some e) else none
    | _, _ => none
  { whole := whole, items := (bad.map fun e => [(0, e)]).getD [], footprint := foot }
/-- A steep begins on its home module; a group's members are told. -/
def State.beginHomeSteep (s : State) (j : Job) (im enc : Option Image) (coll : Option Coll) : State :=
  match s.job? j.key, im, enc with
  | some _, some i, some e =>
    let s := s.beginSteep j i e.modelTag s.self coll
    if j.shardMode = 0 then s else s.control j (j.f 0x30 4) (memberList s.self (j.f 0x4D 1)) (slice j.desc 0x30 80)
  | _, _, _ => s
def State.admitSteep (s : State) (j : Job) : State :=
  s.admitWith j (s.steepAdmission j) fun t =>
    t.beginHomeSteep j (s.liveImage j.imageId) (s.liveImage (j.f 0x38 4)) (s.coll? (j.f 0x34 4))

/-- A member's part of a sharded steep, under its serving pot: its own share, from the token stream to come (R346). -/
def State.admitSteepMember (s : State) (j : Job) (home : Nat) : State :=
  let im := s.liveImage j.imageId
  let c := s.corpus? (j.f 0x30 4)
  let units := match im, c with
    | some i, none => s.steepUnits (newCorpus j i home) 0 i.layers
    | some i, some c => if j.isResume then 0 else s.steepUnits c (j.layerRange i.layers).1 (j.layerRange i.layers).2
    | none, _ => 0
  let state := match c with
    | none => !j.isResume
    | some c => c.pot == j.pot && (if j.isResume then c.st == .suspended else c.st == .ready && c.job.isNone)
  let whole := firstFail [
    (im.isSome && bit (j.f 0x4D 1) s.self, 0x10), ((im.map fun i => i.pot == j.pot).getD true, 0x40),
    (state && (im.map fun i => i.isModel && s.hasEntries i j.pot [3, 4, 5]).getD false, 0x10),
    (c.isSome || decide (s.corpora.length < 4096), 0x12),
    (decide (67108864 ≤ s.dramMeasure j.pot) && decide (units ≤ s.unitsFree j.pot), 0x11)]
  let foot := (im.map fun i => s.regionBytes i j.pot true + 2 * j.f 0x3C 4 * i.qHeads * 128).getD 0
  s.admitWith j { whole := whole, items := [], footprint := foot } fun s =>
    match im with | some i => s.beginSteep j i 0 home none | none => s

-- Generations and deletion (R26, R56)

/-- A generation of a layer is in use: by a step, or by a job that runs no steps. -/
def State.genUsed (s : State) (corpus layer gen : Nat) : Bool :=
  (s.pots.toList.any fun p => p.loop.pinned.contains (corpus, layer, gen)) || s.jobs.any fun j => j.gens.contains (corpus, layer, gen)
/-- Leaves of superseded generations that nothing uses are freed with their units; superseded centroid pages once the re-steep
has completed and no layer of the corpus is used under another generation (R26). -/
def State.freeGens (s : State) (id : Nat) : State :=
  match s.corpus? id with
  | none => s
  | some c =>
    let per := c.kvHeads * c.n
    let keep := fun (p : LeafPage) =>
      let l := p.slot / per
      p.gen == c.gens.getD l 0 || (c.job.isSome && p.gen == c.mark.gen) || s.genUsed id l p.gen
    let stale := fun (x : Nat × Nat × Nat) => x.1 == id && x.2.2 != c.gens.getD x.2.1 0
    let old := (s.pots.toList.any fun p => p.loop.pinned.any stale) || s.jobs.any fun j => j.gens.any stale
    let current := fun (p : Nat × Nat × Bytes) => (c.job.isSome || old) || !(c.centroids.any fun q => q.1 == p.1 && decide (p.2.1 < q.2.1))
    let leaves := c.leaves.filter keep
    let cents := c.centroids.filter current
    let freed := 4 * ((c.leaves.length - leaves.length) + (c.centroids.length - cents.length))
    let s := s.dropEntries fun e => match e.key with
      | .leaf sp l h i g => sp == id && !(leaves.any fun p => p.slot == c.slot l h i && p.gen == g)
      | _ => false
    s.modCorpus id fun c => { c with leaves := leaves, centroids := cents, units := c.units - freed }
def State.freeAllGens (s : State) : State := s.corpora.foldl (fun s c => s.freeGens c.id) s

/-- A corpus in deletion goes when the last cup that attends it has left and no job that runs no steps uses it (R26). -/
def State.settleCorpora (s : State) : State :=
  let gone := s.corpora.filter fun c => c.st == .deleting && !(s.cups.any fun k => k.corpus == some c.id) &&
    !(s.jobs.any fun j => j.gens.any fun g => g.1 == c.id)
  gone.foldl (fun (s : State) c => ({ s with corpora := s.corpora.filter (·.id != c.id) } : State).dropEntries fun e => match e.key with
    | .leaf sp _ _ _ _ => sp == c.id
    | .centroid k _ => k == c.id
    | _ => false) s

-- Commits (R57)

/-- The pages of one committed layer: its leaves and the centroid pages that hold its slots. -/
def State.layerPages (s : State) (c : Corpus) (layer : Nat) (rows : List KvRow) : List LeafPage :=
  let h := s.ownHeads c
  let r := s.ownLeaves c
  ((List.range h.2).map fun hk => (List.range r.2).map fun ik =>
    let head := h.1 + hk
    let i := r.1 + ik
    let toks := (rows.drop (head * c.tokens + 128 * i)).take (Nat.min 128 (c.tokens - 128 * i))
    { slot := c.slot layer head i, gen := c.mark.gen
      page := leafPage (s.free + 100 * (head * c.n + i)) false c.id layer head i (128 * i) c.mark.gen c.mark.modelTag toks : LeafPage }).flatten
/-- Centroid page `k` of a corpus from its leaves: for each slot the generation given, else the current one. -/
def Corpus.centroidPageOf (c : Corpus) (k gen : Nat) : Bytes :=
  let total := c.layers * c.kvHeads * c.n
  let cs := (List.range (Nat.min 71 (total - 71 * k))).map fun i =>
    let slot := 71 * k + i
    let cur := c.gens.getD (slot / (c.kvHeads * c.n)) 0
    match (c.leaves.find? fun p => p.slot == slot && p.gen == gen).orElse fun _ => c.leaves.find? fun p => p.slot == slot && p.gen == cur with
    | some p => leafCentroid p.page
    | none => List.replicate 128 0
  centroidPage c.id (71 * k) gen cs

/-- A layer is committed: its leaves and centroid pages durable, its lost entries cleared, its generation current, the hidden
state in the copy that alternates by layer (R24, R36, R57). -/
def State.commitLayer (s : State) (c : Corpus) (layer : Nat) (d : StageData) : State :=
  let pages := s.layerPages c layer d.rows
  let per := c.kvHeads * c.n
  let ks := (List.range (if per = 0 then 0 else (per * (layer + 1) - 1) / 71 + 1)).filter fun k => decide (per * layer / 71 ≤ k)
  let s := s.used.modCorpus c.id fun (c : Corpus) =>
    let c : Corpus := { c with
      leaves := (c.leaves.filter fun (p : LeafPage) => !(p.gen == c.mark.gen && decide (per * layer ≤ p.slot) && decide (p.slot < per * (layer + 1)))) ++ pages
      gens := c.gens.set layer c.mark.gen
      lost := c.lost.filter fun e => e.layer != layer
      hidden := if layer % 2 = 0 then (d.hidden, c.hidden.2) else (c.hidden.1, d.hidden)
      mark := { c.mark with stage := 4, layers := layer + 1 } }
    { c with centroids := (c.centroids.filter fun (p : Nat × Nat × Bytes) => !(ks.contains p.1 && p.2.1 == c.mark.gen)) ++
        ks.map fun k => (k, c.mark.gen, c.centroidPageOf k c.mark.gen) }
  let s := s.dropEntries fun e => match e.key with
    | .leaf sp l _ _ g => sp == c.id && l == layer && g == c.mark.gen
    | .centroid k n => k == c.id && ks.contains n
    | _ => false
  s.freeGens c.id

/-- The last stage: the checkpoint copies return, the corpus is READY and the job completes once its members have answered (Table 3.2, R54, R346). -/
def State.finishSteep (s : State) (j : Job) (c : Corpus) : State :=
  let s := s.modCorpus c.id fun c => { c with
    graph := c.graph || bit j.sflags 1
    hidden := ([], []), stream := [], vecs := [], outs := [], sentLayer := none, units := c.units - hiddenUnits c.tokens c.qHeads }
  let n := ((s.corpus? c.id).map fun c => (c.gens.filter (· != 0)).length).getD 0
  (s.ownDone j.key fun i => { i with resA := n }).freeGens c.id

/-- Stage 1 (Table 3.2): the records go to the collection's pages, where no pass or search that began before meets them (R86), the token stream to the staging pages; a sharded steep sends
the stream to its members (R346). -/
def State.commitStaged (s : State) (j : Job) (c : Corpus) (k : Coll) (recs : List (List (Option Bytes) × List Nat)) : State :=
  let (k', idx) := recs.foldl (fun (a : Coll × List Nat) r => match a.1.nextRec with
    | some (i, g) => (a.1.setRec { idx := i, gen := g, values := r.1, tokens := r.2, cut := j.steepCut k }, a.2 ++ [i])
    | none => a) (k, [])
  let stream := (recs.map (·.2)).flatten
  let s := idx.foldl (fun s i => s.notBefore k' i) ((s.modColl k.id fun _ => k').dropMoved k')
  let s := s.modCorpus c.id fun c => { c with
    stream := stream, recs := idx, mark := { c.mark with stage := 1 } }
  (s.others (memberList c.home c.shard.2)).foldl (fun s n => if c.shard.1 = 0 then s else
    s.sendTo n 7 c.id (targetOf 0 j.jobId) { job := j.key, lfmt := 6, tags := j.pktTags, data := (stream.map fun t => natLe 4 t).flatten }) s
/-- Stage 3 (Table 3.2, R54, R92): the chunk graph is built or extended; its pages take of the units reserved for them, the rest
return. -/
def State.commitIndexed (s : State) (c : Corpus) (k : Coll) : State :=
  let chunks := (c.recs.map fun i => (List.range (((k.rec? i).map k.chunks).getD 0)).map fun n => (i, n)).flatten
  let k' := chunks.zipIdx.foldl (fun k (x, n) => k.insertChunk (s.free + 100000 * (n + 1)) x.1 x.2 (c.vecs.getD n [])) k
  let k' := { k' with units := Nat.min (Nat.max k.units k'.unitsNow) (k.units + c.collUnits) }
  let s := ((s.modColl k.id fun _ => k').useCodes k' (c.recs.map k'.slotsOf).flatten).1
  s.used.modCorpus c.id fun c => { c with
    vecs := [], units := c.units - c.collUnits, collUnits := 0, mark := { c.mark with stage := 3 } }

/-- Members of a sharded corpus. -/
def Corpus.shareMembers (c : Corpus) : List Nat := memberList c.home c.shard.2
/-- The corpus that a running steep works on, when no program of it is still on the cores. -/
def State.steeping (s : State) (job : Nat) : Option (Job × Corpus) :=
  (s.job? job).bind fun j =>
    if j.type = 0x03 ∧ j.phase = .admitted ∧ (s.pot j.pot).running = some job ∧ s.coresOf job = [] ∧ !j.own then
      (s.corpora.find? fun c => c.job == some job).map fun c => (j, c)
    else none

/-- The bytes of kind 8 for a layer (R346): `FINAL` outputs as link blocks in native mode, partial records in pool mode. -/
def State.prefillBytes (s : State) (c : Corpus) (layer : Nat) (l : List HeadOut) : Bytes :=
  (l.zipIdx.map fun (x, n) =>
    if c.shard.1 = 1 then linkBlocks (x.o.map ofF32)
    else partialRecord (s.free + n) layer 0 x.head { empty := x.tokens == 0, tokens := x.tokens, lam := x.lam, o := x.o }).flatten
/-- Sends the attention outputs of a layer to every other member, each once (R346). -/
def State.sendPrefill (s : State) (j : Job) (c : Corpus) (layer : Nat) (l : List HeadOut) : State :=
  if c.shard.1 = 0 then s else
  let b := s.prefillBytes c layer l
  let s := (s.others c.shareMembers).foldl (fun s n => s.sendTo n 8 c.id (targetOf (layer * 65536) j.jobId)
    { job := j.key, tc := 1, lfmt := if c.shard.1 = 1 then 1 else 3, tags := j.pktTags, data := b }) s
  s.used.modCorpus c.id fun c => { c with sentLayer := some layer, outs := c.outs.filter fun x => decide (layer ≤ x.2.1) }
/-- The layer's inputs are not whole: some member's outputs of the layer before it have not come (R346). -/
def State.outsDue (s : State) (c : Corpus) (layer : Nat) : Bool :=
  c.shard.1 != 0 && c.sentLayer.any fun l => l + 1 == layer &&
    (s.others c.shareMembers).any fun o => !(c.outs.any fun x => x.1 == o && x.2.1 == l)

/-- STEEP_CHECKPOINT_COMMIT (R57, Table 3.2): the next stage's or layer's commit record becomes durable; the last one makes the
corpus READY. -/
def execSteepCheckpointCommit (job : Nat) (data : StageData) (s : State) : Out :=
  match s.steeping job with
  | none => .next s
  | some (j, c) =>
    if !s.writeOk then .next (s.abortJob job 0x20).tidy else
    let coll := s.coll? c.coll
    let next := fun (s : State) => match s.job? job with | some j => (s.startSteep j).tidy | none => s.tidy
    match c.mark.stage with
    | 0 =>
      match coll, s.image? j.imageId with
      | some k, some im =>
        match s.steepRecords j k im.vocab c.tokens with
        | .ok recs => .next (next (s.commitStaged j c k recs))
        | .error e => .next (s.abortJob job e).tidy
      | _, _ => if j.remote.isSome then .next s else .next (s.abortJob job 0x10).tidy
    | 1 => .next (next (s.modCorpus c.id fun c => { c with vecs := data.vectors, mark := { c.mark with stage := 2 } }))
    | 2 =>
      match coll with
      | some k => .next (next (s.commitIndexed c k))
      | none => .next (s.abortJob job 0x10).tidy
    | _ =>
      let layer := Nat.max c.range.1 c.mark.layers
      if c.range.1 + c.range.2 ≤ layer || s.outsDue c layer then .next s else
      let s := (s.commitLayer c layer data).sendPrefill j c layer data.outs
      if layer + 1 < c.range.1 + c.range.2 then .next (next s) else .next (s.finishSteep j c).tidy

end Sys2Proof.Machine
end

