-- ==== Sys2Proof/Machine/JobsGenerate.lean ====
section
/-! DEFINITION. Cups and the step loop, `ATTEND` and `RUN` (R35, R46 to R51, R61 to R77, R172, R257). -/

namespace Sys2Proof.Machine

-- Fields of generate and attend jobs (Table 10.3)

/-- A count whose 0 selects a default and whose all-ones selects 0. -/
def countField (v all d : Nat) : Nat := if v = 0 then d else if v = all then 0 else v
def Job.budget (j : Job) : Nat := countField (j.f 0x38 2) 0xFFFF 512
def Job.recent (j : Job) : Nat := countField (j.f 0x3A 1) 0xFF 8
def Job.sink (j : Job) : Nat := countField (j.f 0x3B 1) 0xFF 2
def Job.dense (j : Job) : Bool := bit (j.f 0x3C 1) 0
def Job.failCup (j : Job) : Bool := bit (j.f 0x3C 1) 1
def Job.flat (j : Job) : Bool := bit (j.f 0x3C 1) 2
/-- The score scale; 0 means 1 ÷ √128 (Table 10.3). -/
def Job.scale (j : Job) : BitVec 32 := if j.f 0x40 4 = 0 then 0x3DB504F3 else BitVec.ofNat 32 (j.f 0x40 4)
def Job.corpusId (j : Job) : Option Nat := if j.f 0x30 4 = 0xFFFFFFFF then none else some (j.f 0x30 4)
def Job.collId (j : Job) : Option Nat := if j.f 0x34 4 = 0xFFFFFFFF then none else some (j.f 0x34 4)
/-- The ranges of B, R and S (Table 2.8). -/
def Job.selectRanges (j : Job) : Bool := decide (j.budget ≤ 8192) && decide (j.recent ≤ 64) && decide (j.sink ≤ 16)
/-- Minimum working set of `n` cups or items (R49). -/
def minWorkingSet (n qHeads tcup : Nat) : Nat := 4718592 + n * (qHeads * 1024 + tcup)

-- Items of a generate job

/-- An FP32 option within a range. -/
def f32In (lo hi v : BitVec 32) : Bool := (ofF32 lo).le (ofF32 v) && (ofF32 v).le (ofF32 hi)
/-- The sampling block's ranges (Table 3.6); `GREEDY` ignores `TEMP` (R243). -/
def samplingRanges (b : Bytes) : Bool :=
  (bit (field b 0x16 2) 0 || field b 0 4 == 0 || f32In 0x3C23D70A 0x41800000 (BitVec.ofNat 32 (field b 0 4))) &&
  decide (field b 4 2 ≤ 1024) && decide (field b 6 2 ≤ 1024) &&
  (let p := optF32 b 8; (ofF32 p).le (Val.ofNat 1) && (Val.ofNat 0).lt (ofF32 p)) &&
  f32In 0 0x3F800000 (BitVec.ofNat 32 (field b 0x0C 4)) && f32In 0x3F800000 0x40800000 (optF32 b 0x10) &&
  decide (field b 0x14 1 ≤ 8) && decide (field b 0x15 1 ≤ 8)
/-- Reserved parts of the sampling block (Table 10.5). -/
def samplingForm (b : Bytes) : Bool :=
  decide (field b 0x16 2 < 2) && (List.range 8).all fun i => decide (i < field b 0x14 1) || field b (0x18 + 4 * i) 4 == 0

/-- The tokens of one prompt segment (R244). -/
def State.segment (s : State) (coll : Option Coll) (g : Bytes) : Option (List Nat) :=
  let n := field g 4 4
  let v := field g 8 8
  if field g 1 3 ≠ 0 then none else
  match field g 0 1 with
  | 0 => (s.hostBytes v (4 * n)).map fun b => (List.range n).map fun i => field b (4 * i) 4
  | 1 => if n ≠ 0 then none else coll.bind (·.handleTokens v)
  | 2 => if n ≠ 0 then none else (s.hostRead v 8).bind fun h => coll.bind (·.handleTokens (field h 0 8))
  | _ => none
/-- The prompt of an item: its segments in order. -/
def State.promptOf (s : State) (coll : Option Coll) (r : Bytes) : Option (List Nat) :=
  let n := field r 0x1C 1
  (s.hostBytes (field r 0x10 8) (16 * n)).bind fun segs =>
    (List.range n).foldl (fun (a : Option (List Nat)) i => a.bind fun l => (s.segment coll (slice segs (16 * i) 16)).map (l ++ ·)) (some [])

/-- Chunk of an item (R62, R243). -/
def itemChunk (r : Bytes) : Nat := orDefault (field r 0x1E 2) 128
/-- The status an item earns by its own fields, in the order of Table 10.6. No rule gives an item of no new tokens, an empty prompt or
a prompt token at or above `VOCAB` a status: the first is taken past its limit, the others as malformed (DESIGN CHOICE, assumption log
53). -/
def State.generateItemFail (s : State) (coll : Option Coll) (tokens vocab : Nat) (r : Bytes) : Option Nat :=
  let b := slice r 0x40 64
  let m := field r 0x18 4
  let c := itemChunk r
  let p := s.promptOf coll r
  firstFail [
    (itemZero r [(0, 0x1D), (0x1E, 10), (0x40, 64)] && samplingForm b, 0x10),
    (decide (1 ≤ field r 0x1C 1) && decide (field r 0x1C 1 ≤ 64) && decide (16 ≤ c) && decide (c ≤ 1024) && c % 16 == 0 && decide (1 ≤ m) &&
      samplingRanges b && decide (tokens + (p.map (·.length)).getD 0 + m ≤ 4194304), 0x12),
    ((match p with | some l => !l.isEmpty && l.all (· < vocab) | none => false) &&
      decide (16 + m * (8 + 8 * field b 0x15 1) ≤ field r 8 8), 0x10)]

-- Admission

/-- A corpus may be named by a job of a pot: its own, and a sharded one only by the serving pot (R23, R340). -/
def State.mayName (s : State) (pot : Nat) (c : Corpus) : Bool := c.pot == pot && (c.shard.1 == 0 || pot == s.servingPot)
def State.corpusReady (s : State) (id : Option Nat) : Bool :=
  match id with | none => true | some i => match s.corpus? i with | some c => c.st == .ready | none => false
/-- Members of a corpus's shard group. -/
def Corpus.members (c : Corpus) : List Nat := if c.shard.1 = 0 then [c.home] else memberList c.home c.shard.2

/-- A job's pinned staging keeps within the pot's share (R214; DEDUCED, assumption log 54). -/
def State.stagingFits (s : State) (p size : Nat) : Bool := decide (s.pinned true p + size ≤ s.share true p)

/-- GENERATE at admission (R50, R61, R247): its items wait to join in submission order. -/
def State.admitGenerate (s : State) (j : Job) : Admission :=
  let im := s.liveImage j.imageId
  let c := j.corpusId.bind s.corpus?
  let coll := j.collId.bind s.coll?
  let tcup := (im.map fun i => i.layers * i.kvHeads * 18432).getD 0
  let whole := firstFail [
    (j.formOk && im.isSome && decide (j.f 0x3C 1 < 8), 0x10),
    ((im.map fun i => i.pot == j.pot).getD true && (c.map (s.mayName j.pot)).getD true && (coll.map fun k => k.pot == j.pot).getD true, 0x40),
    ((im.map fun i => i.isModel && s.hasEntries i j.pot [3, 4, 5] &&
        (c.map fun c => c.layers == i.layers && c.kvHeads == i.kvHeads && c.qHeads == i.qHeads).getD true).getD false &&
      s.corpusReady j.corpusId && (j.collId.isNone || coll.isSome), 0x10),
    (j.selectRanges, 0x12),
    ((c.map fun c => s.allPresent c.members).getD true, 0x22),
    (decide (minWorkingSet j.nItems ((im.map (·.qHeads)).getD 0) tcup ≤ s.dramMeasure j.pot) && s.stagingFits j.pot 4718592, 0x11)]
  let tokens := (c.map (·.tokens)).getD 0
  let items := (im.map fun i => s.itemFails j (s.generateItemFail coll tokens i.vocab)).getD []
  { whole := whole, items := items, footprint := (im.map fun i => s.regionBytes i j.pot true).getD 0 }
/-- An item takes its prompt and waits to join the belt (R64). -/
def State.queueItem (s : State) (j : Job) (coll : Option Coll) (i : Nat) : State :=
  let p := ((s.itemRec j i).bind (s.promptOf coll)).getD []
  let s := s.modItem j.key i fun x => { x with prompt := p }
  { s with waiting := s.waiting ++ [(j.key, i)] }
/-- GENERATE begins: the regions and the staging of its image are claimed, and its items wait to join. -/
def State.beginGenerate (s : State) (j : Job) (im : Option Image) (coll : Option Coll) : State :=
  match s.job? j.key, im with
  | some k, some i =>
    let s := (s.makeRegions j i).claim { key := .staging j.key, pot := j.pot, cls := .pinned, size := 4718592 }
    (k.items.filter (!·.done)).foldl (fun (s : State) it => s.queueItem j coll it.idx) s
  | _, _ => s
def State.startGenerate (s : State) (j : Job) : State :=
  s.admitWith j (s.admitGenerate j) fun t => t.beginGenerate j (s.liveImage j.imageId) (j.collId.bind s.coll?)

-- The end of a step: tokens (R74 to R77)

/-- Tokens of the corpus that a cup attends. -/
def State.cupTokens (s : State) (c : Cup) : Nat := ((c.corpus.bind s.corpus?).map (·.tokens)).getD 0

/-- Writes a token record, then the header's count (R77); the header of an item that ends before any token is sampled is never written
(DESIGN CHOICE, assumption log 53). -/
def State.writeToken (s : State) (c : Cup) (rec_ : Bytes) (alts : Nat) : State :=
  let n := c.out.length
  (s.jobWrite c.job (c.outAddr + 16 + n * (8 + 8 * alts)) rec_).jobWrite c.job c.outAddr (natLe 4 (n + 1) ++ zeros 12)

/-- Adds a step's key and value rows to a cup's open tail leaves. -/
def addRows (open_ : List OpenLeaf) (rows : List (Nat × Nat × KvRow)) (layers heads n : Nat) : List OpenLeaf :=
  ((List.range layers).map fun l => (List.range heads).map fun h =>
    let old := ((open_.find? fun o => o.layer == l && o.head == h).map (·.rows)).getD []
    let new := ((rows.filter fun r => r.1 == l && r.2.1 == h).map (·.2.2)).take n
    let new := new ++ List.replicate (n - new.length) { key := zeros 68, value := zeros 68 }
    ({ layer := l, head := h, rows := old ++ new } : OpenLeaf)).flatten

/-- Samples a cup's token at the end of its step, writes it, and ends the cup on a stop token or the M-th token (Table 3.3). -/
def State.sampleCup (s : State) (c : Cup) (logits : List (BitVec 32)) : State :=
  let pos := s.cupTokens c + c.tailTokens.length
  let (tok, prob) := sampleToken logits c.sampling c.seed pos c.tailTokens
  let alts := field c.sampling 0x15 1
  let s := s.writeToken c (tokenRecord tok prob alts) alts
  let out := c.out ++ [tok]
  let stops := (List.range (field c.sampling 0x14 1)).map fun i => field c.sampling (0x18 + 4 * i) 4
  let ended := stops.contains tok || decide (c.maxNew ≤ out.length)
  (s.modCup c.idx fun k => { k with out := out, phase := if ended then .leaving else .decode }).modItem c.job c.item fun i =>
    { i with resA := out.length, resB := c.seed }

/-- What the step that ends did for one cup: its rows joined its tail; after the last prompt token, and in decode, a token is
sampled; a cup whose item failed leaves (Table 3.3). -/
def State.endStepCup (s : State) (outs : List StepOut) (layers heads : Nat) (c : Cup) : State :=
  let o := (outs.find? (·.cup == c.idx)).getD { cup := c.idx, rows := [], logits := [] }
  let n := if c.phase == .prefill then c.chunk else 1
  let failed := ((s.item? c.job c.item).map fun i => decide (0x10 ≤ i.status)).getD c.home.isNone
  let c' := { c with
    openLeaves := addRows c.openLeaves o.rows layers heads n, steps := c.steps + 1
    processed := if c.phase == .prefill then c.processed + n else c.processed, chunk := 0
    phase := if failed then .leaving else c.phase }
  let s := s.modCup c.idx fun _ => c'
  if c'.phase == .leaving || c'.home.isSome || (c.phase == .prefill && decide (c'.processed < c'.prompt.length)) then s
  else s.sampleCup c' o.logits

/-- The image that a cup's job runs. -/
def State.cupImage (s : State) (c : Cup) : Option Image := if c.home.isSome then none else s.image? c.image
/-- Layers and KV heads of a cup's model. -/
def State.cupShape (s : State) (c : Cup) : Nat × Nat :=
  match s.cupImage c, c.corpus.bind s.corpus? with
  | some im, _ => (im.layers, im.kvHeads)
  | none, some k => (k.layers, k.kvHeads)
  | none, none => (((c.openLeaves.map (·.layer)).foldl Nat.max 0) + 1, ((c.openLeaves.map (·.head)).foldl Nat.max 0) + 1)
def State.potCups (s : State) (p : Nat) : List Cup := s.cups.filter (·.pot == p)

/-- A cup's item completes (R35, R37, R77). -/
def State.finishCup (s : State) (c : Cup) : State := s.complete c.job c.item id

/-- The attention over pages has ended: those that nothing else attends are free to be evicted (R30, R212). -/
def State.releasePages (s : State) (l : List LeafRead) : State := l.foldl (fun s r => s.release r.poolKey) s

/-- A step of a pot ends (Table 3.3): every cup's tokens, then the completions of those that leave; the pages it held and the layers in
the staging ring are free, its pinned generations are released (R26, R30, R35, R72). -/
def State.endStep (s : State) (p : Nat) (outs : List StepOut) : State :=
  let s := (s.potCups p).foldl (fun s c => let sh := s.cupShape c; s.endStepCup outs sh.1 sh.2 c) s
  let failed := fun (s : State) (c : Cup) => ((s.item? c.job c.item).map fun i => decide (0x10 ≤ i.status)).getD false
  let s := (s.potCups p).foldl (fun s c => if c.phase == .leaving then (s.modCup c.idx fun k => { k with failed := failed s c }).finishCup c else s) s
  let pages := (s.pot p).loop.selected
  let s := s.modPot p fun q => { q with loop := { q.loop with
    running := false, count := (q.loop.count + 1) % 2 ^ 32, pinned := [], spaces := [], selected := [], queued := [], queries := none
    asked := [], records := [] } }
  let s := (s.releasePages pages).modTiers fun t => { t with
    ring := t.ring.filter fun r => !(s.images.any fun im => im.id == r.1 && im.pot == p) }
  s.freeAllGens

-- Order 1: leaves (R63, R65, R71)

/-- A cup that has left gives up its index, its reservation and its tail space (R63, R71). -/
def State.releaseCup (s : State) (c : Cup) : State :=
  (({ s with cups := s.cups.filter (·.idx != c.idx) } : State).dropEntries fun e => match e.key with
    | .cup i => i == c.idx
    | .growth i _ _ _ => i == c.idx
    | .leaf sp _ _ _ _ => sp == c.tail
    | _ => false).modPot c.pot fun q => { q with loop := { q.loop with
      growth := q.loop.growth.filter (·.1 != c.idx), tailWait := q.loop.tailWait.filter (·.1 != c.idx) } }
def State.releaseLeft (s : State) (p : Nat) : State :=
  (((s.potCups p).filter (·.phase == .leaving)).foldl State.releaseCup s).settleCorpora

-- Order 2: joins (R64, R67)

/-- Units of a cup's tail reservation (R67). -/
def tailUnits (layers heads prompt maxNew chunk : Nat) : Nat :=
  4 * (layers * heads * (ceilDiv (prompt + maxNew) 128 + ceilDiv prompt (Nat.min chunk 128)))

/-- A cup takes its place on the belt; its item leaves the queue and reports the seed (R64, R253). -/
def State.seat (s : State) (c : Cup) : State :=
  ({ s.used with cups := s.cups ++ [c], nextId := s.nextId + 1, waiting := s.waiting.erase (c.job, c.item) } : State).modItem c.job c.item
    fun i => { i with resB := c.seed, prompt := [] }
/-- A cup that joins claims its bytes of the DRAM pool; without them it does not join (R64, R68). -/
def State.placeCup (s : State) (c : Cup) (size : Nat) : Option State :=
  let a := s.allocPinned true { key := .cup c.idx, pot := c.pot, cls := .pinned, size := size }
  if a.2 = .granted then some (a.1.seat c) else none
/-- A waiting item joins when R64 allows: which free index it takes is free, and a seed of 0 is chosen by the module. -/
def State.join (s : State) (p key idx : Nat) : Option State :=
  match s.live? key idx, (s.job? key).bind fun j => s.image? j.imageId with
  | some (j, i), some im =>
    let free := (List.range 256).filter fun n => !(s.cups.any (·.idx == n))
    let corpora := ((s.potCups p).filterMap (·.corpus) ++ j.corpusId.toList).eraseDups
    let r := (s.itemRec j idx).getD (zeros 128)
    let units := tailUnits im.layers im.kvHeads i.prompt.length (field r 0x18 4) (itemChunk r)
    if free.isEmpty ∨ 64 < corpora.length ∨ s.unitsFree p < units ∨ s.claimWaits key im.id then none else
    let cup := free.getD (Config.pick s.free 0 free.length) 0
    let seed := field r 0x78 8
    let seed := if seed = 0 then (Config.freeWord s.free 1).toNat else seed
    let c : Cup := { idx := cup, pot := p, job := key, item := idx, image := im.id, corpus := j.corpusId, prompt := i.prompt, maxNew := field r 0x18 4
                     sampling := slice r 0x40 64, seed := seed, outAddr := field r 0 8, resultAddr := field r 0x20 8
                     tail := s.nextId, units := units }
    s.placeCup c (im.qHeads * 1024 + im.layers * im.kvHeads * 18432)
  | _, _ => none

/-- Waiting items are considered in submission order; the first that cannot join is deferred and stops the rest (R64). -/
def State.joins (s : State) (p : Nat) : List (Nat × Nat) → State
  | [] => s
  | (key, idx) :: rest =>
    match s.live? key idx with
    | none => State.joins { s with waiting := s.waiting.erase (key, idx) } p rest
    | some (j, i) =>
      match s.join p key idx with
      | some s' => State.joins s' p rest
      | none => if i.deferred then s else (s.postDeferred j idx).modItem key idx fun i => { i with deferred := true }
def State.joinAll (s : State) (p : Nat) : State :=
  s.joins p (s.waiting.filter fun w => match s.job? w.1 with | some j => j.pot == p | none => false)

-- Order 3: seals (R68, R69)

/-- Seals `n` tokens of every open leaf of a cup as the next tail leaf; `part` writes it early, without a growth buffer. No steep writes a
tail leaf, and no rule gives its `STEEP_GEN`: it is a free value (log 1). -/
def State.sealCup (s : State) (idx n : Nat) (part : Bool) : State :=
  match s.cup? idx with
  | none => s
  | some c =>
    let first := s.cupTokens c + c.sealedTokens
    let tag := ((s.cupImage c).map (·.modelTag)).getD 0
    let gen := Config.choice s.free 5 % 2 ^ 32
    let i := c.sealedLeaves
    let s := s.used
    let s := c.openLeaves.foldl (fun (s : State) o =>
      let pg := leafPage (s.free + 70000 + 1000 * (o.layer * 64 + o.head)) true c.tail o.layer o.head i first gen tag (o.rows.take n)
      let s := s.modCup idx fun k => { k with sealedPages := k.sealedPages ++ [(o.layer, o.head, i, pg)] }
      let e : PoolEntry := { key := .growth idx o.layer o.head i, pot := c.pot, cls := .pinned, size := 18432 }
      let w := (idx, o.layer, o.head, i)
      match if part then (s, Alloc.refused) else s.allocPinned true e with
      | (s', .granted) => s'.modPot c.pot fun q => { q with loop := { q.loop with growth := q.loop.growth ++ [w] } }
      | _ => s.modPot c.pot fun q => { q with loop := { q.loop with tailWait := q.loop.tailWait ++ [w] } }) s
    s.modCup idx fun k => { k with
      sealedLeaves := i + 1, sealedTokens := k.sealedTokens + n, openLeaves := k.openLeaves.map fun o => { o with rows := o.rows.drop n } }
/-- Tokens in a cup's open tail leaves. -/
def Cup.openTokens (c : Cup) : Nat := (c.openLeaves.map (·.rows.length)).foldl Nat.max 0
/-- Seals every full open leaf of a cup; the first argument bounds the leaves. -/
def State.sealFull (s : State) (idx : Nat) : Nat → State
  | 0 => s
  | n + 1 =>
    match s.cup? idx with
    | some c => if 128 ≤ c.openTokens then State.sealFull (s.sealCup idx 128 false) idx n else s
    | none => s
def State.sealAll (s : State) (p : Nat) : State := (s.potCups p).foldl (fun s c => s.sealFull c.idx (c.openTokens / 128 + 1)) s

-- Order 4: chunks (R62, R70)

/-- The chunk of a prefilling cup for the next step, and the growth-buffer bytes that the chunks fixed so far count on (R70): without a
growth buffer for every leaf that the chunk fills, and for one at least, it begins on an empty open leaf, written early. The 32,768 leaves
count the corpus's, the sealed ones, the one written early and the open one after it (DESIGN CHOICE, assumption log 53). -/
def State.fixChunk (s : State) (promised : Nat) (c : Cup) : State × Nat :=
  let want := (((s.job? c.job).bind fun j => s.itemRec j c.item).map itemChunk).getD 128
  let base := Nat.min want (c.prompt.length - c.processed)
  let (l, h) := s.cupShape c
  let need := promised + Nat.max 1 ((c.openTokens + base) / 128) * l * h * 18432
  let grows := (s.room true c.pot need).2 && decide (s.pinned true c.pot + need ≤ s.share true c.pot)
  let leaves := ((c.corpus.bind s.corpus?).map Corpus.n).getD 0 + c.sealedLeaves
  if grows then (s.modCup c.idx fun k => { k with chunk := base }, need)
  else if c.openTokens = 0 then (s.modCup c.idx fun k => { k with chunk := Nat.min base 128 }, promised)
  else if 32768 ≤ leaves + 1 then (s.modCup c.idx fun k => { k with chunk := Nat.min base (128 - c.openTokens) }, promised)
  else (((s.sealCup c.idx c.openTokens true).count 2 c.pot 34 1).modCup c.idx fun k => { k with chunk := Nat.min base 128 }, promised)
def State.fixChunks (s : State) (p : Nat) : State :=
  (((s.potCups p).filter (·.phase == .prefill)).foldl (fun (a : State × Nat) c => a.1.fixChunk a.2 c) (s, 0)).1

-- Order 5: pins, selection, the step begins (R26 to R30, R63)

/-- The generation of a layer that a reader's pins fix, else the current one (R26). -/
def Corpus.genIn (c : Corpus) (pins : List (Nat × Nat × Nat)) (layer : Nat) : Nat :=
  match pins.find? fun g => g.1 == c.id && g.2.1 == layer with
  | some g => g.2.2
  | none => c.gens.getD layer 0
/-- The leaves of a cup's sequence for one layer and KV head that this module holds, as reads (R22, R26, Table 2.7). -/
def State.sequenceOf (s : State) (pins : List (Nat × Nat × Nat)) (c : Cup) (layer head : Nat) : List LeafRead :=
  let corpus := match c.corpus.bind s.corpus? with
    | none => []
    | some k =>
      let h := s.ownHeads k
      let r := s.ownLeaves k
      if head < h.1 ∨ h.1 + h.2 ≤ head then [] else
      (List.range r.2).map fun i => ({ pot := k.pot, space := k.id, layer := layer, head := head, index := r.1 + i, gen := k.genIn pins layer } : LeafRead)
  let tail := match c.corpus.bind s.corpus? with
    | some k => if k.shard.1 = 1 then (let h := s.ownHeads k; decide (h.1 ≤ head) && decide (head < h.1 + h.2)) else k.shard.1 == 0 || c.home.isNone
    | none => true
  corpus ++ (if tail then (List.range c.sealedLeaves).map fun i =>
    ({ pot := c.pot, space := c.tail, tail := true, layer := layer, head := head, index := i } : LeafRead) else [])
/-- The centroid of a leaf: from the centroid page that holds its generation (R24), a tail leaf's from beside the cup's buffer (R68). -/
def State.centroidOfRead (s : State) (r : LeafRead) : List (BitVec 16) :=
  let own := leafCentroid ((s.storedLeaf r).getD [])
  if r.tail then own else
  match s.corpus? r.space with
  | none => own
  | some c =>
    let n := c.slot r.layer r.head r.index
    let at_ := (c.centroids.filter fun p => p.1 == n / 71 && decide (r.gen ≤ p.2.1)).foldl (fun (b : Option (Nat × Bytes)) p => match b with
      | some q => if p.2.1 < q.1 then some (p.2.1, p.2.2) else b
      | none => some (p.2.1, p.2.2)) none
    match at_ with
    | some q => (List.range 128).map fun d => BitVec.ofNat 16 (field q.2 (0x40 + 256 * (n % 71) + 2 * d) 2)
    | none => own

/-- How a cup selects: dense, flat scoring, budget, recent, sink. -/
structure Selecting where
  dense : Bool := false
  flat : Bool := false
  budget : Nat := 512
  recent : Nat := 8
  sink : Nat := 2
deriving DecidableEq, Repr
def Job.selecting (j : Job) : Selecting := { dense := j.dense, flat := j.flat, budget := j.budget, recent := j.recent, sink := j.sink }
/-- How a cup selects: as its job says; a cup of another module by the defaults, as no packet carries its job's fields (DESIGN CHOICE,
assumption log 34). -/
def State.cupSelecting (s : State) (c : Cup) : Option Selecting :=
  if c.home.isSome then some {} else (s.job? c.job).map Job.selecting

/-- Budget, recent and sink of a cup on this module: a pool shard selects in proportion to its leaves (Table 2.7). -/
def State.selectParams (s : State) (j : Selecting) (c : Cup) : Nat × Nat × Nat :=
  match c.corpus.bind s.corpus? with
  | some k => if k.shard.1 ≠ 2 then (j.budget, j.recent, j.sink) else
      let r := s.ownLeaves k
      let tailHere := c.home.isNone
      let last := if c.sealedLeaves = 0 then decide (r.1 + r.2 = k.n) else tailHere
      (ceilDiv (j.budget * r.2) (Nat.max 1 k.n), if last then j.recent else 0, if r.1 = 0 then j.sink else 0)
  | none => (j.budget, j.recent, j.sink)

/-- The leaves that one cup attends for one layer and head: all of them in dense mode (R47), else the selection of R28; through a
centroid graph which of the candidates it reaches is free (R25). -/
def State.chosen (s : State) (j : Selecting) (pins : List (Nat × Nat × Nat)) (c : Cup) (layer head : Nat) (queries : List (List (BitVec 16)))
    (cnt : Nat) : List LeafRead :=
  let seq := s.sequenceOf pins c layer head
  if j.dense then seq else
  let (b, r, k) := s.selectParams j c
  let graph := ((c.corpus.bind s.corpus?).map (·.graph)).getD false && !j.flat
  let pos := if graph then
      let n := seq.length
      let keep := (List.range n).filter fun i => decide (i < k) || decide (n ≤ i + r)
      let cand := (List.range n).filter fun i => !keep.contains i
      keep ++ (freeOrder cnt cand.length cand).take b
    else selectLeaves cnt b r k queries (seq.map s.centroidOfRead)
  pos.filterMap fun i => seq[i]?

/-- Centroid pages that hold a slot of some heads of a layer of a corpus on this module. -/
def State.layerCentroids (s : State) (c : Corpus) (layer : Nat) : List Nat :=
  let h := s.ownHeads c
  let r := s.ownLeaves c
  if r.2 = 0 then [] else
  (((List.range h.2).map fun k =>
    let first := c.slot layer (h.1 + k) r.1 / 71
    let last := c.slot layer (h.1 + k) (r.1 + r.2 - 1) / 71
    (List.range (last + 1 - first)).map (first + ·)).flatten).eraseDups
/-- Centroid pages that a selection in a layer scores from and that are not resident: each is read (R25). -/
def State.missingCentroids (s : State) (j : Selecting) (c : Cup) (layer : Nat) : List LeafRead :=
  match c.corpus.bind s.corpus? with
  | none => []
  | some k =>
    let (b, r, n) := s.selectParams j c
    if j.dense || (k.graph && !j.flat) || decide ((s.ownLeaves k).2 + c.sealedLeaves ≤ b + r + n) then [] else
    ((s.layerCentroids k layer).map fun i => ({ pot := k.pot, space := k.id, index := i, cent := true } : LeafRead)).filter fun x =>
      !s.cached x.poolKey
/-- Starts the reads of centroid pages, each once. -/
def State.readCentroids (s : State) (l : List LeafRead) : State :=
  (l.foldl (fun (m : List LeafRead) r => if m.any r.same then m else m ++ [r]) []).foldl State.startRead s
/-- A centroid page of a corpus is being read. -/
def State.centroidsDue (s : State) (spaces : List Nat) : Bool := s.reads.any fun r => r.cent && spaces.contains r.space

/-- A union takes one more page, or one more cup of a page it has (R29). -/
def unionWith (l : List LeafRead) (r : LeafRead) : List LeafRead :=
  if l.any r.same then l.map fun x => if x.same r then x.joined r else x else l ++ [r]
/-- The union of a step (R29, R30): each page once, with the cups that selected it. -/
def State.unionOf (s : State) (p : Nat) (queries : List StepQ) : List LeafRead :=
  (s.potCups p).foldl (fun l c =>
    match s.cupSelecting c with
    | none => l
    | some j =>
      let (ls, h) := s.cupShape c
      (List.range (ls * h)).foldl (fun l n =>
        let q := ((queries.find? fun q => q.cup == c.idx && q.layer == n / h && q.head == n % h).map (·.queries)).getD []
        (s.chosen j (s.pot p).loop.pinned c (n / h) (n % h) q (s.free + 4096 * 512 * n)).foldl
          (fun l r => unionWith l { r with cups := [c.idx], dense := j.dense }) l) l) []

/-- Pages in a staging half of an infuser job of `n` cups (R51). -/
def State.stagingPages (s : State) (p n qHeads tcup : Nat) : Nat :=
  Nat.max 1 (Nat.min 4096 ((s.dramMeasure p - n * (qHeads * 1024 + tcup)) / 36864))
/-- Pages of the step in flight. -/
def State.stepReads (s : State) (p : Nat) : Nat :=
  (s.reads.filter fun r => !r.cent && r.cups.any fun k => (s.potCups p).any (·.idx == k)).length
/-- The staging groups of a step (R51): a group is read once no more than one half is still in flight. -/
def State.pumpStep (s : State) (p g : Nat) : Nat → State
  | 0 => s
  | n + 1 =>
    let l := (s.pot p).loop.queued
    if l.isEmpty || decide (g < s.stepReads p) then s else
    State.pumpStep ((l.take g).foldl State.startRead (s.modPot p fun q => { q with loop := { q.loop with queued := l.drop g } })) p g n
/-- The group size of a pot's step: its cups on the model of the first of them. -/
def State.stepGroup (s : State) (p : Nat) : Nat :=
  let cups := s.potCups p
  let im := (cups.filterMap s.cupImage).head?.getD {}
  s.stagingPages p cups.length im.qHeads (im.layers * im.kvHeads * 18432)
/-- The step's union is formed once no centroid page it scores from is still to come (R25), and its pages are read group by group. -/
def State.pumpUnion (s : State) (p : Nat) : State :=
  let l := (s.pot p).loop
  if !l.running then s else
  let s := match l.queries with
    | none => s
    | some qs => if s.centroidsDue l.spaces then s else
      let u := s.unionOf p qs
      s.used.modPot p fun q => { q with loop := { q.loop with queries := none, selected := u, queued := u } }
  s.pumpStep p (s.stepGroup p) ((s.pot p).loop.queued.length + 1)
/-- A pot's step still waits for pages: centroids, or leaves that it has selected and not received (R25, R34). -/
def State.stepAwaits (s : State) (p : Nat) : Bool :=
  (s.pot p).loop.queries.isSome || !(s.pot p).loop.queued.isEmpty || decide (0 < s.stepReads p)
/-- Other members of the shard groups that a pot's cups attend. -/
def State.stepPeers (s : State) (p : Nat) : List Nat :=
  (((s.potCups p).filterMap fun c => c.corpus.bind s.corpus?).map fun k => s.others k.members).flatten.eraseDups

-- Records of a sharded step (R44, R349, Table 2.7)

/-- Cups of a pot whose shard group holds a member. -/
def State.cupsWith (s : State) (p ord : Nat) : List Cup :=
  (s.potCups p).filter fun c => match c.corpus.bind s.corpus? with | some k => k.members.contains ord | none => false
/-- KV heads whose records a member sends: its own in native mode, all in pool mode (Table 2.7). -/
def Corpus.sentHeads (k : Corpus) (ord : Nat) : Nat × Nat := if k.shard.1 = 1 then partOf k.kvHeads k.members ord else (0, k.kvHeads)
/-- This module's record of a cup for one layer and query head. Where the cup's open tail lies here, what the cores attend of it in the step
is theirs, and the record's values are free; else it is the attention over the leaves selected here (R38 to R42; assumption log 33). -/
def State.stepRecord (s : State) (c : Cup) (k : Corpus) (layer q : Nat) : Bytes :=
  let group := k.qHeads / Nat.max 1 k.kvHeads
  let reads := (s.pot c.pot).loop.selected.filter fun r => r.layer == layer && r.head == q / Nat.max 1 group && r.cups.contains c.idx
  let lost := reads.any fun r => (s.knownLost r).isSome
  let cnt := s.free + 1 + 4096 * (layer * 256 + q)
  let word := fun i => (Config.freeWord cnt i).setWidth 32
  let m : Merged :=
    if k.shard.1 = 1 || c.home.isNone then
      { empty := false, lost := lost, final := k.shard.1 == 1, tokens := Config.choice cnt 0 % 2 ^ 32, lam := word 1, o := (List.range 128).map fun d => word (2 + d) }
    else
      let pages := (reads.filter fun r => (s.knownLost r).isNone).map fun r => (s.storedLeaf r).getD []
      let qs := (((s.pot c.pot).loop.asked.find? fun x => x.cup == c.idx && x.layer == layer && x.head == q / Nat.max 1 group).map (·.queries)).getD []
      let scale := ((s.job? c.job).map Job.scale).getD 0x3DB504F3
      attendAll cnt (s.potCores c.pot).length (qs.getD (q % Nat.max 1 group) []) scale pages lost false
  partialRecord cnt layer (c.idx % 256) q m
/-- The records that this module owes a member in a step: every cup of the group, every layer, every head it sends (Table 2.7). -/
def State.stepRecords (s : State) (p ord : Nat) : Bytes :=
  ((s.cupsWith p ord).map fun c => match c.corpus.bind s.corpus? with
    | none => []
    | some k =>
      let h := k.sentHeads s.self
      let group := k.qHeads / Nat.max 1 k.kvHeads
      ((List.range k.layers).map fun l => ((List.range (h.2 * group)).map fun i => s.stepRecord c k l (h.1 * group + i)).flatten).flatten).flatten
/-- Sends records under a standing grant, 25 to a packet, within the bytes granted (R344, R349). -/
def State.sendStanding (s : State) (n : Nat) (x : XferOut) (b : Bytes) : State :=
  let s := s.modPort n fun q => { q with out := q.out.map fun (y : XferOut) =>
    if y.tag == x.tag && y.standing then { y with announced := true, sent := b.length } else y }
  (List.range (Nat.max 1 (ceilDiv b.length 4000))).foldl (fun s k =>
    s.sendPkt n { type := 0x07, dst := (s.port n).ordinal, xfer := x.tag, arg := 4000 * k, payload := slice b (4000 * k) (Nat.min 4000 (b.length - 4000 * k))
                  standing := true, tc := 1, lfmt := 3, last := decide (b.length ≤ 4000 * (k + 1)) }) s
/-- Once the running step's pages have come, its records go to every member that has granted them (R349). -/
def State.shareStep (s : State) (p : Nat) : State :=
  if !(s.pot p).loop.running || s.stepAwaits p || p != s.servingPot then s else
  (List.range 4).foldl (fun s n =>
    match (s.port n).out.find? fun x => x.standing && !x.announced with
    | some x => if (s.port n).st == .up then (s.sendStanding n x ((s.stepRecords p (s.port n).ordinal).take x.granted)).used else s
    | none => s) s
/-- A step goes on: its union, its reads, the records it owes. -/
def State.feedStep (s : State) (p : Nat) : State := (s.pumpUnion p).shareStep p
/-- Records of some member are still to come (R46, R349). -/
def State.recordsDue (s : State) (p : Nat) : Bool := p == s.servingPot && s.ports.toList.any fun q => q.inn.any (·.standing)

/-- A standing grant for the class 1 bytes that a member sends in the step (R349); the tag is the receiver's own. -/
def State.standingGrant (s : State) (p ord : Nat) : State :=
  match s.portOf ord with
  | none => s
  | some n =>
    let tag := (s.port n).nextTag
    let bytes := ((s.cupsWith p ord).map fun c => match c.corpus.bind s.corpus? with
      | some k => 160 * k.layers * ((k.sentHeads ord).2 * (k.qHeads / Nat.max 1 k.kvHeads))
      | none => 0).sum
    (s.modPort n fun q => { q with
      nextTag := (tag + 1) % 65536
      inn := q.inn ++ [{ tag := tag, desc := { total := bytes }, granted := bytes, standing := true, tc := 1 }] }).sendPkt n
      { type := 0x06, dst := ord, xfer := tag, arg := bytes, standing := true }

/-- The step begins (R26, R63): generations pinned, the centroids that the selections need read (R25), the union formed and its reads
started, peers granted, each image's pass run on the cores. -/
def State.beginStep (s : State) (p : Nat) (j : Option Job) (queries : List StepQ) : State :=
  let cups := s.potCups p
  let spaces := (cups.filterMap (·.corpus)).eraseDups
  let pins := (spaces.filterMap s.corpus?).map fun c => (List.range c.layers).map fun l => (c.id, l, c.gens.getD l 0)
  let images := ((cups.filter (·.home.isNone)).map (·.image)).eraseDups
  let peers := s.stepPeers p
  let missing := (cups.map fun c => match s.cupSelecting c with
    | some x => ((List.range (s.cupShape c).1).map fun l => s.missingCentroids x c l).flatten
    | none => []).flatten
  let s := s.modPot p fun q => { q with drainRetry := false, loop := { q.loop with
    running := true, between := false, pinned := pins.flatten, spaces := spaces, queries := some queries, asked := queries
    passes := (images.drop 1).map fun im => (im, s.stepRows p im), peers := peers } }
  let s := (s.readCentroids missing).feedStep p
  let s := peers.foldl (fun s n => s.standingGrant p n) s
  match j, images.head? with
  | some j, some im => s.invoke j im 0xFFFFFFFF 3 0 (s.stepRows p im) (s.stepRows p im) []
  | _, _ => s

/-- A STEP_CLOSE record of a cup (R350). -/
def closeBytes (c : Cup) (joined left : Bool) : Bytes :=
  natLe 1 c.idx ++ natLe 1 (b2n joined + 2 * b2n left + 4 * b2n c.failed) ++ zeros 2 ++ natLe 4 (c.out.getLastD 0)
/-- `STEP_CLOSE` for the step that has ended to every member of a group that a cup of this module attends in: this module's own tokens, its
cups that join and those that leave (R350). `before` are the cups of that step, `cups` those of the next. -/
def State.sendClose (s : State) (p : Nat) (before cups : List Cup) : State :=
  let own := fun (l : List Cup) (n : Nat) => l.filter fun c => c.home.isNone &&
    match c.corpus.bind s.corpus? with | some k => k.members.contains n | none => false
  let stays := fun (c : Cup) => cups.any fun k => k.idx == c.idx && k.tail == c.tail
  let was := fun (c : Cup) => before.any fun k => k.idx == c.idx && k.tail == c.tail
  (List.range 4).foldl (fun s k =>
    let n := (s.port k).ordinal
    let recs := ((own before n).filter fun c => !stays c).map (fun c => closeBytes c false true) ++
      (own cups n).map fun c => closeBytes c (!was c) false
    let group := (before ++ cups).any fun c => match c.corpus.bind s.corpus? with | some k => k.members.contains n | none => false
    if (s.port k).st != .up || n == s.self || !group then s else
    s.sendPkt k { type := 0x04, dst := n, xfer := 0
                  payload := natLe 4 (((s.pot p).loop.count + (2 ^ 32 - 1)) % 2 ^ 32) ++ natLe 2 recs.length ++ zeros 2 ++ recs.flatten }) s

-- STEP_CLOSE of the members (R350)

/-- The number that a member's cup has on this module. -/
def remoteCup (ord cup : Nat) : Nat := 256 * (ord + 1) + cup
/-- The corpus that a member's cup attends: no packet names it, so it is one of those READY here that this module shares with the member, free
among them (assumption log 34). -/
def State.sharedCorpus (s : State) (ord : Nat) : Option Nat :=
  let l := s.corpora.filter fun c => c.st == .ready && c.shard.1 != 0 && c.pot == s.servingPot && c.members.contains ord && c.members.contains s.self
  (l[Config.pick s.free ord l.length]?).map (·.id)
/-- One record of STEP_CLOSE (R350): a cup that joins, a sampled token, a cup that leaves. -/
def State.closeRecord (s : State) (ord : Nat) (r : CloseRec) : State :=
  let k := remoteCup ord r.cup
  if r.left || r.failed then
    match s.cup? k with
    | some c => s.releaseCup c
    | none => s
  else
    let s : State := if r.joined && (s.cup? k).isNone then
        { s.used with
          cups := s.cups ++ [{ idx := k, pot := s.servingPot, home := some ord, phase := .decode, corpus := s.sharedCorpus ord, tail := s.nextId }]
          nextId := s.nextId + 1 } else s
    s.modCup k fun c => { c with out := c.out ++ [r.token] }
/-- What the members' STEP_CLOSE packets say is adopted before the next step (R44, R350); the step counts keep level. -/
def State.adoptCloses (s : State) (p : Nat) : State :=
  let l := (s.pot p).loop.closes
  let s := l.foldl (fun s x => x.2.2.foldl (fun s r => s.closeRecord x.1 r) s) s
  let top := (l.map fun x => (x.2.1 + 1) % 2 ^ 32).foldl Nat.max 0
  if l.isEmpty then s else s.modPot p fun q => { q with loop := { q.loop with closes := [], count := Nat.max q.loop.count top } }

/-- The running step's work is over: the job that drives it holds no core, every selected leaf has come (R34), and every member's records
(R46). -/
def State.stepOver (s : State) (p : Nat) (j : Option Job) : Bool :=
  (j.map fun j => (s.coresOf j.key).isEmpty).getD true && !s.recordsDue p && !s.stepAwaits p

/-- Every cup and waiting item of a stopping pot ends with `POT_STOPPED` (R66). -/
def State.stopLoop (s : State) (p : Nat) : State :=
  ((s.jobs.filter fun j => j.pot == p && j.type == 0x04).foldl (fun s j => s.abortJob j.key 0x41) s).releaseLeft p

/-- Orders 1 to 4 of a boundary (Table 3.4); the members learn who joins and who has left (R350). -/
def State.boundaryWork (s : State) (p : Nat) : State :=
  let before := s.potCups p
  let s := ((((s.releaseLeft p).joinAll p).sealAll p).fixChunks p)
  let s := s.sendClose p before (s.potCups p)
  s.modPot p fun q => { q with loop := { q.loop with between := true } }

/-- What follows the work of a boundary: a pre-emption, a wait for tail programs (R69) or for members' `STEP_CLOSE` (R350), or the next step; a
belt without a cup has no step, and its next boundary does its work anew (R63, R64). -/
def State.afterBoundary (s : State) (p : Nat) (j : Option Job) (queries : List StepQ) : State :=
  if (s.potCups p).isEmpty then
    ((s.modPot p fun q => { q with loop := { q.loop with between := false, peers := [] } }).adoptCloses p)
  else if !(s.pot p).loop.tailWait.isEmpty || !(s.pot p).loop.peers.isEmpty then s
  else (s.adoptCloses p).beginStep p j queries
/-- A boundary of a pot's belt (R63, R66): a stopping pot's belt ends here; else its work, unless it is done, and what follows. -/
def State.boundary (s : State) (p : Nat) (j : Option Job) (queries : List StepQ) : State :=
  if (s.pot p).st == 2 then (((s.releaseLeft p).stopLoop p).sendClose p ((s.potCups p).map fun c => { c with failed := true }) []).settleStop p else
  let s := if (s.pot p).loop.between then s else s.boundaryWork p
  match j with
  | some j =>
    if s.preempting p then (if s.xfersOf j.key then s else (s.preempt p j.key).reschedule p)
    else if s.boot.hold.isSome || !s.coresOn then s
    else s.afterBoundary p (some j) queries
  | none => if s.boot.hold.isSome || !s.coresOn then s else s.afterBoundary p none queries

/-- A belt that no job of this module drives: it steps while it carries cups of other modules, in lock-step with their homes (R44); else
it ends. -/
def State.strayBelt (s : State) (p : Nat) : Bool :=
  !(s.jobs.any fun j => j.pot == p && j.type == 0x04) && ((s.potCups p).any (·.home.isSome) || !(s.pot p).loop.closes.isEmpty)

/-- STEP_BOUNDARY (R63): the running step ends with what the cores computed, the boundary's work runs in the order of Table 3.4,
and the next step begins with its queries; the job that drives the steps is the one that holds the pot's slice. -/
def execStepBoundary (pot : Fin 8) (outs : List StepOut) (queries : List StepQ) (s : State) : Out :=
  let p := pot.val
  let driver := (s.runningJob p).filter fun j => j.type == 0x04 && j.phase == .admitted && j.sliced
  if driver.isNone && !s.strayBelt p then
    if (s.pot p).loop.running && s.jobs.any fun j => j.pot == p && j.type == 0x04 then .next s
    else .next ((s.modPot p fun q => { q with loop := { q.loop with
      running := false, between := false, pinned := [], spaces := [], peers := [], selected := [], queued := [], queries := none
      asked := [], records := [] } }).releaseLeft p).tidy
  else
    let s := s.feedStep p
    if (s.pot p).loop.running then
      if s.stepOver p driver then .next ((s.endStep p outs).boundary p driver queries).tidy else .next s
    else .next (s.boundary p driver queries).tidy

/-- TAIL_LEAF_PROGRAM_DONE (R68, R69): a growth buffer enters the leaf cache as the newest entry; a leaf programmed from the
reserved buffer lets the next step begin; with five or fewer writable caddies the cup's item has failed (Table 13.4). -/
def execTailLeafProgramDone (pot : Fin 8) (cup : Nat) (layer head index : Nat) (s : State) : Out :=
  let p := pot.val
  let w := (cup, layer, head, index)
  let l := (s.pot p).loop
  let s := match s.cup? cup with
    | some c => if s.writeOk || !(l.growth.contains w || l.tailWait.contains w) then s else
      (s.modItem c.job c.item fun i => i.fail 0x20).modCup cup fun k => { k with phase := .leaving }
    | none => s
  if l.growth.contains w then
    let s := (s.modPot p fun q => { q with loop := { q.loop with growth := q.loop.growth.erase w } }).dropEntries fun e =>
      e.key == .growth cup layer head index
    match s.cup? cup with
    | some c => .next (s.cache { key := .leaf c.tail layer head index 0, pot := p, cls := .cached, size := 18432 })
    | none => .next s
  else .next (s.modPot p fun q => { q with loop := { q.loop with tailWait := q.loop.tailWait.erase w } })

/-- A step or its closing has lost a member (R46, R352): every cup item of the step ends with a status, and nothing more is awaited. -/
def State.loseStep (s : State) (p st : Nat) : State :=
  let s := (s.potCups p).foldl (fun s c => (s.modItem c.job c.item fun i => i.fail st).modCup c.idx fun k => { k with phase := .leaving, failed := true }) s
  let s := (s.potCups p).foldl (fun s c => s.finishCup c) s
  let s := (List.range 4).foldl (fun s n => s.modPort n fun q => { q with inn := q.inn.filter fun x => !x.standing, out := q.out.filter fun x => !x.standing }) s
  s.modPot p fun q => { q with loop := { q.loop with peers := [], between := false } }
/-- GROUP_STEP_LIMIT_EXPIRY (R46, R350): every cup item of the step ends with `PEER_ABSENT`. -/
def execGroupStepLimitExpiry (pot : Fin 8) (s : State) : Out :=
  let p := pot.val
  let l := (s.pot p).loop
  if (l.running && s.recordsDue p) || (l.between && !l.peers.isEmpty) then .next (s.loseStep p 0x22).tidy else .next s

-- ATTEND (Table 10.3, R49 to R51)

/-- ATTEND begins: the generations it reads are fixed and its working set is claimed (R26, R49, R64). -/
def State.beginAttend (s : State) (j : Job) (c : Corpus) : State :=
  let s := s.modJob j.key fun j => { j with gens := (List.range c.layers).map fun l => (c.id, l, c.gens.getD l 0) }
  s.claim { key := .staging j.key, pot := j.pot, cls := .pinned, size := minWorkingSet j.nItems c.qHeads 0 }
/-- ATTEND at admission: the generations of its corpus are fixed for its life (R26). -/
def State.admitAttend (s : State) (j : Job) : Admission :=
  let c := j.corpusId.bind s.corpus?
  let whole := firstFail [
    (j.formOk && j.f 0x34 4 == 0xFFFFFFFF && decide (j.f 0x3C 1 < 8), 0x10),
    ((c.map (s.mayName j.pot)).getD true, 0x40),
    ((c.map fun c => c.st == .ready).getD false, 0x10),
    (j.selectRanges, 0x12),
    ((c.map fun c => s.allPresent c.members).getD true, 0x22),
    (decide (minWorkingSet j.nItems ((c.map (·.qHeads)).getD 0) 0 ≤ s.dramMeasure j.pot) &&
      s.stagingFits j.pot (minWorkingSet j.nItems ((c.map (·.qHeads)).getD 0) 0), 0x11)]
  { whole := whole, items := s.itemFails j fun r => if itemZero r [(0, 0x18)] then none else some 0x10
    footprint := if 12 ≤ (s.potCores j.pot).length then 2 ^ 21 * (s.potCores j.pot).length else 0 }
def State.startAttend (s : State) (j : Job) : State :=
  s.admitWith j (s.admitAttend j) fun t => match j.corpusId.bind s.corpus? with
    | none => t
    | some c => t.beginAttend j c

/-- Query head `h` of a layer among an item's queries. -/
def attendQuery (queries : Bytes) (qHeads layer h : Nat) : List (BitVec 16) :=
  (List.range 128).map fun d => BitVec.ofNat 16 (field queries ((layer * qHeads + h) * 256 + 2 * d) 2)
/-- An `ATTEND` item as a reader of its corpus's sequence: it has no tail. -/
def attendCup (c : Corpus) : Cup := { pot := c.pot, corpus := some c.id }
/-- The pages that the heads of an item's layer select, head by head (R26, R28, R47). -/
def State.attendSelection (s : State) (j : Job) (c : Corpus) (a : Attending) : List LeafRead :=
  let group := c.qHeads / Nat.max 1 c.kvHeads
  ((List.range c.kvHeads).map fun h =>
    let qs := (List.range group).map fun g => attendQuery a.queries c.qHeads a.layer (h * group + g)
    (s.chosen j.selecting j.gens (attendCup c) a.layer h qs (s.free + 4096 * 512 * (a.layer * 64 + h))).map fun r =>
      { r with atts := [(j.key, a.item)], dense := j.dense }).flatten
/-- Saturations of the layer's queries as each is narrowed, counted against the core that attends with it, which is free (R38, R201). -/
def State.querySats (s : State) (j : Job) (c : Corpus) (a : Attending) : State :=
  let cores := s.potCores j.pot
  ((List.range c.qHeads).foldl (fun (s : State) h =>
    let sats := (narrowQuery (attendQuery a.queries c.qHeads a.layer h)).2
    s.countSatsOf (some j) (cores.getD (Config.pick s.free (3000 + h) cores.length) 0) 3 (BitVec.ofNat 16 a.layer, j.operId) sats) s).used
/-- The records of an item's layer from the pages that came (R38 to R42): `FINAL` where this module holds the whole of the head's sequence
(R40, Table 2.7). -/
def State.attendRecords (s : State) (j : Job) (c : Corpus) (a : Attending) : List Bytes :=
  let group := c.qHeads / Nat.max 1 c.kvHeads
  let own := s.ownHeads c
  ((List.range c.kvHeads).map fun h =>
    let reads := a.selected.filter (·.head == h)
    let lost := reads.any fun r => (s.knownLost r).isSome
    let pages := (reads.filter fun r => (s.knownLost r).isNone).map fun r => (s.storedLeaf r).getD []
    let whole := c.shard.1 == 0 || (c.shard.1 == 1 && decide (own.1 ≤ h) && decide (h < own.1 + own.2))
    (List.range group).map fun g =>
      let q := h * group + g
      let m := attendAll (s.free + 1 + 4096 * (a.layer * 256 + q)) (s.potCores j.pot).length (attendQuery a.queries c.qHeads a.layer q) j.scale pages lost whole
      partialRecord (s.free + a.layer) a.layer a.item q m).flatten
/-- Changes what an `ATTEND` job has in hand. -/
def State.setAttend (s : State) (key : Nat) (a : Option Attending) : State := s.modJob key fun j => { j with attend := a }
/-- A layer of an item has been attended: its records are written; the next layer, or the item's end; under `FAIL_CUP` the item ends after
the layer of its first loss (R35). -/
def State.attendLayer (s : State) (j : Job) (c : Corpus) (a : Attending) : State :=
  let recs := s.attendRecords j c a
  let out := ((s.itemRec j a.item).map fun r => field r 8 8).getD 0
  let lost := a.selected.any fun r => (s.knownLost r).isSome
  let s := (s.used.jobWrite j.key (out + 160 * a.layer * c.qHeads) recs.flatten).modItem j.key a.item fun it => { it with resA := it.resA + recs.length }
  let stop := (j.failCup && lost) || decide (c.layers ≤ a.layer + 1)
  let next : Attending := { item := a.item, layer := a.layer + 1, queries := a.queries, resultAddr := a.resultAddr }
  let s := (s.setAttend j.key (if stop then none else some next)).releasePages a.selected
  if stop then s.complete j.key a.item id else s
/-- An `ATTEND` job takes up its next item, whose queries it reads from host memory. -/
def State.attendItem (s : State) (j : Job) (c : Corpus) (item : Nat) : State :=
  match (s.itemRec j item).bind fun r => (s.hostRead (field r 0 8) (c.layers * c.qHeads * 256)).map fun raw => (r, raw) with
  | none => s.complete j.key item fun it => it.fail 0x10
  | some (r, raw) => s.setAttend j.key (some { item := item, queries := raw, resultAddr := field r 0x10 8 })
/-- Pages of an `ATTEND` job in flight. -/
def State.attendReads (s : State) (key : Nat) : Nat := (s.reads.filter fun r => r.atts.any (·.1 == key)).length
/-- The next thing that an `ATTEND` job does, none while it waits for pages: an item, a layer's centroids (R25), its selection, a staging
group of its reads (R51), its attention once every page has come or is lost (R34, R35). -/
def State.attendStep (s : State) (j : Job) (c : Corpus) : Option State :=
  match j.attend with
  | none => (j.items.find? (!·.done)).map fun i => s.attendItem j c i.idx
  | some a =>
    if (s.live? j.key a.item).isNone then some (s.setAttend j.key none)
    else if !a.asked then
      some ((s.setAttend j.key (some { a with asked := true })).readCentroids (s.missingCentroids j.selecting (attendCup c) a.layer))
    else if !a.chosen then
      if s.centroidsDue [c.id] then none else
      let l := s.attendSelection j c a
      some ((s.used.setAttend j.key (some { a with chosen := true, selected := l, queued := l })).querySats j c a)
    else if !a.queued.isEmpty then
      let g := s.stagingPages j.pot j.nItems c.qHeads 0
      if g < s.attendReads j.key then none else
      some ((a.queued.take g).foldl State.startRead (s.setAttend j.key (some { a with queued := a.queued.drop g })))
    else if s.attendReads j.key ≠ 0 then none else some (s.attendLayer j c a)
/-- An `ATTEND` job goes on as far as it can, with a pre-emption point at the end of each staging group (R268); the last argument bounds
its steps. -/
def State.attendGo (s : State) (key : Nat) : Nat → State
  | 0 => s
  | n + 1 =>
    match (s.job? key).filter fun j => j.type == 0x05 && s.wholeRuns j && j.phase == .admitted && !s.claimWaits key 0 with
    | none => s
    | some j =>
      match j.corpusId.bind s.corpus? with
      | none => s.failJob key 0x10
      | some c =>
        if s.preempting j.pot && s.attendReads key == 0 then (s.preempt j.pot key).reschedule j.pot else
        match s.attendStep j c with
        | some t => State.attendGo t key n
        | none => s
/-- ATTEND on an admitted job that has its slice: the module's attention program runs over its items; the bound allows every item an
item step, and every layer its centroids, selection, staging groups of at least one page and attention. -/
def State.runAttend (s : State) (key : Nat) : State :=
  match s.job? key with
  | none => s
  | some j =>
    let c := ((j.corpusId.bind s.corpus?)).getD {}
    s.attendGo key (j.nItems * (2 + c.layers * (4 + c.kvHeads * c.n)) + 2)

-- RUN (Table 10.3, R172, R257)

/-- RUN at admission: the generations of the pot's corpora are fixed for its life (R26). -/
def State.admitRun (s : State) (j : Job) : Admission :=
  let im := s.liveImage j.imageId
  let whole := firstFail [
    (j.formOk && im.isSome, 0x10), ((im.map fun i => i.pot == j.pot).getD true, 0x40),
    ((im.map fun i => s.hasEntries i j.pot [1]).getD false, 0x10)]
  let items := s.itemFails j fun r => if !itemZero r [(0, 12)] then some 0x10 else if 65536 < field r 8 4 then some 0x12 else none
  { whole := whole, items := items, footprint := (im.map fun i => s.regionBytes i j.pot true).getD 0 }
/-- RUN begins: the generations it reads are fixed (R26) and the regions of its image are made. -/
def State.beginRun (s : State) (j : Job) (im : Option Image) : State :=
  match s.job? j.key, im with
  | some _, some i =>
    let gens := ((s.corpora.filter fun c => c.pot == j.pot && c.st == .ready).map fun c => (List.range c.layers).map fun l => (c.id, l, c.gens.getD l 0)).flatten
    (s.modJob j.key fun j => { j with gens := gens }).makeRegions j i
  | _, _ => s
def State.startRun (s : State) (j : Job) : State := s.admitWith j (s.admitRun j) fun t => t.beginRun j (s.liveImage j.imageId)

end Sys2Proof.Machine
end

