-- ==== Sys2Proof/Machine/JobsTable.lean ====
section
/-! DEFINITION. Embedding tables: creation, rules, bags, atomic adds, update rules, the hot shelf, saving and loading
(chapter 5), and `DROP` (Table 10.3). -/

namespace Sys2Proof.Machine

-- Blocks (R109, Table 5.1)

/-- The element format code of Table 8.1 of a table format. -/
def tabFmt (f : Nat) : Nat := if f = 0 then 3 else if f = 1 then 5 else 1
def tabBlockBytes (f : Nat) : Nat := if f = 2 then 72 else 40
/-- A block as written: narrowed with the smallest scale that fits, reserved bytes zero (R109). -/
def tabEncode (f : Nat) (vs : List Val) : Bytes × List Sat :=
  if f = 2 then
    let r := vs.map (narrowElem 1)
    ((r.map fun x => natLe 2 x.1).flatten ++ [0x7F] ++ zeros 7, r.map (·.2))
  else
    let r := narrowBlock (tabFmt f) vs
    (r.2.map (fun x => BitVec.ofNat 8 x.1) ++ [BitVec.ofNat 8 r.1] ++ zeros 7, r.2.map (·.2))
/-- The values of a block; bytes that were never written are zero. -/
def tabDecode (f : Nat) (b : Bytes) : List Val :=
  (List.range 32).map fun i => if f = 2 then elemVal 1 (field b (2 * i) 2) else blockVal (tabFmt f) (b.getD 32 0).toNat (field b i 1)
/-- Values as consecutive blocks. -/
def tabEncodeAll (f : Nat) (vs : List Val) : List Bytes × List Sat :=
  let l := (blocks32 vs).map (tabEncode f)
  (l.map (·.1), (l.map (·.2)).flatten)
/-- The values of `n` link blocks. -/
def linkValues (b : Bytes) (n : Nat) : List Val :=
  ((List.range n).map fun k => (List.range 32).map fun i => blockVal 3 (b.getD (33 * k + 32) 0).toNat (field b (33 * k + i) 1)).flatten

-- Slices (R110 to R112)

def Table.blocks (t : Table) : Nat := t.width / 32
def Table.list (t : Table) : List Nat := memberList t.home t.members
/-- Blocks that a member holds: first, count (R110, R111). -/
def Table.cols (t : Table) (ord : Nat) : Nat × Nat := if t.mode = 0 then partOf t.blocks t.list ord else (0, t.blocks)
/-- Rows of a member's own range, replicas apart (R111). -/
def Table.ownRows (t : Table) (ord : Nat) : Nat × Nat := if t.mode = 0 then (0, t.rows) else partOf t.rows t.list ord
def inPart (r : Nat × Nat) (n : Nat) : Bool := decide (r.1 ≤ n) && decide (n < r.1 + r.2)
/-- A member holds a row: always in native mode, in its range or a replica range in pool mode. -/
def Table.holds (t : Table) (ord row : Nat) : Bool :=
  inPart (t.ownRows ord) row || (t.mode == 1 && t.replicas.any fun r => r.1 == ord && inPart (t.ownRows r.2) row)
def Table.holders (t : Table) (row : Nat) : List Nat := t.list.filter fun o => t.holds o row
/-- A rule that keeps momentum blocks; one that keeps a row scalar (Table 5.2). -/
def hasMomentum (rule : Nat) : Bool := rule == 1 || rule == 4
def hasScalar (rule : Nat) : Bool := rule == 2 || rule == 3
/-- Bytes of a row record on a member (R112). -/
def Table.recBytes (t : Table) (ord : Nat) : Nat :=
  (t.cols ord).2 * tabBlockBytes t.format * (if hasMomentum t.rule then 2 else 1) + (if hasScalar t.rule then 8 else 0)
/-- Records that a member holds. -/
def Table.recCount (t : Table) (ord : Nat) : Nat :=
  (t.ownRows ord).2 + (if t.mode = 0 then 0 else ((t.replicas.filter (·.1 == ord)).map fun r => (t.ownRows r.2).2).sum)
def Table.bytes (t : Table) (ord : Nat) : Nat := t.recBytes ord * t.recCount ord
/-- The quadrant of a row: its stack's (R112, R120). -/
def quadOf (row : Nat) : Nat := row % 8 / 2

def State.table? (s : State) (id : Nat) : Option Table := s.tables.find? (·.id == id)
def State.modTable (s : State) (id : Nat) (f : Table → Table) : State :=
  { s with tables := s.tables.map fun t => if t.id == id then f t else t }
def recOf (l : List RowRec) (row : Nat) : RowRec := (l.find? (·.row == row)).getD { row := row }
def setRec (l : List RowRec) (r : RowRec) : List RowRec :=
  if l.any (·.row == r.row) then l.map fun x => if x.row == r.row then r else x else l ++ [r]
/-- A row is served from its shelf copy: after its promotion, and until its demotion ends (R126, R128). -/
def Table.onShelf (t : Table) (row : Nat) : Bool :=
  match t.redirect.lookup row with | some .shelf => true | some .demote => true | _ => false
def Table.served (t : Table) (row : Nat) : RowRec := if t.onShelf row then recOf t.shelf row else recOf t.recs row
/-- The values of a record's blocks, as FP32. -/
def decodeRec (f n : Nat) (bs : List Bytes) : List (BitVec 32) :=
  (((List.range n).map fun i => tabDecode f (bs.getD i [])).flatten).map toF32

-- Update rules (R120 to R123, Table 5.2)

def f32Sum (c : Nat) (l : List (BitVec 32)) : BitVec 32 := sumFree c (l.map ofF32)
/-- The sign of a value: -1, 0 or +1; of a NaN, free. -/
def f32Sign (c i : Nat) (v : BitVec 32) : BitVec 32 :=
  match ofF32 v with
  | .nan => f32Of c i none
  | .inf n => if n then 0xBF800000 else 0x3F800000
  | .fin n m _ => if m = 0 then 0 else if n then 0xBF800000 else 0x3F800000

/-- What a rule makes of a row: weights, momentum, row scalar, column statistics. -/
structure Applied where
  w : List (BitVec 32)
  m : List (BitVec 32) := []
  sc : BitVec 32 := 0
  col : List (BitVec 32) := []
deriving DecidableEq, Repr

/-- Table 5.2, every operation in FP32 as it is written; `h` is the rule record: η, λ, μ, ε, β_r, β_c, ε₁, ε₂, β₁, β₂. -/
def applyRule (c rule : Nat) (h w m g : List (BitVec 32)) (sc : BitVec 32) (col : List (BitVec 32)) : Applied :=
  let n := g.length
  let p := fun k : Nat => h.getD k 0
  let z := fun (l : List (BitVec 32)) j => l.getD j 0
  let one : BitVec 32 := 0x3F800000
  let inv := f32Div c 1 one (f32Nat n)
  let mul := fun (i : Nat) (a b : BitVec 32) => f32Mul c i a b
  let add := fun (i : Nat) (a b : BitVec 32) => f32Add c i a b
  let sub := fun (i : Nat) (a b : BitVec 32) => f32Sub c i a b
  let div := fun (i : Nat) (a b : BitVec 32) => f32Div c i a b
  let js := List.range n
  match rule with
  | 1 =>
    let m' := js.map fun j => let k := 16 * j + 16; add k (mul (k + 1) (p 2) (z m j)) (z g j)
    { m := m', w := js.map fun j => let k := 16 * j + 16
      sub (k + 2) (z w j) (mul (k + 3) (p 0) (add (k + 4) (z m' j) (mul (k + 5) (p 1) (z w j)))) }
  | 2 =>
    let a := add 2 sc (mul 3 inv (f32Sum (c + 1) (js.map fun j => mul (16 * j + 16) (z g j) (z g j))))
    let d := add 4 (f32Sqrt c 5 a) (p 3)
    { sc := a, w := js.map fun j => let k := 16 * j + 16
      sub (k + 1) (z w j) (div (k + 2) (mul (k + 3) (p 0) (z g j)) d) }
  | 3 =>
    let sq := js.map fun j => add (16 * j + 16) (mul (16 * j + 17) (z g j) (z g j)) (p 6)
    let r := add 2 (mul 3 (p 4) sc) (mul 4 (mul 5 (sub 6 one (p 4)) inv) (f32Sum (c + 1) sq))
    let col' := js.map fun j => let k := 16 * j + 18; add k (mul (k + 1) (p 5) (z col j)) (mul (k + 2) (sub 7 one (p 5)) (z sq j))
    let mean := mul 8 inv (f32Sum (c + 2) col')
    { sc := r, col := col', w := js.map fun j => let k := 16 * j + 21
      let v := div k (mul (k + 1) r (z col' j)) mean
      let q := div (k + 2) (z g j) (add (k + 3) (f32Sqrt c (k + 4) v) (p 7))
      sub (k + 5) (z w j) (mul (k + 6) (p 0) (add (k + 7) q (mul (k + 8) (p 1) (z w j)))) }
  | 4 =>
    { w := js.map fun j => let k := 16 * j + 16
        let u := f32Sign c k (add (k + 1) (mul (k + 2) (p 8) (z m j)) (mul (k + 3) (sub 2 one (p 8)) (z g j)))
        sub (k + 4) (z w j) (mul (k + 5) (p 0) (add (k + 6) u (mul (k + 7) (p 1) (z w j))))
      m := js.map fun j => let k := 16 * j + 16
        add (k + 8) (mul (k + 9) (p 9) (z m j)) (mul (k + 10) (sub 3 one (p 9)) (z g j)) }
  | _ => { w := js.map fun j => add (16 * j + 16) (z w j) (z g j) }

/-- One add or rule application at the place that holds the row (R117, R120, R121): every state tensor read and written once; its
saturations are counted against the table, under the tags of the job or transfer (R201, R202). -/
def State.applyAt (s : State) (t : Table) (a : Arrive) (shelf : Bool) : State :=
  let r := recOf (if shelf then t.shelf else t.recs) a.row
  let n := (t.cols s.self).2
  let f := t.format
  let q := quadOf a.row
  let rule := if a.grad then t.rule else 0
  let o := applyRule s.free rule t.hyper (decodeRec f n r.w) (decodeRec f n r.m) a.vals r.scalar (t.stats.getD q [])
  let w := tabEncodeAll f (o.w.map ofF32)
  let m := tabEncodeAll f (o.m.map ofF32)
  let sats := satCounts (w.2 ++ m.2)
  let r' := { r with
    w := w.1, m := if a.grad && hasMomentum rule then m.1 else r.m, scalar := if a.grad && hasScalar rule then o.sc else r.scalar }
  let s := s.used.modTable t.id fun t => { t with
    recs := if shelf then t.recs else setRec t.recs r'
    shelf := if shelf then setRec t.shelf r' else t.shelf
    stats := if rule = 3 then (List.range 4).map fun i => if i = q then o.col else t.stats.getD i [] else t.stats
    sats := (satAdd64 t.sats.1 sats.1, satAdd64 t.sats.2 sats.2.2) }
  match s.job? a.item.1, a.link with
  | some j, none => (s.attribute j.pot j.key j.jobId j.layerId j.operId 35 (sats.1 + sats.2.2)).jobSats j.key (tabFmt f) (j.layerId, j.operId) (sats.1 + sats.2.2)
  | _, some (p, tag) => match (s.port p).inn.find? (·.tag == tag) with
    | some x => s.attribute t.pot 0 x.jobId x.layer x.oper 35 (sats.1 + sats.2.2)
    | none => s
  | _, _ => s

-- Items of adds and updates: acknowledgement (R119, R124, R345)

/-- Some addend or gradient of an item, of this module's own columns, is still to be applied. -/
def Embed.ownLeft (e : Embed) (job item : Nat) : Bool :=
  let mine := fun a : Arrive => a.item == (job, item) && a.link.isNone
  e.arrivals.any mine || e.buffer.toList.any fun b => b.any mine
/-- The pairs of an add or update item: row and BF16 values (Table 10.4). -/
def State.pairs (s : State) (width : Nat) (r : Bytes) : Option (List (Nat × Bytes)) :=
  let n := field r 8 4
  let size := 8 + 8 * ceilDiv (2 * width) 8
  (s.hostBytes (field r 0 8) (n * size)).map fun b => (List.range n).map fun i =>
    let p := slice b (i * size) size
    (field p 0 4, p.drop 4)
/-- The owner mask in member-list order (R124). -/
def ownerMask (list applied : List Nat) : Nat := (list.zipIdx.map fun (o, i) => if applied.contains o then 2 ^ i else 0).sum

/-- An item whose members have all answered, this module among them, completes: rows applied by every holder, owner mask. -/
def State.settleRows (s : State) (job item : Nat) (force : Bool) : State :=
  match s.embed.waits.find? fun w => w.job == job && w.item == item with
  | none => s
  | some w =>
    let own := !s.embed.ownLeft job item
    if !force && !(own && w.left.isEmpty) then s else
    let applied := w.applied ++ (if own && !w.bad then [s.self] else [])
    let t := (s.table? w.table).getD {}
    let rows := (((s.job? job).bind fun j => s.itemRec j item).bind (s.pairs t.width)).getD []
    let n := (rows.filter fun p => (t.holders p.1).all applied.contains).length
    let s := s.modEmbed fun e => { e with waits := e.waits.filter fun w => !(w.job == job && w.item == item) }
    s.complete job item fun i => { i with resA := n, resC := ownerMask t.list applied }
/-- An inbound transfer of rows is acknowledged once it has arrived whole and every row of it is applied (R345). -/
def State.settleLinkRows (s : State) (port tag : Nat) : State :=
  let mine := fun a : Arrive => a.link == some (port, tag)
  if s.embed.arrivals.any mine || (s.embed.buffer.toList.any fun b => b.any mine) then s else
  match (s.port port).inn.find? (·.tag == tag) with
  | none => s
  | some x =>
    if x.got < x.desc.total then s else
    (s.modPort port fun q => { q with inn := q.inn.filter (·.tag != tag) }).xferDone port tag x.status
/-- What an applied, or unapplicable, addend or gradient tells its item or its sender. -/
def State.acknowledge (s : State) (a : Arrive) : State :=
  match a.link with
  | none => s.settleRows a.item.1 a.item.2 false
  | some (p, tag) => s.settleLinkRows p tag
/-- A row that cannot be read or changed fails its item with `INTERNAL_FAULT` (R228). -/
def State.rowFails (s : State) (a : Arrive) : State :=
  match a.link with
  | none =>
    (s.modItem a.item.1 a.item.2 fun i => i.fail 0x50).modEmbed fun e => { e with
      waits := e.waits.map fun (w : RowWait) => if w.job == a.item.1 && w.item == a.item.2 then { w with bad := true } else w }
  | some (p, tag) => s.modPort p fun q => { q with inn := q.inn.map fun (x : XferIn) => if x.tag == tag then { x with status := 0x50 } else x }
/-- Applies an addend or gradient at a place, without acknowledging it. -/
def State.applyArrive (s : State) (a : Arrive) (shelf : Bool) : State :=
  match s.table? a.table with
  | none => s
  | some t => if (recOf (if shelf then t.shelf else t.recs) a.row).bad || (a.grad && t.rule == 3 && t.badStats.contains (quadOf a.row)) then s.rowFails a else s.applyAt t a shelf

-- The hot shelf (R125 to R128)

/-- Shelf bytes in use in a quadrant. -/
def State.shelfUsed (s : State) (q : Nat) : Nat :=
  (s.tables.map fun t => (t.shelf.filter fun r => quadOf r.row == q).length * t.recBytes s.self).sum
/-- The shelf row of a quadrant whose last access is oldest: table, row (R125). -/
def State.oldestShelf (s : State) (q : Nat) : Option (Nat × Nat) :=
  ((s.tables.map fun t => (t.shelf.filter fun r => quadOf r.row == q && t.redirect.lookup r.row == some .shelf).map fun r => (t.id, r)).flatten.foldl
    (fun (b : Option (Nat × RowRec)) x => match b with | some y => if x.2.used < y.2.used then some x else b | none => some x) none).map
      fun x => (x.1, x.2.row)
def State.setRedirect (s : State) (id row : Nat) (r : Option Redirect) : State := s.modTable id fun t => { t with
  redirect := t.redirect.filter (·.1 != row) ++ (r.map fun r => (row, r)).toList }
/-- Orders 1 to 3 of a promotion: space reserved, the redirect entry `COPY`, the record copied (Table 5.4). -/
def State.promote (s : State) (t : Table) (row : Nat) : State :=
  (s.setRedirect t.id row (some .copy)).modTable t.id fun t => { t with shelf := setRec t.shelf { recOf t.recs row with used := s.nextId } }
/-- A demotion begins: later changes of the row are held (R128). -/
def State.demote (s : State) (id row : Nat) : State := s.setRedirect id row (some .demote)

/-- A row may not be promoted: it migrates or lies on the shelf, is barred, or unreadable (R126, R127, R228). -/
def State.noPromotion (s : State) (t : Table) (row : Nat) : Bool :=
  (t.redirect.lookup row).isSome || (s.embed.bar.any fun b => b.1 == t.id && b.2.1 == row && decide (s.time < b.2.2)) || (recOf t.recs row).bad
/-- Hot rows of a quadrant that wait for shelf space, oldest first: promoted while the shelf has room, else the row whose last access is
oldest is demoted, one at a time (R125). The last argument bounds the rows looked at. -/
def State.serveHot (s : State) (q : Nat) : Nat → State
  | 0 => s
  | n + 1 =>
    match s.embed.wanted.find? fun w => quadOf w.2 == q with
    | none => s
    | some (id, row) =>
      let done := fun (s : State) => s.modEmbed fun e => { e with wanted := e.wanted.erase (id, row) }
      match (s.table? id).filter fun t => !s.noPromotion t row with
      | none => State.serveHot (done s) q n
      | some t =>
        if s.shelfUsed q + t.recBytes s.self ≤ s.shelfBytes then State.serveHot ((done s).promote t row) q n
        else if s.tables.any fun t => t.redirect.any fun r => r.2 == .demote && quadOf r.1 == q then s
        else match s.oldestShelf q with
          | some (i, r) => s.demote i r
          | none => State.serveHot (done s) q n
/-- Serves the hot rows of a quadrant. -/
def State.promoteHot (s : State) (q : Nat) : State := s.serveHot q (s.embed.wanted.length + 1)

/-- One access to a row is counted in its quadrant's sketch, which may over-count by a free amount; a hot row is promoted, once the
shelf has room (R125 to R127, R426). -/
def State.access (s : State) (id row : Nat) : State :=
  match s.table? id with
  | none => s
  | some t =>
    let q := quadOf row
    let sk := s.embed.sketch[q]?.getD []
    let old := ((sk.find? fun e => e.1 == id && e.2.1 == row).map (·.2.2)).getD 0
    let n := old + 1 + Config.choice s.free row
    let s := s.used.modEmbed fun e => { e with
      sketch := e.sketch.setIfInBounds q ((sk.filter fun e => !(e.1 == id && e.2.1 == row)) ++ [(id, row, n)]) }
    let s := ({ s with nextId := s.nextId + 1 } : State).modTable id fun t => { t with
      shelf := t.shelf.map fun (r : RowRec) => if r.row == row then { r with used := s.nextId } else r }
    if decide (n < (s.embed.hotOld.lookup q).getD s.hotThreshold) || s.shelfBytes == 0 || s.noPromotion t row || s.embed.wanted.contains (id, row) then s
    else (s.modEmbed fun e => { e with wanted := e.wanted ++ [(id, row)] }).promoteHot q

/-- The held changes of a row, in order, leave the migration buffer. -/
def State.takeHeld (s : State) (id row : Nat) : State × List Arrive :=
  let q := quadOf row
  let mine := fun a : Arrive => a.table == id && a.row == row
  let b := s.embed.buffer[q]?.getD []
  (s.modEmbed fun e => { e with buffer := e.buffer.setIfInBounds q (b.filter fun a => !mine a) }, b.filter mine)
/-- Applies held changes in held order at a place, then acknowledges them (Table 5.4, R127). -/
def State.applyHeld (s : State) (l : List Arrive) (shelf : Bool) : State :=
  let s := l.foldl (fun s a => s.applyArrive a shelf) s
  l.foldl State.acknowledge s

/-- A migration is abandoned: the new copy is discarded, the held changes go to the old place, the redirect entry returns; a
promotion is not tried again for 10 ms (R127, R128). -/
def State.abandon (s : State) (id row : Nat) : State :=
  match (s.table? id).bind fun t => (t.redirect.lookup row).map fun r => (t, r) with
  | some (t, .copy) =>
    let s := (s.setRedirect id row none).modTable id fun t => { t with shelf := t.shelf.filter (·.row != row) }
    let (s, held) := s.takeHeld id row
    let s := (s.count 2 t.pot 37 1).modEmbed fun e => { e with bar := e.bar.filter (fun b => !(b.1 == id && b.2.1 == row)) ++ [(id, row, s.time + 10000)] }
    (s.applyHeld held false).promoteHot (quadOf row)
  | some (t, .demote) =>
    let s := s.setRedirect id row (some .shelf)
    let (s, held) := s.takeHeld id row
    ((s.count 2 t.pot 37 1).applyHeld held true).promoteHot (quadOf row)
  | _ => s

/-- SHELF_REDIRECT_FLIP (Table 5.4, orders 4 to 7): held changes are applied at the shelf copy, the entry flips to `SHELF`. -/
def execShelfRedirectFlip (table row : Nat) (s : State) : Out :=
  match (s.table? table).bind fun t => (t.redirect.lookup row).map fun r => (t, r) with
  | some (t, .copy) =>
    let (s, held) := (s.setRedirect table row (some .shelf)).takeHeld table row
    .next (((s.count 2 t.pot 38 1).modTable table fun t => { t with moves := (t.moves.1 + 1, t.moves.2) }).applyHeld held true)
  | _ => .next s

/-- SHELF_ABANDONED (R127): 50 µs have passed, or the buffer is full. -/
def execShelfAbandoned (table row : Nat) (s : State) : Out := .next (s.abandon table row)

/-- SHELF_DEMOTION (R128): the shelf copy returns to the DRAM record, held changes are applied there, the entry clears, and
a hot row that waits for its space is promoted (R125). -/
def execShelfDemotion (table row : Nat) (s : State) : Out :=
  match s.table? table with
  | none => .next s
  | some t =>
    if !t.onShelf row then .next s else
    let s := (s.setRedirect table row none).modTable table fun t => { t with
      recs := setRec t.recs { recOf t.shelf row with used := 0 }, shelf := t.shelf.filter (·.row != row) }
    let (s, held) := s.takeHeld table row
    .next ((((s.count 2 t.pot 38 1).modTable table fun t => { t with moves := (t.moves.1, t.moves.2 + 1) }).applyHeld held false).promoteHot (quadOf row))

/-- HOT_WINDOW_EXPIRY (R125): a new 10 ms window begins. -/
def execHotWindowExpiry (quadrant : Fin 4) (s : State) : Out :=
  .next (s.modEmbed fun e => { e with sketch := e.sketch.set quadrant [], hotOld := e.hotOld.filter fun w => w.1 != quadrant.val })

-- Applying what has arrived (R117, R120, R126, R345)

/-- Arrival `n` may be taken now: rows of one link are applied in arrival order, others in free order (R345). -/
def Embed.takeable (e : Embed) (n : Nat) (grad : Bool) : Option Arrive :=
  match e.arrivals[n]? with
  | none => none
  | some a =>
    let behind := (e.arrivals.take n).any fun b => b.link.isSome && b.link.map (·.1) == a.link.map (·.1)
    if a.grad == grad && !behind then some a else none
/-- A save of the table runs: adds and updates wait (R129). -/
def State.saving (s : State) (id : Nat) : Bool := s.jobs.any fun j => j.type == 0x12 && j.ready && j.f 0x30 4 == id
/-- Takes arrival `n`; one from a link waits while a save of its table runs (R129). It is held while its row migrates, and a buffer of 64 abandons that migration (R126, R127); else it is
applied where the row is served and acknowledged. -/
def State.takeArrival (s : State) (n : Nat) (grad : Bool) : State :=
  match (s.embed.takeable n grad).filter fun a => a.link.isNone || !s.saving a.table with
  | none => s
  | some a =>
    let s := s.modEmbed fun e => { e with arrivals := e.arrivals.eraseIdx n }
    match s.table? a.table with
    | none => s.acknowledge a
    | some t =>
      let s := s.access a.table a.row
      let redirect := ((s.table? a.table).getD t).redirect.lookup a.row
      let hold := fun (s : State) =>
        let q := quadOf a.row
        let b := s.embed.buffer[q]?.getD [] ++ [a]
        let s := s.modEmbed fun e => { e with buffer := e.buffer.setIfInBounds q b }
        if b.length < 64 then s else s.abandon a.table a.row
      match redirect with
      | some .copy => hold s
      | some .demote => hold s
      | some .shelf => (s.applyArrive a true).acknowledge a
      | none => (s.applyArrive a false).acknowledge a
/-- ATOMIC_ADD (R117). -/
def execAtomicAdd (n : Nat) (s : State) : Out := .next (s.takeArrival n false).tidy
/-- RULE_APPLICATION (R120). -/
def execRuleApplication (n : Nat) (s : State) : Out := .next (s.takeArrival n true).tidy

-- Admission (R108, R122, R129, R130, R340)

/-- Checks 2, 3 and 6 for a job that names a table, and what form its fields have. -/
def State.tableChecks (s : State) (j : Job) (ok1 empty : Bool) : List (Bool × Nat) :=
  let t := s.table? (j.f 0x30 4)
  [(j.formOk && ok1, 0x10),
   ((t.map fun t => t.pot == j.pot && (t.list.length ≤ 1 || j.pot == s.servingPot)).getD true, 0x40),
   ((t.map fun t => empty || !t.empty).getD false, 0x10),
   ((t.map fun t => s.allPresent t.list).getD true, 0x22)]
/-- Defaults of Table 5.3. -/
def hyperDefault : List (BitVec 32) :=
  [0x3C23D70A, 0, 0x3F666666, 0x322BCC77, 0x3F7FBE77, 0x3F7FF972, 0x0DA24260, 0x322BCC77, 0x3F666666, 0x3F7D70A4]
/-- The ranges of Table 5.3, by position in the rule record; a value out of range is refused whichever rule the table has (R122). -/
def hyperRanges : List (BitVec 32 × BitVec 32) :=
  [(0, 0x3F800000), (0, 0x3F800000), (0, 0x3F7FBE77), (0x2B8CBCCC, 0x3C23D70A), (0, 0x3F7FFF58), (0, 0x3F7FFF58), (0x006CE3EE, 0x3C23D70A),
    (0x2B8CBCCC, 0x3C23D70A), (0, 0x3F7FBE77), (0, 0x3F7FBE77)]
/-- An FP32 value lies in a closed range. -/
def f32Between (lo hi v : BitVec 32) : Bool := (ofF32 lo).le (ofF32 v) && (ofF32 v).le (ofF32 hi)
def hyperOk (h : List (BitVec 32)) : Bool := hyperRanges.zipIdx.all fun r => f32Between r.1.1 r.1.2 (h.getD r.2 0)
/-- A rule record: 48 bytes whose last 8 are reserved. -/
def hyperOf (b : Bytes) : Option (List (BitVec 32)) := if slice b 40 8 == zeros 8 then some (f32s b 10) else none
def hyperBytes (h : List (BitVec 32)) : Bytes := (h.map fun x => natLe 4 x.toNat).flatten ++ zeros 8
/-- The replica entries of a list of 8-byte records; none where a reserved byte is not zero. -/
def replicasOf (b : Bytes) (n : Nat) : Option (List (Nat × Nat)) :=
  let l := (List.range n).map fun i => slice b (8 * i) 8
  if l.all fun e => slice e 2 6 == zeros 6 then some (l.map fun e => (field e 0 1, field e 1 1)) else none

/-- The table that a `TABLE_CREATE` makes. -/
def tableOf (j : Job) (home : Nat) (hyper : List (BitVec 32)) (replicas : List (Nat × Nat)) : Table :=
  { id := j.f 0x30 4, pot := j.pot, width := j.f 0x34 4, rows := j.f 0x38 8, format := j.f 0x40 1, rule := j.f 0x41 1
    mode := j.f 0x42 1, members := j.f 0x43 1, home := home, hyper := hyper, replicas := replicas }
/-- The limits of Table 5.5 on a table's form. -/
def Table.limits (t : Table) : Bool :=
  decide (1 ≤ t.rows) && decide (t.rows ≤ 2 ^ 32) && decide (32 ≤ t.width) && decide (t.width ≤ 8192) && t.width % 32 == 0 &&
  decide (t.list.length ≤ 5) && (t.mode == 1 || decide (t.list.length ≤ t.blocks))
/-- Bytes of the four copies of a table's column statistics (R121). -/
def Table.statBytes (t : Table) (ord : Nat) : Nat := if t.rule = 3 then 4 * 128 * (t.cols ord).2 else 0
/-- The records become one pinned allocation, all zero (R112), and so do the column statistics of rule 3 in the quadrant stores (R211). -/
def State.makeTable (s : State) (t : Table) : State :=
  let s := s.claim { key := .table t.id, pot := t.pot, cls := .pinned, size := t.bytes s.self }
  let n := t.statBytes s.self
  let s := if n = 0 then s else (s.allocPinned false { key := .table t.id, pot := t.pot, cls := .pinned, size := n }).1
  { s with tables := s.tables ++ [t] }
/-- The own records would fit the pot's DRAM share (R112), the column statistics its share of the quadrant stores (R214). -/
def State.tableFits (s : State) (t : Table) : Bool :=
  decide (s.pinned true t.pot + t.bytes s.self ≤ s.share true t.pot) &&
  (t.statBytes s.self == 0 || decide (s.pinned false t.pot + t.statBytes s.self ≤ s.share false t.pot))
/-- The form that both the home module and a member check: id free, encodings, limits, share. -/
def State.createFail (s : State) (t : Table) : List (Bool × Nat) :=
  [((s.table? t.id).isNone, 0x10), (t.limits && decide (s.tables.length < 1024) && hyperOk t.hyper, 0x12), (s.tableFits t, 0x11)]

/-- TABLE_CREATE on the home module. -/
def State.newHyper (s : State) (j : Job) : Option (List (BitVec 32)) :=
  if j.f 0x48 8 = 0 then some hyperDefault else (s.hostRead (j.f 0x48 8) 48).bind hyperOf
def State.newReplicas (s : State) (j : Job) : Option (List (Nat × Nat)) :=
  (s.hostBytes (j.f 0x50 8) (8 * j.f 0x44 1)).bind fun b => replicasOf b (j.f 0x44 1)
/-- The table that the job asks for. -/
def State.newTable (s : State) (j : Job) : Table := tableOf j s.self ((s.newHyper j).getD hyperDefault) ((s.newReplicas j).getD [])
def State.admitTableCreate (s : State) (j : Job) : Admission :=
  let n := j.f 0x44 1
  let hyper := s.newHyper j
  let reps := s.newReplicas j
  let t := s.newTable j
  let group := decide (1 < t.list.length)
  let form := j.formOk && decide (t.format < 3) && decide (t.rule < 5) && decide (t.mode < 2) && decide (n ≤ 4) && (n == 0 || t.mode == 1) &&
    s.memberByteOk t.members true && hyper.isSome && reps.isSome &&
    t.replicas.all fun r => t.list.contains r.1 && t.list.contains r.2 && r.1 != r.2
  let c := s.createFail t
  let whole := firstFail ([(form, 0x10), (!group || j.pot == s.servingPot, 0x40)] ++ c.take 2 ++ [(s.allPresent t.list, 0x22)] ++ c.drop 2)
  { whole := whole, items := [], footprint := 0 }
/-- The table is made; a group's members are told. -/
def State.beginTableCreate (s : State) (j : Job) (t : Table) : State :=
  let s := s.makeTable t
  let s := if 1 < t.list.length then
      s.control j t.id t.list (hyperBytes t.hyper ++ (t.replicas.map fun r => natLe 1 r.1 ++ natLe 1 r.2 ++ zeros 6).flatten) else s
  s.ownDone j.key id
def State.startTableCreate (s : State) (j : Job) : State :=
  s.admitWith j (s.admitTableCreate j) fun t => t.beginTableCreate j (s.newTable j)

/-- TABLE_RULE (R122): the values only. -/
def State.ruleValues (s : State) (j : Job) : Option (List (BitVec 32)) := (s.hostRead (j.f 0x48 8) 48).bind hyperOf
def State.admitTableRule (s : State) (j : Job) : Admission :=
  let hyper := s.ruleValues j
  let c := s.tableChecks j true false
  let whole := firstFail (c.take 1 ++ [(hyper.isSome, 0x10)] ++ (c.drop 1).take 2 ++ [(hyperOk (hyper.getD []), 0x12)] ++ c.drop 3)
  { whole := whole, items := [], footprint := 0 }
/-- The table's values change; a group's members are told. -/
def State.beginTableRule (s : State) (j : Job) (t : Table) (hyper : Option (List (BitVec 32))) : State :=
  let s := s.modTable t.id fun t => { t with hyper := hyper.getD t.hyper }
  let s := if 1 < t.list.length then s.control j t.id t.list (hyperBytes (hyper.getD [])) else s
  s.ownDone j.key id
def State.startTableRule (s : State) (j : Job) : State :=
  s.admitWith j (s.admitTableRule j) fun t => t.beginTableRule j ((s.table? (j.f 0x30 4)).getD {}) (s.ruleValues j)

-- Saving and loading (R129)

/-- The records as they stand, shelved rows copied back. -/
def Table.snapshot (t : Table) : List RowRec :=
  (t.shelf.filter fun r => t.onShelf r.row).foldl (fun l r => setRec l { r with used := 0 }) t.recs
/-- Units of an image: pages of four (R129). -/
def Table.imageUnits (t : Table) (ord : Nat) : Nat := 4 * ceilDiv (t.bytes ord + t.statBytes ord) 16384
/-- A member's image replaces its last one; the home module's stands back until every member has answered (`settleGroup`): a save cut
short leaves the home's previous image in place (R129; DESIGN CHOICE, assumption log 57, for a member's). -/
def State.saveTable (s : State) (id : Nat) (home : Bool) : State := s.modTable id fun t =>
  let im := some (t.snapshot, t.stats)
  { t with image := if home then t.image else im, pending := if home then im else none, units := t.imageUnits s.self }
/-- Every add and update of a table that has arrived is applied where its row is served and acknowledged, the held ones first: none is
dropped (R117, R127). -/
def State.finishAdds (s : State) (id : Nat) : State :=
  let mine := fun a : Arrive => a.table == id
  let l := (s.embed.buffer.toList.flatten ++ s.embed.arrivals).filter mine
  let s := s.modEmbed fun e => { e with
    arrivals := e.arrivals.filter fun a => !mine a, buffer := e.buffer.map fun b => b.filter fun a => !mine a }
  let s := l.foldl (fun s a => s.applyArrive a (((s.table? id).map fun t => t.onShelf a.row).getD false)) s
  l.foldl State.acknowledge s
/-- The table's last image replaces it, every row readable again (R228, R129), once what has arrived for it is applied; its shelf and
redirect entries go. The home module's stays `EMPTY` until every member has answered. -/
def State.loadTable (s : State) (id : Nat) (home : Bool) : State := (s.finishAdds id).modTable id fun t => match t.image with
  | some (r, c) => { t with
    recs := r.map fun x => { x with bad := false }, stats := c, badStats := [], shelf := [], redirect := [], empty := home && t.empty }
  | none => t
/-- TABLE_SAVE. -/
def State.admitTableSave (s : State) (j : Job) : Admission :=
  let t := (s.table? (j.f 0x30 4)).getD {}
  let whole := firstFail (s.tableChecks j true false ++ [(decide (t.imageUnits s.self ≤ s.unitsFree j.pot), 0x11)])
  { whole := whole, items := [], footprint := 0 }
def State.beginTableSave (s : State) (j : Job) (t : Table) : State :=
  if !s.writeOk then s.ownDone j.key (fun (i : Item) => i.fail 0x20) else
  let s := s.saveTable t.id true
  (if 1 < t.list.length then s.control j t.id t.list [] else s).ownDone j.key id
def State.startTableSave (s : State) (j : Job) : State :=
  s.admitWith j (s.admitTableSave j) fun t => t.beginTableSave j ((s.table? (j.f 0x30 4)).getD {})
/-- TABLE_LOAD: a table without a complete image has none to load. -/
def State.admitTableLoad (s : State) (j : Job) : Admission :=
  let t := (s.table? (j.f 0x30 4)).getD {}
  let c := s.tableChecks j true true
  let whole := firstFail (c.take 3 ++ [(t.image.isSome, 0x10)] ++ c.drop 3)
  { whole := whole, items := [], footprint := 0 }
def State.beginTableLoad (s : State) (j : Job) (t : Table) : State :=
  let s := s.loadTable t.id true
  (if 1 < t.list.length then s.control j t.id t.list [] else s).ownDone j.key id
def State.startTableLoad (s : State) (j : Job) : State :=
  s.admitWith j (s.admitTableLoad j) fun t => t.beginTableLoad j ((s.table? (j.f 0x30 4)).getD {})
-- Bags (R113 to R116, R351)

/-- An FP32 weight as every member uses it: below 2⁻¹¹³ rounded to a multiple of 2⁻¹³⁶ (R351). -/
def linkWeight (w : BitVec 32) : BitVec 32 :=
  match ofF32 w with
  | .fin n m e =>
    if (Val.fin false m e).lt (.fin false 1 (-113)) then
      let k := if 0 ≤ e + 136 then m * 2 ^ (e + 136).toNat else rneShift m (-(e + 136)).toNat
      toF32 (.fin n k (-136))
    else w
  | _ => w
/-- The bags of an item: each its entries (row, weight). -/
def State.bagsOf (s : State) (r : Bytes) : Option (List (List (Nat × BitVec 32))) :=
  let n := field r 0x18 4
  let e := field r 0x1C 1
  (s.hostRead (field r 8 8) (4 * (n + 1))).bind fun o =>
    let off := fun i => field o (4 * i) 4
    if (List.range n).all fun i => decide (off i ≤ off (i + 1)) then
      (s.hostBytes (field r 0 8 + e * off 0) (e * (off n - off 0))).map fun b => (List.range n).map fun i =>
        (List.range (off (i + 1) - off i)).map fun k =>
          let a := e * (off i - off 0 + k)
          (field b a 4, if e = 8 then linkWeight (BitVec.ofNat 32 (field b (a + 4) 4)) else 0x3F800000)
    else none
/-- The pooled part of one bag over `n` of this module's blocks (R113): entries of rows it serves, in free order. -/
def Table.pool (c : Nat) (t : Table) (n count : Nat) (mean : Bool) (entries : List (Nat × BitVec 32)) : List (BitVec 32) :=
  let rows := entries.map fun e => ((t.served e.1).w, e.2)
  (List.range n).map (fun b =>
    let blocks := rows.map fun r => (tabDecode t.format (r.1.getD b []), ofF32 r.2)
    (List.range 32).map fun k =>
      let terms := blocks.zipIdx.map fun (x, i) =>
        let v := (x.1.getD k (.fin false 0 0)).mul? x.2
        if Config.pick c 5 2 = 0 then v.getD (ofF32 (f32Of c (i + 100) v)) else ofF32 (f32Of c (i + 100) v)
      let sum := sumFree (c + 1 + 32 * b + k) terms
      if mean && decide (0 < count) then f32Div c (33 + k) sum (f32Nat count) else sum) |>.flatten
/-- The status that a bag item earns by its own fields (R116, Table 5.5). -/
def State.bagItemFail (s : State) (t : Table) (r : Bytes) : Option Nat :=
  let e := field r 0x1C 1
  let o := field r 0x1E 1
  let bags := s.bagsOf r
  let sizes := (bags.getD []).map (·.length)
  firstFail [
    (itemZero r [(0, 0x1F)] && (e == 4 || e == 8) && decide (field r 0x1D 1 < 2) && (o == 0 || o == 2), 0x10),
    (decide (field r 0x18 4 ≤ 65536) && sizes.all (· ≤ 65536) && decide (sizes.sum ≤ 1048576), 0x12),
    ((match bags with | some l => l.all fun b => b.all fun e => decide (e.1 < t.rows) | none => false), 0x10)]
/-- A bag's vector in an output format: BF16 elements of 2 bytes, or the E4M3 blocks of Table 5.1 (R11, R114). -/
def bagVector (fmt : Nat) (vs : List Val) : Bytes × List Sat :=
  if fmt = 2 then
    let r := vs.map (narrowElem 1)
    ((r.map fun x => natLe 2 x.1).flatten, r.map (·.2))
  else
    let r := tabEncodeAll fmt vs
    (r.1.flatten, r.2)
/-- Writes a bag item's vectors, their saturations counted (R202), and completes it (R114). -/
def State.finishBag (s : State) (job item : Nat) (acc : List (List (BitVec 32))) : State :=
  match (s.job? job).bind fun j => s.itemRec j item with
  | none => s.complete job item fun i => i.fail 0x10
  | some r =>
    let fmt := field r 0x1E 1
    let w := acc.map fun v => bagVector fmt (v.map ofF32)
    let sats := satCounts (w.map (·.2)).flatten
    let s := match s.job? job with
      | some j => s.jobSats job (tabFmt fmt) (j.layerId, j.operId) (sats.1 + sats.2.2)
      | none => s
    (s.jobWrite job (field r 0x10 8) (w.map (·.1)).flatten).complete job item fun i => { i with resA := acc.length }
/-- The bytes of kind 2 that a member is sent: whole bag offsets, offsets of the entries sent, the entries, then the item's other
fields (Table 14.8). -/
def bagRequest (c : Nat) (r : Bytes) (bags sent : List (List (Nat × BitVec 32))) : Bytes :=
  let offs := fun (l : List (List (Nat × BitVec 32))) => (List.range (l.length + 1)).map fun i => natLe 4 ((l.take i).map (·.length)).sum
  let pairs := fun (w : BitVec 32) => match ofF32 w with
    | .fin n m e => ((List.range 6).foldl (fun (a : Bytes × Nat) _ =>
        let top := a.2.log2
        let k := if top ≤ 3 then 0 else top - 3
        let part := a.2 / 2 ^ k
        let x := 127 + e + k
        let code := (e4m3.narrow (.fin n part (min 0 x))).1
        (a.1 ++ [BitVec.ofNat 8 code, BitVec.ofNat 8 (max 0 x).toNat], a.2 - part * 2 ^ k)) ([], m)).1
    | _ => (List.range 12).map fun i => BitVec.ofNat 8 (Config.freeWord c i).toNat
  (offs bags).flatten ++ (offs sent).flatten ++ (sent.flatten.map fun e => natLe 4 e.1 ++ (if field r 0x1C 1 = 8 then pairs e.2 else [])).flatten ++
    slice r 0x18 8
/-- A bag item begins (R114): entries go to the members that hold them, one of the holders each, and the own part is pooled. -/
def State.bagItem (s : State) (j : Job) (i : Nat) : State :=
  match s.live? j.key i, s.table? (j.f 0x30 4), s.itemRec j i with
  | some _, some t, some r =>
    match s.bagsOf r with
    | none => s.complete j.key i fun it => it.fail 0x10
    | some bags =>
      let all := bags.flatten
      let at_ := fun (row k : Nat) => if t.mode = 0 then 0 else
        let h := t.holders row
        h.getD (Config.pick s.free k h.length) s.self
      let tagged := (bags.zipIdx).map fun (b, n) => b.zipIdx.map fun ((e : Nat × BitVec 32), (k : Nat)) => (e, at_ e.1 (65536 * n + k))
      let sentTo := fun (o : Nat) => tagged.map fun (b : List ((Nat × BitVec 32) × Nat)) => (b.filter fun e => t.mode == 0 || e.2 == o).map (·.1)
      let left := if all.isEmpty then [] else (s.others t.list).filter fun o => t.mode == 0 || !(sentTo o).flatten.isEmpty
      let s := left.foldl (fun s o => s.sendTo o 2 t.id (targetOf i j.jobId)
        { job := j.key, item := i, tc := 2, lfmt := if field r 0x1C 1 = 8 then 5 else 4, tags := j.pktTags, data := bagRequest s.free r bags (sentTo o) }) s.used
      let own := (sentTo s.self)
      let bad := own.flatten.any fun e => (t.served e.1).bad
      let (first, n) := t.cols s.self
      let parts := (own.zip bags).zipIdx.map fun ((e, b), k) => t.pool (s.free + 100000 * k) n b.length (field r 0x1D 1 == 1) e
      let acc := parts.map fun p => (List.replicate (32 * first) (0 : BitVec 32)) ++ p ++ List.replicate (t.width - 32 * (first + n)) 0
      let s := own.flatten.foldl (fun s e => s.access t.id e.1) s
      let s := if bad then s.modItem j.key i fun it => it.fail 0x50 else s
      if bad then s.complete j.key i id
      else if left.isEmpty then s.finishBag j.key i acc
      else s.modEmbed fun e => { e with bags := e.bags ++ [{ job := j.key, item := i, left := left, acc := acc }] }
  | some _, _, _ => s.complete j.key i fun it => it.fail 0x10
  | none, _, _ => s
/-- BAG. -/
def State.admitBag (s : State) (j : Job) : Admission :=
  { whole := firstFail (s.tableChecks j true false)
    items := ((s.table? (j.f 0x30 4)).map fun t => s.itemFails j (s.bagItemFail t)).getD [], footprint := 0 }
def State.startBag (s : State) (j : Job) : State :=
  s.admitWith j (s.admitBag j) fun s => (List.range j.nItems).foldl (fun s i => s.bagItem j i) s
/-- A member's part joins a bag item: placed at its columns in native mode, added in FP32 in pool mode (R114). -/
def Table.joinPart (c : Nat) (t : Table) (ord : Nat) (acc : List (List (BitVec 32))) (part : Bytes) : List (List (BitVec 32)) :=
  let (first, n) := t.cols ord
  acc.zipIdx.map fun (v, b) =>
    let p := (linkValues (slice part (33 * n * b) (33 * n)) n).map toF32
    if t.mode = 0 then v.take (32 * first) ++ p ++ v.drop (32 * (first + n))
    else (v.zip p).zipIdx.map fun (x, k) => f32Add c (k + t.width * b) x.1 x.2
/-- A member's part of a bag item has come (R114): the item is written and completed when every part has. -/
def State.partReceived (s : State) (job item member : Nat) (part : Bytes) : State :=
  match s.embed.bags.find? fun w => w.job == job && w.item == item with
  | none => s
  | some w =>
    match (s.job? job).bind fun j => s.table? (j.f 0x30 4) with
    | none => s
    | some t =>
      if !w.left.contains member then s else
      let acc := t.joinPart s.free member w.acc part
      let left := w.left.erase member
      let s := s.used
      if left.isEmpty then
        let s := s.modEmbed fun e => { e with bags := e.bags.filter fun w => !(w.job == job && w.item == item) }
        (s.finishBag job item acc).tidy
      else s.modEmbed fun e => { e with
        bags := e.bags.map fun (x : BagWait) => if x.job == job && x.item == item then { x with left := left, acc := acc } else x }
/-- BAG_PART_RECEIVED (R114). -/
def execBagPartReceived (job item : Nat) (member : Fin 5) (part : Bytes) (s : State) : Out := .next (s.partReceived job item member.val part)
/-- An item that waits on members ends with a status: no vector is written, changes applied are kept (R116, R124). -/
def State.endWait (s : State) (job item st : Nat) : State :=
  let s := if s.embed.bags.any fun w => w.job == job && w.item == item then
      (s.modEmbed fun e => { e with bags := e.bags.filter fun w => !(w.job == job && w.item == item) }).complete job item fun i => i.fail st
    else s
  if s.embed.waits.any fun w => w.job == job && w.item == item && !w.left.isEmpty then
    (s.modItem job item fun i => i.fail st).settleRows job item true
  else s
/-- BAG_WAIT_EXPIRY (R116, R124). -/
def execBagWaitExpiry (job item : Nat) (s : State) : Out := .next (s.endWait job item 0x22).tidy

-- Adds and updates (R114, R117, R123)

/-- A BF16 vector as values. -/
def bf16s (b : Bytes) (n : Nat) : List (BitVec 32) := (List.range n).map fun i => toF32 (elemVal 1 (field b (2 * i) 2))
/-- With `COMBINE`, one gradient per row, summed in FP32 (R123). -/
def combine (c : Nat) (l : List (Nat × List (BitVec 32))) (width : Nat) : List (Nat × List (BitVec 32)) :=
  (l.map (·.1)).eraseDups.map fun row =>
    let gs := (l.filter (·.1 == row)).map (·.2)
    (row, (List.range width).map fun k => sumFree (c + row * 8192 + k) (gs.map fun g => ofF32 (g.getD k 0)))
/-- The status that an add or update item earns by its own fields. -/
def State.rowsItemFail (s : State) (t : Table) (r : Bytes) : Option Nat :=
  let n := field r 8 4
  firstFail [
    (itemZero r [(0, 12)], 0x10), (decide (n ≤ 1048576), 0x12),
    ((match if n ≤ 1048576 then s.pairs t.width r else none with
      | some l => l.all fun p => decide (p.1 < t.rows) && field p.2 0 4 == 0
      | none => false), 0x10)]
/-- An add or update item begins: the members' columns are sent as link blocks, the own columns join the receive path. -/
def State.rowsItem (s : State) (j : Job) (i : Nat) (grad : Bool) : State :=
  match s.live? j.key i, s.table? (j.f 0x30 4), s.itemRec j i with
  | some _, some t, some r =>
    match s.pairs t.width r with
    | none => s.complete j.key i fun it => it.fail 0x10
    | some ps =>
      let rows := ps.map fun p => (p.1, bf16s (p.2.drop 4) t.width)
      let rows := if grad && bit (j.f 0x34 1) 0 then combine s.free rows t.width else rows
      let mineOf := fun (o : Nat) => rows.filter fun p => t.holds o p.1
      let left := (s.others t.list).filter fun o => !(mineOf o).isEmpty
      let part := fun (o : Nat) (v : List (BitVec 32)) => (v.drop (32 * (t.cols o).1)).take (32 * (t.cols o).2)
      let s := left.foldl (fun s o => s.sendTo o (if grad then 5 else 4) t.id (targetOf i j.jobId)
        { job := j.key, item := i, tc := 2, lfmt := 1, tags := j.pktTags
          data := ((mineOf o).map fun p => natLe 4 p.1).flatten ++ ((mineOf o).map fun p => linkBlocks ((part o p.2).map ofF32)).flatten }) s.used
      let arr := (mineOf s.self).map fun p => ({ grad := grad, table := t.id, row := p.1, vals := part s.self p.2, item := (j.key, i) } : Arrive)
      let idle := (s.others t.list).filter fun o => !left.contains o
      (s.modEmbed fun e => { e with
        arrivals := e.arrivals ++ arr
        waits := e.waits ++ [{ job := j.key, item := i, table := t.id, left := left, applied := idle }] }).settleRows j.key i false
  | some _, _, _ => s.complete j.key i fun it => it.fail 0x10
  | none, _, _ => s
/-- ADD and UPDATE at admission; they wait while a save of the table runs (R129). -/
def State.admitRows (s : State) (j : Job) (grad : Bool) : Admission :=
  { whole := firstFail (s.tableChecks j (!grad || decide (j.f 0x34 1 < 2)) false)
    items := ((s.table? (j.f 0x30 4)).map fun t => s.itemFails j (s.rowsItemFail t)).getD [], footprint := 0 }
def State.startRows (s : State) (j : Job) (grad : Bool) : State :=
  if s.saving (j.f 0x30 4) then s else
  s.admitWith j (s.admitRows j grad) fun s => (List.range j.nItems).foldl (fun s i => s.rowsItem j i grad) s
/-- A member's answer to addends or gradients (R124, R345). -/
def State.rowsAnswer (s : State) (job item ord st : Nat) : State :=
  let s := s.modEmbed fun e => { e with waits := e.waits.map fun (w : RowWait) =>
    if w.job == job && w.item == item then { w with left := w.left.erase ord, applied := if st = 0 then w.applied ++ [ord] else w.applied } else w }
  (if st = 0 then s else s.modItem job item fun i => i.fail (peerStatus st)).settleRows job item false

-- DROP (Table 10.3, R26, R60)

/-- Removes a table, once the adds and updates that have arrived for it are applied. -/
def State.dropTable (s : State) (id : Nat) : State :=
  let s := s.finishAdds id
  (({ s with tables := s.tables.filter (·.id != id) } : State).dropEntries fun e => e.key == .table id).modEmbed fun e => { e with
    wanted := e.wanted.filter (·.1 != id) }
/-- Removes a collection with its pages. -/
def State.dropColl (s : State) (id : Nat) : State :=
  ({ s with colls := s.colls.filter (·.id != id) } : State).dropEntries fun e => match e.key with
    | .graph k _ => k == id
    | .page k _ _ _ => k == id
    | _ => false
/-- DROP. -/
def State.dropMembers (s : State) (j : Job) : List Nat :=
  let id := j.f 0x34 4
  match j.f 0x30 1 with
  | 1 => ((s.corpus? id).map Corpus.members).getD [s.self]
  | 3 => ((s.table? id).map Table.list).getD [s.self]
  | _ => [s.self]
/-- DROP at admission; a corpus on which a steep still runs is refused (DESIGN CHOICE, assumption log 53: no rule lets a deletion end it). -/
def State.admitDrop (s : State) (j : Job) : Admission :=
  let kind := j.f 0x30 1
  let id := j.f 0x34 4
  let c := if kind = 1 then s.corpus? id else none
  let k := if kind = 2 then s.coll? id else none
  let t := if kind = 3 then s.table? id else none
  let pot := ((c.map (·.pot)).orElse fun _ => k.map (·.pot)).orElse fun _ => t.map (·.pot)
  let members := s.dropMembers j
  let whole := firstFail [
    (j.formOk && decide (1 ≤ kind) && decide (kind ≤ 3), 0x10),
    ((pot.map (· == j.pot)).getD true && (decide (members.length ≤ 1) || j.pot == s.servingPot), 0x40),
    (pot.isSome && (c.map fun c => c.st != .deleting && c.job.isNone).getD true && (t.map fun t => !t.empty).getD true, 0x10),
    (s.allPresent members, 0x22)]
  { whole := whole, items := [], footprint := 0 }
/-- The object goes: a corpus once its last user has gone, a collection or a table at once; a group's members are told. -/
def State.beginDrop (s : State) (j : Job) (members : List Nat) : State :=
  let id := j.f 0x34 4
  let s := match j.f 0x30 1 with
    | 1 => (s.modCorpus id fun c => { c with st := .deleting }).settleCorpora
    | 2 => s.dropColl id
    | _ => s.dropTable id
  (if 1 < members.length then s.control j id members [] else s).ownDone j.key fun i => i
def State.startDrop (s : State) (j : Job) : State := s.admitWith j (s.admitDrop j) fun t => t.beginDrop j (s.dropMembers j)

end Sys2Proof.Machine
end

