-- ==== Sys2Proof/Machine/Admission.lean ====
section
/-! DEFINITION. The job commands of Table 10.3: a fetched job meets its admission and begins, an `ORDERED` or deferred one later
(R247, R248, R218). -/

namespace Sys2Proof.Machine

/-- A job's admission by its type (Table 10.3). -/
def State.startJob (s : State) (j : Job) : State :=
  match j.type with
  | 0x01 => s.startImageLoad j
  | 0x02 => s.startImageUnload j
  | 0x03 => match j.remote with
    | some (p, _) => s.admitSteepMember j (s.port p).ordinal
    | none => s.admitSteep j
  | 0x04 => s.startGenerate j
  | 0x05 => s.startAttend j
  | 0x06 => s.startCollectionCreate j
  | 0x07 => s.startCollectionAppend j
  | 0x08 => s.startCollectionDelete j
  | 0x09 => s.startFilter j
  | 0x0A => s.startSearch j
  | 0x0B => s.startRecall j
  | 0x0C => s.startFetch j
  | 0x0D => s.startTableCreate j
  | 0x0E => s.startTableRule j
  | 0x0F => s.startBag j
  | 0x10 => s.startRows j false
  | 0x11 => s.startRows j true
  | 0x12 => s.startTableSave j
  | 0x13 => s.startTableLoad j
  | 0x14 => s.startDrop j
  | 0x15 => s.startRun j
  | _ => s.refuseJob j.key 0x10

/-- ORDERED_JOB_ADMIT (R248): every earlier job of the ring has posted `LAST`. -/
def execOrderedJobAdmit (job : Nat) (s : State) : Out :=
  match (s.job? job).filter fun j => j.phase == .ordered && (s.pot j.pot).st == 1 && s.admits && !s.lastAwaited j with
  | none => .next s
  | some j => .next (s.startAllowed j State.startJob).tidy

/-- DEFERRED_JOB_ADMIT (R218): the owned footprint fits now, else the job goes on waiting. -/
def execDeferredJobAdmit (job : Nat) (s : State) : Out :=
  match (s.job? job).filter fun j => j.phase == .deferred && (s.pot j.pot).st == 1 && s.admits && !s.behindOrdered j with
  | none => .next s
  | some j => .next (s.startAllowed j State.startJob).tidy

/-- IMAGE_LOAD (R188). -/
def execImageLoad (job : Nat) (s : State) : Out := s.jobCommand job 0x01 State.startImageLoad
/-- IMAGE_UNLOAD (R449). -/
def execImageUnload (job : Nat) (s : State) : Out := s.jobCommand job 0x02 State.startImageUnload
/-- STEEP (R52 to R54, R59). -/
def execSteep (job : Nat) (s : State) : Out := .next (s.jobAdmit job (fun j => j.type == 0x03 && !j.isResume) State.admitSteep)
/-- STEEP with `RESUME` (R58). -/
def execSteepResume (job : Nat) (s : State) : Out := .next (s.jobAdmit job (fun j => j.type == 0x03 && j.isResume) State.admitSteep)
/-- GENERATE (R50, R61, R64). -/
def execGenerate (job : Nat) (s : State) : Out := s.jobCommand job 0x04 State.startGenerate
/-- ATTEND (Table 10.3): admitted, and run once it holds its pot's slice (assumption log 40). -/
def execAttend (job : Nat) (s : State) : Out :=
  .next ((s.jobAdmit job (fun j => j.type == 0x05) State.startAttend).runAttend job).tidy
/-- COLLECTION_CREATE (R79, R81, R92). -/
def execCollectionCreate (job : Nat) (s : State) : Out := s.jobCommand job 0x06 State.startCollectionCreate
/-- COLLECTION_APPEND (R100): admitted, and, once it holds its pot's slice, its encoded record appended. -/
def execCollectionAppend (job : Nat) (vectors : List (List (BitVec 32))) (s : State) : Out :=
  .next ((s.jobAdmit job (fun j => j.type == 0x07) State.startCollectionAppend).runAppend job vectors).tidy
/-- COLLECTION_DELETE (R101). -/
def execCollectionDelete (job : Nat) (s : State) : Out := s.jobCommand job 0x08 State.startCollectionDelete
/-- FILTER (R86, R90). -/
def execFilter (job : Nat) (s : State) : Out := s.jobCommand job 0x09 State.startFilter
/-- SEARCH (R95, R96). -/
def execSearch (job : Nat) (s : State) : Out := s.jobCommand job 0x0A State.startSearch
/-- RECALL (R104, R105): admitted, and run once its pot has a free core (assumption log 40). -/
def execRecallJob (run : RecallRun) (s : State) : Out :=
  .next ((s.jobAdmit run.job (fun j => j.type == 0x0B) State.startRecall).runRecall run.job run.lost).tidy
/-- FETCH (Table 10.4). -/
def execFetchJob (job : Nat) (s : State) : Out := s.jobCommand job 0x0C State.startFetch
/-- TABLE_CREATE (R112). -/
def execTableCreate (job : Nat) (s : State) : Out := s.jobCommand job 0x0D State.startTableCreate
/-- TABLE_RULE (R122). -/
def execTableRule (job : Nat) (s : State) : Out := s.jobCommand job 0x0E State.startTableRule
/-- BAG (R113, R114). -/
def execBag (job : Nat) (s : State) : Out := s.jobCommand job 0x0F State.startBag
/-- ADD (R117). -/
def execAddJob (job : Nat) (s : State) : Out := s.jobCommand job 0x10 fun s j => s.startRows j false
/-- UPDATE (R120, R123). -/
def execUpdate (job : Nat) (s : State) : Out := s.jobCommand job 0x11 fun s j => s.startRows j true
/-- TABLE_SAVE (R129). -/
def execTableSave (job : Nat) (s : State) : Out := s.jobCommand job 0x12 State.startTableSave
/-- TABLE_LOAD (R129). -/
def execTableLoad (job : Nat) (s : State) : Out := s.jobCommand job 0x13 State.startTableLoad
/-- DROP (R26, R60). -/
def execDropJob (job : Nat) (s : State) : Out := s.jobCommand job 0x14 State.startDrop
/-- RUN (R257). -/
def execRunJob (job : Nat) (s : State) : Out := s.jobCommand job 0x15 State.startRun

end Sys2Proof.Machine
end

