-- ==== Sys2Proof/Machine/Koelnu.lean ====
section
/-! DEFINITION. The Koelnu instructions as commands: each dispatches when it is the word at its core's program counter and its
queue has room, and then everything that can fire fires (R159, R161); and the events of the core's engines (R136 to R149). -/

namespace Sys2Proof.Machine

-- Dispatch (R159, R160)

/-- The queues a word enters: loader, arrays, spout, vector unit, move engine. -/
def Core.roomIn (k : Core) (w : KWord) : Bool :=
  match w.op with
  | .vec _ _ => decide (k.qVector.length < 64)
  | .mm _ => decide (k.qLoader.length < 64) && decide (k.qArrays.length < 64) && decide (k.qSpout.length < 64)
  | .mov _ => decide (k.qMove.length < 64)
  | .mov2d _ => decide (k.qMove.length < 64)
  | .leafrd _ => decide (k.qMove.length < 64)
  | .nop u => match u.toNat with
    | 1 => decide (k.qLoader.length < 64)
    | 2 => decide (k.qArrays.length < 64)
    | 3 => decide (k.qSpout.length < 64)
    | 4 => decide (k.qVector.length < 64)
    | 5 => decide (k.qMove.length < 64)
    | _ => true
  | _ => true

/-- The core takes the word at its program counter: not a full queue ahead of it (R159). -/
def State.takes (s : State) (c : Nat) (w : KWord) : Bool := s.atWord c w && (s.core c).roomIn w

/-- The code word at the program counter is uncorrectable in DRAM (R183). -/
def State.badWord (s : State) (c : Nat) : Bool :=
  match (s.core c).run with
  | some r => ((s.image? r.image).map fun im => im.badCode.contains (r.variant, (s.core c).pc)).getD false
  | none => false
/-- A dispatch of an uncorrectable code word: the items of the job complete with `INTERNAL_FAULT` (R183). -/
def State.failWord (s : State) (c : Nat) : State := (s.failServed c 0x50).tidy

/-- A word enters a queue with what it reads at dispatch; the program counter moves on (R159, R160). -/
def State.enqueue (s : State) (c : Nat) (w : KWord) (regs : List (BitVec 4)) (put : QEntry → Core → Core) : Out :=
  if !s.takes c w then .next s else
  if s.badWord c then .next (s.failWord c) else
  .next (s.modCore c fun k => (put (k.entry w regs) k).advance).tidy

/-- A front-end word stands at the front until it fires (R159). -/
def State.toFront (s : State) (c : Nat) (w : KWord) : Out :=
  if !s.takes c w then .next s else
  if s.badWord c then .next (s.failWord c) else
  .next (s.modCore c fun k => { k with front := some (k.entry w []) }).tidy

def putVector (q : QEntry) (k : Core) : Core := { k with qVector := k.qVector ++ [q] }
def putMove (q : QEntry) (k : Core) : Core := { k with qMove := k.qMove ++ [q] }
/-- A move to `JOB` or `PEER` in this interval is remembered for R179. -/
def putOut (q : QEntry) (k : Core) : Core :=
  let out := spaceOf (q.reg 1) == 4 || spaceOf (q.reg 1) == 5
  { putMove q k with run := k.run.map fun r => { r with wrote := r.wrote || out } }
/-- `MM` carries its shape, its configuration and the registers that configuration names (R160, R164). -/
def putMm (o : MmOps) (q : QEntry) (k : Core) : Core :=
  let cfg := k.sc[o.spc.toNat]?.getD {}
  let q := { q with
    shape := k.sh[o.shp.toNat]?.getD {}, cfg := cfg
    cfgAd := (k.ad[cfg.o.scalead.toNat]?.getD 0, k.ad[cfg.o.biasad.toNat]?.getD 0) }
  { k with qLoader := k.qLoader ++ [q], qArrays := k.qArrays ++ [q], qSpout := k.qSpout ++ [q] }
/-- `NOP` enters the queue of the unit it names (R174). -/
def putNop (unit : BitVec 3) (q : QEntry) (k : Core) : Core :=
  match unit.toNat with
  | 1 => { k with qLoader := k.qLoader ++ [q] }
  | 2 => { k with qArrays := k.qArrays ++ [q] }
  | 3 => { k with qSpout := k.qSpout ++ [q] }
  | 4 => putVector q k
  | 5 => putMove q k
  | _ => k

-- Front-end instructions (R159, R173 to R182)

/-- NOP (R174): unit 0 is the front end itself. -/
def execNop (core : Fin 48) (h : KHdr) (unit : BitVec 3) (s : State) : Out :=
  if unit = 0 then s.toFront core ⟨h, .nop unit⟩ else s.enqueue core ⟨h, .nop unit⟩ [] (putNop unit)

/-- GROUP (R177: the layer and operator tags). -/
def execGroup (core : Fin 48) (h : KHdr) (layer oper : BitVec 16) (s : State) : Out := s.toFront core ⟨h, .group layer oper⟩

/-- POINT (R179: a pre-emption point). -/
def execPoint (core : Fin 48) (h : KHdr) (s : State) : Out := s.toFront core ⟨h, .point⟩

/-- FENCE (R178: waits for the units of its mask). -/
def execFence (core : Fin 48) (h : KHdr) (mask : BitVec 5) (s : State) : Out := s.toFront core ⟨h, .fence mask⟩

/-- LOOP (R180: repeats the words that follow). -/
def execLoop (core : Fin 48) (h : KHdr) (count1 : BitVec 16) (body : BitVec 12) (s : State) : Out := s.toFront core ⟨h, .loop count1 body⟩

/-- END (R182: ends the invocation on this core). -/
def execEndInv (core : Fin 48) (h : KHdr) (s : State) : Out := s.toFront core ⟨h, .endInv⟩

/-- ADDR (R181: sets an address register). -/
def execAddr (core : Fin 48) (h : KHdr) (reg : BitVec 4) (value : BitVec 48) (ostr : BitVec 16) (s : State) : Out := s.toFront core ⟨h, .addr reg value ostr⟩

/-- ADDRI (R181: adds to an address register). -/
def execAddri (core : Fin 48) (h : KHdr) (reg : BitVec 4) (delta : BitVec 32) (s : State) : Out := s.toFront core ⟨h, .addri reg delta⟩

/-- SHAPE (R162: M, K and N of a shape register). -/
def execShape (core : Fin 48) (h : KHdr) (shi : BitVec 3) (m1 k1 n1 : BitVec 16) (s : State) : Out := s.toFront core ⟨h, .shape shi m1 k1 n1⟩

/-- STRIDE (R162: the strides of a shape register). -/
def execStride (core : Fin 48) (h : KHdr) (shi : BitVec 3) (sstr xstr dstr : BitVec 16) (s : State) : Out := s.toFront core ⟨h, .stride shi sstr xstr dstr⟩

/-- SPOUT (R163: a spout configuration). -/
def execSpout (core : Fin 48) (h : KHdr) (o : SpoutOps) (s : State) : Out := s.toFront core ⟨h, .spout o⟩

/-- SPOUTV (R163: the two FP32 values of a spout configuration). -/
def execSpoutv (core : Fin 48) (h : KHdr) (sci : BitVec 3) (scalar cap : BitVec 32) (s : State) : Out := s.toFront core ⟨h, .spoutv sci scalar cap⟩

/-- TKSET (R173: sets a token counter). -/
def execTkset (core : Fin 48) (h : KHdr) (tk : BitVec 5) (value : BitVec 16) (s : State) : Out := s.toFront core ⟨h, .tkset tk value⟩

/-- SEMACQ (R175, R271: acquires semaphore units). -/
def execSemacq (core : Fin 48) (h : KHdr) (sem : BitVec 5) (units : BitVec 16) (s : State) : Out := s.toFront core ⟨h, .semacq sem units⟩

/-- SEMREL (R175: releases semaphore units). -/
def execSemrel (core : Fin 48) (h : KHdr) (sem : BitVec 5) (units : BitVec 16) (s : State) : Out := s.toFront core ⟨h, .semrel sem units⟩

-- Vector instructions (R167, Table 7.9)

/-- VADD (R167): D = A + B. -/
def execVadd (core : Fin 48) (h : KHdr) (o : VOps) (s : State) : Out :=
  s.enqueue core ⟨h, .vec .vadd o⟩ [o.dad, o.aad, o.bad] putVector

/-- VMUL (R167): D = A × B. -/
def execVmul (core : Fin 48) (h : KHdr) (o : VOps) (s : State) : Out :=
  s.enqueue core ⟨h, .vec .vmul o⟩ [o.dad, o.aad, o.bad] putVector

/-- VFMA (R167): D = A × B + D, rounded once. -/
def execVfma (core : Fin 48) (h : KHdr) (o : VOps) (s : State) : Out :=
  s.enqueue core ⟨h, .vec .vfma o⟩ [o.dad, o.aad, o.bad] putVector

/-- VMAX (R167): D = max(A, B). -/
def execVmax (core : Fin 48) (h : KHdr) (o : VOps) (s : State) : Out :=
  s.enqueue core ⟨h, .vec .vmax o⟩ [o.dad, o.aad, o.bad] putVector

/-- VMIN (R167): D = min(A, B). -/
def execVmin (core : Fin 48) (h : KHdr) (o : VOps) (s : State) : Out :=
  s.enqueue core ⟨h, .vec .vmin o⟩ [o.dad, o.aad, o.bad] putVector

/-- VCMP (R167): D = 1.0 where A COND B holds. -/
def execVcmp (core : Fin 48) (h : KHdr) (o : VOps) (s : State) : Out :=
  s.enqueue core ⟨h, .vec .vcmp o⟩ [o.dad, o.aad, o.bad] putVector

/-- VSEL (R167): D = A where B ≠ 0, else IMM. -/
def execVsel (core : Fin 48) (h : KHdr) (o : VOps) (s : State) : Out :=
  s.enqueue core ⟨h, .vec .vsel o⟩ [o.dad, o.aad, o.bad] putVector

/-- VCVT (R167): D = A in DFMT. -/
def execVcvt (core : Fin 48) (h : KHdr) (o : VOps) (s : State) : Out :=
  s.enqueue core ⟨h, .vec .vcvt o⟩ [o.dad, o.aad, o.bad] putVector

/-- VEXP (R167): D = exp A. -/
def execVexp (core : Fin 48) (h : KHdr) (o : VOps) (s : State) : Out :=
  s.enqueue core ⟨h, .vec .vexp o⟩ [o.dad, o.aad, o.bad] putVector

/-- VLN (R167): D = ln A. -/
def execVln (core : Fin 48) (h : KHdr) (o : VOps) (s : State) : Out :=
  s.enqueue core ⟨h, .vec .vln o⟩ [o.dad, o.aad, o.bad] putVector

/-- VRCP (R167): D = 1 ÷ A. -/
def execVrcp (core : Fin 48) (h : KHdr) (o : VOps) (s : State) : Out :=
  s.enqueue core ⟨h, .vec .vrcp o⟩ [o.dad, o.aad, o.bad] putVector

/-- VRSQ (R167): D = 1 ÷ √A. -/
def execVrsq (core : Fin 48) (h : KHdr) (o : VOps) (s : State) : Out :=
  s.enqueue core ⟨h, .vec .vrsq o⟩ [o.dad, o.aad, o.bad] putVector

/-- VTANH (R167): D = tanh A. -/
def execVtanh (core : Fin 48) (h : KHdr) (o : VOps) (s : State) : Out :=
  s.enqueue core ⟨h, .vec .vtanh o⟩ [o.dad, o.aad, o.bad] putVector

/-- VSUM (R167): D[0] = sum of A. -/
def execVsum (core : Fin 48) (h : KHdr) (o : VOps) (s : State) : Out :=
  s.enqueue core ⟨h, .vec .vsum o⟩ [o.dad, o.aad, o.bad] putVector

/-- VRMAX (R167): D[0] = maximum of A. -/
def execVrmax (core : Fin 48) (h : KHdr) (o : VOps) (s : State) : Out :=
  s.enqueue core ⟨h, .vec .vrmax o⟩ [o.dad, o.aad, o.bad] putVector

/-- VTOPK (R167): the k largest values and their indices. -/
def execVtopk (core : Fin 48) (h : KHdr) (o : VOps) (s : State) : Out :=
  s.enqueue core ⟨h, .vec .vtopk o⟩ [o.dad, o.aad, o.bad] putVector

/-- VPART (R167): the running maximum and sum of a partial. -/
def execVpart (core : Fin 48) (h : KHdr) (o : VOps) (s : State) : Out :=
  s.enqueue core ⟨h, .vec .vpart o⟩ [o.dad, o.aad, o.bad] putVector

/-- VMERGE (R167): partials merged under R42. -/
def execVmerge (core : Fin 48) (h : KHdr) (o : VOps) (s : State) : Out :=
  s.enqueue core ⟨h, .vec .vmerge o⟩ [o.dad, o.aad, o.bad] putVector

/-- VSAMPLE (R167): one token chosen under R75. -/
def execVsample (core : Fin 48) (h : KHdr) (o : VOps) (s : State) : Out :=
  s.enqueue core ⟨h, .vec .vsample o⟩ [o.dad, o.aad, o.bad] putVector

-- Matrix and move instructions (R164, R170, R172)

/-- MM (R164): a matrix product, in the loader, arrays and spout queues together. -/
def execMm (core : Fin 48) (h : KHdr) (o : MmOps) (s : State) : Out :=
  s.enqueue core ⟨h, .mm o⟩ [o.sad, o.xad, o.dad] (putMm o)

/-- MOV (R170): a linear move. -/
def execMov (core : Fin 48) (h : KHdr) (o : MovOps) (s : State) : Out :=
  s.enqueue core ⟨h, .mov o⟩ [o.src, o.dst] putOut

/-- MOV2D (R170): a strided move. -/
def execMov2d (core : Fin 48) (h : KHdr) (o : Mov2dOps) (s : State) : Out :=
  s.enqueue core ⟨h, .mov2d o⟩ [o.src, o.dst] putOut

/-- LEAFRD (R172): leaf pages into core store. -/
def execLeafrd (core : Fin 48) (h : KHdr) (o : LeafrdOps) (s : State) : Out :=
  s.enqueue core ⟨h, .leafrd o⟩ [o.list, o.dst] putMove

-- Engine events (chapter 6)

/-- MOVE_ARRIVED (R149, R152, R171): the data of a move arrives, intact or not. -/
def execMoveArrived (core : Fin 48) (move : Nat) (how : Arrival) (s : State) : Out :=
  match s.move? core move with
  | none => .next s
  | some m =>
    if !m.leaves.isEmpty || !m.peers.isEmpty then .next s
    else .next (s.arriveMove core m how).tidy

/-- Something of the lower tiers or of a peer is in flight for a core: a move of its own, a move of another core into its store, or an
inbound transfer of its job that names its ordinal (R153). -/
def State.inboundTo (s : State) (c : Nat) (inv : Invocation) : Bool :=
  !(s.core c).moves.isEmpty ||
  ((List.range 48).any fun d => (s.core d).moves.any fun m => match s.place d (m.regs.getD 1 0) 0 0 with
    | some (.core to_ _) => to_ == c
    | _ => false) ||
  (s.ports.toList.any fun p => p.inn.any fun x => x.desc.kind == 1 && x.job == inv.job && x.desc.ordinal == inv.ordinal)
/-- The front end waits at `SEMACQ` while another job that holds units of that semaphore has fired within the core progress limit of
2 s (R176). -/
def State.semHeld (s : State) (c : Nat) (inv : Invocation) : Bool :=
  let fires := fun (h : Nat × Nat) => h.1 != inv.job && decide (0 < h.2) &&
    (match s.job? h.1 with | some x => decide (s.time ≤ x.firedAt + 2000000) | none => false)
  match (s.core c).front, s.coreJob c with
  | some q, some j => match q.word.op with | .semacq n _ => (s.sem j.pot n.toNat).held.any fires | _ => false
  | _, _ => false

/-- CORE_PROGRESS_EXPIRY (R153, R176): a core that runs, is not parked, has nothing in flight for it and does not wait on a semaphore
whose holder makes progress; what it serves fails. -/
def execCoreProgressExpiry (core : Fin 48) (s : State) : Out :=
  let k := s.core core
  match k.run with
  | none => .next s
  | some inv =>
    if k.parked || inv.ended || s.inboundTo core inv || s.semHeld core inv || !s.coresOn then .next s
    else
      let s := (s.count 1 core 7 1).faultRecord core 2 k.pc (k.layer, k.oper)
      if inv.kind = 0 then .next ((s.complete inv.job inv.item fun i => i.fail 0x50).modCore core Core.idle).tidy
      else .next (s.failServed core 0x50).tidy

/-- INTERVAL_OVERRUN (R189): counted and not failed. -/
def execIntervalOverrun (core : Fin 48) (s : State) : Out :=
  if (s.core core).run.isSome then .next (s.count 1 core 8 1) else .next s

end Sys2Proof.Machine
end

