-- ==== Sys2Proof/Machine/Pots.lean ====
section
/-! DEFINITION. Slices, pre-emption limits, guarantees, stalls, pots that stop and restart (R214, R224, R262, R265, R270, R273,
R275, R425), failed tile-core checks and the spare's takeover (R154 to R156, R365). -/

namespace Sys2Proof.Machine

-- Slices and limits (R264, R265, R270, R273)

/-- A core job that holds no core now and stands between its programs or steps. -/
def State.coreless (s : State) (p : Nat) (j : Job) : Bool :=
  (s.coresOf j.key).isEmpty && !(j.type == 0x04 && (s.pot p).loop.running)

/-- SLICE_END (R265): in a pot of 12 or more cores the elapsed time is charged and the deficits choose; another job's turn comes
at the running job's next point, or at once where it holds no cores or runs only tasks. -/
def execSliceEnd (pot : Fin 8) (elapsedNs : Nat) (s : State) : Out :=
  let p := pot.val
  match s.runningJob p with
  | none => .next s.tidy
  | some j =>
    if (s.potCores p).length < 12 || !s.coresOn then .next s else
    let (s, r) := (s.chargeCores p elapsedNs).deficits p elapsedNs
    let next := (r.bind (s.oldestOf p)).map (·.key)
    let go := fun (s : State) => s.modPot p fun q => { q with running := next, switchDue := false }
    if next == some j.key then .next (s.modPot p fun q => { q with switchDue := false })
    else if j.isTask || !j.sliced then .next (go s).tidy
    else if s.coreless p j then .next (go (s.preempt p j.key)).tidy
    else .next (s.modPot p fun q => { q with switchDue := true })

/-- PREEMPT_DRAIN_EXPIRY (R270): the pre-emption is given up at this point and counted; the job runs on to its next one. -/
def execPreemptDrainExpiry (pot : Fin 8) (s : State) : Out :=
  let p := pot.val
  match (s.pot p).running with
  | none => .next s
  | some key =>
    if !s.preempting p || !s.xfersOf key then .next s else
    let s := s.count 2 p 39 1
    if (s.coresOf key).any fun c => (s.core c).parked then .next (s.unpark p).tidy
    else if (s.pot p).loop.between then .next (s.modPot p fun q => { q with drainRetry := true })
    else .next s

/-- PREEMPT_LIMIT_EXPIRY (R273): the job runs on and the pot's shares are reported broken, or it stops at once. -/
def execPreemptLimitExpiry (pot : Fin 8) (overNs : Nat) (s : State) : Out :=
  let p := pot.val
  match (s.pot p).running with
  | none => .next s
  | some key =>
    if !s.preempting p then .next s
    else if s.potAbort p then .next ((s.abortJob key 0x31).modPot p fun q => { q with switchDue := false, drainRetry := false }).tidy
    else .next (s.guarantee p 4 p overNs 0)

/-- LATENCY_TARGET_EXPIRY (R275): a job waits longer than its ring's target for its first slice, or an engine job for its admission. -/
def execLatencyTargetExpiry (job : Nat) (overNs : Nat) (s : State) : Out :=
  match s.job? job with
  | none => .next s
  | some j =>
    let waits := if j.isCore || j.isTask then !j.sliced else !j.ready
    if s.latencyTarget j.pot j.ring ≠ 0 ∧ waits = true ∧ j.remote.isNone = true then .next (s.guarantee j.pot 5 j.pot overNs j.jobId)
    else .next s

-- Room and stalls (R214, R224, R275)

/-- EVICT_WAIT_END (R214): waiting pinned allocations of the pot that can now be taken are taken. -/
def execEvictWaitEnd (pot : Fin 8) (s : State) : Out :=
  .next ((s.tiers.waits.filter (·.pot == pot.val)).foldl State.retryWait s).tidy

/-- QUOTA_WAIT_EXPIRY (R275): code 3, in bytes, while another pot over its share pins the room. -/
def execQuotaWaitExpiry (pot other : Fin 8) (bytes : Nat) (s : State) : Out :=
  let waits := s.tiers.waits.any (·.pot == pot.val)
  let exceeds := decide (s.share true other.val < s.holding true other.val)
  if waits && exceeds && pot != other then .next (s.guarantee pot.val 3 other.val bytes 0) else .next s

/-- SHARE_WINDOW_END (R275): code 4, in ns. -/
def execShareWindowEnd (pot winner : Fin 8) (shortNs : Nat) (s : State) : Out :=
  if s.potEnabled pot.val then .next (s.guarantee pot.val 4 winner.val shortNs 0) else .next s

/-- Causes that may wait for flash, which carry the bay (R223, R224). -/
def flashCause (c : Nat) : Bool := c == 1 || c == 2 || c == 3 || c == 6 || c == 7 || c == 8 || c == 12
/-- STALL_LIMIT_EXPIRY (R224): one wait of a job has reached its pot's limit; at most one event per job in each 10 ms. -/
def execStallLimitExpiry (job : Nat) (cause : Fin 17) (bay : Option (Fin 8)) (waitedNs : Nat) (layer oper : BitVec 16) (s : State) : Out :=
  match s.job? job with
  | none => .next s
  | some j =>
    let due := match j.stallAt with | some t => decide (t + 10000 ≤ s.time) | none => true
    if cause.val = 0 ∨ waitedNs < s.potStall j.pot * 1000 ∨ due = false then .next s else
    let b := match bay with | some b => if flashCause cause.val then b.val else 0xFF | none => 0xFF
    .next ((s.modJob job fun j => { j with stallAt := some s.time }).postEvent (some (fin8 j.pot)) 0x0002 j.jobId layer oper
      (natLe 1 cause.val ++ natLe 1 b ++ zeros 6 ++ natLe 8 waitedNs))

-- Stopping and restarting pots (R262, R425)

/-- A job that a stop request leaves to its next point or step boundary, or to the jobs it waits for (R449). -/
def State.stopsLater (s : State) (j : Job) : Bool :=
  (j.type == 0x02 && !j.items.isEmpty) || (j.type == 0x04 && (s.pot j.pot).loop.running) ||
  (j.isCore && (s.pot j.pot).running == some j.key && !(s.coresOf j.key).isEmpty)
/-- A stop request takes effect: what has no point to come ends now, the rest at its next point (R262). -/
def State.stopPot (s : State) (p : Nat) : State :=
  let s := s.modPot p fun q => { q with st := 2 }
  let s := (s.jobs.filter fun j => j.pot == p && !s.stopsLater j).foldl (fun s j => s.abortJob j.key 0x41) s
  let s := if (s.pot p).loop.running then s else s.releaseLeft p
  ((s.settlePoint p).settleUnloads).settleStop p

/-- POT_STOP (R262, R425, R433): PF1 alone; a pot that does not run ignores it. -/
def execPotStop (fn : PcieFn) (pot : Fin 8) (s : State) : Out :=
  if fn = .pf1 ∧ (s.pot pot.val).st = 1 then .next (s.stopPot pot.val).tidy else .next s

/-- A restart request: a stopped pot runs again, after a commit that runs (R425). -/
def State.restartPot (s : State) (p : Nat) : State :=
  if (s.pot p).st ≠ 3 then s
  else if s.boot.committing.isSome then s.modBoot fun b => { b with restarts := b.restarts ++ [p] }
  else
    let s := s.modPot p fun q => { q with st := 1 }
    if p = s.servingPot then s.sendStatus else s
/-- POT_RESTART (R425). -/
def execPotRestart (fn : PcieFn) (pot : Fin 8) (s : State) : Out :=
  if fn = .pf1 then .next (s.restartPot pot.val).tidy else .next s

-- Failed datapath checks (R154 to R156, R357, R365)

/-- A core of a physical core. -/
def State.mappedTo (s : State) (phys : Nat) : Option Nat := (List.range 48).find? fun c => (s.core c).phys == some phys
/-- What a core serves fails: a task's one item, every unfinished item of a core job (R153). -/
def State.failCore (s : State) (c : Nat) : State :=
  match (s.core c).run with
  | none => s
  | some inv =>
    if inv.kind = 0 then (s.complete inv.job inv.item fun i => i.fail 0x50).modCore c Core.idle
    else s.failServed c 0x50
/-- A logical core is absent until the next cold start and leaves its pot; a pot left with no core stops (R156). -/
def State.loseCore (s : State) (c : Nat) : State :=
  let phys := ((s.core c).phys).getD 0
  let pot := s.corePot c
  let s := ((s.failCore c).modCore c fun _ => {}).modBoot fun b => { b with heldOut := b.heldOut ||| BitVec.ofNat 52 (2 ^ phys) }
  match pot with
  | none => s
  | some p =>
    let s := s.modPot p fun q => { q with cores := q.cores &&& ~~~(BitVec.ofNat 48 (2 ^ c)) }
    if !(s.potCores p).isEmpty || (s.pot p).st != 1 then s else
    let s := s.stopPot p
    let s := ((s.jobs.filter (·.pot == p)).foldl (fun s j => s.abortJob j.key 0x41) s).modPot p fun q => { q with loop := { q.loop with running := false } }
    (s.releaseLeft p).settleStop p

/-- The spare of a quadrant, when it is neither in use nor being brought in by a takeover (R154, R156). -/
def State.freeSpare (s : State) (quadrant : Nat) : Option Nat :=
  if s.boot.takeovers.any fun t => t.1 / 12 == quadrant then none else
  match (s.boot.spares[quadrant]?).join with
  | some (sp, false) => some sp
  | _ => none
/-- A datapath check of a physical core fails (R154, R156, R357): the core stops at once; a free spare of its quadrant begins to take
over, else the core is lost. Moves already issued complete. -/
def State.datapathFail (s : State) (phys : Nat) : State :=
  match s.mappedTo phys with
  | none => s
  | some c =>
    if s.takingOver c then s else
    match s.freeSpare (phys / 13) with
    | some sp =>
      let s := s.modCore c fun k => { k with
        front := none, qLoader := [], qArrays := [], qSpout := [], qVector := [], qMove := [], mms := [], loads := [] }
      let quiet := fun (m : Sem) => { m with waiting := m.waiting.filter (·.1 != c) }
      let s : State := { s with pots := s.pots.map fun p => { p with sems := p.sems.map quiet } }
      s.modBoot fun b => { b with takeovers := b.takeovers ++ [(c, sp)] }
    | none => (s.loseCore c).tidy

/-- DATAPATH_CHECK_FAIL (R154, R156, Table 15.2): a check of a physical core fails. -/
def execDatapathCheckFail (phys : Fin 52) (s : State) : Out := .next (s.datapathFail phys)

/-- The program of a core may be run again from its last point (R155); the module's own programs may. -/
def State.mayResume (s : State) (inv : Invocation) : Bool :=
  inv.kind == 0 || ((s.image? inv.image).map (·.restartable)).getD true
/-- The core's registers return to its last pre-emption point, or to its entry when it has passed none (R154). -/
def State.rerun (s : State) (c : Nat) (inv : Invocation) : State :=
  let pc := (((s.image? inv.image).bind fun im => (im.variants.getD inv.variant {}).entries.lookup inv.kind)).getD 0
  let parked := (s.core c).parked
  s.modCore c fun k =>
    let k := k.enter { inv with wrote := false, ended := false, ending := false } pc
    let k := if inv.pointed then k.restore (Memory.readN k.store 0x1200000 256) else k
    { k with parked := parked, windows := [] }

/-- SPARE_TAKEOVER_RESUME (Table 6.10, orders 4 to 7, R155, R365): the logical core maps to the spare and its job runs again from its last
point, or its items fail; the physical core is held out and named. -/
def execSpareTakeoverResume (quadrant : Fin 4) (ok : Bool) (s : State) : Out :=
  match s.boot.takeovers.find? fun t => t.1 / 12 == quadrant.val with
  | none => .next s
  | some (c, sp) =>
    let old := ((s.core c).phys).getD 0
    let s := (s.modCore c fun k => { k with phys := some sp, windows := [] }).modBoot fun b => { b with
      takeovers := b.takeovers.filter (·.1 != c), spares := b.spares.set quadrant (some (sp, true))
      heldOut := b.heldOut ||| BitVec.ofNat 52 (2 ^ old) }
    let s := match (s.core c).run with
      | none => s
      | some inv => if !(ok && s.mayResume inv) then s.failCore c else if inv.kind = 0 then s else s.rerun c inv
    let s := (s.count 1 c 10 1).modEvent 0x0008 (natLe 1 5 ++ natLe 1 old ++ zeros 14)
    .next (match s.corePot c with | some p => (s.settlePoint p).tidy | none => s.tidy)

end Sys2Proof.Machine
end

