-- ==== Sys2Proof/Machine/Arrays.lean ====
section
/-! DEFINITION. The events of a core's loader, arrays and spout (R137 to R149, R357, R358). -/

namespace Sys2Proof.Machine

/-- STATIONARY_LOAD_DONE (R137, R149, R358): the next tile is wholly in the load registers with its check columns; the last one frees the
loader. -/
def execStationaryLoadDone (core : Fin 48) (s : State) : Out :=
  match (s.core core).loadingRun with
  | none => .next s
  | some r =>
    let last := decide (r.loaded + 1 = (foldOf r.q).passes)
    .next (s.modCore core fun k => { k with
      loads := k.loads ++ [k.readTile s.free r]
      mms := k.mms.map fun x => if x.num == r.num then { x with loaded := x.loaded + 1 } else x
      qLoader := if last then k.qLoader.drop 1 else k.qLoader }).used.tidy

/-- PASS_LANDED (R133, R139, R141): a pass's results are in its bank; the last one frees the operands, gives `XS`, and under `KEEP` gives
the header signal (R164). -/
def execPassLanded (core : Fin 48) (s : State) : Out :=
  match (s.core core).landingRun with
  | none => .next s
  | some r =>
    let s := s.landPass core r
    if r.landed + 1 = (foldOf r.q).passes then
      let s := (s.modCore core fun k => { k with qArrays := k.qArrays.drop 1 }).syncSignal core r.q (mmOps r.q).xs
      .next (if (mmOps r.q).keep then s.signalIf core r.q else s).tidy
    else .next s.tidy

/-- SPOUT_DRAIN (R144 to R147, R358): an output tile that passes its array check is written, the last one completing its instruction (R164);
a check that fails stops the core (R154). -/
def execSpoutDrain (core : Fin 48) (s : State) : Out :=
  match (s.core core).drainingRun with
  | none => .next s
  | some r =>
    if !s.tileChecks core r then .next (s.datapathFail (((s.core core).phys).getD 52)) else
    let s := s.drainTile core r
    if r.drained + 1 = (foldOf r.q).tiles then
      (match (s.core core).mms with
      | x :: _ => .next (s.finishMm core x).tidy
      | [] => .next s.tidy)
    else .next s.tidy

end Sys2Proof.Machine
end

