-- ==== Sys2Proof/Machine/Infuser.lean ====
section
/-! DEFINITION. Pages that arrive for the infuser: from caddies, from reconstruction, centroid pages; and what goes on when they have
(R21, R24, R25, R33 to R35). -/

namespace Sys2Proof.Machine

/-- What waits for pages goes on: the steps form their unions and read their groups, the `ATTEND` jobs attend (R25, R34, R51). -/
def State.feed (s : State) : State :=
  let s := (List.range 8).foldl (fun s p => s.feedStep p) s
  (s.jobs.filter (·.type == 0x05)).foldl (fun s j => s.runAttend j.key) s

/-- LEAF_READ_COMPLETE (R21, R33): the first good copy is used; an unusable one starts reconstruction at once. Nothing
completes while the read waits for a slot (R14). -/
def execLeafReadComplete (read : Nat) (page : Bytes) (s : State) : Out :=
  match s.reads.find? (·.key == read) with
  | none => .next s
  | some r =>
    if r.cent || (s.media.ops.drop 131072).any (fun o => o.kind == 0 && o.read == read) then .next s
    else if r.passes page then .next (s.deliver r page).feed.tidy else .next (s.originalBad read true).feed.tidy

/-- LATE_READ_EXPIRY (R33): the page's reconstruction starts; the read itself goes on. -/
def execLateReadExpiry (read : Nat) (s : State) : Out :=
  .next (s.modRead read fun r => { r with late := true, rebuilding := true })

/-- RECONSTRUCT_COMPLETE (R33, R35): a good page is used; a reconstruction that fails leaves the original copy to come. -/
def execReconstructComplete (read : Nat) (page : Option Bytes) (bays : BitVec 8) (s : State) : Out :=
  match s.reads.find? (·.key == read) with
  | none => .next s
  | some r =>
    if !r.rebuilding then .next s else
    match page.filter r.passes with
    | some p => .next (s.deliver r p).feed.tidy
    | none => .next ((s.modRead read fun r => { r with
        check := r.check || page.isSome, rebuildBad := some bays, rebuilding := false }).settleRead read).feed.tidy

/-- CENTROID_PAGE_READ (R24, R25): a page that passes its checks becomes resident; one that does not is an unusable copy, and its
reconstruction starts at once. A page that no step waits for becomes resident too. -/
def execCentroidPageRead (corpus : Nat) (index : Nat) (page : Bytes) (s : State) : Out :=
  match s.corpus? corpus with
  | none => .next s
  | some c =>
    let want : LeafRead := { pot := c.pot, space := corpus, index := index, cent := true }
    match s.reads.find? want.same with
    | some r => if r.passes page then .next (s.deliver r page).feed.tidy else .next (s.originalBad r.key true).feed.tidy
    | none => if want.passes page then .next (s.takePage want page) else .next s

end Sys2Proof.Machine
end

