-- ==== Sys2Proof/Machine/Nvme.lean ====
section
/-! DEFINITION. The storage function of PF0 (chapter 12): namespaces, order and the write buffer, Flush, the loss log, the Host
Memory Buffer, features, queues, log pages, Identify. -/

namespace Sys2Proof.Machine

-- Who is served (R276, R385, R390, R404, Tables 16.9, 16.10, 17.1)

/-- PF0 fetches commands: enabled and ready, no hold, no reset, no power loss, control cores running (R289, R360, R404, R414). -/
def State.nvFetches (s : State) : Bool :=
  s.nvme.enabled && s.nvme.ready && s.boot.phase == .ready && s.boot.hold.isNone && !s.nvme.cfs && !s.host.retraining &&
  s.power.halted == 0 && decide (s.nvme.waits.length + s.nvme.aers.length < 16384)

/-- Posts a completion (R276). -/
def State.nvDone (s : State) (c : NvCmd) (st : NvStatus) (result : Nat) : State :=
  s.modNvme fun n => { n with done := { cmd := c, status := st, result := result } :: n.done }

/-- A command that PF0 does not fetch has no effect; a fetched one runs. -/
def State.nvRun (s : State) (f : State → State) : State := if s.nvFetches then f s else s

/-- Reports an asynchronous event that names a log page: to a held request, else when the next one comes (R291). -/
def State.nvEvent (s : State) (page : Nat) : State :=
  match s.nvme.aers with
  | c :: rest => (s.modNvme fun n => { n with aers := rest }).nvDone c .success page
  | [] => s.modNvme fun n => { n with events := n.events ++ [page] }

-- Namespaces

def State.ns? (s : State) (id : Nat) : Option Namespace := s.nvme.spaces.find? (·.nsid == id)
def State.modNs (s : State) (id : Nat) (f : Namespace → Namespace) : State :=
  s.modNvme fun n => { n with spaces := n.spaces.map fun x => if x.nsid == id then f x else x }
/-- Some delete of the namespace has been fetched (R282). -/
def State.nsDeleting (s : State) (id : Nat) : Bool :=
  s.nvme.waits.any fun w => match w with | .delete c => c.nsid == id | _ => false
/-- The loss log names the namespace (R291). -/
def State.flagged (s : State) (id : Nat) : Bool := s.nvme.loss.any (·.nsid == id)
/-- A new media key, by its making number (R370, R373). -/
def State.makeKey (s : State) : State × Nat := (s.modSec fun x => { x with nextKey := x.nextKey + 1 }, s.sec.nextKey)

-- The write buffer (R283 to R287)

/-- The write with this sequence has been acknowledged and is not durable (R288). -/
def State.acked (s : State) (seq : Nat) : Bool := s.nvme.intents.any (·.seq == seq)
/-- The newest buffered block of an address. -/
def State.buffered (s : State) (nsid lba : Nat) : Option BufBlock := s.nvme.buffer.reverse.find? fun b => b.nsid == nsid && b.lba == lba
/-- The newest acknowledged buffered block of an address. -/
def State.bufferedAck (s : State) (nsid lba : Nat) : Option BufBlock :=
  s.nvme.buffer.reverse.find? fun b => b.nsid == nsid && b.lba == lba && s.acked b.seq
/-- The durable data of a block; a block with none reads as zeros (R282). -/
def Namespace.durable (n : Namespace) (lba : Nat) : Bytes :=
  match n.blocks.find? (·.1 == lba) with
  | some (_, _, d) => slice d 0 4096
  | none => zeros 4096
/-- What a read returns for a block: the newest acknowledged data; beside a write that runs, the old or the new (R283). -/
def State.blockData (s : State) (n : Namespace) (lba i : Nat) : Bytes :=
  let old := match s.bufferedAck n.nsid lba with | some b => b.data | none => n.durable lba
  match s.buffered n.nsid lba with
  | none => old
  | some b => if s.acked b.seq || Config.pick s.free i 2 == 1 then b.data else old
/-- The block is read from flash. -/
def State.fromFlash (s : State) (n : Namespace) (lba : Nat) : Bool :=
  (s.buffered n.nsid lba).isNone && n.blocks.any fun b => b.1 == lba && !b.2.2.isEmpty

/-- Writes to this module complete only when durable: FUA, the cache disabled, PS2 and deeper (R285, Table 16.10). -/
def State.writeThrough (s : State) (fua : Bool) : Bool := fua || !s.nvme.wce || decide (2 ≤ s.power.st)
/-- Room for a write: 8 GiB of buffer, and an intent record when it is acknowledged from it (R284, R288). -/
def State.writeRoom (s : State) (blocks : Nat) (through : Bool) : Bool :=
  decide (s.nvme.buffer.length + blocks ≤ 2097152) && (through || decide (s.nvme.intents.length < 262144))

/-- A block's data enters the buffer. Against a write that still runs, which one the block ends with is free (R283): then the
newer block may carry the older data. -/
def State.putBlock (s : State) (nsid lba : Nat) (data : Bytes) (seq i : Nat) : State :=
  let d := match s.buffered nsid lba with
    | some b => if !s.acked b.seq && Config.pick s.free i 2 == 1 then b.data else data
    | none => data
  s.modNvme fun n => { n with buffer := n.buffer ++ [{ nsid := nsid, lba := lba, data := d, seq := seq }] }
/-- A write's data enters the buffer: acknowledged at once with an intent record, or when durable (R284, R285, R288). -/
def State.acceptWrite (s : State) (c : NvCmd) (slba : Nat) (data : List Bytes) (fua : Bool) : State :=
  let seq := s.nvme.seq
  let s := data.zipIdx.foldl (fun s (d, i) => s.putBlock c.nsid (slba + i) d seq i) s
  let s := s.used.modNvme fun n => { n with seq := seq + 1 }
  if s.writeThrough fua then s.modNvme fun n => { n with waits := n.waits ++ [.write c seq] }
  else (s.modNvme fun n => { n with intents := n.intents ++
    [{ nsid := c.nsid, slba := slba, nlb := data.length, sqid := c.sqid, cid := c.cid, seq := seq }] }).nvDone c .success 0

/-- A block of a write becomes the durable one; older buffered data of the address is superseded (R287, R290). -/
def State.commitBlock (s : State) (b : BufBlock) (through : Bool) : State :=
  let older := fun (x : BufBlock) => x.nsid == b.nsid && x.lba == b.lba && decide (x.seq ≤ b.seq)
  let s := s.modNvme fun n => { n with buffer := n.buffer.filter fun x => !older x }
  s.modNs b.nsid fun (n : Namespace) => { n with
    blocks := (b.lba, b.seq, b.data) :: n.blocks.filter (·.1 != b.lba)
    flushed := if through then b.lba :: n.flushed.filter (· != b.lba) else n.flushed.filter (· != b.lba) }
/-- No block of the write is left in the buffer. -/
def State.writeDurable (s : State) (seq : Nat) : Bool := s.nvme.buffer.all (·.seq != seq)

/-- A write that waits for room may have it now (R284, R288); a delete whose earlier commands have ended takes effect (R282). -/
def State.nvSettleOne (s : State) (w : NvWait) : State :=
  let drop := s.modNvme fun n => { n with waits := n.waits.erase w }
  match w with
  | .write c seq => if s.writeDurable seq then drop.nvDone c .success 0 else s
  | .flush c bound seqs =>
    if seqs.all s.writeDurable then
      let cover := fun (n : Namespace) => if c.nsid = n.nsid ∨ c.nsid = 0xFFFFFFFF then
          { n with flushed := ((n.blocks.filter fun b => decide (b.2.1 < bound)).map (·.1) ++ n.flushed).eraseDups } else n
      (drop.modNvme fun n => { n with spaces := n.spaces.map cover, flushes := n.flushes + 1 }).nvDone c .success 0
    else s
  | .room c slba data fua =>
    if s.writeRoom data.length (s.writeThrough fua) then drop.acceptWrite c slba data fua else s
  | .delete c =>
    let busy := s.nvme.waits.any fun x => match x with
      | .write d _ => d.nsid == c.nsid
      | .flush d _ _ => d.nsid == c.nsid || d.nsid == 0xFFFFFFFF
      | .room d _ _ _ => d.nsid == c.nsid
      | .io d _ => d.nsid == c.nsid
      | .delete _ => false
    if busy then s else
    (drop.modNvme fun n => { n with
      spaces := n.spaces.filter (·.nsid != c.nsid), buffer := n.buffer.filter (·.nsid != c.nsid)
      intents := n.intents.filter (·.nsid != c.nsid), loss := n.loss.filter (·.nsid != c.nsid) }).bumpEpoch.nvDone c .success 0
  | .io _ _ => s
/-- Intent records of durable writes are freed and waiting commands settle, oldest first (R286, R288). -/
def State.nvSettle (s : State) : State :=
  let live := fun (i : Intent) => !s.writeDurable i.seq
  let s := s.modNvme fun n => { n with intents := n.intents.filter live }
  s.nvme.waits.foldl State.nvSettleOne s

/-- The write completes when durable, so its blocks count as written with FUA (R285, R293). -/
def State.isThrough (s : State) (seq : Nat) : Bool :=
  s.nvme.waits.any fun w => match w with | .write _ q => q == seq | _ => false
/-- A write command becomes durable as one unit (R287). -/
def State.commitWrite (s : State) (seq : Nat) : State :=
  let through := s.isThrough seq
  ((s.nvme.buffer.filter (·.seq == seq)).foldl (fun s b => s.commitBlock b through) s).nvSettle
/-- The whole buffer becomes durable, oldest write first, where flash takes writes (R286, R386, R395). -/
def State.drainBuffer (s : State) : State :=
  if !s.writeOk then s else ((s.nvme.buffer.map (·.seq)).eraseDups).foldl State.commitWrite s
/-- Blocks are deallocated: they read as zeros, and older buffered data of them is superseded (R282, Table 12.1). -/
def State.deallocate (s : State) (nsid slba nlb : Nat) : State :=
  let seq := s.nvme.seq
  let hit := fun (lba : Nat) => decide (slba ≤ lba) && decide (lba < slba + nlb)
  let s := s.modNvme fun n => { n with seq := seq + 1, buffer := n.buffer.filter fun b => !(b.nsid == nsid && hit b.lba) }
  let clear := fun (b : Nat × Nat × Bytes) => if hit b.1 then (b.1, seq, ([] : Bytes)) else b
  (s.modNs nsid fun (n : Namespace) => { n with blocks := n.blocks.map clear, flushed := n.flushed.filter fun l => !hit l }).nvSettle

-- I/O commands

/-- Why an I/O command does not run: lifecycle (Table 16.9), map rebuild (R390), namespace (R282), flag (R291), transfer size
(Table 12.2), range. -/
def State.ioFail (s : State) (c : NvCmd) (slba nlb : Nat) (moves : Bool) : Option NvStatus :=
  if s.sec.lifecycle != .operational then some .invalidField
  else if s.media.rebuildingMap then some .notReady
  else match s.ns? c.nsid with
    | none => some .invalidNamespace
    | some n =>
      if !n.attached || s.nsDeleting c.nsid then some .invalidNamespace
      else if s.flagged c.nsid then some .notReady
      else if moves && decide (512 < nlb) then some .invalidField
      else if n.nsze < slba + nlb then some .other
      else none

/-- Writes a page list's units to host memory. -/
def State.toPrp (s : State) (prp : Prp) (data : Bytes) : State :=
  (List.range (ceilDiv data.length 4096)).foldl (fun s k =>
    s.hostWrite (prp.getD k 0) (slice data (4096 * k) (Nat.min 4096 (data.length - 4096 * k)))) s

/-- A block is unreadable (R293): the read fails; a block that a Flush or FUA covers breaks guarantee 1 of its pot. -/
def State.lostBlock (s : State) (c : NvCmd) (n : Namespace) (lba : Nat) : State :=
  let fl := n.flushed.contains lba
  let s := s.modNvme fun v => { v with
    integrity := v.integrity + 1, errors := ((n.nsid, lba, s.time / 1000, fl) :: v.errors).take 256 }
  (if fl then s.guarantee n.pot 1 0xFF 0 0 else s).nvDone c .unrecoveredRead 0

/-- An I/O command that runs (R283 to R286, R293, Table 13.4). -/
def State.runIo (s : State) (c : NvCmd) (io : NvIo) : State :=
  match io with
  | .read slba nlb prp readable =>
    match s.ioFail c slba nlb true with
    | some e => s.nvDone c e 0
    | none =>
      let n := (s.ns? c.nsid).getD {}
      let flash := ((List.range nlb).map (slba + ·)).filter (s.fromFlash n)
      if readable || flash.isEmpty then
        (s.toPrp prp ((List.range nlb).map fun i => s.blockData n (slba + i) i).flatten).used.nvDone c .success 0
      else (s.lostBlock c n (flash.getD (Config.pick s.free 0 flash.length) 0)).used
  | .write slba nlb prp fua =>
    match s.ioFail c slba nlb true with
    | some e => s.nvDone c e 0
    | none =>
      if !s.writeOk then s.nvDone c .writeFault 0 else
      match ((List.range nlb).map fun i => s.hostRead (prp.getD i 0) 4096).foldr (fun x l => x.bind fun b => l.map (b :: ·)) (some []) with
      | none => s.nvDone c .other 0
      | some data =>
        if s.writeRoom nlb (s.writeThrough fua) then s.acceptWrite c slba data fua
        else s.modNvme fun n => { n with waits := n.waits ++ [.room c slba data fua] }
  | .flush =>
    match if c.nsid = 0xFFFFFFFF then (if s.sec.lifecycle != .operational then some .invalidField else
        if s.media.rebuildingMap then some .notReady else none) else s.ioFail c 0 0 false with
    | some e => s.nvDone c e 0
    | none =>
      let mine := s.nvme.intents.filter fun i => i.nsid == c.nsid || c.nsid == 0xFFFFFFFF
      if !s.writeOk && !mine.isEmpty then s.nvDone c .writeFault 0 else
      (s.modNvme fun n => { n with waits := n.waits ++ [.flush c n.seq (mine.map (·.seq))] }).nvSettle
  | .zeroes slba nlb =>
    match s.ioFail c slba nlb false with
    | some e => s.nvDone c e 0
    | none => if !s.writeOk then s.nvDone c .writeFault 0 else (s.deallocate c.nsid slba nlb).nvDone c .success 0
  | .dsm deallocate ranges =>
    match ranges.findSome? (fun r => s.ioFail c r.1 r.2 false) with
    | some e => s.nvDone c e 0
    | none =>
      match s.ioFail c 0 0 false with
      | some e => s.nvDone c e 0
      | none => if !deallocate then s.nvDone c .success 0 else
        (ranges.foldl (fun s r => s.deallocate c.nsid r.1 r.2) s).nvDone c .success 0

/-- An I/O command as fetched: held in PS3 and PS4, where the first held one starts the return to PS2 (Table 16.10). -/
def State.fetchIo (s : State) (c : NvCmd) (io : NvIo) : State := s.nvRun fun s =>
  if 3 ≤ s.power.st then
    let s := s.modNvme fun n => { n with waits := n.waits ++ [.io c io] }
    if s.power.tripped then s else
    let s := if s.power.step.isNone then s.modMedia fun m => { m with orderly := false } else s
    s.modPower fun p => { p with req := Nat.min p.req 2, step := p.step.orElse fun _ => some (p.st - 1) }
  else s.runIo c io
/-- Held I/O commands run once PS2 is reached, oldest first. -/
def State.runHeldIo (s : State) : State :=
  s.nvme.waits.foldl (fun s w => match w with
    | .io c io => (s.modNvme fun n => { n with waits := n.waits.erase w }).runIo c io
    | _ => s) s

/-- NVM_READ (R283, R284, R293). -/
def execNvmRead (c : NvCmd) (slba nlb : Nat) (prp : Prp) (readable : Bool) (s : State) : Out := .next (s.fetchIo c (.read slba nlb prp readable))
/-- NVM_WRITE (R284, R285, R288). -/
def execNvmWrite (c : NvCmd) (slba nlb : Nat) (prp : Prp) (fua : Bool) (s : State) : Out := .next (s.fetchIo c (.write slba nlb prp fua))
/-- NVM_FLUSH (R286). -/
def execNvmFlush (c : NvCmd) (s : State) : Out := .next (s.fetchIo c .flush)
/-- WRITE_ZEROES (Table 12.1): the blocks are deallocated whatever the Deallocate bit. -/
def execWriteZeroes (c : NvCmd) (slba nlb : Nat) (s : State) : Out := .next (s.fetchIo c (.zeroes slba nlb))
/-- DATASET_MANAGEMENT (Table 12.1): attributes other than Deallocate are ignored. -/
def execDatasetManagement (c : NvCmd) (deallocate : Bool) (ranges : List (Nat × Nat)) (s : State) : Out :=
  .next (s.fetchIo c (.dsm deallocate ranges))

/-- INVALID_COMMAND_OPCODE (R278): no state changes beside the completion. -/
def execInvalidCommandOpcode (c : NvCmd) (_opcode : Byte) (s : State) : Out :=
  .next (s.nvRun fun s => s.nvDone c .invalidOpcode 0)

-- Namespace Management and Attachment (R280, R282)

/-- The lowest namespace identifier not in use. -/
def State.freeNsid (s : State) : Nat := (((List.range 256).map (· + 1)).find? fun n => (s.ns? n).isNone).getD 0

/-- NAMESPACE_CREATE (R280, Table 12.2, Table 16.9). -/
def execNamespaceCreate (c : NvCmd) (nsze : Nat) (vendor : Byte) (s : State) : Out := .next (s.nvRun fun s =>
  let pot := vendor.toNat % 8
  if s.sec.lifecycle != .operational || !bit vendor.toNat 7 || !s.potEnabled pot || nsze = 0 || nsze % 262144 ≠ 0 then
    s.nvDone c .invalidField 0
  else if 256 ≤ s.nvme.spaces.length then s.nvDone c .nsIdUnavailable 0
  else if s.unitsFree pot < nsze then s.nvDone c .nsCapacity 0
  else
    let id := s.freeNsid
    let (s, key) := s.makeKey
    (s.modNvme fun n => { n with spaces := n.spaces ++ [{ nsid := id, pot := pot, nsze := nsze, key := key }] }).nvDone c .success id)

/-- NAMESPACE_DELETE (R282): it completes after every command to the namespace fetched before it. -/
def execNamespaceDelete (c : NvCmd) (s : State) : Out := .next (s.nvRun fun s =>
  if s.sec.lifecycle != .operational then s.nvDone c .invalidField 0
  else if (s.ns? c.nsid).isNone || s.nsDeleting c.nsid then s.nvDone c .invalidNamespace 0
  else (s.modNvme fun n => { n with waits := n.waits ++ [.delete c] }).nvSettle)

/-- NAMESPACE_ATTACHMENT (Table 12.1): one controller, PF0. -/
def execNamespaceAttachment (c : NvCmd) (attach : Bool) (s : State) : Out := .next (s.nvRun fun s =>
  if s.sec.lifecycle != .operational then s.nvDone c .invalidField 0 else
  match s.ns? c.nsid with
  | none => s.nvDone c .invalidNamespace 0
  | some n =>
    if s.nsDeleting c.nsid then s.nvDone c .invalidNamespace 0
    else if n.attached == attach then s.nvDone c .other 0
    else (s.modNs c.nsid fun n => { n with attached := attach }).nvDone c .success 0)

/-- Namespaces that a command names: one, or all of them. -/
def State.nsNamed (s : State) (nsid : Nat) : List Nat :=
  if nsid = 0xFFFFFFFF then s.nvme.spaces.map (·.nsid) else (s.nvme.spaces.map (·.nsid)).filter (· == nsid)
/-- Deallocates every block of a namespace, and replaces its media key when asked (Table 12.1, Table 16.2). -/
def State.eraseNs (s : State) (nsid : Nat) (newKey : Bool) : State :=
  let s := s.modNvme fun n => { n with
    buffer := n.buffer.filter (·.nsid != nsid), intents := n.intents.filter (·.nsid != nsid) }
  let s := s.modNs nsid fun n => { n with blocks := [], flushed := [] }
  let s := if newKey then let (s, k) := s.makeKey; (s.modNs nsid fun n => { n with key := k }).bumpEpoch else s
  s.nvSettle

/-- FORMAT_NVM (Table 12.1): settings 0 and 1 deallocate every block, 2 also replaces the media key. -/
def execFormatNvm (c : NvCmd) (ses : Nat) (s : State) : Out := .next (s.nvRun fun s =>
  if s.sec.lifecycle != .operational || decide (2 < ses) then s.nvDone c .invalidField 0
  else if (s.nsNamed c.nsid).isEmpty && c.nsid != 0xFFFFFFFF then s.nvDone c .invalidNamespace 0
  else ((s.nsNamed c.nsid).foldl (fun s n => s.eraseNs n (ses == 2)) s).nvDone c .success 0)

/-- A sanitize of every namespace. -/
def State.sanitize (s : State) (c : NvCmd) (crypto : Bool) : State := s.nvRun fun s =>
  if s.sec.lifecycle != .operational then s.nvDone c .invalidField 0 else
  let s := (s.nvme.spaces.map (·.nsid)).foldl (fun s n => s.eraseNs n crypto) s
  (s.modNvme fun n => { n with sanitized := if crypto then 2 else 1 }).nvDone c .success 0
/-- SANITIZE_BLOCK_ERASE (Table 12.1). -/
def execSanitizeBlockErase (c : NvCmd) (s : State) : Out := .next (s.sanitize c false)
/-- SANITIZE_CRYPTO_ERASE (Tables 12.1, 16.2): new keys for every namespace. -/
def execSanitizeCryptoErase (c : NvCmd) (s : State) : Out := .next (s.sanitize c true)

-- Queues, Abort, asynchronous events (Tables 12.1, 12.2)

/-- CREATE_IO_QUEUE (Table 12.2); a submission queue names a completion queue that exists (NVMe's rule, log 9). -/
def execCreateIoQueue (c : NvCmd) (completion : Bool) (qid size cqid : Nat) (base : Nat) (s : State) : Out := .next (s.nvRun fun s =>
  let used := if completion then s.nvme.cqs.any (·.1 == qid) else s.nvme.sqs.any (·.1 == qid)
  if qid = 0 ∨ 128 < qid ∨ used = true then s.nvDone c .invalidQueueId 0
  else if size < 2 ∨ 65536 < size then s.nvDone c .invalidQueueSize 0
  else if completion then (s.modNvme fun n => { n with cqs := n.cqs ++ [(qid, size, base)] }).nvDone c .success 0
  else if !(s.nvme.cqs.any (·.1 == cqid)) then s.nvDone c .other 0
  else (s.modNvme fun n => { n with sqs := n.sqs ++ [(qid, size, base, cqid)] }).nvDone c .success 0)

/-- The command that waits. -/
def NvWait.cmd : NvWait → NvCmd
  | .write c _ => c
  | .flush c _ _ => c
  | .room c _ _ _ => c
  | .delete c => c
  | .io c _ => c
/-- A waiting command that has had no effect yet. -/
def NvWait.idle : NvWait → Bool
  | .room _ _ _ _ => true
  | .io _ _ => true
  | _ => false

/-- DELETE_IO_QUEUE (Table 12.1): a completion queue in use is not deleted; a submission queue's commands without effect are
aborted (NVMe's rules, log 9). -/
def execDeleteIoQueue (c : NvCmd) (completion : Bool) (qid : Nat) (s : State) : Out := .next (s.nvRun fun s =>
  if completion then
    if !(s.nvme.cqs.any (·.1 == qid)) then s.nvDone c .invalidQueueId 0
    else if s.nvme.sqs.any (·.2.2.2 == qid) then s.nvDone c .other 0
    else (s.modNvme fun n => { n with cqs := n.cqs.filter (·.1 != qid) }).nvDone c .success 0
  else
    if !(s.nvme.sqs.any (·.1 == qid)) then s.nvDone c .invalidQueueId 0
    else
      let gone := s.nvme.waits.filter fun w => w.idle && w.cmd.sqid == qid
      let s := gone.foldl (fun s w => (s.modNvme fun n => { n with waits := n.waits.erase w }).nvDone w.cmd .other 0) s
      ((s.modNvme fun n => { n with sqs := n.sqs.filter (·.1 != qid) }).nvSettle).nvDone c .success 0)

/-- ABORT (Table 12.1): a command that has had no effect may be aborted, which is free; the result's bit 0 says that none was. -/
def execAbortCmd (c : NvCmd) (sqid cid : Nat) (s : State) : Out := .next (s.nvRun fun s =>
  match s.nvme.waits.find? fun w => w.idle && w.cmd.sqid == sqid && w.cmd.cid == cid with
  | some w =>
    if Config.pick s.free 0 2 = 0 then
      (((s.used.modNvme fun n => { n with waits := n.waits.erase w }).nvDone w.cmd .other 0).nvSettle).nvDone c .success 0
    else s.used.nvDone c .success 1
  | none => s.nvDone c .success 1)

/-- ASYNC_EVENT_REQUEST (R291): held until an event comes; one that already waits is reported at once. -/
def execAsyncEventRequest (c : NvCmd) (s : State) : Out := .next (s.nvRun fun s =>
  match s.nvme.events with
  | e :: rest => (s.modNvme fun n => { n with events := rest }).nvDone c .success e
  | [] => s.modNvme fun n => { n with aers := n.aers ++ [c] })

-- Features (R278, R285, R294, R296)

/-- Feature identifiers of NVMe 2.0 that go with what Table 12.1 supports (log 9). -/
def supportedFeature (fid : Nat) : Bool := [0x01, 0x02, 0x04, 0x05, 0x06, 0x07, 0x08, 0x09, 0x0A, 0x0B, 0x0D].contains fid
/-- Bytes of the Host Memory Buffer in use: one below 1 GiB is unused (R294). -/
def hmbBytes (d : List (Nat × Nat)) : Nat := if (d.map (·.2)).sum < 2 ^ 30 then 0 else (d.map (·.2)).sum
/-- The current value of a feature. -/
def State.feature (s : State) (fid : Nat) : Nat :=
  if fid = 0x06 then b2n s.nvme.wce
  else if fid = 0x07 then 127 + 127 * 65536
  else if fid = 0x0D then b2n s.nvme.hmb.isSome
  else lookupD s.nvme.features fid 0

/-- GET_FEATURES (R278). -/
def execGetFeatures (c : NvCmd) (fid : Nat) (s : State) : Out := .next (s.nvRun fun s =>
  if supportedFeature fid then s.nvDone c .success (s.feature fid) else s.nvDone c .invalidField 0)

/-- SET_FEATURES (R278, R285, R294, R296, Table 16.9). -/
def execSetFeatures (c : NvCmd) (fid : Nat) (dw11 : BitVec 32) (hmb : List (Nat × Nat)) (s : State) : Out := .next (s.nvRun fun s =>
  if !supportedFeature fid || s.sec.lifecycle == .blank || s.sec.lifecycle == .returned then s.nvDone c .invalidField 0
  else if fid = 0x06 then (s.modNvme fun n => { n with wce := dw11.getLsbD 0 }).nvDone c .success 0
  else if fid = 0x0D then
    if !dw11.getLsbD 0 then (s.modNvme fun n => { n with hmb := none }).nvDone c .success 0
    else if 256 < hmb.length ∨ hmb.any (fun d => decide (d.2 < 2 ^ 21) || d.2 % 2 ^ 21 != 0) = true then s.nvDone c .invalidField 0
    else (s.modNvme fun n => { n with hmb := some hmb }).nvDone c .success 0
  else if fid = 0x07 then
    if s.nvme.cqs.isEmpty && s.nvme.sqs.isEmpty then s.nvDone c .success (s.feature 0x07) else s.nvDone c .sequenceError 0
  else (s.modNvme fun n => { n with features := upsert n.features fid 0 fun _ => dw11.toNat }).nvDone c .success 0)

-- Log pages (R290, R291, R297, R298, R325, R326)

/-- `n` bytes that the manual leaves to the NVMe specification: free. -/
def State.freeBytes (s : State) (i n : Nat) : Bytes :=
  ((List.range (ceilDiv n 8)).map fun k => natLe 8 (Config.freeWord s.free (i + k)).toNat).flatten.take n
/-- Fields (offset, bytes) laid over a structure. -/
def overlay (base : Bytes) (fields : List (Nat × Bytes)) : Bytes :=
  fields.foldl (fun b f => b.take f.1 ++ f.2 ++ b.drop (f.1 + f.2.length)) base

/-- The header and entries of the loss log (Tables 12.3, 12.4). -/
def LossEntry.bytes (e : LossEntry) : Bytes :=
  natLe 4 e.nsid ++ natLe 1 (b2n e.unknown) ++ zeros 3 ++ natLe 8 e.slba ++ natLe 4 e.nlb ++ natLe 2 e.sqid ++ natLe 2 e.cid ++ natLe 8 e.ackSeq
def State.lossLog (s : State) : Bytes :=
  natLe 8 s.nvme.loss.length ++ natLe 4 ((s.nvme.loss.map (·.nsid)).eraseDups).length ++ natLe 4 s.nvme.losses ++ zeros 48 ++
  (s.nvme.loss.map LossEntry.bytes).flatten
/-- A caddy health record (Table 13.14). -/
def Bay.health (b : Bay) : Bytes :=
  natLe 8 b.serial ++ natLe 1 b.st.toNat ++ natLe 1 b.spareLeft ++ natLe 1 b.wearUsed ++ natLe 1 b.lanes ++ zeros 4 ++
  (b.counters.toList.map (natLe 8)).flatten ++ natLe 2 b.tempNow ++ natLe 2 b.tempMax ++ zeros 12 ++
  (b.tempHist.toList.map (natLe 4)).flatten ++ zeros 352
/-- Page 0xC1 (R325): byte 0 of the header holds a bit per bay with a caddy. -/
def State.caddyHealth (s : State) : Bytes :=
  natLe 1 ((List.range 8).map fun n => b2n (s.bay n).present * 2 ^ n).sum ++ zeros 63 ++ (s.media.bays.toList.map Bay.health).flatten
/-- Entry of a block in page 0xC2 (R326). -/
def Bay.blockEntry (b : Bay) (k : Nat) : Nat :=
  let x := (b.blocks.lookup k).getD b.blank
  x.erases % 2 ^ 30 + 2 ^ 30 * b2n x.factory + 2 ^ 31 * b2n (x.st == .retired)
/-- A part of page 0xC2 of a bay (R326): only the bytes asked for are formed. -/
def Bay.erasePage (b : Bay) (off n : Nat) : Bytes :=
  let head := natLe 8 b.serial ++ natLe 4 311040 ++ natLe 2 b.rated ++ zeros 50
  (List.range n).map fun i =>
    let a := off + i
    if a < 64 then head.getD a 0 else if a < 1244224 then (natLe 4 (b.blockEntry ((a - 64) / 4))).getD ((a - 64) % 4) 0 else 0
/-- Critical Warning (Table 12.5). -/
def State.criticalWarning (s : State) : Nat :=
  let up := s.media.bays.toList.filter (·.isReadable)
  b2n (up.any fun b => decide (b.spareLeft < 10)) +
  2 * b2n (s.power.hot || s.power.tripped) +
  4 * b2n (s.media.bays.toList.any (fun b => b.rebuild.isSome) || decide (s.readables.length < 8) || s.media.groups.any fun g => !g.degraded.isEmpty) +
  8 * b2n (s.media.bays.toList.any fun b => b.present && b.readOnly)
/-- The SMART / Health page (R297); fields the manual leaves to the NVMe specification are free. -/
def State.smartPage (s : State) : Bytes :=
  let up := s.media.bays.toList.filter (·.present)
  let temp := Nat.max (Config.choice s.free 600 % 65536) ((up.map (·.tempNow)).foldl Nat.max 0)
  let spare := match up with | [] => 100 | b :: l => (l.map (·.spareLeft)).foldl Nat.min b.spareLeft
  overlay (s.freeBytes 0 512) [(0, natLe 1 s.criticalWarning), (1, natLe 2 temp), (3, natLe 1 spare),
    (5, natLe 1 ((up.map (·.wearUsed)).foldl Nat.max 0)), (144, natLe 16 s.nvme.unsafeShutdowns), (160, natLe 16 s.nvme.integrity)]
/-- Firmware Slot Information (R403, R406): active slot, next slot, versions as revisions. -/
def State.slotPage (s : State) : Bytes :=
  let rev := fun (k : Nat) => natLe 8 ((((s.boot.slots[k]?.getD {}).record).map (·.version)).getD 0)
  overlay (zeros 512) [(0, natLe 1 (s.boot.active + (if s.boot.pointer = s.boot.active then 0 else 16 * s.boot.pointer))), (8, rev 0), (16, rev 1)]
/-- Page 0xC3 (Table 12.6). -/
def State.statPage (s : State) : Bytes :=
  ([4096 * s.nvme.buffer.length, s.nvme.intents.length, s.nvme.flushes, (s.nvme.hmb.map hmbBytes).getD 0, s.nvme.hmbMisses,
    s.nvme.hmbFails].map (natLe 8)).flatten
/-- Page 0xC4 (Table 12.6): a count, then 256 records, newest first. -/
def State.errorPage (s : State) : Bytes :=
  let recs := (s.nvme.errors.map fun e => natLe 4 e.1 ++ zeros 4 ++ natLe 8 e.2.1 ++ natLe 8 e.2.2.1 ++ natLe 8 (b2n e.2.2.2)).flatten
  let p := natLe 8 s.nvme.errors.length ++ recs
  p ++ zeros (8200 - p.length)

/-- Length of a log page; none for an unassigned one. Pages that only the NVMe specification lays out count 4,096 bytes
(log 9). -/
def State.logLength (s : State) (lid lsp : Nat) : Option Nat :=
  match lid with
  | 0x02 => some 512
  | 0x03 => some 512
  | 0xC0 => some (64 + 32 * s.nvme.loss.length)
  | 0xC1 => some 4160
  | 0xC2 => if lsp < 8 && (s.bay lsp).present then some 1244224 else none
  | 0xC3 => some 48
  | 0xC4 => some 8200
  | n => if [0x00, 0x01, 0x05, 0x12, 0x81].contains n then some 4096 else none
/-- `n` bytes of a log page from an offset. -/
def State.logBytes (s : State) (lid lsp off n : Nat) : Bytes :=
  match lid with
  | 0x02 => slice s.smartPage off n
  | 0x03 => slice s.slotPage off n
  | 0xC0 => slice s.lossLog off n
  | 0xC1 => slice s.caddyHealth off n
  | 0xC2 => (s.bay lsp).erasePage off n
  | 0xC3 => slice s.statPage off n
  | 0xC4 => slice s.errorPage off n
  | _ => slice (s.freeBytes 0 4096) off n

/-- GET_LOG_PAGE (R278, R291, R298): a read of page 0xC0 that reaches its last byte with Retain Asynchronous Event clear clears
the log and every flag. -/
def execGetLogPage (c : NvCmd) (lid offset len lsp : Nat) (rae : Bool) (prp : Prp) (s : State) : Out := .next (s.nvRun fun s =>
  match s.logLength lid lsp with
  | none => s.nvDone c .invalidField 0
  | some n =>
    if n < offset then s.nvDone c .invalidField 0 else
    let s' := (s.toPrp prp (s.logBytes lid lsp offset (Nat.min len (n - offset)))).used
    let s' := if lid = 0xC0 ∧ rae = false ∧ offset < n ∧ n ≤ offset + len then
      s'.modNvme fun v => { v with loss := [], losses := 0 } else s'
    s'.nvDone c .success 0)

/-- Identify's data (Table 12.1, R280, R294, R403): the fields the manual states at NVMe's offsets; the rest is free. -/
def State.identifyData (s : State) (nsid cns : Nat) : Bytes :=
  let ids := (s.nvme.spaces.filter (·.attached)).map (·.nsid)
  if cns = 0x01 then overlay (s.freeBytes 0 4096) [(77, natLe 1 9), (260, natLe 1 0x14), (272, natLe 4 16777216),
    (276, natLe 4 262144), (319, natLe 1 1), (332, natLe 4 512), (336, natLe 2 256), (516, natLe 4 256), (525, natLe 1 1),
    (526, natLe 2 0), (528, natLe 2 0)]
  else if cns = 0x00 then
    match (s.ns? nsid).filter (·.attached) with
    | some n => overlay (s.freeBytes 0 4096) [(0, natLe 8 n.nsze), (8, natLe 8 n.nsze), (25, natLe 1 0), (26, natLe 1 0),
        (33, natLe 1 1), (128, natLe 4 (12 * 65536))]
    | none => zeros 4096
  else if cns = 0x02 then
    let l := (ids.filter fun i => decide (nsid < i))
    let sorted := (List.range 257).filter l.contains
    slice ((sorted.map (natLe 4)).flatten) 0 4096
  else s.freeBytes 0 4096

/-- IDENTIFY (Table 12.1). -/
def execIdentify (c : NvCmd) (cns : Nat) (prp : Prp) (s : State) : Out := .next (s.nvRun fun s =>
  if ! [0x00, 0x01, 0x02, 0x03, 0x05, 0x06, 0x08, 0x10, 0x11, 0x12, 0x13, 0x1C].contains cns then s.nvDone c .invalidField 0
  else (s.toPrp prp (s.identifyData c.nsid cns)).used.nvDone c .success 0)

-- Controller enable and reset (R276, R296, R390, R396, Table 17.3)

/-- CONTROLLER_ENABLE (R390): ready once the module is. -/
def execControllerEnable (s : State) : Out :=
  if s.nvme.enabled then .next s else
  .next (s.modNvme fun n => { n with enabled := true, ready := s.boot.phase == .ready })

/-- PF0_RESET (R296, R396, Table 17.3): queues and commands in flight go, the HMB is revoked, CSTS.CFS clears; acknowledged
writes stay in the buffer. Data of writes never acknowledged is dropped: they were not performed (R399). -/
def execPf0Reset (s : State) : Out :=
  let kept := fun (b : BufBlock) => s.acked b.seq
  .next (s.anyReset.modNvme fun n => { n with
    enabled := false, ready := false, cfs := false, cqs := [], sqs := [], waits := [], aers := [], events := [], hmb := none
    buffer := n.buffer.filter kept })

end Sys2Proof.Machine
end

