-- ==== Sys2Proof/Machine/Media.lean ====
section
/-! DEFINITION. Flash media (chapter 13, first part): blocks and block groups, stripes and their durability, die operations,
erase suspension, the pSLC buffer and folding, garbage collection, refresh, the map journal and its checkpoints. -/

namespace Sys2Proof.Machine

-- Blocks (R303, R308, R309)

/-- The physical block of a position on a caddy (R303): the same block of its plane, or the spare it moved to. -/
def Bay.phys (b : Bay) (g : Nat) : Nat := (b.remap.lookup g).getD (405 * (g / 397) + g % 397)
def Bay.block (b : Bay) (k : Nat) : Block := (b.blocks.lookup k).getD b.blank
def Bay.modBlock (b : Bay) (k : Nat) (f : Block → Block) : Bay := { b with blocks := upsert b.blocks k b.blank f }
/-- Adds to a counter of Table 13.14. -/
def Bay.count (b : Bay) (i n : Nat) : Bay := { b with counters := b.counters.setIfInBounds i (satAdd64 ((b.counters[i]?).getD 0) n) }
/-- An entry of the wear log, a ring of 1,024 (R321). -/
def State.wearEntry (s : State) (n kind : Nat) : State :=
  let e := s.media.epoch
  s.modBay n fun (b : Bay) => { b with
    wearLog := (({ kind := kind, bay := n, wearUsed := b.wearUsed, spareLeft := b.spareLeft, epoch := e } : WearEntry) :: b.wearLog).take 1024 }

/-- Wear used (R322): 100 × the mean erase count of the usable blocks ÷ `RATED`. -/
def Bay.wear (b : Bay) : Nat :=
  let bad := (b.blocks.filter fun x => x.2.st == .retired).length
  let sum := (b.blocks.map fun x => if x.2.st == .retired then 0 else x.2.erases).sum + b.blank.erases * (311040 - b.blocks.length)
  if (311040 - bad) * b.rated = 0 then 255 else Nat.min 255 (100 * sum / ((311040 - bad) * b.rated))
/-- `CADDY_WORN` is due at this percent (R322). -/
def wearStep (n : Nat) : Bool := n == 80 || n == 90 || decide (95 ≤ n)
/-- A caddy becomes read-only: recorded, no further program or erase is issued to it (R322). -/
def State.makeReadOnly (s : State) (n : Nat) : State :=
  (s.modBay n fun b => { b with readOnly := true, st := 3, rebuild := none }).wearEntry n 6
/-- Wear used is brought up to date after an erase; each step is reported and recorded (R322). -/
def State.updateWear (s : State) (n : Nat) : State :=
  let b := s.bay n
  let w := b.wear
  if w ≤ b.wearUsed then s else
  let steps := ((List.range (w + 1)).filter fun k => decide (b.wearUsed < k) && wearStep k)
  let s := s.modBay n fun b => { b with wearUsed := w }
  let s := if steps.isEmpty then s else
    (s.modEvent 0x0005 (natLe 1 n ++ natLe 1 w ++ zeros 6 ++ natLe 8 b.serial)).wearEntry n 4
  if 100 ≤ w ∧ b.readOnly = false then s.makeReadOnly n else s

-- Groups (R303)

def State.group? (s : State) (g : Nat) : Option Group := s.media.groups.find? (·.pos == g)
def State.modGroup (s : State) (g : Nat) (f : Group → Group) : State :=
  s.modMedia fun m => { m with groups := m.groups.map fun x => if x.pos == g then f x else x }
/-- Wordlines' worth of pages: one page in pSLC, four in QLC (Table 13.1). -/
def wordline (pslc : Bool) : Nat := if pslc then 1 else 4
def groupPages (pslc : Bool) : Nat := if pslc then 768 else 3072
def State.freeGroups (s : State) : Nat := 304896 - s.media.groups.length
/-- The lowest position not listed. -/
def lowestFree (used : List Nat) : Nat → Nat → Nat
  | 0, n => n
  | k + 1, n => if used.contains n then lowestFree used k (n + 1) else n
def State.lowestFreeGroup (s : State) : Nat := lowestFree (s.media.groups.map (·.pos)) s.media.groups.length 0
/-- Bytes that the map holds valid (R307). -/
def State.validBytes (s : State) : Nat :=
  4096 * ((s.nvme.spaces.map fun n => (n.blocks.filter fun b => !b.2.2.isEmpty).length).sum) +
  16384 * ((s.corpora.map fun c => c.leaves.length + c.centroids.length).sum + (s.cups.map (·.sealedPages.length)).sum) +
  4096 * ((s.colls.map (·.units)).sum + (s.images.map (·.units)).sum + (s.tables.map (·.units)).sum)
/-- Capacity of the pSLC buffer, S(f) (R307). -/
def State.pslcRoom (s : State) : Nat := Nat.min 4000000000000 (600000000000 + (72000000000000 - s.validBytes) / 4)

/-- A block is retired (R303, R308): its position moves to a spare of the same die and plane; with none left the position is
retired in every bay. -/
def State.retireBlock (s : State) (n g : Nat) : State :=
  let b := s.bay n
  let k := b.phys g
  let plane := g / 397
  let spare := ((List.range 8).map fun i => 405 * plane + 397 + i).find? fun x =>
    !(b.remap.any (·.2 == x)) && (b.block x).st != .retired && x != k
  let die := fun (x : Nat) => x / 2430 == k / 2430
  let left := 48 - (((b.blocks.filter fun x => die x.1 && x.2.st == .retired).length) + 1)
  let s := s.modBay n fun (b : Bay) =>
    let b := (b.modBlock k fun x => { x with st := .retired }).count 6 1
    { b with
      spareLeft := Nat.min b.spareLeft (100 * left / 48)
      remap := match spare with | some x => (g, x) :: b.remap.filter (·.1 != g) | none => b.remap }
  if spare.isSome then s else
  match s.group? g with
  | some _ => s.modGroup g fun x => { x with st := .retired }
  | none => s.modMedia fun m => { m with groups := m.groups ++ [{ pos := g, st := .retired }] }

/-- Issues a full erase of a group's blocks on every writable caddy (R308, R309). -/
def State.eraseGroup (s : State) (g : Nat) : State :=
  let bays := s.writables.filter fun n => ((s.bay n).block ((s.bay n).phys g)).st != .retired
  let s := bays.foldl (fun (s : State) n =>
    let op : MediaOp := { key := s.media.nextKey, kind := 2, bay := n, group := g }
    (s.modBay n fun b => b.modBlock (b.phys g) fun x => { x with st := .erasing }).modMedia fun m => { m with
      ops := m.ops ++ [op], nextKey := m.nextKey + 1 }) s
  s.modGroup g fun x => { x with st := .erasing, valid := [], degraded := [] }

/-- Bays that are not writable now: their members of a stripe are missing (R305). -/
def missingBays (ok : List Nat) : List Nat := (List.range 8).filter fun n => !ok.contains n
/-- The group takes valid pages at its end, in QLC, as relocation and folding write them (R306, R313). -/
def State.appendPages (s : State) (g : Nat) (pages : List Payload) : State :=
  let miss := missingBays s.writables
  let s := if (s.group? g).isSome then s else s.modMedia fun m => { m with groups := m.groups ++ [{ pos := g, st := .openQlc }] }
  let start := ((s.group? g).getD {}).pages
  let fresh := pages.zipIdx.map fun p => (start + p.2, p.1)
  let full := decide (3072 ≤ start + pages.length)
  let seq := s.media.seq + 8 * pages.length
  let minute := s.time / 60000000
  let s := s.modMedia fun m => { m with seq := seq }
  let s := s.modGroup g fun (x : Group) => { x with
    valid := x.valid ++ fresh, pages := start + pages.length, seq := seq, st := if full then .closed else .openQlc
    degraded := if miss.isEmpty then x.degraded else x.degraded ++ fresh.map fun p => (p.1, miss) }
  s.writables.foldl (fun s n => s.modBay n fun (b : Bay) => (b.count 1 pages.length).modBlock (b.phys g) fun x => { x with
    st := if full then .closed else .openQlc, seq := seq, closedAt := minute, pslc := false }) s
/-- The open QLC group with room, else the lowest free one, other than `g`. -/
def State.target (s : State) (g n : Nat) : Nat :=
  match s.media.groups.find? fun x => x.st == .openQlc && x.pos != g && decide (x.pages + n ≤ 3072) with
  | some x => x.pos
  | none => s.lowestFreeGroup
/-- A group's valid pages are rewritten into a QLC group, then the group is erased (R313). -/
def State.relocate (s : State) (g : Nat) : State :=
  match s.group? g with
  | none => s
  | some x =>
    let s := if x.valid.isEmpty then s else s.appendPages (s.target g x.valid.length) (x.valid.map (·.2))
    let s := if x.pslc then s.modMedia fun m => { m with pslcBytes := m.pslcBytes - 98304 * x.pages } else s
    s.eraseGroup g
/-- A group holds valid pages and may be moved: closed or open, and flash takes writes. -/
def State.movable (s : State) (g : Nat) : Bool :=
  s.writeOk && match s.group? g with
    | some x => x.st == .closed || x.st == .openQlc || x.st == .openPslc
    | none => false

-- Programs and stripes (R304, R305, R312)

/-- Begins the programs of a stripe, one to each writable bay (R304). -/
def State.beginStripe (s : State) (g page : Nat) (pslc : Bool) (load : Payload) (data : Bytes) : State :=
  let bays := s.writables
  let key := s.media.nextKey
  let ops := bays.zipIdx.map fun n => ({ key := key + 1 + n.2, kind := 1, bay := n.1, group := g, page := page, stripe := key } : MediaOp)
  let st := if pslc then BlockState.openPslc else .openQlc
  let seq := s.media.seq + bays.length
  let s := if (s.group? g).isSome then s else s.modMedia fun m => { m with groups := m.groups ++ [{ pos := g, st := st, pslc := pslc }] }
  let s := s.modGroup g fun x => { x with pages := page + 1, seq := seq }
  let s := bays.foldl (fun s n => s.modBay n fun b => b.modBlock (b.phys g) fun x => { x with st := st, pslc := pslc, seq := seq }) s
  s.modMedia fun m => { m with
    ops := m.ops ++ ops, nextKey := key + 1 + bays.length, seq := seq
    stripes := m.stripes ++ [{ key := key, group := g, page := page, pslc := pslc, flying := bays, load := load, data := data
                               mode := s.powerFailMode }]
    pslcBytes := if pslc then m.pslcBytes + 98304 else m.pslcBytes }

/-- A stripe's programs have all ended, and under mode 0 two more wordlines of its blocks are programmed or they are closed
(Table 13.9). -/
def State.stripeRipe (s : State) (t : Stripe) : Bool :=
  t.flying.isEmpty && (t.mode == 1 || match s.group? t.group with
    | some g => g.st == .closed || decide ((t.page / wordline t.pslc + 3) * wordline t.pslc ≤ g.pages) &&
        !(s.media.stripes.any fun u => u.group == t.group && decide (u.page < (t.page / wordline t.pslc + 3) * wordline t.pslc) && !u.flying.isEmpty)
    | none => true)
/-- The write or the Flushes that need a sequence to be durable cannot be: Write Fault (R304, Table 13.4). -/
def State.writeFaults (s : State) (seq : Nat) : State :=
  let hit := fun (w : NvWait) => match w with
    | .write _ q => q == seq
    | .flush _ _ l => l.contains seq
    | _ => false
  let s' := (s.nvme.waits.filter hit).foldl (fun s w => (s.modNvme fun n => { n with waits := n.waits.erase w }).nvDone w.cmd .writeFault 0) s
  if s.isThrough seq then s'.modNvme fun n => { n with buffer := n.buffer.filter (·.seq != seq) } else s'
/-- A full group is closed (R308). -/
def State.closeFull (s : State) (g : Nat) : State :=
  match s.group? g with
  | none => s
  | some x =>
    if x.pages < groupPages x.pslc || (s.media.stripes.any fun t => t.group == g && !t.flying.isEmpty) then s else
    let minute := s.time / 60000000
    s.writables.foldl (fun s n => s.modBay n fun b => b.modBlock (b.phys g) fun k => { k with st := .closed, closedAt := minute })
      (s.modGroup g fun x => { x with st := .closed })
/-- Decides one stripe (R304, R305): durable with six members or more, degraded with fewer than eight; else void. -/
def State.settleStripe (s : State) (t : Stripe) : State :=
  if !s.stripeRipe t || s.media.journal.contains t.key then s else
  let gone := s.modMedia fun m => { m with stripes := m.stripes.filter (·.key != t.key) }
  if t.ok.length < 6 then match t.load with
    | .host _ _ seq => gone.writeFaults seq
    | _ => gone
  else
    let miss := missingBays t.ok
    let keep := fun (x : Group) => { x with
      valid := if t.load = .other then x.valid else x.valid ++ [(t.page, t.load)]
      degraded := if miss.isEmpty then x.degraded else x.degraded ++ [(t.page, miss)] }
    match t.load with
    | .host _ _ _ => (s.modGroup t.group keep).modMedia fun m => { m with journal := m.journal ++ [t.key] }
    | _ => gone.modGroup t.group keep
/-- Every stripe that can be decided is. -/
def State.settleStripes (s : State) : State :=
  let s := (s.media.groups.map (·.pos)).foldl State.closeFull s
  s.media.stripes.foldl State.settleStripe s

/-- In mode 0 a FUA write or a waiting Flush pads the open block that holds its member with two wordlines of filler (Table 13.9). -/
def State.padFor (s : State) (t : Stripe) : State :=
  let needs := match t.load with
    | .host _ _ seq => s.isThrough seq || s.nvme.waits.any fun w => match w with | .flush _ _ l => l.contains seq | _ => false
    | _ => false
  match s.group? t.group with
  | none => s
  | some g =>
    if t.mode = 1 || !needs || !t.flying.isEmpty || decide ((t.page / wordline t.pslc + 3) * wordline t.pslc ≤ g.pages) then s else
    let n := Nat.min (groupPages t.pslc) ((t.page / wordline t.pslc + 3) * wordline t.pslc) - g.pages
    (List.range n).foldl (fun s k => s.beginStripe t.group (g.pages + k) t.pslc .other []) s

/-- A member's program has ended: the stripe counts it or not. -/
def State.memberDone (s : State) (key n : Nat) (ok : Bool) : State :=
  let s := s.modMedia fun m => { m with stripes := m.stripes.map fun t =>
    if t.key == key then { t with flying := t.flying.erase n, ok := if ok then t.ok ++ [n] else t.ok } else t }
  match s.media.stripes.find? (·.key == key) with
  | some t => (s.padFor t).settleStripes
  | none => s.settleStripes
/-- A stripe whose block failed its program verify is void: its members are written again in another stripe (R308). -/
def State.voidStripe (s : State) (key : Nat) : State := s.modMedia fun m => { m with stripes := m.stripes.filter (·.key != key) }

/-- The buffered block that is to be programmed next for an address: the oldest one with no stripe of its own. -/
def State.unprogrammed (s : State) (nsid lba : Nat) : Option BufBlock :=
  s.nvme.buffer.find? fun b => b.nsid == nsid && b.lba == lba &&
    !(s.media.stripes.any fun t => t.load == .host nsid lba b.seq)
/-- The blocks of a free position that must be erased before use (R308). -/
def State.unerased (s : State) (g : Nat) : Bool := s.writables.any fun n => ((s.bay n).block ((s.bay n).phys g)).st == .eraseUnknown
/-- A stripe may be placed at a group's next page (R308): the group free and erased, or open in the mode. -/
def State.placeable (s : State) (g page : Nat) (pslc : Bool) : Bool :=
  decide (g < 304896) && decide (page < groupPages pslc) && match s.group? g with
    | none => page == 0
    | some x => x.st == (if pslc then .openPslc else .openQlc) && x.pages == page

/-- WRITE_BUFFER_PROGRAM (R284, R306, R307): a buffered block is programmed to pSLC, or to QLC while the pSLC buffer is full. A
free position with blocks in ERASE_UNKNOWN is erased instead, and programmed later. -/
def execWriteBufferProgram (nsid lba group page : Nat) (s : State) : Out :=
  let pslc := decide (s.media.pslcBytes + 98304 ≤ s.pslcRoom)
  match s.unprogrammed nsid lba with
  | none => .next s
  | some b =>
    if !s.writeOk || s.boot.phase != .ready || !s.placeable group page pslc || (decide (s.freeGroups < 1524) && (s.group? group).isNone) then .next s
    else if (s.group? group).isNone && s.unerased group then
      .next ((s.modMedia fun m => { m with groups := m.groups ++ [{ pos := group, st := .erasing }] }).eraseGroup group)
    else .next (s.beginStripe group page pslc (.host nsid lba b.seq) b.data)

-- Die operations (R300, R301, R309 to R311, R405)

/-- The operations that have a slot, oldest first: 131,072; a later one waits in its media engine until one ends (Table 1.8, R14). -/
def State.opsInSlots (s : State) : List MediaOp := s.media.ops.take 131072
/-- The operation of a key that has a slot. -/
def State.op? (s : State) (key kind : Nat) : Option MediaOp := s.opsInSlots.find? fun o => o.key == key && o.kind == kind
def State.dropOp (s : State) (key : Nat) : State := s.modMedia fun m => { m with ops := m.ops.filter (·.key != key) }
def State.modOp (s : State) (key : Nat) (f : MediaOp → MediaOp) : State :=
  s.modMedia fun m => { m with ops := m.ops.map fun o => if o.key == key then f o else o }
/-- Die of a position. -/
def dieOf (g : Nat) : Nat := g / 2382
/-- A suspended erase resumes (R310). -/
def State.resumeErase (s : State) (o : MediaOp) : State :=
  (s.modOp o.key fun o => { o with suspended := false, served := 0 }).modBay o.bay fun b => b.modBlock (b.phys o.group) fun x => { x with st := .erasing }
/-- A read served by a suspension counts; the sixteenth ends it (Table 13.8). -/
def State.servedBy (s : State) (r : MediaOp) : State :=
  match s.media.ops.find? fun o => o.suspended && o.bay == r.bay && dieOf o.group == dieOf r.group with
  | none => s
  | some o => if 16 ≤ o.served + 1 then s.resumeErase o else s.modOp o.key fun o => { o with served := o.served + 1 }

/-- An attempt of a read failed: read again and decoded soft, up to four times; then the page is an unreadable member and is
reconstructed (R301, R33). -/
def State.readFailed (s : State) (o : MediaOp) : State :=
  if o.tries < 4 then s.modOp o.key fun o => { o with tries := o.tries + 1 }
  else ((s.dropOp o.key).modBay o.bay fun b => (b.count 0 1).count 4 1).originalBad o.read false

/-- FLASH_READ_DONE (R301, R315): the page is read, with or without soft decoding, or this attempt failed. -/
def execFlashReadDone (op : Nat) (ok : Bool) (s : State) : Out :=
  match s.op? op 0 with
  | none => .next s
  | some o =>
    let s := (s.servedBy o).modBay o.bay fun b => b.modBlock (b.phys o.group) fun x => { x with reads := x.reads + 1 }
    if ok then .next ((s.dropOp op).modBay o.bay fun b => (b.count 0 1).count 3 (b2n (decide (0 < o.tries))))
    else .next (s.readFailed o).feed.tidy

/-- FLASH_PROGRAM_DONE (R304, R308): the member is programmed; a failed verify retires the block, and what the block's stripes
hold is written again. -/
def execFlashProgramDone (op : Nat) (ok : Bool) (s : State) : Out :=
  match s.op? op 1 with
  | none => .next s
  | some o =>
    let s := (s.dropOp op).modBay o.bay fun b => b.count 1 1
    if ok then .next (s.memberDone o.stripe o.bay true)
    else
      let s := (s.voidStripe o.stripe).retireBlock o.bay o.group
      .next (if s.movable o.group then (s.relocate o.group).settleStripes else s.settleStripes)

/-- A group whose erases have all ended is free again. -/
def State.freeErased (s : State) (g : Nat) : State :=
  if s.media.ops.any fun o => o.kind == 2 && o.group == g then s
  else s.modMedia fun m => { m with groups := m.groups.filter fun x => !(x.pos == g && x.st == .erasing) }
/-- FLASH_ERASE_DONE (R309): the erase completed and verified, the count rose and is durable, the block is FREE; one that fails
is retired. A suspended erase does not end. -/
def execFlashEraseDone (op : Nat) (ok : Bool) (s : State) : Out :=
  match s.op? op 2 with
  | none => .next s
  | some o =>
    if o.suspended then .next s else
    let s := s.dropOp op
    let clean := fun (x : Block) => { x with st := .free, erases := x.erases + 1, reads := 0, durable := 0, pslc := false, timeouts := 0 }
    let s := if ok then (s.modBay o.bay fun b => (b.count 2 1).modBlock (b.phys o.group) clean).updateWear o.bay
      else s.retireBlock o.bay o.group
    .next (s.freeErased o.group)

/-- ERASE_SUSPEND (R310): at most twelve times in one erase. -/
def execEraseSuspend (op : Nat) (s : State) : Out :=
  match s.op? op 2 with
  | none => .next s
  | some o =>
    if o.suspended || decide (12 ≤ o.suspends) then .next s else
    .next ((s.modOp op fun o => { o with suspended := true, suspends := o.suspends + 1, served := 0 }).modBay o.bay fun b =>
      b.modBlock (b.phys o.group) fun x => { x with st := .suspended })
/-- ERASE_RESUME (R310). -/
def execEraseResume (op : Nat) (s : State) : Out :=
  match s.op? op 2 with
  | none => .next s
  | some o => if o.suspended then .next (s.resumeErase o) else .next s

/-- An erase is cut off: ERASE_UNKNOWN, counted once (R309, R312). -/
def State.cutErase (s : State) (o : MediaOp) : State :=
  (s.dropOp o.key).modBay o.bay fun b => (b.count 7 1).modBlock (b.phys o.group) fun x => { x with st := .eraseUnknown }
/-- DIE_OP_TIMEOUT (Table 17.9): the die is reset; a block that times out twice is retired. -/
def execDieOpTimeout (op : Nat) (s : State) : Out :=
  match s.opsInSlots.find? (·.key == op) with
  | none => .next s
  | some o =>
    let s := s.modBay o.bay fun b => b.modBlock (b.phys o.group) fun x => { x with timeouts := x.timeouts + 1 }
    let twice := decide (2 ≤ ((s.bay o.bay).block ((s.bay o.bay).phys o.group)).timeouts)
    let s :=
      if o.kind = 0 then (s.readFailed o).feed.tidy
      else if o.kind = 1 then
        ((s.dropOp op).modGroup o.group fun x => { x with st := .closed }).memberDone o.stripe o.bay false
      else (s.cutErase o).freeErased o.group
    .next (if twice then s.retireBlock o.bay o.group else s)

-- Garbage collection, folding, refresh (R306, R313 to R315)

/-- Score of a closed group over one common denominator (R313): 7 (1 − v) + 2 a + (1 − e ÷ E), with D = Q_now − Q_old. -/
def State.gcScore (s : State) (x : Group) (d : Nat) : Int :=
  let e := ((List.range 8).map fun n => ((s.bay n).block ((s.bay n).phys x.pos)).erases).sum
  let rated := 8 * (((s.media.bays.toList.map (·.rated)).foldl Nat.max 0))
  let v := x.valid.length * (3072 / groupPages x.pslc)
  7 * (3072 - (v : Int)) * d * rated + 2 * ((s.media.seq - x.seq : Nat) : Int) * 3072 * rated + ((rated : Int) - e) * 3072 * d
/-- The closed group that gives way: the highest score, ties to the lower position (R313). -/
def State.gcVictim (s : State) : Option Group :=
  let closed := s.media.groups.filter (·.st == .closed)
  let old := (closed.map (·.seq)).foldl Nat.min s.media.seq
  let d := s.media.seq - old
  closed.foldl (fun best x => match best with
    | none => some x
    | some y =>
      if s.gcScore y d < s.gcScore x d || (s.gcScore y d == s.gcScore x d && decide (x.pos < y.pos)) then some x else some y) none
/-- GARBAGE_COLLECTION (R313, R314): closed groups without a valid page are erased first; below 6,098 free groups the best one is
relocated and erased. -/
def execGarbageCollection (s : State) : Out :=
  if !s.writeOk || s.boot.phase != .ready || decide (3 ≤ s.power.st) then .next s else
  match s.media.groups.find? fun x => x.st == .closed && x.valid.isEmpty with
  | some x => .next (s.relocate x.pos)
  | none =>
    if 6098 ≤ s.freeGroups then .next s else
    match s.gcVictim with
    | some x => .next (s.relocate x.pos)
    | none => .next s

/-- FOLD (R306): a pSLC group's valid pages go into a QLC group at its next page, and the pSLC group is erased. -/
def execFold (group target page : Nat) (s : State) : Out :=
  match s.group? group with
  | none => .next s
  | some x =>
    let flying := s.media.stripes.any fun t => t.group == group
    if !s.writeOk || !x.pslc || flying || !(x.st == .closed || x.st == .openPslc) || target == group || !s.placeable target page false ||
        decide (3072 < page + x.valid.length) || decide (3 ≤ s.power.st) || s.boot.phase != .ready then .next s
    else
      let s := if x.valid.isEmpty then s else s.appendPages target (x.valid.map (·.2))
      .next ((s.modMedia fun m => { m with pslcBytes := m.pslcBytes - 98304 * x.pages }).eraseGroup group)

/-- READ_DISTURB_REFRESH (R315): 60,000 reads of a QLC block, 500,000 of a pSLC block. -/
def execReadDisturbRefresh (bay : Fin 8) (group : Nat) (s : State) : Out :=
  let x := (s.bay bay.val).block ((s.bay bay.val).phys group)
  if (if x.pslc then 500000 else 60000) ≤ x.reads && s.movable group then .next (s.relocate group) else .next s

-- Journal and map (R317, R316)

/-- Valid pages whose data a later durable write or a deallocation superseded are invalid. -/
def State.pruneValid (s : State) : State :=
  let ok := fun (p : Nat × Payload) => match p.2 with
    | .host n l q => (s.media.stripes.any fun t => t.load == .host n l q) ||
        ((s.ns? n).map fun x => x.blocks.any fun b => b.1 == l && b.2.1 == q && !b.2.2.isEmpty).getD false
    | _ => true
  s.modMedia fun m => { m with groups := m.groups.map fun (x : Group) => { x with valid := x.valid.filter ok } }
/-- Every block of a write that is still in the buffer has a durable stripe that waits for the journal. -/
def State.allStriped (s : State) (seq : Nat) : Bool :=
  (s.nvme.buffer.filter (·.seq == seq)).all fun b =>
    s.media.stripes.any fun t => t.load == .host b.nsid b.lba seq && s.media.journal.contains t.key
/-- Sequence numbers of writes with stripes in the journal's queue. -/
def State.journalSeqs (s : State) : List Nat :=
  ((s.media.stripes.filter fun t => s.media.journal.contains t.key).filterMap fun t =>
    match t.load with | .host _ _ q => some q | _ => none).eraseDups
/-- A stripe carries data of a write. -/
def Stripe.carries (t : Stripe) (seq : Nat) : Bool := match t.load with | .host _ _ q => q == seq | _ => false
/-- JOURNAL_PROGRAM (R287, R317): a write's records are committed together, once all its pages are durable. -/
def execJournalProgram (s : State) : Out :=
  if s.media.journal.isEmpty || !s.writeOk then .next s else
  let done := s.journalSeqs.filter s.allStriped
  let s := done.foldl State.commitWrite s
  let s := s.modMedia fun m =>
    let left := m.stripes.filter fun t => !(done.any t.carries)
    { m with stripes := left, journal := m.journal.filter fun k => left.any (·.key == k)
             journalBytes := m.journalBytes + 18432, seq := m.seq + 8 }
  .next s.pruneValid

/-- MAP_CHECKPOINT (R317): the two copies alternate. -/
def execMapCheckpoint (s : State) : Out :=
  if !s.writeOk then .next s else .next (s.modMedia fun m => { m with checkpoint := 1 - m.checkpoint, journalBytes := 0 })

/-- Read counts and caddy counters become durable (R315, R325). -/
def State.persistCounters (s : State) : State :=
  let keep := fun (x : Nat × Block) => (x.1, { x.2 with durable := x.2.reads })
  let save := fun (b : Bay) => if b.isReadable then { b with durable := b.counters, blocks := b.blocks.map keep } else b
  s.modMedia fun m => { m with bays := m.bays.map save }
/-- COUNTER_PERSIST (R315, R325). -/
def execCounterPersist (s : State) : Out := .next s.persistCounters

/-- MAP_REBUILD_DONE (R319, R390): the media are ready, PF0 serves I/O, PF1 fetches. -/
def execMapRebuildDone (s : State) : Out := .next (s.modMedia fun m => { m with rebuildingMap := false })

-- Scrub (R227, R228, R361, R362)

/-- Tier code and instance of a memory: family 4 instance and the payload of `HARD_FAULT_COUNTED` (Tables 10.11, 18.1). -/
def tierCodes : MemTier → Nat × Nat × Nat
  | .core n => (n.val, 0, n.val)
  | .quadrant n => (0x40 + n.val, 1, n.val)
  | .dram n => (0x48 + n.val, 2, n.val)
  | .media n => (0x50 + n.val, 3, n.val)
  | .control n => (0x58 + n.val, 4, n.val)

end Sys2Proof.Machine
end

