-- ==== Sys2Proof/Machine/Caddies.lean ====
section
/-! DEFINITION. Caddies in their bays (chapter 13, second part; R355, R388, R427, R443, R444): insertion, authentication, classes,
removal, levers, trips, rebuild, lanes, indicators. -/

namespace Sys2Proof.Machine

/-- Bays are powered: order 9 of Table 17.1 and later, and not in PS3 or PS4 (Tables 16.10, 17.1). -/
def State.bayPower (s : State) : Bool := (s.boot.phase == .booting || s.boot.phase == .ready) && decide (s.power.st < 3)
/-- A bay is powered and its caddy brought up from order 1 (Table 13.12); behind an optical engine that has failed the caddy is
treated as failed (R367). -/
def State.powerBay (s : State) (n : Nat) : State :=
  if s.boot.engines.contains n then s.modBay n fun b => { b with stage := .idle, safe := false, removing := false, lanes := 0, lanesOut := [], st := 6 } else
  let s := s.clearCounters 5 (· == n) fun i => decide (8 ≤ i)
  s.modBay n fun b => { b with stage := .powering, safe := false, removing := false, lanes := 0, lanesOut := [], st := 0 }

/-- `CADDY_INSERTED` (Table 10.11); none for a caddy present at a start (R391). -/
def State.postInserted (s : State) (n auth : Nat) : State :=
  let b := s.bay n
  let s := if b.quiet then s else s.modEvent 0x0003 (natLe 1 n ++ natLe 1 auth ++ zeros 6 ++ natLe 8 b.serial)
  s.modBay n fun b => { b with announced := true, quiet := false }
/-- `CADDY_REMOVED`, once for each removal, when the caddy had been announced (R324). -/
def State.postRemoved (s : State) (n : Nat) : State :=
  let b := s.bay n
  if !b.announced then s else
  (s.modBay n fun b => { b with announced := false }).modEvent 0x0004 (natLe 1 n ++ zeros 7 ++ natLe 8 b.serial)

/-- A failure at orders 3 to 5: the caddy is refused and its bay powered down (R323). -/
def State.refuseCaddy (s : State) (n : Nat) : State :=
  (s.modBay n fun b => { b with stage := .idle, st := 5, lanes := 0 }).postInserted n 0

/-- The member of a bay becomes absent: every valid stripe lacks it (R305, R324). -/
def State.memberAbsent (s : State) (n : Nat) : State :=
  let add := fun (x : Group) => { x with degraded := x.valid.map fun p =>
    (p.1, ((((x.degraded.lookup p.1).getD []) ++ [n]).eraseDups)) }
  (s.modBay n fun b => { b with absent := true, rebuild := none }).modMedia fun m => { m with
    groups := m.groups.map add, rebuilds := m.rebuilds.erase n }
/-- What leaves with a member: the epoch moves and its member is absent; another caddy's leaving changes neither (R324). -/
def State.leaveSet (s : State) (n : Nat) : State :=
  if (s.bay n).member.isNone then s else
  let s := s.modBay n fun b => { b with member := none }
  (s.memberAbsent n).bumpEpoch

/-- Operations in flight to a lost caddy: reads are reconstructed at once, programs are cut off and their stripes finish
without it, erases are cut off (R304, R324). -/
def State.cutBay (s : State) (n : Nat) : State :=
  ((s.media.ops.filter (·.bay == n)).foldl (fun s o =>
    if o.kind = 0 then (s.dropOp o.key).originalBad o.read false
    else if o.kind = 1 then (s.dropOp o.key).memberDone o.stripe n false
    else (s.cutErase o).freeErased o.group) s).feed

/-- A caddy whose link is lost for good is treated as failed: its member is absent (R302, R305). -/
def State.failCaddy (s : State) (n : Nat) : State :=
  ((s.modBay n fun b => { b with st := 6, stage := .idle, lanes := 0 }).cutBay n).memberAbsent n

/-- CADDY_INSERT (Table 13.12, order 1). -/
def execCaddyInsert (bay : Fin 8) (s : State) : Out :=
  let n := bay.val
  if (s.bay n).present then .next s else
  let s := s.modBay n fun b => { b with
    present := true, stage := .idle, serial := 0, st := 0, lever := false, announced := false, quiet := false, member := none
    readOnly := false, safe := false }
  .next (if s.bayPower then s.powerBay n else s)

/-- CADDY_LINK_TRAINED (order 3, R302): fewer than eight lanes refuse the caddy. -/
def execCaddyLinkTrained (bay : Fin 8) (lanes : Fin 13) (s : State) : Out :=
  let n := bay.val
  if (s.bay n).stage != .powering then .next s
  else if lanes.val < 8 then .next (s.refuseCaddy n)
  else .next (s.modBay n fun b => { b with stage := .linked, lanes := lanes.val })

/-- CADDY_AUTHENTICATE (order 4, R320, R374). -/
def execCaddyAuthenticate (bay : Fin 8) (ident : CaddyIdent) (s : State) : Out :=
  let n := bay.val
  if (s.bay n).stage != .linked then .next s else
  let ok := ident.magicOk && ident.formatOk && ident.compat == 1 && ident.keyDigestOk && ident.chainOk && ident.sigOk
  let s := s.modBay n fun b => { b with serial := ident.serial, rated := ident.rated, stage := .authentic }
  .next (if ok then s else s.refuseCaddy n)

/-- A class of Table 13.13. -/
inductive CaddyClass where
  | returning
  | stale
  | blank
  | foreign
deriving DecidableEq, Repr

/-- Stripes were written that lack the bay's member (R305, R323). -/
def State.lacks (s : State) (n : Nat) : Bool := s.media.groups.any fun g => g.degraded.any fun d => d.2.contains n
/-- The class of a caddy found in bay `n` (Table 13.13). -/
def State.classOf (s : State) (n : Nat) (found : CaddyMeta) : CaddyClass :=
  if !found.readable then .foreign else
  match found.membership with
  | none => .blank
  | some (d, b, e) =>
    if d != s.sec.identity.toNat % 2 ^ 64 then .foreign
    else if b == n && e == s.media.epoch && !s.lacks n && !(s.bay n).absent then .returning
    else .stale

/-- The caddy joins the set as the bay's member: record written, wear log entry 1; a worn-out one is read-only at once and gets no
rebuild, any other gets one where a member is to be rebuilt (R321 to R323). -/
def State.joinSet (s : State) (n : Nat) : State :=
  let d := s.sec.identity.toNat % 2 ^ 64
  let e := s.media.epoch
  let others := (List.range 8).any fun k => k != n && (s.bay k).present && (s.bay k).readOnly
  let due := (s.bay n).absent || s.lacks n || others
  let s := (s.modBay n fun b => { b with member := some (d, n, e), st := 1 }).wearEntry n 1
  if 100 ≤ (s.bay n).wearUsed then s.makeReadOnly n
  else if !due then s
  else (s.modBay n fun b => { b with st := 2, rebuild := some 0, rebuilt := 0, absent := true }).modMedia fun m => { m with
    rebuilds := m.rebuilds.erase n ++ [n] }
/-- The blocks of a caddy whose contents are not read: erase counts stand, every state is ERASE_UNKNOWN (Table 13.13, R323). -/
def State.forgetBlocks (s : State) (n : Nat) : State :=
  s.modBay n fun b => { b with
    blocks := [], remap := [], blank := { st := .eraseUnknown, erases := ceilDiv (b.wearUsed * b.rated) 100 } }
/-- Adoption (R323, R325): counters and temperatures start anew, the epoch moves, the caddy joins. -/
def State.adopt (s : State) (n : Nat) : State :=
  let s := s.modBay n fun b => { b with
    counters := Vector.replicate 8 0, durable := Vector.replicate 8 0, tempMax := 0, tempHist := Vector.replicate 16 0, stage := .up }
  (((s.forgetBlocks n).modBay n fun b => { b with member := some (0, n, 0), st := 1 }).bumpEpoch).joinSet n

/-- CADDY_CLASSIFY (orders 5 to 7, R323): refused for its bad blocks, or classed, announced and acted on. A member that comes
back from PS3 as it left is not announced (Table 16.11). -/
def execCaddyClassify (bay : Fin 8) (found : CaddyMeta) (s : State) : Out :=
  let n := bay.val
  if (s.bay n).stage != .authentic then .next s
  else if !found.badMapOk then .next (s.refuseCaddy n) else
  let cls := s.classOf n found
  let read := Vector.ofFn fun (i : Fin 8) => found.counters.getD i.val 0
  let s := s.modBay n fun b => { b with
    stage := .up, wearUsed := found.wearUsed, spareLeft := found.spareLeft, counters := read, durable := read, readOnly := false }
  match cls with
  | .returning =>
    let s := if (s.bay n).member.isSome then s else s.postInserted n 1
    let s := s.modBay n fun b => { b with
      member := found.membership, st := if b.rebuild.isSome then 2 else 1, absent := b.rebuild.isSome, announced := true, quiet := false }
    .next (if 100 ≤ found.wearUsed then s.modBay n fun b => { b with readOnly := true, st := 3 } else s)
  | .stale =>
    let serial := (s.bay n).serial
    let s := (s.postInserted n 1).forgetBlocks n
    let s := if s.media.unrecorded.contains serial then
        (s.wearEntry n 3).modMedia fun m => { m with unrecorded := m.unrecorded.erase serial } else s
    .next (((s.modBay n fun b => { b with member := some (0, n, 0), st := 1, absent := true }).bumpEpoch).joinSet n)
  | .blank => .next ((s.postInserted n 1).adopt n)
  | .foreign => .next ((s.postInserted n 1).modBay n fun b => { b with st := 4, member := none })

-- Removal (R324, R427, R443)

/-- A removal request on a bay (R324, R427): a refused one shows `SAFE` at once; on any other it acts, and a rebuild into the bay ends. -/
def State.requestRemoval (s : State) (n : Nat) : State :=
  let b := s.bay n
  if !b.present || b.st == 7 then s
  else if b.st == 5 then s.modBay n fun b => { b with safe := true }
  else (s.modBay n fun b => { b with removing := true, rebuild := none }).modMedia fun m => { m with rebuilds := m.rebuilds.erase n }
/-- Bay control is ignored in BLANK and RETURN (R427). -/
def State.bayControl (s : State) : Bool := s.sec.lifecycle == .provisioned || s.sec.lifecycle == .operational
def State.bayRemove (s : State) (n : Nat) : State := if s.bayControl then s.requestRemoval n else s
def State.bayAdopt (s : State) (n : Nat) : State := if s.bayControl && (s.bay n).st == 4 then s.adopt n else s
/-- BAY_REMOVE (R427). -/
def execBayRemove (bay : Fin 8) (s : State) : Out := .next (s.bayRemove bay.val)
/-- BAY_ADOPT (R427): it acts only in state 4. -/
def execBayAdopt (bay : Fin 8) (s : State) : Out := .next (s.bayAdopt bay.val)

/-- LEVER_OPEN (R443): of a seated member caddy it requests the removal; of a refused bay it shows `SAFE`. -/
def execLeverOpen (bay : Fin 8) (s : State) : Out :=
  let b := s.bay bay.val
  if !b.present then .next s else
  let s := s.modBay bay.val fun b => { b with lever := true }
  .next (if b.st == 1 || b.st == 2 || b.st == 3 || b.st == 5 || b.st == 6 then s.requestRemoval bay.val else s)
/-- LEVER_CLOSE (R443): on a bay that is `SAFE` it powers the bay again. -/
def execLeverClose (bay : Fin 8) (s : State) : Out :=
  let b := s.bay bay.val
  let s := s.modBay bay.val fun b => { b with lever := false }
  .next (if b.present && b.safe then
    if s.bayPower then (s.powerBay bay.val).modBay bay.val fun b => { b with tripped := false }
    else s.modBay bay.val fun b => { b with safe := false, st := 0 } else s)

/-- REMOVAL_QUIESCED (R324): once no operation is in flight to the bay, a member's records are written, the bay is powered down and
released, and the removal is announced. -/
def execRemovalQuiesced (bay : Fin 8) (s : State) : Out :=
  let n := bay.val
  let b := s.bay n
  if !b.removing || s.media.ops.any (·.bay == n) then .next s else
  let s := if b.member.isSome then s.wearEntry n 2 else s
  let s := s.modBay n fun b => { b with removing := false, stage := .idle, safe := true, st := 7, lanes := 0, readOnly := false }
  .next ((s.postRemoved n).leaveSet n)

/-- CADDY_SURPRISE_REMOVAL (R324): loss of the link of a powered caddy. -/
def execCaddySurpriseRemoval (bay : Fin 8) (s : State) : Out :=
  let n := bay.val
  let b := s.bay n
  if !b.present || b.stage == .idle then .next s else
  let s := (s.postRemoved n).modBay n fun b => { b with
    present := false, stage := .idle, st := 0, lanes := 0, removing := false, safe := false, tripped := false, readOnly := false }
  let s := if b.member.isSome then s.modMedia fun m => { m with unrecorded := m.unrecorded ++ [b.serial] } else s
  .next (((s.cutBay n).leaveSet n).modBay n fun b => { b with serial := 0 })

/-- CADDY_PULLED (R324): a caddy leaves a bay that is powered down; one that was powered down without a request is announced. -/
def execCaddyPulled (bay : Fin 8) (s : State) : Out :=
  let n := bay.val
  let b := s.bay n
  if !b.present || b.stage != .idle then .next s else
  let s := if b.st == 7 then s else (s.postRemoved n).leaveSet n
  .next (s.modBay n fun b => { b with present := false, st := 0, safe := false, serial := 0, lanes := 0, removing := false, tripped := false, readOnly := false })

-- Thermal trips of a caddy (R388)

/-- CADDY_TRIP (R388): powered down as in a requested removal. -/
def execCaddyTrip (bay : Fin 8) (s : State) : Out :=
  if (s.bay bay.val).present && (s.bay bay.val).stage != .idle then
    .next ((s.requestRemoval bay.val).modBay bay.val fun b => { b with tripped := true })
  else .next s
/-- CADDY_COOL_EXPIRY (R388): the bay is powered up again and the caddy classed. -/
def execCaddyCoolExpiry (bay : Fin 8) (s : State) : Out :=
  let b := s.bay bay.val
  if b.present && b.tripped && b.stage == .idle && s.bayPower then
    .next ((s.powerBay bay.val).modBay bay.val fun b => { b with tripped := false })
  else .next s

-- Rebuild (R327 to R330)

/-- Percent of the groups walked. -/
def walked (k : Nat) : Nat := 100 * k / 304896
/-- Where the walk stands after one more step: past the next group that lacks the member, but not beyond the next whole percent. -/
def State.walkTo (s : State) (n k : Nat) : Nat :=
  let lacking := (s.media.groups.filter fun g => decide (k ≤ g.pos) && g.degraded.any fun d => d.2.contains n).map (·.pos)
  let stop := ceilDiv ((walked k + 1) * 304896) 100
  Nat.min (lacking.foldl Nat.min stop + 1) stop
/-- The stripes of a group get the bay's member (R327). -/
def Group.rebuild (g : Group) (n : Nat) : Group :=
  { g with degraded := (g.degraded.map fun d => (d.1, d.2.filter (· != n))).filter fun d => !d.2.isEmpty }
/-- The rebuild into a bay is complete (R330): its member counts again, wear log entry 5. -/
def State.rebuildDone (s : State) (n : Nat) : State :=
  ((s.modBay n fun b => { b with rebuild := none, absent := false, st := 1 }).modMedia fun m => { m with rebuilds := m.rebuilds.erase n }).wearEntry n 5
/-- REBUILD_GROUP (R327 to R330): the first bay due has its next group's stripes rebuilt from six other members, the mark moves,
progress is posted at each whole percent. -/
def execRebuildGroup (bay : Fin 8) (s : State) : Out :=
  let n := bay.val
  match (s.bay n).rebuild with
  | none => .next s
  | some k =>
    if s.media.rebuilds.head? != some n || !(s.bay n).isWritable || decide (((s.readables).filter (· != n)).length < 6) ||
        decide (3 ≤ s.power.st) || s.boot.phase != .ready then .next s else
    let stop := s.walkTo n k
    let here := s.media.groups.filter fun g => decide (k ≤ g.pos) && decide (g.pos < stop)
    let stripes := (here.map fun g => (g.degraded.filter fun d => d.2.contains n).length).sum
    let s := s.modMedia fun m => { m with groups := m.groups.map fun g => if decide (k ≤ g.pos) && decide (g.pos < stop) then g.rebuild n else g }
    let s := s.modBay n fun (b : Bay) => { (b.count 5 stripes).count 1 stripes with rebuild := some stop, rebuilt := b.rebuilt + stripes }
    let s := if walked k < walked stop then
        s.modEvent 0x0006 (natLe 1 n ++ natLe 1 (walked stop) ++ zeros 6 ++ natLe 8 (s.bay n).rebuilt) else s
    .next (if 304896 ≤ stop then s.rebuildDone n else s)

-- Lanes (R302, R355)

/-- CADDY_LANE_FRAME_FAIL (R355): the lane is out of service; with fewer than eight left the caddy is treated as failed (R302). -/
def execCaddyLaneFrameFail (bay : Fin 8) (lane : Fin 12) (s : State) : Out :=
  let n := bay.val
  let b := s.bay n
  if b.stage == .idle || b.stage == .powering || b.lanes == 0 || b.lanesOut.contains lane.val then .next s else
  let s := (s.modBay n fun b => { b with lanes := b.lanes - 1, lanesOut := b.lanesOut ++ [lane.val] }).count 5 n 9 1
  let s := s.count 5 n 8 8
  if 8 ≤ b.lanes - 1 then .next s else .next (s.failCaddy n)

-- Indicators (R444)

/-- Amber indicator of a bay (Table 20.5): 0 off, 1 slow flash, 2 steady. -/
def Bay.amber (b : Bay) : Nat := if b.st == 2 then 1 else if b.st == 3 || b.st == 4 || b.st == 5 || b.st == 6 then 2 else 0
/-- Blue indicator of a bay (Table 20.5): 0 off, 1 fast flash, 2 steady. -/
def Bay.blue (b : Bay) : Nat := if b.removing then 1 else if b.safe then 2 else 0

end Sys2Proof.Machine
end

