-- ==== Sys2Proof/Machine/Firmware.lean ====
section
/-! DEFINITION. Firmware slots, commits and activation without reset (chapter 17, R403 to R405; chapter 16, R375 to R377). -/

namespace Sys2Proof.Machine

/-- The control cores run and PF1's registers answer (R390, R406, Table 17.1). -/
def Boot.up (b : Boot) : Bool := match b.phase with
  | .training => true
  | .booting => true
  | .ready => true
  | _ => false

/-- Codes of Table 16.7. -/
def Lifecycle.code : Lifecycle → Nat
  | .blank => 0
  | .provisioned => 1
  | .operational => 2
  | .returned => 3
def Debug.code : Debug → Nat
  | .closed => 0
  | .service => 1
  | .opened => 2

/-- Slot 1 or 2. -/
def State.slot (s : State) (n : Nat) : FwSlot := s.boot.slots[n - 1]?.getD {}
def State.modSlot (s : State) (n : Nat) (f : FwSlot → FwSlot) : State :=
  s.modBoot fun b => { b with slots := b.slots.setIfInBounds (n - 1) (f (s.slot n)) }
/-- The slot that is not running. -/
def State.inactive (s : State) : Nat := 3 - s.boot.active

/-- The checks of Table 16.4, each as the element answered it, and those on the module's own counters (R376, R377). -/
def State.manifestOk (s : State) (m : Manifest) : Bool :=
  m.magicOk && decide (m.length ≤ 2 ^ 28) && decide (m.keyIndex < 4) && !s.boot.revoked.getLsbD m.keyIndex && m.keyDigestOk &&
  m.sigOk && decide (s.boot.rollback ≤ m.svn) && !bit m.revoke m.keyIndex && m.componentsOk
/-- A slot that boots: committed, and its manifest passes (R376, R406). -/
def State.boots (s : State) (n : Nat) : Bool := match (s.slot n).record with | some m => s.manifestOk m | none => false

/-- Firmware commands are served in PROVISIONED and OPERATIONAL (Table 16.9). -/
def State.fwServed (s : State) : Bool := s.sec.lifecycle == .provisioned || s.sec.lifecycle == .operational

/-- FIRMWARE_IMAGE_DOWNLOAD (R403): to the inactive slot alone; the first one after a start or a commit clears its record. -/
def execFirmwareImageDownload (c : NvCmd) (offset : Nat) (data : Bytes) (s : State) : Out := .next (s.nvRun fun s =>
  if !s.fwServed then s.nvDone c .invalidField 0
  else if s.boot.pointer ≠ s.boot.active then s.nvDone c .sequenceError 0
  else if offset % 4096 ≠ 0 ∨ data.length % 4096 ≠ 0 then s.nvDone c .invalidField 0
  else (s.modSlot s.inactive fun k => { k with
    record := if k.touched then k.record else none, touched := true, image := Memory.writeN k.image offset data }).nvDone c .success 0)

/-- A commit of the inactive slot (R376, R377, Table 17.7): the slot committed, or the command's failing status. -/
def State.commitSlot (s : State) (slot : Nat) (m : Manifest) : Except NvStatus State :=
  if !s.fwServed then .error .invalidField
  else if slot ≠ 0 ∧ slot ≠ s.inactive then .error .invalidFwSlot
  else if !s.manifestOk m then .error .invalidFwImage
  else .ok ((s.modSlot s.inactive fun k => { k with record := some m, commits := k.commits + 1, touched := false }).modBoot fun b =>
    { b with rollback := Nat.max b.rollback m.svn, revoked := b.revoked ||| BitVec.ofNat 4 m.revoke })
/-- Runs what follows a commit. -/
def State.fwCommit (s : State) (c : NvCmd) (slot : Nat) (m : Manifest) (after : State → State) : State := s.nvRun fun s =>
  match s.commitSlot slot m with
  | .error e => s.nvDone c e 0
  | .ok s => after s

/-- FW_COMMIT_REPLACE (CA 000b). -/
def execFwCommitReplace (c : NvCmd) (slot : Nat) (m : Manifest) (s : State) : Out :=
  .next (s.fwCommit c slot m fun s => s.nvDone c .success 0)
/-- FW_COMMIT_ACTIVATE_NEXT (CA 001b): the boot pointer names the slot too. -/
def execFwCommitActivateNext (c : NvCmd) (slot : Nat) (m : Manifest) (s : State) : Out :=
  .next (s.fwCommit c slot m fun s => (s.modBoot fun b => { b with pointer := s.inactive }).nvDone c .success 0)
/-- FW_COMMIT_SELECT_SLOT (CA 010b): a committed slot becomes the boot pointer's. -/
def execFwCommitSelectSlot (c : NvCmd) (slot : Nat) (s : State) : Out := .next (s.nvRun fun s =>
  let n := if slot = 0 then s.inactive else slot
  if !s.fwServed then s.nvDone c .invalidField 0
  else if n ≠ 1 ∧ n ≠ 2 then s.nvDone c .invalidFwSlot 0
  else if (s.slot n).record.isNone then s.nvDone c .invalidFwImage 0
  else (s.modBoot fun b => { b with pointer := n }).nvDone c .success 0)

/-- Activation without reset is possible: same major revision, same element and optical-engine components (R404). -/
def State.sameParts (s : State) (m : Manifest) : Bool :=
  match (s.slot s.boot.active).record with
  | some a => a.version / 2 ^ 24 == m.version / 2 ^ 24 && a.seDigest == m.seDigest && a.oeDigest == m.oeDigest
  | none => false
/-- The hold begins (Table 17.8, order 1): CSTS.PP, the notice, `STATUS` HOLD; nothing more is fetched. -/
def State.beginHold (s : State) (c : NvCmd) : State :=
  (((s.modBoot fun b => { b with hold := some { cmd := c, slot := s.inactive } }).modNvme fun n => { n with paused := true }).nvEvent 0x03).sendStatus
/-- FW_COMMIT_ACTIVATE_NOW (CA 011b, R404). -/
def execFwCommitActivateNow (c : NvCmd) (slot : Nat) (m : Manifest) (s : State) : Out :=
  .next (s.fwCommit c slot m fun s => if s.sameParts m then s.beginHold c else s.nvDone c .needsReset 0)

/-- The hold ends (Table 17.8, order 6): fetch resumes, jobs go on from their points, peers hear of it. -/
def State.endHold (s : State) : State :=
  let s := (s.modBoot fun b => { b with hold := none }).modNvme fun n => { n with paused := false }
  ((List.range 8).foldl State.unpark s).tidy.sendStatus
/-- Core jobs stand at their points or step boundaries (Table 17.8, order 2). -/
def State.coresQuiet (s : State) : Bool :=
  (s.cores.toList.all fun c => match c.run with | some r => r.kind == 0 || r.ended || c.parked | none => true) &&
  s.pots.toList.all fun p => !p.loop.running
/-- ACTIVATION_QUIESCED (Table 17.8, orders 3 to 6): the new firmware runs and the boot pointer names its slot. -/
def execActivationQuiesced (s : State) : Out :=
  match s.boot.hold with
  | none => .next s
  | some h =>
    if !s.coresQuiet then .next s else
    let v := (((s.slot h.slot).record).map (·.version)).getD 0
    .next ((s.modBoot fun b => { b with active := h.slot, pointer := h.slot, version := v }).endHold.nvDone h.cmd .success 0)
/-- ACTIVATION_QUIESCE_EXPIRY (R404): abandoned; the old firmware goes on, the slot stays committed. -/
def execActivationQuiesceExpiry (s : State) : Out :=
  match s.boot.hold with
  | none => .next s
  | some h => .next (s.endHold.nvDone h.cmd .maxTimeViolation 0)

end Sys2Proof.Machine
end

