-- ==== Sys2Proof/Machine/Rings.lean ====
section
/-! DEFINITION. Doorbells, descriptor fetch, ring set-up and interrupts (chapters 10 and 19). -/

namespace Sys2Proof.Machine

/-- The function reaches the ring set of a pot, or with none the module event ring (R232, R431). -/
def State.reaches (s : State) (fn : PcieFn) (pot : Option (Fin 8)) : Bool :=
  match fn with
  | .pf1 => s.carrier pot == 0
  | .vf n => pot == some n && decide (n.val < s.host.numVfs)

/-- What lies at an offset of a BAR2 (R236): pot p's page at p × 0x1000 of PF1's, a pot's own page alone in a VF's; the module event ring's
doorbell at 0x8000 of PF1's. -/
def doorbellAt (fn : PcieFn) (off : Nat) : Option (Option (Fin 8) × RingSel) :=
  let page := fun (p : Fin 8) =>
    let o := off % 0x1000
    if o < 0x80 ∧ o % 8 = 0 then some (some p, RingSel.sq (fin16 (o / 8)))
    else if 0x100 ≤ o ∧ o < 0x180 ∧ o % 8 = 0 then some (some p, RingSel.cq (fin16 ((o - 0x100) / 8)))
    else if o = 0x200 then some (some p, RingSel.ev)
    else none
  match fn with
  | .pf1 => if off < 0x8000 then page (fin8 (off / 0x1000)) else if off = 0x8000 then some (none, .ev) else none
  | .vf n => if off < 0x1000 then page (fin8 n.val) else none
/-- An ignored doorbell write: counted for the pot (R236, R432). -/
def State.ignoredDoorbell (s : State) (pot : Option (Fin 8)) : State :=
  match pot with
  | some p => s.count 2 p.val 42 1
  | none => s

/-- An invalid doorbell write: ignored as a whole, counted, and the ring's `ERROR` is set with cause 2 (R236). -/
def State.badDoorbell (s : State) (pot : Option (Fin 8)) (sel : RingSel) : State :=
  (s.setRing pot sel ((s.ring pot sel).fail 2)).ignoredDoorbell pot

/-- How far an index may move before it passes the other party's position (R236): a tail to one short of the head, a head
to the tail. -/
def Ring.doorbellRoom (r : Ring) (sel : RingSel) : Nat :=
  match sel with
  | .sq _ => (r.moduleIndex.toNat + (r.size - r.hostIndex.toNat) + (r.size - 1)) % r.size
  | _ => (r.moduleIndex.toNat + (r.size - r.hostIndex.toNat)) % r.size

/-- The new index is one that R236 takes. -/
def Ring.doorbellOk (r : Ring) (sel : RingSel) (v : BitVec 32) : Bool :=
  r.enable && decide (v.toNat < 2 ^ 16) && decide (v.toNat < r.size) &&
  decide ((v.toNat + (r.size - r.hostIndex.toNat)) % r.size ≤ r.doorbellRoom sel)

/-- A doorbell write (R236, R237, R432): 32 bits only, valid or ignored as a whole. -/
def State.doorbell (s : State) (fn : PcieFn) (pot : Option (Fin 8)) (sel : RingSel) (size : Nat) (v : BitVec 32) : State :=
  if !s.reaches fn pot then s
  else if size ≠ 4 then s.ignoredDoorbell pot
  else
    let r := s.ring pot sel
    if r.doorbellOk sel v then
      let s := s.setRing pot sel { r with hostIndex := v.truncate 16 }
      match pot, sel with
      | some p, .cq c => s.drainHeld p c r.held.length
      | _, _ => s
    else s.badDoorbell pot sel

/-- SQ_TAIL_DOORBELL (R236), at an offset in a 4 KiB page of BAR2: what host software wrote to host memory first is visible, then the tail moves. -/
def execSqTailDoorbell (fn : PcieFn) (page off size : Nat) (value : BitVec 32) (host : List (Nat × Byte)) (s : State) : Out :=
  let s := s.modHost fun h => { h with mem := host.foldl (fun m w => Memory.write m (w.1 % 2 ^ 64) w.2) h.mem }
  match doorbellAt fn (0x1000 * page + off) with
  | some (some p, .sq i) => .next (s.doorbell fn (some p) (.sq i) size value)
  | _ => .next s

/-- CQ_HEAD_DOORBELL (R236, R237), at an offset in a 4 KiB page of BAR2: freed slots take held entries. -/
def execCqHeadDoorbell (fn : PcieFn) (page off size : Nat) (value : BitVec 32) (s : State) : Out :=
  match doorbellAt fn (0x1000 * page + off) with
  | some (some p, .cq c) => .next (s.doorbell fn (some p) (.cq c) size value)
  | _ => .next s

/-- EVENT_HEAD_DOORBELL (R236), at an offset in BAR2. -/
def execEventHeadDoorbell (fn : PcieFn) (off size : Nat) (value : BitVec 32) (s : State) : Out :=
  match doorbellAt fn off with
  | some (pot, .ev) => .next (s.doorbell fn pot .ev size value)
  | _ => .next s

-- Fetch (R233, R246, R249)

/-- PF1 fetches at all: ready, no map rebuild (R390), PS0 or PS1 and no step to PS2 (R385, R386), no activation hold
(R404), no PCIe retraining (R360), control cores running (R414). -/
def State.fetches (s : State) : Bool :=
  s.boot.phase == .ready && !s.media.rebuildingMap && decide (s.power.st ≤ 1) && s.power.step != some 2 &&
  s.boot.hold.isNone && !s.host.retraining && s.power.halted == 0

/-- Jobs of a pot in flight: fetched, `LAST` not yet posted (R246). -/
def State.inFlight (s : State) (p : Nat) : Nat := (s.jobs.filter fun j => j.pot == p && j.remote.isNone).length + (s.heldLast p).length

/-- The in-flight limits let pot `p` fetch: below its 512, or room in the shared part (R246). -/
def State.flightRoom (s : State) (p : Nat) : Bool :=
  let pots := (List.range 8).filter s.potEnabled
  let used := (pots.map fun q => s.inFlight q - 512).sum
  decide (s.inFlight p < 512) || decide (used < 8192 - 512 * pots.length)

/-- A submission ring from which the next descriptor can come: enabled, not empty, its completion ring not full (R237). -/
def State.fetchable (s : State) (p : Fin 8) (i : Fin 16) : Bool :=
  let r := s.ring (some p) (.sq i)
  let c := s.ring (some p) (.cq (fin16 r.targetCq.toNat))
  r.enable && r.moduleIndex != r.hostIndex && c.held.isEmpty && !c.full

/-- The ring the queue core takes next, in round-robin order (R233). -/
def State.nextRing (s : State) (p : Fin 8) : Option (Fin 16) :=
  ((List.range 16).map fun k => fin16 ((s.host.next[p] + k) % 16)).find? (s.fetchable p)

/-- The pot fetches: it runs, and the limits allow. -/
def State.canFetch (s : State) (p : Fin 8) : Bool := s.fetches && (s.pot p).st == 1 && s.flightRoom p

/-- A descriptor fetch that PCIe completed with an error: `ENABLE` is cleared, `ERROR` set with cause 3 (R249). -/
def State.fetchFailed (s : State) (p : Fin 8) (i : Fin 16) : State :=
  let s := s.setRing (some p) (.sq i) { (s.ring (some p) (.sq i)).fail 3 with enable := false }
  s.modHost fun h => { h with next := h.next.set p ((i.val + 1) % 16) }

/-- The job types that Table 10.3 assigns. -/
def assignedType (t : Nat) : Bool := decide (1 ≤ t) && decide (t ≤ 0x15)

/-- DESCRIPTOR_FETCH (R233, R246): one 128-byte descriptor of the next ring becomes a job in flight; one of a type that no table
assigns fails check 1 of Table 10.6 at once (R9). -/
def execDescriptorFetch (pot : Fin 8) (s : State) : Out :=
  if !s.canFetch pot then .next s else
  match s.nextRing pot with
  | none => .next s
  | some i =>
    let r := s.ring (some pot) (.sq i)
    match s.hostRead (r.slot 128) 128 with
    | none => .next (s.fetchFailed pot i)
    | some d =>
      let j : Job := { key := s.nextId, pot := pot.val, ring := i.val, cq := r.targetCq.toNat, desc := d, fetchedAt := s.time }
      let s := (s.hostSeen (r.slot 128) 128).setRing (some pot) (.sq i) r.advance
      let s : State := { s with
        host := { s.host with next := s.host.next.set pot ((i.val + 1) % 16) }
        jobs := s.jobs ++ [j], nextId := s.nextId + 1 }
      .next (if assignedType j.type then s else s.refuseJob j.key 0x10)

/-- DESCRIPTOR_FETCH_FAILED (R249). -/
def execDescriptorFetchFailed (pot : Fin 8) (s : State) : Out :=
  if !s.canFetch pot then .next s else
  match s.nextRing pot with
  | none => .next s
  | some i => .next (s.fetchFailed pot i)

-- Ring set-up (R429)

/-- Why an enabled write fails its check: 1 size, 4 vector, 5 completion ring dependency (R429). -/
def State.ringFault (s : State) (pot : Option (Fin 8)) (sel : RingSel) (r : Ring) : Option (BitVec 3) :=
  let n := r.sizeLog2.toNat
  let top := if s.carrier pot = 0 then 136 else 16
  if n < 6 ∨ 16 < n then some 1
  else match pot, sel with
    | some p, .sq _ => if (s.ring (some p) (.cq (fin16 r.targetCq.toNat))).enable then none else some 5
    | _, _ => if top < r.vector.toNat then some 4 else none

/-- An enabled SQ names this CQ, or a fetched job still owes it entries, some of them held perhaps (R233, R429). -/
def State.cqOwed (s : State) (p : Fin 8) (c : Fin 16) : Bool :=
  ((List.finRange 16).any fun i => (s.ring (some p) (.sq i)).enable && (s.ring (some p) (.sq i)).targetCq.toNat == c.val) ||
  (s.jobs.any fun j => j.pot == p.val && j.cq == c.val) || !(s.ring (some p) (.cq c)).held.isEmpty ||
  s.host.linkHeld.any fun e => e.1 == p.val && e.2.1 == c.val

/-- What enabling a ring does beside its indices: ring counters and deficit start at zero (Table 18.1, R265), a loss log
is announced (R391), and OPEN is told to the pot (R383). -/
def State.onEnable (s : State) (pot : Option (Fin 8)) (sel : RingSel) : State :=
  match pot, sel with
  | none, _ =>
    if s.boot.lossDue then
      let ns := (s.nvme.loss.map (·.nsid)).eraseDups
      (s.modBoot fun b => { b with lossDue := false }).modEvent 0x0009
        (natLe 4 ns.length ++ zeros 4 ++ natLe 8 s.nvme.loss.length)
    else s
  | some p, .sq i =>
    (s.clearCounters 3 (· == 16 * p.val + i.val) fun _ => true).modPot p fun q =>
      { q with deficit := q.deficit.setIfInBounds i.val 0, charged := q.charged.setIfInBounds i.val 0 }
  | some p, .ev =>
    if s.sec.debug == .opened && !s.boot.openPosted.contains p.val then
      (s.modBoot fun b => { b with openPosted := b.openPosted ++ [p.val] }).postEvent (some p) 0x0007 0 0xFFFF 0xFFFF
        (natLe 1 2 ++ natLe 1 0xFF ++ zeros 14)
    else s
  | some _, .cq _ => s

/-- A write of a ring's configuration word (Table 19.8, R429, R390): bits [31:0] when `lo`, [63:32] when `hi`. -/
def State.ringCfg (s : State) (pot : Option (Fin 8)) (sel : RingSel) (lo hi : Bool) (v : BitVec 64) : State :=
  let r := s.ring pot sel
  let n := v.toNat
  let isSq := match pot, sel with | some _, .sq _ => true | _, _ => false
  let r := if hi then { r with coalCount := BitVec.ofNat 16 (bits n 47 32), coalTime := BitVec.ofNat 16 (bits n 63 48) } else r
  if !lo then s.setRing pot sel r else
  let r := if bit n 9 then { r with error := false } else r
  let r := if isSq then r else { r with vector := BitVec.ofNat 8 (bits n 31 24) }
  let r := if r.enable then r else { r with
    sizeLog2 := BitVec.ofNat 5 (bits n 4 0), targetCq := if isSq then BitVec.ofNat 4 (bits n 19 16) else 0 }
  if bit n 8 then
    if r.enable || s.boot.phase != .ready then s.setRing pot sel r
    else match s.ringFault pot sel r with
      | some c => s.setRing pot sel (r.fail c)
      | none => (s.setRing pot sel { r with
          enable := true, moduleIndex := 0, hostIndex := 0, phase := true, held := [], unannounced := 0, coalArmed := false }).onEnable pot sel
  else match pot, sel with
    | some p, .cq c => if r.enable && s.cqOwed p c then s.setRing pot sel (r.fail 5) else s.setRing pot sel { r with enable := false }
    | _, _ => s.setRing pot sel { r with enable := false }

/-- RING_ENABLE (R429): the configuration word written with `ENABLE` as 1. -/
def execRingEnable (fn : PcieFn) (pot : Option (Fin 8)) (ring : RingSel) (value : BitVec 64) (s : State) : Out :=
  if s.reaches fn pot then .next (s.ringCfg pot ring true true (value ||| 0x100)) else .next s

/-- The low half of a ring's configuration word as it reads, with `ENABLE` as given and `ERROR` untouched. -/
def Ring.cfgLow (r : Ring) (enable : Bool) : Nat :=
  r.sizeLog2.toNat + 2 ^ 8 * b2n enable + 2 ^ 16 * r.targetCq.toNat + 2 ^ 24 * r.vector.toNat

/-- RING_DISABLE (R429): the configuration word written with `ENABLE` as 0 and the rest as it was. -/
def execRingDisable (fn : PcieFn) (pot : Option (Fin 8)) (ring : RingSel) (s : State) : Out :=
  if s.reaches fn pot then
    .next (s.ringCfg pot ring true false (BitVec.ofNat 64 ((s.ring pot ring).cfgLow false)))
  else .next s

/-- COALESCE_TIMER_EXPIRY (R430): `COAL_TIME` has passed since the first unannounced entry. -/
def execCoalesceTimerExpiry (pot : Option (Fin 8)) (ring : RingSel) (s : State) : Out :=
  let r := s.ring pot ring
  if r.coalArmed && decide (0 < r.unannounced) then .next (s.raiseRing pot ring) else .next s

end Sys2Proof.Machine
end

