-- ==== Sys2Proof/Machine/Peers.lean ====
section
/-! DEFINITION. Peer links (chapter 14): training and HELLO, flits and replay, lanes, retrains and losses, STATUS, announces and
grants, data placed or applied, answers, steps closed together. -/

namespace Sys2Proof.Machine

-- Losing a peer (R352)

/-- A transfer that this module sent has ended with a status: what waited on it goes on or fails (R345, R352). -/
def State.xferEnded (s : State) (port ord : Nat) (x : XferOut) (st : Nat) : State :=
  let ok := decide (st < 0x10)
  match x.desc.kind with
  | 1 => match x.core with
    | none => s
    | some (c, num) =>
      if !ok then match s.job? x.job with
        | some _ => s.abortJob x.job (peerStatus st)
        | none => s
      else
        let s := s.modCore c fun k => { k with moves := k.moves.map fun m =>
          if m.num == num then { m with peers := m.peers.erase (port, x.tag) } else m }
        match s.move? c num with
        | some m => if m.peers.isEmpty then s.endMove c num c else s
        | none => s
  | 2 => if ok then s else s.endWait x.job x.item (peerStatus st)
  | 4 => s.rowsAnswer x.job x.item ord st
  | 5 => s.rowsAnswer x.job x.item ord st
  | 6 => if (s.job? x.job).isSome then s.memberAnswer x.job ord st else s
  | 7 => if ok then s else s.abortJob x.job (peerStatus st)
  | 8 => if ok then s else s.abortJob x.job (peerStatus st)
  | _ => s
/-- The outgoing transfer of a tag is over. -/
def State.closeXfer (s : State) (port tag st : Nat) : State :=
  let p := s.port port
  match p.out.find? fun x => x.tag == tag && !x.standing with
  | none => s.modPort port fun q => { q with out := q.out.filter fun x => !(x.tag == tag && x.standing) }
  | some x =>
    let s := s.modPort port fun q => { q with out := q.out.filter fun y => !(y.tag == tag && !y.standing) }
    let s := (s.xferEnded port p.ordinal x st).announceWaiting port
    match s.job? x.job with
    | some j => (s.settlePoint j.pot).tidy
    | none => s.tidy

/-- A link is lost (R352): every transfer in flight on it fails, items that wait on the peer end with `LINK_FAILED`, the peer is
absent. -/
def State.linkLoss (s : State) (n : Nat) : State :=
  let p := s.port n
  let ord := p.ordinal
  let away := fun (j : Job) => if (j.remote.map (·.1)) == some n then { j with remote := j.remote.map fun r => (4, r.2) } else j
  let s : State := { s.modPort n (fun q => { q with
      st := .down, present := false, hold := false, out := [], inn := [], authed := false, helloDigest := none, lanes := 0, replay := []
      credits := Vector.replicate 4 0, owed := Vector.replicate 4 0, fails := 0, nakDue := false }) with jobs := s.jobs.map away }
  let s := s.count 6 n 11 1
  let s := p.out.foldl (fun s x => s.xferEnded n ord x 0x21) s
  let s := (s.embed.bags.filter fun w => w.left.contains ord).foldl (fun s w => s.endWait w.job w.item 0x21) s
  let s := (s.embed.waits.filter fun w => w.left.contains ord).foldl (fun s w => s.rowsAnswer w.job w.item ord 0x21) s
  let sp := s.servingPot
  let s := if (s.pot sp).loop.peers.contains ord || p.inn.any (·.standing) then s.loseStep sp 0x21
    else s
  s.tidy

-- Training (R334 to R337)

/-- Ports are held DOWN without a group, outside PROVISIONED and OPERATIONAL, in PS4, before order 14 (R338, Tables 16.9, 16.10, 17.1). -/
def State.portAllowed (s : State) (n : Nat) : Bool :=
  s.boot.phase == .ready && s.groupId != 0 && s.portOrdinal n != 7 && decide (s.power.st < 4) && s.power.step != some 4 &&
  (s.sec.lifecycle == .provisioned || s.sec.lifecycle == .operational)

/-- PEER_SIGNAL_DETECT (Table 14.2, order 1): a fibre that is reconnected leaves `MISMATCH` too. -/
def execPeerSignalDetect (port : Fin 4) (s : State) : Out :=
  let p := s.port port.val
  if s.portAllowed port.val && (p.st == .down || p.st == .mismatch) then
    .next (s.modPort port.val fun q => { q with
      st := .training, cause := 0, authed := false, helloDigest := none, ordinal := 7, digest := 0, lanes := 0, present := false })
  else .next s

/-- LINK_TRAIN_TIMEOUT (R334): not UP within 1 s, the link returns to DOWN. -/
def execLinkTrainTimeout (port : Fin 4) (s : State) : Out :=
  if (s.port port.val).st == .training then .next (s.modPort port.val fun q => { q with st := .down, lanes := 0 }) else .next s

/-- Order 5 or 6 failed (R334): `MISMATCH` with its cause, counted. -/
def State.mismatch (s : State) (n : Nat) (cause : BitVec 4) : State :=
  let s := if (s.port n).st == .retraining then s.linkLoss n else s
  (s.modPort n fun q => { q with st := .mismatch, cause := cause, lanes := 0, authed := false }).count 6 n 13 1

/-- A packet that R342 lets act on this port; the rest is dropped and counted. -/
def State.accepts (s : State) (n : Nat) (h : PktHdr) : Bool :=
  !h.reserved && h.groupId == s.groupId && h.dst == s.self && h.src == (s.port n).ordinal
def State.dropPkt (s : State) (n : Nat) : State := s.count 6 n 12 1
/-- HELLO (R336): group, ordinals, firmware revision, digest. On a retrain the peer authenticated before skips order 6 (R337). Its
header's group and receiver are what its own fields say and order 5 compares, so only a reserved bit drops it (R8, R342; DEDUCED,
assumption log 59). -/
def execHello (port : Fin 4) (h : HelloPkt) (s : State) : Out :=
  let n := port.val
  let p := s.port n
  if p.st != .training && p.st != .retraining then .next s else
  if h.hdr.reserved then .next (s.dropPkt n) else
  let s := s.modPort n fun q => { q with ordinal := h.own % 8 }
  if h.groupId ≠ s.groupId ∨ s.groupId = 0 then .next (s.mismatch n 1)
  else if h.own ≠ s.portOrdinal n ∨ h.expects ≠ s.self then .next (s.mismatch n 2)
  else if h.fwMajor ≠ 4 then .next (s.mismatch n 3)
  else if s.portDigest n ≠ 0 ∧ h.digest ≠ s.portDigest n then .next (s.mismatch n 4)
  else .next (s.modPort n fun q => { q with
    helloDigest := some h.digest, authed := q.authed && p.st == .retraining && q.digest == h.digest })

/-- SPDM_PEER_MESSAGE (Table 14.2, order 6; R378): the two elements authenticate each other; `proved` is the
digest of the identity key that the peer's has proved, none where it fails. -/
def execSpdmPeerMessage (port : Fin 4) (hdr : PktHdr) (proved : Option Nat) (s : State) : Out :=
  let n := port.val
  let p := s.port n
  if (p.st == .training || p.st == .retraining) && !s.accepts n hdr then .next (s.dropPkt n) else
  if (p.st != .training && p.st != .retraining) || p.helloDigest.isNone || p.authed then .next s
  else if p.helloDigest == proved then .next (s.modPort n fun q => { q with authed := true, digest := proved.getD 0 })
  else .next (s.mismatch n 5)

/-- Receive buffers in flits by class (Table 14.6). -/
def classBuffer : Vector Nat 4 := #v[256, 1280, 1280, 1280]
/-- Lanes of a port that an optical engine still carries: engine 2q + j carries lanes 4j to 4j + 3 of PLq (R367). -/
def State.litLanes (s : State) (n : Nat) : List Nat := (List.range 8).filter fun l => !s.boot.engines.contains (2 * n + l / 4)
/-- A member that comes back after its link was down may have been reset: the tables whose slice it lost are then `EMPTY` here too
(R129). No packet says which, so it is free (assumption log 59). -/
def State.memberBack (s : State) (ord : Nat) : State :=
  let lost := fun (t : Table) => t.list.contains ord && t.list.contains s.self && Config.pick s.free 0 2 == 1
  ({ s with tables := s.tables.map fun t => if lost t then { t with empty := true } else t } : State).used
/-- LINK_UP (Table 14.2, order 7; R337): a first training sets the credits; a retrain keeps credits and replay buffers. -/
def execLinkUp (port : Fin 4) (lanes : Fin 9) (s : State) : Out :=
  let n := port.val
  let p := s.port n
  let lit := (s.litLanes n).take lanes.val
  if (p.st != .training && p.st != .retraining) || !p.authed || p.helloDigest.isNone || decide (lit.length < 4) then .next s else
  let fresh := p.st == .training
  let s := s.modPort n fun q => { q with
    st := .up, lanes := BitVec.ofNat 8 ((lit.map fun l => 2 ^ l).sum), fails := 0
    credits := if fresh then classBuffer else q.credits
    replay := if fresh then [] else q.replay, txSeq := if fresh then 0 else q.txSeq, acked := if fresh then 0 else q.acked
    rxSeq := if fresh then 0 else q.rxSeq, nakDue := q.nakDue && !fresh }
  .next (if fresh then s.memberBack p.ordinal else s).sendStatus

-- Flits, lanes, retrains (R333, R335, R337, R343)

/-- The link retrains (R337). -/
def State.retrain (s : State) (n : Nat) : State :=
  (s.modPort n fun q => { q with st := .retraining, helloDigest := none, fails := 0 }).count 6 n 10 1
/-- Flits from the oldest to the one acknowledged leave the replay buffer. -/
def ackTo (l : List (Nat × Nat)) (seq : Nat) : List (Nat × Nat) :=
  if l.any (·.1 == seq) then (l.dropWhile (·.1 != seq)).drop 1 else l
/-- FLIT_RECEIVE (R333, R343): a flit that fails its check is discarded and `NAK` set, the eighth time in a row the link retrains;
a good one gives its acknowledgement and credits, and is taken only in sequence. -/
def execFlitReceive (port : Fin 4) (f : FlitIn) (s : State) : Out :=
  let n := port.val
  let p := s.port n
  if p.st != .up then .next s
  else if !f.checkOk then
    let s := s.modPort n fun q => { q with nakDue := true, fails := q.fails + 1 }
    .next (if 8 ≤ p.fails + 1 then s.retrain n else s)
  else
    let s := s.modPort n fun q => { q with
      replay := if f.ackValid then ackTo q.replay f.ackSeq else q.replay
      acked := if f.ackValid then (f.ackSeq + 1) % 4096 else q.acked
      credits := q.credits.setIfInBounds f.crTc.val
        (Nat.min (classBuffer[f.crTc]) ((q.credits[f.crTc.val]?.getD 0) + f.crCount)) }
    let s := if f.nak then s.count 6 n 8 ((s.port n).replay.length) else s
    if f.seq ≠ p.rxSeq then .next s else
    let s := s.modPort n fun q => { q with
      rxSeq := (q.rxSeq + 1) % 4096, fails := 0, nakDue := false
      owed := if f.idle then q.owed else q.owed.setIfInBounds f.tc.val ((q.owed[f.tc.val]?.getD 0) + 1) }
    .next (s.count 6 n (4 + f.tc.val) 1)

/-- Lanes in service. -/
def Port.laneCount (p : Port) : Nat := ((List.range 8).filter fun i => p.lanes.getLsbD i).length
/-- PEER_LANE_OUT (R335): the link goes on over the rest; below four it retrains. -/
def execPeerLaneOut (port : Fin 4) (lane : Fin 8) (s : State) : Out :=
  let n := port.val
  let p := s.port n
  if p.st != .up || !p.lanes.getLsbD lane.val then .next s else
  let s := (s.modPort n fun q => { q with lanes := q.lanes &&& ~~~(BitVec.ofNat 8 (2 ^ lane.val)) }).count 6 n 9 1
  .next (if (s.port n).laneCount < 4 then s.retrain n else s)
/-- LINK_RETRAIN (R337). -/
def execLinkRetrain (port : Fin 4) (s : State) : Out :=
  if (s.port port.val).st == .up then .next (s.retrain port.val) else .next s
/-- LINK_HOLD_EXPIRY (R337, R352): a retrain past 200 ms is a link loss. -/
def execLinkHoldExpiry (port : Fin 4) (s : State) : Out :=
  if (s.port port.val).st == .retraining then .next (s.linkLoss port.val) else .next s

-- STATUS (R341)

/-- A packet received on a link that is UP acts, or is dropped. -/
def State.onPacket (s : State) (n : Nat) (h : PktHdr) (f : State → State) : Out :=
  if (s.port n).st != .up then .next s else if s.accepts n h then .next (f s) else .next (s.dropPkt n)

/-- STATUS (R341): 0 SERVING and 1 HOLD make the peer present, 2 absent; its power state and step count are for information. -/
def execStatusPacket (port : Fin 4) (h : PktHdr) (state _power _stepCount : Nat) (s : State) : Out :=
  s.onPacket port.val h fun s => s.modPort port.val fun q => { q with present := decide (state ≤ 1), hold := state == 1 }
/-- STATUS_TIMER (R341). -/
def execStatusTimer (s : State) : Out := .next s.sendStatus
/-- PEER_STATUS_TIMEOUT (R341, R353): the peer is absent; no transfer ends on its own. -/
def execPeerStatusTimeout (port : Fin 4) (s : State) : Out :=
  .next (s.modPort port.val fun q => { q with present := false, hold := false })

-- Announces (R344, R345)

/-- The serving pot takes group work (R340, R341). -/
def State.serves (s : State) : Bool :=
  s.potEnabled s.servingPot && (s.pot s.servingPot).st == 1 && s.boot.phase == .ready && s.sec.lifecycle == .operational
/-- The bag item that a part answers: its job and item, when it still waits for the member (R345). -/
def State.bagFor (s : State) (target ord : Nat) : Option BagWait :=
  s.embed.bags.find? fun w => w.item == target % 2 ^ 32 && w.left.contains ord &&
    ((s.job? w.job).map fun j => j.jobId == target / 2 ^ 32).getD false
/-- Why an announce is refused at once: none where it is granted, or withheld. -/
def State.announceFail (s : State) (ord : Nat) (d : XferDesc) : Option Nat :=
  if !s.serves then some 0x41 else
  match d.kind with
  | 1 => none
  | 2 => match s.table? d.object with
    | none => some 0x10
    | some t => if t.pot != s.servingPot then some 0x40 else if t.empty then some 0x10 else none
  | 4 => match s.table? d.object with
    | none => some 0x10
    | some t => if t.pot != s.servingPot then some 0x40 else if t.empty then some 0x10 else none
  | 5 => match s.table? d.object with
    | none => some 0x10
    | some t => if t.pot != s.servingPot then some 0x40 else if t.empty then some 0x10 else none
  | 3 => if (s.bagFor d.target ord).isSome then none else some 0x10
  | 6 => if d.total < 128 then some 0x10 else none
  | 7 => match s.corpus? d.object with
    | some c => if c.pot != s.servingPot then some 0x40 else none
    | none => if s.jobs.any fun j => j.remote.isSome && j.type == 0x03 && j.f 0x30 4 == d.object then none else some 0x10
  | 8 => match s.corpus? d.object with
    | some c => if c.pot != s.servingPot then some 0x40 else none
    | none => some 0x10
  | _ => some 0x10
/-- ANNOUNCE (R344, R345): granted, withheld, or refused with a status. -/
def execAnnounce (port : Fin 4) (h : PktHdr) (d : XferDesc) (s : State) : Out :=
  if d.reserved then s.onPacket port.val { h with reserved := true } id else
  s.onPacket port.val h fun s =>
    let n := port.val
    match s.announceFail (s.port n).ordinal d with
    | some st => s.nakXfer n h.xfer st
    | none =>
      let x : XferIn := { tag := h.xfer, desc := d, jobId := h.jobId, layer := BitVec.ofNat 16 h.layer, oper := BitVec.ofNat 16 h.oper, tc := h.tc, withheld := d.kind == 1 }
      let s := s.modPort n fun q => { q with inn := q.inn ++ [x] }
      if d.kind = 1 then s.decideWrite n x else s.grantXfer n x

/-- Sends the bytes of a transfer that its grants allow, at most 4,096 a packet (R342, R344). -/
def State.sendGranted (s : State) (n : Nat) (x : XferOut) (upTo : Nat) : State :=
  let upto := Nat.min upTo x.data.length
  let s := (List.range (ceilDiv (upto - x.sent) 4096)).foldl (fun s k =>
    let at_ := x.sent + 4096 * k
    let len := Nat.min 4096 (upto - at_)
    s.sendPkt n { type := 0x07, dst := (s.port n).ordinal, xfer := x.tag, arg := at_, payload := slice x.data at_ len
                  tc := x.tc, last := decide (at_ + len = x.data.length), tags := x.tags, lfmt := x.lfmt }) s
  s.modPort n fun q => { q with out := q.out.map fun (y : XferOut) =>
    if y.tag == x.tag && !y.standing then { y with granted := upTo, sent := Nat.max y.sent upto } else y }
/-- XFER_READY (R344, R349): further bytes may be sent; a standing grant names the class 1 records of the step, which go with no
announce once this module has formed them. -/
def execXferReady (port : Fin 4) (h : PktHdr) (s : State) : Out :=
  s.onPacket port.val h fun s =>
    let n := port.val
    if h.standing then
      (s.modPort n fun q => { q with out := q.out.filter (fun x => !x.standing) ++
        [{ tag := h.xfer, tc := 1, granted := h.arg, announced := false, standing := true }] }).shareStep s.servingPot
    else match (s.port n).out.find? fun x => x.tag == h.xfer && !x.standing with
      | none => s
      | some x => if h.arg < 1 ∨ 1048576 < h.arg then s else s.sendGranted n x (x.granted + h.arg)

-- Data placed or applied (R345, R346)

def State.inn? (s : State) (n tag : Nat) : Option XferIn := (s.port n).inn.find? fun x => x.tag == tag && !x.standing
def State.dropIn (s : State) (n tag : Nat) : State :=
  s.modPort n fun q => { q with inn := q.inn.filter fun x => !(x.tag == tag && !x.standing) }
/-- `XFER_DONE` with its status, and the transfer is over. -/
def State.doneXfer (s : State) (n tag st : Nat) : State :=
  (s.dropIn n tag).sendPkt n { type := 0x08, dst := (s.port n).ordinal, xfer := tag, status := st, tags := (s.port n).inTags tag }

/-- A kind 1 transfer is placed whole: the counter of the core with its ordinal rises (R345); of a job that is pre-empted, in its
restart record. A count past 65,535 is an illegal operation either way (R151). -/
def State.notifyCore (s : State) (job ord tk count : Nat) : State :=
  match s.job? job with
  | none => s
  | some j =>
    let cores := s.jobCores j.pot j
    let o := if cores = 0 then 0 else ord % cores
    match s.coreAt job o with
    | some c => s.signal c c { word := { hdr := {}, op := .nop 0 } } tk count
    | none =>
      let area := savedArea job o
      let a := 0x1200008 + 2 * tk
      if 65535 < leNat (Memory.readN (lookupD s.tiers.regions area []) a 2) + count then s.abortJob job 0x10 else
      let bump := fun (m : Mem) =>
        Memory.writeN m a (natLe 2 (leNat (Memory.readN m a 2) + count))
      s.modTiers fun t => { t with regions := t.regions.map fun r => if r.1 == area then (r.1, bump r.2) else r }

/-- The bags and entries of a kind 2 payload: full bag lengths, entries sent, the item's other fields. -/
def bagPayload (b : Bytes) : List Nat × List (List (Nat × BitVec 32)) × Bytes :=
  let tail := slice b (b.length - 8) 8
  let n := field tail 0 4
  let e := field tail 4 1
  let size := if e = 8 then 16 else 4
  let off := fun (base i : Nat) => field b (base + 4 * i) 4
  let s0 := 4 * (n + 1)
  let weight := fun (a : Nat) => if e = 8 then
      toF32 ((List.range 6).foldl (fun (v : Val) k =>
        (v.add? (blockVal 3 (field b (a + 4 + 2 * k + 1) 1) (field b (a + 4 + 2 * k) 1))).getD v) (.fin false 0 0))
    else 0x3F800000
  ((List.range n).map fun i => off 0 (i + 1) - off 0 i,
   (List.range n).map fun i => (List.range (off s0 (i + 1) - off s0 i)).map fun k =>
     let a := 2 * s0 + size * (off s0 i + k)
     (field b a 4, weight a), tail)
/-- Bag entries for this module's slice: its part of each bag goes back as link blocks (R114, R345). -/
def State.answerBags (s : State) (n : Nat) (x : XferIn) : State :=
  match s.table? x.desc.object with
  | none => s.doneXfer n x.tag 0x10
  | some t =>
    let (sizes, bags, tail) := bagPayload x.data
    if bags.flatten.any fun e => decide (t.rows ≤ e.1) || (t.served e.1).bad then s.doneXfer n x.tag 0x50 else
    let cols := (t.cols s.self).2
    let parts := (bags.zip sizes).zipIdx.map fun ((e, m), k) => t.pool (s.free + 100000 * k) cols m (field tail 5 1 == 1) e
    let bytes := (parts.map fun p => linkBlocks (p.map ofF32)).flatten
    let s := bags.flatten.foldl (fun s e => s.access t.id e.1) s.used
    (s.doneXfer n x.tag 0).sendTo (s.port n).ordinal 3 t.id x.desc.target { tc := 2, lfmt := 1, tags := x.tags, data := bytes }
/-- Rows of kinds 4 and 5 join the receive path in their order (R117, R120, R345). -/
def State.takeRows (s : State) (n : Nat) (x : XferIn) : State :=
  match s.table? x.desc.object with
  | none => s.doneXfer n x.tag 0x10
  | some t =>
    let cols := (t.cols s.self).2
    let per := 4 + 33 * cols
    let m := x.data.length / per
    let rows := (List.range m).map fun i => field x.data (4 * i) 4
    if rows.any fun r => decide (t.rows ≤ r) then s.doneXfer n x.tag 0x10 else
    let arr := rows.zipIdx.map fun (r, i) => ({
      grad := x.desc.kind == 5, table := t.id, row := r, link := some (n, x.tag)
      vals := (linkValues (slice x.data (4 * m + 33 * cols * i) (33 * cols)) cols).map toF32 } : Arrive)
    (s.modEmbed fun e => { e with arrivals := e.arrivals ++ arr }).settleLinkRows n x.tag
/-- Object control (R346): the job runs on this module's part, under the serving pot, and its status is the answer. -/
def State.runControl (s : State) (n : Nat) (x : XferIn) : State :=
  let desc := slice x.data 0 128
  let extra := x.data.drop 128
  let d := slice desc 0 4 ++ natLe 4 (x.desc.target / 2 ^ 32) ++ slice desc 8 120
  let j : Job := { key := s.nextId, pot := s.servingPot, ring := 255, desc := d, remote := some (n, x.tag), fetchedAt := s.time }
  let id := j.f 0x30 4
  let home := (s.port n).ordinal
  let own := fun (t : Table) => t.pot == s.servingPot
  let tab := (s.table? id).filter own
  match j.type with
  | 0x0D =>
    match hyperOf (slice extra 0 48), replicasOf (extra.drop 48) (j.f 0x44 1) with
    | some h, some r =>
      let t := tableOf j home h r
      match firstFail (s.createFail t) with
      | some st => s.doneXfer n x.tag st
      | none => (s.makeTable t).doneXfer n x.tag 0
    | _, _ => s.doneXfer n x.tag 0x10
  | 0x0E =>
    match tab, hyperOf (slice extra 0 48) with
    | some t, some h => if hyperOk h then (s.modTable t.id fun t => { t with hyper := h }).doneXfer n x.tag 0 else s.doneXfer n x.tag 0x12
    | _, _ => s.doneXfer n x.tag 0x10
  | 0x12 =>
    match tab with
    | some t =>
      if t.empty then s.doneXfer n x.tag 0x10
      else if s.unitsFree t.pot < t.imageUnits s.self then s.doneXfer n x.tag 0x11
      else if !s.writeOk then s.doneXfer n x.tag 0x20
      else (s.saveTable t.id false).doneXfer n x.tag 0
    | none => s.doneXfer n x.tag 0x10
  | 0x13 =>
    match tab with
    | some t => if t.image.isNone then s.doneXfer n x.tag 0x10 else (s.loadTable t.id false).doneXfer n x.tag 0
    | none => s.doneXfer n x.tag 0x10
  | 0x14 =>
    if j.f 0x30 1 = 3 then
      match (s.table? (j.f 0x34 4)).filter own with
      | some t => (s.dropTable t.id).doneXfer n x.tag 0
      | none => s.doneXfer n x.tag 0x10
    else match (s.corpus? (j.f 0x34 4)).filter fun c => c.pot == s.servingPot && c.job.isNone with
      | some c => ((s.modCorpus c.id fun c => { c with st := .deleting }).settleCorpora).doneXfer n x.tag 0
      | none => s.doneXfer n x.tag 0x10
  | 0x03 => ((({ s with jobs := s.jobs ++ [j], nextId := s.nextId + 1 } : State).dropIn n x.tag).admitSteepMember j home).tidy
  | _ => s.doneXfer n x.tag 0x10
/-- A steep's token stream (R346): the member goes on with stage 4 on its own share. -/
def State.takeStream (s : State) (n : Nat) (x : XferIn) : State :=
  match (s.corpus? x.desc.object).filter fun c => c.st == .steeping && c.mark.stage == 0 with
  | none => s.doneXfer n x.tag 0x10
  | some c =>
    let toks := (List.range (x.data.length / 4)).map fun i => field x.data (4 * i) 4
    let s := (s.modCorpus c.id fun c => { c with stream := toks, mark := { c.mark with stage := 3 } }).doneXfer n x.tag 0
    match c.job.bind s.job? with
    | some j => if (s.pot j.pot).running == some j.key && (s.coresOf j.key).isEmpty then (s.startSteep j).tidy else s.tidy
    | none => s

/-- The last record of a member's step has arrived (R349): the step holds them, and the grant is over. -/
def State.takeRecords (s : State) (n : Nat) (x y : XferIn) : State :=
  let s := (s.modPort n fun q => { q with inn := q.inn.erase x }).modPot s.servingPot fun q => { q with
    loop := { q.loop with records := q.loop.records ++ [((s.port n).ordinal, y.data)] } }
  s.sendPkt n { type := 0x08, dst := (s.port n).ordinal, xfer := x.tag, standing := true }
/-- Prefill outputs of a member for a layer (R346): held until this module's next layer commits. -/
def State.takePrefill (s : State) (n : Nat) (x : XferIn) : State :=
  (s.modCorpus x.desc.object fun c => if c.job.isSome then
    { c with outs := c.outs ++ [((s.port n).ordinal, x.desc.target % 2 ^ 32 / 65536, x.data)] } else c).doneXfer n x.tag 0
/-- A transfer has arrived whole. -/
def State.takeXfer (s : State) (n : Nat) (x : XferIn) : State :=
  match x.desc.kind with
  | 1 => ((s.doneXfer n x.tag 0).notifyCore x.job x.desc.ordinal x.desc.notifyTk.toNat x.desc.notifyCount).tidy
  | 2 => s.answerBags n x
  | 3 =>
    match s.bagFor x.desc.target (s.port n).ordinal with
    | none => s.doneXfer n x.tag 0
    | some w =>
      let ord := (s.port n).ordinal
      let s := s.doneXfer n x.tag 0
      s.partReceived w.job w.item ord x.data
  | 4 => s.takeRows n x
  | 5 => s.takeRows n x
  | 6 => s.runControl n x
  | 7 => s.takeStream n x
  | 8 => s.takePrefill n x
  | _ => s.doneXfer n x.tag 0
/-- Bytes of a kind 1 transfer go into the receive region as they come (R345). -/
def State.placeBytes (s : State) (x : XferIn) (off : Nat) (b : Bytes) : State :=
  match (s.job? x.job).bind fun j => (s.image? j.imageId).bind Image.receive with
  | none => s
  | some r => s.modTiers fun t => { t with regions := upsert t.regions (x.job, r.number, 0) [] fun m => Memory.writeN m (x.desc.target + off) b }
/-- DATA (R344, R345): within the grants it is placed; a whole transfer takes effect; further bytes are granted as they are used. -/
def execDataPacket (port : Fin 4) (h : PktHdr) (payload : Bytes) (s : State) : Out :=
  s.onPacket port.val h fun s =>
    let n := port.val
    if h.standing then
      match (s.port n).inn.find? fun x => x.tag == h.xfer && x.standing with
      | none => s.dropPkt n
      | some x =>
        if h.arg != x.got || decide (x.granted < h.arg + payload.length) || decide (4096 < payload.length) then s.dropPkt n else
        let y := { x with got := x.got + payload.length, data := x.data ++ payload }
        if h.last then s.takeRecords n x y
        else s.modPort n fun q => { q with inn := q.inn.map fun z => if z == x then y else z }
    else match s.inn? n h.xfer with
      | none => s.dropPkt n
      | some x =>
        let all := Nat.min x.granted x.desc.total
        if x.withheld || h.arg != x.got || decide (all < h.arg + payload.length) || decide (4096 < payload.length) then s.dropPkt n else
        let x := { x with got := x.got + payload.length, data := if x.desc.kind = 1 then [] else x.data ++ payload }
        let s := if x.desc.kind = 1 then s.placeBytes x h.arg payload else s
        let s := s.modPort n fun q => { q with inn := q.inn.map fun (y : XferIn) => if y.tag == x.tag && !y.standing then x else y }
        if x.desc.total ≤ x.got then s.takeXfer n x
        else if x.granted ≤ x.got then s.grantXfer n x else s

-- Answers (R345, R348, R350)

/-- The final statuses of Table 10.9. -/
def finalStatus (st : Nat) : Bool :=
  [0x00, 0x01, 0x02, 0x10, 0x11, 0x12, 0x20, 0x21, 0x22, 0x30, 0x31, 0x40, 0x41, 0x50].contains st
/-- XFER_DONE (R345). No item can report a status that Table 10.9 does not assign, or the interim one (R3): the packet is dropped and
counted like one with a reserved bit (DESIGN CHOICE, assumption log 59). -/
def execXferDone (port : Fin 4) (h : PktHdr) (s : State) : Out :=
  s.onPacket port.val { h with reserved := h.reserved || !finalStatus h.status } fun s =>
    if h.standing then s.modPort port.val fun q => { q with out := q.out.filter fun x => !(x.tag == h.xfer && x.standing) }
    else s.closeXfer port.val h.xfer h.status
/-- NAK (R345): it says that the announce failed, whatever its status. -/
def execPeerNak (port : Fin 4) (h : PktHdr) (s : State) : Out :=
  s.onPacket port.val { h with reserved := h.reserved || !finalStatus h.status } fun s =>
    s.closeXfer port.val h.xfer (if h.status < 0x10 then 0x10 else h.status)
/-- CANCEL (R348): the grant is released, what was placed or applied stays; which of the two statuses is answered is free. -/
def execCancel (port : Fin 4) (h : PktHdr) (s : State) : Out :=
  s.onPacket port.val h fun s =>
    let n := port.val
    match s.inn? n h.xfer with
    | none => s
    | some x =>
      let mine := fun (a : Arrive) => a.link == some (n, x.tag)
      let s := s.modEmbed fun e => { e with
        arrivals := e.arrivals.filter fun a => !mine a, buffer := e.buffer.map fun b => b.filter fun a => !mine a }
      (s.doneXfer n x.tag (if Config.pick s.free 0 2 = 0 then 0x31 else 0x41)).used

/-- STEP_CLOSE (R350): the member's part of the step is done; what it says is held for the next step, of a member outside the running group
whatever its step count (assumption log 34). -/
def execStepClose (port : Fin 4) (h : PktHdr) (step : Nat) (recs : List CloseRec) (s : State) : Out :=
  s.onPacket port.val h fun s =>
    let sp := s.servingPot
    let ord := (s.port port.val).ordinal
    let l := (s.pot sp).loop
    let now := if l.running then l.count else (l.count + (2 ^ 32 - 1)) % 2 ^ 32
    if (s.stepPeers sp).contains ord && step != now then s else
    s.modPot sp fun q => { q with loop := { q.loop with peers := q.loop.peers.erase ord, closes := q.loop.closes ++ [(ord, step, recs)] } }

/-- GRANT_WAIT_EXPIRY (R345): a kind 1 grant that has not come ends the job's unfinished items with `PEER_ABSENT`. -/
def execGrantWaitExpiry (port : Fin 4) (xfer : Nat) (s : State) : Out :=
  match (s.port port.val).out.find? fun x => x.tag == xfer && x.desc.kind == 1 && x.granted == 0 && !x.standing with
  | none => .next s
  | some x =>
    let s := s.modPort port.val fun q => { q with out := q.out.filter fun y => !(y.tag == xfer && !y.standing) }
    .next ((s.abortJob x.job 0x22).announceWaiting port.val).tidy

end Sys2Proof.Machine
end

