-- ==== Sys2Proof/Machine/Resets.lean ====
section
/-! DEFINITION. What every reset shares: work cut off, the drain, power loss and the intent dump, the loss log, what a reset
clears, function-level resets (chapter 12, R289 to R292; chapter 13, R311, R312; chapter 17, R394 to R401). -/

namespace Sys2Proof.Machine

-- Rings at their After cold start values (Table 19.8)

/-- First vector of a pot's ring set on the function that carries it (Table 19.8). -/
def vectorBase (numVfs p : Nat) : Nat := if p < numVfs then 0 else 17 * p
def freshCqs (numVfs p : Nat) : Vector Ring 16 := Vector.ofFn fun c => { vector := BitVec.ofNat 8 (vectorBase numVfs p + c.val) }
def freshEv (numVfs p : Nat) : Ring := { vector := BitVec.ofNat 8 (vectorBase numVfs p + 16) }
/-- A pot's ring block returns to its After cold start values (R431). -/
def State.freshRings (s : State) (p : Fin 8) : State := (s.dropHeldLast p.val).modHost fun h => { h with
  sq := h.sq.set p (Vector.replicate 16 {}), cq := h.cq.set p (freshCqs h.numVfs p.val), ev := h.ev.set p (freshEv h.numVfs p.val)
  next := h.next.set p 0, linkHeld := h.linkHeld.filter fun e => e.1 != p.val }

-- Work cut off (R58, R60, R397, R399)

/-- A steep that stands in a layer's work (Table 3.2). -/
def Corpus.losesLayer (c : Corpus) : Bool := decide (3 ≤ c.mark.stage) && decide (c.mark.layers < c.range.1 + c.range.2)
/-- A steep or re-steep that a reset cuts leaves its corpus SUSPENDED; a layer in work is counted as lost once (R58, R60). -/
def State.cutSteeps (s : State) (mine : Corpus → Bool) : State :=
  let cut := s.corpora.filter fun c => c.job.isSome && mine c
  let s := (cut.filter Corpus.losesLayer).foldl (fun s c => s.count 2 c.pot 32 1) s
  { s with corpora := s.corpora.map fun c => if c.job.isSome && mine c then
      { c with st := if c.st == .deleting then .deleting else .suspended, job := none, outs := [], sentLayer := none } else c }

/-- Ends every job of a pot without posting, with its transfers, cups, reservations and owned frames (R397); its semaphores,
deficits and ring counters start anew (Table 17.3). -/
def State.flushPot (s : State) (p : Nat) : State :=
  let s := s.cutSteeps (·.pot == p)
  let s := (s.jobs.filter (·.pot == p)).foldl (fun s j => (s.cancelXfers j.key).removeJob j.key) s
  let gone := fun (i : Nat) => s.cups.any fun c => c.idx == i && c.pot == p
  let s := s.dropEntries fun e => match e.key with
    | .cup i => gone i
    | .growth i _ _ _ => gone i
    | .leaf sp _ _ _ _ => s.cups.any fun c => c.tail == sp && c.pot == p
    | _ => false
  let s : State := { s with cups := s.cups.filter (·.pot != p), reads := s.reads.filter (·.pot != p) }
  let s := s.modPot p fun q => { q with
    loop := { count := q.loop.count }
    sems := Vector.replicate 32 {}, deficit := Vector.replicate 16 0, charged := Vector.replicate 16 0
    running := none, kept := [], switchDue := false, drainRetry := false, loan := none }
  ((s.clearCounters 3 (fun i => i / 16 == p) fun _ => true).settleUnloads).settleCorpora

/-- All work ends at once without posting (R395, order 1). -/
def State.haltWork (s : State) : State :=
  let s := s.cutSteeps fun _ => true
  let idle := fun (c : Core) => c.idle
  let colls := s.colls.map fun (c : Coll) => { c with recallers := [], slots := c.slots.map fun (x : Slot) => if x.st == .dead then { x with old := true } else x }
  let calm := fun (p : Pot) => { p with
    loop := {}, running := none, kept := [], switchDue := false, drainRetry := false, loan := none, sems := Vector.replicate 32 {}
    deficit := Vector.replicate 16 0, charged := Vector.replicate 16 0 }
  (({ s with
    jobs := [], strains := [], searches := [], cups := [], waiting := [], reads := [], embed := {}, colls := colls
    cores := s.cores.map idle, pots := s.pots.map calm } : State).settleUnloads).settleCorpora

-- Media at a cut (R309, R311, R312)

/-- A block with a cut-off program is closed (R312). -/
def State.cutProgram (s : State) (o : MediaOp) : State :=
  ((s.dropOp o.key).modBay o.bay fun b => b.modBlock (b.phys o.group) fun x => { x with st := .closed }).modGroup o.group
    fun x => { x with st := .closed }
/-- Every die operation in flight ends: reads go, programs close their blocks, erases leave `ERASE_UNKNOWN` (R311, R312). -/
def State.cutMedia (s : State) : State :=
  let s := s.media.ops.foldl (fun s o =>
    if o.kind = 0 then s.dropOp o.key else if o.kind = 1 then s.cutProgram o else (s.cutErase o).freeErased o.group) s
  s.modMedia fun m => { m with ops := [], stripes := [], journal := [] }
/-- A stripe whose pages the tag scan finds whole (R312, R318): its programs ended with six members, and no program that is cut off
leaves its wordline undefined (Table 13.9). -/
def State.scanFinds (s : State) (t : Stripe) : Bool :=
  let spoilt := s.media.stripes.any fun u => u.group == t.group && !u.flying.isEmpty &&
    decide (t.page / wordline t.pslc ≤ u.page / wordline t.pslc) &&
    decide (u.page / wordline t.pslc ≤ t.page / wordline t.pslc + (if u.mode = 0 then 2 else 0))
  t.flying.isEmpty && decide (6 ≤ t.ok.length) && !spoilt
/-- A write whose every buffered block the tag scan finds (R318). -/
def State.scanWhole (s : State) (seq : Nat) : Bool :=
  let mine := s.nvme.buffer.filter (·.seq == seq)
  !mine.isEmpty && mine.all fun b => s.media.stripes.any fun t => t.load == .host b.nsid b.lba seq && s.scanFinds t

-- Power loss and the loss log (R289 to R292)

/-- Blocks of a dumped record whose newest acknowledged data was in the buffer alone (R290). -/
def State.lostBlocks (s : State) (i : Intent) : List Nat :=
  ((List.range i.nlb).map (i.slba + ·)).filter fun lba => (s.bufferedAck i.nsid lba).any (·.seq == i.seq)
/-- Runs of consecutive numbers: first and length. -/
def runsOf (l : List Nat) : List (Nat × Nat) :=
  (l.foldl (fun (acc : List (Nat × Nat)) x => match acc with
    | (a, n) :: rest => if a + n = x then (a, n + 1) :: rest else (x, 1) :: acc
    | [] => [(x, 1)]) []).reverse
/-- The entries of one dumped record (Table 12.4). -/
def State.lossOf (s : State) (i : Intent) : List LossEntry :=
  (runsOf (s.lostBlocks i)).map fun r =>
    { nsid := i.nsid, unknown := false, slba := r.1, nlb := r.2, sqid := i.sqid, cid := i.cid, ackSeq := i.seq }
/-- The intent dump (R289, R290, R292), taken as a loss: with fewer than two healthy caddies whether a valid marker is written is
free, and without one each namespace with records is `UNKNOWN`. Writes that the tag scan will find become durable (R318); the
buffer is discarded. `power` counts an unsafe shutdown (Table 12.5). -/
def State.dumpIntents (s : State) (power : Bool) : State :=
  let recs := s.nvme.intents
  let s := s.modNvme fun n => { n with waits := [], aers := [] }
  let found := ((s.nvme.buffer.map (·.seq)).eraseDups).filter s.scanWhole
  let s := found.foldl State.commitWrite s
  let marker := decide (2 ≤ s.writables.length) || Config.pick s.free 0 2 == 1
  let unknown := ((recs.map (·.nsid)).eraseDups).map fun n =>
    ({ nsid := n, unknown := true, slba := 0, nlb := 0, sqid := 0, cid := 0, ackSeq := 0 } : LossEntry)
  let entries := if marker then (s.nvme.intents.map s.lossOf).flatten else unknown
  let had := b2n !recs.isEmpty
  s.used.modNvme fun n => { n with
    dump := n.dump ++ entries, losses := n.losses + had, unsafeShutdowns := n.unsafeShutdowns + b2n power * had, buffer := [], intents := [] }
/-- At the next start the loss log takes the dumped records, after the earlier ones (R290). -/
def State.buildLoss (s : State) : State := s.modNvme fun n => { n with loss := n.loss ++ n.dump, dump := [] }

-- What a reset clears (R394, R400, R401, Table 17.3)

/-- A bay across a reset: its caddy is brought up again at order 9; a released one stays so unless the start is cold (R443). -/
def Bay.afterReset (cold : Bool) (b : Bay) : Bay :=
  let released := b.st == 7 && b.safe && !cold
  { b with
    stage := .idle, lanes := 0, lanesOut := [], removing := false, tripped := false, counters := b.durable
    st := if released then 7 else 0, safe := released
    announced := b.present, quiet := b.present && !released }
/-- An embedding table whose memory is cleared is `EMPTY` (R129), its saturation counts cleared (R201). -/
def Table.cleared (t : Table) : Table := { t with
  recs := [], shelf := [], redirect := [], stats := [], badStats := [], pending := none, sats := (0, 0), empty := true }
/-- A pot as a start leaves it: what its committed record says (Tables 11.1, 19.3); its queue core is that of the lowest core committed,
absent or not (R233). -/
def State.freshPot (s : State) (p : Nat) : Pot :=
  let cores := BitVec.ofNat 48 (Nat.land (bits (s.potRec p 0) 47 0) s.present)
  if s.potEnabled p then
    { st := 1, cores := cores, quad := (((List.range 48).find? fun n => bit (s.potRec p 0) n).getD 0) / 12 }
  else {}
def State.freshPots (s : State) : State := { s with pots := Vector.ofFn fun p => s.freshPot p.val }

/-- The memories, registers, rings and counters that a reset clears (Table 17.3). `link` keeps the PCIe link and configuration
space (R396); a cold start clears more. -/
def State.cleared (s : State) (cold link : Bool) : State :=
  let lost := (s.corpora.filter fun c => c.job.isSome && c.losesLayer).map (·.pot)
  let s := s.haltWork.cutMedia
  let table := fun (e : PoolEntry) => match e.key with | .table _ => true | _ => false
  let core := fun (c : Core) => ({ phys := if cold then none else c.phys } : Core)
  let image := fun (i : Image) => { i with reload := decide (0 < i.residentBytes), badCode := [] }
  let slot := fun (k : FwSlot) => { k with touched := false }
  let kept := fun (c : (Nat × Nat × Nat) × Int) => !cold && (c.1.1 == 2 || c.1.1 == 7)
  let ended := fun (l : List Attrib) => l.map fun (a : Attrib) => { a with ended := a.ended.orElse fun _ => some s.obs.lastSeq }
  let obs : Obs := if cold then { frames := s.obs.frames } else
    { counters := s.obs.counters.filter kept, attrib := s.obs.attrib.map ended, retired := s.obs.retired, overflow := s.obs.overflow
      lastSeq := s.obs.lastSeq + 1, marker := s.obs.marker, frame := s.obs.frame, frames := s.obs.frames, buffer := s.obs.buffer }
  let vfs := if link then s.host.numVfs else 0
  let nv := s.nvme
  let s : State := { s with
    host := { mem := s.host.mem, bad := s.host.bad, irqs := s.host.irqs, numVfs := vfs
              cq := Vector.ofFn fun p => freshCqs vfs p.val, ev := Vector.ofFn fun p => freshEv vfs p.val }
    images := s.images.map image, tables := s.tables.map Table.cleared, cores := s.cores.map core
    tiers := { dram := s.tiers.dram.filter table }
    nvme := { spaces := nv.spaces, seq := nv.seq, loss := nv.loss, losses := nv.losses, dump := nv.dump, errors := nv.errors
              unsafeShutdowns := nv.unsafeShutdowns, integrity := nv.integrity, sanitized := nv.sanitized
              enabled := link && nv.enabled, cfs := link && nv.cfs }
    media := { s.media with bays := s.media.bays.map (Bay.afterReset cold), rebuildingMap := false }
    ports := Vector.replicate 4 {}
    sec := { s.sec with token := none, versionOk := false, algorithmsOk := false, chunks := none, large := none
                        debug := if cold then .closed else s.sec.debug }
    power := { feeds := s.power.feeds, straps := s.power.straps, hot := s.power.hot }
    boot := { s.boot with takeovers := [], staged := [], committing := none, restarts := [], fatal := link && s.boot.fatal, error := false
                          slots := s.boot.slots.map slot, hold := none, restartsAt := []
                          heldOut := if cold then 0 else s.boot.heldOut, spares := if cold then Vector.replicate 4 none else s.boot.spares }
    obs := obs }
  let s := if cold then lost.foldl (fun s p => s.count 2 p 32 1) s else s
  s.freshPots

-- Media keys (Table 16.2, R383)

/-- A metadata key and a data key for each enabled pot. -/
def State.makeMediaKeys (s : State) : State :=
  let (s, k) := s.makeKey
  (List.range 8).foldl (fun s p =>
    if s.potEnabled p then
      let (s, k) := s.makeKey
      s.modSec fun x => { x with potKeys := x.potKeys.setIfInBounds p (some k) }
    else s) (s.modSec fun x => { x with metaKey := some k, potKeys := Vector.replicate 8 none })

/-- The end of the debug-open transition (R383, order 5; R384): the level is OPEN, and where media keys exist they are the debug key set. -/
def State.openDebug (s : State) : State :=
  let s := s.modSec fun x => { x with debug := .opened }
  if s.sec.lifecycle == .provisioned || s.sec.lifecycle == .operational then s.makeMediaKeys else s

-- Booting a slot (R406)

/-- The element boots the slot that the boot pointer names, else the other; none that boots leaves configuration space only. -/
def State.bootSlot (s : State) (ok : Nat → Bool) : State :=
  let first := s.boot.pointer
  let pick := if ok first then some first else if ok (3 - first) then some (3 - first) else none
  match pick with
  | some n => s.modBoot fun b => { b with phase := .training, active := n, version := (((s.slot n).record).map (·.version)).getD 0 }
  | none => s.modBoot fun b => { b with phase := .bootFailed, active := 0, version := 0 }

-- The drain (R395, R398)

/-- All peer links go DOWN (R395, Table 16.11): a loss of each link (R352). -/
def State.dropLinks (s : State) : State :=
  (List.range 4).foldl (fun s n => if (s.port n).st == .up || (s.port n).st == .retraining then s.linkLoss n
    else s.modPort n fun q => { q with st := .down, lanes := 0, present := false }) s
/-- A reset begins its drain (R395, order 1); a request during another drain joins it (R398). `next`: 0 module, 1 recovery,
2 debug-open, 3 recovery into the other slot. -/
def State.startDrain (s : State) (next : Nat) : State :=
  match s.boot.phase with
  | .off => s
  | .lost => s
  | .failed => s
  | .draining _ => s
  | _ =>
    let s := s.anyReset
    let s := if next = 1 ∨ next = 3 then (s.modNvme fun n => { n with cfs := true }).modBoot fun b => { b with fatal := true } else s
    let s := ((List.range 8).foldl State.dropHeldLast (s.modBoot fun b => { b with phase := .draining next, hold := none })).modHost fun h => { h with linkHeld := [] }
    let s := s.haltWork.sendStatus.dropLinks
    s.modPower fun p => { p with step := none }
/-- The reset proper, after its drain: what it clears is cleared and the start sequence runs again. -/
def State.restart (s : State) (next : Nat) : State :=
  let s := s.cleared false (next == 1 || next == 3)
  let s := if s.sec.debugKeys && s.sec.debug != .opened then s.openDebug else s
  if next = 3 then
    let other := 3 - s.boot.pointer
    s.bootSlot fun n => n == other && s.boots n
  else s.bootSlot s.boots
/-- RESET_DRAIN_DONE (R395, R399): the buffer is on flash, the journal committed, counts and mark durable. -/
def execResetDrainDone (s : State) : Out :=
  match s.boot.phase with
  | .draining k =>
    if !s.writeOk && !s.nvme.buffer.isEmpty then .next s else
    let s := (s.modNvme fun n => { n with waits := [], aers := [] }).drainBuffer.cutMedia.persistCounters
    .next ((s.modMedia fun m => { m with orderly := true }).restart k)
  | _ => .next s
/-- RESET_DRAIN_EXPIRY (R395): after 1 s the rest of the intent records is dumped as at a power loss, with no orderly-stop mark. -/
def execResetDrainExpiry (s : State) : Out :=
  match s.boot.phase with
  | .draining k => .next (((s.dumpIntents false).modMedia fun m => { m with orderly := false }).restart k)
  | _ => .next s

/-- MODULE_RESET (Table 17.3, Table 19.3): a write counts with its value alone, and only from PF1. -/
def execModuleReset (cause : ResetCause) (s : State) : Out :=
  match cause with
  | .write fn v => .next (if fn = .pf1 ∧ v = 0xA5C30001 then s.startDrain 0 else s)
  | _ => .next (s.startDrain 0)

/-- Loss of both feeds (R289, R439): fetching stops, the intents are dumped, everything volatile is lost; in PS4 it is no power loss, and
the mark of the PS4 entry makes the stop orderly (Table 16.10). A loss during a drain takes its place (R398). -/
def State.losePower (s : State) : State :=
  match s.boot.phase with
  | .off => s
  | .lost => s
  | _ =>
    let calm := s.power.st = 4 ∧ s.power.step = none
    let s := if calm then s else s.dumpIntents true
    let s := s.cleared true false
    (s.modBoot fun b => { b with phase := if calm then .off else .lost, active := 0, version := 0 }).modPower fun p =>
      { p with feeds := Vector.replicate 2 false }
/-- POWER_LOSS. -/
def execPowerLoss (s : State) : Out := .next s.losePower
/-- FEED_LOST (R437, R438): the other feed carries the load and nothing else changes; the loss of the second is a power loss. -/
def execFeedLost (feed : Fin 2) (s : State) : Out :=
  if s.boot.phase = .off ∨ s.boot.phase = .lost then .next s else
  let s := s.modPower fun p => { p with feeds := p.feeds.set feed false }
  .next (if s.power.feeds.toList.any id then s else s.losePower)
/-- FEED_REJOIN (R437). -/
def execFeedRejoin (feed : Fin 2) (s : State) : Out :=
  if s.boot.phase = .off ∨ s.boot.phase = .lost then .next s
  else .next (s.modPower fun p => { p with feeds := p.feeds.set feed true })

-- Function-level resets (R397, R431)

/-- A pot's ring set is reset with its work (R397, R431). -/
def State.resetRingSet (s : State) (p : Fin 8) : State :=
  let s := (s.flushPot p.val).freshRings p
  (s.settleStop p.val).tidy
/-- PF1_FLR (R397, R431): every ring block, the module event ring, the snapshot fields, staged values; VF Enable clears with the
function (PCIe's rule, log 5). -/
def execPf1Flr (s : State) : Out :=
  let s := s.anyReset.modHost fun h => { h with
    numVfs := 0, modEv := { vector := 136 }, snaps := Vector.replicate 9 {}, msix := Vector.replicate 137 {}
    vfMsix := Vector.replicate 8 (Vector.replicate 17 {}) }
  .next ((List.finRange 8).foldl State.resetRingSet (s.modBoot fun b => { b with staged := [] }))
/-- VF_FLR (R397, R431): its pot's ring block and its own snapshot fields. -/
def execVfFlr (vf : Fin 8) (s : State) : Out :=
  if s.host.numVfs ≤ vf.val then .next s else
  .next ((s.anyReset.modHost fun h => { h with
    snaps := h.snaps.setIfInBounds (vf.val + 1) {}, vfMsix := h.vfMsix.set vf (Vector.replicate 17 {}) }).resetRingSet vf)
/-- VF_ENABLE_CHANGE (R431): pots whose ring set moves between PF1 and a VF are reset; the others are not affected. -/
def execVfEnableChange (numVfs : Fin 9) (s : State) : Out :=
  let old := s.host.numVfs
  let new := numVfs.val
  if old = new then .next s else
  let moved := (List.finRange 8).filter fun p => decide (p.val < old) != decide (p.val < new)
  let s := s.anyReset.modHost fun h => { h with numVfs := new }
  .next (moved.foldl (fun s p => (s.resetRingSet p).modHost fun h => { h with
    snaps := h.snaps.setIfInBounds (p.val + 1) {}, vfMsix := h.vfMsix.set p (Vector.replicate 17 {}) }) s)

end Sys2Proof.Machine
end

