-- ==== Sys2Proof/Machine/Waits.lean ====
section
/-! DEFINITION. Waits of a core's units and of a pot's work, counted by cause while they last (Tables 2.4, 3.5, 9.4, R34, R69, R116, R214,
R222, R223). Time passes in the kettle's samples of 10 µs, so a wait is counted in those intervals at whose end it stands (DESIGN CHOICE,
assumption log 51). -/

namespace Sys2Proof.Machine

-- Units of a core

/-- The cause of a wait for a read of a page: late, or in reconstruction (Table 2.4); 0 while it is neither. -/
def LeafRead.cause (r : LeafRead) : Nat := if r.cent then 3 else if r.origBad then 2 else if r.late then 1 else 0
/-- The cause of a wait for a move: its tier's, that of the leaf pages it awaits (R172), `CREDIT_WAIT` for one whose link has no credit
(R343). -/
def State.moveCause (s : State) (c : Nat) (m : Move) : Nat :=
  let pages := (s.reads.filter fun r => r.movs.any fun x => x.1 == c && x.2.1 == m.num).map LeafRead.cause
  let stuck := m.peers.any fun p => (s.port p.1).out.any fun x => x.tag == p.2 && ((s.port p.1).credits[x.tc]?.getD 0) == 0
  nearest ([m.cause] ++ pages ++ if stuck then [0x0F] else [])
/-- The cause under which a waiting unit of a core counts: that of the moves whose tokens it can await, nearest to the medium, else
`TOKEN_WAIT` (R149, R223). -/
def State.tokenCause (s : State) (c : Nat) : Nat :=
  let n := nearest ((s.core c).moves.map (s.moveCause c))
  if n = 0 then 0x0E else n
/-- The units of a core that wait, each with its cause and the tags of the instruction that waits: `SEMACQ` in the front end (R175), the
head of every other unit's queue. -/
def State.unitWaits (s : State) (c : Nat) : List (Nat × BitVec 16 × BitVec 16) :=
  let k := s.core c
  if k.run.isNone || k.parked || s.takingOver c then [] else
  let front := match k.front with
    | some q => (match q.word.op with | .semacq _ _ => [(0x10, q.layer, q.oper)] | _ => [])
    | none => []
  front ++ ([k.qLoader, k.qArrays, k.qSpout, k.qVector, k.qMove].filterMap List.head?).map fun q => (s.tokenCause c, q.layer, q.oper)
/-- TCLK cycles of 10 µs at a kettle level: 1.1 GHz less 50 MHz for each of levels 1 to 11 (Table 16.12). -/
def tclks (level : Nat) : Nat := 10 * (1100 - 50 * Nat.min level 11)
/-- Counts the unit waits of a core (R223, R411). -/
def State.countUnits (s : State) (c : Nat) : State :=
  (s.unitWaits c).foldl (fun s w =>
    (s.count 1 c (15 + w.1) (tclks s.power.level)).attributeRun c w.2 (15 + w.1) (tclks s.power.level)) s

-- A pot's work

/-- What holds a pot's step up, none while it runs on its cores: pages (R34), room in its staging groups (R51), peers (R46), tail programs
(R69), room for its staging (R214). -/
def State.stepCause (s : State) (p : Nat) : Nat :=
  let l := (s.pot p).loop
  let busy := ((s.runningJob p).map fun j => !(s.coresOf j.key).isEmpty).getD false
  let reads := s.reads.filter fun r => (r.cent && l.spaces.contains r.space) || r.cups.any fun k => (s.potCups p).any (·.idx == k)
  if l.running && !busy then
    nearest (reads.map LeafRead.cause ++ (if l.queued.isEmpty then [] else [4]) ++ if s.recordsDue p then [5] else [])
  else if l.between && !l.tailWait.isEmpty then 6
  else if l.between && !l.peers.isEmpty then 5
  else 0
/-- What holds an `ATTEND` job up. -/
def State.attendCause (s : State) (j : Job) : Nat :=
  match j.attend with
  | none => 0
  | some a =>
    let reads := s.reads.filter fun r => (r.cent && !a.chosen && j.corpusId == some r.space) || r.atts.any (·.1 == j.key)
    nearest (reads.map LeafRead.cause ++ if a.queued.isEmpty then [] else [4])
/-- The cause of a wait for a page of a collection since `t` (R89, R98): in reconstruction, or late by the limit of R33; 0 while it is neither. -/
def State.pageCause (s : State) (rebuilding : Bool) (t : Nat) : Nat :=
  if rebuilding then 2 else if t + 100 * bits (s.rs 0x1900) 31 24 < s.time then 1 else 0
/-- What holds a search up: its list page, its codes (R94, R98). -/
def State.searchCause (s : State) (x : Searching) : Nat :=
  if (s.search? x.job x.item).isNone || x.isOver then 0 else nearest [s.pageCause x.rebuilding x.since, if x.codes then 8 else 0]
/-- The waits of the pots' work: pot, job, cause. -/
def State.potWaits (s : State) : List (Nat × Job × Nat) :=
  ((List.range 8).filterMap fun p => ((s.jobs.find? fun j => j.pot == p && j.type == 0x04).map fun j => (p, j, s.stepCause p))) ++
  ((s.jobs.filter (·.type == 0x05)).map fun j => (j.pot, j, s.attendCause j)) ++
  (s.jobs.filter fun j => s.claimWaits j.key j.imageId).map (fun j => (j.pot, j, 0x0D)) ++
  (s.embed.bags.filterMap fun b => (s.job? b.job).map fun j => (j.pot, j, 5)) ++
  (s.strains.filterMap fun x => (s.job? x.job).map fun j => (j.pot, j, s.pageCause x.rebuilding x.since)) ++
  s.searches.filterMap fun x => (s.job? x.job).map fun j => (j.pot, j, s.searchCause x)
/-- Counts a wait of a pot's work for 10 µs (R223, R411). -/
def State.countWait (s : State) (w : Nat × Job × Nat) : State :=
  if w.2.2 = 0 then s else
  (s.count 2 w.1 (15 + w.2.2) 10000).attribute w.1 w.2.1.key w.2.1.jobId w.2.1.layerId w.2.1.operId (w.2.2 - 1) 10000

/-- What 10 µs of time do to the waits and to the saturation events that fall due (R202, R223). -/
def State.waited (s : State) : State :=
  let s := (List.range 48).foldl State.countUnits s
  let s := s.potWaits.foldl State.countWait s
  s.jobs.foldl (fun s j => s.postSat j.key) s

end Sys2Proof.Machine
end

