-- ==== Sys2Proof/Machine/Power.lean ====
section
/-! DEFINITION. Power states and their steps, the kettle, thermal trips (chapter 16, R385 to R388). -/

namespace Sys2Proof.Machine

-- Power-state steps (R386, Tables 16.10, 16.11)

/-- The state that requests lead to: a trip forces PS3 and holds shallower requests (R388). -/
def State.powerWant (s : State) : Nat := if s.power.tripped then Nat.max s.power.st (Nat.max 3 s.power.req) else s.power.req
/-- Core jobs that hold no core are pre-empted where they stand (R386). -/
def State.preemptIdle (s : State) (p : Nat) : State :=
  match (s.runningJob p).filter fun j => j.isCore && j.sliced && (s.coresOf j.key).isEmpty && !((s.pot p).loop.running) with
  | some j => if s.xfersOf j.key then s else s.preempt p j.key
  | none => s
/-- The next step toward the wanted state begins (R386): toward PS1 core jobs go to their points, toward PS4 the peer links go DOWN, and
leaving PS4 the orderly stop ends. -/
def State.towards (s : State) : State :=
  if s.power.step.isSome || s.boot.phase != .ready || s.powerWant = s.power.st then s else
  let from_ := s.power.st
  let goal := if from_ < s.powerWant then from_ + 1 else from_ - 1
  let s := s.modPower fun p => { p with step := some goal }
  if from_ = 0 then (List.range 8).foldl State.preemptIdle s
  else if goal = 4 then s.dropLinks
  else if from_ = 4 then s.modMedia fun m => { m with orderly := false }
  else s
/-- An engine job in progress. -/
def Job.engineRuns (j : Job) : Bool := !j.isCore && !j.isTask && j.phase == .admitted
/-- What a step waits for is over (Table 16.11). -/
def State.stepReady (s : State) (goal : Nat) : Bool :=
  if s.power.st = 0 then s.cores.toList.all (fun c => c.run.isNone) && s.pots.toList.all fun p => !p.loop.running
  else if s.power.st = 1 ∧ goal = 2 then !(s.jobs.any Job.engineRuns) && (s.nvme.buffer.isEmpty || s.writeOk)
  else if s.power.st = 2 ∧ goal = 3 then s.media.ops.isEmpty
  else true
/-- A caddy powered down for PS3: nothing is announced (Table 16.11). -/
def Bay.sleep (b : Bay) : Bay := { b with stage := .idle, lanes := 0, lanesOut := [] }
/-- Entry to PS3: the journal committed, a checkpoint written, counts durable, the caddies powered down. -/
def State.sleepMedia (s : State) : State :=
  s.persistCounters.modMedia fun m => { m with
    bays := m.bays.map Bay.sleep, stripes := [], journal := [], journalBytes := 0, checkpoint := 1 - m.checkpoint }
/-- Exit from PS3: bays power up under Table 13.12; those released, tripped or with an open lever stay down. -/
def State.wakeMedia (s : State) : State :=
  (List.range 8).foldl (fun s n =>
    let b := s.bay n
    if b.present && !b.safe && !b.tripped && !b.lever && b.st != 5 then s.powerBay n else s) s
/-- A step ends in its state. -/
def State.enterPower (s : State) (goal : Nat) : State :=
  let from_ := s.power.st
  let s := if goal = 2 ∧ from_ = 1 then s.drainBuffer else if goal = 3 ∧ from_ = 2 then s.sleepMedia else s
  let s := s.modPower fun p => { p with st := goal, step := none }
  let s := if goal = 2 ∧ from_ = 3 then s.wakeMedia.runHeldIo
    else if goal = 4 then s.modMedia fun m => { m with orderly := true } else s
  s.sendStatus.tidy
/-- The running step ends when what it waits for is over, and the next one toward the latest request begins. -/
def State.finishStep (s : State) : State :=
  match s.power.step with
  | none => s
  | some goal => if s.stepReady goal then (s.enterPower goal).towards else s

/-- A write of `POWER_REQ` (Table 19.3): 5 to 7 are ignored. -/
def State.requestPower (s : State) (v : Nat) : State :=
  if 5 ≤ v then s else (s.modPower fun p => { p with req := v }).towards
/-- POWER_REQ (R385, R386, R433). -/
def execPowerReq (fn : PcieFn) (value : BitVec 3) (s : State) : Out :=
  .next (if fn = .pf1 ∧ s.boot.up then s.requestPower value.toNat else s)
/-- POWER_STEP_DONE (R386). -/
def execPowerStepDone (s : State) : Out := .next (if s.boot.phase = .ready then s.finishStep else s)

/-- Core jobs still on cores are stopped under `ABORT_OVERRUN` 1, and by a trip whatever the pot's setting (R273, R386, R388). -/
def State.stopOverruns (s : State) : State :=
  (List.range 8).foldl (fun s p => match s.runningJob p with
    | some j => if j.isCore && !(s.coresOf j.key).isEmpty && (s.potAbort p || s.power.tripped) then s.abortJob j.key 0x31 else s
    | none => s) s
/-- Task items still on cores complete with `PREEMPT_ABORTED` (R386). -/
def State.stopTasks (s : State) : State :=
  (s.searches.filter fun x => (s.taskOn x.job x.item).isSome).foldl (fun s x =>
    (s.endTask x.job x.item).complete x.job x.item fun i => i.fail 0x31) s
/-- POWER_STEP_LIMIT_EXPIRY (R386, R388): items still running end, then the step ends if nothing else holds it. -/
def execPowerStepLimitExpiry (s : State) : Out :=
  match s.power.step with
  | none => .next s
  | some goal =>
    if s.boot.phase ≠ .ready ∨ goal < s.power.st then .next s else
    let s := if s.power.st = 0 then s.stopTasks.stopOverruns
      else if s.power.st = 1 then (s.jobs.filter Job.engineRuns).foldl (fun s j => s.abortJob j.key 0x31) s
      else s
    .next s.finishStep

-- The kettle (R387, Table 16.12)

/-- The kettle runs on the service cores: released (Table 17.1) and not halted (R414). -/
def State.kettleRuns (s : State) : Bool :=
  (match s.boot.phase with | .booting => true | .ready => true | .draining _ => true | _ => false) && s.power.halted == 0
/-- The throttle level changes: traced tile cores send `SYNC` (R416). -/
def State.setLevel (s : State) (n : Nat) : State :=
  if s.power.level = n then s else
  let s := s.modPower fun p => { p with level := n }
  (List.range 48).foldl (fun s c => s.trace (16 + c) 0x01 (s.syncAux (16 + c)) (s.clock 2)) s
/-- The sum of the last `n` samples, once there are as many. -/
def Power.sumOf (p : Power) (n : Nat) : Option Nat := if p.samples.length < n then none else some (p.samples.take n).sum
/-- One or more levels deeper: the fall of the 1 ms mean is measured 1 ms later (R387). -/
def State.deeper (s : State) (n : Nat) (single : Bool) : State :=
  let before := (s.power.samples.take 100).sum
  let old := s.power.level
  (s.setLevel (Nat.min 16 (old + n))).modPower fun p => { p with
    measuring := p.measuring.orElse fun _ => some (old, before)
    sinceDeeper := 0, sincePaced := if single then 0 else p.sincePaced, trial := none }
/-- The fall Δ of the moves made 1 ms ago is recorded for each level they entered (assumption log 12). -/
def State.recordFall (s : State) : State :=
  match s.power.measuring, s.power.sumOf 100 with
  | some (old, before), some now =>
    if s.power.sinceDeeper < 100 then s else
    let d : Int := (before : Int) - (now : Int)
    let levels := (List.range (s.power.level - old)).map (old + 1 + ·)
    s.modPower fun p => { p with measuring := none, deltas := levels.foldl (fun l n => upsert l n 0 fun _ => d) p.deltas }
  | _, _ => s
/-- What the kettle does after a sample, power in mW (R387): four levels deeper on the 100 µs mean, one on the 1 ms mean (at level 16
the overrun is counted instead), one shallower on the 10 ms mean. -/
def State.kettleMove (s : State) : State :=
  let limit := 1000 * s.powerLimit
  let p := s.power
  let exceeds := fun (n margin : Nat) (plus : Bool) => match p.sumOf n with
    | some t => if plus then decide (n * (limit + margin) < t) else decide (n * limit < t + n * margin)
    | none => false
  if exceeds 10 90000 true && decide (p.level < 16) then s.deeper 4 false
  else if p.trial.isSome then s
  else if p.level = 16 ∧ p.sincePaced ≥ 100 ∧ exceeds 100 0 true = true then (s.modPower fun p => { p with sincePaced := 0 }).count 7 0 2 1
  else if p.level < 16 ∧ p.sincePaced ≥ 100 ∧ exceeds 100 20000 false = true then s.deeper 1 true
  else match p.sumOf 1000, p.deltas.lookup p.level with
    | some t, some d =>
      if p.level > 0 ∧ p.hot = false ∧ (t : Int) + 10 * d ≤ (1000 * (limit - 40000) : Nat) then s.setLevel (p.level - 1) else s
    | _, _ => s
/-- KETTLE_SAMPLE (R387): 10 µs pass, and the waits that stand are counted (R223). -/
def execKettleSample (milliwatts : Nat) (s : State) : Out :=
  if s.boot.phase = .off ∨ s.boot.phase = .lost then .next s else
  let s := ({ s with time := s.time + 10 } : State).waited
  if !s.kettleRuns then .next s else
  let s := s.modPower fun p => { p with
    samples := (milliwatts :: p.samples).take 1000, sinceDeeper := p.sinceDeeper + 1, sincePaced := p.sincePaced + 1
    sinceTrial := p.sinceTrial + 1 }
  .next s.recordFall.kettleMove
/-- KETTLE_TRIAL (R387, R388): 1 s above level 0 with no deeper move, at most one trial per 1 s, no hot sensor. -/
def execKettleTrial (s : State) : Out :=
  let p := s.power
  if !s.kettleRuns || p.level = 0 || p.trial.isSome || p.hot || decide (p.sinceDeeper < 100000) || decide (p.sinceTrial < 100000) then .next s
  else .next ((s.setLevel (p.level - 1)).modPower fun p => { p with trial := some (p.level + 1, (p.samples.take 100).sum), sinceTrial := 0 })
/-- KETTLE_TRIAL_END (R387): after 1 ms the shallower level stands, or the deeper one returns with the rise as its Δ. -/
def execKettleTrialEnd (s : State) : Out :=
  match s.power.trial, s.power.sumOf 100 with
  | some (level, before), some now =>
    if !s.kettleRuns || decide (s.power.sinceTrial < 100) then .next s else
    let s := s.modPower fun p => { p with trial := none }
    if now ≤ 100 * (1000 * s.powerLimit - 20000) then .next s
    else .next ((s.setLevel level).modPower fun p => { p with deltas := upsert p.deltas level 0 fun _ => (now : Int) - (before : Int) })
  | _, _ => .next s

-- Temperature (R388, Table 16.13)

/-- THERMAL_THROTTLE_TICK (R388): one level deeper every 10 ms while some sensor is at its throttle threshold. -/
def execThermalThrottleTick (hot : Bool) (s : State) : Out :=
  if !s.kettleRuns then .next s else
  let s := s.modPower fun p => { p with hot := hot }
  .next (if hot && decide (s.power.level < 16) then s.deeper 1 false else s)
/-- THERMAL_TRIP (R388): the module is forced toward PS3. -/
def execThermalTrip (_sensor : SensorKind) (s : State) : Out :=
  if !s.kettleRuns then .next s else .next (s.modPower fun p => { p with tripped := true, hot := true }).towards
/-- THERMAL_TRIP_CLEAR (R388): shallower requests act again, the one that held I/O stands for among them. -/
def execThermalTripClear (s : State) : Out :=
  if !s.power.tripped then .next s else
  let held := s.nvme.waits.any fun w => match w with | .io _ _ => true | _ => false
  let s := s.modPower fun p => { p with tripped := false, hot := false, req := if held then Nat.min p.req 2 else p.req }
  .next s.towards

end Sys2Proof.Machine
end

