-- ==== Sys2Proof/Machine/Start.lean ====
section
/-! DEFINITION. Power-on and start (chapter 17, R389 to R393, R402, R405, R406), control-core restarts, PCIe retrains and hardware
failures (chapter 15, R360, R366, R368), scrub (R227, R228, R361 to R363). -/

namespace Sys2Proof.Machine

-- Order 3: self-test and mapping (R132)

/-- Physical cores of a quadrant that pass, in ascending order. -/
def passing (failed : List (Fin 52)) (q : Nat) : List Nat :=
  ((List.range 13).map (13 * q + ·)).filter fun n => !(failed.any fun f => f.val == n)
/-- The mapping of R132: the i-th passing core, the first one left over as the spare. -/
def State.mapCores (s : State) (failed : List (Fin 52)) : State :=
  let cores := Vector.ofFn fun (c : Fin 48) => ({ phys := (passing failed (c.val / 12))[c.val % 12]? } : Core)
  let spares := Vector.ofFn fun (q : Fin 4) => ((passing failed q.val)[12]?).map fun n => (n, false)
  let held := BitVec.ofNat 52 ((failed.map fun f => 2 ^ f.val).eraseDups.sum)
  ({ s with cores := cores } : State).modBoot fun b => { b with spares := spares, heldOut := held }

-- Order 5: retained settings (R392)

/-- The record of After cold start values: every word but pot 0's `CORES` is its default. -/
def State.defaultRecord (s : State) : List (Nat × BitVec 64) := [(0x1000, BitVec.ofNat 64 (rsDefault s 0x1000))]
/-- A copy's record as it is restored; before the first commit it holds After cold start values (assumption log 39). -/
def State.recordOf (s : State) (w : List (Nat × BitVec 64)) (n : Nat) : List (Nat × BitVec 64) := if n = 0 then s.defaultRecord else w
/-- Restores the newer valid copy; with neither, After cold start values and `SETTINGS_INVALID`. -/
def State.restoreSettings (s : State) (newer older : Bool) : State :=
  if newer then s.modBoot fun b => { b with
    settings := s.recordOf b.settings b.settingsSeq, older := if older then b.older else none }
  else match s.boot.older with
    | some (w, n) => if older then s.modBoot fun b => { b with settings := s.recordOf w n, settingsSeq := n, older := none }
      else s.modBoot fun b => { b with settings := s.defaultRecord, older := none, invalid := true }
    | none => s.modBoot fun b => { b with settings := s.defaultRecord, invalid := true }

/-- POWER_ON (Table 17.1, orders 1 to 6; R436): straps sampled, cores mapped, a slot booted, settings restored. Which feed came first
is free. -/
def execPowerOn (straps : BitVec 3) (failedCores : List (Fin 52)) (slotA slotB : Option Manifest) (copyA copyB : Bool) (s : State) : Out :=
  if s.boot.phase ≠ .off ∧ s.boot.phase ≠ .lost then .next s else
  let first := Config.pick s.free 0 2
  let s := s.used.modPower fun p => { p with straps := straps, feeds := (Vector.replicate 2 false).setIfInBounds first true }
  let s := (s.mapCores failedCores).restoreSettings copyA copyB
  let s := if s.sec.debugKeys then
      let s := s.modSec fun x => { x with debugKeys := false }
      if s.sec.lifecycle == .provisioned || s.sec.lifecycle == .operational then s.makeMediaKeys else s
    else s
  let read := fun (n : Nat) => if n = 1 then slotA else slotB
  let ok := fun (n : Nat) => (s.slot n).record.isSome && ((read n).map s.manifestOk).getD false
  let s := (s.modMedia fun m => { m with fastScrub := true }).freshPots
  .next (s.bootSlot ok)

/-- A hard fault is remembered, counted and posted once (R227). -/
def State.hardFault (s : State) (t : MemTier) (addr : Nat) : State :=
  if s.tiers.hard.contains (t, addr) then s else
  let (inst, tier, n) := tierCodes t
  let s := s.modTiers fun m => { m with hard := m.hard ++ [(t, addr)], suspects := m.suspects.filter fun e => !(e.1 == t && e.2.1 == addr) }
  (s.count 4 inst 2 1).modEvent 0x0008 (natLe 1 tier ++ natLe 1 n ++ zeros 6 ++ natLe 8 addr)
/-- A bay at start-up: a caddy that is present is powered, a member whose lever is open is released (R443). -/
def State.bringUp (s : State) (n : Nat) : State :=
  let b := s.bay n
  if !b.present || b.safe then s
  else if b.lever then
    let s := s.modBay n fun b => { b with st := 7, safe := true, quiet := false, member := none }
    if b.member.isSome then s.memberAbsent n else s
  else s.powerBay n

/-- DRAM_TRAINING_DONE (orders 6 to 9): control cores run, and every occupied bay is brought up whose lever is closed and which is
not released (R443); at a cold start an open lever releases its bay. -/
def execDramTrainingDone (s : State) : Out :=
  if s.boot.phase ≠ .training then .next s else
  .next ((List.range 8).foldl State.bringUp (s.modBoot fun b => { b with phase := .booting }))

/-- Half the refresh threshold (R315, R316). -/
def Block.half (x : Block) : Nat := if x.pslc then 250000 else 30000
/-- Read counts at a start (R316). -/
def State.setReads (s : State) : State :=
  let fix := fun (x : Block) => { x with reads := if s.media.orderly then x.durable else Nat.max x.durable x.half }
  let bay := fun (b : Bay) => { b with blank := fix b.blank, blocks := b.blocks.map fun e => (e.1, fix e.2) }
  s.modMedia fun m => { m with bays := m.bays.map bay }
/-- MODULE_READY (orders 9 to 13): read counts and the loss log, then `READY`; a map that cannot be read is rebuilt meanwhile
(R319, R390). The slot that runs becomes the boot pointer's (R406). -/
def execModuleReady (mapReadable : Bool) (s : State) : Out :=
  if s.boot.phase ≠ .booting then .next s else
  let s := s.setReads.buildLoss
  let s := s.modMedia fun m => { m with startOrderly := m.orderly, orderly := false, rebuildingMap := !mapReadable }
  let s := s.modBoot fun b => { b with phase := .ready, pointer := b.active, lossDue := !s.nvme.loss.isEmpty }
  let s := s.modNvme fun n => { n with ready := n.enabled }
  .next (if s.nvme.loss.isEmpty then s else s.nvEvent 0xC0).towards

/-- WEIGHT_RELOAD (R402): images in load order; layers that the pot's share has no room for become flash-poured (R214). -/
def execWeightReload (image : Nat) (s : State) : Out :=
  match s.images.find? (·.reload) with
  | none => .next s
  | some im =>
    if im.id ≠ image ∨ s.boot.phase ≠ .ready then .next s else
    let s : State := { s with images := s.images.map fun i => if i.id == image then { i with reload := false } else i }
    let r := s.allocPinned true { key := .weights image, pot := im.pot, cls := .pinned, size := im.residentBytes }
    .next (if r.2 = .refused then { r.1 with images := r.1.images.map fun i => if i.id == image then { i with resident := 0, residentBytes := 0 } else i }
      else r.1).tidy

-- Watchdogs (R366, R405, R406)

/-- BOOT_WATCHDOG (R406): a recovery reset into the other slot, tried once. -/
def execBootWatchdog (s : State) : Out :=
  if s.boot.phase ≠ .booting then .next s
  else if s.boot.active ≠ s.boot.pointer then .next (s.modBoot fun b => { b with phase := .bootFailed, active := 0, version := 0 })
  else .next (s.startDrain 3)
/-- SE_WATCHDOG (Table 17.9): the element restarts from ROM; requests in progress get no answer, keys stay. -/
def execSeWatchdog (s : State) : Out :=
  if s.boot.phase = .off ∨ s.boot.phase = .lost ∨ s.boot.phase = .failed then .next s else
  .next (s.modSec fun x => { x with token := none, chunks := none, large := none, versionOk := false, algorithmsOk := false, reply := .none })
/-- A journal cannot be read (R366): the items whose state it held, which no rule names, complete with `INTERNAL_FAULT`. -/
def State.loseJournal (s : State) : State :=
  ((s.jobs.zipIdx.filter fun e => Config.pick s.free e.2 2 == 1).foldl (fun s e => s.abortJob e.1.key 0x50) s).used.tidy
/-- CONTROL_CORE_WATCHDOG (R366, Table 17.9): restart in place; in a hold, or within 60 s of a restart, a recovery reset. Halted cores'
watchdogs stand still (R414). -/
def execControlCoreWatchdog (cc : Fin 16) (journalOk : Bool) (s : State) : Out :=
  if s.boot.phase ≠ .ready ∨ s.power.halted.getLsbD cc.val = true then .next s
  else if s.boot.hold.isSome || s.boot.restartsAt.any (fun r => decide (s.time < r.2 + 60000000)) then .next (s.startDrain 1)
  else
    let s := s.modBoot fun b => { b with restartsAt := (cc.val, s.time) :: b.restartsAt }
    .next (if journalOk then s else s.loseJournal)

/-- PCIE_RETRAIN (R360): completions are held from the link's loss until it has recovered. -/
def execPcieRetrain (recovered : Bool) (s : State) : Out :=
  if !recovered then
    if s.host.retraining then .next s else .next ((s.modHost fun h => { h with retraining := true }).count 6 4 10 1)
  else
    let held := s.host.linkHeld
    let s := s.modHost fun h => { h with retraining := false, linkHeld := [] }
    .next (held.foldl (fun s e => s.postCq (fin8 e.1) (fin16 e.2.1) e.2.2) s)

/-- An optical engine fails (R367): its bay's caddy is absent for good, its half of the peer port is out and the link retrains on the
other four lanes. -/
def State.loseEngine (s : State) (n : Nat) : State :=
  if s.boot.engines.contains n then s else
  let s := s.modBoot fun b => { b with engines := b.engines ++ [n] }
  let s := if (s.bay n).present then s.failCaddy n else s
  let q := n / 2
  let p := s.port q
  if p.st != .up then s else
  let out := ((List.range 4).map (4 * (n % 2) + ·)).filter fun l => p.lanes.getLsbD l
  let s := (s.modPort q fun p => { p with lanes := p.lanes &&& ~~~(BitVec.ofNat 8 ((out.map fun l => 2 ^ l).sum)) }).count 6 q 9 out.length
  s.retrain q
/-- HARDWARE_FAILURE (R368): the module stops; its items end (R364). An optical engine's stops nothing else (R367). -/
def execHardwareFailure (part : HwPart) (s : State) : Out :=
  if s.boot.phase = .off ∨ s.boot.phase = .lost ∨ s.boot.phase = .failed then .next s else
  match part with
  | .opticalEngine n => .next (s.loseEngine n.val).tidy
  | _ =>
  let s := if part = .pcie then s else s.jobs.foldl (fun s j => s.abortJob j.key 0x50) s
  .next (s.haltWork.dropLinks.modBoot fun b => { b with phase := .failed, failedPart := some part, hold := none })

-- Scrub (R226 to R228, R361 to R363)

/-- What a word of pooled memory may lie in (Tables 9.3, 9.6). -/
inductive Content where
  | entry (e : PoolEntry)
  | row (table stack : Nat)
  | shelf (table row : Nat)
  | code (image variant word : Nat)
  | area
deriving DecidableEq, Repr
/-- A quadrant store holds words of an entry of the quadrant-store pool: a `PER_CORE` copy lies in its core's quadrant, another region
over the quadrants of the pot's cores, column statistics in all four (R121, R210). -/
def State.inQuadrant (s : State) (q : Nat) (e : PoolEntry) : Bool :=
  match e.key with
  | .region j n k =>
    let mine := ((s.job? j).bind s.jobImage).any fun im => im.regions.any fun r => r.number == n && r.perCore
    if mine then ((s.coreAt j k).getD ((s.potCores e.pot).getD k 0)) / 12 == q else (s.potCores e.pot).any fun c => c / 12 == q
  | _ => true
/-- Everything that lies in a DRAM stack or a quadrant store; row i of a table lies in stack i mod 8, a shelf copy in its row's quadrant
(R112, R120, R210). -/
def State.contents (s : State) (t : MemTier) : List Content :=
  match t with
  | .dram n =>
    ((s.pool true).filter fun e => match e.key with | .table _ => false | _ => true).map .entry ++ s.tables.map (fun t => .row t.id n.val) ++
    (s.images.map fun im => (im.variants.zipIdx.map fun v => (List.range v.1.code.length).map fun w => Content.code im.id v.2 w).flatten).flatten ++ [.area]
  | .quadrant q =>
    ((s.pool false).filter (s.inQuadrant q.val)).map .entry ++
    (s.tables.map fun t => (t.shelf.filter fun r => quadOf r.row == q.val).map fun r => Content.shelf t.id r.row).flatten ++ [.area]
  | _ => []
/-- Where in that memory the word lies is free beyond what R112 and R210 place (assumption log 1). -/
def State.contentOf (s : State) (t : MemTier) : Content := let l := s.contents t; l.getD (Config.pick s.free 0 l.length) .area
/-- The pot that a word's content is charged to. -/
def State.contentPot (s : State) (t : MemTier) (c : Content) : Option Nat :=
  match t, c with
  | .core n, _ => (s.mappedTo n.val).bind s.corePot
  | _, .entry e => some e.pot
  | _, .row id _ => (s.table? id).map (·.pot)
  | _, .shelf id _ => (s.table? id).map (·.pot)
  | _, .code im _ _ => (s.image? im).map (·.pot)
  | _, .area => none
/-- A correction or an uncorrectable read is counted per instance and per pot, a correction also for the job whose core was read, under
its tags (R226, R359, R411). -/
def State.countWord (s : State) (t : MemTier) (c : Content) (bad : Bool) : State :=
  let s := s.count 4 (tierCodes t).1 (b2n bad) 1
  let s := match s.contentPot t c with
    | some p => s.modPot p fun q => { q with words := if bad then (q.words.1, q.words.2 + 1) else (q.words.1 + 1, q.words.2) }
    | none => s
  match t with
  | .core n => match s.mappedTo n.val with
    | some k => if bad then s else s.attributeRun k ((s.core k).layer, (s.core k).oper) 37 1
    | none => s
  | _ => s
/-- A row of a stack that a table's slice on this module holds: row 8k + n, k free. -/
def State.rowIn (s : State) (t : Table) (n : Nat) : Option Nat :=
  let row := 8 * Config.pick s.free 2 (ceilDiv t.rows 8) + n
  if row < t.rows && t.holds s.self row && !t.empty then some row else none
/-- A word of an entry's frames: its offset in the object. -/
def State.wordIn (s : State) (e : PoolEntry) : Nat := 65536 * e.first + 8 * Config.pick s.free 2 (Nat.max (e.size / 8) 1)
/-- A read of a page as the step or item that attends it selected it (R31), else on its own. -/
def State.readerOf (s : State) (key : PoolKey) (r : LeafRead) : LeafRead :=
  (((s.pots.toList.map fun q => q.loop.selected).flatten ++ (s.jobs.filterMap (·.attend)).flatMap (·.selected)).find? fun x => x.poolKey == key).getD r
/-- A cup's item fails at the end of the step, and the cup leaves (Table 9.6). -/
def State.loseCup (s : State) (i : Nat) : State :=
  match s.cups.find? (·.idx == i) with
  | some k => (s.modItem k.job k.item fun x => x.fail 0x50).modCup i fun x => { x with phase := .leaving }
  | none => s
/-- What the module does with an uncorrectable word, by its content (Table 9.6); in the DRAM module area it is a recovery reset
(Table 17.3), and the quadrant stores' holds nothing of a job. Growth buffers, infuser staging and column statistics, which the table
does not name, go as a cup reservation, an owned frame and a row record do (DESIGN CHOICE, assumption log 58). -/
def State.loseWord (s : State) (t : MemTier) (c : Content) : State :=
  match c with
  | .entry e => if e.cls == .cached && (match e.key with | .leaf _ _ _ _ _ => false | .centroid _ _ => false | _ => true) then s.dropEntries (· == e) else
    match e.key with
    | .leaf sp l h i g => s.reread (s.readerOf e.key { pot := e.pot, space := sp, layer := l, head := h, index := i, gen := g
                                                       tail := s.cups.any fun c => c.tail == sp && c.pot == e.pot })
    | .centroid k n => s.reread { pot := e.pot, space := k, index := n, cent := true }
    | .graph _ _ => s.dropEntries (· == e)
    | .page _ _ _ _ => s.dropEntries (· == e)
    | .weights im => { s.dropEntries (· == e) with images := s.images.map fun i => if i.id == im then { i with reload := true } else i }
    | .staging j => s.abortJob j 0x50
    | .growth i _ _ _ => s.loseCup i
    | .cup i => s.loseCup i
    | .table id => match t with
      | .quadrant q => s.modTable id fun t => { t with badStats := q.val :: t.badStats }
      | _ => s
    | .region j n k => s.modTiers fun t => { t with regionPoison := t.regionPoison ++ [((j, n, k), s.wordIn e, 8, .memBad)] }
    | .steep j _ => s.abortJob j 0x50
    | .saved j =>
      let at_ := 0x1200000 + 8 * Config.pick s.free 3 262144
      match ((s.job? j).map (·.parked)).bind fun l => l[Config.pick s.free 2 l.length]? with
      | some inv => if at_ < 0x1200100 then s.abortJob j 0x50 else s.modTiers fun t => { t with
          regionPoison := t.regionPoison ++ [(savedArea j inv.ordinal, at_, 8, .memBad)] }
      | none => s
  | .row id n => match (s.table? id).bind fun t => s.rowIn t n with
    | some row => s.modTable id fun t => { t with recs := setRec t.recs { recOf t.recs row with bad := true } }
    | none => s
  | .shelf id row => s.modTable id fun t => { t with shelf := t.shelf.map fun r => if r.row = row then { r with bad := true } else r }
  | .code im v w => { s with images := s.images.map fun i => if i.id = im then { i with badCode := (v, w) :: i.badCode } else i }
  | .area => match t with
    | .dram _ => s.startDrain 1
    | _ => s
/-- An uncorrectable word (R228): core store is poisoned, window weights are read again; the rest goes by its content. No row of
Table 9.6 names words of the media buffers and of the control-core memories (assumption log 58). -/
def State.uncorrectable (s : State) (t : MemTier) (addr : Nat) : State :=
  let c := s.contentOf t
  let s := s.countWord t c true
  match t with
  | .core n => match s.mappedTo n.val with
    | some c => if 8 * addr < 0x1200000 then s else s.modCore c fun k => { k with poison := k.poison ++ [(8 * addr, 8, .memBad)] }
    | none => s
  | .quadrant _ => (s.loseWord t c).used.tidy
  | .dram _ => (s.loseWord t c).used.tidy
  | .media _ => s
  | .control _ => s
/-- Eight free bytes. -/
def freeBytes8 (c i : Nat) : Bytes := natLe 8 (Config.freeWord c i).toNat
/-- A record whose block bytes are free from a word on. -/
def RowRec.garble (r : RowRec) (c : Nat) : RowRec :=
  let hit := Config.pick c 3 (Nat.max (r.w.length + r.m.length) 1)
  let blk := fun (i : Nat) (b : Bytes) => if i = hit then let a := 8 * Config.pick c 4 (Nat.max (b.length / 8) 1); b.take a ++ (freeBytes8 c 5 ++ b.drop (a + 8)).take (b.length - a) else b
  { r with w := r.w.zipIdx.map fun e => blk e.2 e.1, m := r.m.zipIdx.map fun e => blk (r.w.length + e.2) e.1
           scalar := if (r.w.length + r.m.length = 0) then (Config.freeWord c 6).setWidth 32 else r.scalar }
/-- Wrong data passes for right (Table 9.5, four errors or more): the word holds a free value from now on. A cached page's own CRC
finds it at its next check, which counts as its loss now; what else the pools hold is left as it is (assumption log 58). -/
def State.garble (s : State) (t : MemTier) (addr : Nat) (c : Content) : State :=
  match t, c with
  | .core n, _ => match s.mappedTo n.val with
    | some c => s.modCore c fun k => { k with store := Memory.writeN k.store (8 * addr) (freeBytes8 s.free 5) }
    | none => s
  | _, .entry e => match e.key with
    | .region j n k => s.modTiers fun t => { t with regions := upsert t.regions (j, n, k) [] fun m => Memory.writeN m (s.wordIn e) (freeBytes8 s.free 5) }
    | .leaf _ _ _ _ _ => s.loseWord t c
    | .centroid _ _ => s.loseWord t c
    | .page _ _ _ _ => s.loseWord t c
    | .table id => match t with
      | .quadrant q => s.modTable id fun t => { t with stats := t.stats.zipIdx.map fun e => if e.2 = q.val then (
          e.1.set (Config.pick s.free 3 e.1.length) ((Config.freeWord s.free 5).setWidth 32)) else e.1 }
      | _ => s
    | _ => s
  | _, .row id n => match (s.table? id).bind fun t => s.rowIn t n with
    | some row => s.modTable id fun t => { t with recs := setRec t.recs ((recOf t.recs row).garble s.free) }
    | none => s
  | _, .shelf id row => s.modTable id fun t => { t with shelf := t.shelf.map fun r => if r.row = row then r.garble s.free else r }
  | _, .code im v w => { s with images := s.images.map fun i => if i.id = im then { i with
      variants := i.variants.zipIdx.map fun e => if e.2 = v then { e.1 with
        code := e.1.code.set w ((Config.freeWord s.free 5).setWidth 128 ||| ((Config.freeWord s.free 6).setWidth 128 <<< 64)) } else e.1 } else i }
  | _, .area => s
/-- A corrected read of a word (R226, R227): the same positions as at its last read are a hard fault. -/
def State.corrected (s : State) (t : MemTier) (addr : Nat) (errs : List (Fin 80)) : State :=
  let s := s.countWord t (s.contentOf t) false
  if s.tiers.hard.contains (t, addr) then s
  else if s.tiers.suspects.contains (t, addr, errs) then s.hardFault t addr
  else s.modTiers fun m => { m with suspects := (m.suspects.filter fun e => !(e.1 == t && e.2.1 == addr)) ++ [(t, addr, errs)] }
/-- A scrub read of a word (Table 9.5); four errors or more end in one of three ways, which is free. -/
def State.scrubWord (s : State) (t : MemTier) (addr : Nat) (errs : List (Fin 80)) (retry : Bool) : State :=
  let (inst, _, _) := tierCodes t
  let s := s.count 4 inst 4 1
  let dram := match t with | .dram _ => true | _ => false
  let bad := fun (s : State) =>
    let s := if dram then s.count 4 inst 3 1 else s
    if dram && retry then s else s.uncorrectable t addr
  let n := errs.eraseDups.length
  if n = 0 then s.modTiers fun m => { m with suspects := m.suspects.filter fun e => !(e.1 == t && e.2.1 == addr) }
  else if n ≤ 2 then s.corrected t addr errs
  else if n = 3 then bad s
  else
    let k := Config.pick s.free 0 3
    let s := s.used
    let c := s.contentOf t
    if k = 0 then bad s else ((if k = 1 then s.countWord t c false else s).garble t addr c).used.tidy
/-- A scrub read of a flash member (R362): a group that needs it is refreshed; groups in `ERASING` are skipped. -/
def State.scrubFlash (s : State) (n g : Nat) (soft heavy unreadable : Bool) : State :=
  let x := (s.bay n).block ((s.bay n).phys g)
  let old := decide (x.closedAt + 60 * 1440 < s.time / 60000000) && x.st == .closed
  if (s.bay n).rebuild.isSome || x.st == .erasing || x.st == .suspended then s else
  let s := s.modBay n fun b => (b.modBlock (b.phys g) fun x => { x with reads := x.reads + 1 }).count 0 1
  let s := if soft then s.modBay n fun b => b.count 3 1 else s
  let s := if unreadable then s.modBay n fun b => (b.count 4 1).count 5 1 else s
  if (soft || heavy || unreadable || old) && s.movable g then s.relocate g else s
/-- SCRUB_READ (R361): an ordinary read that the module makes on its own, in PS0 to PS2 where it reads flash. Before order 6 it is
the read-back of the fill, and a word that fails it is a hard fault (R231; DESIGN CHOICE, assumption log 58). -/
def execScrubRead (target : ScrubTarget) (s : State) : Out :=
  if s.boot.phase = .training then
    match target with
    | .word t a errs _ => .next (if errs.isEmpty then s else s.hardFault t a)
    | .flash .. => .next s
  else
  if s.boot.phase ≠ .ready then .next s else
  match target with
  | .word t a errs retry => .next (s.scrubWord t a errs retry)
  | .flash b g soft heavy unreadable => if 3 ≤ s.power.st then .next s else .next (s.scrubFlash b.val g soft heavy unreadable)

end Sys2Proof.Machine
end

