-- ==== Sys2Proof/Machine/Settings.lean ====
section
/-! DEFINITION. Staged settings and commits (chapter 11, R259 to R261; chapter 14, R338, R339; chapters 17 and 19, R392, R393, R422,
R425, R426). -/

namespace Sys2Proof.Machine

-- Ranges (Tables 11.1, 14.3, 19.4; R198, R202, R224, R260, R339, R426)

/-- A field [hi:lo] of a word brought into a range. -/
def clampField (w hi lo low high : Nat) : Nat :=
  let v := bits w hi lo
  w - v * 2 ^ lo + Nat.min high (Nat.max low v) * 2 ^ lo
/-- A field that is 0 for off, else brought into a range. -/
def clampOn (w hi lo low high : Nat) : Nat := if bits w hi lo = 0 then w else clampField w hi lo low high
/-- The word at an offset with its fields brought into their ranges; `DRAM`, `QSTORE` and `FLASH` are checked instead (R260). -/
def clampWord (off w : Nat) : Nat :=
  if 0x1000 ≤ off ∧ off < 0x1800 then
    let k := off % 0x100
    if k = 0x08 then clampOn (clampField (clampField (clampField w 10 0 1 1024) 22 16 1 100) 41 32 10 1000) 52 48 6 16
    else if k = 0x10 then clampField w 46 32 0 16384
    else if k = 0x18 then clampField w 63 32 1 (2 ^ 32 - 1)
    else if k = 0x20 then clampField w 13 0 1 10000
    else if 0x40 ≤ k ∧ k < 0xC0 then clampOn (clampField w 10 0 1 1024) 31 16 1 60000
    else w
  else if off = 0x1848 then
    clampField (clampField (clampField (clampField (clampField w 9 0 10 1000) 25 16 1 1000) 34 32 1 7) 38 36 1 7) 42 40 1 7
  else if off = 0x1900 then clampField (clampField (clampField (clampField (clampField w 10 0 900 1800) 31 24 2 200) 36 32 0 20) 45 40 0 32) 58 48 1 1024
  else if off = 0x1908 then clampField w 16 0 16 65536
  else w

/-- Staged bits of one word: offset, value, mask. -/
abbrev Staged := List (Nat × BitVec 64 × BitVec 64)
/-- The record that staged values make: merged word by word, then clamped. -/
def State.merge (s : State) (snap : Staged) : List (Nat × BitVec 64) :=
  snap.foldl (fun l (off, v, m) =>
    let old := match l.lookup off with | some w => w | none => BitVec.ofNat 64 (rsDefault s off)
    upsert l off 0 fun _ => BitVec.ofNat 64 (clampWord off ((old &&& ~~~m) ||| (v &&& m)).toNat)) s.boot.settings
/-- The state with another record in force, by which the checks read it. -/
def State.withRecord (s : State) (r : List (Nat × BitVec 64)) : State := s.modBoot fun b => { b with settings := r }

-- The checks (R260, R261, R339)

/-- A structural field of a pot differs between two records (R261). -/
def structural (a b : State) (p : Nat) : Bool :=
  bits (a.potRec p 0) 49 0 != bits (b.potRec p 0) 49 0 || a.potRec p 0x10 != b.potRec p 0x10 || bits (a.potRec p 0x18) 16 0 != bits (b.potRec p 0x18) 16 0
/-- The pot owns an object or a namespace (R261). -/
def State.ownsAny (s : State) (p : Nat) : Bool :=
  s.corpora.any (·.pot == p) || s.colls.any (·.pot == p) || s.tables.any (·.pot == p) || s.images.any (·.pot == p) || s.nvme.spaces.any (·.pot == p)
/-- Stopped or disabled. -/
def State.potAtRest (s : State) (p : Nat) : Bool := (s.pot p).st == 0 || (s.pot p).st == 3
def State.potMask (s : State) (p : Nat) : Nat := bits (s.potRec p 0) 47 0

/-- Every enabled record together (R260), the new record being `n`'s. -/
def recordOk (s n : State) : Bool :=
  let on := (List.range 8).filter n.potEnabled
  (on.all fun p => n.potMask p != 0 && Nat.land (n.potMask p) s.present == n.potMask p &&
    on.all fun q => p == q || Nat.land (n.potMask p) (n.potMask q) == 0) &&
  decide ((on.map n.potDram).sum ≤ 352 * 2 ^ 30) && decide ((on.map n.potQstore).sum ≤ n.poolSize false) &&
  decide ((on.map n.potFlash).sum ≤ 74505 * 262144) &&
  on.all fun p => decide (n.potSpill p * 262144 ≤ n.potFlash p) && decide (s.pinned true p ≤ n.potDram p) &&
    decide (s.pinned false p ≤ n.potQstore p) && decide (s.unitsHeld p + n.potSpill p * 262144 ≤ n.potFlash p)
/-- Structural changes find their pot at rest, and a pot that is disabled is stopped and owns nothing (R261). -/
def changesOk (s n : State) : Bool :=
  (List.range 8).all fun p => (!structural s n p || s.potAtRest p) &&
    (!(s.potEnabled p && !n.potEnabled p) || ((s.pot p).st == 3 && !s.ownsAny p))
/-- The peer group record (R339). -/
def groupOk (s n : State) : Bool :=
  let ports := (List.range 4).map n.portOrdinal
  let used := ports.filter fun o => decide (o ≤ 4)
  decide (used.eraseDups.length = used.length) && !ports.contains n.self && !ports.contains 5 && !ports.contains 6 && decide (n.self ≤ 4) &&
  (n.groupId == 0 || n.potEnabled n.servingPot) &&
  (s.potAtRest s.servingPot || (s.groupId == n.groupId && s.self == n.self && s.servingPot == n.servingPot && (List.range 4).map s.portOrdinal == ports))
/-- A commit of a snapshot passes its check (R393, R425). -/
def State.commitOk (s : State) (snap : Staged) : Bool :=
  let n := s.withRecord (s.merge snap)
  (s.sec.lifecycle == .provisioned || s.sec.lifecycle == .operational) && recordOk s n && changesOk s n && groupOk s n

/-- A commit request (R393, R425): one that runs makes it ignored and counted; a failed check sets `SETTINGS_ERROR`. -/
def State.commit (s : State) : State :=
  if !s.boot.up then s
  else if s.boot.committing.isSome then s.count 7 0 1 1
  else if s.commitOk s.boot.staged then s.modBoot fun b => { b with committing := some b.staged, staged := [] }
  else s.modBoot fun b => { b with error := true }
/-- COMMIT (R433: PF1 alone). -/
def execCommit (fn : PcieFn) (s : State) : Out := .next (if fn = .pf1 then s.commit else s)

-- Values take effect (R387, R389, R426)

/-- Words of a record that hold fields of a pot that are not structural (Table 11.1). -/
def liveWords : List Nat := [0x00, 0x08, 0x18, 0x20] ++ (List.range 16).map fun r => 0x40 + 8 * r
/-- A pot that runs a slice keeps what changed, beside structural fields, to the slice's end (R261). -/
def State.keepWords (s o : State) (p : Nat) : State :=
  if (s.pot p).running.isNone then s else
  let new := (liveWords.filter fun k => o.potRec p k != s.potRec p k && ((s.pot p).kept.lookup k).isNone).map
    fun k => (k, BitVec.ofNat 64 (o.potRec p k))
  s.modPot p fun q => { q with kept := q.kept ++ new }
/-- The windows that run keep their `HOT_THRESHOLD` (R426). -/
def State.keepHot (s o : State) : State :=
  if s.hotThreshold = o.hotThreshold then s else
  s.modEmbed fun e => { e with
    hotOld := e.hotOld ++ ((List.range 4).filter fun q => (e.hotOld.lookup q).isNone).map fun q => (q, o.hotThreshold) }
/-- What a pot becomes under a new record: created running, gone, or with its cores and queue core chosen anew (R199, R233, R261, R425). -/
def State.settlePot (s o : State) (p : Nat) : State :=
  if s.potEnabled p && !o.potEnabled p then
    let s := s.modPot p fun _ => s.freshPot p
    let s := (s.potCores p).foldl (fun s c => s.modCore c fun k => { k with windows := [] }) s
    let s := s.modSec fun x => { x with chain := x.chain.setIfInBounds p 0 }
    if s.sec.lifecycle != .operational then s else
    let (s, k) := s.makeKey
    s.modSec fun x => { x with potKeys := x.potKeys.setIfInBounds p (some k) }
  else if !s.potEnabled p && o.potEnabled p then
    ((s.modPot p fun _ => {}).modSec fun x => { x with potKeys := x.potKeys.setIfInBounds p none }).bumpEpoch
  else if s.potMask p != o.potMask p then
    s.modPot p fun q => { q with cores := (s.freshPot p).cores, quad := (s.freshPot p).quad }
  else s.keepWords o p
/-- A port whose ordinal or digest changed trains from order 1 again (R339); without a group every port is held DOWN (R338). -/
def State.settlePort (s o : State) (n : Nat) : State :=
  let changed := s.portOrdinal n != o.portOrdinal n || s.portDigest n != o.portDigest n || (s.groupId == 0 && o.groupId != 0)
  if !changed then s else
  let s := if (s.port n).st == .up || (s.port n).st == .retraining then s.linkLoss n else s
  s.modPort n fun q => { q with st := .down, cause := 0, lanes := 0, authed := false, helloDigest := none, ordinal := 7, digest := 0, present := false }
/-- Bytes of a quadrant's shelf that stay on it. -/
def State.shelfStays (s : State) (q : Nat) : Nat :=
  (s.tables.map fun t => (t.shelf.filter fun r => quadOf r.row == q && t.redirect.lookup r.row != some .demote).length * t.recBytes s.self).sum
/-- A smaller shelf demotes rows, oldest last access first, until it fits (R426). -/
def State.shrinkShelf (s : State) (q : Nat) : Nat → State
  | 0 => s
  | k + 1 =>
    if s.shelfStays q ≤ s.shelfBytes then s else
    match s.oldestShelf q with
    | some (i, r) => State.shrinkShelf (s.demote i r) q k
    | none => s
/-- A new record comes into force, the previous one `o`'s; `limit` says that `POWER_LIMIT` was staged (R387). -/
def State.enact (s o : State) (limit : Bool) : State :=
  let s := (List.range 8).foldl (fun s p => s.settlePot o p) s
  let s := ((List.range 4).foldl (fun s n => s.settlePort o n) s).keepHot o
  let s := if limit then (s.setLevel 0).modPower fun p => { p with deltas := [], measuring := none, trial := none } else s
  let rows := (s.tables.map fun t => t.shelf.length).sum
  let s := (List.range 4).foldl (fun s q => s.shrinkShelf q rows) s
  if s.ownStatus = o.ownStatus then s.tidy else s.sendStatus.tidy
/-- A new record is written over the older copy, its `SEQ` one higher, and applied (R392, R393). -/
def State.writeRecord (s : State) (r : List (Nat × BitVec 64)) (limit : Bool) : State :=
  let n := s.modBoot fun b => { b with
    older := some (b.settings, b.settingsSeq), settings := r, settingsSeq := b.settingsSeq + 1, invalid := false }
  n.enact s limit

/-- The commit ends: waiting restarts act (R425). -/
def State.endCommit (s : State) : State :=
  let l := s.boot.restarts
  let s := s.modBoot fun b => { b with committing := none, restarts := [] }
  (l.foldl State.restartPot s).tidy
/-- COMMIT_DONE (R393): the new copy verified, every value applies at once; else nothing changes, the staged values stand, and the
error bit is set. -/
def execCommitDone (verified : Bool) (s : State) : Out :=
  match s.boot.committing with
  | none => .next s
  | some snap =>
    if verified then
      let limit := snap.any fun e => e.1 == 0x1900 && bits e.2.2.toNat 10 0 != 0
      .next (s.writeRecord (s.merge snap) limit).endCommit
    else .next (s.modBoot fun b => { b with error := true, staged := snap ++ b.staged }).endCommit

/-- A write to an RS word stages its RS bits under a mask (R422). -/
def State.stage (s : State) (off : Nat) (v mask : BitVec 64) : State :=
  let m := mask &&& BitVec.ofNat 64 (rsMask off)
  if m = 0 then s else s.modBoot fun b => { b with staged := b.staged ++ [(off, v &&& m, m)] }

end Sys2Proof.Machine
end

