-- ==== Sys2Proof/Machine/Registers.lean ====
section
/-! DEFINITION. The set-up registers as they read and as writes change them, from PF1, a VF, the sideband and the probe (chapter 19),
and counter snapshots (R407 to R411). -/

namespace Sys2Proof.Machine

-- What registers read (Tables 19.2 to 19.10)

/-- A big field put at bit `lo` of a word. -/
def at_ (v lo : Nat) : Nat := v * 2 ^ lo
def LinkState.code : LinkState → Nat
  | .down => 0
  | .training => 1
  | .up => 2
  | .retraining => 3
  | .mismatch => 4
/-- The status word 0x0008 (Table 19.2). -/
def State.statusWord (s : State) : Nat :=
  let ready := s.boot.phase == .ready
  b2n ready + at_ (b2n (ready && !s.media.rebuildingMap)) 1 + at_ (b2n s.boot.fatal) 2 + at_ (b2n (s.boot.phase == .bootFailed)) 3 +
  at_ (b2n s.boot.invalid) 4 + at_ (b2n s.boot.error) 5 + at_ (b2n s.boot.committing.isSome) 6 + at_ s.sec.lifecycle.code 8 +
  at_ (Debug.code s.sec.debug) 10 + at_ s.power.st 12 + at_ (b2n s.power.step.isSome) 15 + at_ s.power.level 16 + at_ s.boot.active 24 +
  at_ (b2n (decide (0 < s.host.numVfs))) 26
/-- Byte `n` of `CORE_MAP` (Table 19.2). -/
def State.coreMapByte (s : State) (n : Nat) : Nat := (s.core n).phys.getD 0xFF
/-- Byte `q` of `SPARES` (Table 19.2). -/
def State.sparesByte (s : State) (q : Nat) : Nat :=
  match s.boot.spares[q]?.getD none with
  | some (n, used) => n + at_ (b2n used) 6
  | none => 0x80
/-- Identity and status (Table 19.2). -/
def State.readIdentity (s : State) (off : Nat) : Nat :=
  if off = 0x00 then 0x4880 + at_ 0xB0 16 + at_ s.boot.version 32
  else if off = 0x08 then s.statusWord
  else if 0x10 ≤ off ∧ off < 0x30 then leNat (slice (natLe 32 s.sec.identity.toNat) (off - 0x10) 8)
  else if 0x40 ≤ off ∧ off < 0x70 then leNat ((List.range 8).map fun i => BitVec.ofNat 8 (s.coreMapByte (off - 0x40 + i)))
  else if off = 0x70 then leNat ((List.range 4).map fun q => BitVec.ofNat 8 (s.sparesByte q))
  else 0
/-- Module control (Table 19.3): write-only fields read as zero (R7). -/
def State.readControl (s : State) (off : Nat) : Nat :=
  if off = 0x108 then s.power.req
  else if 0x140 ≤ off ∧ off < 0x180 then at_ (s.pot ((off - 0x140) / 8)).st.toNat 8
  else 0
/-- Snapshot fields (Table 19.7). -/
def Snap.read (x : Snap) (second : Bool) : Nat :=
  if second then x.len.toNat + at_ x.mask.toNat 32 + at_ (b2n x.busy) 48 else x.addr.toNat
/-- Bay control (Table 19.5). -/
def Bay.read (b : Bay) (second : Bool) : Nat :=
  if second then b.serial else
  b.st.toNat + at_ b.lanes 4 + at_ (b2n b.safe) 10 + at_ (Nat.min 100 (walked (b.rebuild.getD 0))) 16
/-- Link status (Table 19.6). -/
def Port.read (p : Port) (second : Bool) : Nat :=
  if second then p.digest else
  p.st.code + at_ ((List.range 8).filter fun i => p.lanes.getLsbD i).length 4 + at_ p.cause.toNat 8 + at_ p.ordinal 12 + at_ (b2n p.present) 15
/-- A word of a watchpoint (Table 18.4). -/
def Watch.read (w : Watch) (k : Nat) : BitVec 64 := if k = 0 then w.base else if k = 1 then w.limit else if k = 2 then w.ctl else w.tag
/-- A word of a ring register (Table 19.8). -/
def Ring.read (r : Ring) (k : Nat) : Nat :=
  if k = 0 then r.base.toNat
  else if k = 1 then r.cfgLow r.enable + at_ (b2n r.error) 9 + at_ r.errCause.toNat 10 + at_ r.coalCount.toNat 32 + at_ r.coalTime.toNat 48
  else if k = 2 then r.moduleIndex.toNat + at_ r.hostIndex.toNat 16
  else 0
/-- The ring that a ring block holds at an offset below 0x420. -/
def ringAt (k : Nat) : RingSel := if k < 0x200 then .sq (fin16 (k / 0x20)) else if k < 0x400 then .cq (fin16 ((k - 0x200) / 0x20)) else .ev
/-- A pot's ring block (Table 19.8). -/
def State.readBlock (s : State) (p : Nat) (k : Nat) : Nat :=
  if k < 0x420 then (s.ring (some (fin8 p)) (ringAt k)).read (k % 0x20 / 8)
  else if k = 0x420 then (s.pot p).st.toNat else 0
/-- A word of an MSI-X table (R430: PCIe's layout). -/
def Msix.read (e : Msix) (second : Bool) : Nat := if second then e.data.toNat + at_ (b2n e.masked) 32 else e.addr.toNat
/-- A word of a pending-bit array. -/
def pendWord (l : List Msix) (w : Nat) : Nat :=
  ((List.range 64).map fun i => at_ (b2n ((l[64 * w + i]?.map (·.pend)).getD false)) i).sum
/-- The register of PF1 at an offset that is a multiple of 8 (Table 19.1, R421, R431). -/
def State.readPf1 (s : State) (off : Nat) : Nat :=
  let second := decide (off % 16 = 8)
  if off < 0x80 then s.readIdentity off
  else if 0x100 ≤ off ∧ off < 0x180 then s.readControl off
  else if 0x200 ≤ off ∧ off < 0x210 then s.host.snaps[0].read second
  else if 0x300 ≤ off ∧ off < 0x400 then (if off % 0x20 < 0x10 then (s.bay ((off - 0x300) / 0x20)).read second else 0)
  else if 0x400 ≤ off ∧ off < 0x440 then (s.port ((off - 0x400) / 0x10)).read second
  else if 0x500 ≤ off ∧ off < 0x700 then ((s.obs.watch[(off - 0x500) / 0x20]?.getD {}).read (off % 0x20 / 8)).toNat
  else if 0x700 ≤ off ∧ off < 0x720 then s.host.modEv.read (off % 0x20 / 8)
  else if 0x1000 ≤ off ∧ off < 0x1910 then s.rs off
  else if 0x2000 ≤ off ∧ off < 0x6000 then
    let p := (off - 0x2000) / 0x800
    if p < s.host.numVfs then 0 else s.readBlock p (off % 0x800)
  else if 0xC000 ≤ off ∧ off < 0xC890 then (s.host.msix[(off - 0xC000) / 16]?.getD {}).read second
  else if 0xD000 ≤ off ∧ off < 0xD018 then pendWord s.host.msix.toList ((off - 0xD000) / 8)
  else 0
/-- The register of VF `n` + 1 at an offset that is a multiple of 8 (Table 19.10, R433). -/
def State.readVf (s : State) (n : Nat) (off : Nat) : Nat :=
  let second := decide (off % 16 = 8)
  let t := s.host.vfMsix[n]?.getD (Vector.replicate 17 {})
  if s.host.numVfs ≤ n then 0
  else if off ≤ 0x420 then s.readBlock n off
  else if 0x800 ≤ off ∧ off < 0x810 then (s.host.snaps[n + 1]?.getD {}).read second
  else if off = 0x900 then s.readIdentity 0
  else if off = 0x908 then s.readIdentity 8
  else if 0xC00 ≤ off ∧ off < 0xD10 then (t[(off - 0xC00) / 16]?.getD {}).read second
  else if off = 0xE00 then pendWord t.toList 0
  else 0

-- Snapshots (R409, R428)

/-- A write that sets `BUSY` (R409, R428): ignored while it is set; below 64 bytes nothing is written and it clears at once. -/
def Snap.start (x : Snap) : Snap := { x with busy := x.busy || decide (64 ≤ x.len.toNat) }
/-- SNAPSHOT_START (R409). -/
def execSnapshotStart (fn : PcieFn) (s : State) : Out :=
  let k := match fn with | .pf1 => 0 | .vf n => n.val + 1
  if !s.boot.up || decide (s.host.numVfs < k) then .next s
  else .next (s.modHost fun h => { h with snaps := h.snaps.setIfInBounds k ((h.snaps[k]?.getD {}).start) })

/-- The instances of a counter family with its last index (Table 18.1). -/
def familyShape (fam : Nat) : List Nat × Nat :=
  if fam = 1 then (List.range 48, 79) else if fam = 2 then (List.range 8, 42) else if fam = 3 then (List.range 128, 6)
  else if fam = 4 then (List.range 0x34 ++ (List.range 4).map (0x40 + ·) ++ (List.range 8).map (0x48 + ·) ++ (List.range 4).map (0x50 + ·) ++
    (List.range 16).map (0x58 + ·), 4)
  else if fam = 5 then (List.range 8, 9) else if fam = 6 then (List.range 5, 15) else if fam = 7 then ([0], 19) else ([], 0)
/-- FP64 of a count (R203: the sums are kept in 64-bit floating point). -/
def f64OfNat (n : Nat) : BitVec 64 := BitVec.ofNat 64 (fp64.narrow (Val.ofNat n)).1
/-- The 64 bits of a counter as a snapshot reads it (R407, R408). -/
def State.counterBits (s : State) (fam inst idx : Nat) : BitVec 64 :=
  if fam = 1 ∧ 56 ≤ idx ∧ idx < 80 then
    let (n, a, b) := (s.core inst).conv[(idx - 56) / 3]?.getD (0, 0, 0)
    if (idx - 56) % 3 = 0 then f64OfNat n else if (idx - 56) % 3 = 1 then a else b
  else if fam = 5 ∧ idx < 8 then BitVec.ofNat 64 ((s.bay inst).counters[idx]?.getD 0)
  else BitVec.ofInt 64 (s.counter fam inst idx)
/-- The first 8 bytes of a snapshot record (Table 18.3). -/
def recordHead (kind sub inst count : Nat) : Bytes := natLe 1 kind ++ natLe 1 sub ++ natLe 2 inst ++ natLe 2 count ++ zeros 2
def State.counterRecord (s : State) (fam inst last : Nat) : Bytes :=
  recordHead 1 fam inst (last + 1) ++ ((List.range (last + 1)).map fun i => natLe 8 (s.counterBits fam inst i).toNat).flatten
def Attrib.record (a : Attrib) (sub pot : Nat) : Bytes :=
  recordHead 2 sub pot 40 ++ natLe 4 a.jobId ++ natLe 2 a.layer.toNat ++ natLe 2 a.oper.toNat ++
  ((List.range 40).map fun i => natLe 8 (lookupD a.vals i 0)).flatten
/-- A fault record (Table 18.3); its CCLK time is free (log 1). -/
def State.faultBytes (s : State) (c : Nat) : List Bytes :=
  match (s.core c).fault with
  | none => []
  | some f => [recordHead 3 0 c 0 ++ natLe 1 f.kind ++ natLe 1 f.variant ++ zeros 2 ++ natLe 4 f.pc ++ natLe 2 f.layer.toNat ++
      natLe 2 f.oper.toNat ++ zeros 4 ++ natLe 8 (Config.freeWord s.free c).toNat]
def State.windowRecords (s : State) (c : Nat) : List Bytes :=
  (s.core c).windows.zipIdx.map fun w => recordHead 4 w.2 c 0 ++ natLe 2 w.1.layer.toNat ++ natLe 2 w.1.oper.toNat ++
    natLe 2 w.1.blocks.length ++ natLe 2 (Nat.min w.1.blocks.sum 0xFFFF) ++ natLe 8 (f64OfNat w.1.sums.1).toNat ++
    natLe 8 w.1.sums.2.1.toNat ++ natLe 8 w.1.sums.2.2.toNat
/-- The records of a family: every one for PF1, its pot's alone for a VF (R409, Table 19.7). -/
def State.familyRecords (s : State) (pot : Option Nat) (fam : Nat) : List Bytes :=
  let (insts, last) := familyShape fam
  let mine := fun (i : Nat) => match pot with
    | none => true
    | some p => if fam = 1 then bit (s.pot p).cores.toNat i else if fam = 2 then i == p else if fam = 3 then i / 16 == p else false
  let own := insts.filter mine
  own.map (fun i => s.counterRecord fam i last) ++
  (if fam = 1 then (own.map fun c => s.faultBytes c ++ s.windowRecords c).flatten
   else if fam = 2 then (own.map fun p =>
      ((s.obs.attrib[p]?.getD []).map fun a => a.record 0 p) ++ [(s.obs.retired[p]?.getD {}).record 1 p, (s.obs.overflow[p]?.getD {}).record 2 p]).flatten
   else [])
/-- As many whole records as fit (R410). -/
def fitRecords : Nat → List Bytes → List Bytes
  | _, [] => []
  | room, r :: l => if r.length ≤ room then r :: fitRecords (room - r.length) l else []
/-- The bytes of a snapshot (R410, Table 18.2). -/
def State.snapshot (s : State) (k : Nat) (x : Snap) (start end_ : BitVec 64) : Bytes :=
  let fams := (List.range 8).filter fun f => decide (1 ≤ f) && x.mask.getLsbD f
  let all := (fams.map (s.familyRecords (if k = 0 then none else some (k - 1)))).flatten
  let some_ := fitRecords (x.len.toNat - 64) all
  natLe 8 (64 + (all.map List.length).sum) ++ natLe 4 some_.length ++ natLe 4 (b2n (decide (some_.length < all.length))) ++
  natLe 8 start.toNat ++ natLe 8 end_.toNat ++ zeros 32 ++ some_.flatten
/-- SNAPSHOT_DONE (R409, R410): the records are visible in host memory and `BUSY` clears. -/
def execSnapshotDone (fn : PcieFn) (startCclk endCclk : BitVec 64) (s : State) : Out :=
  let k := match fn with | .pf1 => 0 | .vf n => n.val + 1
  let x := s.host.snaps[k]?.getD {}
  if !x.busy then .next s else
  let s := s.hostWrite x.addr.toNat (s.snapshot k x startCclk endCclk)
  .next (s.used.modHost fun h => { h with snaps := h.snaps.setIfInBounds k { x with busy := false } })

-- Writes (R421, R422, R433)

/-- A write as it reaches a 64-bit register: its value in place and the mask of the bits written. -/
structure RegWrite where
  val : BitVec 64
  mask : BitVec 64
/-- Bits [31:0] are written. -/
def RegWrite.lo (w : RegWrite) : Bool := w.mask.getLsbD 0
/-- Bits [63:32] are written. -/
def RegWrite.hi (w : RegWrite) : Bool := w.mask.getLsbD 32
/-- Bit `i` is written as 1. -/
def RegWrite.one (w : RegWrite) (i : Nat) : Bool := w.mask.getLsbD i && w.val.getLsbD i
/-- A register that takes the written bits among those allowed; the others of the half written become zero. -/
def RegWrite.into (w : RegWrite) (old allowed : BitVec 64) : BitVec 64 := (old &&& ~~~w.mask) ||| (w.val &&& w.mask &&& allowed)
/-- The write that an access makes: aligned 32-bit and 64-bit ones count (R421). -/
def regWrite (off size : Nat) (v : BitVec 64) : Option RegWrite :=
  if size = 8 ∧ off % 8 = 0 then some { val := v, mask := BitVec.allOnes 64 }
  else if size = 4 ∧ off % 8 = 0 then some { val := v &&& 0xFFFFFFFF, mask := 0xFFFFFFFF }
  else if size = 4 ∧ off % 4 = 0 then some { val := v <<< 32, mask := 0xFFFFFFFF <<< 32 }
  else none

/-- Snapshot fields (Table 19.7, R428): ignored while `BUSY` is set. -/
def Snap.write (x : Snap) (second : Bool) (w : RegWrite) : Snap :=
  if x.busy then x
  else if !second then { x with addr := w.into x.addr (~~~7) }
  else
    let word := w.into (BitVec.ofNat 64 (x.read true)) (BitVec.ofNat 64 (0xFFFFFFFF + at_ 0xFE 32))
    let x := { x with len := word.truncate 32, mask := (word >>> 32).truncate 8 }
    if w.one 48 then x.start else x
/-- A word of a watchpoint (Table 18.4, R412, R414): `acts` are the action bits that the writer and the debug level allow. -/
def Watch.write (x : Watch) (k : Nat) (acts : Nat) (w : RegWrite) : Watch :=
  if k = 0 then { x with base := w.into x.base (BitVec.allOnes 64) }
  else if k = 1 then { x with limit := w.into x.limit (BitVec.allOnes 64) }
  else if k = 2 then { x with ctl := w.into x.ctl (BitVec.ofNat 64 (0x3F07FF + at_ acts 32)) }
  else { x with tag := w.into x.tag (BitVec.ofNat 64 (2 ^ 33 - 1)) }
def State.writeWatch (s : State) (n k acts : Nat) (w : RegWrite) : State :=
  s.modObs fun o => { o with watch := o.watch.setIfInBounds n ((o.watch[n]?.getD {}).write k acts w) }
/-- A word of a ring register (Table 19.8, R429). -/
def State.writeRing (s : State) (pot : Option (Fin 8)) (sel : RingSel) (k : Nat) (w : RegWrite) : State :=
  let r := s.ring pot sel
  if k = 0 then (if r.enable then s else s.setRing pot sel { r with base := w.into r.base (~~~0xFFF) })
  else if k = 1 then s.ringCfg pot sel w.lo w.hi w.val
  else s
/-- A word of an MSI-X entry (R430): unmasking a vector with its bit pending sends it. -/
def Msix.write (e : Msix) (second : Bool) (w : RegWrite) : Msix × Bool :=
  if !second then ({ e with addr := w.into e.addr (~~~3) }, false) else
  let word := w.into (BitVec.ofNat 64 (e.read true)) (BitVec.ofNat 64 (2 ^ 33 - 1))
  let masked := word.getLsbD 32
  let sends := e.masked && !masked && e.pend
  ({ e with data := word.truncate 32, masked := masked, pend := e.pend && !sends }, sends)
def State.writeMsix (s : State) (fn : Nat) (v : Nat) (second : Bool) (w : RegWrite) : State :=
  let send := fun (h : HostIf) (go : Bool) => if go then { h with irqs := (fn, v) :: h.irqs } else h
  if fn = 0 then
    let (e, go) := (s.host.msix[v]?.getD {}).write second w
    s.modHost fun h => send { h with msix := h.msix.setIfInBounds v e } go
  else
    let t := s.host.vfMsix[fn - 1]?.getD (Vector.replicate 17 {})
    let (e, go) := (t[v]?.getD {}).write second w
    s.modHost fun h => send { h with vfMsix := h.vfMsix.setIfInBounds (fn - 1) (t.setIfInBounds v e) } go
/-- A pot's ring block (Table 19.8). -/
def State.writeBlock (s : State) (p k : Nat) (w : RegWrite) : State :=
  if k < 0x420 then s.writeRing (some (fin8 p)) (ringAt k) (k % 0x20 / 8) w else s
/-- `STOP` and `RESTART` of a pot (Table 19.3, R425): with both, only `STOP` acts. -/
def State.writePot (s : State) (p : Nat) (w : RegWrite) : State :=
  if w.one 0 then (if (s.pot p).st = 1 then (s.stopPot p).tidy else s)
  else if w.one 1 then (s.restartPot p).tidy else s
/-- Module control (Table 19.3). -/
def State.writeControl (s : State) (off : Nat) (w : RegWrite) : State :=
  if off = 0x100 then (if w.lo && w.val.toNat % 2 ^ 32 == 0xA5C30001 then s.startDrain 0 else s)
  else if off = 0x108 then (if w.lo then s.requestPower (w.val.toNat % 8) else s)
  else if off = 0x110 then (if w.one 0 then s.commit else s)
  else if 0x140 ≤ off ∧ off < 0x180 then s.writePot ((off - 0x140) / 8) w
  else s
/-- A write of PF1 to the register at an offset that is a multiple of 8 (Table 19.1). -/
def State.writePf1 (s : State) (off : Nat) (w : RegWrite) : State :=
  let second := decide (off % 16 = 8)
  if off = 0x08 then s.modBoot fun b => { b with fatal := b.fatal && !w.one 2, error := b.error && !w.one 5 }
  else if 0x100 ≤ off ∧ off < 0x180 then s.writeControl off w
  else if 0x200 ≤ off ∧ off < 0x210 then s.modHost fun h => { h with snaps := h.snaps.set 0 (h.snaps[0].write second w) }
  else if 0x300 ≤ off ∧ off < 0x400 then
    let b := (off - 0x300) / 0x20
    if off % 0x20 ≠ 0 then s else if w.one 8 then s.bayRemove b else if w.one 9 then s.bayAdopt b else s
  else if 0x500 ≤ off ∧ off < 0x700 then s.writeWatch ((off - 0x500) / 0x20) (off % 0x20 / 8) 3 w
  else if 0x700 ≤ off ∧ off < 0x720 then s.writeRing none .ev (off % 0x20 / 8) w
  else if 0x1000 ≤ off ∧ off < 0x1910 then s.stage off w.val w.mask
  else if 0x2000 ≤ off ∧ off < 0x6000 then
    let p := (off - 0x2000) / 0x800
    if p < s.host.numVfs then s else s.writeBlock p (off % 0x800) w
  else if 0xC000 ≤ off ∧ off < 0xC890 then s.writeMsix 0 ((off - 0xC000) / 16) second w
  else s
/-- A write of VF `n` + 1 (Table 19.10, R433). -/
def State.writeVf (s : State) (n : Nat) (off : Nat) (w : RegWrite) : State :=
  let second := decide (off % 16 = 8)
  if s.host.numVfs ≤ n then s
  else if off < 0x420 then s.writeBlock n off w
  else if 0x800 ≤ off ∧ off < 0x810 then
    s.modHost fun h => { h with snaps := h.snaps.setIfInBounds (n + 1) ((h.snaps[n + 1]?.getD {}).write second w) }
  else if 0xC00 ≤ off ∧ off < 0xD10 then s.writeMsix (n + 1) ((off - 0xC00) / 16) second w
  else s
/-- REGISTER_WRITE (R421, R422, R433): by a function that is there, of the firmware that runs. -/
def execRegisterWrite (fn : PcieFn) (offset size : Nat) (value : BitVec 64) (s : State) : Out :=
  match regWrite offset size value with
  | none => .next s
  | some w =>
    if !s.boot.up then .next s else
    let off := offset / 8 * 8
    .next (match fn with | .pf1 => s.writePf1 off w | .vf n => s.writeVf n.val off w)

-- The sideband (R424, R436)

/-- The offsets that the sideband reaches (Table 19.1). -/
def sidebandReach (off : Nat) : Bool := decide (off < 0x80) || (decide (0x100 ≤ off) && decide (off < 0x180))
/-- The sideband answers from order 2 on (R436). -/
def State.sidebandUp (s : State) : Bool := match s.boot.phase with
  | .off => false
  | .lost => false
  | _ => true
def State.answerSideband (s : State) (v : Option (BitVec 64)) : State := s.modHost fun h => { h with sideband := some v }
/-- SIDEBAND_READ (R424). -/
def execSidebandRead (offset : Nat) (s : State) : Out :=
  if !s.sidebandUp then .next s
  else if !sidebandReach offset then .next (s.answerSideband none)
  else .next (s.answerSideband (some (if offset % 8 = 0 then BitVec.ofNat 64 (s.readPf1 offset) else 0)))
/-- SIDEBAND_WRITE (R424): as a 64-bit access of PF1. -/
def execSidebandWrite (offset : Nat) (value : BitVec 64) (s : State) : Out :=
  if !s.sidebandUp then .next s
  else if !sidebandReach offset then .next (s.answerSideband none)
  else
    let s := s.answerSideband (some 0)
    match regWrite offset 8 value with
    | none => .next s
    | some w => .next (if s.boot.up then s.writePf1 offset w else s)

end Sys2Proof.Machine
end

