-- ==== Sys2Proof/Machine/Observe.lean ====
section
/-! DEFINITION. The trace port, the marker generator and the probe (chapter 18, R415 to R419; chapter 16, R381). -/

namespace Sys2Proof.Machine

-- Trace (R415 to R418)

/-- Debug is SERVICE or OPEN on a module that has power (R381, R415). -/
def State.traceAllowed (s : State) : Bool := s.sidebandUp && s.sec.debug != .closed
/-- The port's own record (Table 18.5). -/
def State.portRecord (s : State) (reason : Nat) : State :=
  let r : TraceRec := { kind := 0x0A, source := 0x42, aux := reason, time := (s.clock 0).truncate 32, value := 0 }
  (s.modObs fun o => { o with buffer := o.buffer ++ [r] }).used
/-- `SYNC` of a source, and `PC` of a control core, each with its value (R416). -/
def State.sync (s : State) (source : Nat) (counter pc : BitVec 64) : State :=
  let s := s.traceAt (some (counter.truncate 32)) source 0x01 (s.syncAux source) counter
  if source < 16 then s.traceAt (some (counter.truncate 32)) source 0x02 3 pc else s
/-- TRACE_CONTROL (R415, R416): the probe starts trace, and every source in the mask emits `SYNC` and `PC`, or stops it. A period outside
1 to 1,000 leaves a free one (log 13). -/
def execTraceControl (start : Bool) (mask : BitVec 67) (period : Nat) (groupEn : Bool) (s : State) : Out :=
  if !s.traceAllowed then .next s
  else if !start then .next (s.stopTrace 2 0 false)
  else
    let p := if 1 ≤ period ∧ period ≤ 1000 then period else 1 + Config.pick s.free 0 1000
    let s := s.used.modObs fun o => { o with tracing := true, mask := mask, period := p, groupEn := groupEn }
    .next ((List.range 66).foldl (fun s n => s.sync n (s.clock 1) (s.clock 2)) (s.portRecord 1))
/-- TRACE_SYNC_TIMER (R416): 2³¹ cycles since the source's last `SYNC`. -/
def execTraceSyncTimer (source : Fin 67) (counter pc : BitVec 64) (s : State) : Out :=
  .next (if source.val < 66 then s.sync source.val counter pc else s)

/-- The domain codes of R416 in order. -/
def domains : List Nat := [0, 1, 2, 3, 4] ++ (List.range 8).map (8 + ·) ++ (List.range 8).map (16 + ·)
/-- MARKER_PULSE (R419): every domain's latched counter becomes a `MARKER` record that carries the marker's sequence; a domain whose
counter the command does not give has a free one. -/
def execMarkerPulse (counters : List (BitVec 64)) (s : State) : Out :=
  if !s.sidebandUp then .next s else
  let n := s.obs.marker
  let s := domains.zipIdx.foldl (fun s d =>
    s.traceAt (some (n.truncate 32)) 0x41 0x08 d.1 (counters.getD d.2 (Config.freeWord s.free (100 + d.2)))) s
  .next (s.used.modObs fun o => { o with marker := n + 1 })

/-- The 16 bytes of a trace record (R416). -/
def TraceRec.bytes (r : TraceRec) : Bytes :=
  natLe 1 r.kind ++ natLe 1 r.source ++ natLe 2 r.aux ++ natLe 4 r.time.toNat ++ natLe 8 r.value.toNat
/-- IEEE 802.3 CRC-32 (R418). -/
def crc32 (bs : Bytes) : BitVec 32 :=
  let step := fun (r : BitVec 32) (_ : Nat) => if r.getLsbD 0 then (r >>> 1) ^^^ 0xEDB88320 else r >>> 1
  ~~~(bs.foldl (fun (r : BitVec 32) b => (List.range 8).foldl step (r ^^^ b.zeroExtend 32)) 0xFFFFFFFF)
/-- The 1,024 bytes of a frame (R418). -/
def frameBytes (seq : Nat) (recs : List TraceRec) : Bytes :=
  let head : Bytes := [0x53, 0x47, 0x54, 0x52] ++ natLe 4 seq ++ natLe 1 recs.length ++ zeros 3
  let body := slice (recs.map TraceRec.bytes).flatten 0 1008
  head ++ natLe 4 (crc32 (head ++ body)).toNat ++ body
/-- TRACE_FRAME (R418): up to 63 buffered records leave on lane n mod 4; in CLOSED the port is idle. -/
def execTraceFrame (s : State) : Out :=
  if !s.traceAllowed then .next s else
  .next (s.modObs fun o => { o with
    frames := (o.frame.toNat % 4, o.frame.toNat, o.buffer.take 63) :: o.frames, buffer := o.buffer.drop 63, frame := o.frame + 1 })

-- The probe (R381, R412, R414)

/-- Bytes of a memory (Table 9.1); those of the media buffers and control-core memories are not the manual's. -/
def tierSize : MemTier → Option Nat
  | .core _ => some (20 * 2 ^ 20)
  | .quadrant _ => some (64 * 2 ^ 20)
  | .dram _ => some (48 * 2 ^ 30)
  | .media _ => none
  | .control _ => none
/-- The probe's own view of a memory that holds no logical core's store. -/
def Tiers.view (t : Tiers) : MemTier → Mem
  | .core n => lookupD t.spare n.val []
  | .quadrant n => t.quads[n]
  | .dram n => t.dramMem[n]
  | .media n => t.media[n]
  | .control n => t.control[n]
def Tiers.setView (t : Tiers) (k : MemTier) (m : Mem) : Tiers :=
  match k with
  | .core n => { t with spare := upsert t.spare n.val [] fun _ => m }
  | .quadrant n => { t with quads := t.quads.set n m }
  | .dram n => { t with dramMem := t.dramMem.set n m }
  | .media n => { t with media := t.media.set n m }
  | .control n => { t with control := t.control.set n m }
/-- The logical core whose store a probe access reaches. -/
def State.probedCore (s : State) (t : MemTier) : Option Nat := match t with
  | .core n => s.mappedTo n.val
  | _ => none
/-- A byte as the probe reads it: of a core store the stored one; elsewhere the probe's own last write, or a free byte, since the
manual does not place what the module keeps there (log 19). -/
def State.probeByte (s : State) (t : MemTier) (a : Nat) : Byte :=
  match s.probedCore t with
  | some c => Memory.read (s.core c).store a
  | none => if s.tiers.probed.contains (t, a) then Memory.read (s.tiers.view t) a else (Config.freeWord s.free a).truncate 8
/-- The probe writes a memory; in a core store its read-modify-writes count, and words written whole are valid again (R228, R230). -/
def State.probeWrite (s : State) (t : MemTier) (a : Nat) (data : Bytes) : State :=
  match s.probedCore t with
  | some c => (s.count 1 c 5 (partialWords a data.length)).modCore c fun k => { k with
      store := Memory.writeN k.store a data
      poison := k.poison.filter fun r => !(decide (a ≤ r.1) && decide (r.1 + r.2.1 ≤ a + data.length)) }
  | none =>
    let here := (List.range data.length).map fun i => (t, a + i)
    s.modTiers fun m => { m.setView t (Memory.writeN (m.view t) a data) with probed := (here ++ m.probed).eraseDups }
/-- Status registers, which the probe reads in SERVICE too (Table 16.8). -/
def statusOffset (off : Nat) : Bool :=
  decide (off < 0x80) || (decide (0x140 ≤ off) && decide (off < 0x180)) || (decide (0x300 ≤ off) && decide (off < 0x440)) ||
  (decide (0x500 ≤ off) && decide (off < 0x700))
def State.probed (s : State) (v : Bytes) : State := s.modObs fun o => { o with probe := some v }
/-- An access lies within its memory. -/
def inTier (t : MemTier) (addr n : Nat) : Bool := match tierSize t with
  | some z => decide (addr + n ≤ z)
  | none => true
/-- JTAG_ACCESS (R381, R414): what the debug level does not give selects BYPASS and changes nothing. -/
def execJtagAccess (a : Jtag) (s : State) : Out :=
  let d := s.sec.debug
  let opened := d == .opened
  if !s.sidebandUp then .next s else
  match a with
  | .idcode => .next s
  | .bypass => .next s
  | .sample => .next s
  | .extest => .next s
  | .halt cc => .next (if opened then s.modPower fun p => { p with halted := p.halted ||| BitVec.ofNat 16 (2 ^ cc.val) } else s)
  | .resume cc => .next (if opened then s.modPower fun p => { p with halted := p.halted &&& ~~~(BitVec.ofNat 16 (2 ^ cc.val)) } else s)
  | .stepCc _ => .next s
  | .readMem t addr n =>
    if !opened then .next s
    else if !inTier t addr n then .fault .noSuchAddress
    else .next (s.probed ((List.range n).map fun i => s.probeByte t (addr + i))).used
  | .writeMem t addr data =>
    if !opened then .next s
    else if !inTier t addr data.length then .fault .noSuchAddress
    else .next (s.probeWrite t addr data)
  | .readCounter f i k =>
    if opened || d == .service then .next (s.probed (natLe 8 (s.counterBits f i k).toNat)) else .next s
  | .readReg off =>
    if opened || (d == .service && statusOffset off) then
      .next (s.probed (natLe 8 (if off % 8 = 0 then s.readPf1 off else 0)))
    else .next s
  | .writeReg off v =>
    match regWrite off 8 v with
    | none => .next s
    | some w =>
      if !opened || !s.boot.up then .next s
      else if 0x500 ≤ off ∧ off < 0x700 then .next (s.writeWatch ((off - 0x500) / 0x20) (off % 0x20 / 8) 31 w)
      else .next (s.writePf1 off w)
  | .watch n k v =>
    if d == .closed then .next s
    else .next (s.writeWatch n.val k.val (if opened then 31 else 15) { val := v, mask := BitVec.allOnes 64 })

end Sys2Proof.Machine
end

