-- ==== Sys2Proof/Machine/Security.lean ====
section
/-! DEFINITION. The security element (chapter 16): attestation, tokens and lifecycle actions, debug levels, media keys. -/

namespace Sys2Proof.Machine

-- SPDM (R378, R379)

/-- The element answers: from order 2 of Table 17.1, unless it has failed (R368, R436). -/
def State.elementUp (s : State) : Bool := s.boot.phase != .off && s.boot.phase != .lost && s.boot.failedPart != some .element
/-- Answers a request; each one takes the place of the last answer. -/
def State.answer (s : State) (r : Reply) : State := if s.elementUp then s.modSec fun x => { x with reply := r } else s
/-- Answers a request that needs the algorithms agreed (SPDM's order of requests, log 8). -/
def State.agreed (s : State) (r : Reply) : State := s.answer (if s.sec.versionOk && s.sec.algorithmsOk then r else .error)
/-- An answer with a signature or a certificate may be too long for one message, which is free (no rule gives the transfer size): then
it is read with CHUNK_GET, its bytes as SPDM lays them out free too. -/
def State.longAnswer (s : State) (r : Reply) (n : Nat) : State :=
  let large := s.sec.versionOk && s.sec.algorithmsOk && s.elementUp && Config.pick s.free 0 2 == 1
  if large then (s.modSec fun x => { x with large := some (Config.pick s.free 1 256, 0, s.freeBytes 2 n), reply := .error }).used
  else (s.agreed r).used

/-- GET_VERSION: version 1.3 only. -/
def execGetVersion (s : State) : Out :=
  .next (if s.elementUp then (s.modSec fun x => { x with versionOk := true, algorithmsOk := false, chunks := none, large := none }).answer (.version 0x13) else s)
/-- GET_CAPABILITIES. -/
def execGetCapabilities (s : State) : Out := .next (s.answer (if s.sec.versionOk then .capabilities else .error))
/-- NEGOTIATE_ALGORITHMS: SHA3-256 and ML-DSA-44, or an ERROR. -/
def execNegotiateAlgorithms (hash mldsa : Bool) (s : State) : Out :=
  .next (if s.elementUp && s.sec.versionOk && hash && mldsa then (s.modSec fun x => { x with algorithmsOk := true }).answer .algorithms
    else s.answer .error)
/-- Certificate slots that hold a chain: 0, and 1 once the owner has set it. -/
def State.slotsUsed (s : State) : BitVec 8 := if s.sec.slot1.isSome then 3 else 1
/-- GET_DIGESTS. -/
def execGetDigests (s : State) : Out := .next (s.agreed (.digests s.slotsUsed))
/-- The chain of a slot: Ouvzil's, whose bytes are the device's, or the owner's (R378). -/
def State.chainOf (s : State) (slot : Nat) : Option Bytes :=
  if slot = 0 then some ((List.range (Config.chainLength % 65536)).map Config.chainByte) else if slot = 1 then s.sec.slot1 else none
/-- GET_CERTIFICATE. -/
def execGetCertificate (slot : Fin 8) (offset len : Nat) (s : State) : Out :=
  match s.chainOf slot.val with
  | none => .next (s.agreed .error)
  | some c =>
    if c.length ≤ offset then .next (s.agreed .error)
    else .next (s.longAnswer (.certificate slot.val (slice c offset (Nat.min len (c.length - offset))) (c.length - offset - len)) len)
/-- CHALLENGE: signed with the attestation key. -/
def execChallenge (slot : Fin 8) (nonce : Bytes) (s : State) : Out :=
  .next (if (s.chainOf slot.val).isSome then s.longAnswer (.challengeAuth slot.val nonce) 2600 else s.agreed .error)

/-- A measurement (Table 16.5). -/
def State.measurement (s : State) (i : Nat) : Option Bytes :=
  let rec_ := fun (n : Nat) => (s.slot n).record
  if i = 1 then some (natLe 32 (((rec_ s.boot.active).map (·.seDigest)).getD 0))
  else if i = 2 then some (natLe 32 (((rec_ s.boot.active).map (·.digest)).getD 0))
  else if i = 3 then some (natLe 32 (((rec_ s.inactive).map (·.digest)).getD 0))
  else if i = 4 then some (natLe 4 s.boot.rollback)
  else if i = 5 then some (natLe 1 s.sec.lifecycle.code ++ natLe 1 (Debug.code s.sec.debug) ++ natLe 1 s.power.st)
  else if i = 6 then some (natLe 32 (Config.recordDigest s.boot.settingsSeq).toNat)
  else if i = 7 then some (natLe 8 s.media.epoch ++ (s.media.bays.toList.map fun b => natLe 8 b.serial).flatten)
  else if 8 ≤ i ∧ i < 16 then some (natLe 32 (s.sec.chain[i - 8]?.getD 0).toNat)
  else none
/-- GET_MEASUREMENTS (R379): one index, the count for 0, all for 0xFF. -/
def execGetMeasurements (index : Nat) (signed : Bool) (nonce : Bytes) (s : State) : Out :=
  let all := ((List.range 16).filterMap fun i => (s.measurement i).map fun v => (i, v))
  let vals := if index = 0 then some [(0, natLe 1 15)] else if index = 0xFF then some all else (s.measurement index).map fun v => [(index, v)]
  match vals with
  | none => .next (s.agreed .error)
  | some l => .next (if signed then s.longAnswer (.measurements l true nonce) 2600 else s.agreed (.measurements l false nonce))
/-- GET_CSR: for the identity key. -/
def execGetCsr (s : State) : Out := .next (s.longAnswer .csr 4000)
/-- SET_CERTIFICATE: slot 1, in PROVISIONED alone. -/
def execSetCertificate (slot : Fin 8) (chain : Bytes) (s : State) : Out :=
  .next (if s.elementUp && s.sec.versionOk && s.sec.algorithmsOk && slot.val == 1 && s.sec.lifecycle == .provisioned then
    (s.modSec fun x => { x with slot1 := some chain }).answer .certificateSet else s.answer .error)
/-- CHUNK_SEND: chunks of one request in sequence; the request they make is a command of its own. -/
def execChunkSend (handle seq : Nat) (last : Bool) (chunk : Bytes) (s : State) : Out :=
  if !(s.elementUp && s.sec.versionOk && s.sec.algorithmsOk) then .next (s.answer .error) else
  let old := if seq = 0 then some ([] : Bytes) else s.sec.chunks.bind fun c => if c.1 = handle ∧ c.2.1 = seq then some c.2.2 else none
  match old with
  | none => .next (s.answer .error)
  | some b => .next ((s.modSec fun x => { x with chunks := if last then none else some (handle, seq + 1, b ++ chunk) }).answer (.chunkAck handle seq))
/-- CHUNK_GET: the next part of a long answer, its length free. -/
def execChunkGet (handle seq : Nat) (s : State) : Out :=
  match s.sec.large with
  | none => .next (s.agreed .error)
  | some (h, n, b) =>
    if h ≠ handle ∨ n ≠ seq ∨ s.elementUp = false then .next (s.answer .error) else
    let k := 1 + Config.pick s.free 0 b.length
    let last := decide (b.length ≤ k)
    .next (((s.modSec fun x => { x with large := if last then none else some (h, n + 1, b.drop k) }).answer (.chunk h n (b.take k) last)).used)
/-- SPDM_UNSUPPORTED_REQUEST: ERROR UnsupportedRequest. -/
def execSpdmUnsupportedRequest (_code : Byte) (s : State) : Out := .next (s.answer .unsupported)

-- Tokens (R380)

/-- STATE_QUERY (command 0x01). -/
def execStateQuery (s : State) : Out :=
  .next (s.answer (.state s.sec.lifecycle.code (Debug.code s.sec.debug) s.power.st s.sec.epoch.toNat s.sec.failures))
/-- The request token (Table 16.7). -/
def State.tokenBytes (s : State) (action : Nat) : Bytes :=
  [0x53, 0x47, 0x54, 0x4F, 0x4B, 0x45, 0x4E, 0x31] ++ natLe 32 s.sec.identity.toNat ++ s.freeBytes 0 32 ++ natLe 1 action ++
  natLe 1 s.sec.lifecycle.code ++ natLe 1 (Debug.code s.sec.debug) ++ natLe 1 s.power.st ++ natLe 4 s.sec.epoch.toNat ++ natLe 4 s.boot.rollback ++ zeros 44
/-- TOKEN_REQUEST (command 0x02). -/
def execTokenRequest (action : Nat) (s : State) : Out :=
  if !s.elementUp then .next s
  else if s.sec.locked then .next (s.answer (.status 5))
  else if action < 1 ∨ 6 < action then .next (s.answer (.status 7))
  else
    let t := s.tokenBytes action
    .next (((s.modSec fun x => { x with token := some t }).answer (.token t)).used)
/-- TOKEN_EXPIRY: 300 s have passed. -/
def execTokenExpiry (s : State) : Out := .next (s.modSec fun x => { x with token := none })
/-- LOCKOUT_EXPIRY: 60 s have passed. -/
def execLockoutExpiry (s : State) : Out := .next (s.modSec fun x => { x with locked := false, failures := 0 })

-- AUTHORISE (R380, R384, Table 16.6)

/-- A valid signature of an Ouvzil service key that is not revoked. -/
def State.serviceSig (s : State) (g : AuthSig) : Bool :=
  g.role == 0 && g.valid && decide (g.keyIndex < 4) && !s.sec.serviceRevoked.getLsbD g.keyIndex && g.keyDigest == Config.serviceKey g.keyIndex
/-- A valid signature of the owner key. -/
def State.ownerSig (s : State) (g : AuthSig) : Bool := g.role == 1 && g.valid && s.sec.ownerKey == some g.keyDigest
def State.potsStopped (s : State) : Bool := (List.range 8).all s.potAtRest
/-- What an action asks for: the lifecycles it is allowed from, its signers, stopped pots, PS0. -/
structure ActionRule where
  number : Nat
  from_ : Bool
  signed : Bool
  stopped : Bool
  ps0 : Bool
deriving DecidableEq, Repr

/-- Statuses of the conditions that an AUTHORISE does not meet; which one answers when several fail is free (log 1). -/
def State.authFails (s : State) (r : ActionRule) (a : Authorise) : List Nat :=
  let form := a.wellFormed && (a.sigs.length == 1 || a.sigs.length == 2) && a.token.length == 128
  if !form then [7]
  else if s.sec.token != some a.token || field a.token 0x48 1 != r.number then [6]
  else (if r.from_ then [] else [2]) ++ (if r.signed && a.sigs.all (·.valid) then [] else [1]) ++ (if r.stopped then [] else [3]) ++ (if r.ps0 then [] else [4])
/-- An AUTHORISE (R380): its action takes effect, or it fails with a status; the third failure in a row locks TOKEN_REQUEST. -/
def State.authorise (s : State) (r : ActionRule) (a : Authorise) (act : State → State) : State :=
  if !s.elementUp then s else
  match s.authFails r a with
  | [] => (act (s.modSec fun x => { x with failures := 0, token := none })).answer (.status 0)
  | l =>
    let n := s.sec.failures + 1
    ((s.modSec fun x => { x with failures := n, locked := x.locked || decide (3 ≤ n) }).answer (.status (l.getD (Config.pick s.free 0 l.length) 7))).used

/-- Every media key is destroyed; membership records are written again and the set epoch moves (R373). -/
def State.destroyKeys (s : State) : State :=
  let ns := fun (n : Namespace) => { n with key := 0 }
  ((s.modSec fun x => { x with metaKey := none, potKeys := Vector.replicate 8 none }).modNvme fun n => { n with spaces := n.spaces.map ns }).bumpEpoch
/-- Every corpus, collection, table, image and namespace is dropped and every capacity unit returned (R383, Table 16.6). -/
def State.dropObjects (s : State) : State :=
  let s : State := { s with corpora := [], colls := [], tables := [], images := [], embed := {}, cups := [], reads := [], strains := [], searches := [] }
  let s := s.modTiers fun t => { t with dram := [], qstore := [], waits := [], spilled := [], regions := [], regionPoison := [] }
  let s := s.modNvme fun n => { n with spaces := [], buffer := [], intents := [], loss := [], dump := [] }
  let void := fun (g : Group) => { g with valid := [], degraded := [] }
  s.modMedia fun m => { m with stripes := [], journal := [], groups := m.groups.map void }
/-- Every block of the member caddies becomes `ERASE_UNKNOWN` (R383). -/
def State.unknownBlocks (s : State) : State :=
  let b := fun (x : Block) => if x.st == .retired then x else { x with st := .eraseUnknown }
  let bay := fun (y : Bay) => if y.member.isSome then { y with blocks := y.blocks.map fun e => (e.1, b e.2), blank := b y.blank } else y
  s.modMedia fun m => { m with ops := [], groups := m.groups.filter fun g => g.st == .retired, pslcBytes := 0, bays := m.bays.map bay }

/-- ACTION_SERVICE (action 1): debug SERVICE; OPEN ends only at a cold start (R382). -/
def execActionService (a : Authorise) (s : State) : Out :=
  let signed := a.sigs.any fun g => s.serviceSig g || s.ownerSig g
  .next (s.authorise { number := 1, from_ := true, signed := signed, stopped := true, ps0 := true } a fun s =>
    s.modSec fun x => { x with debug := if x.debug == .opened then .opened else .service })
/-- ACTION_OPEN (action 2, R383): keys destroyed, everything dropped, blocks unknown, then the debug-open reset. -/
def execActionOpen (a : Authorise) (s : State) : Out :=
  let owned := s.sec.lifecycle == .provisioned || s.sec.lifecycle == .operational
  let signed := (a.sigs.any s.serviceSig) && (!owned || a.sigs.any s.ownerSig)
  .next (s.authorise { number := 2, from_ := true, signed := signed, stopped := !owned || s.potsStopped, ps0 := true } a fun s =>
    ((((s.destroyKeys.dropObjects).unknownBlocks).modSec fun x => { x with debugKeys := true }).modBoot fun b => { b with openPosted := [] }).startDrain 2)
/-- The default record comes into force as a commit's does (R392). -/
def State.writeDefaults (s : State) : State := s.writeRecord s.defaultRecord true
/-- ACTION_PROVISIONED (action 3): the one signature's key becomes the owner key. -/
def execActionProvisioned (a : Authorise) (s : State) : Out :=
  let one := a.sigs.length == 1 && a.sigs.all fun g => g.role == 1 && g.valid
  .next (s.authorise { number := 3, from_ := s.sec.lifecycle == .blank, signed := one, stopped := true, ps0 := s.power.st == 0 } a fun s =>
    let (s, k) := s.makeKey
    let s := s.modSec fun x => { x with
      lifecycle := .provisioned, ownerKey := (a.sigs.head?).map (·.keyDigest), epoch := x.epoch + 1, metaKey := some k }
    s.writeDefaults)
/-- ACTION_OPERATIONAL (action 4): data service begins. -/
def execActionOperational (a : Authorise) (s : State) : Out :=
  .next (s.authorise { number := 4, from_ := s.sec.lifecycle == .provisioned, signed := a.sigs.any s.ownerSig, stopped := true, ps0 := s.power.st == 0 } a
    fun s =>
    let s := s.modSec fun x => { x with lifecycle := .operational }
    let s := (List.range 8).foldl (fun s p =>
      if s.potEnabled p then
        let (s, k) := s.makeKey
        s.modSec fun x => { x with potKeys := x.potKeys.setIfInBounds p (some k) }
      else s) s
    s.sendStatus)
/-- ACTION_RETURN (action 5): keys destroyed, everything dropped, owner key and slot 1 erased. -/
def execActionReturn (a : Authorise) (s : State) : Out :=
  let owned := s.sec.lifecycle == .provisioned || s.sec.lifecycle == .operational
  .next (s.authorise { number := 5, from_ := owned, signed := a.sigs.any s.ownerSig, stopped := s.potsStopped, ps0 := s.power.st == 0 } a fun s =>
    (s.destroyKeys.dropObjects.modSec fun x => { x with lifecycle := .returned, ownerKey := none, slot1 := none, epoch := x.epoch + 1 }).dropLinks)
/-- ACTION_BLANK (action 6): default settings. -/
def execActionBlank (a : Authorise) (s : State) : Out :=
  .next (s.authorise { number := 6, from_ := s.sec.lifecycle == .returned, signed := a.sigs.any s.serviceSig, stopped := true, ps0 := s.power.st == 0 } a
    fun s => (s.modSec fun x => { x with lifecycle := .blank }).writeDefaults)

/-- Debug returns to CLOSED: trace stops, and the actions that need more are cleared (R414, R415). -/
def State.closeDebug (s : State) : State :=
  let s := s.stopTrace 5 0 true
  let clear := fun (w : Watch) => { w with ctl := w.ctl &&& ~~~(BitVec.ofNat 64 (7 * 2 ^ 34)) }
  (s.modObs fun o => { o with watch := o.watch.map clear }).modSec fun x => { x with debug := .closed }
/-- RELOCK (command 0x04, R382): SERVICE returns to CLOSED; OPEN ends only at a cold start. -/
def execRelock (s : State) : Out :=
  if !s.elementUp then .next s else
  match s.sec.debug with
  | .opened => .next (s.answer (.status 2))
  | .service => .next (s.closeDebug.answer (.status 0))
  | .closed => .next (s.answer (.status 0))

end Sys2Proof.Machine
end

