-- ==== Sys2Proof/Machine/Dispatch.lean ====
section
/-! DEFINITION. One arm per command: a direct call of its meaning. -/

namespace Sys2Proof.Machine

/-- The effect of a command on everything but the queue. -/
def exec (i : Instr) (s : State) : Host.Outcome State Fault Refusal :=
  match i with
  | .sqTailDoorbell fn page off size value host => Sys2Proof.Machine.execSqTailDoorbell fn page off size value host s
  | .cqHeadDoorbell fn page off size value => Sys2Proof.Machine.execCqHeadDoorbell fn page off size value s
  | .eventHeadDoorbell fn off size value => Sys2Proof.Machine.execEventHeadDoorbell fn off size value s
  | .descriptorFetch pot => Sys2Proof.Machine.execDescriptorFetch pot s
  | .descriptorFetchFailed pot => Sys2Proof.Machine.execDescriptorFetchFailed pot s
  | .orderedJobAdmit job => Sys2Proof.Machine.execOrderedJobAdmit job s
  | .deferredJobAdmit job => Sys2Proof.Machine.execDeferredJobAdmit job s
  | .imageLoad job => Sys2Proof.Machine.execImageLoad job s
  | .imageUnload job => Sys2Proof.Machine.execImageUnload job s
  | .steep job => Sys2Proof.Machine.execSteep job s
  | .steepResume job => Sys2Proof.Machine.execSteepResume job s
  | .generate job => Sys2Proof.Machine.execGenerate job s
  | .attend job => Sys2Proof.Machine.execAttend job s
  | .collectionCreate job => Sys2Proof.Machine.execCollectionCreate job s
  | .collectionAppend job vectors => Sys2Proof.Machine.execCollectionAppend job vectors s
  | .collectionDelete job => Sys2Proof.Machine.execCollectionDelete job s
  | .filter job => Sys2Proof.Machine.execFilter job s
  | .search job => Sys2Proof.Machine.execSearch job s
  | .recallJob run => Sys2Proof.Machine.execRecallJob run s
  | .fetchJob job => Sys2Proof.Machine.execFetchJob job s
  | .tableCreate job => Sys2Proof.Machine.execTableCreate job s
  | .tableRule job => Sys2Proof.Machine.execTableRule job s
  | .bag job => Sys2Proof.Machine.execBag job s
  | .addJob job => Sys2Proof.Machine.execAddJob job s
  | .update job => Sys2Proof.Machine.execUpdate job s
  | .tableSave job => Sys2Proof.Machine.execTableSave job s
  | .tableLoad job => Sys2Proof.Machine.execTableLoad job s
  | .dropJob job => Sys2Proof.Machine.execDropJob job s
  | .runJob job => Sys2Proof.Machine.execRunJob job s
  | .steepCheckpointCommit job data => Sys2Proof.Machine.execSteepCheckpointCommit job data s
  | .stepBoundary pot outs queries => Sys2Proof.Machine.execStepBoundary pot outs queries s
  | .tailLeafProgramDone pot cup layer head index => Sys2Proof.Machine.execTailLeafProgramDone pot cup layer head index s
  | .leafReadComplete read page => Sys2Proof.Machine.execLeafReadComplete read page s
  | .lateReadExpiry read => Sys2Proof.Machine.execLateReadExpiry read s
  | .reconstructComplete read page bays => Sys2Proof.Machine.execReconstructComplete read page bays s
  | .centroidPageRead corpus index page => Sys2Proof.Machine.execCentroidPageRead corpus index page s
  | .groupStepLimitExpiry pot => Sys2Proof.Machine.execGroupStepLimitExpiry pot s
  | .strainerPageEval job item column first page => Sys2Proof.Machine.execStrainerPageEval job item column first page s
  | .searchExpansion job item page => Sys2Proof.Machine.execSearchExpansion job item page s
  | .searchRerank job item unreadable => Sys2Proof.Machine.execSearchRerank job item unreadable s
  | .mendingPassEnd collection => Sys2Proof.Machine.execMendingPassEnd collection s
  | .bagPartReceived job item member part => Sys2Proof.Machine.execBagPartReceived job item member part s
  | .bagWaitExpiry job item => Sys2Proof.Machine.execBagWaitExpiry job item s
  | .atomicAdd n => Sys2Proof.Machine.execAtomicAdd n s
  | .ruleApplication n => Sys2Proof.Machine.execRuleApplication n s
  | .shelfRedirectFlip table row => Sys2Proof.Machine.execShelfRedirectFlip table row s
  | .shelfAbandoned table row => Sys2Proof.Machine.execShelfAbandoned table row s
  | .shelfDemotion table row => Sys2Proof.Machine.execShelfDemotion table row s
  | .hotWindowExpiry quadrant => Sys2Proof.Machine.execHotWindowExpiry quadrant s
  | .nop core h unit => Sys2Proof.Machine.execNop core h unit s
  | .group core h layer oper => Sys2Proof.Machine.execGroup core h layer oper s
  | .point core h => Sys2Proof.Machine.execPoint core h s
  | .fence core h mask => Sys2Proof.Machine.execFence core h mask s
  | .loop core h count1 body => Sys2Proof.Machine.execLoop core h count1 body s
  | .endInv core h => Sys2Proof.Machine.execEndInv core h s
  | .addr core h reg value ostr => Sys2Proof.Machine.execAddr core h reg value ostr s
  | .addri core h reg delta => Sys2Proof.Machine.execAddri core h reg delta s
  | .vadd core h o => Sys2Proof.Machine.execVadd core h o s
  | .vmul core h o => Sys2Proof.Machine.execVmul core h o s
  | .vfma core h o => Sys2Proof.Machine.execVfma core h o s
  | .vmax core h o => Sys2Proof.Machine.execVmax core h o s
  | .vmin core h o => Sys2Proof.Machine.execVmin core h o s
  | .vcmp core h o => Sys2Proof.Machine.execVcmp core h o s
  | .vsel core h o => Sys2Proof.Machine.execVsel core h o s
  | .vcvt core h o => Sys2Proof.Machine.execVcvt core h o s
  | .vexp core h o => Sys2Proof.Machine.execVexp core h o s
  | .vln core h o => Sys2Proof.Machine.execVln core h o s
  | .vrcp core h o => Sys2Proof.Machine.execVrcp core h o s
  | .vrsq core h o => Sys2Proof.Machine.execVrsq core h o s
  | .vtanh core h o => Sys2Proof.Machine.execVtanh core h o s
  | .vsum core h o => Sys2Proof.Machine.execVsum core h o s
  | .vrmax core h o => Sys2Proof.Machine.execVrmax core h o s
  | .vtopk core h o => Sys2Proof.Machine.execVtopk core h o s
  | .vpart core h o => Sys2Proof.Machine.execVpart core h o s
  | .vmerge core h o => Sys2Proof.Machine.execVmerge core h o s
  | .vsample core h o => Sys2Proof.Machine.execVsample core h o s
  | .mm core h o => Sys2Proof.Machine.execMm core h o s
  | .shape core h shi m1 k1 n1 => Sys2Proof.Machine.execShape core h shi m1 k1 n1 s
  | .stride core h shi sstr xstr dstr => Sys2Proof.Machine.execStride core h shi sstr xstr dstr s
  | .spout core h o => Sys2Proof.Machine.execSpout core h o s
  | .spoutv core h sci scalar cap => Sys2Proof.Machine.execSpoutv core h sci scalar cap s
  | .mov core h o => Sys2Proof.Machine.execMov core h o s
  | .mov2d core h o => Sys2Proof.Machine.execMov2d core h o s
  | .leafrd core h o => Sys2Proof.Machine.execLeafrd core h o s
  | .tkset core h tk value => Sys2Proof.Machine.execTkset core h tk value s
  | .semacq core h sem units => Sys2Proof.Machine.execSemacq core h sem units s
  | .semrel core h sem units => Sys2Proof.Machine.execSemrel core h sem units s
  | .stationaryLoadDone core => Sys2Proof.Machine.execStationaryLoadDone core s
  | .passLanded core => Sys2Proof.Machine.execPassLanded core s
  | .spoutDrain core => Sys2Proof.Machine.execSpoutDrain core s
  | .moveArrived core move how => Sys2Proof.Machine.execMoveArrived core move how s
  | .coreProgressExpiry core => Sys2Proof.Machine.execCoreProgressExpiry core s
  | .intervalOverrun core => Sys2Proof.Machine.execIntervalOverrun core s
  | .datapathCheckFail phys => Sys2Proof.Machine.execDatapathCheckFail phys s
  | .spareTakeoverResume quadrant ok => Sys2Proof.Machine.execSpareTakeoverResume quadrant ok s
  | .evictWaitEnd pot => Sys2Proof.Machine.execEvictWaitEnd pot s
  | .stallLimitExpiry job cause bay waitedNs layer oper => Sys2Proof.Machine.execStallLimitExpiry job cause bay waitedNs layer oper s
  | .scrubRead target => Sys2Proof.Machine.execScrubRead target s
  | .sliceEnd pot elapsedNs => Sys2Proof.Machine.execSliceEnd pot elapsedNs s
  | .preemptDrainExpiry pot => Sys2Proof.Machine.execPreemptDrainExpiry pot s
  | .preemptLimitExpiry pot overNs => Sys2Proof.Machine.execPreemptLimitExpiry pot overNs s
  | .latencyTargetExpiry job overNs => Sys2Proof.Machine.execLatencyTargetExpiry job overNs s
  | .nvmRead c slba nlb prp readable => Sys2Proof.Machine.execNvmRead c slba nlb prp readable s
  | .nvmWrite c slba nlb prp fua => Sys2Proof.Machine.execNvmWrite c slba nlb prp fua s
  | .nvmFlush c => Sys2Proof.Machine.execNvmFlush c s
  | .writeZeroes c slba nlb => Sys2Proof.Machine.execWriteZeroes c slba nlb s
  | .datasetManagement c deallocate ranges => Sys2Proof.Machine.execDatasetManagement c deallocate ranges s
  | .identify c cns prp => Sys2Proof.Machine.execIdentify c cns prp s
  | .getLogPage c lid offset len lsp rae prp => Sys2Proof.Machine.execGetLogPage c lid offset len lsp rae prp s
  | .getFeatures c fid => Sys2Proof.Machine.execGetFeatures c fid s
  | .setFeatures c fid dw11 hmb => Sys2Proof.Machine.execSetFeatures c fid dw11 hmb s
  | .createIoQueue c completion qid size cqid base => Sys2Proof.Machine.execCreateIoQueue c completion qid size cqid base s
  | .deleteIoQueue c completion qid => Sys2Proof.Machine.execDeleteIoQueue c completion qid s
  | .abortCmd c sqid cid => Sys2Proof.Machine.execAbortCmd c sqid cid s
  | .asyncEventRequest c => Sys2Proof.Machine.execAsyncEventRequest c s
  | .namespaceCreate c nsze vendor => Sys2Proof.Machine.execNamespaceCreate c nsze vendor s
  | .namespaceDelete c => Sys2Proof.Machine.execNamespaceDelete c s
  | .namespaceAttachment c attach => Sys2Proof.Machine.execNamespaceAttachment c attach s
  | .formatNvm c ses => Sys2Proof.Machine.execFormatNvm c ses s
  | .sanitizeBlockErase c => Sys2Proof.Machine.execSanitizeBlockErase c s
  | .sanitizeCryptoErase c => Sys2Proof.Machine.execSanitizeCryptoErase c s
  | .firmwareImageDownload c offset data => Sys2Proof.Machine.execFirmwareImageDownload c offset data s
  | .fwCommitReplace c slot m => Sys2Proof.Machine.execFwCommitReplace c slot m s
  | .fwCommitActivateNext c slot m => Sys2Proof.Machine.execFwCommitActivateNext c slot m s
  | .fwCommitSelectSlot c slot => Sys2Proof.Machine.execFwCommitSelectSlot c slot s
  | .fwCommitActivateNow c slot m => Sys2Proof.Machine.execFwCommitActivateNow c slot m s
  | .activationQuiesced => Sys2Proof.Machine.execActivationQuiesced s
  | .activationQuiesceExpiry => Sys2Proof.Machine.execActivationQuiesceExpiry s
  | .invalidCommandOpcode c opcode => Sys2Proof.Machine.execInvalidCommandOpcode c opcode s
  | .writeBufferProgram nsid lba group page => Sys2Proof.Machine.execWriteBufferProgram nsid lba group page s
  | .feedLost feed => Sys2Proof.Machine.execFeedLost feed s
  | .feedRejoin feed => Sys2Proof.Machine.execFeedRejoin feed s
  | .powerLoss => Sys2Proof.Machine.execPowerLoss s
  | .flashReadDone op ok => Sys2Proof.Machine.execFlashReadDone op ok s
  | .flashProgramDone op ok => Sys2Proof.Machine.execFlashProgramDone op ok s
  | .flashEraseDone op ok => Sys2Proof.Machine.execFlashEraseDone op ok s
  | .eraseSuspend op => Sys2Proof.Machine.execEraseSuspend op s
  | .eraseResume op => Sys2Proof.Machine.execEraseResume op s
  | .garbageCollection => Sys2Proof.Machine.execGarbageCollection s
  | .fold group target page => Sys2Proof.Machine.execFold group target page s
  | .readDisturbRefresh bay group => Sys2Proof.Machine.execReadDisturbRefresh bay group s
  | .journalProgram => Sys2Proof.Machine.execJournalProgram s
  | .mapCheckpoint => Sys2Proof.Machine.execMapCheckpoint s
  | .counterPersist => Sys2Proof.Machine.execCounterPersist s
  | .dieOpTimeout op => Sys2Proof.Machine.execDieOpTimeout op s
  | .caddyInsert bay => Sys2Proof.Machine.execCaddyInsert bay s
  | .caddyLinkTrained bay lanes => Sys2Proof.Machine.execCaddyLinkTrained bay lanes s
  | .caddyAuthenticate bay ident => Sys2Proof.Machine.execCaddyAuthenticate bay ident s
  | .caddyClassify bay found => Sys2Proof.Machine.execCaddyClassify bay found s
  | .bayRemove bay => Sys2Proof.Machine.execBayRemove bay s
  | .bayAdopt bay => Sys2Proof.Machine.execBayAdopt bay s
  | .leverOpen bay => Sys2Proof.Machine.execLeverOpen bay s
  | .leverClose bay => Sys2Proof.Machine.execLeverClose bay s
  | .removalQuiesced bay => Sys2Proof.Machine.execRemovalQuiesced bay s
  | .caddySurpriseRemoval bay => Sys2Proof.Machine.execCaddySurpriseRemoval bay s
  | .caddyPulled bay => Sys2Proof.Machine.execCaddyPulled bay s
  | .rebuildGroup bay => Sys2Proof.Machine.execRebuildGroup bay s
  | .caddyLaneFrameFail bay lane => Sys2Proof.Machine.execCaddyLaneFrameFail bay lane s
  | .peerSignalDetect port => Sys2Proof.Machine.execPeerSignalDetect port s
  | .linkTrainTimeout port => Sys2Proof.Machine.execLinkTrainTimeout port s
  | .hello port h => Sys2Proof.Machine.execHello port h s
  | .spdmPeerMessage port hdr proved => Sys2Proof.Machine.execSpdmPeerMessage port hdr proved s
  | .linkUp port lanes => Sys2Proof.Machine.execLinkUp port lanes s
  | .flitReceive port f => Sys2Proof.Machine.execFlitReceive port f s
  | .peerLaneOut port lane => Sys2Proof.Machine.execPeerLaneOut port lane s
  | .linkRetrain port => Sys2Proof.Machine.execLinkRetrain port s
  | .linkHoldExpiry port => Sys2Proof.Machine.execLinkHoldExpiry port s
  | .statusPacket port h state power stepCount => Sys2Proof.Machine.execStatusPacket port h state power stepCount s
  | .statusTimer => Sys2Proof.Machine.execStatusTimer s
  | .peerStatusTimeout port => Sys2Proof.Machine.execPeerStatusTimeout port s
  | .announce port h d => Sys2Proof.Machine.execAnnounce port h d s
  | .xferReady port h => Sys2Proof.Machine.execXferReady port h s
  | .dataPacket port h payload => Sys2Proof.Machine.execDataPacket port h payload s
  | .xferDone port h => Sys2Proof.Machine.execXferDone port h s
  | .peerNak port h => Sys2Proof.Machine.execPeerNak port h s
  | .cancel port h => Sys2Proof.Machine.execCancel port h s
  | .stepClose port h step recs => Sys2Proof.Machine.execStepClose port h step recs s
  | .grantWaitExpiry port xfer => Sys2Proof.Machine.execGrantWaitExpiry port xfer s
  | .controlCoreWatchdog cc journalOk => Sys2Proof.Machine.execControlCoreWatchdog cc journalOk s
  | .pcieRetrain recovered => Sys2Proof.Machine.execPcieRetrain recovered s
  | .getVersion => Sys2Proof.Machine.execGetVersion s
  | .getCapabilities => Sys2Proof.Machine.execGetCapabilities s
  | .negotiateAlgorithms hash mldsa => Sys2Proof.Machine.execNegotiateAlgorithms hash mldsa s
  | .getDigests => Sys2Proof.Machine.execGetDigests s
  | .getCertificate slot offset len => Sys2Proof.Machine.execGetCertificate slot offset len s
  | .challenge slot nonce => Sys2Proof.Machine.execChallenge slot nonce s
  | .getMeasurements index signed nonce => Sys2Proof.Machine.execGetMeasurements index signed nonce s
  | .getCsr => Sys2Proof.Machine.execGetCsr s
  | .setCertificate slot chain => Sys2Proof.Machine.execSetCertificate slot chain s
  | .chunkSend handle seq last chunk => Sys2Proof.Machine.execChunkSend handle seq last chunk s
  | .chunkGet handle seq => Sys2Proof.Machine.execChunkGet handle seq s
  | .spdmUnsupportedRequest code => Sys2Proof.Machine.execSpdmUnsupportedRequest code s
  | .stateQuery => Sys2Proof.Machine.execStateQuery s
  | .tokenRequest action => Sys2Proof.Machine.execTokenRequest action s
  | .actionService a => Sys2Proof.Machine.execActionService a s
  | .actionOpen a => Sys2Proof.Machine.execActionOpen a s
  | .actionProvisioned a => Sys2Proof.Machine.execActionProvisioned a s
  | .actionOperational a => Sys2Proof.Machine.execActionOperational a s
  | .actionReturn a => Sys2Proof.Machine.execActionReturn a s
  | .actionBlank a => Sys2Proof.Machine.execActionBlank a s
  | .relock => Sys2Proof.Machine.execRelock s
  | .tokenExpiry => Sys2Proof.Machine.execTokenExpiry s
  | .lockoutExpiry => Sys2Proof.Machine.execLockoutExpiry s
  | .powerReq fn value => Sys2Proof.Machine.execPowerReq fn value s
  | .powerStepDone => Sys2Proof.Machine.execPowerStepDone s
  | .powerStepLimitExpiry => Sys2Proof.Machine.execPowerStepLimitExpiry s
  | .kettleSample milliwatts => Sys2Proof.Machine.execKettleSample milliwatts s
  | .kettleTrial => Sys2Proof.Machine.execKettleTrial s
  | .kettleTrialEnd => Sys2Proof.Machine.execKettleTrialEnd s
  | .thermalThrottleTick hot => Sys2Proof.Machine.execThermalThrottleTick hot s
  | .thermalTrip sensor => Sys2Proof.Machine.execThermalTrip sensor s
  | .caddyTrip bay => Sys2Proof.Machine.execCaddyTrip bay s
  | .caddyCoolExpiry bay => Sys2Proof.Machine.execCaddyCoolExpiry bay s
  | .powerOn straps failedCores slotA slotB copyA copyB => Sys2Proof.Machine.execPowerOn straps failedCores slotA slotB copyA copyB s
  | .dramTrainingDone => Sys2Proof.Machine.execDramTrainingDone s
  | .moduleReady mapReadable => Sys2Proof.Machine.execModuleReady mapReadable s
  | .weightReload image => Sys2Proof.Machine.execWeightReload image s
  | .bootWatchdog => Sys2Proof.Machine.execBootWatchdog s
  | .seWatchdog => Sys2Proof.Machine.execSeWatchdog s
  | .commit fn => Sys2Proof.Machine.execCommit fn s
  | .commitDone verified => Sys2Proof.Machine.execCommitDone verified s
  | .moduleReset cause => Sys2Proof.Machine.execModuleReset cause s
  | .resetDrainDone => Sys2Proof.Machine.execResetDrainDone s
  | .resetDrainExpiry => Sys2Proof.Machine.execResetDrainExpiry s
  | .pf1Flr => Sys2Proof.Machine.execPf1Flr s
  | .vfFlr vf => Sys2Proof.Machine.execVfFlr vf s
  | .pf0Reset => Sys2Proof.Machine.execPf0Reset s
  | .vfEnableChange numVfs => Sys2Proof.Machine.execVfEnableChange numVfs s
  | .potStop fn pot => Sys2Proof.Machine.execPotStop fn pot s
  | .potRestart fn pot => Sys2Proof.Machine.execPotRestart fn pot s
  | .ringEnable fn pot ring value => Sys2Proof.Machine.execRingEnable fn pot ring value s
  | .ringDisable fn pot ring => Sys2Proof.Machine.execRingDisable fn pot ring s
  | .coalesceTimerExpiry pot ring => Sys2Proof.Machine.execCoalesceTimerExpiry pot ring s
  | .snapshotStart fn => Sys2Proof.Machine.execSnapshotStart fn s
  | .snapshotDone fn startCclk endCclk => Sys2Proof.Machine.execSnapshotDone fn startCclk endCclk s
  | .sidebandRead offset => Sys2Proof.Machine.execSidebandRead offset s
  | .sidebandWrite offset value => Sys2Proof.Machine.execSidebandWrite offset value s
  | .registerWrite fn offset size value => Sys2Proof.Machine.execRegisterWrite fn offset size value s
  | .traceControl start mask period groupEn => Sys2Proof.Machine.execTraceControl start mask period groupEn s
  | .markerPulse counters => Sys2Proof.Machine.execMarkerPulse counters s
  | .traceSyncTimer source counter pc => Sys2Proof.Machine.execTraceSyncTimer source counter pc s
  | .traceFrame => Sys2Proof.Machine.execTraceFrame s
  | .mapRebuildDone => Sys2Proof.Machine.execMapRebuildDone s
  | .hardwareFailure part => Sys2Proof.Machine.execHardwareFailure part s
  | .controllerEnable => Sys2Proof.Machine.execControllerEnable s
  | .jtagAccess a => Sys2Proof.Machine.execJtagAccess a s
  | .quotaWaitExpiry pot other bytes => Sys2Proof.Machine.execQuotaWaitExpiry pot other bytes s
  | .shareWindowEnd pot winner shortNs => Sys2Proof.Machine.execShareWindowEnd pot winner shortNs s
  | .thermalTripClear => Sys2Proof.Machine.execThermalTripClear s

end Sys2Proof.Machine
end

