-- ==== Sys2Proof/Safety.lean ====
section
/-! DEFINITION. What a safe run is, in the terms the claims use. -/

namespace Sys2Proof.Machine

/-- The module holds an owner key exactly while it is PROVISIONED or OPERATIONAL (Table 16.6). -/
def State.ownerKeyHeld (s : State) : Prop :=
  s.sec.ownerKey.isSome = (s.sec.lifecycle == .provisioned || s.sec.lifecycle == .operational)

/-- A slot boots: it is committed, and the manifest found in its image passes the checks of Table 16.4 and the module's own
counters (R376, R377, R406). -/
def State.slotPasses (s : State) (n : Nat) (found : Option Manifest) : Prop :=
  (s.slot n).record.isSome = true ∧ ∃ m, found = some m ∧ s.manifestOk m = true

end Sys2Proof.Machine
end

