-- ==== Sys2Proof/Certificates/Slice0/Obligations.lean ====
section
/-! DEFINITION. The statements about the model, for the provers: of the step, of every command of the table, of the machine as a
whole. -/

open Sys2Proof Sys2Proof.Machine

-- The step

/-- A step takes the command at the front of the queue and is that command's meaning on the state with the queue's rest. THE MODEL'S CHOICE (assumption log 17): with no
command waiting the block idles. -/
def Obligations.StepRunsFrontCommand : Prop :=
  (∀ (s : State) (c : Instr) (rest : List Instr),
     step { s with pending := c :: rest } = exec c { s with pending := rest }) ∧
  (∀ s : State, s.pending = [] → step s = .next s)

/-- No command is refused, and only a probe access can stop the block: every other command answers a next state in every state. No meaning touches the queue of waiting
commands: whatever command runs, the next state's queue is the one it was given. THE MODEL'S READINGS AND CHOICES here: assumption log 22. -/
def Obligations.CommandsCompleteAndKeepTheQueue : Prop :=
  (∀ (c : Instr) (s : State),
     (∃ t, exec c s = .next t) ∨
     (exec c s = .fault .noSuchAddress ∧ ∃ a, c = .jtagAccess a)) ∧
  (∀ (c : Instr) (s t : State), exec c s = .next t → t.pending = s.pending)

-- Security, power and resets

/-- The lifecycle moves of Table 16.6, over every command: a step that changes the lifecycle is an `AUTHORISE` of action 3, 4, 5 or 6 with the outstanding token, in
PS0, from a lifecycle that the table lists for that action, to the one it names. -/
def Obligations.LifecycleMovesOnlyByItsActions : Prop :=
  ∀ (s t : State), step s = .next t → t.sec.lifecycle ≠ s.sec.lifecycle →
    s.power.st = 0 ∧ ∃ (a : Authorise) (rest : List Instr), s.sec.token = some a.token ∧
      (s.pending = .actionProvisioned a :: rest ∧ s.sec.lifecycle = .blank ∧ t.sec.lifecycle = .provisioned ∨
       s.pending = .actionOperational a :: rest ∧ s.sec.lifecycle = .provisioned ∧ t.sec.lifecycle = .operational ∨
       s.pending = .actionReturn a :: rest ∧ (s.sec.lifecycle = .provisioned ∨ s.sec.lifecycle = .operational) ∧
         t.sec.lifecycle = .returned ∨
       s.pending = .actionBlank a :: rest ∧ s.sec.lifecycle = .returned ∧ t.sec.lifecycle = .blank)

/-- The module holds an owner key exactly while it is PROVISIONED or OPERATIONAL: every step keeps this. -/
def Obligations.OwnerKeyHeldExactlyWhileOwned : Prop :=
  ∀ s t : State, s.ownerKeyHeld → step s = .next t → t.ownerKeyHeld

/-- At reset the module is unowned and holds no owner key, and its lifecycle there is BLANK, THE MODEL'S CHOICE (assumption log 4); no command waits. -/
def Obligations.ResetHoldsNoOwnerKey : Prop :=
  State.reset.ownerKeyHeld ∧ State.reset.sec.lifecycle = .blank ∧ State.reset.pending = []

/-- The owner key is written only by an `AUTHORISE` of action 3 or action 5. The identity never changes, and the anti-rollback counter never goes back. The
anti-rollback counter rises only by a Firmware Commit: over every other command it stands still, and so do the straps but at power-on. -/
def Obligations.SecurityStateHasItsWriters : Prop :=
  (∀ s t : State, step s = .next t → t.sec.ownerKey ≠ s.sec.ownerKey →
     ∃ (a : Authorise) (rest : List Instr), s.sec.token = some a.token ∧
       (s.pending = .actionProvisioned a :: rest ∧ t.sec.ownerKey = (a.sigs.head?).map (·.keyDigest) ∨
        s.pending = .actionReturn a :: rest ∧ t.sec.ownerKey = none)) ∧
  (∀ s t : State, step s = .next t → t.sec.identity = s.sec.identity ∧ s.boot.rollback ≤ t.boot.rollback) ∧
  (∀ (c : Instr) (s t : State), exec c s = .next t →
     (t.boot.rollback ≠ s.boot.rollback →
       (∃ n k m, c = .fwCommitReplace n k m) ∨ (∃ n k m, c = .fwCommitActivateNext n k m) ∨
       (∃ n k m, c = .fwCommitActivateNow n k m)) ∧
     (t.power.straps ≠ s.power.straps → ∃ x f a b ca cb, c = .powerOn x f a b ca cb))

/-- What the SPDM requests with a short answer leave: the answer, the negotiation they move on, and nothing else. An answer that carries a certificate or a signature
comes at once, or, when it is longer than one message (which of the two is free: assumption log 1), waits to be fetched in chunks; nothing but the element's answer
changes. `TOKEN_REQUEST`: the 128-byte token of Table 16.7 becomes the outstanding one; locked out it is answered with 0x05; the token expires, and the lock-out ends.
THE MODEL'S READINGS AND CHOICES here: assumption log 1, 8. -/
def Obligations.ElementAnswersRequests : Prop :=
  (∀ s : State, s.elementUp = true →
     exec .getVersion s = .next { s with sec := { s.sec with
       versionOk := true, algorithmsOk := false, chunks := none, large := none, reply := .version 0x13 } } ∧
     (∀ code, exec (.spdmUnsupportedRequest code) s = .next { s with sec := { s.sec with reply := .unsupported } }) ∧
     exec .stateQuery s = .next { s with sec := { s.sec with
       reply := .state s.sec.lifecycle.code (Debug.code s.sec.debug) s.power.st s.sec.epoch.toNat s.sec.failures } } ∧
     (s.sec.versionOk = true →
       exec .getCapabilities s = .next { s with sec := { s.sec with reply := .capabilities } } ∧
       exec (.negotiateAlgorithms true true) s = .next { s with sec := { s.sec with algorithmsOk := true, reply := .algorithms } } ∧
       (∀ hash mldsa, hash = false ∨ mldsa = false →
         exec (.negotiateAlgorithms hash mldsa) s = .next { s with sec := { s.sec with reply := .error } })) ∧
     (s.sec.versionOk = true → s.sec.algorithmsOk = true →
       exec .getDigests s = .next { s with sec := { s.sec with reply := .digests (if s.sec.slot1.isSome then 3 else 1) } } ∧
       (∀ i v nonce, s.measurement i = some v → 0 < i → i < 16 →
         exec (.getMeasurements i false nonce) s = .next { s with sec := { s.sec with reply := .measurements [(i, v)] false nonce } }) ∧
       (∀ nonce, exec (.getMeasurements 0 false nonce) s =
         .next { s with sec := { s.sec with reply := .measurements [(0, natLe 1 15)] false nonce } }) ∧
       (∀ chain, s.sec.lifecycle = .provisioned →
         exec (.setCertificate 1 chain) s = .next { s with sec := { s.sec with slot1 := some chain, reply := .certificateSet } }) ∧
       (∀ slot chain, slot ≠ 1 ∨ s.sec.lifecycle ≠ .provisioned →
         exec (.setCertificate slot chain) s = .next { s with sec := { s.sec with reply := .error } }) ∧
       (∀ h last chunk, exec (.chunkSend h 0 last chunk) s = .next { s with sec := { s.sec with
         chunks := if last then none else some (h, 1, chunk), reply := .chunkAck h 0 } }) ∧
       (∀ h n b last chunk, s.sec.chunks = some (h, n, b) → n ≠ 0 →
         exec (.chunkSend h n last chunk) s = .next { s with sec := { s.sec with
           chunks := if last then none else some (h, n + 1, b ++ chunk), reply := .chunkAck h n } }))) ∧
  (∀ s : State, s.elementUp = true → s.sec.versionOk = true → s.sec.algorithmsOk = true →
     let gives := fun (c : Instr) (r : Reply) => ∃ t, exec c s = .next t ∧
       (t = { s with free := s.free + 1, sec := { s.sec with reply := r } } ∨
        ∃ h b, t = { s with free := s.free + 1, sec := { s.sec with reply := .error, large := some (h, 0, b) } })
     (∀ slot nonce, (s.chainOf slot.val).isSome = true → gives (.challenge slot nonce) (.challengeAuth slot.val nonce)) ∧
     (∀ slot off len c, s.chainOf slot.val = some c → off < c.length →
       gives (.getCertificate slot off len)
         (.certificate slot.val (slice c off (Nat.min len (c.length - off))) (c.length - off - len))) ∧
     (∀ i v nonce, s.measurement i = some v → 0 < i → i < 16 →
       gives (.getMeasurements i true nonce) (.measurements [(i, v)] true nonce)) ∧
     gives .getCsr .csr ∧
     (∀ h n b, s.sec.large = some (h, n, b) → ∃ t, exec (.chunkGet h n) s = .next t ∧ ∃ k, 0 < k ∧
       t = { s with free := s.free + 1, sec := { s.sec with
         large := if b.length ≤ k then none else some (h, n + 1, b.drop k)
         reply := .chunk h n (b.take k) (decide (b.length ≤ k)) } })) ∧
  (∀ s : State,
     (∀ action, s.elementUp = true → s.sec.locked = false → 1 ≤ action → action ≤ 6 →
       ∃ tok nonce : Bytes, nonce.length = 32 ∧
         tok = [0x53, 0x47, 0x54, 0x4F, 0x4B, 0x45, 0x4E, 0x31] ++ natLe 32 s.sec.identity.toNat ++ nonce ++ natLe 1 action ++
           natLe 1 s.sec.lifecycle.code ++ natLe 1 (Debug.code s.sec.debug) ++ natLe 1 s.power.st ++ natLe 4 s.sec.epoch.toNat ++
           natLe 4 s.boot.rollback ++ zeros 44 ∧
         tok.length = 128 ∧
         exec (.tokenRequest action) s = .next { s with
           free := s.free + 1, sec := { s.sec with token := some tok, reply := .token tok } }) ∧
     (∀ action, s.elementUp = true → s.sec.locked = true →
       exec (.tokenRequest action) s = .next { s with sec := { s.sec with reply := .status 5 } }) ∧
     exec .tokenExpiry s = .next { s with sec := { s.sec with token := none } } ∧
     exec .lockoutExpiry s = .next { s with sec := { s.sec with locked := false, failures := 0 } })

/-- An `AUTHORISE` whose form, token, lifecycle, signers and condition Table 16.6 accepts is answered with 0x00 and has its action's effect on the lifecycle, the debug
level and the owner key; the token is used up and the failure count restarts. An `AUTHORISE` that names no outstanding token fails with 0x06 or 0x07, changes nothing
else, and the third failure in a row locks `TOKEN_REQUEST`. `RELOCK`: SERVICE returns to CLOSED with trace stopped, OPEN stays and answers 0x02. THE MODEL'S READINGS
AND CHOICES here: assumption log 43. -/
def Obligations.ActionsTakeEffect : Prop :=
  (∀ (s : State) (a : Authorise),
     s.elementUp = true → a.wellFormed = true → a.sigs.length = 1 ∨ a.sigs.length = 2 → a.token.length = 128 →
     s.sec.token = some a.token → a.sigs.all (·.valid) = true →
     let action := field a.token 0x48 1
     let service := a.sigs.any s.serviceSig
     let owner := a.sigs.any s.ownerSig
     let owned := s.sec.lifecycle = .provisioned ∨ s.sec.lifecycle = .operational
     (action = 1 → service = true ∨ owner = true →
       exec (.actionService a) s = .next { s with sec := { s.sec with
         failures := 0, token := none, debug := if s.sec.debug = .opened then .opened else .service, reply := .status 0 } }) ∧
     (action = 2 → service = true → (owned → owner = true ∧ s.potsStopped = true) →
       let u : State := { s with sec := { s.sec with failures := 0, token := none } }
       let v := (u.destroyKeys.dropObjects.unknownBlocks.modSec fun x => { x with debugKeys := true }).modBoot fun b => { b with openPosted := [] }
       exec (.actionOpen a) s = .next ((v.startDrain 2).answer (.status 0))) ∧
     (∀ g, action = 3 → s.sec.lifecycle = .blank → s.power.st = 0 → a.sigs = [g] → g.role = 1 →
       ∃ t, exec (.actionProvisioned a) s = .next t ∧ t.sec.lifecycle = .provisioned ∧ t.sec.ownerKey = some g.keyDigest) ∧
     (action = 4 → s.sec.lifecycle = .provisioned → s.power.st = 0 → owner = true →
       ∃ t, exec (.actionOperational a) s = .next t ∧ t.sec.lifecycle = .operational ∧ t.sec.ownerKey = s.sec.ownerKey) ∧
     (action = 5 → owned → s.power.st = 0 → s.potsStopped = true → owner = true →
       ∃ t, exec (.actionReturn a) s = .next t ∧ t.sec.lifecycle = .returned ∧ t.sec.ownerKey = none ∧ t.sec.slot1 = none ∧
         t.sec.epoch = s.sec.epoch + 1 ∧ t.images = [] ∧ t.corpora = [] ∧ t.colls = [] ∧ t.tables = [] ∧ t.nvme.spaces = []) ∧
     (action = 6 → s.sec.lifecycle = .returned → s.power.st = 0 → service = true →
       ∃ t, exec (.actionBlank a) s = .next t ∧ t.sec.lifecycle = .blank ∧ t.sec.ownerKey = s.sec.ownerKey)) ∧
  (∀ (s : State) (a : Authorise) (c : Instr),
     c = .actionService a ∨ c = .actionOpen a ∨ c = .actionProvisioned a ∨ c = .actionOperational a ∨ c = .actionReturn a ∨
       c = .actionBlank a →
     s.elementUp = true → s.sec.token ≠ some a.token →
     ∃ n, (n = 6 ∨ n = 7) ∧ exec c s = .next { s with
       free := s.free + 1
       sec := { s.sec with
         failures := s.sec.failures + 1
         locked := s.sec.locked || decide (3 ≤ s.sec.failures + 1)
         reply := .status n } }) ∧
  (∀ s : State, s.elementUp = true →
     (s.sec.debug = .service → ∃ t, exec .relock s = .next t ∧ t.sec.debug = .closed ∧ t.sec.reply = .status 0 ∧ t.obs.tracing = false ∧
       t.host = s.host ∧ t.media = s.media ∧ t.nvme = s.nvme ∧ t.boot = s.boot ∧ t.power = s.power ∧ t.jobs = s.jobs ∧
       t.cores = s.cores ∧ t.pots = s.pots) ∧
     (s.sec.debug = .opened → exec .relock s = .next { s with sec := { s.sec with reply := .status 2 } }) ∧
     (s.sec.debug = .closed → exec .relock s = .next { s with sec := { s.sec with reply := .status 0 } }))

/-- Power-state requests and steps: PF1 alone writes the request, values 5 to 7 are ignored; a step whose work is over ends in its state, and the next one toward the
latest request begins. A step that begins goes to the neighbouring state on the way to the request, so non-adjacent states are reached through every state between;
leaving PS0 core jobs are pre-empted, toward PS4 the peer links go DOWN, and leaving PS4 the orderly stop ends. THE MODEL'S READINGS AND CHOICES here: assumption log
42. -/
def Obligations.PowerStatesMoveByStep : Prop :=
  (∀ s : State,
     (∀ v : BitVec 3, s.boot.up = true → v.toNat < 5 →
       exec (.powerReq .pf1 v) s = .next ({ s with power := { s.power with req := v.toNat } } : State).towards) ∧
     (∀ (fn : PcieFn) (v : BitVec 3), fn ≠ .pf1 ∨ 5 ≤ v.toNat → exec (.powerReq fn v) s = .next s) ∧
     (∀ goal, s.boot.phase = .ready → s.power.step = some goal → s.stepReady goal = true →
       exec .powerStepDone s = .next (s.enterPower goal).towards) ∧
     (∀ goal, s.boot.phase = .ready → s.power.step = some goal → s.power.st ≤ goal →
       exec .powerStepLimitExpiry s = .next
         (if s.power.st = 0 then s.stopTasks.stopOverruns
          else if s.power.st = 1 then (s.jobs.filter Job.engineRuns).foldl (fun s j => s.abortJob j.key 0x31) s
          else s).finishStep)) ∧
  (∀ s : State, s.boot.phase = .ready → s.power.step = none → s.powerWant ≠ s.power.st →
     ∃ (goal : Nat) (u : State), u = { s with power := { s.power with step := some goal } } ∧
       (s.power.st < s.powerWant → goal = s.power.st + 1) ∧ (s.powerWant < s.power.st → goal + 1 = s.power.st) ∧
       (s.power.st = 0 → s.towards = (List.range 8).foldl State.preemptIdle u) ∧
       (s.power.st ≠ 0 → goal = 4 → s.towards = u.dropLinks) ∧
       (s.power.st = 4 → goal ≠ 4 → s.towards = { u with media := { s.media with orderly := false } }) ∧
       (s.power.st ≠ 0 → s.power.st ≠ 4 → goal ≠ 4 → s.towards = u))

/-- The kettle's commands: a sample passes 10 µs, in which the waits that stand are counted, and joins the last 1,000, unless a watchpoint hit on the way halts the
kettle's core; a trial goes one level shallower; its end keeps the shallower level when the 1 ms mean is at most L − 20 W, and returns to the deeper one otherwise.
Temperature: while a sensor is at its throttle threshold each tick goes one level deeper, to at most 16; a trip forces the module toward PS3; after it clears, the
requests act again. THE MODEL'S READINGS AND CHOICES here: assumption log 12, 14, 42, 51. -/
def Obligations.KettleAndThermalCommands : Prop :=
  (∀ s : State, s.kettleRuns = true →
     (∀ mw, let w := ({ s with time := s.time + 10 } : State).waited
       (w.kettleRuns = true → exec (.kettleSample mw) s = .next ({ w with power := { w.power with
         samples := (mw :: w.power.samples).take 1000
         sinceDeeper := w.power.sinceDeeper + 1, sincePaced := w.power.sincePaced + 1, sinceTrial := w.power.sinceTrial + 1 } } : State
           ).recordFall.kettleMove) ∧
       (w.kettleRuns = false → exec (.kettleSample mw) s = .next w)) ∧
     (0 < s.power.level → s.power.trial = none → s.power.hot = false → 100000 ≤ s.power.sinceDeeper → 100000 ≤ s.power.sinceTrial →
       ∃ t, exec .kettleTrial s = .next t ∧ t.power.level = s.power.level - 1 ∧
         t.power.trial = some (s.power.level, (s.power.samples.take 100).sum) ∧ t.power.sinceTrial = 0 ∧
         t.host = s.host ∧ t.media = s.media ∧ t.jobs = s.jobs ∧ t.cores = s.cores) ∧
     (∀ level before, s.power.trial = some (level, before) → 100 ≤ s.power.samples.length → 100 ≤ s.power.sinceTrial →
       (s.power.samples.take 100).sum ≤ 100 * (1000 * s.powerLimit - 20000) →
         exec .kettleTrialEnd s = .next { s with power := { s.power with trial := none } }) ∧
     (∀ level before, s.power.trial = some (level, before) → 100 ≤ s.power.samples.length → 100 ≤ s.power.sinceTrial →
       100 * (1000 * s.powerLimit - 20000) < (s.power.samples.take 100).sum →
         ∃ t, exec .kettleTrialEnd s = .next t ∧ t.power.level = level ∧ t.power.trial = none ∧
           t.power.deltas.lookup level = some (((s.power.samples.take 100).sum : Int) - (before : Int)))) ∧
  (∀ s : State,
     (s.kettleRuns = true → s.power.level < 16 →
       ∃ t, exec (.thermalThrottleTick true) s = .next t ∧ t.power.level = s.power.level + 1 ∧ t.power.hot = true ∧
         t.power.sinceDeeper = 0 ∧ t.power.trial = none) ∧
     (s.kettleRuns = true →
       exec (.thermalThrottleTick false) s = .next { s with power := { s.power with hot := false } }) ∧
     (∀ k, s.kettleRuns = true →
       exec (.thermalTrip k) s = .next ({ s with power := { s.power with tripped := true, hot := true } } : State).towards) ∧
     (s.power.tripped = true → (∀ c io, NvWait.io c io ∉ s.nvme.waits) →
       exec .thermalTripClear s = .next ({ s with power := { s.power with tripped := false, hot := false } } : State).towards))

/-- `POWER_ON`: the straps are sampled, one feed carries the load, the i-th passing core of each quadrant becomes its i-th logical core, and the slot of the boot
pointer boots, else the other, else none. The rest of a start: a word that fails the fill's read-back is a hard fault; the control cores run and occupied bays power up;
then the module is ready with the loss log built, the map read or being rebuilt, and the boot pointer at the slot that runs; the images' weights return in load order;
PF0 is ready once the module is. THE MODEL'S READINGS AND CHOICES here: assumption log 3, 38, 39, 58. -/
def Obligations.StartRunsInOrder : Prop :=
  (∀ (s : State) (straps : BitVec 3) (failed : List (Fin 52)) (slotA slotB : Option Manifest) (copyA copyB : Bool),
     s.boot.phase = .off ∨ s.boot.phase = .lost → s.boot.pointer = 1 ∨ s.boot.pointer = 2 →
     let found := fun n => if n = 1 then slotA else slotB
     let p := s.boot.pointer
     ∃ t, exec (.powerOn straps failed slotA slotB copyA copyB) s = .next t ∧
       t.power.straps = straps ∧ t.media.fastScrub = true ∧ t.sec.debugKeys = false ∧
       (∀ c : Fin 48, t.cores[c].phys = (passing failed (c.val / 12))[c.val % 12]?) ∧
       (s.slotPasses p (found p) → t.boot.phase = .training ∧ t.boot.active = p) ∧
       (¬ s.slotPasses p (found p) → s.slotPasses (3 - p) (found (3 - p)) → t.boot.phase = .training ∧ t.boot.active = 3 - p) ∧
       (¬ s.slotPasses p (found p) → ¬ s.slotPasses (3 - p) (found (3 - p)) → t.boot.phase = .bootFailed ∧ t.boot.active = 0)) ∧
  (∀ s : State,
     (s.boot.phase = .training →
       exec .dramTrainingDone s = .next ((List.range 8).foldl State.bringUp { s with boot := { s.boot with phase := .booting } }) ∧
       ∀ t a errs retry, exec (.scrubRead (.word t a errs retry)) s = .next (if errs = [] then s else s.hardFault t a)) ∧
     (∀ n : Fin 8,
       let b := s.media.bays[n]
       (b.present = false ∨ b.safe = true → s.bringUp n = s) ∧
       (b.present = true → b.safe = false → b.lever = false → s.bringUp n = s.powerBay n) ∧
       (b.present = true → b.safe = false → b.lever = true → b.member = none →
         s.bringUp n = s.modBay n fun b => { b with st := 7, safe := true, quiet := false }) ∧
       (b.present = true → b.safe = false → b.lever = true → b.member ≠ none →
         s.bringUp n = (s.modBay n fun b => { b with st := 7, safe := true, quiet := false, member := none }).memberAbsent n)) ∧
     (∀ t a, (t, a) ∈ s.tiers.hard → s.hardFault t a = s) ∧
     (∀ t a, (t, a) ∉ s.tiers.hard → (s.hardFault t a).tiers.hard = s.tiers.hard ++ [(t, a)] ∧ (s.hardFault t a).jobs = s.jobs) ∧
     (∀ readable, s.boot.phase = .booting → s.nvme.loss = [] → s.nvme.dump = [] → ∃ u : State,
       exec (.moduleReady readable) s = .next u.towards ∧
       u.boot = { s.boot with phase := .ready, pointer := s.boot.active, lossDue := false } ∧
       u.nvme = { s.nvme with ready := s.nvme.enabled } ∧
       u.media.rebuildingMap = !readable ∧ u.media.orderly = false ∧ u.media.startOrderly = s.media.orderly) ∧
     (∀ readable, s.boot.phase = .booting → s.nvme.loss ++ s.nvme.dump ≠ [] → ∃ u : State,
       exec (.moduleReady readable) s = .next u.towards ∧
       u.boot = { s.boot with phase := .ready, pointer := s.boot.active, lossDue := true } ∧
       u.nvme.loss = s.nvme.loss ++ s.nvme.dump ∧ u.nvme.dump = []) ∧
     (∀ im, s.images.find? (·.reload) = some im → s.boot.phase = .ready →
       let u : State := { s with images := s.images.map fun i => if i.id == im.id then { i with reload := false } else i }
       let r := u.allocPinned true { key := .weights im.id, pot := im.pot, cls := .pinned, size := im.residentBytes }
       (r.2 ≠ .refused → exec (.weightReload im.id) s = .next r.1.tidy) ∧
       (r.2 = .refused → exec (.weightReload im.id) s = .next (({ r.1 with
         images := r.1.images.map fun i => if i.id == im.id then { i with resident := 0, residentBytes := 0 } else i } : State).tidy))) ∧
     (exec .mapRebuildDone s = .next { s with media := { s.media with rebuildingMap := false } }) ∧
     (s.nvme.enabled = false →
       exec .controllerEnable s = .next { s with nvme := { s.nvme with enabled := true, ready := s.boot.phase == .ready } }))

/-- Watchdogs: a boot that hangs recovers into the other slot once; the element forgets the exchange in progress and keeps its keys; a control core restarts in place,
and a second one within 60 s, or one in an activation hold, resets the module. The feeds: while one stays the load goes on and nothing else changes; losing both is a
power loss, which leaves nothing volatile, the rings, the ports and the debug level at their values after a cold start. THE MODEL'S READINGS AND CHOICES here:
assumption log 38. -/
def Obligations.WatchdogsAndPowerLoss : Prop :=
  (∀ s : State,
     (s.boot.phase = .booting → s.boot.active = s.boot.pointer → exec .bootWatchdog s = .next (s.startDrain 3)) ∧
     (s.boot.phase = .booting → s.boot.active ≠ s.boot.pointer →
       exec .bootWatchdog s = .next { s with boot := { s.boot with phase := .bootFailed, active := 0, version := 0 } }) ∧
     (s.boot.phase ≠ .off → s.boot.phase ≠ .lost → s.boot.phase ≠ .failed →
       exec .seWatchdog s = .next { s with sec := { s.sec with
         token := none, chunks := none, large := none, versionOk := false, algorithmsOk := false, reply := .none } }) ∧
     (∀ cc : Fin 16, s.boot.phase = .ready → s.power.halted.getLsbD cc.val = false →
       (s.boot.hold = none → (∀ r ∈ s.boot.restartsAt, r.2 + 60000000 ≤ s.time) →
         exec (.controlCoreWatchdog cc true) s =
           .next { s with boot := { s.boot with restartsAt := (cc.val, s.time) :: s.boot.restartsAt } }) ∧
       (∀ ok, s.boot.hold ≠ none ∨ (∃ r ∈ s.boot.restartsAt, s.time < r.2 + 60000000) →
         exec (.controlCoreWatchdog cc ok) s = .next (s.startDrain 1)))) ∧
  (∀ s : State, s.boot.phase ≠ .off → s.boot.phase ≠ .lost →
     (∀ f g : Fin 2, g ≠ f → s.power.feeds[g] = true →
       exec (.feedLost f) s = .next { s with power := { s.power with feeds := s.power.feeds.set f false } }) ∧
     (∀ f g : Fin 2, g ≠ f → s.power.feeds[g] = false →
       exec (.feedLost f) s = .next ({ s with power := { s.power with feeds := s.power.feeds.set f false } } : State).losePower) ∧
     (∀ f : Fin 2, exec (.feedRejoin f) s = .next { s with power := { s.power with feeds := s.power.feeds.set f true } }) ∧
     ∃ t, exec .powerLoss s = .next t ∧
       t.boot.phase = (if s.power.st = 4 ∧ s.power.step = none then .off else .lost) ∧
       t.sec.debug = .closed ∧ t.sec.token = none ∧ t.ports = Vector.replicate 4 {} ∧ t.nvme.buffer = [] ∧ t.nvme.intents = [] ∧
       t.host.sq = Vector.replicate 8 (Vector.replicate 16 {}) ∧ t.power.feeds = Vector.replicate 2 false ∧ t.tiers.regions = [] ∧
       t.cores = Vector.replicate 48 {})

/-- Module resets: from PF1 with the one value, from `PERST#`, a hot reset or the BMC they begin a drain; a request during a drain joins it; the drain's end and its
limit of 1 s restart the module with no token, no negotiated algorithms, every port fresh and the registers of every core cleared. Function-level resets: PF1's takes
every pot's ring set, the module event ring, the snapshot fields, the MSI-X tables and the staged settings; a VF's its pot's ring set and its own fields; VF Enable
moves only the pots whose ring set changes hands; PF0's drops queues and commands, and keeps acknowledged writes. Each of them drops the outstanding token and stops
tracing. THE MODEL'S READINGS AND CHOICES here: assumption log 5, 38. -/
def Obligations.ResetsRestartTheModule : Prop :=
  (∀ s : State,
     exec (.moduleReset .perst) s = .next (s.startDrain 0) ∧ exec (.moduleReset .hotReset) s = .next (s.startDrain 0) ∧
     exec (.moduleReset .bmc) s = .next (s.startDrain 0) ∧ exec (.moduleReset (.write .pf1 0xA5C30001)) s = .next (s.startDrain 0) ∧
     (∀ fn v, fn ≠ .pf1 ∨ v ≠ 0xA5C30001 → exec (.moduleReset (.write fn v)) s = .next s) ∧
     (∀ k, s.boot.phase = .draining k →
       (∀ n, s.startDrain n = s) ∧
       (s.writeOk = true ∨ s.nvme.buffer = [] → ∃ t, exec .resetDrainDone s = .next t ∧
         t.sec.token = none ∧ t.sec.versionOk = false ∧ t.sec.algorithmsOk = false ∧ t.ports = Vector.replicate 4 {} ∧
         t.host.sq = Vector.replicate 8 (Vector.replicate 16 {}) ∧ t.boot.staged = [] ∧ t.boot.hold = none) ∧
       (s.writeOk = false → s.nvme.buffer ≠ [] → exec .resetDrainDone s = .next s) ∧
       (∃ t, exec .resetDrainExpiry s = .next t ∧
         t.sec.token = none ∧ t.sec.versionOk = false ∧ t.sec.algorithmsOk = false ∧ t.ports = Vector.replicate 4 {} ∧
         t.host.sq = Vector.replicate 8 (Vector.replicate 16 {}) ∧ t.boot.staged = [] ∧ t.boot.hold = none))) ∧
  (∀ s : State,
     let r := s.anyReset
     s.anyReset.sec.token = none ∧
     exec .pf1Flr s = .next ((List.finRange 8).foldl State.resetRingSet { r with
       host := { s.host with numVfs := 0, modEv := { vector := 136 }, snaps := Vector.replicate 9 {}, msix := Vector.replicate 137 {}
                             vfMsix := Vector.replicate 8 (Vector.replicate 17 {}) }
       boot := { s.boot with staged := [] } }) ∧
     (∀ vf : Fin 8, vf.val < s.host.numVfs →
       exec (.vfFlr vf) s = .next (({ r with host := { s.host with
         snaps := s.host.snaps.setIfInBounds (vf.val + 1) {}, vfMsix := s.host.vfMsix.set vf (Vector.replicate 17 {}) } } : State).resetRingSet vf)) ∧
     (∀ n : Fin 9, n.val ≠ s.host.numVfs →
       exec (.vfEnableChange n) s = .next (((List.finRange 8).filter fun p => decide (p.val < s.host.numVfs) != decide (p.val < n.val)).foldl
         (fun s p => (s.resetRingSet p).modHost fun h => { h with
           snaps := h.snaps.setIfInBounds (p.val + 1) {}, vfMsix := h.vfMsix.set p (Vector.replicate 17 {}) })
         { r with host := { s.host with numVfs := n.val } })) ∧
     exec .pf0Reset s = .next { r with nvme := { s.nvme with
       enabled := false, ready := false, cfs := false, cqs := [], sqs := [], waits := [], aers := [], events := [], hmb := none
       buffer := s.nvme.buffer.filter fun b => s.acked b.seq } })

/-- A PCIe retrain holds completions and its end posts them in order; a hardware failure stops the module and names the part, but an optical engine takes down its bay
and its lanes alone; a scrub read of a word without errors clears its suspicion. THE MODEL'S READINGS AND CHOICES here: assumption log 38, 45, 58. -/
def Obligations.LinkRetrainFailureAndScrub : Prop :=
  ∀ s : State,
    (s.host.retraining = false → exec (.pcieRetrain false) s = .next (({ s with host := { s.host with retraining := true } } : State).count 6 4 10 1)) ∧
    exec (.pcieRetrain true) s = .next (s.host.linkHeld.foldl (fun s e => s.postCq (fin8 e.1) (fin16 e.2.1) e.2.2)
      { s with host := { s.host with retraining := false, linkHeld := [] } }) ∧
    (∀ n, s.boot.phase ≠ .off → s.boot.phase ≠ .lost → s.boot.phase ≠ .failed →
      exec (.hardwareFailure (.opticalEngine n)) s = .next (s.loseEngine n.val).tidy) ∧
    (∀ part, s.boot.phase ≠ .off → s.boot.phase ≠ .lost → s.boot.phase ≠ .failed → (∀ n, part ≠ .opticalEngine n) →
      ∃ t, exec (.hardwareFailure part) s = .next t ∧ t.boot.phase = .failed ∧ t.boot.failedPart = some part ∧ t.boot.hold = none) ∧
    (s.boot.phase = .ready →
      (∀ tier a errs retry, exec (.scrubRead (.word tier a errs retry)) s = .next (s.scrubWord tier a errs retry)) ∧
      (∀ tier a retry, s.scrubWord tier a [] retry = { s.count 4 (tierCodes tier).1 4 1 with
        tiers := { s.tiers with suspects := s.tiers.suspects.filter fun e => !(e.1 == tier && e.2.1 == a) } }) ∧
      (s.power.st < 3 → ∀ b g soft heavy bad,
        exec (.scrubRead (.flash b g soft heavy bad)) s = .next (s.scrubFlash b.val g soft heavy bad)))

-- Storage, firmware, settings

/-- I/O commands that PF0 fetches outside PS3 and PS4, to a namespace that serves them: a read answers the newest acknowledged data; a write enters the buffer with an
intent record and completes, or waits to be durable; Flush waits for the acknowledged writes before it; Write Zeroes and Deallocate deallocate. I/O commands that do not
run: with a status outside OPERATIONAL, during a map rebuild, for a namespace that is missing, detached, being deleted or named by the loss log; writes with five or
fewer writable caddies; in PS3 and PS4 they are held and the return to PS2 begins. What a deallocated block reads as: zeros, once no buffered write of it is left. THE
MODEL'S READINGS AND CHOICES here: assumption log 9, 10, 29. -/
def Obligations.IoCommandsRun : Prop :=
  (∀ (s : State) (c : NvCmd) (slba nlb : Nat) (prp : Prp), s.nvFetches = true → s.power.st < 3 →
     (∀ n readable, s.ioFail c slba nlb true = none → s.ns? c.nsid = some n →
       readable = true ∨ (∀ i < nlb, s.fromFlash n (slba + i) = false) →
       exec (.nvmRead c slba nlb prp readable) s =
         .next ((s.toPrp prp ((List.range nlb).map fun i => s.blockData n (slba + i) i).flatten).used.nvDone c .success 0)) ∧
     (∀ (data : List Bytes) fua, s.ioFail c slba nlb true = none → s.writeOk = true → data.length = nlb →
       (∀ i < nlb, s.hostRead (prp.getD i 0) 4096 = some (data.getD i [])) → s.writeRoom nlb (s.writeThrough fua) = true →
       ∃ t, exec (.nvmWrite c slba nlb prp fua) s = .next t ∧ t.nvme.seq = s.nvme.seq + 1 ∧
         t.nvme.buffer.length = s.nvme.buffer.length + nlb ∧ t.nvme.spaces = s.nvme.spaces ∧ t.host = s.host ∧ t.media = s.media ∧
         (s.writeThrough fua = false →
           t.nvme.intents = s.nvme.intents ++
             [{ nsid := c.nsid, slba := slba, nlb := nlb, sqid := c.sqid, cid := c.cid, seq := s.nvme.seq }] ∧
           t.nvme.done = { cmd := c, status := .success } :: s.nvme.done ∧ t.nvme.waits = s.nvme.waits) ∧
         (s.writeThrough fua = true →
           t.nvme.intents = s.nvme.intents ∧ t.nvme.done = s.nvme.done ∧ t.nvme.waits = s.nvme.waits ++ [.write c s.nvme.seq])) ∧
     (s.ioFail c 0 0 false = none → c.nsid ≠ 0xFFFFFFFF →
       s.writeOk = true ∨ (∀ i ∈ s.nvme.intents, i.nsid ≠ c.nsid) →
       exec (.nvmFlush c) s = .next (({ s with nvme := { s.nvme with waits := s.nvme.waits ++
         [.flush c s.nvme.seq ((s.nvme.intents.filter fun i => i.nsid == c.nsid).map (·.seq))] } } : State).nvSettle)) ∧
     (s.ioFail c slba nlb false = none → s.writeOk = true →
       exec (.writeZeroes c slba nlb) s = .next ((s.deallocate c.nsid slba nlb).nvDone c .success 0)) ∧
     (∀ ranges : List (Nat × Nat), s.ioFail c 0 0 false = none → (∀ r ∈ ranges, s.ioFail c r.1 r.2 false = none) →
       exec (.datasetManagement c true ranges) s =
         .next ((ranges.foldl (fun s r => s.deallocate c.nsid r.1 r.2) s).nvDone c .success 0) ∧
       exec (.datasetManagement c false ranges) s = .next (s.nvDone c .success 0))) ∧
  (∀ (s : State) (c : NvCmd) (slba nlb : Nat) (prp : Prp) (b : Bool), s.nvFetches = true →
     (∀ e, s.power.st < 3 → s.ioFail c slba nlb true = some e →
       exec (.nvmRead c slba nlb prp b) s = .next (s.nvDone c e 0) ∧ exec (.nvmWrite c slba nlb prp b) s = .next (s.nvDone c e 0)) ∧
     (s.sec.lifecycle ≠ .operational → s.ioFail c slba nlb true = some .invalidField) ∧
     (s.sec.lifecycle = .operational → s.media.rebuildingMap = true → s.ioFail c slba nlb true = some .notReady) ∧
     (s.sec.lifecycle = .operational → s.media.rebuildingMap = false → s.ns? c.nsid = none →
       s.ioFail c slba nlb true = some .invalidNamespace) ∧
     (∀ n, s.sec.lifecycle = .operational → s.media.rebuildingMap = false → s.ns? c.nsid = some n → n.attached = true →
       s.nsDeleting c.nsid = false → s.flagged c.nsid = true → s.ioFail c slba nlb true = some .notReady) ∧
     (s.power.st < 3 → s.ioFail c slba nlb true = none → s.writeOk = false →
       exec (.nvmWrite c slba nlb prp b) s = .next (s.nvDone c .writeFault 0)) ∧
     (3 ≤ s.power.st → s.power.tripped = false → ∃ t, exec (.nvmRead c slba nlb prp b) s = .next t ∧
       t.nvme = { s.nvme with waits := s.nvme.waits ++ [.io c (.read slba nlb prp b)] } ∧ t.power.req = Nat.min s.power.req 2 ∧
       (s.power.step = none → t.power.step = some (s.power.st - 1)) ∧ t.host = s.host)) ∧
  (∀ (n : Namespace) (lba seq : Nat), n.blocks.find? (·.1 == lba) = some (lba, seq, []) ∨ n.blocks.find? (·.1 == lba) = none →
     n.durable lba = zeros 4096)

/-- Namespace Management and Attachment, Format and Sanitize. THE MODEL'S READINGS AND CHOICES here: assumption log 9. -/
def Obligations.NamespaceCommandsRun : Prop :=
  ∀ (s : State) (c : NvCmd), s.nvFetches = true → s.sec.lifecycle = .operational →
    (∀ nsze (vendor : Byte), 0 < nsze → nsze % 262144 = 0 → bit vendor.toNat 7 = true → s.potEnabled (vendor.toNat % 8) = true →
      s.nvme.spaces.length < 256 → nsze ≤ s.unitsFree (vendor.toNat % 8) →
      exec (.namespaceCreate c nsze vendor) s = .next { s with
        sec := { s.sec with nextKey := s.sec.nextKey + 1 }
        nvme := { s.nvme with
          spaces := s.nvme.spaces ++ [{ nsid := s.freeNsid, pot := vendor.toNat % 8, nsze := nsze, key := s.sec.nextKey }]
          done := { cmd := c, status := .success, result := s.freeNsid } :: s.nvme.done } }) ∧
    (∀ n, s.ns? c.nsid = some n → s.nsDeleting c.nsid = false →
      exec (.namespaceDelete c) s =
        .next (({ s with nvme := { s.nvme with waits := s.nvme.waits ++ [.delete c] } } : State).nvSettle)) ∧
    (∀ n attach, s.ns? c.nsid = some n → s.nsDeleting c.nsid = false → n.attached = !attach →
      exec (.namespaceAttachment c attach) s = .next ((s.modNs c.nsid fun n => { n with attached := attach }).nvDone c .success 0)) ∧
    (∀ ses, c.nsid = 0xFFFFFFFF ∨ (s.ns? c.nsid).isSome = true → ses ≤ 2 →
      exec (.formatNvm c ses) s = .next (((s.nsNamed c.nsid).foldl (fun s n => s.eraseNs n (ses == 2)) s).nvDone c .success 0)) ∧
    exec (.sanitizeBlockErase c) s = .next ((((s.nvme.spaces.map (·.nsid)).foldl (fun s n => s.eraseNs n false) s).modNvme fun n =>
      { n with sanitized := 1 }).nvDone c .success 0) ∧
    exec (.sanitizeCryptoErase c) s = .next ((((s.nvme.spaces.map (·.nsid)).foldl (fun s n => s.eraseNs n true) s).modNvme fun n =>
      { n with sanitized := 2 }).nvDone c .success 0)

/-- The admin commands: queues, Abort, asynchronous events, features, an unsupported opcode. Identify and Get Log Page write their bytes to the host's pages and
complete; an unassigned page or structure is Invalid Field; a read of the loss log's last byte that does not retain the event clears the log, and no other read does.
THE MODEL'S READINGS AND CHOICES here: assumption log 9. -/
def Obligations.AdminCommandsRun : Prop :=
  (∀ (s : State) (c : NvCmd), s.nvFetches = true →
     let done := fun (n : Nvme) (result : Nat) => { n with done := { cmd := c, status := .success, result := result } :: n.done }
     (∀ qid size base, 1 ≤ qid → qid ≤ 128 → 2 ≤ size → size ≤ 65536 →
       ((∀ q ∈ s.nvme.cqs, q.1 ≠ qid) → ∀ any, exec (.createIoQueue c true qid size any base) s =
         .next { s with nvme := done { s.nvme with cqs := s.nvme.cqs ++ [(qid, size, base)] } 0 }) ∧
       (∀ cqid, (∀ q ∈ s.nvme.sqs, q.1 ≠ qid) → (∃ q ∈ s.nvme.cqs, q.1 = cqid) → exec (.createIoQueue c false qid size cqid base) s =
         .next { s with nvme := done { s.nvme with sqs := s.nvme.sqs ++ [(qid, size, base, cqid)] } 0 })) ∧
     (∀ qid, (∃ q ∈ s.nvme.cqs, q.1 = qid) → (∀ q ∈ s.nvme.sqs, q.2.2.2 ≠ qid) → exec (.deleteIoQueue c true qid) s =
       .next { s with nvme := done { s.nvme with cqs := s.nvme.cqs.filter (·.1 != qid) } 0 }) ∧
     (∀ qid, (∃ q ∈ s.nvme.sqs, q.1 = qid) → (∀ w ∈ s.nvme.waits, w.idle = true → w.cmd.sqid ≠ qid) → exec (.deleteIoQueue c false qid) s =
       .next ((({ s with nvme := { s.nvme with sqs := s.nvme.sqs.filter (·.1 != qid) } } : State).nvSettle).nvDone c .success 0)) ∧
     (∀ sqid cid, (∀ w ∈ s.nvme.waits, w.idle = true → w.cmd.sqid = sqid → w.cmd.cid ≠ cid) →
       exec (.abortCmd c sqid cid) s = .next { s with nvme := done s.nvme 1 }) ∧
     (s.nvme.events = [] → exec (.asyncEventRequest c) s = .next { s with nvme := { s.nvme with aers := s.nvme.aers ++ [c] } }) ∧
     (∀ page rest, s.nvme.events = page :: rest →
       exec (.asyncEventRequest c) s = .next { s with nvme := done { s.nvme with events := rest } page }) ∧
     exec (.getFeatures c 0x06) s = .next { s with nvme := done s.nvme (b2n s.nvme.wce) } ∧
     exec (.getFeatures c 0x07) s = .next { s with nvme := done s.nvme (127 + 127 * 65536) } ∧
     exec (.getFeatures c 0x0D) s = .next { s with nvme := done s.nvme (b2n s.nvme.hmb.isSome) } ∧
     (s.sec.lifecycle = .provisioned ∨ s.sec.lifecycle = .operational →
       (∀ v h, exec (.setFeatures c 0x06 v h) s = .next { s with nvme := done { s.nvme with wce := v.getLsbD 0 } 0 }) ∧
       (∀ v h, v.getLsbD 0 = false → exec (.setFeatures c 0x0D v h) s = .next { s with nvme := done { s.nvme with hmb := none } 0 }) ∧
       (∀ v h, v.getLsbD 0 = true → h.length ≤ 256 → (∀ d ∈ h, 2 ^ 21 ≤ d.2 ∧ d.2 % 2 ^ 21 = 0) →
         exec (.setFeatures c 0x0D v h) s = .next { s with nvme := done { s.nvme with hmb := some h } 0 })) ∧
     (∀ op, exec (.invalidCommandOpcode c op) s =
       .next { s with nvme := { s.nvme with done := { cmd := c, status := .invalidOpcode } :: s.nvme.done } })) ∧
  (∀ (s : State) (c : NvCmd) (prp : Prp), s.nvFetches = true →
     (∀ cns ∈ [0x00, 0x01, 0x02, 0x03, 0x05, 0x06, 0x08, 0x10, 0x11, 0x12, 0x13, 0x1C],
       exec (.identify c cns prp) s = .next ((s.toPrp prp (s.identifyData c.nsid cns)).used.nvDone c .success 0)) ∧
     (∀ cns, cns ∉ [0x00, 0x01, 0x02, 0x03, 0x05, 0x06, 0x08, 0x10, 0x11, 0x12, 0x13, 0x1C] →
       exec (.identify c cns prp) s = .next (s.nvDone c .invalidField 0)) ∧
     (∀ lid off len lsp rae n, s.logLength lid lsp = some n → off ≤ n →
       let u := (s.toPrp prp (s.logBytes lid lsp off (Nat.min len (n - off)))).used
       exec (.getLogPage c lid off len lsp rae prp) s =
         .next ((if lid = 0xC0 ∧ rae = false ∧ off < n ∧ n ≤ off + len then { u with nvme := { u.nvme with loss := [], losses := 0 } } else u
           ).nvDone c .success 0)) ∧
     (∀ lid off len lsp rae, s.logLength lid lsp = none →
       exec (.getLogPage c lid off len lsp rae prp) s = .next (s.nvDone c .invalidField 0)))

/-- Firmware Image Download writes the inactive slot alone, the first one after a start or a commit clearing its commit record; Firmware Commit verifies the manifest,
raises the anti-rollback counter, revokes what it names, and moves the boot pointer as the commit action says. The hold of an activation without reset: it pauses PF0
and names the slot; once the cores are quiet the new firmware runs and the pointer names its slot; when its time is up it is abandoned and the old firmware goes on. THE
MODEL'S READINGS AND CHOICES here: assumption log 9, 39. -/
def Obligations.FirmwareCommands : Prop :=
  (∀ (s : State) (c : NvCmd) (m : Manifest), s.nvFetches = true → s.fwServed = true →
     let done := fun (st : NvStatus) (s : State) => s.nvDone c st 0
     let k := s.inactive
     let slots := s.boot.slots.setIfInBounds (k - 1) { s.slot k with record := some m, commits := (s.slot k).commits + 1, touched := false }
     let committed : State := { s with boot := { s.boot with
       slots := slots, rollback := Nat.max s.boot.rollback m.svn, revoked := s.boot.revoked ||| BitVec.ofNat 4 m.revoke } }
     (∀ off data, s.boot.pointer = s.boot.active → off % 4096 = 0 → data.length % 4096 = 0 →
       exec (.firmwareImageDownload c off data) s = .next (done .success { s with boot := { s.boot with
         slots := s.boot.slots.setIfInBounds (k - 1) { s.slot k with
           record := if (s.slot k).touched then (s.slot k).record else none, touched := true
           image := Memory.writeN (s.slot k).image off data } } })) ∧
     (∀ off data, s.boot.pointer ≠ s.boot.active → exec (.firmwareImageDownload c off data) s = .next (done .sequenceError s)) ∧
     (∀ slot, slot = 0 ∨ slot = k → s.manifestOk m = true →
       exec (.fwCommitReplace c slot m) s = .next (done .success committed) ∧
       exec (.fwCommitActivateNext c slot m) s = .next (done .success { committed with boot := { committed.boot with pointer := k } }) ∧
       (committed.sameParts m = true → exec (.fwCommitActivateNow c slot m) s = .next (committed.beginHold c)) ∧
       (committed.sameParts m = false → exec (.fwCommitActivateNow c slot m) s = .next (done .needsReset committed))) ∧
     (∀ slot, slot = 0 ∨ slot = k → s.manifestOk m = false →
       exec (.fwCommitReplace c slot m) s = .next (done .invalidFwImage s) ∧
       exec (.fwCommitActivateNext c slot m) s = .next (done .invalidFwImage s) ∧
       exec (.fwCommitActivateNow c slot m) s = .next (done .invalidFwImage s)) ∧
     (∀ slot, slot ≠ 0 → slot ≠ k → exec (.fwCommitReplace c slot m) s = .next (done .invalidFwSlot s)) ∧
     (∀ slot, slot = 1 ∨ slot = 2 → (s.slot slot).record.isSome = true →
       exec (.fwCommitSelectSlot c slot) s = .next (done .success { s with boot := { s.boot with pointer := slot } }))) ∧
  (∀ s : State,
     (∀ c, ∃ u : State, s.beginHold c = u.sendStatus ∧ u.boot = { s.boot with hold := some { cmd := c, slot := s.inactive } } ∧
       u.nvme.paused = true) ∧
     (∀ h, s.boot.hold = some h → s.coresQuiet = true →
       exec .activationQuiesced s = .next (({ s with boot := { s.boot with
         active := h.slot, pointer := h.slot, version := (((s.slot h.slot).record).map (·.version)).getD 0 } } : State).endHold.nvDone
           h.cmd .success 0)) ∧
     (∀ h, s.boot.hold = some h → exec .activationQuiesceExpiry s = .next (s.endHold.nvDone h.cmd .maxTimeViolation 0)))

/-- A commit: PF1 alone; while one runs another is ignored and counted; one that passes its checks freezes what is staged, one that fails them sets the error bit and
changes nothing in force; a verified one writes a record whose `SEQ` is one higher and applies it, an unverified one changes nothing in force. Pots stop and restart by
PF1's request alone: a running pot begins to stop; a stopped one runs again, or waits for a commit that runs. THE MODEL'S READINGS AND CHOICES here: assumption log 36,
39. -/
def Obligations.CommitsAndPotControl : Prop :=
  (∀ s : State,
     (s.boot.up = true → s.boot.committing = none → s.commitOk s.boot.staged = true →
       exec (.commit .pf1) s = .next { s with boot := { s.boot with committing := some s.boot.staged, staged := [] } }) ∧
     (s.boot.up = true → s.boot.committing = none → s.commitOk s.boot.staged = false →
       exec (.commit .pf1) s = .next { s with boot := { s.boot with error := true } }) ∧
     (s.boot.up = true → s.boot.committing ≠ none → exec (.commit .pf1) s = .next (s.count 7 0 1 1)) ∧
     (∀ fn, fn ≠ .pf1 → exec (.commit fn) s = .next s) ∧
     (∀ snap, s.boot.committing = some snap →
       exec (.commitDone true) s = .next (s.writeRecord (s.merge snap)
         (snap.any fun e => e.1 == 0x1900 && bits e.2.2.toNat 10 0 != 0)).endCommit ∧
       exec (.commitDone false) s = .next ({ s with boot := { s.boot with error := true, staged := snap ++ s.boot.staged } } : State).endCommit) ∧
     (∀ r limit, ∃ u : State, s.writeRecord r limit = u.enact s limit ∧ u = { s with boot := { s.boot with
       older := some (s.boot.settings, s.boot.settingsSeq), settings := r, settingsSeq := s.boot.settingsSeq + 1, invalid := false } })) ∧
  (∀ (s : State) (p : Fin 8),
     ((s.pot p).st = 1 → exec (.potStop .pf1 p) s = .next (s.stopPot p).tidy) ∧
     ((s.pot p).st ≠ 1 → exec (.potStop .pf1 p) s = .next s) ∧
     (∀ fn, fn ≠ .pf1 → exec (.potStop fn p) s = .next s ∧ exec (.potRestart fn p) s = .next s) ∧
     ((s.pot p).st = 3 → s.boot.committing = none → p.val ≠ s.servingPot →
       exec (.potRestart .pf1 p) s = .next ({ s with pots := s.pots.set p { s.pot p with st := 1 } } : State).tidy) ∧
     ((s.pot p).st = 3 → s.boot.committing = none → p.val = s.servingPot →
       exec (.potRestart .pf1 p) s = .next ({ s with pots := s.pots.set p { s.pot p with st := 1 } } : State).sendStatus.tidy) ∧
     ((s.pot p).st = 3 → s.boot.committing ≠ none →
       exec (.potRestart .pf1 p) s = .next ({ s with boot := { s.boot with restarts := s.boot.restarts ++ [p.val] } } : State).tidy))

-- Scheduling

/-- The end of a slice in a pot of 12 or more cores: the elapsed time is charged, the deficits choose the next job, which begins at once where the running one holds no
cores, and at its next point otherwise. THE MODEL'S READINGS AND CHOICES here: assumption log 36. -/
def Obligations.SliceEndChoosesTheNextJob : Prop :=
  ∀ (s : State) (p : Fin 8) (ns : Nat) (j : Job), s.runningJob p = some j → 12 ≤ (s.potCores p).length → s.coresOn = true →
    let u := ((s.chargeCores p ns).deficits p ns).1
    let next := ((((s.chargeCores p ns).deficits p ns).2).bind (u.oldestOf p)).map (·.key)
    (next = some j.key → exec (.sliceEnd p ns) s = .next (u.modPot p fun q => { q with switchDue := false })) ∧
    (next ≠ some j.key → j.isTask = true ∨ j.sliced = false →
      exec (.sliceEnd p ns) s = .next (u.modPot p fun q => { q with running := next, switchDue := false }).tidy) ∧
    (next ≠ some j.key → j.isTask = false → j.sliced = true → u.coreless p j = false →
      exec (.sliceEnd p ns) s = .next (u.modPot p fun q => { q with switchDue := true })) ∧
    (next ≠ some j.key → j.isTask = false → j.sliced = true → u.coreless p j = true →
      exec (.sliceEnd p ns) s =
        .next ((u.preempt p j.key).modPot p fun q => { q with running := next, switchDue := false }).tidy)

/-- A pre-emption whose transfers do not drain in time is given up and counted; one past its limit stops its job under `ABORT_OVERRUN` 1, and otherwise breaks the pot's
share guarantee; the other guarantee reports; a pinned allocation that waits is taken when it can be, and waits on where its share has no room. A broken guarantee is
posted at most once in each 100 ms per pot and code; between posts its amount accumulates and is posted with the next. THE MODEL'S READINGS AND CHOICES here: assumption
log 36, 51, 54. -/
def Obligations.LimitsAndGuarantees : Prop :=
  (∀ (s : State) (p : Fin 8),
     (∀ key, (s.pot p).running = some key → s.preempting p = true →
       (s.xfersOf key = true →
         ((∃ c ∈ s.coresOf key, (s.core c).parked = true) →
           exec (.preemptDrainExpiry p) s = .next ((s.count 2 p.val 39 1).unpark p).tidy) ∧
         ((∀ c ∈ s.coresOf key, (s.core c).parked = false) → (s.pot p).loop.between = true →
           exec (.preemptDrainExpiry p) s = .next ((s.count 2 p.val 39 1).modPot p fun q => { q with drainRetry := true }))) ∧
       (∀ ns, s.potAbort p = true → exec (.preemptLimitExpiry p ns) s =
         .next ((s.abortJob key 0x31).modPot p fun q => { q with switchDue := false, drainRetry := false }).tidy) ∧
       (∀ ns, s.potAbort p = false → exec (.preemptLimitExpiry p ns) s = .next (s.guarantee p 4 p ns 0))) ∧
     (∀ j ns, s.job? j.key = some j → s.latencyTarget j.pot j.ring ≠ 0 → j.remote = none →
       (if j.isCore || j.isTask then !j.sliced else !j.ready) = true →
       exec (.latencyTargetExpiry j.key ns) s = .next (s.guarantee j.pot 5 j.pot ns j.jobId)) ∧
     (∀ (o : Fin 8) n, (∃ e ∈ s.tiers.waits, e.pot = p.val) → s.share true o < s.holding true o → p ≠ o →
       exec (.quotaWaitExpiry p o n) s = .next (s.guarantee p 3 o n 0)) ∧
     (∀ (w : Fin 8) n, s.potEnabled p = true → exec (.shareWindowEnd p w n) s = .next (s.guarantee p 4 w n 0)) ∧
     exec (.evictWaitEnd p) s = .next ((s.tiers.waits.filter (·.pot == p.val)).foldl State.retryWait s).tidy ∧
     (∀ e, s.retryWait e =
       let r := ({ s with tiers := { s.tiers with waits := s.tiers.waits.erase e } } : State).allocPinned (!e.quad) { e with quad := false }
       if r.2 = .refused then s else r.1) ∧
     (∀ j (cause : Fin 17) ns layer oper, s.job? j.key = some j → cause.val ≠ 0 → s.potStall j.pot * 1000 ≤ ns → j.stallAt = none →
       exec (.stallLimitExpiry j.key cause none ns layer oper) s =
         .next ((s.modJob j.key fun j => { j with stallAt := some s.time }).postEvent (some (fin8 j.pot)) 0x0002 j.jobId layer oper
           (natLe 1 cause.val ++ natLe 1 0xFF ++ zeros 6 ++ natLe 8 ns)))) ∧
  (∀ (s : State) (p : Fin 8) (code winner amount jobId : Nat),
     let q := s.pot p
     let sum := satAdd64 ((q.owed.lookup code).getD 0) amount
     (∀ t, q.postedAt.lookup code = some t → s.time < t + 100000 →
       s.guarantee p code winner amount jobId =
         { s with pots := s.pots.set p { q with owed := upsert q.owed code 0 fun _ => sum } }) ∧
     ((∀ t, q.postedAt.lookup code = some t → t + 100000 ≤ s.time) →
       s.guarantee p code winner amount jobId =
         ({ s with pots := s.pots.set p { q with
             owed := q.owed.filter (·.1 != code), postedAt := upsert q.postedAt code 0 fun _ => s.time } } : State).postEvent
           (some p) 0x0007 jobId 0xFFFF 0xFFFF (natLe 1 code ++ natLe 1 winner ++ zeros 6 ++ natLe 8 sum)))

/-- Failed datapath checks: a spare of the quadrant that serves no core, and takes none over, begins to take over the logical core, whose queues empty; with none the
core is lost. The takeover's end maps the logical core to the spare, holds the physical one out and reports it. The end of a takeover (Table 6.10): mapping, hold-out
and report. THE MODEL'S READINGS AND CHOICES here: assumption log 36. -/
def Obligations.SparesTakeOver : Prop :=
  (∀ (s : State) (ph : Fin 52) (c : Nat), s.mappedTo ph = some c → s.takingOver c = false →
     (∀ sp, s.freeSpare (ph.val / 13) = some sp → ∃ t, exec (.datapathCheckFail ph) s = .next t ∧
       t.boot = { s.boot with takeovers := s.boot.takeovers ++ [(c, sp)] } ∧
       (t.core c).front = none ∧ (t.core c).qLoader = [] ∧ (t.core c).qArrays = [] ∧ (t.core c).qSpout = [] ∧ (t.core c).qVector = [] ∧
       (t.core c).qMove = [] ∧ (t.core c).mms = [] ∧ (t.core c).loads = [] ∧ (t.core c).moves = (s.core c).moves ∧ (t.core c).store = (s.core c).store ∧
       (∀ d, d ≠ c → t.core d = s.core d) ∧ t.jobs = s.jobs ∧ t.host = s.host) ∧
     (s.freeSpare (ph.val / 13) = none → exec (.datapathCheckFail ph) s = .next (s.loseCore c).tidy)) ∧
  (∀ (s : State) (q : Fin 4) (c sp : Nat) (ok : Bool), s.boot.takeovers.find? (fun t => t.1 / 12 == q.val) = some (c, sp) → c < 48 →
     ∃ u v : State,
       u.boot = { s.boot with
         takeovers := s.boot.takeovers.filter (·.1 != c), spares := s.boot.spares.set q (some (sp, true))
         heldOut := s.boot.heldOut ||| BitVec.ofNat 52 (2 ^ ((s.core c).phys.getD 0)) } ∧
       (u.core c).phys = some sp ∧ (∀ d, d ≠ c → u.core d = s.core d) ∧
       v = (match (u.core c).run with
         | none => u
         | some inv => if ok = false ∨ u.mayResume inv = false then u.failCore c else if inv.kind = 0 then u else u.rerun c inv) ∧
       let w := (v.count 1 c 10 1).modEvent 0x0008 (natLe 1 5 ++ natLe 1 ((s.core c).phys.getD 0) ++ zeros 14)
       exec (.spareTakeoverResume q ok) s = .next (match w.corePot c with | some p => (w.settlePoint p).tidy | none => w.tidy))

-- Rings

/-- A doorbell of 32 bits with a valid index, from the function that carries the ring set, moves the host's index and nothing else of the rings; what the host wrote to
its memory before the tail write is there; freed completion slots take held entries. Pot p's doorbells lie at 0x1000 p of PF1's BAR2 and at 0 of its own VF's: tails
from 0x000, completion heads from 0x100, 8 bytes apart, the event ring's at 0x200; the module event ring's at 0x8000 of PF1's. Which doorbell values are valid: the ring
is enabled, and the index lies in the ring, at or ahead of the host's position and no further than the module's position lets it. Any other doorbell write is ignored as
a whole and counted for its pot; an invalid index also sets the ring's `ERROR` with cause 2; a function that does not carry the ring set reaches nothing, and nor does
an offset at which no doorbell lies. -/
def Obligations.DoorbellsMoveIndices : Prop :=
  (∀ (s : State) (fn : PcieFn) (p : Fin 8) (v : BitVec 32), s.reaches fn (some p) = true →
     let page := match fn with | .pf1 => p.val | .vf _ => 0
     (∀ (i : Fin 16) (host : List (Nat × Byte)), (s.ring (some p) (.sq i)).doorbellOk (.sq i) v = true →
       exec (.sqTailDoorbell fn page (8 * i.val) 4 v host) s = .next { s with host := { s.host with
         mem := host.foldl (fun m w => Memory.write m (w.1 % 2 ^ 64) w.2) s.host.mem
         sq := s.host.sq.set p (s.host.sq[p].set i { s.host.sq[p][i] with hostIndex := v.truncate 16 }) } }) ∧
     (∀ c : Fin 16, (s.ring (some p) (.cq c)).doorbellOk (.cq c) v = true →
       ∃ u : State, exec (.cqHeadDoorbell fn page (0x100 + 8 * c.val) 4 v) s = .next (u.drainHeld p c s.host.cq[p][c].held.length) ∧
         u = { s with host := { s.host with
           cq := s.host.cq.set p (s.host.cq[p].set c { s.host.cq[p][c] with hostIndex := v.truncate 16 }) } } ∧
         (s.host.cq[p][c].held = [] → exec (.cqHeadDoorbell fn page (0x100 + 8 * c.val) 4 v) s = .next u)) ∧
     ((s.ring (some p) .ev).doorbellOk .ev v = true →
       exec (.eventHeadDoorbell fn (0x1000 * page + 0x200) 4 v) s =
         .next { s with host := { s.host with ev := s.host.ev.set p { s.host.ev[p] with hostIndex := v.truncate 16 } } }) ∧
     (s.host.modEv.doorbellOk .ev v = true →
       exec (.eventHeadDoorbell .pf1 0x8000 4 v) s =
         .next { s with host := { s.host with modEv := { s.host.modEv with hostIndex := v.truncate 16 } } })) ∧
  (∀ (r : Ring) (i : Fin 16) (v : BitVec 32), r.moduleIndex.toNat < r.size → r.hostIndex.toNat < r.size → r.sizeLog2.toNat ≤ 16 →
     (r.doorbellOk (.sq i) v = true ↔ r.enable = true ∧ v.toNat < r.size ∧ v.toNat < 2 ^ 16 ∧
       ∃ k, k ≤ (r.moduleIndex.toNat + (r.size - 1) + r.size - r.hostIndex.toNat) % r.size ∧ (r.hostIndex.toNat + k) % r.size = v.toNat) ∧
     (r.doorbellOk (.cq i) v = true ↔ r.enable = true ∧ v.toNat < r.size ∧ v.toNat < 2 ^ 16 ∧
       ∃ k, k ≤ (r.moduleIndex.toNat + r.size - r.hostIndex.toNat) % r.size ∧ (r.hostIndex.toNat + k) % r.size = v.toNat)) ∧
  (∀ (s : State) (fn : PcieFn) (p : Fin 8) (c : Fin 16) (v : BitVec 32), fn = .pf1 ∨ fn = .vf p →
     let page := match fn with | .pf1 => p.val | .vf _ => 0
     let cq := 0x100 + 8 * c.val
     (∀ page off size, doorbellAt fn (0x1000 * page + off) = none → exec (.sqTailDoorbell fn page off size v []) s = .next s ∧
       exec (.cqHeadDoorbell fn page off size v) s = .next s ∧ exec (.eventHeadDoorbell fn (0x1000 * page + off) size v) s = .next s) ∧
     (s.reaches fn (some p) = false → ∀ size, exec (.cqHeadDoorbell fn page cq size v) s = .next s ∧
       exec (.eventHeadDoorbell fn (0x1000 * page + 0x200) size v) s = .next s) ∧
     (s.reaches fn (some p) = true →
       (∀ size, size ≠ 4 → exec (.cqHeadDoorbell fn page cq size v) s = .next (s.count 2 p 42 1) ∧
         exec (.eventHeadDoorbell fn (0x1000 * page + 0x200) size v) s = .next (s.count 2 p 42 1)) ∧
       ((s.ring (some p) (.cq c)).doorbellOk (.cq c) v = false → exec (.cqHeadDoorbell fn page cq 4 v) s =
         .next (({ s with host := { s.host with
           cq := s.host.cq.set p (s.host.cq[p].set c { s.host.cq[p][c] with error := true, errCause := 2 }) } } : State).count 2 p 42 1)) ∧
       (∀ i : Fin 16, (s.ring (some p) (.sq i)).doorbellOk (.sq i) v = false → exec (.sqTailDoorbell fn page (8 * i.val) 4 v []) s =
         .next (({ s with host := { s.host with
           sq := s.host.sq.set p (s.host.sq[p].set i { s.host.sq[p][i] with error := true, errCause := 2 }) } } : State).count 2 p 42 1))))

/-- A descriptor fetch takes the next 128 bytes of the ring whose turn it is, moves the module's index, and makes a job in flight; a fetch that PCIe fails clears
`ENABLE` and sets `ERROR` with cause 3; a pot that cannot fetch, or has nothing to fetch, fetches nothing. Ring set-up: a write with `ENABLE` that passes its check
enables the ring with its indices at zero and its phase at one; one that fails sets `ERROR` with the cause; a disable clears `ENABLE` but for a completion ring that is
still owed entries; the coalescing timer announces what is unannounced. -/
def Obligations.RingsFetchDescriptors : Prop :=
  (∀ (s : State) (p : Fin 8),
     (∀ i, s.canFetch p = true → s.nextRing p = some i →
       let r := s.host.sq[p][i]
       let failed := { r with error := true, errCause := 3, enable := false }
       let fail : State := { s with host := { s.host with
         sq := s.host.sq.set p (s.host.sq[p].set i failed), next := s.host.next.set p ((i.val + 1) % 16) } }
       (exec (.descriptorFetchFailed p) s = .next fail) ∧
       (s.hostRead (r.base.toNat + 128 * r.moduleIndex.toNat) 128 = none → exec (.descriptorFetch p) s = .next fail) ∧
       (∀ d, s.hostRead (r.base.toNat + 128 * r.moduleIndex.toNat) 128 = some d →
         let j : Job := { key := s.nextId, pot := p, ring := i, cq := r.targetCq.toNat, desc := d, fetchedAt := s.time }
         ∃ u v : State, u = s.hostSeen (r.base.toNat + 128 * r.moduleIndex.toNat) 128 ∧
           v = { u with
             host := { u.host with sq := u.host.sq.set p (u.host.sq[p].set i r.advance), next := u.host.next.set p ((i.val + 1) % 16) }
             jobs := u.jobs ++ [j], nextId := u.nextId + 1 } ∧
           (1 ≤ j.type → j.type ≤ 0x15 → exec (.descriptorFetch p) s = .next v) ∧
           (j.type = 0 ∨ 0x15 < j.type → exec (.descriptorFetch p) s = .next (v.refuseJob j.key 0x10)))) ∧
     (s.canFetch p = false ∨ s.nextRing p = none →
       exec (.descriptorFetch p) s = .next s ∧ exec (.descriptorFetchFailed p) s = .next s)) ∧
  (∀ (s : State) (fn : PcieFn) (p : Fin 8) (sel : RingSel) (v : BitVec 64), s.reaches fn (some p) = true →
     let isSq := match sel with | .sq _ => true | _ => false
     let r := s.ring (some p) sel
     let n := (v ||| 0x100).toNat
     let w := { r with
       coalCount := BitVec.ofNat 16 (bits n 47 32), coalTime := BitVec.ofNat 16 (bits n 63 48), error := if bit n 9 then false else r.error
       vector := if isSq then r.vector else BitVec.ofNat 8 (bits n 31 24)
       sizeLog2 := BitVec.ofNat 5 (bits n 4 0), targetCq := if isSq then BitVec.ofNat 4 (bits n 19 16) else 0 }
     (r.enable = false → s.boot.phase = .ready → s.ringFault (some p) sel w = none →
       exec (.ringEnable fn (some p) sel v) s = .next ((s.setRing (some p) sel { w with
         enable := true, moduleIndex := 0, hostIndex := 0, phase := true, held := [], unannounced := 0, coalArmed := false }).onEnable (some p) sel)) ∧
     (∀ cause, r.enable = false → s.boot.phase = .ready → s.ringFault (some p) sel w = some cause →
       exec (.ringEnable fn (some p) sel v) s = .next (s.setRing (some p) sel { w with error := true, errCause := cause })) ∧
     ((∀ c, sel = .cq c → s.cqOwed p c = false) → r.enable = true →
       ∃ t, exec (.ringDisable fn (some p) sel) s = .next t ∧ t = s.setRing (some p) sel { r with enable := false }) ∧
     (∀ c, sel = .cq c → r.enable = true → s.cqOwed p c = true →
       exec (.ringDisable fn (some p) sel) s = .next (s.setRing (some p) sel { r with error := true, errCause := 5 })) ∧
     (r.coalArmed = true → 0 < r.unannounced →
       exec (.coalesceTimerExpiry (some p) sel) s = .next ((s.setRing (some p) sel { r with unannounced := 0, coalArmed := false }).sendVector
         (some p) r.vector.toNat)))

-- Jobs

/-- Admission in general: the first failing check refuses the whole job with one entry; a footprint that does not fit defers it; outside OPERATIONAL every job is
denied; an `ORDERED` job waits until the earlier jobs of its ring have posted `LAST`. An `ORDERED` job whose earlier jobs have posted `LAST`, and a deferred one whose
footprint may fit now, meet admission again. -/
def Obligations.AdmissionOutcomes : Prop :=
  (∀ (s : State) (j : Job) (a : Admission) (start : State → Job → State) (begin_ : State → State),
     (∀ st, a.whole = some st → s.admitWith j a begin_ = s.refuseJob j.key st) ∧
     (a.whole = none → s.footprintFits j.pot a.footprint = false → j.deferPosted = true →
       s.admitWith j a begin_ = s.modJob j.key fun j => { j with phase := .deferred, deferPosted := true }) ∧
     (a.whole = none → s.footprintFits j.pot a.footprint = false → j.deferPosted = false →
       s.admitWith j a begin_ = (s.postDeferred j 0xFFFFFFFF).modJob j.key fun j => { j with phase := .deferred, deferPosted := true }) ∧
     (a.whole = none → s.footprintFits j.pot a.footprint = true →
       s.admitWith j a begin_ = begin_ ((s.markAdmitted j a.footprint).failItems j.key a.items)) ∧
     (s.sec.lifecycle ≠ .operational → s.startAllowed j start = s.refuseJob j.key 0x40) ∧
     (∀ isType, s.fetchedJob j.key isType = some j → j.ordered = true → s.lastAwaited j = true →
       s.jobAdmit j.key isType start = s.modJob j.key fun j => { j with phase := .ordered })) ∧
  (∀ (s : State) (j : Job), s.job? j.key = some j → (s.pot j.pot).st = 1 → s.boot.phase = .ready → s.power.st ≤ 1 →
     (j.phase = .ordered → s.lastAwaited j = false → exec (.orderedJobAdmit j.key) s = .next (s.startAllowed j State.startJob).tidy) ∧
     (j.phase = .ordered → s.lastAwaited j = true → exec (.orderedJobAdmit j.key) s = .next s) ∧
     (j.phase = .deferred → s.behindOrdered j = false → exec (.deferredJobAdmit j.key) s = .next (s.startAllowed j State.startJob).tidy) ∧
     (j.phase = .deferred → s.behindOrdered j = true → exec (.deferredJobAdmit j.key) s = .next s))

/-- A posted entry goes into the next slot of an enabled ring that has room; into a ring that is full or still holds entries, behind those; while PCIe retrains, behind
what the link holds. THE MODEL'S READINGS AND CHOICES here: assumption log 45. -/
def Obligations.EntriesArePostedInOrder : Prop :=
  ∀ (s : State) (p : Fin 8) (c : Fin 16) (e : CqEntry),
    let r := s.host.cq[p][c]
    (r.enable = false → s.postCq p c e = s) ∧
    (r.enable = true → s.host.retraining = true →
      s.postCq p c e = { s with host := { s.host with linkHeld := s.host.linkHeld ++ [(p.val, c.val, e)] } }) ∧
    (r.enable = true → s.host.retraining = false → r.full = true ∨ r.held ≠ [] →
      s.postCq p c e = { s with host := { s.host with cq := s.host.cq.set p (s.host.cq[p].set c { r with held := r.held ++ [e] }) } }) ∧
    (r.enable = true → s.host.retraining = false → r.full = false → r.held = [] →
      let u := s.hostWrite (r.base.toNat + 32 * r.moduleIndex.toNat) (e.bytes r.phase (s.host.sq[p][fin16 e.sq]).moduleIndex.toNat)
      s.postCq p c e = ((if e.last then u.lastPosted e.job else u).setRing (some p) (.cq c) r.advance).coalesce (some p) (.cq c) e.noIrq)

/-- The last unfinished item of a job posts the entry with `LAST`, and the job leaves the module; an earlier one is done. Every job that is removed takes with it its
place in flight, its staging, its regions and its waits. -/
def Obligations.LastItemEndsTheJob : Prop :=
  (∀ (s : State) (j : Job) (i : Item) (f : Item → Item), s.live? j.key i.idx = some (j, i) →
     ((∀ k ∈ j.items, k.done = true ∨ k.idx = i.idx) → s.complete j.key i.idx f = (s.postItem j (f i) true).endJob j.key) ∧
     ((∃ k ∈ j.items, k.done = false ∧ k.idx ≠ i.idx) →
       s.complete j.key i.idx f = (s.postItem j (f i) false).modItem j.key i.idx fun i => { f i with done := true })) ∧
  (∀ (s : State) (key : Nat),
     (∀ j ∈ (s.removeJob key).jobs, j.key ≠ key) ∧ (∀ j ∈ s.jobs, j.key ≠ key → j ∈ (s.removeJob key).jobs) ∧
     (∀ w ∈ (s.removeJob key).waiting, w.1 ≠ key) ∧ (∀ x ∈ (s.removeJob key).strains, x.job ≠ key) ∧
     (∀ x ∈ (s.removeJob key).searches, x.job ≠ key) ∧ (∀ r ∈ (s.removeJob key).tiers.regions, r.1.1 ≠ key) ∧
     (∀ e ∈ (s.removeJob key).tiers.dram, e.key ≠ .staging key) ∧
     (∀ c : Nat, c < 48 → ∀ r, ((s.removeJob key).core c).run = some r → r.job ≠ key) ∧
     (∀ p : Nat, p < 8 → ((s.removeJob key).pot p).running ≠ some key) ∧
     (s.removeJob key).host = s.host ∧ (s.removeJob key).nvme = s.nvme ∧ (s.removeJob key).media = s.media)

/-- The job is admitted and its type's work begins. THE MODEL'S READINGS AND CHOICES here: assumption log 7, 32. -/
def Obligations.ImageAndRunJobsBegin : Prop :=
  ∀ (s : State) (j : Job), s.sec.lifecycle = .operational → j.ordered = false ∨ s.lastAwaited j = false →
    let meets := fun (c : Instr) (isType : Job → Bool) (a : Admission) (begin_ : State → State) =>
      s.fetchedJob j.key isType = some j → a.whole = none → s.footprintFits j.pot a.footprint = true →
        exec c s = .next ((begin_ ((s.markAdmitted j a.footprint).failItems j.key a.items)).regrant).tidy
    meets (.imageLoad j.key) (fun k => k.type == 0x01) (admitImageLoad j) (·.beginImageLoad j) ∧
    meets (.imageUnload j.key) (fun k => k.type == 0x02) (s.admitImageUnload j) (·.beginImageUnload j) ∧
    meets (.runJob j.key) (fun k => k.type == 0x15) (s.admitRun j) (·.beginRun j (s.liveImage j.imageId)) ∧
    (∀ (t : State) bytes, t.hostRead (j.f 0x30 8) (j.f 0x38 8) = some bytes → imgFail bytes = none →
      imageUnits (weightSection bytes).length ≤ t.unitsFree j.pot → t.writeOk = true →
      ∃ (u : State) (im : Image), t.beginImageLoad j = u.complete j.key 0 (fun i => { i with
          resA := t.nextId, resC := im.resident, resB := im.residentBytes }) ∧
        u.images = t.images ++ [im] ∧ u.nextId = t.nextId + 1 ∧ im.id = t.nextId ∧ im.pot = j.pot ∧
        im.weights = weightSection bytes ∧ im.variants = (variantSections bytes).map variantOfBytes ∧
        im.regions = regionsOfBytes (regionSection bytes) ∧ im.unloading = false) ∧
    (∀ (t : State) bytes st, t.hostRead (j.f 0x30 8) (j.f 0x38 8) = some bytes → imgFail bytes = some st →
      t.beginImageLoad j = t.complete j.key 0 fun i => i.fail st) ∧
    (∀ t : State, ∃ u : State, t.beginImageUnload j = u.settleUnloads ∧ u = { t with images := t.images.map fun i =>
      if i.id == j.imageId then { i with unloading := true, unloadJob := j.key } else i })

/-- Steeps, generations and attentions: admitted, they begin; an attention that holds its pot's slice runs at once (assumption log 40). THE MODEL'S READINGS AND CHOICES
here: assumption log 37, 40, 53, 54, 55. -/
def Obligations.GenerationJobsBegin : Prop :=
  ∀ (s : State) (j : Job), s.sec.lifecycle = .operational → j.ordered = false ∨ s.lastAwaited j = false →
    let meets := fun (c : Instr) (isType : Job → Bool) (a : Admission) (begin_ after : State → State) =>
      s.fetchedJob j.key isType = some j → a.whole = none → s.footprintFits j.pot a.footprint = true →
        exec c s = .next (after (((begin_ ((s.markAdmitted j a.footprint).failItems j.key a.items)).regrant).tidy))
    let home := fun (t : State) => t.beginHomeSteep j (s.liveImage j.imageId) (s.liveImage (j.f 0x38 4)) (s.coll? (j.f 0x34 4))
    meets (.steep j.key) (fun k => k.type == 0x03 && !k.isResume) (s.steepAdmission j) home id ∧
    meets (.steepResume j.key) (fun k => k.type == 0x03 && k.isResume) (s.steepAdmission j) home id ∧
    meets (.generate j.key) (fun k => k.type == 0x04) (s.admitGenerate j)
      (fun t => t.beginGenerate j (s.liveImage j.imageId) (j.collId.bind s.coll?)) id ∧
    meets (.attend j.key) (fun k => k.type == 0x05) (s.admitAttend j)
      (fun t => match j.corpusId.bind s.corpus? with | none => t | some c => t.beginAttend j c)
      (fun t => (t.runAttend j.key).tidy) ∧
    (∀ (t : State) (im : Image) tag home coll, t.corpus? (j.f 0x30 4) = none →
      ∃ u : State, ∃ c : Corpus, t.beginSteep j im tag home coll =
          (u.steepSpace j im c.tokens).makeRegions j im ∧
        u = { t with corpora := t.corpora ++ [c] } ∧ c.id = j.f 0x30 4 ∧ c.pot = j.pot ∧ c.st = .steeping ∧ c.tokens = j.f 0x3C 4 ∧
        c.coll = j.f 0x34 4 ∧ c.job = some j.key ∧ c.layers = im.layers ∧ c.mark.stage = 0)

/-- Jobs on collections: admitted, they begin; appends and deletes wait while a `RECALL` holds their collection (R105); an append that holds its pot's slice, and a
recall that has a free core, run at once (assumption log 40). THE MODEL'S READINGS AND CHOICES here: assumption log 40, 46, 53. -/
def Obligations.CollectionJobsBegin : Prop :=
  ∀ (s : State) (j : Job), s.sec.lifecycle = .operational → j.ordered = false ∨ s.lastAwaited j = false →
    let meets := fun (type : Nat) (a : Admission) (begin_ : State → State) (result : State → Prop) =>
      s.fetchedJob j.key (fun k => k.type == type) = some j → a.whole = none → s.footprintFits j.pot a.footprint = true →
        result (((begin_ ((s.markAdmitted j a.footprint).failItems j.key a.items)).regrant).tidy)
    let coll := s.coll? (j.f 0x30 4)
    let each := fun (f : State → Nat → State) (t : State) => (List.range j.nItems).foldl f t
    let free := s.recalling (j.f 0x30 4) = false
    meets 0x06 (s.admitCollectionCreate j) (fun t => t.beginCollectionCreate j (s.newColl j)) (fun t => exec (.collectionCreate j.key) s = .next t) ∧
    (free → meets 0x07 (s.admitCollectionAppend j) id
      (fun t => ∀ vectors, exec (.collectionAppend j.key vectors) s = .next (t.runAppend j.key vectors).tidy)) ∧
    (free → meets 0x08 { whole := firstFail (s.collChecks j true), items := [], footprint := 0 } (each fun t i => t.deleteItem j i)
      (fun t => exec (.collectionDelete j.key) s = .next t)) ∧
    meets 0x09 (s.admitFilter j) (fun t => t.beginFilter j coll) (fun t => exec (.filter j.key) s = .next t) ∧
    meets 0x0A (s.admitSearch j) (fun t => t.beginSearch j coll) (fun t => exec (.search j.key) s = .next t) ∧
    meets 0x0B (s.admitRecall j) (fun t => t.beginRecall j) 
      (fun t => ∀ lost, exec (.recallJob { job := j.key, lost := lost }) s = .next (t.runRecall j.key lost).tidy) ∧
    meets 0x0C (s.admitFetch j) (each fun t i => t.fetchItem j i) (fun t => exec (.fetchJob j.key) s = .next t) ∧
    (∀ (t : State) (c : Coll), t.writeOk = true →
      t.beginCollectionCreate j (some c) = ({ t with colls := t.colls ++ [c] } : State).complete j.key 0 id) ∧
    (∀ (t : State) (i : Nat) (x : Job × Item) (c : Coll) (r : Bytes) (rc : Rec), t.live? j.key i = some x → t.coll? (j.f 0x30 4) = some c →
      t.itemRec j i = some r → c.resolve (field r 0 8) = some (rc, none) → t.writeOk = true →
      t.deleteItem j i = (t.modColl c.id fun _ => c.delete rc).complete j.key i id) ∧
    (∀ (t : State) (i : Nat) (x : Job × Item) (c : Coll) (r b : Bytes), t.live? j.key i = some x → t.coll? (j.f 0x30 4) = some c →
      t.itemRec j i = some r → c.fetched (field r 0 8) (field r 0x14 1) = some b →
      t.fetchItem j i = (t.jobWrite j.key (field r 8 8) (b.take (field r 0x10 4))).complete j.key i fun it => { it with
        resA := Nat.min b.length (field r 0x10 4), truncated := decide (field r 0x10 4 < b.length) })

/-- Jobs on tables: admitted, they begin; adds and updates wait while a save of their table runs (R129). THE MODEL'S READINGS AND CHOICES here: assumption log 35, 57.
-/
def Obligations.TableJobsBegin : Prop :=
  ∀ (s : State) (j : Job), s.sec.lifecycle = .operational → j.ordered = false ∨ s.lastAwaited j = false →
    let meets := fun (c : Instr) (type : Nat) (a : Admission) (begin_ : State → State) =>
      s.fetchedJob j.key (fun k => k.type == type) = some j → a.whole = none → s.footprintFits j.pot a.footprint = true →
        exec c s = .next ((begin_ ((s.markAdmitted j a.footprint).failItems j.key a.items)).regrant).tidy
    let table := (s.table? (j.f 0x30 4)).getD {}
    let each := fun (f : State → Nat → State) (t : State) => (List.range j.nItems).foldl f t
    meets (.tableCreate j.key) 0x0D (s.admitTableCreate j) (fun t => t.beginTableCreate j (s.newTable j)) ∧
    meets (.tableRule j.key) 0x0E (s.admitTableRule j) (fun t => t.beginTableRule j table (s.ruleValues j)) ∧
    meets (.bag j.key) 0x0F (s.admitBag j) (each fun t i => t.bagItem j i) ∧
    (s.saving (j.f 0x30 4) = false →
      meets (.addJob j.key) 0x10 (s.admitRows j false) (each fun t i => t.rowsItem j i false) ∧
      meets (.update j.key) 0x11 (s.admitRows j true) (each fun t i => t.rowsItem j i true)) ∧
    meets (.tableSave j.key) 0x12 (s.admitTableSave j) (fun t => t.beginTableSave j table) ∧
    meets (.tableLoad j.key) 0x13 (s.admitTableLoad j) (fun t => t.beginTableLoad j table) ∧
    meets (.dropJob j.key) 0x14 (s.admitDrop j) (fun t => t.beginDrop j (s.dropMembers j)) ∧
    (∀ (t : State) (x : Table), x.list.length ≤ 1 →
      ∃ u : State, t.beginTableCreate j x = u.ownDone j.key id ∧ u.tables = t.tables ++ [x]) ∧
    (∀ (t : State) (x : Table) h, x.list.length ≤ 1 → t.beginTableRule j x (some h) =
      ({ t with tables := t.tables.map fun y => if y.id == x.id then { y with hyper := h } else y } : State).ownDone j.key id) ∧
    (∀ (t : State), t.beginDrop j [t.self] = (if j.f 0x30 1 = 1 then (t.modCorpus (j.f 0x34 4) fun c => { c with st := .deleting }).settleCorpora
      else if j.f 0x30 1 = 2 then t.dropColl (j.f 0x34 4) else t.dropTable (j.f 0x34 4)).ownDone j.key id)

-- Leaves, steps, steeps, collections, tables

/-- A read of a leaf in flight: a good copy from either source is used; an unusable one starts or leaves the other; late, the reconstruction starts beside the read; the
leaf is lost once both have failed, and everyone who asked is charged once; then the steps and attentions that awaited it go on. Nothing completes while the read waits
for one of the 131,072 operation slots. A centroid page that passes its checks becomes resident, whoever waits for it; one that fails starts its reconstruction where a
step waits for it. THE MODEL'S READINGS AND CHOICES here: assumption log 37, 52. -/
def Obligations.LeafReadsEnd : Prop :=
  (∀ (s : State) (r : LeafRead) (pg : Bytes) (bays : BitVec 8), s.reads.find? (·.key == r.key) = some r →
     let good := leafOk pg r.space r.layer r.head r.index
     let waits := (s.media.ops.drop 131072).any fun o => o.kind == 0 && o.read == r.key
     (r.cent = false → waits = false → good = true → exec (.leafReadComplete r.key pg) s = .next (s.deliver r pg).feed.tidy) ∧
     (r.cent = false → waits = false → good = false → ∃ u : State, exec (.leafReadComplete r.key pg) s = .next (u.settleRead r.key).feed.tidy ∧
       u = { s with reads := s.reads.map fun x => if x.key == r.key then { x with check := true, origBad := true, rebuilding := true } else x }) ∧
     (waits = true → exec (.leafReadComplete r.key pg) s = .next s) ∧
     exec (.lateReadExpiry r.key) s =
       .next { s with reads := s.reads.map fun x => if x.key == r.key then { x with late := true, rebuilding := true } else x } ∧
     (r.rebuilding = true → r.passes pg = true → exec (.reconstructComplete r.key (some pg) bays) s = .next (s.deliver r pg).feed.tidy) ∧
     (r.rebuilding = true → r.passes pg = false → ∃ u : State, exec (.reconstructComplete r.key (some pg) bays) s = .next (u.settleRead r.key).feed.tidy ∧
       u.reads = s.reads.map (fun x => if x.key == r.key then { x with check := true, rebuildBad := some bays, rebuilding := false } else x) ∧
       u.media = s.media ∧ u.cups = s.cups ∧ u.corpora = s.corpora) ∧
     (r.rebuilding = true → ∃ u : State, exec (.reconstructComplete r.key none bays) s = .next (u.settleRead r.key).feed.tidy ∧
       u.reads = s.reads.map (fun x => if x.key == r.key then { x with rebuildBad := some bays, rebuilding := false } else x) ∧
       u.media = s.media ∧ u.cups = s.cups ∧ u.corpora = s.corpora) ∧
     (r.rebuilding = false → ∀ p, exec (.reconstructComplete r.key p bays) s = .next s) ∧
     (r.cent = false → r.origBad = true → r.rebuildBad = some bays →
       let e : LostLeaf := { layer := r.layer, head := r.head, index := r.index, check := r.check, bays := bays }
       s.settleRead r.key = ((s.dropRead r.key).addLost r r.check bays).loseLeaf r e false) ∧
     (r.cent = true → r.origBad = true → r.rebuildBad = some bays →
       s.settleRead r.key = (s.dropRead r.key).readCaddy { r with rebuildBad := none, check := false }) ∧
     (r.origBad = false ∨ r.rebuildBad = none → s.settleRead r.key = s)) ∧
  (∀ (s : State) (c : Corpus) (k : Nat) (pg : Bytes), s.corpus? c.id = some c →
     let want : LeafRead := { pot := c.pot, space := c.id, index := k, cent := true }
     (∀ r, s.reads.find? want.same = some r → centroidOk pg c.id (71 * k) = true →
       exec (.centroidPageRead c.id k pg) s = .next (s.deliver r pg).feed.tidy) ∧
     (∀ r, s.reads.find? want.same = some r → centroidOk pg c.id (71 * k) = false →
       exec (.centroidPageRead c.id k pg) s = .next (s.originalBad r.key true).feed.tidy) ∧
     (s.reads.find? want.same = none → centroidOk pg c.id (71 * k) = true → exec (.centroidPageRead c.id k pg) s =
       .next ((s.modCorpus c.id fun c => { c with
           centroids := c.centroids.map fun p => if p.1 == k && p.2.1 == field pg 0x10 4 then (p.1, p.2.1, pg) else p }).cache
           { key := .centroid c.id k, pot := c.pot, cls := .cached, size := 18432 })) ∧
     (s.reads.find? want.same = none → centroidOk pg c.id (71 * k) = false → exec (.centroidPageRead c.id k pg) s = .next s))

/-- Step boundaries: what the step's pages and peers let go on goes on; a step ends when its work is over: every cup takes its tokens, the boundary's work runs, and the
next step begins or not; a boundary between steps goes on from where it stands; a stopping pot's belt stops; with no driving job the step loop stops. Tail leaves: a
growth buffer whose program has ended enters the leaf cache and leaves the step loop's lists; one that waits lets the next step begin. A group step past its limit, in
the step or at its close, ends every cup item of the step with `PEER_ABSENT`. THE MODEL'S READINGS AND CHOICES here: assumption log 33, 34, 37. -/
def Obligations.StepBoundariesRun : Prop :=
  (∀ (s : State) (p : Fin 8) (outs : List StepOut) (queries : List StepQ),
     let d := (s.runningJob p).filter fun j => j.type == 0x04 && j.phase == .admitted && j.sliced
     let u := s.feedStep p
     (d ≠ none ∨ s.strayBelt p = true →
       ((u.pot p).loop.running = true → u.stepOver p d = true →
         exec (.stepBoundary p outs queries) s = .next ((u.endStep p outs).boundary p d queries).tidy) ∧
       ((u.pot p).loop.running = true → u.stepOver p d = false → exec (.stepBoundary p outs queries) s = .next u) ∧
       ((u.pot p).loop.running = false → exec (.stepBoundary p outs queries) s = .next (u.boundary p d queries).tidy)) ∧
     (d = none → s.strayBelt p = false → (s.pot p).loop.running = true → (∃ j ∈ s.jobs, j.pot = p.val ∧ j.type = 0x04) →
       exec (.stepBoundary p outs queries) s = .next s) ∧
     (d = none → s.strayBelt p = false → (s.pot p).loop.running = false ∨ (∀ j ∈ s.jobs, j.pot = p.val → j.type ≠ 0x04) →
       exec (.stepBoundary p outs queries) s = .next ((s.modPot p fun q => { q with loop := { q.loop with
         running := false, between := false, pinned := [], spaces := [], peers := [], selected := [], queued := [], queries := none
         asked := [], records := [] } }).releaseLeft p).tidy) ∧
     (∀ t : State, (t.pot p).st = 2 → t.boundary p d queries =
       (((t.releaseLeft p).stopLoop p).sendClose p ((t.potCups p).map fun c => { c with failed := true }) []).settleStop p) ∧
     (∀ (t : State) (j : Job), (t.pot p).st ≠ 2 →
       let v := if (t.pot p).loop.between then t else t.boundaryWork p
       (v.preempting p = false → v.boot.hold = none → v.coresOn = true → t.boundary p (some j) queries = v.afterBoundary p (some j) queries) ∧
       (v.preempting p = true → v.xfersOf j.key = true → t.boundary p (some j) queries = v) ∧
       (v.preempting p = true → v.xfersOf j.key = false → t.boundary p (some j) queries = (v.preempt p j.key).reschedule p)) ∧
     (∀ t : State, let v := (((t.releaseLeft p).joinAll p).sealAll p).fixChunks p
       t.boundaryWork p = (v.sendClose p (t.potCups p) (v.potCups p)).modPot p fun q => { q with loop := { q.loop with between := true } })) ∧
  (∀ (s : State) (p : Fin 8) (c : Cup) (layer head index : Nat), s.cup? c.idx = some c → s.writeOk = true →
     let w := (c.idx, layer, head, index)
     let l := (s.pot p).loop
     (w ∈ l.growth → ∃ u : State, u = { s with pots := s.pots.set p { s.pot p with loop := { l with growth := l.growth.erase w } } } ∧
       exec (.tailLeafProgramDone p c.idx layer head index) s =
         .next ((u.dropEntries fun e => e.key == .growth c.idx layer head index).cache
           { key := .leaf c.tail layer head index 0, pot := p, cls := .cached, size := 18432 })) ∧
     (w ∉ l.growth → exec (.tailLeafProgramDone p c.idx layer head index) s =
       .next { s with pots := s.pots.set p { s.pot p with loop := { l with tailWait := l.tailWait.erase w } } }) ∧
     ((l.running = true ∧ s.recordsDue p = true) ∨ (l.between = true ∧ l.peers ≠ []) →
       exec (.groupStepLimitExpiry p) s = .next (s.loseStep p 0x22).tidy) ∧
     (l.running = false ∨ s.recordsDue p = false → l.between = false ∨ l.peers = [] → exec (.groupStepLimitExpiry p) s = .next s) ∧
     (∀ st, s.loseStep p st =
       let u := (s.potCups p).foldl (fun s c => (s.modItem c.job c.item fun i => i.fail st).modCup c.idx fun k =>
         { k with phase := .leaving, failed := true }) s
       let v := (u.potCups p).foldl (fun s c => s.finishCup c) u
       let w := (List.range 4).foldl (fun s n => s.modPort n fun q => { q with
         inn := q.inn.filter fun x => !x.standing, out := q.out.filter fun x => !x.standing }) v
       w.modPot p fun q => { q with loop := { q.loop with peers := [], between := false } }))

/-- Commits of a steep: stage by stage, then layer by layer, each becomes durable in its order; without six writable caddies the steep ends with `MEDIA_FAULT`; a
sharded steep sends its attention outputs layer by layer, and waits for those of the others. THE MODEL'S READINGS AND CHOICES here: assumption log 33, 37, 53, 55. -/
def Obligations.SteepsCommitInOrder : Prop :=
  ∀ (s : State) (d : StageData) (j : Job) (c : Corpus), s.steeping j.key = some (j, c) →
    let next := fun (t : State) => match t.job? j.key with | some k => (t.startSteep k).tidy | none => t.tidy
    (s.writeOk = false → exec (.steepCheckpointCommit j.key d) s = .next (s.abortJob j.key 0x20).tidy) ∧
    (s.writeOk = true →
      (∀ k im recs, c.mark.stage = 0 → s.coll? c.coll = some k → s.image? j.imageId = some im →
        s.steepRecords j k im.vocab c.tokens = .ok recs →
        exec (.steepCheckpointCommit j.key d) s = .next (next (s.commitStaged j c k recs))) ∧
      (∀ k im e, c.mark.stage = 0 → s.coll? c.coll = some k → s.image? j.imageId = some im →
        s.steepRecords j k im.vocab c.tokens = .error e → exec (.steepCheckpointCommit j.key d) s = .next (s.abortJob j.key e).tidy) ∧
      (c.mark.stage = 1 → exec (.steepCheckpointCommit j.key d) s =
        .next (next (s.modCorpus c.id fun c => { c with vecs := d.vectors, mark := { c.mark with stage := 2 } }))) ∧
      (∀ k, c.mark.stage = 2 → s.coll? c.coll = some k →
        exec (.steepCheckpointCommit j.key d) s = .next (next (s.commitIndexed c k))) ∧
      (3 ≤ c.mark.stage → c.shard.1 = 0 → Nat.max c.range.1 c.mark.layers + 1 < c.range.1 + c.range.2 →
        exec (.steepCheckpointCommit j.key d) s = .next (next (s.commitLayer c (Nat.max c.range.1 c.mark.layers) d))) ∧
      (3 ≤ c.mark.stage → c.shard.1 = 0 → Nat.max c.range.1 c.mark.layers + 1 = c.range.1 + c.range.2 →
        exec (.steepCheckpointCommit j.key d) s =
          .next ((s.commitLayer c (Nat.max c.range.1 c.mark.layers) d).finishSteep j c).tidy) ∧
      (3 ≤ c.mark.stage → s.outsDue c (Nat.max c.range.1 c.mark.layers) = true → exec (.steepCheckpointCommit j.key d) s = .next s) ∧
      (3 ≤ c.mark.stage → s.outsDue c (Nat.max c.range.1 c.mark.layers) = false →
        Nat.max c.range.1 c.mark.layers + 1 < c.range.1 + c.range.2 → exec (.steepCheckpointCommit j.key d) s = .next (next
          ((s.commitLayer c (Nat.max c.range.1 c.mark.layers) d).sendPrefill j c (Nat.max c.range.1 c.mark.layers) d.outs))) ∧
      (3 ≤ c.mark.stage → c.range.1 + c.range.2 ≤ Nat.max c.range.1 c.mark.layers →
        exec (.steepCheckpointCommit j.key d) s = .next s))

/-- The work of the strainer, of searches and of mending: a column page evaluated, unreadable or to be reconstructed, a list page expanded or lost, hits ranked, a
mending pass. THE MODEL'S READINGS AND CHOICES here: assumption log 46, 56. -/
def Obligations.CollectionEventsRun : Prop :=
  ∀ s : State,
    (∀ (x : Strain) (c : Coll) col first p, s.strains.find? (fun y => y.job == x.job && y.item == x.item) = some x → s.coll? x.coll = some c →
      x.pages.find? (fun p => p.1 == col && p.2.1 == first) = some p →
      let key : CollPage := { kind := 1, column := col, first := first }
      (∀ page, s.cached (c.pageKey key) = true ∨ (∃ b, page = some b ∧ c.pageOk first b = true) →
        exec (.strainerPageEval x.job x.item col first page) s =
          .next ((s.usePage c key).strainStep { x with pages := x.pages.erase p, since := s.time, rebuilding := false }).tidy) ∧
      (s.cached (c.pageKey key) = false → exec (.strainerPageEval x.job x.item col first none) s = .next (s.failStrain x.job x.item).tidy) ∧
      (∀ b, s.cached (c.pageKey key) = false → c.pageOk first b = false →
        exec (.strainerPageEval x.job x.item col first (some b)) s = .next { s with strains := s.strains.map fun y =>
          if y.job == x.job && y.item == x.item then { y with rebuilding := true } else y })) ∧
    (∀ (x : Searching) (c : Coll), s.search? x.job x.item = some x → s.coll? x.coll = some c → x.isOver = false →
      let p := (x.front.map c.listPage).getD 0
      let key : CollPage := { kind := 3, first := p * c.listsPer }
      x.lostPages.contains p = false →
      (∀ page, s.cached (c.pageKey key) = true ∨ (∃ b, page = some b ∧ c.pageOk (p * c.listsPer) b = true) →
        exec (.searchExpansion x.job x.item page) s = .next ((s.usePage c key).expandSearch c x true)) ∧
      (s.cached (c.pageKey key) = false → exec (.searchExpansion x.job x.item none) s = .next (s.expandSearch c x false)) ∧
      (∀ b, s.cached (c.pageKey key) = false → c.pageOk (p * c.listsPer) b = false →
        exec (.searchExpansion x.job x.item (some b)) s = .next { s with searches := s.searches.map fun y =>
          if y.job == x.job && y.item == x.item then { y with rebuilding := true } else y })) ∧
    (∀ (x : Searching) (c : Coll) (j : Job) (r : Bytes) bad, s.search? x.job x.item = some x → s.coll? x.coll = some c → x.isOver = true →
      s.job? x.job = some j → s.itemRec j x.item = some r →
      let hits := c.hits s.free x bad
      exec (.searchRerank x.job x.item bad) s = .next ((((s.used.endTask x.job x.item).jobWrite x.job (field r 8 8)
        (hits.map c.hitRecord).flatten).complete x.job x.item fun it =>
          { (if hits.length < x.k then it.note 1 else it) with resA := hits.length, resB := x.nf, damage := x.damage }).tidy)) ∧
    (∀ c : Coll, s.coll? c.id = some c → c.recallers = [] → bits (s.rs 0x1900) 36 32 ≠ 0 →
      exec (.mendingPassEnd c.id) s = .next { s with
        free := s.free + 1, colls := s.colls.map fun d => if d.id == c.id then d.mend s.free else d }) ∧
    (∀ c : Coll, s.coll? c.id = some c → c.recallers ≠ [] → exec (.mendingPassEnd c.id) s = .next s)

/-- The hot shelf: a promotion's held changes go to the shelf copy and the entry flips; a demotion returns the record to DRAM; an abandoned promotion discards its copy
and is barred for 10 ms, an abandoned demotion keeps its row on the shelf; promotions and demotions are counted per table and per pot; a waiting hot row is then
promoted; a window's end empties its sketch. THE MODEL'S READINGS AND CHOICES here: assumption log 35. -/
def Obligations.ShelfMigrationsEnd : Prop :=
  ∀ (s : State) (t : Table) (row : Nat), s.table? t.id = some t →
    (t.redirect.lookup row = some .copy →
      let h := (s.setRedirect t.id row (some .shelf)).takeHeld t.id row
      exec (.shelfRedirectFlip t.id row) s = .next (((h.1.count 2 t.pot 38 1).modTable t.id fun t => { t with
        moves := (t.moves.1 + 1, t.moves.2) }).applyHeld h.2 true)) ∧
    (t.redirect.lookup row ≠ some .copy → exec (.shelfRedirectFlip t.id row) s = .next s) ∧
    (t.redirect.lookup row = some .copy →
      let h := ((s.setRedirect t.id row none).modTable t.id fun t => { t with shelf := t.shelf.filter (·.row != row) }).takeHeld t.id row
      let u := h.1.count 2 t.pot 37 1
      exec (.shelfAbandoned t.id row) s = .next (((u.modEmbed fun e => { e with
        bar := e.bar.filter (fun b => !(b.1 == t.id && b.2.1 == row)) ++ [(t.id, row, u.time + 10000)] }).applyHeld h.2 false).promoteHot (quadOf row))) ∧
    (t.redirect.lookup row = some .demote →
      let h := (s.setRedirect t.id row (some .shelf)).takeHeld t.id row
      exec (.shelfAbandoned t.id row) s = .next (((h.1.count 2 t.pot 37 1).applyHeld h.2 true).promoteHot (quadOf row))) ∧
    (t.redirect.lookup row = none ∨ t.redirect.lookup row = some .shelf → exec (.shelfAbandoned t.id row) s = .next s) ∧
    (t.onShelf row = true →
      let h := ((s.setRedirect t.id row none).modTable t.id fun t => { t with
        recs := setRec t.recs { recOf t.shelf row with used := 0 }, shelf := t.shelf.filter (·.row != row) }).takeHeld t.id row
      exec (.shelfDemotion t.id row) s = .next ((((h.1.count 2 t.pot 38 1).modTable t.id fun t => { t with
        moves := (t.moves.1, t.moves.2 + 1) }).applyHeld h.2 false).promoteHot (quadOf row))) ∧
    (t.onShelf row = false → exec (.shelfDemotion t.id row) s = .next s) ∧
    (∀ q : Fin 4, exec (.hotWindowExpiry q) s = .next { s with embed := { s.embed with
      sketch := s.embed.sketch.set q [], hotOld := s.embed.hotOld.filter fun w => w.1 != q.val } })

/-- Addends and gradients that have arrived are taken in the order that R345 allows: one for a row that does not migrate is applied where the row is served and
acknowledged, one for a row that migrates is held; one whose table has gone is acknowledged alone; one from a link waits while a save of its table runs. Bags over a
group: a member's part joins, the last one writes the vectors and completes the item; a wait past its limit ends the item with `PEER_ABSENT`. THE MODEL'S READINGS AND
CHOICES here: assumption log 35. -/
def Obligations.ArrivalsAreApplied : Prop :=
  (∀ (s : State) (n : Nat) (a : Arrive),
     let gone : State := { s with embed := { s.embed with arrivals := s.embed.arrivals.eraseIdx n } }
     let taken := fun (grad : Bool) => s.embed.takeable n grad = some a ∧ (a.link = none ∨ s.saving a.table = false)
     (taken false → s.table? a.table = none → exec (.atomicAdd n) s = .next (gone.acknowledge a).tidy) ∧
     (taken true → s.table? a.table = none → exec (.ruleApplication n) s = .next (gone.acknowledge a).tidy) ∧
     (∀ t u, gone.table? a.table = some t → gone.access a.table a.row = u → (∃ v, u.table? a.table = some v ∧ v.redirect.lookup a.row = none) →
       (taken false → exec (.atomicAdd n) s = .next (((u.applyArrive a false).acknowledge a).tidy)) ∧
       (taken true → exec (.ruleApplication n) s = .next (((u.applyArrive a false).acknowledge a).tidy))) ∧
     (∀ t u, gone.table? a.table = some t → gone.access a.table a.row = u → (∃ v, u.table? a.table = some v ∧ v.redirect.lookup a.row = some .shelf) →
       (taken false → exec (.atomicAdd n) s = .next (((u.applyArrive a true).acknowledge a).tidy)) ∧
       (taken true → exec (.ruleApplication n) s = .next (((u.applyArrive a true).acknowledge a).tidy))) ∧
     (∀ t u, gone.table? a.table = some t → gone.access a.table a.row = u →
       (∃ v, u.table? a.table = some v ∧ (v.redirect.lookup a.row = some .copy ∨ v.redirect.lookup a.row = some .demote)) →
       let q := quadOf a.row
       let b := u.embed.buffer[q]?.getD [] ++ [a]
       let held : State := { u with embed := { u.embed with buffer := u.embed.buffer.setIfInBounds q b } }
       (taken false → b.length < 64 → exec (.atomicAdd n) s = .next held.tidy) ∧
       (taken true → b.length < 64 → exec (.ruleApplication n) s = .next held.tidy) ∧
       (taken false → 64 ≤ b.length → exec (.atomicAdd n) s = .next (held.abandon a.table a.row).tidy) ∧
       (taken true → 64 ≤ b.length → exec (.ruleApplication n) s = .next (held.abandon a.table a.row).tidy)) ∧
     (∀ grad, s.embed.takeable n grad = some a → a.link ≠ none → s.saving a.table = true →
       (grad = false → exec (.atomicAdd n) s = .next s.tidy) ∧ (grad = true → exec (.ruleApplication n) s = .next s.tidy))) ∧
  (∀ (s : State) (w : BagWait) (j : Job) (t : Table) (m : Fin 5) (part : Bytes),
     s.embed.bags.find? (fun x => x.job == w.job && x.item == w.item) = some w → s.job? w.job = some j → s.table? (j.f 0x30 4) = some t →
     m.val ∈ w.left →
     let acc := t.joinPart s.free m w.acc part
     (w.left.erase m.val = [] → exec (.bagPartReceived w.job w.item m part) s =
       .next ((({ s with free := s.free + 1, embed := { s.embed with
         bags := s.embed.bags.filter fun x => !(x.job == w.job && x.item == w.item) } } : State).finishBag w.job w.item acc).tidy)) ∧
     (w.left.erase m.val ≠ [] → exec (.bagPartReceived w.job w.item m part) s =
       .next { s with free := s.free + 1, embed := { s.embed with bags := s.embed.bags.map fun x =>
         if x.job == w.job && x.item == w.item then { x with left := w.left.erase m.val, acc := acc } else x } }) ∧
     ((∀ x ∈ s.embed.waits, ¬ (x.job = w.job ∧ x.item = w.item)) → ∃ u : State,
       u = ({ s with embed := { s.embed with bags := s.embed.bags.filter fun x => !(x.job == w.job && x.item == w.item) } } : State).complete
         w.job w.item (fun i => i.fail 0x22) ∧
       ((∀ x ∈ u.embed.waits, ¬ (x.job = w.job ∧ x.item = w.item)) → exec (.bagWaitExpiry w.job w.item) s = .next u.tidy)))

-- Koelnu

/-- A front-end instruction that stands at the program counter of a core that can take it is dispatched: it stands at the front, with the tags of its dispatch, until it
fires; an uncorrectable code word fails the job's items instead; a word that is not the one at the program counter changes nothing. THE MODEL'S READINGS AND CHOICES
here: assumption log 21, 47. -/
def Obligations.FrontInstructionsAreDispatched : Prop :=
  ∀ (s : State) (c : Fin 48) (h : KHdr),
    let goes := fun (i : Instr) (op : KOp) =>
      (s.takes c ⟨h, op⟩ = true → s.badWord c = false → ∃ u : State, exec i s = .next u.tidy ∧
        u = { s with cores := s.cores.set c { s.cores[c] with front := some ((s.core c).entry ⟨h, op⟩ []) } } ∧
        ((s.core c).entry ⟨h, op⟩ []).layer = s.cores[c].layer ∧ ((s.core c).entry ⟨h, op⟩ []).oper = s.cores[c].oper) ∧
      (s.takes c ⟨h, op⟩ = true → s.badWord c = true → exec i s = .next (s.failServed c 0x50).tidy) ∧
      (s.takes c ⟨h, op⟩ = false → exec i s = .next s)
    goes (.nop c h 0) (.nop 0) ∧
    (∀ l o, goes (.group c h l o) (.group l o)) ∧ goes (.point c h) .point ∧ (∀ m, goes (.fence c h m) (.fence m)) ∧
    (∀ n b, goes (.loop c h n b) (.loop n b)) ∧ goes (.endInv c h) .endInv ∧
    (∀ r v o, goes (.addr c h r v o) (.addr r v o)) ∧ (∀ r d, goes (.addri c h r d) (.addri r d)) ∧
    (∀ i m k n, goes (.shape c h i m k n) (.shape i m k n)) ∧ (∀ i a b d, goes (.stride c h i a b d) (.stride i a b d)) ∧
    (∀ o, goes (.spout c h o) (.spout o)) ∧ (∀ i v w, goes (.spoutv c h i v w) (.spoutv i v w)) ∧
    (∀ t v, goes (.tkset c h t v) (.tkset t v)) ∧ (∀ n u, goes (.semacq c h n u) (.semacq n u)) ∧ (∀ n u, goes (.semrel c h n u) (.semrel n u))

/-- A unit's instruction that stands at the program counter, with room in its queues, enters them with the values its address registers have at dispatch, and the
program counter moves on. THE MODEL'S READINGS AND CHOICES here: assumption log 21, 47. -/
def Obligations.UnitInstructionsEnterTheirQueues : Prop :=
  ∀ (s : State) (c : Fin 48) (h : KHdr),
    let k := s.cores[c]
    let ad := fun r : BitVec 4 => k.ad[r.toNat]?.getD 0
    let entry := fun (op : KOp) (regs : List (BitVec 4)) =>
      ({ word := ⟨h, op⟩, pc := k.pc, layer := k.layer, oper := k.oper, regs := regs.map ad } : QEntry)
    let goes := fun (i : Instr) (op : KOp) (put : Core → Core) =>
      (s.takes c ⟨h, op⟩ = true → s.badWord c = false → exec i s = .next (({ s with cores := s.cores.set c (put k).advance } : State).tidy)) ∧
      (s.takes c ⟨h, op⟩ = true → s.badWord c = true → exec i s = .next (s.failServed c 0x50).tidy) ∧
      (s.takes c ⟨h, op⟩ = false → exec i s = .next s)
    let vec := fun (i : VOps → Instr) (v : VecOp) => ∀ o, goes (i o) (.vec v o) fun k => { k with
      qVector := k.qVector ++ [entry (.vec v o) [o.dad, o.aad, o.bad]] }
    let moved := fun (op : KOp) (src dst : BitVec 4) (k : Core) => { k with
      qMove := k.qMove ++ [entry op [src, dst]]
      run := if spaceOf (ad dst) = 4 ∨ spaceOf (ad dst) = 5 then k.run.map fun r => { r with wrote := true } else k.run }
    vec (.vadd c h) .vadd ∧ vec (.vmul c h) .vmul ∧ vec (.vfma c h) .vfma ∧ vec (.vmax c h) .vmax ∧ vec (.vmin c h) .vmin ∧
    vec (.vcmp c h) .vcmp ∧ vec (.vsel c h) .vsel ∧ vec (.vcvt c h) .vcvt ∧ vec (.vexp c h) .vexp ∧ vec (.vln c h) .vln ∧
    vec (.vrcp c h) .vrcp ∧ vec (.vrsq c h) .vrsq ∧ vec (.vtanh c h) .vtanh ∧ vec (.vsum c h) .vsum ∧ vec (.vrmax c h) .vrmax ∧
    vec (.vtopk c h) .vtopk ∧ vec (.vpart c h) .vpart ∧ vec (.vmerge c h) .vmerge ∧ vec (.vsample c h) .vsample ∧
    (∀ o, goes (.mm c h o) (.mm o) fun k =>
      let cfg := k.sc[o.spc.toNat]?.getD {}
      let q := { entry (.mm o) [o.sad, o.xad, o.dad] with
        shape := k.sh[o.shp.toNat]?.getD {}, cfg := cfg, cfgAd := (ad cfg.o.scalead, ad cfg.o.biasad) }
      { k with qLoader := k.qLoader ++ [q], qArrays := k.qArrays ++ [q], qSpout := k.qSpout ++ [q] }) ∧
    (∀ o, goes (.mov c h o) (.mov o) (moved (.mov o) o.src o.dst)) ∧ (∀ o, goes (.mov2d c h o) (.mov2d o) (moved (.mov2d o) o.src o.dst)) ∧
    (∀ o, goes (.leafrd c h o) (.leafrd o) fun k => { k with qMove := k.qMove ++ [entry (.leafrd o) [o.list, o.dst]] }) ∧
    goes (.nop c h 1) (.nop 1) (fun k => { k with qLoader := k.qLoader ++ [entry (.nop 1) []] }) ∧
    goes (.nop c h 2) (.nop 2) (fun k => { k with qArrays := k.qArrays ++ [entry (.nop 2) []] }) ∧
    goes (.nop c h 3) (.nop 3) (fun k => { k with qSpout := k.qSpout ++ [entry (.nop 3) []] }) ∧
    goes (.nop c h 4) (.nop 4) (fun k => { k with qVector := k.qVector ++ [entry (.nop 4) []] }) ∧
    goes (.nop c h 5) (.nop 5) (fun k => { k with qMove := k.qMove ++ [entry (.nop 5) []] })

/-- What a front-end instruction does as it fires, once its own wait is met: it changes its register, pushes a loop, writes the restart record, ends its invocation,
sets the tags; a header count past 65,535 is an illegal operation. Semaphores: an acquire waits its turn for its units and takes them; a release returns them; past
65,535 it is illegal. THE MODEL'S READINGS AND CHOICES here: assumption log 47, 48. -/
def Obligations.FrontInstructionsFire : Prop :=
  (∀ (s : State) (c : Fin 48) (q : QEntry) (inv : Invocation), s.cores[c].front = some q → s.cores[c].run = some inv →
     (65535 < q.word.hdr.wcnt.toNat * 2 ^ q.word.hdr.wexp.toNat ∨ 65535 < q.word.hdr.scnt.toNat * 2 ^ q.word.hdr.sexp.toNat →
       s.fireFront c = some (s.illegal c q)) ∧
     (q.word.hdr.wcnt.toNat * 2 ^ q.word.hdr.wexp.toNat ≤ 65535 → q.word.hdr.scnt.toNat * 2 ^ q.word.hdr.sexp.toNat ≤ 65535 →
       s.cores[c].hdrReady q.word.hdr = false → s.fireFront c = none) ∧
     (q.word.hdr.wcnt.toNat * 2 ^ q.word.hdr.wexp.toNat ≤ 65535 → q.word.hdr.scnt.toNat * 2 ^ q.word.hdr.sexp.toNat ≤ 65535 →
       s.cores[c].hdrReady q.word.hdr = true →
       let k := s.cores[c]
       let becomes := fun f : Core → Core => s.fireFront c =
         some (({ s with cores := s.cores.set c { f (k.hdrTake q.word.hdr) with front := none }.advance } : State).signalIf c q)
       (∀ r v o, q.word.op = .addr r v o → becomes fun k => { k with
         ad := k.ad.setIfInBounds r.toNat (BitVec.ofNat 48 (v.toNat + inv.ordinal * o.toNat * 64)) }) ∧
       (∀ r d, q.word.op = .addri r d → ∃ v : BitVec 48, becomes (fun k => { k with ad := k.ad.setIfInBounds r.toNat v }) ∧
         v.toNat / 2 ^ 44 = (k.ad[r.toNat]?.getD 0).toNat / 2 ^ 44 ∧
         ((v.toNat : Int) - (k.ad[r.toNat]?.getD 0).toNat - d.toInt) % 2 ^ 44 = 0) ∧
       (∀ i m n p, q.word.op = .shape i m n p → becomes fun k => { k with
         sh := k.sh.setIfInBounds i.toNat { valid := true, m := m.toNat + 1, k := n.toNat + 1, n := p.toNat + 1, sstr := 0, xstr := 0, dstr := 0 } }) ∧
       (∀ i a b d, q.word.op = .stride i a b d → becomes fun k => { k with
         sh := k.sh.setIfInBounds i.toNat { k.sh[i.toNat]?.getD {} with sstr := a.toNat, xstr := b.toNat, dstr := d.toNat } }) ∧
       (∀ o, q.word.op = .spout o → becomes fun k => { k with
         sc := k.sc.setIfInBounds o.sci.toNat { valid := true, o := o, scalar := 0x3F800000, cap := 0x3F800000 } }) ∧
       (∀ i v w, q.word.op = .spoutv i v w → becomes fun k => { k with
         sc := k.sc.setIfInBounds i.toNat { k.sc[i.toNat]?.getD {} with scalar := v, cap := w } }) ∧
       (∀ n b, q.word.op = .loop n b → becomes fun k => { k with
         loops := { start := q.pc + 1, left := n.toNat, body := b.toNat } :: k.loops }) ∧
       (q.word.op = .nop 0 → becomes id) ∧
       (∀ m : BitVec 5, q.word.op = .fence m →
         let left := (m.getLsbD 0 = true ∧ (k.qLoader ≠ [] ∨ k.mms ≠ [])) ∨ (m.getLsbD 1 = true ∧ (k.qArrays ≠ [] ∨ k.mms ≠ [])) ∨
           (m.getLsbD 2 = true ∧ (k.qSpout ≠ [] ∨ k.mms ≠ [])) ∨ (m.getLsbD 3 = true ∧ k.qVector ≠ []) ∨
           (m.getLsbD 4 = true ∧ (k.qMove ≠ [] ∨ k.moves ≠ []))
         (left → s.fireFront c = none) ∧ (¬ left → becomes id)) ∧
       (q.word.op = .point → k.unitsIdle = true → s.fireFront c = some (s.firePoint c q)) ∧
       (q.word.op = .point → k.unitsIdle = true → k.keep ≠ none → s.fireFront c = some (s.illegal c q)) ∧
       (q.word.op = .point ∨ q.word.op = .endInv → k.unitsIdle = false → s.fireFront c = none) ∧
       (q.word.op = .endInv → k.unitsIdle = true → s.fireFront c = some (s.fireEnd c q)) ∧
       (∀ l o j, q.word.op = .group l o → s.job? inv.job = some j → inv.wrote = false → s.obs.groupEn = false → q.word.hdr.sen = false →
         becomes fun k => { k with layer := l, oper := o }))) ∧
  (∀ (s : State) (c : Fin 48) (q : QEntry) (inv : Invocation) (j : Job) (n : BitVec 5) (units : BitVec 16),
     s.cores[c].run = some inv → s.job? inv.job = some j → j.pot < 8 →
     let m := s.sem j.pot n.toNat
     ((∀ w ∈ m.waiting, w.1 ≠ c.val) → s.fireSemacq c q n.toNat units.toNat =
       some (s.modSem j.pot n.toNat fun m => { m with waiting := m.waiting ++ [(c.val, inv.job, units.toNat)] })) ∧
     (∀ rest, m.waiting = (c.val, inv.job, units.toNat) :: rest → units.toNat ≤ m.count →
       12 ≤ (s.potCores j.pot).length → (s.cores[c].keep ≠ none ∨ ∃ r ∈ s.cores[c].mms, r.cont = true ∨ (mmOps r.q).keep = true) →
       s.fireSemacq c q n.toNat units.toNat = some (s.illegal c q)) ∧
     (∀ rest, m.waiting = (c.val, inv.job, units.toNat) :: rest → units.toNat ≤ m.count →
       (s.potCores j.pot).length < 12 ∨ (s.cores[c].keep = none ∧ ∀ r ∈ s.cores[c].mms, r.cont = false ∧ (mmOps r.q).keep = false) →
       s.fireSemacq c q n.toNat units.toNat = some ((s.modSem j.pot n.toNat fun m => { m with
         count := m.count - units.toNat, waiting := rest, held := upsert m.held inv.job 0 fun u => u + units.toNat }).frontDone c q)) ∧
     (∀ x rest, m.waiting = x :: rest → x.1 ≠ c.val ∨ m.count < units.toNat → (∃ w ∈ m.waiting, w.1 = c.val) →
       (∀ h ∈ m.held, ∀ y, s.job? h.1 = some y → y.phase ≠ .preempted) → s.fireSemacq c q n.toNat units.toNat = none) ∧
     (65535 < m.count + units.toNat → s.fireSemrel c q n.toNat units.toNat = s.illegal c q) ∧
     (m.count + units.toNat ≤ 65535 → (s.pot j.pot).loan = none → s.fireSemrel c q n.toNat units.toNat =
       (s.modSem j.pot n.toNat fun m => { m with
         count := m.count + units.toNat
         held := (upsert m.held inv.job 0 fun u => u - units.toNat).filter fun h => decide (0 < h.2) }).frontDone c q))

/-- `TKSET` sets its counter, and fires exactly when no instruction dispatched before it that names the counter is left; the reserved bits of its word are zero. -/
def Obligations.TksetSetsItsCounter : Prop :=
  (∀ w : BitVec 128, w.toNat % 256 = 0x80 →
    decodeOp w = if w.toNat / 2 ^ 69 = 0 then
      some (.tkset (BitVec.ofNat 5 (w.toNat / 2 ^ 48 % 2 ^ 5)) (BitVec.ofNat 16 (w.toNat / 2 ^ 53 % 2 ^ 16))) else none) ∧
  ∀ (s : State) (c : Fin 48) (q : QEntry) (inv : Invocation) (t : BitVec 5) (v : BitVec 16),
    s.cores[c].front = some q → s.cores[c].run = some inv → q.word.op = .tkset t v →
    tooMany q.word.hdr = false → s.cores[c].hdrReady q.word.hdr = true →
    let k := s.cores[c]
    let names := fun w : KWord => (w.hdr.wen = true ∧ w.hdr.wtk = t) ∨ (w.hdr.sen = true ∧ w.hdr.stk = t) ∨
      (∃ o, w.op = .mm o ∧ ((o.xw.en = true ∧ o.xw.tk = t) ∨ (o.dw.en = true ∧ o.dw.tk = t) ∨ (o.xs.en = true ∧ o.xs.tk = t))) ∨
      (∃ o, w.op = .mov o ∧ ((o.dw.en = true ∧ o.dw.tk = t) ∨ (o.xs.en = true ∧ o.xs.tk = t))) ∨
      (∃ o, w.op = .leafrd o ∧ o.dw.en = true ∧ o.dw.tk = t)
    let left := (∃ e ∈ k.qLoader ++ k.qArrays ++ k.qSpout ++ k.qVector ++ k.qMove, names e.word) ∨
      (∃ m ∈ k.mms, names m.q.word) ∨ (∃ m ∈ k.moves, names m.word)
    (left → s.fireFront c = none) ∧
    (¬ left → ∃ u : State, s.fireFront c = some (u.signalIf c q) ∧ u.cores[c].tk[t.toNat]? = some v ∧
      u = { s with cores := s.cores.set c { k with
        tk := (k.hdrTake q.word.hdr).tk.setIfInBounds t.toNat v, front := none }.advance })

/-- What the vector operations form of the values of A, B and D. THE MODEL'S READINGS AND CHOICES here: assumption log 1, 24, 25. -/
def Obligations.VectorOperationsFormTheirResults : Prop :=
  ∀ (c n i : Nat) (o : VOps) (A B D : Bytes) (smp : Option (Nat × Nat × List Nat)), i < n →
    let val := fun (raw : Bytes) (fmt : BitVec 4) => toF32 ((rowVals fmt.toNat o.blk raw n).getD i .nan)
    let a := val A o.afmt
    let b := if o.bimm then o.imm else val B o.afmt
    let d := val D o.dfmt
    let all := (rowVals o.afmt.toNat o.blk A n).map toF32
    let r := fun op : VecOp => vecResult c op o n A B D smp
    let forms := fun (op : VecOp) (v : BitVec 32) => (r op).vals[i]? = some (ofF32 v) ∧ (r op).vals.length = n ∧ (r op).raw = none ∧ (r op).toB = []
    forms .vadd (f32Add c i a b) ∧ forms .vmul (f32Mul c i a b) ∧ forms .vfma (f32Fma c i a b d) ∧
    forms .vmax (f32Max c i a b) ∧ forms .vmin (f32Min c i a b) ∧
    forms .vcmp (if (match o.cond.toNat with
      | 0 => (ofF32 a).eq (ofF32 b) | 1 => !(ofF32 a).eq (ofF32 b) | 2 => (ofF32 a).lt (ofF32 b) | 3 => (ofF32 a).le (ofF32 b)
      | 4 => (ofF32 b).lt (ofF32 a) | _ => (ofF32 b).le (ofF32 a)) then 0x3F800000 else 0) ∧
    forms .vsel (if (ofF32 b).eq (.fin false 0 0) then o.imm else a) ∧
    forms .vexp (f32Exp c i a) ∧ forms .vln (f32Ln c i a) ∧ forms .vrcp (f32Rcp c i a) ∧ forms .vrsq (f32Rsq c i a) ∧
    forms .vtanh (f32Tanh c i 2 a) ∧
    (r .vcvt).vals = rowVals o.afmt.toNat o.blk A n ∧
    (r .vsum).vals = [ofF32 (sumFree c (all.map ofF32))] ∧ (r .vrmax).vals = [ofF32 (vRmax c all)] ∧
    (r .vtopk).vals = (topK (o.imm.toNat % 8192 + 1) all).map (fun x => ofF32 x.1) ∧
    (r .vtopk).toB = ((topK (o.imm.toNat % 8192 + 1) all).map fun x => natLe 4 x.2).flatten ∧
    (r .vpart).vals.length = n ∧ (r .vpart).toB.length = 12 ∧
    (∃ p, (r .vmerge).raw = some p ∧ (r .vmerge).vals = []) ∧
    (∀ seed pos tail, smp = some (seed, pos, tail) → ∃ t, sampleToken all B seed pos tail = t ∧
      (r .vsample).raw = some (tokenRecord t.1 t.2 (field B 0x15 1)))

/-- A vector instruction that fires with its operands in the core store and apart writes its row to D, narrowed, and nothing to B; an operand outside the core store, or
an overlap in part, is an illegal operation. THE MODEL'S READINGS AND CHOICES here: assumption log 16, 24. -/
def Obligations.VectorInstructionsWriteTheirRow : Prop :=
  ∀ (s : State) (c : Fin 48) (q : QEntry) (op : VecOp) (o : VOps),
    op ∉ [VecOp.vtopk, .vpart, .vmerge, .vsample] →
    let n := o.n1.toNat + 1
    let an := vecABytes op o n
    let bn := vecBBytes op o n
    let dn := vecDBytes op o n 0
    let at_ := fun (v : BitVec 48) => v.toNat % 2 ^ 44
    let b := if bn = 0 then 0 else at_ (q.reg 2)
    let inside := fun (v : BitVec 48) (len : Nat) => v.toNat / 2 ^ 44 = 0 ∧ at_ v + len ≤ coreBytes
    (¬ inside (q.reg 1) an ∨ ¬ inside (q.reg 0) dn ∨ (bn ≠ 0 ∧ ¬ inside (q.reg 2) bn) → s.fireVec c q op o = s.illegal c q) ∧
    (inside (q.reg 1) an → inside (q.reg 0) dn → (bn ≠ 0 → inside (q.reg 2) bn) →
      apart (at_ (q.reg 0)) dn (at_ (q.reg 1)) an = false ∨ apart (at_ (q.reg 0)) dn b bn = false → s.fireVec c q op o = s.illegal c q) ∧
    (inside (q.reg 1) an → inside (q.reg 0) dn → (bn ≠ 0 → inside (q.reg 2) bn) →
      apart (at_ (q.reg 0)) dn (at_ (q.reg 1)) an = true → apart (at_ (q.reg 0)) dn b bn = true →
      ∃ (u : State) (cs es : List Nat) (sats : List Sat) (poison : Option Arrival),
        s.used.narrowRowK c o.dfmt.toNat o.blk (op == .vcvt) q.tags (vecResult s.free op o n (s.coreRead c (at_ (q.reg 1)) an) (s.coreRead c b bn)
          (s.coreRead c (at_ (q.reg 0)) dn) none).vals = (u, cs, es, sats) ∧
        s.fireVec c q op o = (u.coreWrite c 6 (at_ (q.reg 0)) (packCodes o.dfmt.toNat cs ++ es.map (BitVec.ofNat 8)) q.tags poison).countSats
          c o.dfmt.toNat q.tags sats)

/-- The engines of a core: a stationary tile is latched in a load register as it is read, while fewer than four are ahead; a pass lands in its bank; a tile whose checks
pass drains, and one that fails them is a datapath check failed; a move's data lands; each does nothing where nothing is in progress. A core without progress for its
limit: its counter counts, its fault record is made, and the job of a collection kind fails its item, any other every item it serves. The limit has not passed while a
move of the core, a move of another core into it or a peer transfer for it is in flight, or while it waits at `SEMACQ` for units another job holds whose cores still
fire. THE MODEL'S READINGS AND CHOICES here: assumption log 21, 47, 49. -/
def Obligations.CoreEnginesAdvance : Prop :=
  (∀ (s : State) (c : Fin 48),
     (∀ r, s.cores[c].loadingRun = some r → r.loaded + 1 < (foldOf r.q).passes → ∃ u : State, exec (.stationaryLoadDone c) s = .next u.tidy ∧
       u = { s with free := s.free + 1, cores := s.cores.set c { s.cores[c] with
         loads := s.cores[c].loads ++ [s.cores[c].readTile s.free r]
         mms := s.cores[c].mms.map fun x => if x.num = r.num then { x with loaded := x.loaded + 1 } else x } }) ∧
     (∀ r, s.cores[c].loadingRun = some r → r.loaded + 1 = (foldOf r.q).passes → ∃ u : State, exec (.stationaryLoadDone c) s = .next u.tidy ∧
       u = { s with free := s.free + 1, cores := s.cores.set c { s.cores[c] with
         loads := s.cores[c].loads ++ [s.cores[c].readTile s.free r]
         mms := s.cores[c].mms.map fun x => if x.num = r.num then { x with loaded := x.loaded + 1 } else x
         qLoader := s.cores[c].qLoader.drop 1 } }) ∧
     (∀ r, s.cores[c].landingRun = some r → r.landed + 1 < (foldOf r.q).passes → exec (.passLanded c) s = .next (s.landPass c r).tidy) ∧
     (∀ r, s.cores[c].landingRun = some r → r.landed + 1 = (foldOf r.q).passes →
       let t := (((s.landPass c r).modCore c fun k => { k with qArrays := k.qArrays.drop 1 }).syncSignal c r.q (mmOps r.q).xs)
       exec (.passLanded c) s = .next (if (mmOps r.q).keep then t.signalIf c r.q else t).tidy) ∧
     (∀ r, s.cores[c].drainingRun = some r → s.tileChecks c r = false → exec (.spoutDrain c) s = .next (s.datapathFail (s.cores[c].phys.getD 52))) ∧
     (∀ r, s.cores[c].drainingRun = some r → s.tileChecks c r = true → r.drained + 1 < (foldOf r.q).tiles →
       exec (.spoutDrain c) s = .next (s.drainTile c r).tidy) ∧
     (∀ r x rest, s.cores[c].drainingRun = some r → s.tileChecks c r = true → r.drained + 1 = (foldOf r.q).tiles →
       ((s.drainTile c r).core c).mms = x :: rest → exec (.spoutDrain c) s = .next ((s.drainTile c r).finishMm c x).tidy) ∧
     (s.cores[c].loadingRun = none → exec (.stationaryLoadDone c) s = .next s) ∧
     (s.cores[c].landingRun = none → exec (.passLanded c) s = .next s) ∧ (s.cores[c].drainingRun = none → exec (.spoutDrain c) s = .next s) ∧
     (∀ m how, s.move? c m.num = some m → m.leaves = [] → m.peers = [] → exec (.moveArrived c m.num how) s = .next (s.arriveMove c m how).tidy) ∧
     (∀ n how, s.move? c n = none → exec (.moveArrived c n how) s = .next s) ∧
     (∀ r, s.cores[c].loadingRun = some r → r ∈ s.cores[c].mms ∧ r.loaded < (foldOf r.q).passes ∧
       (s.cores[c].mms.map fun r => r.loaded - r.landed).sum < 4) ∧
     (∀ r, s.cores[c].drainingRun = some r → r ∈ s.cores[c].mms ∧ (r.drained + 1) * (foldOf r.q).kc ≤ r.landed)) ∧
  (∀ (s : State) (c : Fin 48) (inv : Invocation), s.cores[c].run = some inv →
     let k := s.cores[c]
     let u := (s.count 1 c 7 1).faultRecord c 2 k.pc (k.layer, k.oper)
     let comes := k.moves ≠ [] ∨
       (∃ d : Fin 48, ∃ m ∈ s.cores[d].moves, ∃ at_, s.place d (m.regs.getD 1 0) 0 0 = some (.core c at_)) ∨
       (∃ p : Fin 4, ∃ x ∈ s.ports[p].inn, x.desc.kind = 1 ∧ x.job = inv.job ∧ x.desc.ordinal = inv.ordinal)
     let held := ∃ (q : QEntry) (n : BitVec 5) (units : BitVec 16) (j : Job), k.front = some q ∧ q.word.op = .semacq n units ∧
       s.job? inv.job = some j ∧ ∃ h ∈ (s.sem j.pot n.toNat).held, h.1 ≠ inv.job ∧ 0 < h.2 ∧
         ∃ y, s.job? h.1 = some y ∧ s.time ≤ y.firedAt + 2000000
     (k.parked = false → inv.ended = false → ¬ comes → ¬ held → s.coresOn = true →
       (inv.kind = 0 → exec (.coreProgressExpiry c) s =
         .next ((u.complete inv.job inv.item fun i => i.fail 0x50).modCore c Core.idle).tidy) ∧
       (inv.kind ≠ 0 → exec (.coreProgressExpiry c) s = .next (u.failServed c 0x50).tidy)) ∧
     (k.parked = true ∨ inv.ended = true ∨ comes ∨ held ∨ s.coresOn = false → exec (.coreProgressExpiry c) s = .next s))

/-- An interval longer than the limit is counted, and nothing else: no item of a job changes. -/
def Obligations.OverrunsAreCountedNotFailed : Prop :=
  ∀ (s : State) (c : Fin 48), s.cores[c].run.isSome = true → ∃ t : State, exec (.intervalOverrun c) s = .next t ∧
    t = { s with obs := { s.obs with counters := t.obs.counters } } ∧
    (∀ k, lookupD t.obs.counters k 0 =
      if k = (1, c.val, 8) then min (lookupD s.obs.counters k 0 + 1) (2 ^ 64 - 1 : Nat) else lookupD s.obs.counters k 0)

-- Media and caddies

/-- A buffered block is programmed to the place the command names, one member to each writable bay: in pSLC while the buffer region has room, else in QLC; a free group
that has blocks left to erase is erased first; what is already programmed, a place that is not the next of its group, and a module without six writable caddies program
nothing. THE MODEL'S READINGS AND CHOICES here: assumption log 28. -/
def Obligations.BufferedBlocksAreProgrammed : Prop :=
  ∀ (s : State) (nsid lba g page : Nat),
    let pslc := decide (s.media.pslcBytes + 98304 ≤ s.pslcRoom)
    (∀ b, s.unprogrammed nsid lba = some b → s.writeOk = true → s.boot.phase = .ready → s.placeable g page pslc = true →
      (s.group? g = none → 1524 ≤ s.freeGroups ∧ s.unerased g = false) →
      ∃ (t : State) (ops : List MediaOp) (x : Stripe), exec (.writeBufferProgram nsid lba g page) s = .next t ∧
        t.media.ops = s.media.ops ++ ops ∧ ops.map (·.bay) = s.writables ∧
        (∀ o ∈ ops, o.kind = 1 ∧ o.group = g ∧ o.page = page ∧ o.stripe = x.key ∧ x.key < o.key) ∧
        t.media.stripes = s.media.stripes ++ [x] ∧ x.load = .host nsid lba b.seq ∧ x.data = b.data ∧ x.pslc = pslc ∧ x.flying = s.writables ∧
        t.media.pslcBytes = (if pslc then s.media.pslcBytes + 98304 else s.media.pslcBytes) ∧
        t.nvme = s.nvme ∧ t.host = s.host ∧ t.jobs = s.jobs) ∧
    (∀ b, s.unprogrammed nsid lba = some b → s.writeOk = true → s.boot.phase = .ready → s.placeable g page pslc = true →
      s.group? g = none → 1524 ≤ s.freeGroups → s.unerased g = true → ∃ u : State,
        u = { s with media := { s.media with groups := s.media.groups ++ [{ pos := g, st := .erasing }] } } ∧
        exec (.writeBufferProgram nsid lba g page) s = .next (u.eraseGroup g)) ∧
    (s.unprogrammed nsid lba = none ∨ s.writeOk = false ∨ s.placeable g page pslc = false →
      exec (.writeBufferProgram nsid lba g page) s = .next s) ∧
    (∀ b, s.unprogrammed nsid lba = some b → s.nvme.buffer.contains b = true ∧ b.nsid = nsid ∧ b.lba = lba)

/-- Die operations end: a read has its page, is tried again, or its page is reconstructed; a program counts for its stripe, or its block retires; an erase frees its
block. The queue has 131,072 slots: an operation that waits for one does not end. An erase can be suspended twelve times, and goes on when it resumes; a die operation
past its limit resets its die: the read is tried again, the member fails, the erase is cut off; a second such time retires the block. THE MODEL'S READINGS AND CHOICES
here: assumption log 28. -/
def Obligations.DieOperationsEnd : Prop :=
  ((∀ (s : State) (k : Nat) (ok : Bool), (∀ o ∈ s.media.ops.take 131072, o.key ≠ k) →
     exec (.flashReadDone k ok) s = .next s ∧ exec (.flashProgramDone k ok) s = .next s ∧ exec (.flashEraseDone k ok) s = .next s ∧
     exec (.eraseSuspend k) s = .next s ∧ exec (.eraseResume k) s = .next s ∧ exec (.dieOpTimeout k) s = .next s) ∧
   ∀ (s : State) (o : MediaOp), (s.media.ops.take 131072).find? (fun x => x.key == o.key) = some o →
     let read := (s.servedBy o).modBay o.bay fun b => b.modBlock (b.phys o.group) fun x => { x with reads := x.reads + 1 }
     (o.kind = 0 → exec (.flashReadDone o.key true) s = .next ((read.dropOp o.key).modBay o.bay fun b =>
         (b.count 0 1).count 3 (if 0 < o.tries then 1 else 0)) ∧
       (o.tries < 4 → exec (.flashReadDone o.key false) s = .next (read.modOp o.key fun o => { o with tries := o.tries + 1 }).feed.tidy) ∧
       (4 ≤ o.tries → exec (.flashReadDone o.key false) s =
         .next (((read.dropOp o.key).modBay o.bay fun b => (b.count 0 1).count 4 1).originalBad o.read false).feed.tidy)) ∧
     (o.kind = 1 → exec (.flashProgramDone o.key true) s =
         .next (((s.dropOp o.key).modBay o.bay fun b => b.count 1 1).memberDone o.stripe o.bay true) ∧
       ∃ u : State, u = ((((s.dropOp o.key).modBay o.bay fun b => b.count 1 1).voidStripe o.stripe).retireBlock o.bay o.group) ∧
         exec (.flashProgramDone o.key false) s = .next (if u.movable o.group then (u.relocate o.group).settleStripes else u.settleStripes)) ∧
     (o.kind = 2 → o.suspended = false →
       (∃ u : State, u = (((s.dropOp o.key).modBay o.bay fun b => (b.count 2 1).modBlock (b.phys o.group) fun x => { x with
           st := .free, erases := x.erases + 1, reads := 0, durable := 0, pslc := false, timeouts := 0 }).updateWear o.bay) ∧
         exec (.flashEraseDone o.key true) s = .next (u.freeErased o.group)) ∧
       exec (.flashEraseDone o.key false) s = .next (((s.dropOp o.key).retireBlock o.bay o.group).freeErased o.group)) ∧
     (o.kind = 2 → o.suspended = true → ∀ ok, exec (.flashEraseDone o.key ok) s = .next s)) ∧
  (∀ (s : State) (o : MediaOp), (s.media.ops.take 131072).find? (fun x => x.key == o.key) = some o → o.bay < 8 →
     (o.kind = 2 → o.suspended = false → o.suspends < 12 → ∃ t : State, exec (.eraseSuspend o.key) s = .next t ∧
       t.media.ops = s.media.ops.map (fun x => if x.key == o.key then { x with suspended := true, suspends := x.suspends + 1, served := 0 } else x) ∧
       ((t.bay o.bay).block ((t.bay o.bay).phys o.group)).st = .suspended ∧ t.media.groups = s.media.groups ∧ t.nvme = s.nvme) ∧
     (o.kind = 2 → o.suspended = true ∨ 12 ≤ o.suspends → exec (.eraseSuspend o.key) s = .next s) ∧
     (o.kind = 2 → o.suspended = true → ∃ t : State, exec (.eraseResume o.key) s = .next t ∧
       t.media.ops = s.media.ops.map (fun x => if x.key == o.key then { x with suspended := false, served := 0 } else x) ∧
       ((t.bay o.bay).block ((t.bay o.bay).phys o.group)).st = .erasing ∧ t.media.groups = s.media.groups ∧ t.nvme = s.nvme) ∧
     (o.kind = 2 → o.suspended = false → exec (.eraseResume o.key) s = .next s) ∧
     (let u := s.modBay o.bay fun b => b.modBlock (b.phys o.group) fun x => { x with timeouts := x.timeouts + 1 }
       let v := if o.kind = 0 then (u.readFailed o).feed.tidy
         else if o.kind = 1 then ((u.dropOp o.key).modGroup o.group fun x => { x with st := .closed }).memberDone o.stripe o.bay false
         else (u.cutErase o).freeErased o.group
       (((u.bay o.bay).block ((u.bay o.bay).phys o.group)).timeouts < 2 → exec (.dieOpTimeout o.key) s = .next v) ∧
       (2 ≤ ((u.bay o.bay).block ((u.bay o.bay).phys o.group)).timeouts → exec (.dieOpTimeout o.key) s = .next (v.retireBlock o.bay o.group))))

/-- Space is made and kept: a closed group without valid pages goes first; below 6,098 free groups the best-scored one gives way; pSLC folds into QLC; a block read too
often is refreshed; nothing is lost: every valid page of a group that gives way is valid in another. THE MODEL'S READINGS AND CHOICES here: assumption log 28. -/
def Obligations.GroupsAreMovedAndErased : Prop :=
  ∀ s : State, s.writeOk = true → s.boot.phase = .ready → s.power.st < 3 →
    (∀ x, s.media.groups.find? (fun x => x.st == .closed && x.valid.isEmpty) = some x → exec .garbageCollection s = .next (s.relocate x.pos)) ∧
    (s.media.groups.find? (fun x => x.st == .closed && x.valid.isEmpty) = none → 6098 ≤ s.freeGroups → exec .garbageCollection s = .next s) ∧
    (∀ x, s.media.groups.find? (fun x => x.st == .closed && x.valid.isEmpty) = none → s.freeGroups < 6098 → s.gcVictim = some x →
      exec .garbageCollection s = .next (s.relocate x.pos)) ∧
    (∀ x, s.group? x.pos = some x → x.valid ≠ [] → ∀ p ∈ x.valid, ∃ g ∈ (s.relocate x.pos).media.groups,
      g.pos ≠ x.pos ∧ ∃ k, (k, p.2) ∈ g.valid) ∧
    (∀ x target page, s.group? x.pos = some x → x.pslc = true → x.st = .closed → (∀ t ∈ s.media.stripes, t.group ≠ x.pos) → target ≠ x.pos →
      s.placeable target page false = true → page + x.valid.length ≤ 3072 → x.valid ≠ [] →
      ∃ u : State, u = (s.appendPages target (x.valid.map (·.2))).modMedia (fun m => { m with pslcBytes := m.pslcBytes - 98304 * x.pages }) ∧
        exec (.fold x.pos target page) s = .next (u.eraseGroup x.pos)) ∧
    (∀ (bay : Fin 8) g, s.movable g = true →
      let b := (s.bay bay).block ((s.bay bay).phys g)
      ((if b.pslc then 500000 else 60000) ≤ b.reads → exec (.readDisturbRefresh bay g) s = .next (s.relocate g)) ∧
      (b.reads < (if b.pslc then 500000 else 60000) → exec (.readDisturbRefresh bay g) s = .next s))

/-- The map's journal and checkpoints, and the counters made durable: a journal program commits every write whose blocks all have a durable stripe, and those stripes
are gone; a checkpoint takes the other copy. THE MODEL'S READINGS AND CHOICES here: assumption log 28. -/
def Obligations.JournalAndCheckpointsAreKept : Prop :=
  ∀ s : State,
    (s.writeOk = true → s.media.journal ≠ [] →
      let done := s.journalSeqs.filter s.allStriped
      let u := done.foldl State.commitWrite s
      let left := u.media.stripes.filter fun t => !(done.any t.carries)
      exec .journalProgram s = .next (({ u with media := { u.media with
        stripes := left, journal := u.media.journal.filter fun k => left.any (·.key == k)
        journalBytes := u.media.journalBytes + 18432, seq := u.media.seq + 8 } } : State).pruneValid)) ∧
    (s.writeOk = false ∨ s.media.journal = [] → exec .journalProgram s = .next s) ∧
    (s.writeOk = true → exec .mapCheckpoint s =
      .next { s with media := { s.media with checkpoint := 1 - s.media.checkpoint, journalBytes := 0 } }) ∧
    (s.writeOk = false → exec .mapCheckpoint s = .next s) ∧
    (∃ t : State, exec .counterPersist s = .next t ∧ (∀ n : Fin 8, t.media.bays[n] = if s.media.bays[n].isReadable then
        { s.media.bays[n] with durable := s.media.bays[n].counters
                               blocks := s.media.bays[n].blocks.map fun x => (x.1, { x.2 with durable := x.2.reads }) }
        else s.media.bays[n]) ∧ t.nvme = s.nvme ∧ t.media.groups = s.media.groups)

/-- A caddy is inserted, trained, authenticated and classed in that order; a failure refuses it and powers its bay down; a command out of its order changes nothing. The
class of a caddy decides what becomes of it: one that returns resumes as the member it was; a stale one loses its blocks' contents and joins to be rebuilt; a blank one
is adopted; a foreign one is held and not read. THE MODEL'S READINGS AND CHOICES here: assumption log 30. -/
def Obligations.CaddiesAreBroughtUp : Prop :=
  (∀ (s : State) (n : Fin 8),
     let b := s.media.bays[n]
     let bay := fun x : Bay => ({ s with media := { s.media with bays := s.media.bays.set n x } } : State)
     (b.present = false → ∃ u : State, u = bay { b with
         present := true, stage := .idle, serial := 0, st := 0, lever := false, announced := false, quiet := false, member := none
         readOnly := false, safe := false } ∧ exec (.caddyInsert n) s = .next (if u.bayPower then u.powerBay n else u)) ∧
     (b.present = true → exec (.caddyInsert n) s = .next s) ∧
     (∀ lanes : Fin 13, b.stage = .powering → 8 ≤ lanes.val →
       exec (.caddyLinkTrained n lanes) s = .next (bay { b with stage := .linked, lanes := lanes.val })) ∧
     (∀ lanes : Fin 13, b.stage = .powering → lanes.val < 8 → exec (.caddyLinkTrained n lanes) s = .next (s.refuseCaddy n)) ∧
     (∀ id : CaddyIdent, b.stage = .linked →
       let u := bay { b with serial := id.serial, rated := id.rated, stage := .authentic }
       (id.magicOk = true ∧ id.formatOk = true ∧ id.compat = 1 ∧ id.keyDigestOk = true ∧ id.chainOk = true ∧ id.sigOk = true →
         exec (.caddyAuthenticate n id) s = .next u) ∧
       (id.magicOk = false ∨ id.formatOk = false ∨ id.compat ≠ 1 ∨ id.keyDigestOk = false ∨ id.chainOk = false ∨ id.sigOk = false →
         exec (.caddyAuthenticate n id) s = .next (u.refuseCaddy n))) ∧
     (∀ lanes id found, b.stage = .idle ∨ b.stage = .up → exec (.caddyLinkTrained n lanes) s = .next s ∧
       exec (.caddyAuthenticate n id) s = .next s ∧ exec (.caddyClassify n found) s = .next s)) ∧
  (∀ (s : State) (n : Fin 8) (found : CaddyMeta), s.media.bays[n].stage = .authentic →
     (found.badMapOk = false → exec (.caddyClassify n found) s = .next (s.refuseCaddy n)) ∧
     (found.badMapOk = true → ∃ u : State,
       u = s.modBay n (fun b => { b with
         stage := .up, wearUsed := found.wearUsed, spareLeft := found.spareLeft, readOnly := false
         counters := Vector.ofFn fun (i : Fin 8) => found.counters.getD i.val 0
         durable := Vector.ofFn fun (i : Fin 8) => found.counters.getD i.val 0 }) ∧
       (s.classOf n found = .foreign → exec (.caddyClassify n found) s =
         .next ((u.postInserted n 1).modBay n fun b => { b with st := 4, member := none })) ∧
       (s.classOf n found = .blank → exec (.caddyClassify n found) s = .next ((u.postInserted n 1).adopt n)) ∧
       (s.classOf n found = .returning → found.wearUsed < 100 → ∃ v : State,
         v = (if s.media.bays[n].member.isSome then u else u.postInserted n 1) ∧ exec (.caddyClassify n found) s = .next (v.modBay n fun b => { b with
         member := found.membership, st := if b.rebuild.isSome then 2 else 1, absent := b.rebuild.isSome, announced := true, quiet := false })) ∧
       (s.classOf n found = .returning → 100 ≤ found.wearUsed → ∃ t : State, exec (.caddyClassify n found) s = .next t ∧
         t.media.bays[n].readOnly = true ∧ t.media.bays[n].st = 3 ∧ t.media.bays[n].member = found.membership) ∧
       (s.classOf n found = .stale → ∃ v w : State, v = (u.postInserted n 1).forgetBlocks n ∧
         w = (if s.media.unrecorded.contains s.media.bays[n].serial then (v.wearEntry n 3).modMedia fun m => { m with
           unrecorded := m.unrecorded.erase s.media.bays[n].serial } else v) ∧
         exec (.caddyClassify n found) s =
           .next (((w.modBay n fun b => { b with member := some (0, n.val, 0), st := 1, absent := true }).bumpEpoch).joinSet n))) ∧
     (s.classOf n found = .foreign ↔ found.readable = false ∨ ∃ d b e, found.membership = some (d, b, e) ∧ d ≠ s.sec.identity.toNat % 2 ^ 64) ∧
     (s.classOf n found = .blank ↔ found.readable = true ∧ found.membership = none) ∧
     (s.classOf n found = .returning ↔ found.readable = true ∧
       found.membership = some (s.sec.identity.toNat % 2 ^ 64, n.val, s.media.epoch) ∧ s.lacks n = false ∧ s.media.bays[n].absent = false))

/-- A removal: the host's request or the lever begins it, in PROVISIONED and OPERATIONAL; once the bay is quiet the caddy is safe, announced and out of the set; pulled
or lost without that, its member is absent at once. THE MODEL'S READINGS AND CHOICES here: assumption log 11, 30. -/
def Obligations.CaddiesLeave : Prop :=
  ∀ (s : State) (n : Fin 8),
    let b := s.media.bays[n]
    let owned := s.sec.lifecycle = .provisioned ∨ s.sec.lifecycle = .operational
    let asked := fun t : State => t.media.bays[n].removing = true ∧ t.media.bays[n].rebuild = none ∧
      t.media.rebuilds = s.media.rebuilds.erase n.val ∧ t.media.groups = s.media.groups ∧ t.nvme = s.nvme ∧ t.jobs = s.jobs
    (owned → b.present = true → b.st ≠ 7 → b.st ≠ 5 → ∃ t, exec (.bayRemove n) s = .next t ∧ asked t) ∧
    (¬ owned → exec (.bayRemove n) s = .next s ∧ exec (.bayAdopt n) s = .next s) ∧
    (owned → b.st = 4 → exec (.bayAdopt n) s = .next (s.adopt n)) ∧ (b.st ≠ 4 → exec (.bayAdopt n) s = .next s) ∧
    (b.present = true → b.st = 1 ∨ b.st = 2 ∨ b.st = 3 ∨ b.st = 6 → ∃ t, exec (.leverOpen n) s = .next t ∧ asked t ∧ t.media.bays[n].lever = true) ∧
    (b.present = true → b.st = 5 → ∃ t, exec (.leverOpen n) s = .next t ∧ t.media.bays[n] = { b with lever := true, safe := true }) ∧
    (b.present = true → b.safe = true → s.bayPower = true → n.val ∉ s.boot.engines → ∃ t, exec (.leverClose n) s = .next t ∧
      t.media.bays[n].stage = .powering ∧ t.media.bays[n].safe = false ∧ t.media.bays[n].lever = false ∧ t.media.bays[n].tripped = false) ∧
    (b.present = false ∨ b.safe = false → ∃ t, exec (.leverClose n) s = .next t ∧
      t = { s with media := { s.media with bays := s.media.bays.set n { b with lever := false } } }) ∧
    (b.removing = true → (∀ o ∈ s.media.ops, o.bay ≠ n.val) → ∃ t, exec (.removalQuiesced n) s = .next t ∧
      t.media.bays[n].removing = false ∧ t.media.bays[n].safe = true ∧ t.media.bays[n].st = 7 ∧ t.media.bays[n].member = none ∧
      t.media.bays[n].announced = false ∧ t.media.bays[n].stage = .idle) ∧
    (b.removing = false ∨ (∃ o ∈ s.media.ops, o.bay = n.val) → exec (.removalQuiesced n) s = .next s) ∧
    (b.present = true → b.stage ≠ .idle → ∃ u v t : State, u = (s.postRemoved n).modBay n (fun b => { b with
        present := false, stage := .idle, st := 0, lanes := 0, removing := false, safe := false, tripped := false, readOnly := false }) ∧
      v = (if b.member.isSome then u.modMedia fun m => { m with unrecorded := m.unrecorded ++ [b.serial] } else u) ∧
      t = (v.cutBay n).leaveSet n ∧ t.media.bays[n].member = none ∧
      exec (.caddySurpriseRemoval n) s = .next (t.modBay n fun b => { b with serial := 0 })) ∧
    (b.present = true → b.stage = .idle → ∃ t, exec (.caddyPulled n) s = .next t ∧
      t.media.bays[n].present = false ∧ t.media.bays[n].serial = 0 ∧ (b.st ≠ 7 → t.media.bays[n].member = none)) ∧
    (b.present = true → b.stage ≠ .idle → b.st ≠ 7 → b.st ≠ 5 → ∃ t, exec (.caddyTrip n) s = .next t ∧ asked t ∧ t.media.bays[n].tripped = true) ∧
    (b.present = true → b.tripped = true → b.stage = .idle → s.bayPower = true → n.val ∉ s.boot.engines → ∃ t, exec (.caddyCoolExpiry n) s = .next t ∧
      t.media.bays[n].stage = .powering ∧ t.media.bays[n].tripped = false)

/-- A rebuild walks the groups in order: the stripes it passes get the bay's member, the mark moves past them, and at the last group the member counts again. A lane
whose frames fail leaves service; below eight lanes the caddy has failed and its member is absent. THE MODEL'S READINGS AND CHOICES here: assumption log 30. -/
def Obligations.RebuildsWalkTheGroups : Prop :=
  (∀ (s : State) (n : Fin 8) (k : Nat) (rest : List Nat), s.media.bays[n].rebuild = some k → k < 304896 →
     s.media.rebuilds = n.val :: rest → s.media.bays[n].isWritable = true → 6 ≤ (s.readables.filter (· != n.val)).length →
     s.power.st < 3 → s.boot.phase = .ready →
     ∃ (t : State) (stop : Nat), exec (.rebuildGroup n) s = .next t ∧ k < stop ∧ stop ≤ 304896 ∧
       t.media.groups = s.media.groups.map (fun g => if k ≤ g.pos ∧ g.pos < stop then { g with
         degraded := (g.degraded.map fun d => (d.1, d.2.filter (· != n.val))).filter fun d => !d.2.isEmpty } else g) ∧
       (stop < 304896 → t.media.bays[n].rebuild = some stop ∧ t.media.rebuilds = s.media.rebuilds) ∧
       (stop = 304896 → t.media.bays[n].rebuild = none ∧ t.media.bays[n].absent = false ∧ t.media.bays[n].st = 1 ∧ t.media.rebuilds = rest) ∧
       t.nvme = s.nvme ∧ t.jobs = s.jobs) ∧
  (∀ (s : State) (n : Fin 8) (lane : Fin 12),
     let b := s.media.bays[n]
     (b.stage ≠ .idle → b.stage ≠ .powering → lane.val ∉ b.lanesOut → 9 ≤ b.lanes → ∃ t, exec (.caddyLaneFrameFail n lane) s = .next t ∧
       t.media = { s.media with bays := s.media.bays.set n { b with lanes := b.lanes - 1, lanesOut := b.lanesOut ++ [lane.val] } }) ∧
     (b.stage ≠ .idle → b.stage ≠ .powering → lane.val ∉ b.lanesOut → 0 < b.lanes → b.lanes ≤ 8 →
       ∃ u t : State, u.media = { s.media with bays := s.media.bays.set n { b with
           st := 6, stage := .idle, lanes := 0, lanesOut := b.lanesOut ++ [lane.val] } } ∧ u.nvme = s.nvme ∧ u.jobs = s.jobs ∧
         t = (u.cutBay n).memberAbsent n ∧ t.media.bays[n].absent = true ∧ exec (.caddyLaneFrameFail n lane) s = .next t) ∧
     (b.stage = .idle ∨ b.stage = .powering ∨ lane.val ∈ b.lanesOut ∨ b.lanes = 0 → exec (.caddyLaneFrameFail n lane) s = .next s))

-- Peer links

/-- A port trains in its order: signal, `HELLO`, the elements' authentication, and UP with the credits of Table 14.6 on the lanes whose optical engines work; a check
that fails makes it MISMATCH with its cause; a training past its limit returns it to DOWN; a header with a reserved field set is dropped and counted. THE MODEL'S
READINGS AND CHOICES here: assumption log 33, 59. -/
def Obligations.PortsTrain : Prop :=
  ∀ (s : State) (n : Fin 4),
    let p := s.ports[n]
    let port := fun q : Port => ({ s with ports := s.ports.set n q } : State)
    let held := p.st = .training ∨ p.st = .retraining
    (s.portAllowed n = true → p.st = .down ∨ p.st = .mismatch → exec (.peerSignalDetect n) s = .next (port { p with
      st := .training, cause := 0, authed := false, helloDigest := none, ordinal := 7, digest := 0, lanes := 0, present := false })) ∧
    (s.portAllowed n = false → exec (.peerSignalDetect n) s = .next s) ∧
    (p.st = .training → exec (.linkTrainTimeout n) s = .next (port { p with st := .down, lanes := 0 })) ∧
    (p.st ≠ .training → exec (.linkTrainTimeout n) s = .next s) ∧
    (∀ h : HelloPkt, held → h.hdr.reserved = true → exec (.hello n h) s = .next (s.count 6 n 12 1)) ∧
    (∀ h : HelloPkt, held → h.hdr.reserved = false →
      let u := port { p with ordinal := h.own % 8 }
      (h.groupId = s.groupId → s.groupId ≠ 0 → h.own = s.portOrdinal n → h.expects = s.self → h.fwMajor = 4 →
        s.portDigest n = 0 ∨ h.digest = s.portDigest n → ∃ t : State, exec (.hello n h) s = .next t ∧ t = port { p with
          ordinal := h.own % 8, helloDigest := some h.digest
          authed := p.authed && p.st == .retraining && p.digest == h.digest }) ∧
      (h.groupId ≠ s.groupId → exec (.hello n h) s = .next (u.mismatch n 1)) ∧
      (h.groupId = s.groupId → s.groupId ≠ 0 → h.own ≠ s.portOrdinal n ∨ h.expects ≠ s.self → exec (.hello n h) s = .next (u.mismatch n 2)) ∧
      (h.groupId = s.groupId → s.groupId ≠ 0 → h.own = s.portOrdinal n → h.expects = s.self →
        (h.fwMajor ≠ 4 → exec (.hello n h) s = .next (u.mismatch n 3)) ∧
        (h.fwMajor = 4 → s.portDigest n ≠ 0 → h.digest ≠ s.portDigest n → exec (.hello n h) s = .next (u.mismatch n 4)))) ∧
    (∀ (hdr : PktHdr), held →
      let mine := hdr.reserved = false ∧ hdr.groupId = s.groupId ∧ hdr.dst = s.self ∧ hdr.src = p.ordinal
      (¬ mine → ∀ e, exec (.spdmPeerMessage n hdr e) s = .next (s.count 6 n 12 1)) ∧
      (∀ d, mine → p.helloDigest = some d → p.authed = false →
        exec (.spdmPeerMessage n hdr (some d)) s = .next (port { p with authed := true, digest := d }) ∧
        (∀ e, e ≠ some d → exec (.spdmPeerMessage n hdr e) s = .next (s.mismatch n 5)))) ∧
    (∀ lanes : Fin 9,
      let lit := ((List.range 8).filter fun l => !s.boot.engines.contains (2 * n.val + l / 4)).take lanes.val
      let mask := BitVec.ofNat 8 ((lit.map fun l => 2 ^ l).sum)
      (held → p.authed = true → p.helloDigest ≠ none → 4 ≤ lit.length →
        (p.st = .training → exec (.linkUp n lanes) s = .next ((port { p with
          st := .up, lanes := mask, fails := 0, credits := #v[256, 1280, 1280, 1280], replay := [], txSeq := 0
          acked := 0, rxSeq := 0, nakDue := false }).memberBack p.ordinal).sendStatus) ∧
        (p.st = .retraining → exec (.linkUp n lanes) s = .next (port { p with
          st := .up, lanes := mask, fails := 0 }).sendStatus)) ∧
      (¬ held ∨ p.authed = false ∨ p.helloDigest = none ∨ lit.length < 4 → exec (.linkUp n lanes) s = .next s)) ∧
    (p.st = .training → (s.mismatch n 5).ports[n].st = .mismatch ∧ (s.mismatch n 5).ports[n].cause = 5)

/-- Flits: one that fails its check asks for a replay and, the eighth time in a row, retrains the link; a good one acknowledges and is taken in sequence only. A lane
that leaves, a retrain, and a hold past its limit. THE MODEL'S READINGS AND CHOICES here: assumption log 33. -/
def Obligations.FlitsAreTakenInSequence : Prop :=
  ∀ (s : State) (n : Fin 4),
    let p := s.ports[n]
    let port := fun q : Port => ({ s with ports := s.ports.set n q } : State)
    (∀ f : FlitIn, p.st = .up → f.checkOk = false →
      (p.fails < 7 → exec (.flitReceive n f) s = .next (port { p with nakDue := true, fails := p.fails + 1 })) ∧
      (7 ≤ p.fails → exec (.flitReceive n f) s = .next ((port { p with nakDue := true, fails := p.fails + 1 }).retrain n))) ∧
    (∀ f : FlitIn, p.st = .up → f.checkOk = true →
      let q := { p with
        replay := if f.ackValid then ackTo p.replay f.ackSeq else p.replay
        acked := if f.ackValid then (f.ackSeq + 1) % 4096 else p.acked
        credits := p.credits.set f.crTc (min (#v[256, 1280, 1280, 1280][f.crTc]) (p.credits[f.crTc] + f.crCount)) }
      ∃ u : State, u = (if f.nak then (port q).count 6 n 8 q.replay.length else port q) ∧
      (f.seq = p.rxSeq → exec (.flitReceive n f) s = .next (({ u with ports := u.ports.set n { q with
        rxSeq := (p.rxSeq + 1) % 4096, fails := 0, nakDue := false
        owed := if f.idle then p.owed else p.owed.set f.tc (p.owed[f.tc] + 1) } } : State).count 6 n (4 + f.tc.val) 1)) ∧
      (f.seq ≠ p.rxSeq → exec (.flitReceive n f) s = .next u)) ∧
    (∀ lane : Fin 8, p.st = .up → p.lanes.getLsbD lane = true → ∃ t : State,
      t = (port { p with lanes := p.lanes &&& ~~~(BitVec.ofNat 8 (2 ^ lane.val)) }).count 6 n 9 1 ∧
      (t.ports[n].lanes.getLsbD lane = false) ∧
      exec (.peerLaneOut n lane) s = .next (if t.ports[n].laneCount < 4 then t.retrain n else t)) ∧
    (∀ lane : Fin 8, p.st ≠ .up ∨ p.lanes.getLsbD lane = false → exec (.peerLaneOut n lane) s = .next s) ∧
    (p.st = .up → exec (.linkRetrain n) s = .next (s.retrain n) ∧
      (s.retrain n).ports[n] = { p with st := .retraining, helloDigest := none, fails := 0 }) ∧
    (p.st ≠ .up → exec (.linkRetrain n) s = .next s ∧ ∀ f, exec (.flitReceive n f) s = .next s) ∧
    (p.st = .retraining → exec (.linkHoldExpiry n) s = .next (s.linkLoss n)) ∧
    (p.st ≠ .retraining → exec (.linkHoldExpiry n) s = .next s)

/-- A packet acts only when its link is up and its header names this module, its group and the peer of the port; any other is dropped and counted. `STATUS` makes the
peer present or absent, silence makes it absent, and the timer tells every peer that is up. A peer's close of the step under way is held for the next step's start. THE
MODEL'S READINGS AND CHOICES here: assumption log 34. -/
def Obligations.StatusMakesPeersPresent : Prop :=
  ∀ (s : State) (n : Fin 4) (h : PktHdr),
    let p := s.ports[n]
    let mine := h.reserved = false ∧ h.groupId = s.groupId ∧ h.dst = s.self ∧ h.src = p.ordinal
    (∀ state power steps, p.st = .up → mine → exec (.statusPacket n h state power steps) s =
      .next { s with ports := s.ports.set n { p with present := decide (state ≤ 1), hold := state == 1 } }) ∧
    (∀ state power steps, p.st = .up → ¬ mine → exec (.statusPacket n h state power steps) s = .next (s.count 6 n 12 1)) ∧
    (∀ state power steps, p.st ≠ .up → exec (.statusPacket n h state power steps) s = .next s) ∧
    (exec (.peerStatusTimeout n) s = .next { s with ports := s.ports.set n { p with present := false, hold := false } }) ∧
    (∃ t : State, exec .statusTimer s = .next t ∧ t = s.sendStatus ∧ t.jobs = s.jobs ∧ t.media = s.media ∧
      ∀ m : Fin 4, (s.ports[m].st ≠ .up → t.ports[m] = s.ports[m]) ∧
        (s.ports[m].st = .up → ∃ k, t.ports[m].sent = k :: s.ports[m].sent ∧ k.type = 0x03 ∧ k.dst = s.ports[m].ordinal)) ∧
    (let l := (s.pot s.servingPot).loop
      let now := if l.running then l.count else (l.count + 4294967295) % 4294967296
      (∀ k recs, p.st = .up → mine → p.ordinal ∉ s.stepPeers s.servingPot ∨ k = now → exec (.stepClose n h k recs) s =
        .next (s.modPot s.servingPot fun q => { q with loop := { q.loop with
          peers := q.loop.peers.erase p.ordinal, closes := q.loop.closes ++ [(p.ordinal, k, recs)] } })) ∧
      (∀ k recs, p.st = .up → mine → p.ordinal ∈ s.stepPeers s.servingPot → k ≠ now → exec (.stepClose n h k recs) s = .next s))

/-- Transfers: an announce is granted, withheld or refused; a grant sends what it allows; data within the grant is kept, and a whole transfer takes effect; an answer
ends the sender's transfer; a cancel releases the receiver's; a grant that does not come ends the job's items. A standing grant carries a step's records, and an answer
whose status the protocol does not give is dropped and counted. THE MODEL'S READINGS AND CHOICES here: assumption log 33, 59. -/
def Obligations.TransfersRun : Prop :=
  ∀ (s : State) (n : Fin 4) (h : PktHdr),
    let p := s.ports[n]
    p.st = .up → h.reserved = false → h.groupId = s.groupId → h.dst = s.self → h.src = p.ordinal →
    let port := fun q : Port => ({ s with ports := s.ports.set n q } : State)
    let ends := h.status ∈ [0x00, 0x01, 0x02, 0x10, 0x11, 0x12, 0x20, 0x21, 0x22, 0x30, 0x31, 0x40, 0x41, 0x50]
    (∀ d : XferDesc, d.reserved = false →
      (∀ st, s.announceFail p.ordinal d = some st → exec (.announce n h d) s = .next (s.nakXfer n h.xfer st)) ∧
      (s.announceFail p.ordinal d = none →
        let x : XferIn := { tag := h.xfer, desc := d, jobId := h.jobId, layer := BitVec.ofNat 16 h.layer, oper := BitVec.ofNat 16 h.oper, tc := h.tc, withheld := d.kind == 1 }
        let u := port { p with inn := p.inn ++ [x] }
        (d.kind = 1 → exec (.announce n h d) s = .next (u.decideWrite n x)) ∧ (d.kind ≠ 1 → exec (.announce n h d) s = .next (u.grantXfer n x)))) ∧
    (∀ x, h.standing = false → p.out.find? (fun x => x.tag == h.xfer && !x.standing) = some x → 1 ≤ h.arg → h.arg ≤ 1048576 →
      exec (.xferReady n h) s = .next (s.sendGranted n x (x.granted + h.arg))) ∧
    (h.standing = false → p.out.find? (fun x => x.tag == h.xfer && !x.standing) = none → exec (.xferReady n h) s = .next s) ∧
    (∀ (x : XferIn) payload, h.standing = false → s.inn? n h.xfer = some x → x.withheld = false → h.arg = x.got → payload.length ≤ 4096 →
      x.got + payload.length ≤ min x.granted x.desc.total →
      let y := { x with got := x.got + payload.length, data := if x.desc.kind = 1 then [] else x.data ++ payload }
      let v := if x.desc.kind = 1 then s.placeBytes x h.arg payload else s
      let u : State := { v with ports := s.ports.set n { p with inn := p.inn.map fun z => if z.tag == x.tag && !z.standing then y else z } }
      (x.desc.total = y.got → exec (.dataPacket n h payload) s = .next (u.takeXfer n y)) ∧
      (y.got < x.desc.total → x.granted = y.got → exec (.dataPacket n h payload) s = .next (u.grantXfer n y)) ∧
      (y.got < x.desc.total → y.got < x.granted → exec (.dataPacket n h payload) s = .next u)) ∧
    (∀ (x : XferIn) payload, h.standing = false → s.inn? n h.xfer = some x →
      x.withheld = true ∨ h.arg ≠ x.got ∨ min x.granted x.desc.total < h.arg + payload.length ∨ 4096 < payload.length →
      exec (.dataPacket n h payload) s = .next (s.count 6 n 12 1)) ∧
    (h.standing = true → exec (.xferReady n h) s = .next ((port { p with out := p.out.filter (fun x => !x.standing) ++
      [{ tag := h.xfer, tc := 1, granted := h.arg, announced := false, standing := true }] }).shareStep s.servingPot)) ∧
    (∀ (x : XferIn) payload, h.standing = true → p.inn.find? (fun x => x.tag == h.xfer && x.standing) = some x →
      h.arg = x.got → h.arg + payload.length ≤ x.granted → payload.length ≤ 4096 →
      let y := { x with got := x.got + payload.length, data := x.data ++ payload }
      (h.last = true → exec (.dataPacket n h payload) s = .next (s.takeRecords n x y)) ∧
      (h.last = false → exec (.dataPacket n h payload) s = .next (port { p with inn := p.inn.map fun z => if z = x then y else z }))) ∧
    ((ends → h.standing = false → exec (.xferDone n h) s = .next (s.closeXfer n h.xfer h.status)) ∧
      (ends → exec (.peerNak n h) s = .next (s.closeXfer n h.xfer (if h.status < 0x10 then 0x10 else h.status))) ∧
      (¬ ends → exec (.xferDone n h) s = .next (s.count 6 n 12 1) ∧ exec (.peerNak n h) s = .next (s.count 6 n 12 1))) ∧
    (∀ x, p.out.find? (fun x => x.tag == h.xfer && !x.standing) = some x → ∃ u : State, u = port { p with
        out := p.out.filter fun y => !(y.tag == h.xfer && !y.standing) } ∧
      ∀ st, s.closeXfer n h.xfer st = (let v := (u.xferEnded n p.ordinal x st).announceWaiting n
        match v.job? x.job with | some j => (v.settlePoint j.pot).tidy | none => v.tidy)) ∧
    (s.inn? n h.xfer = none → exec (.cancel n h) s = .next s) ∧
    (∀ x, s.inn? n h.xfer = some x → ∃ u : State, exec (.cancel n h) s = .next u.used ∧
      (∀ y ∈ u.ports[n].inn, ¬ (y.tag = x.tag ∧ y.standing = false)) ∧ (∀ a ∈ u.embed.arrivals, a.link ≠ some (n.val, x.tag)) ∧ u.host = s.host ∧
      u.jobs = s.jobs ∧ ∃ k, u.ports[n].sent = k :: p.sent ∧ k.type = 0x08 ∧ k.xfer = x.tag ∧ (k.status = 0x31 ∨ k.status = 0x41)) ∧
    (∀ x, p.out.find? (fun x => x.tag == h.xfer && x.desc.kind == 1 && x.granted == 0 && !x.standing) = some x →
      ∃ u : State, u = port { p with out := p.out.filter fun y => !(y.tag == h.xfer && !y.standing) } ∧
      exec (.grantWaitExpiry n h.xfer) s = .next ((u.abortJob x.job 0x22).announceWaiting n).tidy)

-- Registers, trace and the probe

/-- A snapshot whose `SNAP_LEN` is below 64 writes nothing and leaves `BUSY` clear; while `BUSY` is set, writes to the snapshot fields are ignored. -/
def Obligations.ShortSnapshotsAndBusyFields : Prop :=
  ∀ (s : State) (fn : PcieFn),
    let k : Fin 9 := match fn with | .pf1 => 0 | .vf n => n.succ.castLE (by decide)
    let x := s.host.snaps[k]
    let base := match fn with | .pf1 => 0x200 | .vf _ => 0x800
    (x.busy = false → x.len.toNat < 64 → exec (.snapshotStart fn) s = .next s ∧ ∀ a b, exec (.snapshotDone fn a b) s = .next s) ∧
    (x.busy = false → s.boot.up = true → k.val ≤ s.host.numVfs → ∀ v : BitVec 64, v.toNat % 2 ^ 32 < 64 →
      ∃ t : State, exec (.registerWrite fn (base + 8) 8 v) s = .next t ∧ t.host.snaps[k].busy = false ∧ t.host.mem = s.host.mem) ∧
    (x.busy = true → exec (.snapshotStart fn) s = .next s ∧
      ∀ (off size : Nat) (v : BitVec 64), base ≤ off → off < base + 16 → exec (.registerWrite fn off size v) s = .next s)

/-- Registers: a snapshot that starts sets `BUSY`, and its end puts its records into host memory and clears `BUSY`; only an aligned access of 4 or 8 bytes writes a
register; the sideband reaches the identification and control blocks alone, and the module answers it. THE MODEL'S READINGS AND CHOICES here: assumption log 44. -/
def Obligations.RegistersAndSidebandAct : Prop :=
  ∀ (s : State) (fn : PcieFn),
    let k : Fin 9 := match fn with | .pf1 => 0 | .vf n => n.succ.castLE (by decide)
    let x := s.host.snaps[k]
    let reach := fun o : Nat => o < 0x80 ∨ (0x100 ≤ o ∧ o < 0x180)
    let answer := fun (t : State) (v : Option (BitVec 64)) => ({ t with host := { t.host with sideband := some v } } : State)
    (s.boot.up = true → k.val ≤ s.host.numVfs → 64 ≤ x.len.toNat → exec (.snapshotStart fn) s =
      .next { s with host := { s.host with snaps := s.host.snaps.set k { x with busy := true } } }) ∧
    (x.busy = true → ∀ a b, ∃ u t : State, u = s.hostWrite x.addr.toNat (s.snapshot k x a b) ∧ exec (.snapshotDone fn a b) s = .next t ∧
      t.host.snaps[k] = { x with busy := false } ∧ t.host.mem = u.host.mem ∧ t.free = u.free + 1 ∧ t.jobs = u.jobs ∧ t.media = u.media) ∧
    (∀ off size v, ¬ (size = 8 ∧ off % 8 = 0) → ¬ (size = 4 ∧ off % 4 = 0) → exec (.registerWrite fn off size v) s = .next s) ∧
    (s.boot.up = true → ∀ off v, off % 8 = 0 →
      let w : RegWrite := { val := v, mask := BitVec.allOnes 64 }
      exec (.registerWrite fn off 8 v) s = .next (match fn with | .pf1 => s.writePf1 off w | .vf n => s.writeVf n.val off w)) ∧
    (s.boot.up = true → ∀ off v, off % 8 = 4 →
      let w : RegWrite := { val := v <<< 32, mask := 0xFFFFFFFF00000000 }
      exec (.registerWrite fn off 4 v) s = .next (match fn with | .pf1 => s.writePf1 (off - 4) w | .vf n => s.writeVf n.val (off - 4) w)) ∧
    (s.sidebandUp = true → ∀ off v, reach off → off % 8 = 0 →
      exec (.sidebandRead off) s = .next (answer s (some (BitVec.ofNat 64 (s.readPf1 off)))) ∧
      (s.boot.up = true → exec (.sidebandWrite off v) s = .next ((answer s (some 0)).writePf1 off { val := v, mask := BitVec.allOnes 64 })) ∧
      (s.boot.up = false → exec (.sidebandWrite off v) s = .next (answer s (some 0)))) ∧
    (s.sidebandUp = true → ∀ off v, ¬ reach off → exec (.sidebandRead off) s = .next (answer s none) ∧
      exec (.sidebandWrite off v) s = .next (answer s none)) ∧
    (s.sidebandUp = false → ∀ off v, exec (.sidebandRead off) s = .next s ∧ exec (.sidebandWrite off v) s = .next s)

/-- Trace: the probe starts and stops it in SERVICE and OPEN; a source whose `SYNC` is due, and a marker pulse, put their records into the buffers of the sources that
run; a frame takes up to 63 records onto its lane; in CLOSED nothing leaves. THE MODEL'S READINGS AND CHOICES here: assumption log 13. -/
def Obligations.TraceRuns : Prop :=
  ∀ s : State,
    (s.traceAllowed = true → s.obs.tracing = true → ∀ mask period g, ∃ t : State, exec (.traceControl false mask period g) s = .next t ∧
      t.obs.tracing = false ∧ ∃ r : TraceRec, t.obs.buffer = s.obs.buffer ++ [r] ∧ r.kind = 0x0A ∧ r.source = 0x42 ∧ r.aux = 2) ∧
    (s.traceAllowed = true → ∀ period g, 1 ≤ period → period ≤ 1000 → ∃ t : State, exec (.traceControl true 0 period g) s = .next t ∧
      t.obs.tracing = true ∧ t.obs.mask = 0 ∧ t.obs.period = period ∧ t.obs.groupEn = g ∧
      ∃ r : TraceRec, t.obs.buffer = s.obs.buffer ++ [r] ∧ r.kind = 0x0A ∧ r.source = 0x42 ∧ r.aux = 1) ∧
    (∀ mask period g, s.traceAllowed = true → ∃ t : State, exec (.traceControl true mask period g) s = .next t ∧ t.jobs = s.jobs ∧
      t.host = s.host ∧ t.media = s.media ∧ t.cores = s.cores) ∧
    (∀ (n : Fin 67) c p, n.val < 66 → exec (.traceSyncTimer n c p) s = .next (s.sync n.val c p)) ∧
    (∀ (n : Fin 67) c p, n.val < 16 → s.obs.tracing = true → s.obs.mask.getLsbD n.val = true → s.obs.dropped = [] →
      (s.obs.buffer.filter fun x => x.source == n.val).length < 255 → ∃ r q : TraceRec, (s.sync n.val c p).obs.buffer = s.obs.buffer ++ [r, q] ∧
        r.kind = 1 ∧ r.source = n.val ∧ r.value = c ∧ q.kind = 2 ∧ q.source = n.val ∧ q.value = p) ∧
    (s.sidebandUp = true → ∀ l, ∃ t : State, exec (.markerPulse l) s = .next t ∧ t.obs.marker = s.obs.marker + 1 ∧ t.jobs = s.jobs ∧
      (s.obs.tracing = false ∨ s.obs.mask.getLsbD 0x41 = false → t.obs.buffer = s.obs.buffer)) ∧
    (s.traceAllowed = true → exec .traceFrame s = .next { s with obs := { s.obs with
      frames := (s.obs.frame.toNat % 4, s.obs.frame.toNat, s.obs.buffer.take 63) :: s.obs.frames, buffer := s.obs.buffer.drop 63
      frame := s.obs.frame + 1 } }) ∧
    (s.traceAllowed = false → exec .traceFrame s = .next s ∧ ∀ on mask period g, exec (.traceControl on mask period g) s = .next s)

/-- The probe: in CLOSED it reads and changes nothing; in SERVICE it reads counters and status registers; in OPEN it halts control cores and reads and writes memories
and registers; an access beyond its memory stops the run. THE MODEL'S READINGS AND CHOICES here: assumption log 19, 22, 44. -/
def Obligations.ProbeAccessFollowsTheDebugLevel : Prop :=
  ∀ s : State, s.sidebandUp = true →
    let read := fun b : Bytes => (Host.Outcome.next { s with obs := { s.obs with probe := some b } } : Host.Outcome State Fault Refusal)
    (s.sec.debug = .closed → ∀ a, exec (.jtagAccess a) s = .next s) ∧
    (∀ a, a = .idcode ∨ a = .bypass ∨ a = .sample ∨ a = .extest ∨ (∃ c, a = .stepCc c) → exec (.jtagAccess a) s = .next s) ∧
    (s.sec.debug ≠ .closed → ∀ f i k, exec (.jtagAccess (.readCounter f i k)) s = read (natLe 8 (s.counterBits f i k).toNat)) ∧
    (s.sec.debug ≠ .closed → ∀ off, off < 0x80 → off % 8 = 0 → exec (.jtagAccess (.readReg off)) s = read (natLe 8 (s.readPf1 off))) ∧
    (s.sec.debug = .service → ∀ t a n d c, exec (.jtagAccess (.readMem t a n)) s = .next s ∧ exec (.jtagAccess (.writeMem t a d)) s = .next s ∧
      exec (.jtagAccess (.halt c)) s = .next s ∧ exec (.jtagAccess (.resume c)) s = .next s) ∧
    (s.sec.debug = .opened →
      (∀ c : Fin 16, ∃ t : State, exec (.jtagAccess (.halt c)) s = .next t ∧ t.power.halted.getLsbD c = true ∧
        t = { s with power := { s.power with halted := t.power.halted } } ∧ (∀ d : Fin 16, d ≠ c → t.power.halted.getLsbD d = s.power.halted.getLsbD d)) ∧
      (∀ c : Fin 16, ∃ t : State, exec (.jtagAccess (.resume c)) s = .next t ∧ t.power.halted.getLsbD c = false ∧
        t = { s with power := { s.power with halted := t.power.halted } } ∧ (∀ d : Fin 16, d ≠ c → t.power.halted.getLsbD d = s.power.halted.getLsbD d)) ∧
      (∀ (n : Fin 52) (c : Fin 48) a d, s.mappedTo n.val = some c.val → a + d.length ≤ 20 * 2 ^ 20 →
        ∃ u : State, u = s.count 1 c 5 (partialWords a d.length) ∧ exec (.jtagAccess (.writeMem (.core n) a d)) s =
          .next { u with cores := s.cores.set c { s.cores[c] with
            store := Memory.writeN s.cores[c].store a d
            poison := s.cores[c].poison.filter fun r => !(decide (a ≤ r.1) && decide (r.1 + r.2.1 ≤ a + d.length)) } }) ∧
      (∀ (n : Fin 52) a k, a + k ≤ 20 * 2 ^ 20 → ∃ b : Bytes, b.length = k ∧ exec (.jtagAccess (.readMem (.core n) a k)) s =
        .next { s with free := s.free + 1, obs := { s.obs with probe := some b } } ∧
        ∀ c : Fin 48, s.mappedTo n.val = some c.val → ∀ i, i < k → b[i]? = some (Memory.read s.cores[c].store (a + i))) ∧
      (∀ (n : Fin 52) a k d, 20 * 2 ^ 20 < a + k → exec (.jtagAccess (.readMem (.core n) a k)) s = .fault .noSuchAddress ∧
        (d.length = k → exec (.jtagAccess (.writeMem (.core n) a d)) s = .fault .noSuchAddress)))
end

