-- ==== Sys2Proof/Laws/HeldBase.lean ====
section
/-! SUPPORT. What almost no command changes, as one projection of the state: the queue, the lifecycle, the owner key, the identity,
the anti-rollback counter and the straps; and the shapes through which operations keep it. -/

namespace Sys2Proof.Machine

/-- The parts of the state that almost no command changes. -/
structure Held where
  pending : List Instr
  lifecycle : Lifecycle
  ownerKey : Option Nat
  identity : BitVec 256
  rollback : Nat
  straps : BitVec 3

/-- The held part of a state. -/
def State.held (s : State) : Held :=
  { pending := s.pending, lifecycle := s.sec.lifecycle, ownerKey := s.sec.ownerKey, identity := s.sec.identity
    rollback := s.boot.rollback, straps := s.power.straps }

/-- A choice between two states keeps what both keep. -/
@[simp] theorem held_ite (c : Prop) [Decidable c] (a b : State) : (if c then a else b).held = if c then a.held else b.held := by
  split <;> rfl

/-- A fold keeps what every turn keeps. -/
@[simp] theorem held_foldl {α : Type} (f : State → α → State) (h : ∀ s x, (f s x).held = s.held) (l : List α) (s : State) :
    (l.foldl f s).held = s.held := by
  induction l generalizing s with
  | nil => rfl
  | cons x l ih => simp [List.foldl_cons, ih, h]

/-- A fold over a state and a value beside it keeps what every turn keeps. -/
@[simp] theorem held_foldl_pair {α β : Type} (f : State × β → α → State × β) (h : ∀ a x, (f a x).1.held = a.1.held) (l : List α)
    (a : State × β) : (l.foldl f a).1.held = a.1.held := by
  induction l generalizing a with
  | nil => rfl
  | cons x l ih => simp [List.foldl_cons, ih, h]

/-- The held part of a state written out. -/
@[simp] theorem held_mk (pending time free nextId host jobs images corpora colls tables embed strains searches cups waiting reads cores tiers pots nvme media ports sec power boot obs) :
    State.held ⟨pending, time, free, nextId, host, jobs, images, corpora, colls, tables, embed, strains, searches, cups,
      waiting, reads, cores, tiers, pots, nvme, media, ports, sec, power, boot, obs⟩ =
      ⟨pending, sec.lifecycle, sec.ownerKey, sec.identity, boot.rollback, power.straps⟩ := rfl
/-- The held fields of one state are its held part. -/
@[simp] theorem held_eta (t : State) :
    Held.mk t.pending t.sec.lifecycle t.sec.ownerKey t.sec.identity t.boot.rollback t.power.straps = t.held := rfl

/-- A change of the tables keeps the held part. -/
theorem held_tables (s : State) (x : List Table) : State.held { s with tables := x } = s.held := rfl
/-- A change of the images keeps the held part. -/
theorem held_images (s : State) (x : List Image) : State.held { s with images := x } = s.held := rfl

/-- The state of a pair, taken apart. -/
theorem held_first {α : Type} (p : State × α) : State.held (match p with | (t, _) => t) = p.1.held := rfl

/-- The first of two attempts, or the second. -/
theorem orElse_some {α : Type} {a : Option α} {b : Unit → Option α} {t : α} (h : a.orElse b = some t) : a = some t ∨ b () = some t := by
  cases a with
  | none => exact .inr h
  | some x => exact .inl h

/-- A choice that answers does so by its second branch, when the first answers nothing. -/
theorem some_of_ite {α : Type} {c : Prop} [Decidable c] {x : Option α} {t : α} (h : (if c then none else x) = some t) :
    x = some t := by
  split at h
  · cases h
  · exact h

end Sys2Proof.Machine
end

