-- ==== Sys2Proof/Laws/HeldOps.lean ====
section
/-! SUPPORT. What the shared operations (memory, rings, pools) leave unchanged: the held part of the state (`State.held`), operation by operation. -/

namespace Sys2Proof.Machine

-- Ops.lean

@[simp] theorem State.modPot_held (s : State) (p : Nat) (f : Pot → Pot) : (State.modPot s p f).held = s.held := by
  simp [State.modPot]
@[simp] theorem State.modCore_held (s : State) (c : Nat) (f : Core → Core) : (State.modCore s c f).held = s.held := by
  simp [State.modCore]
@[simp] theorem State.modPort_held (s : State) (p : Nat) (f : Port → Port) : (State.modPort s p f).held = s.held := by
  simp [State.modPort]
@[simp] theorem State.modBay_held (s : State) (b : Nat) (f : Bay → Bay) : (State.modBay s b f).held = s.held := by
  simp [State.modBay]
@[simp] theorem State.modObs_held (s : State) (f : Obs → Obs) : (State.modObs s f).held = s.held := by
  simp [State.modObs]
@[simp] theorem State.modHost_held (s : State) (f : HostIf → HostIf) : (State.modHost s f).held = s.held := by
  simp [State.modHost]
@[simp] theorem State.modMedia_held (s : State) (f : Media → Media) : (State.modMedia s f).held = s.held := by
  simp [State.modMedia]
@[simp] theorem State.modNvme_held (s : State) (f : Nvme → Nvme) : (State.modNvme s f).held = s.held := by
  simp [State.modNvme]
@[simp] theorem State.modSec_held (s : State) (f : Sec → Sec) (h1 : (f s.sec).lifecycle = s.sec.lifecycle) (h2 : (f s.sec).ownerKey = s.sec.ownerKey) (h3 : (f s.sec).identity = s.sec.identity) :
    (State.modSec s f).held = s.held := by
  show Held.mk s.pending (f s.sec).lifecycle (f s.sec).ownerKey (f s.sec).identity s.boot.rollback s.power.straps = _
  rw [h1, h2, h3]; rfl
@[simp] theorem State.modPower_held (s : State) (f : Power → Power) (h1 : (f s.power).straps = s.power.straps) :
    (State.modPower s f).held = s.held := by
  show Held.mk s.pending s.sec.lifecycle s.sec.ownerKey s.sec.identity s.boot.rollback (f s.power).straps = _
  rw [h1]; rfl
@[simp] theorem State.modBoot_held (s : State) (f : Boot → Boot) (h1 : (f s.boot).rollback = s.boot.rollback) :
    (State.modBoot s f).held = s.held := by
  show Held.mk s.pending s.sec.lifecycle s.sec.ownerKey s.sec.identity (f s.boot).rollback s.power.straps = _
  rw [h1]; rfl
@[simp] theorem State.modTiers_held (s : State) (f : Tiers → Tiers) : (State.modTiers s f).held = s.held := by
  simp [State.modTiers]
@[simp] theorem State.modEmbed_held (s : State) (f : Embed → Embed) : (State.modEmbed s f).held = s.held := by
  simp [State.modEmbed]
@[simp] theorem State.used_held (s : State) : (State.used s).held = s.held := by
  simp [State.used]
@[simp] theorem State.count_held (s : State) (fam : Nat) (inst : Nat) (idx : Nat) (n : Nat) :
    (State.count s fam inst idx n).held = s.held := by
  simp [State.count]
@[simp] theorem State.clearCounters_held (s : State) (fam : Nat) (inst : Nat → Bool) (idx : Nat → Bool) :
    (State.clearCounters s fam inst idx).held = s.held := by
  simp [State.clearCounters]
@[simp] theorem State.setCounter_held (s : State) (fam : Nat) (inst : Nat) (idx : Nat) (v : Int) :
    (State.setCounter s fam inst idx v).held = s.held := by
  simp [State.setCounter]
@[simp] theorem State.attribute_held (s : State) (pot : Nat) (key : Nat) (jobId : Nat) (layer : BitVec 16) (oper : BitVec 16) (i : Nat) (n : Nat) :
    (State.attribute s pot key jobId layer oper i n).held = s.held := by
  unfold State.attribute; try dsimp only
  (repeat' split) <;> (first | with_reducible rfl | simp)
@[simp] theorem State.traceAt_held (s : State) (time : Option (BitVec 32)) (source : Nat) (kind : Nat) (aux : Nat) (value : BitVec 64) :
    (State.traceAt s time source kind aux value).held = s.held := by
  simp [State.traceAt]
@[simp] theorem State.trace_held (s : State) (source : Nat) (kind : Nat) (aux : Nat) (value : BitVec 64) :
    (State.trace s source kind aux value).held = s.held := by
  simp [State.trace]
@[simp] theorem State.stopTrace_held (s : State) (reason : Nat) (value : Nat) (discard : Bool) :
    (State.stopTrace s reason value discard).held = s.held := by
  simp [State.stopTrace]
@[simp] theorem State.anyReset_held (s : State) : (State.anyReset s).held = s.held := by
  simp [State.anyReset]
@[simp] theorem State.watchAct_held (s : State) (n : Nat) (w : Watch) (agent : Nat) (write : Bool) (first : Nat) :
    (State.watchAct s n w agent write first).held = s.held := by
  simp [State.watchAct]
@[simp] theorem State.watched_held (s : State) (space : Nat) (inst : Nat) (agent : Nat) (write : Bool) (first : Nat) (len : Nat) (tags : Option (BitVec 16 × BitVec 16)) :
    (State.watched s space inst agent write first len tags).held = s.held := by
  simp [State.watched]
@[simp] theorem State.modColl_held (s : State) (id : Nat) (f : Coll → Coll) : (State.modColl s id f).held = s.held := by
  simp [State.modColl]
@[simp] theorem State.hostWriteAs_held (s : State) (tags : Option (BitVec 16 × BitVec 16)) (a : Nat) (bs : Bytes) : (State.hostWriteAs s tags a bs).held = s.held := by
  unfold State.hostWriteAs; try dsimp only
  (repeat' split) <;> (first | with_reducible rfl | simp)
@[simp] theorem State.hostWrite_held (s : State) (a : Nat) (bs : Bytes) : (State.hostWrite s a bs).held = s.held := by
  simp [State.hostWrite]
@[simp] theorem State.hostSeen_held (s : State) (a : Nat) (n : Nat) : (State.hostSeen s a n).held = s.held := by
  simp [State.hostSeen]
@[simp] theorem State.setRing_held (s : State) (pot : Option (Fin 8)) (sel : RingSel) (r : Ring) :
    (State.setRing s pot sel r).held = s.held := by
  unfold State.setRing; split <;> simp
@[simp] theorem State.sendVector_held (s : State) (pot : Option (Fin 8)) (v : Nat) :
    (State.sendVector s pot v).held = s.held := by
  unfold State.sendVector; try dsimp only
  (repeat' split) <;> (first | with_reducible rfl | simp)
@[simp] theorem State.raiseRing_held (s : State) (pot : Option (Fin 8)) (sel : RingSel) :
    (State.raiseRing s pot sel).held = s.held := by
  simp [State.raiseRing]
@[simp] theorem State.coalesce_held (s : State) (pot : Option (Fin 8)) (sel : RingSel) (noIrq : Bool) :
    (State.coalesce s pot sel noIrq).held = s.held := by
  simp [State.coalesce]
@[simp] theorem State.lastPosted_held (s : State) (key : Nat) : (State.lastPosted s key).held = s.held := by
  unfold State.lastPosted; try dsimp only
  (repeat' split) <;> (first | with_reducible rfl | simp)
@[simp] theorem State.dropHeldLast_held (s : State) (p : Nat) : (State.dropHeldLast s p).held = s.held := by
  unfold State.dropHeldLast; try dsimp only
  (repeat' split) <;> (first | with_reducible rfl | simp)
@[simp] theorem State.putCq_held (s : State) (p : Fin 8) (c : Fin 16) (e : CqEntry) : (State.putCq s p c e).held = s.held := by
  simp [State.putCq]
@[simp] theorem State.postCq_held (s : State) (p : Fin 8) (c : Fin 16) (e : CqEntry) : (State.postCq s p c e).held = s.held := by
  simp [State.postCq]
@[simp] theorem State.drainHeld_held (s : State) (p : Fin 8) (c : Fin 16) (x1 : Nat) :
    (State.drainHeld s p c x1).held = s.held := by
  induction x1 generalizing s with
  | zero => rfl
  | succ n ih =>
    unfold State.drainHeld
    dsimp only
    (repeat' split) <;> (first | rfl | (simp [ih]; done))
@[simp] theorem State.postEvent_held (s : State) (pot : Option (Fin 8)) (code : Nat) (jobId : Nat) (layer : BitVec 16) (oper : BitVec 16) (payload : Bytes) :
    (State.postEvent s pot code jobId layer oper payload).held = s.held := by
  unfold State.postEvent; split <;> simp
@[simp] theorem State.modEvent_held (s : State) (code : Nat) (payload : Bytes) :
    (State.modEvent s code payload).held = s.held := by
  simp [State.modEvent]
@[simp] theorem State.guarantee_held (s : State) (pot : Nat) (code : Nat) (winner : Nat) (amount : Nat) (jobId : Nat) :
    (State.guarantee s pot code winner amount jobId).held = s.held := by
  simp [State.guarantee]
@[simp] theorem State.jobWrite_held (s : State) (key a : Nat) (bs : Bytes) : (State.jobWrite s key a bs).held = s.held := by
  unfold State.jobWrite; try dsimp only
  (repeat' split) <;> (first | with_reducible rfl | simp)
@[simp] theorem State.modJob_held (s : State) (key : Nat) (f : Job → Job) : (State.modJob s key f).held = s.held := by
  simp [State.modJob]
@[simp] theorem State.modItem_held (s : State) (key : Nat) (idx : Nat) (f : Item → Item) :
    (State.modItem s key idx f).held = s.held := by
  simp [State.modItem]
@[simp] theorem State.freeImage_held (s : State) (id : Nat) : (State.freeImage s id).held = s.held := by
  simp [State.freeImage]
@[simp] theorem State.xferDone_held (s : State) (port : Nat) (tag : Nat) (status : Nat) :
    (State.xferDone s port tag status).held = s.held := by
  simp [State.xferDone]
@[simp] theorem State.postItem_held (s : State) (j : Job) (i : Item) (last : Bool) :
    (State.postItem s j i last).held = s.held := by
  unfold State.postItem; split <;> simp
@[simp] theorem State.removeJob_held (s : State) (key : Nat) : (State.removeJob s key).held = s.held := by
  simp [State.removeJob]
@[simp] theorem State.bumpEpoch_held (s : State) : (State.bumpEpoch s).held = s.held := by
  unfold State.bumpEpoch
  refine (held_foldl _ (fun _ _ => ?_) _ _).trans ?_ <;> simp
@[simp] theorem State.settleUnloads_held (s : State) : (State.settleUnloads s).held = s.held := by
  unfold State.settleUnloads
  refine held_foldl _ (fun _ _ => ?_) _ _
  dsimp only
  split
  · split <;> simp
  · rfl
@[simp] theorem State.endJob_held (s : State) (key : Nat) : (State.endJob s key).held = s.held := by
  simp [State.endJob]
@[simp] theorem State.complete_held (s : State) (key : Nat) (idx : Nat) (f : Item → Item) :
    (State.complete s key idx f).held = s.held := by
  unfold State.complete; split <;> simp
@[simp] theorem State.failJob_held (s : State) (key : Nat) (st : Nat) : (State.failJob s key st).held = s.held := by
  unfold State.failJob
  split
  · rfl
  · exact held_foldl _ (fun _ _ => by simp) _ _
@[simp] theorem State.refuseJob_held (s : State) (key : Nat) (st : Nat) : (State.refuseJob s key st).held = s.held := by
  unfold State.refuseJob; (repeat' split) <;> (first | with_reducible rfl | simp)
@[simp] theorem State.postDeferred_held (s : State) (j : Job) (item : Nat) : (State.postDeferred s j item).held = s.held := by
  simp [State.postDeferred]
@[simp] theorem State.stopJob_held (s : State) (key : Nat) (st : Nat) : (State.stopJob s key st).held = s.held := by
  unfold State.stopJob; split <;> simp
@[simp] theorem State.accountAs_held (s : State) (j : Job) (tags : BitVec 16 × BitVec 16) (idx n : Nat) : (State.accountAs s j tags idx n).held = s.held := by
  unfold State.accountAs; try dsimp only
  (repeat' split) <;> (first | with_reducible rfl | simp)
@[simp] theorem State.account_held (s : State) (j : Job) (idx : Nat) (n : Nat) : (State.account s j idx n).held = s.held := by
  simp [State.account]

-- Xfer.lean

@[simp] theorem State.sendPkt_held (s : State) (port : Nat) (p : PktOut) : (State.sendPkt s port p).held = s.held := by
  simp [State.sendPkt]
@[simp] theorem State.sendStatus_held (s : State) : (State.sendStatus s).held = s.held := by
  simp [State.sendStatus]
@[simp] theorem State.beginXfer_held (s : State) (port : Nat) (dst : Nat) (x : XferOut) :
    (State.beginXfer s port dst x).1.held = s.held := by
  unfold State.beginXfer; try dsimp only
  (repeat' split) <;> (first | with_reducible rfl | simp)
@[simp] theorem State.announceWaiting_held (s : State) (port : Nat) : (State.announceWaiting s port).held = s.held := by
  simp [State.announceWaiting]
@[simp] theorem State.cancelXfers_held (s : State) (job : Nat) : (State.cancelXfers s job).held = s.held := by
  simp [State.cancelXfers]
@[simp] theorem State.abortJob_held (s : State) (key : Nat) (st : Nat) : (State.abortJob s key st).held = s.held := by
  simp [State.abortJob]

-- Rings.lean

@[simp] theorem State.ignoredDoorbell_held (s : State) (pot : Option (Fin 8)) : (State.ignoredDoorbell s pot).held = s.held := by
  unfold State.ignoredDoorbell; split <;> simp
@[simp] theorem State.badDoorbell_held (s : State) (pot : Option (Fin 8)) (sel : RingSel) :
    (State.badDoorbell s pot sel).held = s.held := by
  simp [State.badDoorbell]
@[simp] theorem State.doorbell_held (s : State) (fn : PcieFn) (pot : Option (Fin 8)) (sel : RingSel) (size : Nat) (v : BitVec 32) :
    (State.doorbell s fn pot sel size v).held = s.held := by
  unfold State.doorbell; (repeat' split) <;> (first | with_reducible rfl | simp)
theorem execSqTailDoorbell_held (fn : PcieFn) (page off size : Nat) (value : BitVec 32) (host : List (Nat × Byte)) (s : State) :
    ∃ t, (execSqTailDoorbell fn page off size value host s) = .next t ∧ t.held = s.held := by
  unfold execSqTailDoorbell; try dsimp only
  (repeat' split) <;> exact ⟨_, rfl, by simp⟩
theorem execCqHeadDoorbell_held (fn : PcieFn) (page off size : Nat) (value : BitVec 32) (s : State) :
    ∃ t, (execCqHeadDoorbell fn page off size value s) = .next t ∧ t.held = s.held := by
  unfold execCqHeadDoorbell; (repeat' split) <;> exact ⟨_, rfl, by simp⟩
theorem execEventHeadDoorbell_held (fn : PcieFn) (off size : Nat) (value : BitVec 32) (s : State) :
    ∃ t, (execEventHeadDoorbell fn off size value s) = .next t ∧ t.held = s.held := by
  unfold execEventHeadDoorbell; (repeat' split) <;> exact ⟨_, rfl, by simp⟩
@[simp] theorem State.fetchFailed_held (s : State) (p : Fin 8) (i : Fin 16) : (State.fetchFailed s p i).held = s.held := by
  simp [State.fetchFailed]
theorem execDescriptorFetch_held (pot : Fin 8) (s : State) : ∃ t, (execDescriptorFetch pot s) = .next t ∧ t.held = s.held := by
  unfold execDescriptorFetch; try dsimp only
  (repeat' split) <;> (refine ⟨_, rfl, ?_⟩; (repeat' split) <;> (first | with_reducible rfl | simp))
theorem execDescriptorFetchFailed_held (pot : Fin 8) (s : State) :
    ∃ t, (execDescriptorFetchFailed pot s) = .next t ∧ t.held = s.held := by
  unfold execDescriptorFetchFailed; (repeat' split) <;> exact ⟨_, rfl, by simp⟩
@[simp] theorem State.onEnable_held (s : State) (pot : Option (Fin 8)) (sel : RingSel) :
    (State.onEnable s pot sel).held = s.held := by
  unfold State.onEnable; split <;> simp
@[simp] theorem State.ringCfg_held (s : State) (pot : Option (Fin 8)) (sel : RingSel) (lo : Bool) (hi : Bool) (v : BitVec 64) :
    (State.ringCfg s pot sel lo hi v).held = s.held := by
  unfold State.ringCfg
  extract_lets r n isSq r1
  split
  · simp
  · split
    · split
      · simp
      · split <;> simp
    · split
      · split <;> simp
      · simp
theorem execRingEnable_held (fn : PcieFn) (pot : Option (Fin 8)) (ring : RingSel) (value : BitVec 64) (s : State) :
    ∃ t, (execRingEnable fn pot ring value s) = .next t ∧ t.held = s.held := by
  unfold execRingEnable; split <;> exact ⟨_, rfl, by simp⟩
theorem execRingDisable_held (fn : PcieFn) (pot : Option (Fin 8)) (ring : RingSel) (s : State) :
    ∃ t, (execRingDisable fn pot ring s) = .next t ∧ t.held = s.held := by
  unfold execRingDisable; split <;> exact ⟨_, rfl, by simp⟩
theorem execCoalesceTimerExpiry_held (pot : Option (Fin 8)) (ring : RingSel) (s : State) :
    ∃ t, (execCoalesceTimerExpiry pot ring s) = .next t ∧ t.held = s.held := by
  unfold execCoalesceTimerExpiry; try dsimp only
  (repeat' split) <;> (refine ⟨_, rfl, ?_⟩; (repeat' split) <;> (first | with_reducible rfl | simp))

-- Pools.lean

@[simp] theorem State.setPool_held (s : State) (dram : Bool) (l : List PoolEntry) : (State.setPool s dram l).held = s.held := by
  simp [State.setPool]
@[simp] theorem State.roomDram_held (s : State) (p : Nat) (need : Nat) (x1 : Nat) :
    (State.roomDram s p need x1).1.held = s.held := by
  induction x1 generalizing s with
  | zero => rfl
  | succ n ih =>
    unfold State.roomDram
    split
    · rfl
    · split
      · rfl
      · simp [ih]
@[simp] theorem State.toFlash_held (s : State) (e : PoolEntry) : (State.toFlash s e).held = s.held := by
  unfold State.toFlash; try dsimp only
  (repeat' split) <;> (first | with_reducible rfl | simp)
@[simp] theorem State.toDram_held (s : State) (e : PoolEntry) : (State.toDram s e).held = s.held := by
  unfold State.toDram; try dsimp only
  (repeat' split) <;> (first | with_reducible rfl | simp)
@[simp] theorem State.roomQ_held (s : State) (p : Nat) (need : Nat) (x1 : Nat) : (State.roomQ s p need x1).1.held = s.held := by
  induction x1 generalizing s with
  | zero => rfl
  | succ n ih =>
    unfold State.roomQ
    split
    · rfl
    · split
      · rfl
      · dsimp only
        rw [ih]
        split <;> simp
@[simp] theorem State.room_held (s : State) (dram : Bool) (p : Nat) (need : Nat) :
    (State.room s dram p need).1.held = s.held := by
  unfold State.room; split <;> simp
@[simp] theorem State.allocPinned_held (s : State) (dram : Bool) (e : PoolEntry) :
    (State.allocPinned s dram e).1.held = s.held := by
  simp [State.allocPinned]
@[simp] theorem State.claim_held (s : State) (e : PoolEntry) : (State.claim s e).held = s.held := by
  unfold State.claim
  simp
@[simp] theorem State.allocOwned_held (s : State) (dram : Bool) (e : PoolEntry) : (State.allocOwned s dram e).held = s.held := by
  simp [State.allocOwned]
@[simp] theorem State.moveBack_held (s : State) (dram : Bool) (e : PoolEntry) : (State.moveBack s dram e).held = s.held := by
  unfold State.moveBack; try dsimp only
  (repeat' split) <;> (first | with_reducible rfl | simp)
@[simp] theorem State.useFrames_held (s : State) (key : PoolKey) (dram : Bool) (a n : Nat) : (State.useFrames s key dram a n).1.held = s.held := by
  unfold State.useFrames; try dsimp only
  (repeat' split) <;> (first | with_reducible rfl | simp)
@[simp] theorem State.cache_held (s : State) (e : PoolEntry) : (State.cache s e).held = s.held := by
  simp [State.cache]
@[simp] theorem State.touch_held (s : State) (key : PoolKey) : (State.touch s key).held = s.held := by
  unfold State.touch; split <;> simp
@[simp] theorem State.touchDense_held (s : State) (key : PoolKey) : (State.touchDense s key).held = s.held := by
  unfold State.touchDense; try dsimp only
  (repeat' split) <;> (first | with_reducible rfl | simp)
@[simp] theorem State.release_held (s : State) (key : PoolKey) : (State.release s key).held = s.held := by
  unfold State.release; try dsimp only
  (repeat' split) <;> (first | with_reducible rfl | simp)
@[simp] theorem State.dropEntries_held (s : State) (f : PoolEntry → Bool) : (State.dropEntries s f).held = s.held := by
  simp [State.dropEntries]
@[simp] theorem State.retryWait_held (s : State) (e : PoolEntry) : (State.retryWait s e).held = s.held := by
  unfold State.retryWait; try dsimp only
  (repeat' split) <;> (first | with_reducible rfl | simp)
@[simp] theorem State.retryWaits_held (s : State) : (State.retryWaits s).held = s.held := by
  simp [State.retryWaits]
@[simp] theorem State.pour_held (s : State) (im : Image) (a n : Nat) : (State.pour s im a n).1.held = s.held := by
  unfold State.pour; try dsimp only
  (repeat' split) <;> (first | with_reducible rfl | simp)

end Sys2Proof.Machine
end

