-- ==== Sys2Proof/Laws/HeldCores.lean ====
section
/-! SUPPORT. What the tile cores, leaf reads, the scheduler and the Koelnu commands leave unchanged: the held part of the state (`State.held`), operation by operation. -/

namespace Sys2Proof.Machine

-- KCore.lean

@[simp] theorem State.attributeRun_held (s : State) (c : Nat) (tags : BitVec 16 × BitVec 16) (i n : Nat) : (State.attributeRun s c tags i n).held = s.held := by
  unfold State.attributeRun; try dsimp only
  (repeat' split) <;> (first | with_reducible rfl | simp)

@[simp] theorem State.coreWrite_held (s : State) (c : Nat) (agent : Nat) (a : Nat) (bs : Bytes) (tags : BitVec 16 × BitVec 16) (poison : Option Arrival) :
    (State.coreWrite s c agent a bs tags poison).held = s.held := by
  simp [State.coreWrite]
@[simp] theorem State.failServed_held (s : State) (c : Nat) (st : Nat) : (State.failServed s c st).held = s.held := by
  unfold State.failServed; split <;> simp
@[simp] theorem State.faultRecord_held (s : State) (c : Nat) (kind : Nat) (pc : Nat) (tags : BitVec 16 × BitVec 16) :
    (State.faultRecord s c kind pc tags).held = s.held := by
  simp [State.faultRecord]
@[simp] theorem State.illegal_held (s : State) (c : Nat) (q : QEntry) : (State.illegal s c q).held = s.held := by
  simp [State.illegal]
@[simp] theorem State.signal_held (s : State) (c : Nat) (to_ : Nat) (q : QEntry) (t : Nat) (n : Nat) :
    (State.signal s c to_ q t n).held = s.held := by
  simp [State.signal]
@[simp] theorem State.hdrSignal_held (s : State) (c : Nat) (to_ : Nat) (q : QEntry) :
    (State.hdrSignal s c to_ q).held = s.held := by
  simp [State.hdrSignal]
@[simp] theorem State.syncSignal_held (s : State) (c : Nat) (q : QEntry) (y : KSync) :
    (State.syncSignal s c q y).held = s.held := by
  simp [State.syncSignal]
@[simp] theorem State.postSat_held (s : State) (key : Nat) : (State.postSat s key).held = s.held := by
  unfold State.postSat; try dsimp only
  (repeat' split) <;> (first | with_reducible rfl | simp)
@[simp] theorem State.jobSats_held (s : State) (key : Nat) (fmt : Nat) (tags : BitVec 16 × BitVec 16) (n : Nat) :
    (State.jobSats s key fmt tags n).held = s.held := by
  unfold State.jobSats; split <;> simp
@[simp] theorem State.countSatsOf_held (s : State) (job : Option Job) (c fmt : Nat) (tags : BitVec 16 × BitVec 16) (sats : List Sat) : (State.countSatsOf s job c fmt tags sats).held = s.held := by
  unfold State.countSatsOf; try dsimp only
  (repeat' split) <;> (first | with_reducible rfl | simp)
@[simp] theorem State.countSats_held (s : State) (c : Nat) (fmt : Nat) (tags : BitVec 16 × BitVec 16) (sats : List Sat) :
    (State.countSats s c fmt tags sats).held = s.held := by
  unfold State.countSats; (repeat' split) <;> (first | with_reducible rfl | simp)
@[simp] theorem State.addConv_held (s : State) (c fmt : Nat) (x q : List Val) : (State.addConv s c fmt x q).held = s.held := by
  unfold State.addConv; try dsimp only
  (repeat' split) <;> (first | with_reducible rfl | simp)
@[simp] theorem State.narrowBlockK_held (s : State) (c : Nat) (fmt : Nat) (mayClip : Bool) (tags : BitVec 16 × BitVec 16) (vs : List Val) :
    (State.narrowBlockK s c fmt mayClip tags vs).1.held = s.held := by
  unfold State.narrowBlockK; dsimp only; split <;> simp
@[simp] theorem State.narrowRowK_held (s : State) (c : Nat) (fmt : Nat) (blk mayClip : Bool) (tags : BitVec 16 × BitVec 16) (vs : List Val) :
    (State.narrowRowK s c fmt blk mayClip tags vs).1.held = s.held := by
  unfold State.narrowRowK; split <;> simp

-- KVec.lean

@[simp] theorem State.fireVec_held (s : State) (c : Nat) (q : QEntry) (op : VecOp) (o : VOps) :
    (State.fireVec s c q op o).held = s.held := by
  unfold State.fireVec; dsimp only; (repeat' split) <;> (first | with_reducible rfl | simp)

-- KMat.lean

@[simp] theorem State.landPass_held (s : State) (c : Nat) (r : MmRun) : (State.landPass s c r).held = s.held := by
  unfold State.landPass; dsimp only; (repeat' split) <;> (first | with_reducible rfl | simp)
@[simp] theorem State.placeCodes_held (s : State) (c : Nat) (fmt : Nat) (row : Nat) (col0 : Nat) (cs : List Nat) (tags : BitVec 16 × BitVec 16) (poison : Option Arrival) :
    (State.placeCodes s c fmt row col0 cs tags poison).held = s.held := by
  simp [State.placeCodes]
@[simp] theorem State.drainTile_held (s : State) (c : Nat) (r : MmRun) : (State.drainTile s c r).held = s.held := by
  unfold State.drainTile
  dsimp only
  simp only [State.count_held, State.used_held, State.modCore_held]
  refine held_foldl _ (fun s v => ?_) _ _
  split
  · simp
  · split
    · split <;> simp
    · simp

-- Reads.lean

@[simp] theorem State.modCorpus_held (s : State) (id : Nat) (f : Corpus → Corpus) : (State.modCorpus s id f).held = s.held := by
  simp [State.modCorpus]
@[simp] theorem State.modCup_held (s : State) (idx : Nat) (f : Cup → Cup) : (State.modCup s idx f).held = s.held := by
  simp [State.modCup]
@[simp] theorem State.storeLeaf_held (s : State) (r : LeafRead) (pg : Bytes) : (State.storeLeaf s r pg).held = s.held := by
  simp [State.storeLeaf]
@[simp] theorem State.addLost_held (s : State) (r : LeafRead) (check : Bool) (bays : BitVec 8) :
    (State.addLost s r check bays).held = s.held := by
  simp [State.addLost]
@[simp] theorem State.writeLost_held (s : State) (job : Nat) (item : Nat) (addr : Nat) (rec : LostRec) :
    (State.writeLost s job item addr rec).held = s.held := by
  simp [State.writeLost]
@[simp] theorem State.chargeCup_held (s : State) (idx : Nat) (rec : LostRec) : (State.chargeCup s idx rec).held = s.held := by
  unfold State.chargeCup; dsimp only; (repeat' split) <;> (first | with_reducible rfl | simp)
@[simp] theorem State.endMove_held (s : State) (c : Nat) (num : Nat) (to_ : Nat) :
    (State.endMove s c num to_).held = s.held := by
  unfold State.endMove; split <;> simp
@[simp] theorem State.landLeaf_held (s : State) (c : Nat) (num : Nat) (j : Nat) (r : LeafRead) (page : Option Bytes) :
    (State.landLeaf s c num j r page).held = s.held := by
  unfold State.landLeaf; split <;> simp
@[simp] theorem State.chargeMove_held (s : State) (c : Nat) (r : LeafRead) (e : LostLeaf) (known : Bool) :
    (State.chargeMove s c r e known).held = s.held := by
  unfold State.chargeMove; split <;> simp
@[simp] theorem State.chargeAttend_held (s : State) (job item : Nat) (rec_ : LostRec) : (State.chargeAttend s job item rec_).held = s.held := by
  unfold State.chargeAttend; try dsimp only
  (repeat' split) <;> (first | with_reducible rfl | simp)
@[simp] theorem State.loseLeaf_held (s : State) (r : LeafRead) (e : LostLeaf) (known : Bool) :
    (State.loseLeaf s r e known).held = s.held := by
  simp [State.loseLeaf]
@[simp] theorem State.readCaddy_held (s : State) (r : LeafRead) : (State.readCaddy s r).held = s.held := by
  unfold State.readCaddy; try dsimp only
  (repeat' split) <;> (first | with_reducible rfl | simp)
@[simp] theorem State.reread_held (s : State) (r : LeafRead) : (State.reread s r).held = s.held := by
  unfold State.reread; try dsimp only
  (repeat' split) <;> (first | with_reducible rfl | simp)
@[simp] theorem State.startRead_held (s : State) (r : LeafRead) : (State.startRead s r).held = s.held := by
  unfold State.startRead; split <;> simp
@[simp] theorem State.modRead_held (s : State) (key : Nat) (f : LeafRead → LeafRead) :
    (State.modRead s key f).held = s.held := by
  simp [State.modRead]
@[simp] theorem State.dropRead_held (s : State) (key : Nat) : (State.dropRead s key).held = s.held := by
  simp [State.dropRead]
@[simp] theorem State.takePage_held (s : State) (r : LeafRead) (pg : Bytes) : (State.takePage s r pg).held = s.held := by
  unfold State.takePage; try dsimp only
  (repeat' split) <;> (first | with_reducible rfl | simp)
@[simp] theorem State.deliver_held (s : State) (r : LeafRead) (pg : Bytes) : (State.deliver s r pg).held = s.held := by
  simp [State.deliver]
@[simp] theorem State.settleRead_held (s : State) (read : Nat) : (State.settleRead s read).held = s.held := by
  unfold State.settleRead; (repeat' split) <;> (first | with_reducible rfl | simp)
@[simp] theorem State.originalBad_held (s : State) (read : Nat) (check : Bool) :
    (State.originalBad s read check).held = s.held := by
  simp [State.originalBad]
-- Sched.lean

@[simp] theorem State.enterCore_held (s : State) (c : Nat) (inv : Invocation) (j : Job) (pc : Nat) (params : Bytes) :
    (State.enterCore s c inv j pc params).held = s.held := by
  simp [State.enterCore]
@[simp] theorem State.invoke_held (s : State) (j : Job) (image : Nat) (item : Nat) (kind : Nat) (layer : Nat) (rows : Nat) (tokens : Nat) (params : Bytes) :
    (State.invoke s j image item kind layer rows tokens params).held = s.held := by
  unfold State.invoke; dsimp only; (repeat' split) <;> (first | with_reducible rfl | simp)
@[simp] theorem State.writeRestart_held (s : State) (c : Nat) (pc : Nat) : (State.writeRestart s c pc).held = s.held := by
  simp [State.writeRestart]
@[simp] theorem State.chargeCores_held (s : State) (p : Nat) (elapsed : Nat) :
    (State.chargeCores s p elapsed).held = s.held := by
  unfold State.chargeCores; (repeat' split) <;> (first | with_reducible rfl | simp)
@[simp] theorem State.deficits_held (s : State) (p : Nat) (elapsed : Nat) : (State.deficits s p elapsed).1.held = s.held := by
  simp [State.deficits]
@[simp] theorem State.saveCore_held (s : State) (key : Nat) (c : Nat) : (State.saveCore s key c).held = s.held := by
  unfold State.saveCore; split <;> simp
@[simp] theorem State.preempt_held (s : State) (p : Nat) (key : Nat) : (State.preempt s p key).held = s.held := by
  unfold State.preempt; split <;> simp
@[simp] theorem State.restoreCore_held (s : State) (key : Nat) (inv : Invocation) (c : Nat) :
    (State.restoreCore s key inv c).held = s.held := by
  simp [State.restoreCore]
@[simp] theorem State.resume_held (s : State) (p : Nat) (j : Job) : (State.resume s p j).held = s.held := by
  unfold State.resume; dsimp only; simp; refine (held_foldl _ (fun _ _ => ?_) _ _).trans ?_ <;> (repeat' split) <;> (first | with_reducible rfl | simp)
@[simp] theorem State.nextRun_held (s : State) (key : Nat) (x1 : Nat) : (State.nextRun s key x1).held = s.held := by
  induction x1 generalizing s with
  | zero => rfl
  | succ n ih =>
    simp only [State.nextRun]
    cases s.job? key with
    | none => rfl
    | some j =>
      dsimp only
      cases j.items.find? (!·.done) with
      | none => rfl
      | some i => dsimp only; split <;> simp [ih]
@[simp] theorem State.nextAppend_held (s : State) (key : Nat) (n : Nat) : (State.nextAppend s key n).held = s.held := by
  induction n generalizing s with
  | zero => rfl
  | succ n ih =>
    simp only [State.nextAppend]
    cases (s.job? key).bind fun j => (j.items.find? (!·.done)).map fun i => (j, i) with
    | none => rfl
    | some x => dsimp only; split <;> simp [ih]
@[simp] theorem State.startSteep_held (s : State) (j : Job) : (State.startSteep s j).held = s.held := by
  unfold State.startSteep; split <;> simp
@[simp] theorem State.beginJob_held (s : State) (j : Job) : (State.beginJob s j).held = s.held := by
  simp [State.beginJob]
@[simp] theorem State.grant_held (s : State) (p : Nat) : (State.grant s p).held = s.held := by
  unfold State.grant; split <;> simp
@[simp] theorem State.grantTasks_held (s : State) (p : Nat) : (State.grantTasks s p).held = s.held := by
  unfold State.grantTasks; exact held_foldl _ (fun _ _ => by (repeat' split) <;> (first | with_reducible rfl | simp)) _ _
@[simp] theorem State.schedule_held (s : State) (p : Nat) (elapsed : Nat) : (State.schedule s p elapsed).held = s.held := by
  unfold State.schedule; dsimp only; (repeat' split) <;> (first | with_reducible rfl | simp)
@[simp] theorem State.reschedule_held (s : State) (p : Nat) : (State.reschedule s p).held = s.held := by
  simp [State.reschedule]
@[simp] theorem State.rescheduleAll_held (s : State) : (State.rescheduleAll s).held = s.held := by
  simp [State.rescheduleAll]
@[simp] theorem State.settleStop_held (s : State) (p : Nat) : (State.settleStop s p).held = s.held := by
  simp [State.settleStop]
@[simp] theorem State.settlePoint_held (s : State) (p : Nat) : (State.settlePoint s p).held = s.held := by
  unfold State.settlePoint; split <;> simp
@[simp] theorem State.unpark_held (s : State) (p : Nat) : (State.unpark s p).held = s.held := by
  simp [State.unpark]

-- KMove.lean

@[simp] theorem State.noteServed_held (s : State) (c : Nat) (st : Nat) : (State.noteServed s c st).held = s.held := by
  unfold State.noteServed; split <;> simp
@[simp] theorem State.seePlace_held (s : State) (c : Nat) (p : Place) (n : Nat) (tags : BitVec 16 × BitVec 16) :
    (State.seePlace s c p n tags).1.held = s.held := by
  unfold State.seePlace; dsimp only; (repeat' split) <;> (first | with_reducible rfl | simp)
@[simp] theorem State.landPlace_held (s : State) (c : Nat) (p : Place) (bs : Bytes) (tags : BitVec 16 × BitVec 16) (poison : Option Arrival) :
    (State.landPlace s c p bs tags poison).held = s.held := by
  unfold State.landPlace; (repeat' split) <;> (first | with_reducible rfl | simp)
@[simp] theorem State.linkSums_held (s : State) (c f : Nat) (b : Bytes) : (State.linkSums s c f b).held = s.held := by
  unfold State.linkSums; try dsimp only
  (repeat' split) <;> (first | with_reducible rfl | simp)
@[simp] theorem State.issueMove_held (s : State) (c : Nat) (q : QEntry) (rows : Nat) (len : Nat) (ss : Nat) (ds : Nat) (pf : Nat) (xs : KSync) :
    (State.issueMove s c q rows len ss ds pf xs).held = s.held := by
  simp [State.issueMove]
@[simp] theorem State.issueLeafrd_held (s : State) (c : Nat) (q : QEntry) (n : Nat) :
    (State.issueLeafrd s c q n).held = s.held := by
  unfold State.issueLeafrd; (repeat' split) <;> (first | with_reducible rfl | simp)
@[simp] theorem State.sendMove_held (s : State) (c : Nat) (m : Move) : (State.sendMove s c m).held = s.held := by
  unfold State.sendMove; dsimp only; (repeat' split) <;> (first | with_reducible rfl | simp)
@[simp] theorem State.arriveMove_held (s : State) (c : Nat) (m : Move) (how : Arrival) :
    (State.arriveMove s c m how).held = s.held := by
  unfold State.arriveMove; dsimp only; (repeat' split) <;> (first | with_reducible rfl | (simp; done) | (simp; refine (held_foldl _ (fun _ _ => ?_) _ _).trans ?_ <;> (repeat' split) <;> (first | with_reducible rfl | simp)))

-- KFire.lean

@[simp] theorem State.signalIf_held (s : State) (c : Nat) (q : QEntry) : (State.signalIf s c q).held = s.held := by
  simp [State.signalIf]
theorem State.fireVector_held (s : State) (c : Nat) (t : State) : (State.fireVector s c) = some t → t.held = s.held := by
  intro h; unfold State.fireVector at h; dsimp only at h; (repeat' split at h) <;> (first | (cases h; done) | (cases h; first | with_reducible rfl | simp))
theorem State.fireMover_held (s : State) (c : Nat) (t : State) : (State.fireMover s c) = some t → t.held = s.held := by
  intro h; unfold State.fireMover at h; dsimp only at h; (repeat' split at h) <;> (first | (cases h; done) | (cases h; first | with_reducible rfl | simp))
theorem State.fireLoader_held (s : State) (c : Nat) (t : State) : (State.fireLoader s c) = some t → t.held = s.held := by
  intro h; unfold State.fireLoader at h; dsimp only at h; (repeat' split at h) <;> (first | (cases h; done) | (cases h; first | with_reducible rfl | simp))
theorem State.fireArrays_held (s : State) (c : Nat) (t : State) : (State.fireArrays s c) = some t → t.held = s.held := by
  intro h; unfold State.fireArrays at h; dsimp only at h; (repeat' split at h) <;> (first | (cases h; done) | (cases h; first | with_reducible rfl | simp))
@[simp] theorem State.finishMm_held (s : State) (c : Nat) (r : MmRun) : (State.finishMm s c r).held = s.held := by
  simp [State.finishMm]
theorem State.fireSpout_held (s : State) (c : Nat) (t : State) : (State.fireSpout s c) = some t → t.held = s.held := by
  intro h; unfold State.fireSpout at h; dsimp only at h; (repeat' split at h) <;> (first | (cases h; done) | (cases h; first | with_reducible rfl | simp))
@[simp] theorem State.modSem_held (s : State) (p : Nat) (n : Nat) (f : Sem → Sem) : (State.modSem s p n f).held = s.held := by
  simp [State.modSem]
@[simp] theorem State.frontDone_held (s : State) (c : Nat) (q : QEntry) : (State.frontDone s c q).held = s.held := by
  simp [State.frontDone]
theorem State.fireSemacq_held (s : State) (c : Nat) (q : QEntry) (sem : Nat) (units : Nat) (t : State) :
    (State.fireSemacq s c q sem units) = some t → t.held = s.held := by
  intro h; unfold State.fireSemacq at h; dsimp only at h; (repeat' split at h) <;> (first | (cases h; done) | (cases h; first | with_reducible rfl | simp))
@[simp] theorem State.fireSemrel_held (s : State) (c : Nat) (q : QEntry) (sem : Nat) (units : Nat) :
    (State.fireSemrel s c q sem units).held = s.held := by
  unfold State.fireSemrel; dsimp only; (repeat' split) <;> (first | with_reducible rfl | simp)
@[simp] theorem State.firePoint_held (s : State) (c : Nat) (q : QEntry) : (State.firePoint s c q).held = s.held := by
  unfold State.firePoint; dsimp only; (repeat' split) <;> (first | with_reducible rfl | simp)
@[simp] theorem State.invocationEnded_held (s : State) (key : Nat) (inv : Invocation) :
    (State.invocationEnded s key inv).held = s.held := by
  unfold State.invocationEnded; dsimp only; (repeat' split) <;> (first | with_reducible rfl | simp)
@[simp] theorem State.fireEnd_held (s : State) (c : Nat) (q : QEntry) : (State.fireEnd s c q).held = s.held := by
  unfold State.fireEnd; dsimp only; (repeat' split) <;> (first | with_reducible rfl | simp)
@[simp] theorem State.fireGroup_held (s : State) (c : Nat) (q : QEntry) (layer : BitVec 16) (oper : BitVec 16) :
    (State.fireGroup s c q layer oper).held = s.held := by
  unfold State.fireGroup; split <;> simp
@[simp] theorem State.regFire_held (s : State) (c : Nat) (q : QEntry) (f : Core → Core) :
    (State.regFire s c q f).held = s.held := by
  simp [State.regFire]
theorem State.fireFront_held (s : State) (c : Nat) (t : State) : (State.fireFront s c) = some t → t.held = s.held := by
  intro h
  unfold State.fireFront at h
  dsimp only at h
  (repeat' split at h) <;> first
    | (cases h; done)
    | exact State.fireSemacq_held _ _ _ _ _ _ h
    | (cases h; simp; done)
theorem State.fireUnit_held (s : State) (c : Nat) (t : State) (h : State.fireUnit s c = some t) : t.held = s.held := by
  unfold State.fireUnit at h
  rcases orElse_some h with h | h
  · exact State.fireFront_held s c t h
  rcases orElse_some h with h | h
  · exact State.fireLoader_held s c t h
  rcases orElse_some h with h | h
  · exact State.fireArrays_held s c t h
  rcases orElse_some h with h | h
  · exact State.fireSpout_held s c t h
  rcases orElse_some h with h | h
  · exact State.fireVector_held s c t h
  · exact State.fireMover_held s c t h
theorem State.fireCore_held (s : State) (c : Nat) (t : State) : (State.fireCore s c) = some t → t.held = s.held := by
  intro h
  unfold State.fireCore at h
  split at h
  · cases h
  · split at h
    · cases h
    · obtain ⟨u, hu, rfl⟩ := Option.map_eq_some_iff.1 h
      rw [State.modJob_held]; exact State.fireUnit_held s c u hu
@[simp] theorem State.pump_held (n : Nat) (s : State) : (State.pump n s).held = s.held := by
  induction n generalizing s with
  | zero => rfl
  | succ n ih =>
    unfold State.pump
    split
    · rename_i s' h
      obtain ⟨c, _, hc⟩ := List.exists_of_findSome?_eq_some h
      rw [ih, State.fireCore_held s c s' hc]
    · rfl
@[simp] theorem State.pumped_held (s : State) : (State.pumped s).held = s.held := by simp [State.pumped]
@[simp] theorem State.tidy_held (s : State) : (State.tidy s).held = s.held := by
  simp [State.tidy]

-- Koelnu.lean

@[simp] theorem State.failWord_held (s : State) (c : Nat) : (State.failWord s c).held = s.held := by
  simp [State.failWord]
theorem State.enqueue_held (s : State) (c : Nat) (w : KWord) (regs : List (BitVec 4)) (put : QEntry → Core → Core) :
    ∃ t, (State.enqueue s c w regs put) = .next t ∧ t.held = s.held := by
  unfold State.enqueue; (repeat' split) <;> exact ⟨_, rfl, by simp⟩
theorem State.toFront_held (s : State) (c : Nat) (w : KWord) : ∃ t, (State.toFront s c w) = .next t ∧ t.held = s.held := by
  unfold State.toFront; (repeat' split) <;> exact ⟨_, rfl, by simp⟩
theorem execNop_held (core : Fin 48) (h : KHdr) (unit : BitVec 3) (s : State) :
    ∃ t, (execNop core h unit s) = .next t ∧ t.held = s.held := by
  unfold execNop
  split
  · exact State.toFront_held _ _ _
  · exact State.enqueue_held _ _ _ _ _
theorem execGroup_held (core : Fin 48) (h : KHdr) (layer : BitVec 16) (oper : BitVec 16) (s : State) :
    ∃ t, (execGroup core h layer oper s) = .next t ∧ t.held = s.held := by
  unfold execGroup; exact State.toFront_held _ _ _
theorem execPoint_held (core : Fin 48) (h : KHdr) (s : State) :
    ∃ t, (execPoint core h s) = .next t ∧ t.held = s.held := by
  unfold execPoint; exact State.toFront_held _ _ _
theorem execFence_held (core : Fin 48) (h : KHdr) (mask : BitVec 5) (s : State) :
    ∃ t, (execFence core h mask s) = .next t ∧ t.held = s.held := by
  unfold execFence; exact State.toFront_held _ _ _
theorem execLoop_held (core : Fin 48) (h : KHdr) (count1 : BitVec 16) (body : BitVec 12) (s : State) :
    ∃ t, (execLoop core h count1 body s) = .next t ∧ t.held = s.held := by
  unfold execLoop; exact State.toFront_held _ _ _
theorem execEndInv_held (core : Fin 48) (h : KHdr) (s : State) :
    ∃ t, (execEndInv core h s) = .next t ∧ t.held = s.held := by
  unfold execEndInv; exact State.toFront_held _ _ _
theorem execAddr_held (core : Fin 48) (h : KHdr) (reg : BitVec 4) (value : BitVec 48) (ostr : BitVec 16) (s : State) :
    ∃ t, (execAddr core h reg value ostr s) = .next t ∧ t.held = s.held := by
  unfold execAddr; exact State.toFront_held _ _ _
theorem execAddri_held (core : Fin 48) (h : KHdr) (reg : BitVec 4) (delta : BitVec 32) (s : State) :
    ∃ t, (execAddri core h reg delta s) = .next t ∧ t.held = s.held := by
  unfold execAddri; exact State.toFront_held _ _ _
theorem execShape_held (core : Fin 48) (h : KHdr) (shi : BitVec 3) (m1 : BitVec 16) (k1 : BitVec 16) (n1 : BitVec 16) (s : State) :
    ∃ t, (execShape core h shi m1 k1 n1 s) = .next t ∧ t.held = s.held := by
  unfold execShape; exact State.toFront_held _ _ _
theorem execStride_held (core : Fin 48) (h : KHdr) (shi : BitVec 3) (sstr : BitVec 16) (xstr : BitVec 16) (dstr : BitVec 16) (s : State) :
    ∃ t, (execStride core h shi sstr xstr dstr s) = .next t ∧ t.held = s.held := by
  unfold execStride; exact State.toFront_held _ _ _
theorem execSpout_held (core : Fin 48) (h : KHdr) (o : SpoutOps) (s : State) :
    ∃ t, (execSpout core h o s) = .next t ∧ t.held = s.held := by
  unfold execSpout; exact State.toFront_held _ _ _
theorem execSpoutv_held (core : Fin 48) (h : KHdr) (sci : BitVec 3) (scalar : BitVec 32) (cap : BitVec 32) (s : State) :
    ∃ t, (execSpoutv core h sci scalar cap s) = .next t ∧ t.held = s.held := by
  unfold execSpoutv; exact State.toFront_held _ _ _
theorem execTkset_held (core : Fin 48) (h : KHdr) (tk : BitVec 5) (value : BitVec 16) (s : State) :
    ∃ t, (execTkset core h tk value s) = .next t ∧ t.held = s.held := by
  unfold execTkset; exact State.toFront_held _ _ _
theorem execSemacq_held (core : Fin 48) (h : KHdr) (sem : BitVec 5) (units : BitVec 16) (s : State) :
    ∃ t, (execSemacq core h sem units s) = .next t ∧ t.held = s.held := by
  unfold execSemacq; exact State.toFront_held _ _ _
theorem execSemrel_held (core : Fin 48) (h : KHdr) (sem : BitVec 5) (units : BitVec 16) (s : State) :
    ∃ t, (execSemrel core h sem units s) = .next t ∧ t.held = s.held := by
  unfold execSemrel; exact State.toFront_held _ _ _
theorem execVadd_held (core : Fin 48) (h : KHdr) (o : VOps) (s : State) :
    ∃ t, (execVadd core h o s) = .next t ∧ t.held = s.held := by
  unfold execVadd; exact State.enqueue_held _ _ _ _ _
theorem execVmul_held (core : Fin 48) (h : KHdr) (o : VOps) (s : State) :
    ∃ t, (execVmul core h o s) = .next t ∧ t.held = s.held := by
  unfold execVmul; exact State.enqueue_held _ _ _ _ _
theorem execVfma_held (core : Fin 48) (h : KHdr) (o : VOps) (s : State) :
    ∃ t, (execVfma core h o s) = .next t ∧ t.held = s.held := by
  unfold execVfma; exact State.enqueue_held _ _ _ _ _
theorem execVmax_held (core : Fin 48) (h : KHdr) (o : VOps) (s : State) :
    ∃ t, (execVmax core h o s) = .next t ∧ t.held = s.held := by
  unfold execVmax; exact State.enqueue_held _ _ _ _ _
theorem execVmin_held (core : Fin 48) (h : KHdr) (o : VOps) (s : State) :
    ∃ t, (execVmin core h o s) = .next t ∧ t.held = s.held := by
  unfold execVmin; exact State.enqueue_held _ _ _ _ _
theorem execVcmp_held (core : Fin 48) (h : KHdr) (o : VOps) (s : State) :
    ∃ t, (execVcmp core h o s) = .next t ∧ t.held = s.held := by
  unfold execVcmp; exact State.enqueue_held _ _ _ _ _
theorem execVsel_held (core : Fin 48) (h : KHdr) (o : VOps) (s : State) :
    ∃ t, (execVsel core h o s) = .next t ∧ t.held = s.held := by
  unfold execVsel; exact State.enqueue_held _ _ _ _ _
theorem execVcvt_held (core : Fin 48) (h : KHdr) (o : VOps) (s : State) :
    ∃ t, (execVcvt core h o s) = .next t ∧ t.held = s.held := by
  unfold execVcvt; exact State.enqueue_held _ _ _ _ _
theorem execVexp_held (core : Fin 48) (h : KHdr) (o : VOps) (s : State) :
    ∃ t, (execVexp core h o s) = .next t ∧ t.held = s.held := by
  unfold execVexp; exact State.enqueue_held _ _ _ _ _
theorem execVln_held (core : Fin 48) (h : KHdr) (o : VOps) (s : State) :
    ∃ t, (execVln core h o s) = .next t ∧ t.held = s.held := by
  unfold execVln; exact State.enqueue_held _ _ _ _ _
theorem execVrcp_held (core : Fin 48) (h : KHdr) (o : VOps) (s : State) :
    ∃ t, (execVrcp core h o s) = .next t ∧ t.held = s.held := by
  unfold execVrcp; exact State.enqueue_held _ _ _ _ _
theorem execVrsq_held (core : Fin 48) (h : KHdr) (o : VOps) (s : State) :
    ∃ t, (execVrsq core h o s) = .next t ∧ t.held = s.held := by
  unfold execVrsq; exact State.enqueue_held _ _ _ _ _
theorem execVtanh_held (core : Fin 48) (h : KHdr) (o : VOps) (s : State) :
    ∃ t, (execVtanh core h o s) = .next t ∧ t.held = s.held := by
  unfold execVtanh; exact State.enqueue_held _ _ _ _ _
theorem execVsum_held (core : Fin 48) (h : KHdr) (o : VOps) (s : State) :
    ∃ t, (execVsum core h o s) = .next t ∧ t.held = s.held := by
  unfold execVsum; exact State.enqueue_held _ _ _ _ _
theorem execVrmax_held (core : Fin 48) (h : KHdr) (o : VOps) (s : State) :
    ∃ t, (execVrmax core h o s) = .next t ∧ t.held = s.held := by
  unfold execVrmax; exact State.enqueue_held _ _ _ _ _
theorem execVtopk_held (core : Fin 48) (h : KHdr) (o : VOps) (s : State) :
    ∃ t, (execVtopk core h o s) = .next t ∧ t.held = s.held := by
  unfold execVtopk; exact State.enqueue_held _ _ _ _ _
theorem execVpart_held (core : Fin 48) (h : KHdr) (o : VOps) (s : State) :
    ∃ t, (execVpart core h o s) = .next t ∧ t.held = s.held := by
  unfold execVpart; exact State.enqueue_held _ _ _ _ _
theorem execVmerge_held (core : Fin 48) (h : KHdr) (o : VOps) (s : State) :
    ∃ t, (execVmerge core h o s) = .next t ∧ t.held = s.held := by
  unfold execVmerge; exact State.enqueue_held _ _ _ _ _
theorem execVsample_held (core : Fin 48) (h : KHdr) (o : VOps) (s : State) :
    ∃ t, (execVsample core h o s) = .next t ∧ t.held = s.held := by
  unfold execVsample; exact State.enqueue_held _ _ _ _ _
theorem execMm_held (core : Fin 48) (h : KHdr) (o : MmOps) (s : State) :
    ∃ t, (execMm core h o s) = .next t ∧ t.held = s.held := by
  unfold execMm; exact State.enqueue_held _ _ _ _ _
theorem execMov_held (core : Fin 48) (h : KHdr) (o : MovOps) (s : State) :
    ∃ t, (execMov core h o s) = .next t ∧ t.held = s.held := by
  unfold execMov; exact State.enqueue_held _ _ _ _ _
theorem execMov2d_held (core : Fin 48) (h : KHdr) (o : Mov2dOps) (s : State) :
    ∃ t, (execMov2d core h o s) = .next t ∧ t.held = s.held := by
  unfold execMov2d; exact State.enqueue_held _ _ _ _ _
theorem execLeafrd_held (core : Fin 48) (h : KHdr) (o : LeafrdOps) (s : State) :
    ∃ t, (execLeafrd core h o s) = .next t ∧ t.held = s.held := by
  unfold execLeafrd; exact State.enqueue_held _ _ _ _ _
theorem execMoveArrived_held (core : Fin 48) (move : Nat) (how : Arrival) (s : State) :
    ∃ t, (execMoveArrived core move how s) = .next t ∧ t.held = s.held := by
  unfold execMoveArrived; (repeat' split) <;> exact ⟨_, rfl, by simp⟩
theorem execCoreProgressExpiry_held (core : Fin 48) (s : State) :
    ∃ t, (execCoreProgressExpiry core s) = .next t ∧ t.held = s.held := by
  unfold execCoreProgressExpiry; dsimp only; (repeat' split) <;> (refine ⟨_, rfl, ?_⟩; (repeat' split) <;> (first | with_reducible rfl | simp))
theorem execIntervalOverrun_held (core : Fin 48) (s : State) :
    ∃ t, (execIntervalOverrun core s) = .next t ∧ t.held = s.held := by
  unfold execIntervalOverrun; split <;> exact ⟨_, rfl, by simp⟩

end Sys2Proof.Machine
end

