-- ==== Sys2Proof/Laws/HeldJobs.lean ====
section
/-! SUPPORT. What the jobs and the commands that admit and run them leave unchanged: the held part of the state (`State.held`), operation by operation. -/

namespace Sys2Proof.Machine

-- JobBase.lean

@[simp] theorem State.makeRegions_held (s : State) (j : Job) (im : Image) : (State.makeRegions s j im).held = s.held := by
  simp [State.makeRegions]
@[simp] theorem State.markAdmitted_held (s : State) (j : Job) (footprint : Nat) :
    (State.markAdmitted s j footprint).held = s.held := by
  simp [State.markAdmitted]
@[simp] theorem State.failItems_held (s : State) (key : Nat) (l : List (Nat × Nat)) :
    (State.failItems s key l).held = s.held := by
  simp [State.failItems]
@[simp] theorem State.admitWith_held (s : State) (j : Job) (a : Admission) (begin_ : State → State) (h_begin_ : ∀ t, (begin_ t).held = t.held) :
    (State.admitWith s j a begin_).held = s.held := by
  unfold State.admitWith
  split
  · simp
  · dsimp only
    split
    · split <;> simp
    · rw [h_begin_]; simp
@[simp] theorem State.grantXfer_held (s : State) (port : Nat) (x : XferIn) : (State.grantXfer s port x).held = s.held := by
  simp [State.grantXfer]
@[simp] theorem State.nakXfer_held (s : State) (port : Nat) (tag : Nat) (st : Nat) :
    (State.nakXfer s port tag st).held = s.held := by
  simp [State.nakXfer]
@[simp] theorem State.decideWrite_held (s : State) (port : Nat) (x : XferIn) : (State.decideWrite s port x).held = s.held := by
  unfold State.decideWrite; split <;> simp
@[simp] theorem State.regrant_held (s : State) : (State.regrant s).held = s.held := by
  simp [State.regrant]
@[simp] theorem State.startAllowed_held (s : State) (j : Job) (start : State → Job → State) (h_start : ∀ t v0, (start t v0).held = t.held) :
    (State.startAllowed s j start).held = s.held := by
  unfold State.startAllowed
  split
  · simp [h_start]
  · simp
@[simp] theorem State.jobAdmit_held (s : State) (key : Nat) (isType : Job → Bool) (start : State → Job → State) (h_start : ∀ t v0, (start t v0).held = t.held) :
    (State.jobAdmit s key isType start).held = s.held := by
  unfold State.jobAdmit
  split
  · rfl
  · split
    · simp
    · rw [State.tidy_held, State.startAllowed_held _ _ _ h_start]
theorem State.jobCommand_held (s : State) (key : Nat) (type : Nat) (start : State → Job → State) (h_start : ∀ t v0, (start t v0).held = t.held) :
    ∃ t, (State.jobCommand s key type start) = .next t ∧ t.held = s.held := ⟨_, rfl, State.jobAdmit_held _ _ _ _ h_start⟩

-- Pages.lean

@[simp] theorem State.usePage_held (s : State) (c : Coll) (p : CollPage) : (State.usePage s c p).held = s.held := by
  unfold State.usePage; try dsimp only
  (repeat' split) <;> (first | with_reducible rfl | simp)
@[simp] theorem State.useCodes_held (s : State) (c : Coll) (slots : List Nat) : (State.useCodes s c slots).1.held = s.held := by
  unfold State.useCodes; try dsimp only
  (repeat' split) <;> (first | with_reducible rfl | simp)
@[simp] theorem State.dropMoved_held (s : State) (c : Coll) : (State.dropMoved s c).held = s.held := by
  unfold State.dropMoved; try dsimp only
  (repeat' split) <;> (first | with_reducible rfl | simp)

-- JobsImage.lean

@[simp] theorem State.placeImage_held (s : State) (j : Job) (bytes : Bytes) : (State.placeImage s j bytes).held = s.held := by
  simp [State.placeImage]
@[simp] theorem State.beginImageLoad_held (s : State) (j : Job) : (State.beginImageLoad s j).held = s.held := by
  unfold State.beginImageLoad; (repeat' split) <;> (first | with_reducible rfl | simp)
@[simp] theorem State.startImageLoad_held (s : State) (j : Job) : (State.startImageLoad s j).held = s.held := by
  simp [State.startImageLoad]
@[simp] theorem State.beginImageUnload_held (s : State) (j : Job) : (State.beginImageUnload s j).held = s.held := by
  simp [State.beginImageUnload]
@[simp] theorem State.startImageUnload_held (s : State) (j : Job) : (State.startImageUnload s j).held = s.held := by
  simp [State.startImageUnload]

-- JobsColl.lean

@[simp] theorem State.beginCollectionCreate_held (s : State) (j : Job) (c : Option Coll) :
    (State.beginCollectionCreate s j c).held = s.held := by
  unfold State.beginCollectionCreate; split <;> simp
@[simp] theorem State.startCollectionCreate_held (s : State) (j : Job) : (State.startCollectionCreate s j).held = s.held := by
  simp [State.startCollectionCreate]
@[simp] theorem State.notBefore_held (s : State) (c : Coll) (r : Nat) : (State.notBefore s c r).held = s.held := rfl
@[simp] theorem State.putRecord_held (s : State) (c : Coll) (r : Rec) : (State.putRecord s c r).held = s.held := by
  unfold State.putRecord; try dsimp only
  (repeat' split) <;> (first | with_reducible rfl | simp)
@[simp] theorem State.appendItem_held (s : State) (j : Job) (i : Nat) (vectors : List (List (BitVec 32))) :
    (State.appendItem s j i vectors).held = s.held := by
  unfold State.appendItem; (repeat' split) <;> (first | with_reducible rfl | simp)
@[simp] theorem State.startCollectionAppend_held (s : State) (j : Job) : (State.startCollectionAppend s j).held = s.held := by
  simp [State.startCollectionAppend]
@[simp] theorem State.runAppend_held (s : State) (key : Nat) (vectors : List (List (BitVec 32))) :
    (State.runAppend s key vectors).held = s.held := by
  unfold State.runAppend; dsimp only; (repeat' split) <;> (first | with_reducible rfl | simp)
@[simp] theorem State.deleteItem_held (s : State) (j : Job) (i : Nat) : (State.deleteItem s j i).held = s.held := by
  unfold State.deleteItem; (repeat' split) <;> (first | with_reducible rfl | simp)
@[simp] theorem State.startCollectionDelete_held (s : State) (j : Job) : (State.startCollectionDelete s j).held = s.held := by
  simp [State.startCollectionDelete]
@[simp] theorem State.filterDone_held (s : State) (x : Strain) (c : Coll) : (State.filterDone s x c).held = s.held := by
  unfold State.filterDone; split <;> simp
@[simp] theorem State.beginWalk_held (s : State) (c : Coll) (exhaustive job item : Nat) (pass : Option (List Nat)) : (State.beginWalk s c exhaustive job item pass).held = s.held := by
  unfold State.beginWalk; try dsimp only
  (repeat' split) <;> (first | with_reducible rfl | simp)
@[simp] theorem State.strainStep_held (s : State) (x : Strain) : (State.strainStep s x).held = s.held := by
  unfold State.strainStep; split <;> simp
@[simp] theorem State.startStrain_held (s : State) (x : Strain) (c : Coll) : (State.startStrain s x c).held = s.held := by
  simp [State.startStrain]
@[simp] theorem State.filterItem_held (s : State) (j : Job) (c : Coll) (i : Nat) : (State.filterItem s j c i).held = s.held := by
  unfold State.filterItem; split <;> simp
@[simp] theorem State.beginFilter_held (s : State) (j : Job) (c : Option Coll) : (State.beginFilter s j c).held = s.held := by
  unfold State.beginFilter
  split
  · rfl
  · exact held_foldl _ (fun _ _ => State.filterItem_held ..) _ _
@[simp] theorem State.startFilter_held (s : State) (j : Job) : (State.startFilter s j).held = s.held := by
  simp [State.startFilter]
@[simp] theorem State.failStrain_held (s : State) (job item : Nat) : (State.failStrain s job item).held = s.held := by
  unfold State.failStrain; try dsimp only
  (repeat' split) <;> (first | with_reducible rfl | simp)
theorem execStrainerPageEval_held (job : Nat) (item : Nat) (column : Nat) (first : Nat) (page : Option Bytes) (s : State) :
    ∃ t, (execStrainerPageEval job item column first page s) = .next t ∧ t.held = s.held := by
  unfold execStrainerPageEval; dsimp only; (repeat' split) <;> (refine ⟨_, rfl, ?_⟩; (repeat' split) <;> (first | with_reducible rfl | simp))
@[simp] theorem State.searchItem_held (s : State) (j : Job) (c : Coll) (i : Nat) : (State.searchItem s j c i).held = s.held := by
  unfold State.searchItem; dsimp only; (repeat' split) <;> (first | with_reducible rfl | simp)
@[simp] theorem State.beginSearch_held (s : State) (j : Job) (c : Option Coll) : (State.beginSearch s j c).held = s.held := by
  unfold State.beginSearch
  split
  · rfl
  · exact held_foldl _ (fun _ _ => State.searchItem_held ..) _ _
@[simp] theorem State.startSearch_held (s : State) (j : Job) : (State.startSearch s j).held = s.held := by
  simp [State.startSearch]
@[simp] theorem State.endTask_held (s : State) (job : Nat) (item : Nat) : (State.endTask s job item).held = s.held := by
  unfold State.endTask; dsimp only; (repeat' split) <;> (first | with_reducible rfl | simp)
@[simp] theorem State.expandSearch_held (s : State) (c : Coll) (x : Searching) (readable : Bool) : (State.expandSearch s c x readable).held = s.held := by
  unfold State.expandSearch; try dsimp only
  (repeat' split) <;> (first | with_reducible rfl | simp)
theorem execSearchExpansion_held (job : Nat) (item : Nat) (page : Option Bytes) (s : State) :
    ∃ t, (execSearchExpansion job item page s) = .next t ∧ t.held = s.held := by
  unfold execSearchExpansion; dsimp only; (repeat' split) <;> (refine ⟨_, rfl, ?_⟩; (repeat' split) <;> (first | with_reducible rfl | simp))
theorem execSearchRerank_held (job : Nat) (item : Nat) (unreadable : List Nat) (s : State) :
    ∃ t, (execSearchRerank job item unreadable s) = .next t ∧ t.held = s.held := by
  unfold execSearchRerank; (repeat' split) <;> exact ⟨_, rfl, by simp⟩
@[simp] theorem State.beginRecall_held (s : State) (j : Job) : (State.beginRecall s j).held = s.held := by
  simp [State.beginRecall]
@[simp] theorem State.startRecall_held (s : State) (j : Job) : (State.startRecall s j).held = s.held := by
  simp [State.startRecall]
@[simp] theorem State.runRecall_held (s : State) (key : Nat) (lost : List CollPage) :
    (State.runRecall s key lost).held = s.held := by
  unfold State.runRecall; (repeat' split) <;> (first | with_reducible rfl | simp)
@[simp] theorem State.fetchItem_held (s : State) (j : Job) (i : Nat) : (State.fetchItem s j i).held = s.held := by
  unfold State.fetchItem; (repeat' split) <;> (first | with_reducible rfl | simp)
@[simp] theorem State.startFetch_held (s : State) (j : Job) : (State.startFetch s j).held = s.held := by
  simp [State.startFetch]
theorem execMendingPassEnd_held (collection : Nat) (s : State) :
    ∃ t, (execMendingPassEnd collection s) = .next t ∧ t.held = s.held := by
  unfold execMendingPassEnd; (repeat' split) <;> exact ⟨_, rfl, by simp⟩

-- Group.lean

@[simp] theorem State.sendTo_held (s : State) (ord : Nat) (kind : Nat) (object : Nat) (target : Nat) (x : XferOut) :
    (State.sendTo s ord kind object target x).held = s.held := by
  unfold State.sendTo; split <;> simp
@[simp] theorem State.control_held (s : State) (j : Job) (object : Nat) (members : List Nat) (extra : Bytes) :
    (State.control s j object members extra).held = s.held := by
  simp [State.control]
@[simp] theorem State.settleGroup_held (s : State) (key : Nat) : (State.settleGroup s key).held = s.held := by
  unfold State.settleGroup; split <;> simp
@[simp] theorem State.ownDone_held (s : State) (key : Nat) (f : Item → Item) : (State.ownDone s key f).held = s.held := by
  simp [State.ownDone]
@[simp] theorem State.memberAnswer_held (s : State) (key : Nat) (ord : Nat) (st : Nat) :
    (State.memberAnswer s key ord st).held = s.held := by
  unfold State.memberAnswer; dsimp only; (repeat' split) <;> (first | with_reducible rfl | simp)

-- JobsSteep.lean

@[simp] theorem State.steepSpace_held (s : State) (j : Job) (im : Image) (tokens : Nat) : (State.steepSpace s j im tokens).held = s.held := by
  unfold State.steepSpace; try dsimp only
  (repeat' split) <;> (first | with_reducible rfl | simp)

@[simp] theorem State.beginSteep_held (s : State) (j : Job) (im : Image) (encTag : Nat) (home : Nat) (coll : Option Coll) :
    (State.beginSteep s j im encTag home coll).held = s.held := by
  unfold State.beginSteep; dsimp only; (repeat' split) <;> (first | with_reducible rfl | simp)
@[simp] theorem State.beginHomeSteep_held (s : State) (j : Job) (im : Option Image) (enc : Option Image) (coll : Option Coll) :
    (State.beginHomeSteep s j im enc coll).held = s.held := by
  unfold State.beginHomeSteep; split <;> simp
@[simp] theorem State.admitSteep_held (s : State) (j : Job) : (State.admitSteep s j).held = s.held := by
  simp [State.admitSteep]
@[simp] theorem State.admitSteepMember_held (s : State) (j : Job) (home : Nat) :
    (State.admitSteepMember s j home).held = s.held := by
  unfold State.admitSteepMember; dsimp only; (repeat' split) <;> (first | with_reducible rfl | simp)
@[simp] theorem State.freeGens_held (s : State) (id : Nat) : (State.freeGens s id).held = s.held := by
  unfold State.freeGens; split <;> simp
@[simp] theorem State.freeAllGens_held (s : State) : (State.freeAllGens s).held = s.held := by
  simp [State.freeAllGens]
@[simp] theorem State.settleCorpora_held (s : State) : (State.settleCorpora s).held = s.held := by
  simp [State.settleCorpora]
@[simp] theorem State.commitLayer_held (s : State) (c : Corpus) (layer : Nat) (d : StageData) :
    (State.commitLayer s c layer d).held = s.held := by
  simp [State.commitLayer]
@[simp] theorem State.finishSteep_held (s : State) (j : Job) (c : Corpus) : (State.finishSteep s j c).held = s.held := by
  simp [State.finishSteep]
@[simp] theorem State.commitStaged_held (s : State) (j : Job) (c : Corpus) (k : Coll) (recs : List (List (Option Bytes) × List Nat)) :
    (State.commitStaged s j c k recs).held = s.held := by
  unfold State.commitStaged; dsimp only
  refine (held_foldl _ (fun _ _ => by split <;> simp) _ _).trans ?_
  rw [State.modCorpus_held]
  refine (held_foldl _ (fun _ _ => State.notBefore_held ..) _ _).trans ?_
  simp
@[simp] theorem State.commitIndexed_held (s : State) (c : Corpus) (k : Coll) : (State.commitIndexed s c k).held = s.held := by
  simp [State.commitIndexed]
@[simp] theorem State.sendPrefill_held (s : State) (j : Job) (c : Corpus) (layer : Nat) (l : List HeadOut) : (State.sendPrefill s j c layer l).held = s.held := by
  unfold State.sendPrefill; try dsimp only
  (repeat' split) <;> (first | with_reducible rfl | simp)
theorem execSteepCheckpointCommit_held (job : Nat) (data : StageData) (s : State) :
    ∃ t, (execSteepCheckpointCommit job data s) = .next t ∧ t.held = s.held := by
  unfold execSteepCheckpointCommit; dsimp only; (repeat' split) <;> (refine ⟨_, rfl, ?_⟩; (repeat' split) <;> (first | with_reducible rfl | simp))

-- JobsGenerate.lean

@[simp] theorem State.queueItem_held (s : State) (j : Job) (coll : Option Coll) (i : Nat) :
    (State.queueItem s j coll i).held = s.held := by
  simp [State.queueItem]
@[simp] theorem State.beginGenerate_held (s : State) (j : Job) (im : Option Image) (coll : Option Coll) :
    (State.beginGenerate s j im coll).held = s.held := by
  unfold State.beginGenerate; split <;> simp
@[simp] theorem State.startGenerate_held (s : State) (j : Job) : (State.startGenerate s j).held = s.held := by
  simp [State.startGenerate]
@[simp] theorem State.writeToken_held (s : State) (c : Cup) (rec_ : Bytes) (alts : Nat) :
    (State.writeToken s c rec_ alts).held = s.held := by
  simp [State.writeToken]
@[simp] theorem State.sampleCup_held (s : State) (c : Cup) (logits : List (BitVec 32)) :
    (State.sampleCup s c logits).held = s.held := by
  simp [State.sampleCup]
@[simp] theorem State.endStepCup_held (s : State) (outs : List StepOut) (layers : Nat) (heads : Nat) (c : Cup) :
    (State.endStepCup s outs layers heads c).held = s.held := by
  simp [State.endStepCup]
@[simp] theorem State.finishCup_held (s : State) (c : Cup) : (State.finishCup s c).held = s.held := by
  simp [State.finishCup]
@[simp] theorem State.releasePages_held (s : State) (l : List LeafRead) : (State.releasePages s l).held = s.held := by
  unfold State.releasePages; try dsimp only
  (repeat' split) <;> (first | with_reducible rfl | simp)
@[simp] theorem State.endStep_held (s : State) (p : Nat) (outs : List StepOut) : (State.endStep s p outs).held = s.held := by
  simp [State.endStep]
@[simp] theorem State.releaseCup_held (s : State) (c : Cup) : (State.releaseCup s c).held = s.held := by
  simp [State.releaseCup]
@[simp] theorem State.releaseLeft_held (s : State) (p : Nat) : (State.releaseLeft s p).held = s.held := by
  simp [State.releaseLeft]
@[simp] theorem State.seat_held (s : State) (c : Cup) : (State.seat s c).held = s.held := by
  simp [State.seat]
theorem State.placeCup_held (s : State) (c : Cup) (size : Nat) (t : State) :
    (State.placeCup s c size) = some t → t.held = s.held := by
  intro h
  unfold State.placeCup at h
  dsimp only at h
  split at h
  · injection h with h
    rw [← h, State.seat_held, State.allocPinned_held]
  · cases h
theorem State.join_held (s : State) (p : Nat) (key : Nat) (idx : Nat) (t : State) :
    (State.join s p key idx) = some t → t.held = s.held := by
  intro h
  unfold State.join at h
  split at h
  · exact State.placeCup_held _ _ _ _ (some_of_ite h)
  · cases h
@[simp] theorem State.joins_held (s : State) (p : Nat) (x1 : List (Nat × Nat)) : (State.joins s p x1).held = s.held := by
  induction x1 generalizing s with
  | nil => rfl
  | cons a l ih =>
    obtain ⟨key, idx⟩ := a
    unfold State.joins
    split
    · rw [ih]; simp
    · split
      · rename_i h; rw [ih, State.join_held _ _ _ _ _ h]
      · split <;> simp
@[simp] theorem State.joinAll_held (s : State) (p : Nat) : (State.joinAll s p).held = s.held := by
  simp [State.joinAll]
@[simp] theorem State.sealCup_held (s : State) (idx : Nat) (n : Nat) (part : Bool) :
    (State.sealCup s idx n part).held = s.held := by
  unfold State.sealCup
  split
  · rfl
  · dsimp only
    rw [State.modCup_held]
    refine (held_foldl _ (fun s o => ?_) _ _).trans (by simp)
    split
    · rename_i h
      have e := congrArg (fun x => x.1.held) h
      simp only at e
      rw [State.modPot_held, ← e]
      split <;> simp
    · simp
@[simp] theorem State.sealFull_held (s : State) (idx : Nat) (x1 : Nat) : (State.sealFull s idx x1).held = s.held := by
  induction x1 generalizing s with
  | zero => rfl
  | succ n ih =>
    unfold State.sealFull
    split
    · split
      · rw [ih]; simp
      · rfl
    · rfl
@[simp] theorem State.sealAll_held (s : State) (p : Nat) : (State.sealAll s p).held = s.held := by
  unfold State.sealAll; try dsimp only
  (repeat' split) <;> (first | with_reducible rfl | simp)
@[simp] theorem State.fixChunk_held (s : State) (promised : Nat) (c : Cup) :
    (State.fixChunk s promised c).1.held = s.held := by
  unfold State.fixChunk; dsimp only; (repeat' split) <;> simp
@[simp] theorem State.fixChunks_held (s : State) (p : Nat) : (State.fixChunks s p).held = s.held := by
  simp [State.fixChunks]
@[simp] theorem State.readCentroids_held (s : State) (l : List LeafRead) : (State.readCentroids s l).held = s.held := by
  unfold State.readCentroids; try dsimp only
  (repeat' split) <;> (first | with_reducible rfl | simp)
@[simp] theorem State.pumpStep_held (s : State) (p g n : Nat) : (State.pumpStep s p g n).held = s.held := by
  induction n generalizing s with
  | zero => rfl
  | succ n ih =>
    unfold State.pumpStep
    dsimp only
    split <;> simp [ih]
@[simp] theorem State.pumpUnion_held (s : State) (p : Nat) : (State.pumpUnion s p).held = s.held := by
  unfold State.pumpUnion; dsimp only; (repeat' split) <;> simp
@[simp] theorem State.sendStanding_held (s : State) (n : Nat) (x : XferOut) (b : Bytes) : (State.sendStanding s n x b).held = s.held := by
  unfold State.sendStanding; try dsimp only
  (repeat' split) <;> (first | with_reducible rfl | simp)
@[simp] theorem State.shareStep_held (s : State) (p : Nat) : (State.shareStep s p).held = s.held := by
  unfold State.shareStep
  split
  · rfl
  · exact held_foldl _ (fun _ _ => by (repeat' split) <;> (first | with_reducible rfl | simp)) _ _
@[simp] theorem State.feedStep_held (s : State) (p : Nat) : (State.feedStep s p).held = s.held := by
  simp [State.feedStep]
@[simp] theorem State.standingGrant_held (s : State) (p : Nat) (ord : Nat) : (State.standingGrant s p ord).held = s.held := by
  unfold State.standingGrant; split <;> simp
@[simp] theorem State.beginStep_held (s : State) (p : Nat) (j : Option Job) (queries : List StepQ) :
    (State.beginStep s p j queries).held = s.held := by
  unfold State.beginStep; dsimp only; (repeat' split) <;> (first | with_reducible rfl | simp)
@[simp] theorem State.sendClose_held (s : State) (p : Nat) (before : List Cup) (cups : List Cup) :
    (State.sendClose s p before cups).held = s.held := by
  unfold State.sendClose; exact held_foldl _ (fun _ _ => by (repeat' split) <;> (first | with_reducible rfl | simp)) _ _
@[simp] theorem State.closeRecord_held (s : State) (ord : Nat) (r : CloseRec) : (State.closeRecord s ord r).held = s.held := by
  unfold State.closeRecord; try dsimp only
  (repeat' split) <;> (first | with_reducible rfl | simp)
@[simp] theorem State.adoptCloses_held (s : State) (p : Nat) : (State.adoptCloses s p).held = s.held := by
  unfold State.adoptCloses; try dsimp only
  (repeat' split) <;> (first | with_reducible rfl | simp)
@[simp] theorem State.stopLoop_held (s : State) (p : Nat) : (State.stopLoop s p).held = s.held := by
  simp [State.stopLoop]
@[simp] theorem State.boundaryWork_held (s : State) (p : Nat) : (State.boundaryWork s p).held = s.held := by
  simp [State.boundaryWork]
@[simp] theorem State.afterBoundary_held (s : State) (p : Nat) (j : Option Job) (queries : List StepQ) :
    (State.afterBoundary s p j queries).held = s.held := by
  unfold State.afterBoundary; split <;> simp
@[simp] theorem State.boundary_held (s : State) (p : Nat) (j : Option Job) (queries : List StepQ) : (State.boundary s p j queries).held = s.held := by
  unfold State.boundary; try dsimp only
  (repeat' split) <;> (first | with_reducible rfl | simp)
theorem execStepBoundary_held (pot : Fin 8) (outs : List StepOut) (queries : List StepQ) (s : State) :
    ∃ t, (execStepBoundary pot outs queries s) = .next t ∧ t.held = s.held := by
  unfold execStepBoundary; dsimp only; (repeat' split) <;> (refine ⟨_, rfl, ?_⟩; (repeat' split) <;> (first | with_reducible rfl | simp))
theorem execTailLeafProgramDone_held (pot : Fin 8) (cup : Nat) (layer : Nat) (head : Nat) (index : Nat) (s : State) :
    ∃ t, (execTailLeafProgramDone pot cup layer head index s) = .next t ∧ t.held = s.held := by
  unfold execTailLeafProgramDone; dsimp only; (repeat' split) <;> (refine ⟨_, rfl, ?_⟩; (repeat' split) <;> (first | with_reducible rfl | simp))
@[simp] theorem State.loseStep_held (s : State) (p st : Nat) : (State.loseStep s p st).held = s.held := by
  unfold State.loseStep; try dsimp only
  (repeat' split) <;> (first | with_reducible rfl | simp)
theorem execGroupStepLimitExpiry_held (pot : Fin 8) (s : State) :
    ∃ t, (execGroupStepLimitExpiry pot s) = .next t ∧ t.held = s.held := by
  unfold execGroupStepLimitExpiry; dsimp only; (repeat' split) <;> (refine ⟨_, rfl, ?_⟩; (repeat' split) <;> (first | with_reducible rfl | simp))
@[simp] theorem State.beginAttend_held (s : State) (j : Job) (c : Corpus) : (State.beginAttend s j c).held = s.held := by
  unfold State.beginAttend
  simp
@[simp] theorem State.startAttend_held (s : State) (j : Job) : (State.startAttend s j).held = s.held := by
  unfold State.startAttend
  refine State.admitWith_held _ _ _ _ (fun t => ?_)
  split
  · rfl
  · exact State.beginAttend_held _ _ _
@[simp] theorem State.querySats_held (s : State) (j : Job) (c : Corpus) (a : Attending) : (State.querySats s j c a).held = s.held := by
  unfold State.querySats; try dsimp only
  (repeat' split) <;> (first | with_reducible rfl | simp)
@[simp] theorem State.setAttend_held (s : State) (key : Nat) (a : Option Attending) : (State.setAttend s key a).held = s.held := by
  unfold State.setAttend; try dsimp only
  (repeat' split) <;> (first | with_reducible rfl | simp)
@[simp] theorem State.attendLayer_held (s : State) (j : Job) (c : Corpus) (a : Attending) : (State.attendLayer s j c a).held = s.held := by
  unfold State.attendLayer; dsimp only; split <;> simp
@[simp] theorem State.attendItem_held (s : State) (j : Job) (c : Corpus) (item : Nat) :
    (State.attendItem s j c item).held = s.held := by
  unfold State.attendItem; split <;> simp
theorem State.attendStep_held (s : State) (j : Job) (c : Corpus) (t : State) (h : State.attendStep s j c = some t) : t.held = s.held := by
  unfold State.attendStep at h
  dsimp only at h
  split at h
  · obtain ⟨i, _, rfl⟩ := Option.map_eq_some_iff.1 h
    simp
  · (repeat' split at h) <;> (first | (cases h; done) | (cases h; simp))
@[simp] theorem State.attendGo_held (s : State) (key n : Nat) : (State.attendGo s key n).held = s.held := by
  induction n generalizing s with
  | zero => rfl
  | succ n ih =>
    unfold State.attendGo
    (repeat' split) <;> (first | rfl | (simp; done) | (rename_i h; rw [ih]; exact State.attendStep_held _ _ _ _ h))
@[simp] theorem State.runAttend_held (s : State) (key : Nat) : (State.runAttend s key).held = s.held := by
  unfold State.runAttend; split <;> simp
@[simp] theorem State.beginRun_held (s : State) (j : Job) (im : Option Image) : (State.beginRun s j im).held = s.held := by
  unfold State.beginRun; split <;> simp
@[simp] theorem State.startRun_held (s : State) (j : Job) : (State.startRun s j).held = s.held := by
  simp [State.startRun]

-- Infuser.lean

@[simp] theorem State.feed_held (s : State) : (State.feed s).held = s.held := by
  simp [State.feed]
theorem execLeafReadComplete_held (read : Nat) (page : Bytes) (s : State) : ∃ t, (execLeafReadComplete read page s) = .next t ∧ t.held = s.held := by
  unfold execLeafReadComplete; try dsimp only
  (repeat' split) <;> (refine ⟨_, rfl, ?_⟩; (repeat' split) <;> (first | with_reducible rfl | simp))
theorem execLateReadExpiry_held (read : Nat) (s : State) : ∃ t, (execLateReadExpiry read s) = .next t ∧ t.held = s.held := by
  unfold execLateReadExpiry; try dsimp only
  (repeat' split) <;> (refine ⟨_, rfl, ?_⟩; (repeat' split) <;> (first | with_reducible rfl | simp))
theorem execReconstructComplete_held (read : Nat) (page : Option Bytes) (bays : BitVec 8) (s : State) : ∃ t, (execReconstructComplete read page bays s) = .next t ∧ t.held = s.held := by
  unfold execReconstructComplete; try dsimp only
  (repeat' split) <;> (refine ⟨_, rfl, ?_⟩; (repeat' split) <;> (first | with_reducible rfl | simp))
theorem execCentroidPageRead_held (corpus : Nat) (index : Nat) (page : Bytes) (s : State) : ∃ t, (execCentroidPageRead corpus index page s) = .next t ∧ t.held = s.held := by
  unfold execCentroidPageRead; try dsimp only
  (repeat' split) <;> (refine ⟨_, rfl, ?_⟩; (repeat' split) <;> (first | with_reducible rfl | simp))

-- JobsTable.lean

@[simp] theorem State.modTable_held (s : State) (id : Nat) (f : Table → Table) : (State.modTable s id f).held = s.held := by
  simp [State.modTable]
@[simp] theorem State.applyAt_held (s : State) (t : Table) (a : Arrive) (shelf : Bool) :
    (State.applyAt s t a shelf).held = s.held := by
  unfold State.applyAt; dsimp only; (repeat' split) <;> (first | with_reducible rfl | simp)
@[simp] theorem State.settleRows_held (s : State) (job : Nat) (item : Nat) (force : Bool) :
    (State.settleRows s job item force).held = s.held := by
  unfold State.settleRows; split <;> simp
@[simp] theorem State.settleLinkRows_held (s : State) (port : Nat) (tag : Nat) :
    (State.settleLinkRows s port tag).held = s.held := by
  unfold State.settleLinkRows; split <;> simp
@[simp] theorem State.acknowledge_held (s : State) (a : Arrive) : (State.acknowledge s a).held = s.held := by
  unfold State.acknowledge; split <;> simp
@[simp] theorem State.rowFails_held (s : State) (a : Arrive) : (State.rowFails s a).held = s.held := by
  unfold State.rowFails; split <;> simp
@[simp] theorem State.applyArrive_held (s : State) (a : Arrive) (shelf : Bool) :
    (State.applyArrive s a shelf).held = s.held := by
  unfold State.applyArrive; split <;> simp
@[simp] theorem State.setRedirect_held (s : State) (id : Nat) (row : Nat) (r : Option Redirect) :
    (State.setRedirect s id row r).held = s.held := by
  simp [State.setRedirect]
@[simp] theorem State.promote_held (s : State) (t : Table) (row : Nat) : (State.promote s t row).held = s.held := by
  simp [State.promote]
@[simp] theorem State.demote_held (s : State) (id : Nat) (row : Nat) : (State.demote s id row).held = s.held := by
  simp [State.demote]
@[simp] theorem State.serveHot_held (s : State) (q n : Nat) : (State.serveHot s q n).held = s.held := by
  induction n generalizing s with
  | zero => rfl
  | succ n ih =>
    unfold State.serveHot
    dsimp only
    (repeat' split) <;> (first | rfl | (simp [ih]; done))
@[simp] theorem State.promoteHot_held (s : State) (q : Nat) : (State.promoteHot s q).held = s.held := by
  simp [State.promoteHot]
@[simp] theorem State.access_held (s : State) (id : Nat) (row : Nat) : (State.access s id row).held = s.held := by
  unfold State.access; dsimp only; (repeat' split) <;> (first | with_reducible rfl | simp)
@[simp] theorem State.takeHeld_held (s : State) (id : Nat) (row : Nat) : (State.takeHeld s id row).1.held = s.held := by
  simp [State.takeHeld]
@[simp] theorem State.applyHeld_held (s : State) (l : List Arrive) (shelf : Bool) :
    (State.applyHeld s l shelf).held = s.held := by
  simp [State.applyHeld]
@[simp] theorem State.abandon_held (s : State) (id : Nat) (row : Nat) : (State.abandon s id row).held = s.held := by
  unfold State.abandon; split <;> simp
theorem execShelfRedirectFlip_held (table : Nat) (row : Nat) (s : State) :
    ∃ t, (execShelfRedirectFlip table row s) = .next t ∧ t.held = s.held := by
  unfold execShelfRedirectFlip; split <;> exact ⟨_, rfl, by simp⟩
theorem execShelfAbandoned_held (table : Nat) (row : Nat) (s : State) :
    ∃ t, (execShelfAbandoned table row s) = .next t ∧ t.held = s.held := by
  exact ⟨_, rfl, by simp⟩
theorem execShelfDemotion_held (table : Nat) (row : Nat) (s : State) :
    ∃ t, (execShelfDemotion table row s) = .next t ∧ t.held = s.held := by
  unfold execShelfDemotion; (repeat' split) <;> exact ⟨_, rfl, by simp⟩
theorem execHotWindowExpiry_held (quadrant : Fin 4) (s : State) :
    ∃ t, (execHotWindowExpiry quadrant s) = .next t ∧ t.held = s.held := by
  exact ⟨_, rfl, by simp⟩
@[simp] theorem State.takeArrival_held (s : State) (n : Nat) (grad : Bool) : (State.takeArrival s n grad).held = s.held := by
  unfold State.takeArrival; dsimp only; (repeat' split) <;> (first | with_reducible rfl | simp)
theorem execAtomicAdd_held (n : Nat) (s : State) : ∃ t, (execAtomicAdd n s) = .next t ∧ t.held = s.held := ⟨_, rfl, (State.tidy_held _).trans (State.takeArrival_held ..)⟩
theorem execRuleApplication_held (n : Nat) (s : State) : ∃ t, (execRuleApplication n s) = .next t ∧ t.held = s.held := ⟨_, rfl, (State.tidy_held _).trans (State.takeArrival_held ..)⟩
@[simp] theorem State.makeTable_held (s : State) (t : Table) : (State.makeTable s t).held = s.held := (held_tables _ _).trans (by split <;> simp)
@[simp] theorem State.beginTableCreate_held (s : State) (j : Job) (t : Table) :
    (State.beginTableCreate s j t).held = s.held := by
  simp [State.beginTableCreate]
@[simp] theorem State.startTableCreate_held (s : State) (j : Job) : (State.startTableCreate s j).held = s.held := by
  simp [State.startTableCreate]
@[simp] theorem State.beginTableRule_held (s : State) (j : Job) (t : Table) (hyper : Option (List (BitVec 32))) :
    (State.beginTableRule s j t hyper).held = s.held := by
  simp [State.beginTableRule]
@[simp] theorem State.startTableRule_held (s : State) (j : Job) : (State.startTableRule s j).held = s.held := by
  simp [State.startTableRule]
@[simp] theorem State.saveTable_held (s : State) (id : Nat) (home : Bool) :
    (State.saveTable s id home).held = s.held := by
  simp [State.saveTable]
@[simp] theorem State.finishAdds_held (s : State) (id : Nat) : (State.finishAdds s id).held = s.held := by
  unfold State.finishAdds; try dsimp only
  (repeat' split) <;> (first | with_reducible rfl | simp)
@[simp] theorem State.loadTable_held (s : State) (id : Nat) (home : Bool) :
    (State.loadTable s id home).held = s.held := by
  simp [State.loadTable]
@[simp] theorem State.beginTableSave_held (s : State) (j : Job) (t : Table) : (State.beginTableSave s j t).held = s.held := by
  simp [State.beginTableSave]
@[simp] theorem State.startTableSave_held (s : State) (j : Job) : (State.startTableSave s j).held = s.held := by
  simp [State.startTableSave]
@[simp] theorem State.beginTableLoad_held (s : State) (j : Job) (t : Table) : (State.beginTableLoad s j t).held = s.held := by
  simp [State.beginTableLoad]
@[simp] theorem State.startTableLoad_held (s : State) (j : Job) : (State.startTableLoad s j).held = s.held := by
  simp [State.startTableLoad]
@[simp] theorem State.finishBag_held (s : State) (job : Nat) (item : Nat) (acc : List (List (BitVec 32))) :
    (State.finishBag s job item acc).held = s.held := by
  unfold State.finishBag; dsimp only; (repeat' split) <;> simp
@[simp] theorem State.bagItem_held (s : State) (j : Job) (i : Nat) : (State.bagItem s j i).held = s.held := by
  unfold State.bagItem; (repeat' split) <;> (first | with_reducible rfl | simp)
@[simp] theorem State.startBag_held (s : State) (j : Job) : (State.startBag s j).held = s.held := by
  simp [State.startBag]
@[simp] theorem State.partReceived_held (s : State) (job : Nat) (item : Nat) (member : Nat) (part : Bytes) :
    (State.partReceived s job item member part).held = s.held := by
  unfold State.partReceived; (repeat' split) <;> (first | with_reducible rfl | simp)
theorem execBagPartReceived_held (job : Nat) (item : Nat) (member : Fin 5) (part : Bytes) (s : State) :
    ∃ t, (execBagPartReceived job item member part s) = .next t ∧ t.held = s.held := by
  exact ⟨_, rfl, by simp⟩
@[simp] theorem State.endWait_held (s : State) (job : Nat) (item : Nat) (st : Nat) :
    (State.endWait s job item st).held = s.held := by
  simp [State.endWait]
theorem execBagWaitExpiry_held (job : Nat) (item : Nat) (s : State) :
    ∃ t, (execBagWaitExpiry job item s) = .next t ∧ t.held = s.held := ⟨_, rfl, (State.tidy_held _).trans (State.endWait_held ..)⟩
@[simp] theorem State.rowsItem_held (s : State) (j : Job) (i : Nat) (grad : Bool) :
    (State.rowsItem s j i grad).held = s.held := by
  unfold State.rowsItem; (repeat' split) <;> (first | with_reducible rfl | simp)
@[simp] theorem State.startRows_held (s : State) (j : Job) (grad : Bool) : (State.startRows s j grad).held = s.held := by
  simp [State.startRows]
@[simp] theorem State.rowsAnswer_held (s : State) (job : Nat) (item : Nat) (ord : Nat) (st : Nat) :
    (State.rowsAnswer s job item ord st).held = s.held := by
  simp [State.rowsAnswer]
@[simp] theorem State.dropTable_held (s : State) (id : Nat) : (State.dropTable s id).held = s.held := by
  simp [State.dropTable]
@[simp] theorem State.dropColl_held (s : State) (id : Nat) : (State.dropColl s id).held = s.held := by
  simp [State.dropColl]
@[simp] theorem State.beginDrop_held (s : State) (j : Job) (members : List Nat) :
    (State.beginDrop s j members).held = s.held := by
  unfold State.beginDrop; split <;> simp
@[simp] theorem State.startDrop_held (s : State) (j : Job) : (State.startDrop s j).held = s.held := by
  simp [State.startDrop]

-- Admission.lean

@[simp] theorem State.startJob_held (s : State) (j : Job) : (State.startJob s j).held = s.held := by
  unfold State.startJob; (repeat' split) <;> (first | with_reducible rfl | simp)
theorem execOrderedJobAdmit_held (job : Nat) (s : State) : ∃ t, (execOrderedJobAdmit job s) = .next t ∧ t.held = s.held := by
  unfold execOrderedJobAdmit; split <;> exact ⟨_, rfl, by simp⟩
theorem execDeferredJobAdmit_held (job : Nat) (s : State) : ∃ t, (execDeferredJobAdmit job s) = .next t ∧ t.held = s.held := by
  unfold execDeferredJobAdmit; split <;> exact ⟨_, rfl, by simp⟩
theorem execImageLoad_held (job : Nat) (s : State) : ∃ t, (execImageLoad job s) = .next t ∧ t.held = s.held := by
  unfold execImageLoad; exact State.jobCommand_held _ _ _ _ (fun _ _ => by simp)
theorem execImageUnload_held (job : Nat) (s : State) : ∃ t, (execImageUnload job s) = .next t ∧ t.held = s.held := by
  unfold execImageUnload; exact State.jobCommand_held _ _ _ _ (fun _ _ => by simp)
theorem execSteep_held (job : Nat) (s : State) : ∃ t, (execSteep job s) = .next t ∧ t.held = s.held := ⟨_, rfl, State.jobAdmit_held _ _ _ _ (fun _ _ => by simp)⟩
theorem execSteepResume_held (job : Nat) (s : State) : ∃ t, (execSteepResume job s) = .next t ∧ t.held = s.held := ⟨_, rfl, State.jobAdmit_held _ _ _ _ (fun _ _ => by simp)⟩
theorem execGenerate_held (job : Nat) (s : State) : ∃ t, (execGenerate job s) = .next t ∧ t.held = s.held := by
  unfold execGenerate; exact State.jobCommand_held _ _ _ _ (fun _ _ => by simp)
theorem execAttend_held (job : Nat) (s : State) : ∃ t, (execAttend job s) = .next t ∧ t.held = s.held := ⟨_, rfl, (State.tidy_held _).trans ((State.runAttend_held _ _).trans (State.jobAdmit_held _ _ _ _ (fun _ _ => State.startAttend_held ..)))⟩
theorem execCollectionCreate_held (job : Nat) (s : State) : ∃ t, (execCollectionCreate job s) = .next t ∧ t.held = s.held := by
  unfold execCollectionCreate; exact State.jobCommand_held _ _ _ _ (fun _ _ => by simp)
theorem execCollectionAppend_held (job : Nat) (vectors : List (List (BitVec 32))) (s : State) :
    ∃ t, (execCollectionAppend job vectors s) = .next t ∧ t.held = s.held := ⟨_, rfl, (State.tidy_held _).trans ((State.runAppend_held _ _ _).trans (State.jobAdmit_held _ _ _ _ (fun _ _ => State.startCollectionAppend_held ..)))⟩
theorem execCollectionDelete_held (job : Nat) (s : State) : ∃ t, (execCollectionDelete job s) = .next t ∧ t.held = s.held := by
  unfold execCollectionDelete; exact State.jobCommand_held _ _ _ _ (fun _ _ => by simp)
theorem execFilter_held (job : Nat) (s : State) : ∃ t, (execFilter job s) = .next t ∧ t.held = s.held := by
  unfold execFilter; exact State.jobCommand_held _ _ _ _ (fun _ _ => by simp)
theorem execSearch_held (job : Nat) (s : State) : ∃ t, (execSearch job s) = .next t ∧ t.held = s.held := by
  unfold execSearch; exact State.jobCommand_held _ _ _ _ (fun _ _ => by simp)
theorem execRecallJob_held (run : RecallRun) (s : State) :
    ∃ t, (execRecallJob run s) = .next t ∧ t.held = s.held := ⟨_, rfl, (State.tidy_held _).trans ((State.runRecall_held _ _ _).trans (State.jobAdmit_held _ _ _ _ (fun _ _ => State.startRecall_held ..)))⟩
theorem execFetchJob_held (job : Nat) (s : State) : ∃ t, (execFetchJob job s) = .next t ∧ t.held = s.held := by
  unfold execFetchJob; exact State.jobCommand_held _ _ _ _ (fun _ _ => by simp)
theorem execTableCreate_held (job : Nat) (s : State) : ∃ t, (execTableCreate job s) = .next t ∧ t.held = s.held := by
  unfold execTableCreate; exact State.jobCommand_held _ _ _ _ (fun _ _ => by simp)
theorem execTableRule_held (job : Nat) (s : State) : ∃ t, (execTableRule job s) = .next t ∧ t.held = s.held := by
  unfold execTableRule; exact State.jobCommand_held _ _ _ _ (fun _ _ => by simp)
theorem execBag_held (job : Nat) (s : State) : ∃ t, (execBag job s) = .next t ∧ t.held = s.held := by
  unfold execBag; exact State.jobCommand_held _ _ _ _ (fun _ _ => by simp)
theorem execAddJob_held (job : Nat) (s : State) : ∃ t, (execAddJob job s) = .next t ∧ t.held = s.held := by
  unfold execAddJob; exact State.jobCommand_held _ _ _ _ (fun _ _ => by simp)
theorem execUpdate_held (job : Nat) (s : State) : ∃ t, (execUpdate job s) = .next t ∧ t.held = s.held := by
  unfold execUpdate; exact State.jobCommand_held _ _ _ _ (fun _ _ => by simp)
theorem execTableSave_held (job : Nat) (s : State) : ∃ t, (execTableSave job s) = .next t ∧ t.held = s.held := by
  unfold execTableSave; exact State.jobCommand_held _ _ _ _ (fun _ _ => by simp)
theorem execTableLoad_held (job : Nat) (s : State) : ∃ t, (execTableLoad job s) = .next t ∧ t.held = s.held := by
  unfold execTableLoad; exact State.jobCommand_held _ _ _ _ (fun _ _ => by simp)
theorem execDropJob_held (job : Nat) (s : State) : ∃ t, (execDropJob job s) = .next t ∧ t.held = s.held := by
  unfold execDropJob; exact State.jobCommand_held _ _ _ _ (fun _ _ => by simp)
theorem execRunJob_held (job : Nat) (s : State) : ∃ t, (execRunJob job s) = .next t ∧ t.held = s.held := by
  unfold execRunJob; exact State.jobCommand_held _ _ _ _ (fun _ _ => by simp)

-- Pots.lean

theorem execSliceEnd_held (pot : Fin 8) (elapsedNs : Nat) (s : State) :
    ∃ t, (execSliceEnd pot elapsedNs s) = .next t ∧ t.held = s.held := by
  unfold execSliceEnd; dsimp only; (repeat' split) <;> (refine ⟨_, rfl, ?_⟩; (repeat' split) <;> (first | with_reducible rfl | simp))
theorem execPreemptDrainExpiry_held (pot : Fin 8) (s : State) :
    ∃ t, (execPreemptDrainExpiry pot s) = .next t ∧ t.held = s.held := by
  unfold execPreemptDrainExpiry; dsimp only; (repeat' split) <;> (refine ⟨_, rfl, ?_⟩; (repeat' split) <;> (first | with_reducible rfl | simp))
theorem execPreemptLimitExpiry_held (pot : Fin 8) (overNs : Nat) (s : State) :
    ∃ t, (execPreemptLimitExpiry pot overNs s) = .next t ∧ t.held = s.held := by
  unfold execPreemptLimitExpiry; dsimp only; (repeat' split) <;> (refine ⟨_, rfl, ?_⟩; (repeat' split) <;> (first | with_reducible rfl | simp))
theorem execLatencyTargetExpiry_held (job : Nat) (overNs : Nat) (s : State) :
    ∃ t, (execLatencyTargetExpiry job overNs s) = .next t ∧ t.held = s.held := by
  unfold execLatencyTargetExpiry; dsimp only; (repeat' split) <;> (refine ⟨_, rfl, ?_⟩; (repeat' split) <;> (first | with_reducible rfl | simp))
theorem execEvictWaitEnd_held (pot : Fin 8) (s : State) : ∃ t, (execEvictWaitEnd pot s) = .next t ∧ t.held = s.held := by
  exact ⟨_, rfl, by simp⟩
theorem execQuotaWaitExpiry_held (pot : Fin 8) (other : Fin 8) (bytes : Nat) (s : State) :
    ∃ t, (execQuotaWaitExpiry pot other bytes s) = .next t ∧ t.held = s.held := by
  unfold execQuotaWaitExpiry; dsimp only; (repeat' split) <;> (refine ⟨_, rfl, ?_⟩; (repeat' split) <;> (first | with_reducible rfl | simp))
theorem execShareWindowEnd_held (pot : Fin 8) (winner : Fin 8) (shortNs : Nat) (s : State) :
    ∃ t, (execShareWindowEnd pot winner shortNs s) = .next t ∧ t.held = s.held := by
  unfold execShareWindowEnd; split <;> exact ⟨_, rfl, by simp⟩
theorem execStallLimitExpiry_held (job : Nat) (cause : Fin 17) (bay : Option (Fin 8)) (waitedNs : Nat) (layer : BitVec 16) (oper : BitVec 16) (s : State) :
    ∃ t, (execStallLimitExpiry job cause bay waitedNs layer oper s) = .next t ∧ t.held = s.held := by
  unfold execStallLimitExpiry; dsimp only; (repeat' split) <;> (refine ⟨_, rfl, ?_⟩; (repeat' split) <;> (first | with_reducible rfl | simp))
@[simp] theorem State.stopPot_held (s : State) (p : Nat) : (State.stopPot s p).held = s.held := by
  simp [State.stopPot]
theorem execPotStop_held (fn : PcieFn) (pot : Fin 8) (s : State) : ∃ t, (execPotStop fn pot s) = .next t ∧ t.held = s.held := by
  unfold execPotStop
  split
  · exact ⟨_, rfl, (State.tidy_held _).trans (State.stopPot_held ..)⟩
  · exact ⟨_, rfl, rfl⟩
@[simp] theorem State.restartPot_held (s : State) (p : Nat) : (State.restartPot s p).held = s.held := by
  simp [State.restartPot]
theorem execPotRestart_held (fn : PcieFn) (pot : Fin 8) (s : State) :
    ∃ t, (execPotRestart fn pot s) = .next t ∧ t.held = s.held := by
  unfold execPotRestart
  split
  · exact ⟨_, rfl, (State.tidy_held _).trans (State.restartPot_held ..)⟩
  · exact ⟨_, rfl, rfl⟩
@[simp] theorem State.failCore_held (s : State) (c : Nat) : (State.failCore s c).held = s.held := by
  unfold State.failCore; split <;> simp
@[simp] theorem State.loseCore_held (s : State) (c : Nat) : (State.loseCore s c).held = s.held := by
  unfold State.loseCore; dsimp only; (repeat' split) <;> (first | with_reducible rfl | simp)
@[simp] theorem State.datapathFail_held (s : State) (phys : Nat) : (State.datapathFail s phys).held = s.held := by
  unfold State.datapathFail; try dsimp only
  (repeat' split) <;> (first | with_reducible rfl | simp)
theorem execDatapathCheckFail_held (phys : Fin 52) (s : State) :
    ∃ t, (execDatapathCheckFail phys s) = .next t ∧ t.held = s.held := by
  unfold execDatapathCheckFail; (repeat' split) <;> exact ⟨_, rfl, by simp⟩
@[simp] theorem State.rerun_held (s : State) (c : Nat) (inv : Invocation) : (State.rerun s c inv).held = s.held := by
  simp [State.rerun]
theorem execSpareTakeoverResume_held (quadrant : Fin 4) (ok : Bool) (s : State) :
    ∃ t, (execSpareTakeoverResume quadrant ok s) = .next t ∧ t.held = s.held := by
  unfold execSpareTakeoverResume; (repeat' split) <;> (refine ⟨_, rfl, ?_⟩; (repeat' split) <;> (first | with_reducible rfl | simp))

-- Arrays.lean

theorem execStationaryLoadDone_held (core : Fin 48) (s : State) : ∃ t, (execStationaryLoadDone core s) = .next t ∧ t.held = s.held := by
  unfold execStationaryLoadDone; try dsimp only
  (repeat' split) <;> (refine ⟨_, rfl, ?_⟩; (repeat' split) <;> (first | with_reducible rfl | simp))
theorem execPassLanded_held (core : Fin 48) (s : State) : ∃ t, (execPassLanded core s) = .next t ∧ t.held = s.held := by
  unfold execPassLanded; try dsimp only
  (repeat' split) <;> (refine ⟨_, rfl, ?_⟩; (repeat' split) <;> (first | with_reducible rfl | simp))
theorem execSpoutDrain_held (core : Fin 48) (s : State) : ∃ t, (execSpoutDrain core s) = .next t ∧ t.held = s.held := by
  unfold execSpoutDrain; try dsimp only
  (repeat' split) <;> (refine ⟨_, rfl, ?_⟩; (repeat' split) <;> (first | with_reducible rfl | simp))

-- Waits.lean

@[simp] theorem State.countUnits_held (s : State) (c : Nat) : (State.countUnits s c).held = s.held := by
  unfold State.countUnits; try dsimp only
  (repeat' split) <;> (first | with_reducible rfl | simp)
@[simp] theorem State.countWait_held (s : State) (w : Nat × Job × Nat) : (State.countWait s w).held = s.held := by
  unfold State.countWait; try dsimp only
  (repeat' split) <;> (first | with_reducible rfl | simp)
@[simp] theorem State.waited_held (s : State) : (State.waited s).held = s.held := by
  unfold State.waited; try dsimp only
  (repeat' split) <;> (first | with_reducible rfl | simp)

end Sys2Proof.Machine
end

