-- ==== Sys2Proof/Laws/HeldMedia.lean ====
section
/-! SUPPORT. What the storage function, flash media and caddies leave unchanged: the held part of the state (`State.held`), operation by operation. -/

namespace Sys2Proof.Machine

-- Nvme.lean

@[simp] theorem State.nvDone_held (s : State) (c : NvCmd) (st : NvStatus) (result : Nat) :
    (State.nvDone s c st result).held = s.held := by
  simp [State.nvDone]
@[simp] theorem State.nvRun_held (s : State) (f : State → State) (h_f : ∀ t, (f t).held = t.held) :
    (State.nvRun s f).held = s.held := by
  unfold State.nvRun
  split
  · exact h_f s
  · rfl
@[simp] theorem State.nvEvent_held (s : State) (page : Nat) : (State.nvEvent s page).held = s.held := by
  unfold State.nvEvent; split <;> simp
@[simp] theorem State.modNs_held (s : State) (id : Nat) (f : Namespace → Namespace) : (State.modNs s id f).held = s.held := by
  simp [State.modNs]
@[simp] theorem State.makeKey_held (s : State) : (State.makeKey s).1.held = s.held := by
  simp [State.makeKey]
@[simp] theorem State.putBlock_held (s : State) (nsid : Nat) (lba : Nat) (data : Bytes) (seq : Nat) (i : Nat) :
    (State.putBlock s nsid lba data seq i).held = s.held := by
  simp [State.putBlock]
@[simp] theorem State.acceptWrite_held (s : State) (c : NvCmd) (slba : Nat) (data : List Bytes) (fua : Bool) :
    (State.acceptWrite s c slba data fua).held = s.held := by
  simp [State.acceptWrite]
@[simp] theorem State.commitBlock_held (s : State) (b : BufBlock) (through : Bool) :
    (State.commitBlock s b through).held = s.held := by
  simp [State.commitBlock]
@[simp] theorem State.nvSettleOne_held (s : State) (w : NvWait) : (State.nvSettleOne s w).held = s.held := by
  unfold State.nvSettleOne; split <;> simp
@[simp] theorem State.nvSettle_held (s : State) : (State.nvSettle s).held = s.held := by
  simp [State.nvSettle]
@[simp] theorem State.commitWrite_held (s : State) (seq : Nat) : (State.commitWrite s seq).held = s.held := by
  simp [State.commitWrite]
@[simp] theorem State.drainBuffer_held (s : State) : (State.drainBuffer s).held = s.held := by
  simp [State.drainBuffer]
@[simp] theorem State.deallocate_held (s : State) (nsid : Nat) (slba : Nat) (nlb : Nat) :
    (State.deallocate s nsid slba nlb).held = s.held := by
  simp [State.deallocate]
@[simp] theorem State.toPrp_held (s : State) (prp : Prp) (data : Bytes) : (State.toPrp s prp data).held = s.held := by
  simp [State.toPrp]
@[simp] theorem State.lostBlock_held (s : State) (c : NvCmd) (n : Namespace) (lba : Nat) :
    (State.lostBlock s c n lba).held = s.held := by
  simp [State.lostBlock]
@[simp] theorem State.runIo_held (s : State) (c : NvCmd) (io : NvIo) : (State.runIo s c io).held = s.held := by
  unfold State.runIo; (repeat' split) <;> (first | with_reducible rfl | simp)
@[simp] theorem State.fetchIo_held (s : State) (c : NvCmd) (io : NvIo) : (State.fetchIo s c io).held = s.held := by
  simp [State.fetchIo]
@[simp] theorem State.runHeldIo_held (s : State) : (State.runHeldIo s).held = s.held := by
  unfold State.runHeldIo; exact held_foldl _ (fun _ _ => by (repeat' split) <;> (first | with_reducible rfl | simp)) _ _
theorem execNvmRead_held (c : NvCmd) (slba : Nat) (nlb : Nat) (prp : Prp) (readable : Bool) (s : State) :
    ∃ t, (execNvmRead c slba nlb prp readable s) = .next t ∧ t.held = s.held := by
  exact ⟨_, rfl, by simp⟩
theorem execNvmWrite_held (c : NvCmd) (slba : Nat) (nlb : Nat) (prp : Prp) (fua : Bool) (s : State) :
    ∃ t, (execNvmWrite c slba nlb prp fua s) = .next t ∧ t.held = s.held := by
  exact ⟨_, rfl, by simp⟩
theorem execNvmFlush_held (c : NvCmd) (s : State) : ∃ t, (execNvmFlush c s) = .next t ∧ t.held = s.held := by
  exact ⟨_, rfl, by simp⟩
theorem execWriteZeroes_held (c : NvCmd) (slba : Nat) (nlb : Nat) (s : State) :
    ∃ t, (execWriteZeroes c slba nlb s) = .next t ∧ t.held = s.held := by
  exact ⟨_, rfl, by simp⟩
theorem execDatasetManagement_held (c : NvCmd) (deallocate : Bool) (ranges : List (Nat × Nat)) (s : State) :
    ∃ t, (execDatasetManagement c deallocate ranges s) = .next t ∧ t.held = s.held := by
  exact ⟨_, rfl, by simp⟩
theorem execInvalidCommandOpcode_held (c : NvCmd) (_opcode : Byte) (s : State) :
    ∃ t, (execInvalidCommandOpcode c _opcode s) = .next t ∧ t.held = s.held := by
  exact ⟨_, rfl, by simp⟩
theorem execNamespaceCreate_held (c : NvCmd) (nsze : Nat) (vendor : Byte) (s : State) :
    ∃ t, (execNamespaceCreate c nsze vendor s) = .next t ∧ t.held = s.held := by
  exact ⟨_, rfl, by simp⟩
theorem execNamespaceDelete_held (c : NvCmd) (s : State) : ∃ t, (execNamespaceDelete c s) = .next t ∧ t.held = s.held := by
  exact ⟨_, rfl, by simp⟩
theorem execNamespaceAttachment_held (c : NvCmd) (attach : Bool) (s : State) :
    ∃ t, (execNamespaceAttachment c attach s) = .next t ∧ t.held = s.held := by
  refine ⟨_, rfl, State.nvRun_held _ _ (fun t => ?_)⟩
  (repeat' split) <;> simp
@[simp] theorem State.eraseNs_held (s : State) (nsid : Nat) (newKey : Bool) : (State.eraseNs s nsid newKey).held = s.held := by
  simp [State.eraseNs]
theorem execFormatNvm_held (c : NvCmd) (ses : Nat) (s : State) : ∃ t, (execFormatNvm c ses s) = .next t ∧ t.held = s.held := by
  exact ⟨_, rfl, by simp⟩
@[simp] theorem State.sanitize_held (s : State) (c : NvCmd) (crypto : Bool) : (State.sanitize s c crypto).held = s.held := by
  simp [State.sanitize]
theorem execSanitizeBlockErase_held (c : NvCmd) (s : State) : ∃ t, (execSanitizeBlockErase c s) = .next t ∧ t.held = s.held := by
  exact ⟨_, rfl, by simp⟩
theorem execSanitizeCryptoErase_held (c : NvCmd) (s : State) :
    ∃ t, (execSanitizeCryptoErase c s) = .next t ∧ t.held = s.held := by
  exact ⟨_, rfl, by simp⟩
theorem execCreateIoQueue_held (c : NvCmd) (completion : Bool) (qid : Nat) (size : Nat) (cqid : Nat) (base : Nat) (s : State) :
    ∃ t, (execCreateIoQueue c completion qid size cqid base s) = .next t ∧ t.held = s.held := by
  exact ⟨_, rfl, by simp⟩
theorem execDeleteIoQueue_held (c : NvCmd) (completion : Bool) (qid : Nat) (s : State) : ∃ t, (execDeleteIoQueue c completion qid s) = .next t ∧ t.held = s.held := by
  unfold execDeleteIoQueue; try dsimp only
  (repeat' split) <;> (refine ⟨_, rfl, ?_⟩; (repeat' split) <;> (first | with_reducible rfl | simp))
theorem execAbortCmd_held (c : NvCmd) (sqid : Nat) (cid : Nat) (s : State) :
    ∃ t, (execAbortCmd c sqid cid s) = .next t ∧ t.held = s.held := by
  refine ⟨_, rfl, State.nvRun_held _ _ (fun t => ?_)⟩
  (repeat' split) <;> simp
theorem execAsyncEventRequest_held (c : NvCmd) (s : State) : ∃ t, (execAsyncEventRequest c s) = .next t ∧ t.held = s.held := by
  refine ⟨_, rfl, State.nvRun_held _ _ (fun t => ?_)⟩
  (repeat' split) <;> simp
theorem execGetFeatures_held (c : NvCmd) (fid : Nat) (s : State) :
    ∃ t, (execGetFeatures c fid s) = .next t ∧ t.held = s.held := by
  exact ⟨_, rfl, by simp⟩
theorem execSetFeatures_held (c : NvCmd) (fid : Nat) (dw11 : BitVec 32) (hmb : List (Nat × Nat)) (s : State) :
    ∃ t, (execSetFeatures c fid dw11 hmb s) = .next t ∧ t.held = s.held := by
  exact ⟨_, rfl, by simp⟩
theorem execGetLogPage_held (c : NvCmd) (lid : Nat) (offset : Nat) (len : Nat) (lsp : Nat) (rae : Bool) (prp : Prp) (s : State) :
    ∃ t, (execGetLogPage c lid offset len lsp rae prp s) = .next t ∧ t.held = s.held := by
  refine ⟨_, rfl, State.nvRun_held _ _ (fun t => ?_)⟩
  dsimp only
  split
  · simp
  · split
    · simp
    · rw [State.nvDone_held]
      split <;> simp
theorem execIdentify_held (c : NvCmd) (cns : Nat) (prp : Prp) (s : State) :
    ∃ t, (execIdentify c cns prp s) = .next t ∧ t.held = s.held := by
  exact ⟨_, rfl, by simp⟩
theorem execControllerEnable_held (s : State) : ∃ t, (execControllerEnable s) = .next t ∧ t.held = s.held := by
  unfold execControllerEnable; split <;> exact ⟨_, rfl, by simp⟩
theorem execPf0Reset_held (s : State) : ∃ t, (execPf0Reset s) = .next t ∧ t.held = s.held := by
  exact ⟨_, rfl, by simp⟩

-- Media.lean

@[simp] theorem State.wearEntry_held (s : State) (n : Nat) (kind : Nat) : (State.wearEntry s n kind).held = s.held := by
  simp [State.wearEntry]
@[simp] theorem State.makeReadOnly_held (s : State) (n : Nat) : (State.makeReadOnly s n).held = s.held := by
  simp [State.makeReadOnly]
@[simp] theorem State.updateWear_held (s : State) (n : Nat) : (State.updateWear s n).held = s.held := by
  simp [State.updateWear]
@[simp] theorem State.modGroup_held (s : State) (g : Nat) (f : Group → Group) : (State.modGroup s g f).held = s.held := by
  simp [State.modGroup]
@[simp] theorem State.retireBlock_held (s : State) (n : Nat) (g : Nat) : (State.retireBlock s n g).held = s.held := by
  unfold State.retireBlock; dsimp only; (repeat' split) <;> (first | with_reducible rfl | simp)
@[simp] theorem State.eraseGroup_held (s : State) (g : Nat) : (State.eraseGroup s g).held = s.held := by
  simp [State.eraseGroup]
@[simp] theorem State.appendPages_held (s : State) (g : Nat) (pages : List Payload) :
    (State.appendPages s g pages).held = s.held := by
  simp [State.appendPages]
@[simp] theorem State.relocate_held (s : State) (g : Nat) : (State.relocate s g).held = s.held := by
  unfold State.relocate; split <;> simp
@[simp] theorem State.beginStripe_held (s : State) (g : Nat) (page : Nat) (pslc : Bool) (load : Payload) (data : Bytes) :
    (State.beginStripe s g page pslc load data).held = s.held := by
  simp [State.beginStripe]
@[simp] theorem State.writeFaults_held (s : State) (seq : Nat) : (State.writeFaults s seq).held = s.held := by
  simp [State.writeFaults]
@[simp] theorem State.closeFull_held (s : State) (g : Nat) : (State.closeFull s g).held = s.held := by
  unfold State.closeFull; split <;> simp
@[simp] theorem State.settleStripe_held (s : State) (t : Stripe) : (State.settleStripe s t).held = s.held := by
  unfold State.settleStripe; (repeat' split) <;> (first | with_reducible rfl | simp)
@[simp] theorem State.settleStripes_held (s : State) : (State.settleStripes s).held = s.held := by
  simp [State.settleStripes]
@[simp] theorem State.padFor_held (s : State) (t : Stripe) : (State.padFor s t).held = s.held := by
  unfold State.padFor; (repeat' split) <;> (first | with_reducible rfl | simp)
@[simp] theorem State.memberDone_held (s : State) (key : Nat) (n : Nat) (ok : Bool) :
    (State.memberDone s key n ok).held = s.held := by
  unfold State.memberDone; dsimp only; (repeat' split) <;> (first | with_reducible rfl | simp)
@[simp] theorem State.voidStripe_held (s : State) (key : Nat) : (State.voidStripe s key).held = s.held := by
  simp [State.voidStripe]
theorem execWriteBufferProgram_held (nsid : Nat) (lba : Nat) (group : Nat) (page : Nat) (s : State) :
    ∃ t, (execWriteBufferProgram nsid lba group page s) = .next t ∧ t.held = s.held := by
  unfold execWriteBufferProgram; dsimp only; (repeat' split) <;> (refine ⟨_, rfl, ?_⟩; (repeat' split) <;> (first | with_reducible rfl | simp))
@[simp] theorem State.dropOp_held (s : State) (key : Nat) : (State.dropOp s key).held = s.held := by
  simp [State.dropOp]
@[simp] theorem State.modOp_held (s : State) (key : Nat) (f : MediaOp → MediaOp) : (State.modOp s key f).held = s.held := by
  simp [State.modOp]
@[simp] theorem State.resumeErase_held (s : State) (o : MediaOp) : (State.resumeErase s o).held = s.held := by
  simp [State.resumeErase]
@[simp] theorem State.servedBy_held (s : State) (r : MediaOp) : (State.servedBy s r).held = s.held := by
  unfold State.servedBy; split <;> simp
@[simp] theorem State.readFailed_held (s : State) (o : MediaOp) : (State.readFailed s o).held = s.held := by
  simp [State.readFailed]
theorem execFlashReadDone_held (op : Nat) (ok : Bool) (s : State) :
    ∃ t, (execFlashReadDone op ok s) = .next t ∧ t.held = s.held := by
  unfold execFlashReadDone; (repeat' split) <;> exact ⟨_, rfl, by simp⟩
theorem execFlashProgramDone_held (op : Nat) (ok : Bool) (s : State) :
    ∃ t, (execFlashProgramDone op ok s) = .next t ∧ t.held = s.held := by
  unfold execFlashProgramDone; (repeat' split) <;> exact ⟨_, rfl, by simp⟩
@[simp] theorem State.freeErased_held (s : State) (g : Nat) : (State.freeErased s g).held = s.held := by
  simp [State.freeErased]
theorem execFlashEraseDone_held (op : Nat) (ok : Bool) (s : State) :
    ∃ t, (execFlashEraseDone op ok s) = .next t ∧ t.held = s.held := by
  unfold execFlashEraseDone; (repeat' split) <;> exact ⟨_, rfl, by simp⟩
theorem execEraseSuspend_held (op : Nat) (s : State) : ∃ t, (execEraseSuspend op s) = .next t ∧ t.held = s.held := by
  unfold execEraseSuspend; (repeat' split) <;> exact ⟨_, rfl, by simp⟩
theorem execEraseResume_held (op : Nat) (s : State) : ∃ t, (execEraseResume op s) = .next t ∧ t.held = s.held := by
  unfold execEraseResume; (repeat' split) <;> exact ⟨_, rfl, by simp⟩
@[simp] theorem State.cutErase_held (s : State) (o : MediaOp) : (State.cutErase s o).held = s.held := by
  simp [State.cutErase]
theorem execDieOpTimeout_held (op : Nat) (s : State) : ∃ t, (execDieOpTimeout op s) = .next t ∧ t.held = s.held := by
  unfold execDieOpTimeout; split <;> exact ⟨_, rfl, by simp⟩
theorem execGarbageCollection_held (s : State) : ∃ t, (execGarbageCollection s) = .next t ∧ t.held = s.held := by
  unfold execGarbageCollection; (repeat' split) <;> exact ⟨_, rfl, by simp⟩
theorem execFold_held (group : Nat) (target : Nat) (page : Nat) (s : State) :
    ∃ t, (execFold group target page s) = .next t ∧ t.held = s.held := by
  unfold execFold; dsimp only; (repeat' split) <;> (refine ⟨_, rfl, ?_⟩; (repeat' split) <;> (first | with_reducible rfl | simp))
theorem execReadDisturbRefresh_held (bay : Fin 8) (group : Nat) (s : State) :
    ∃ t, (execReadDisturbRefresh bay group s) = .next t ∧ t.held = s.held := by
  unfold execReadDisturbRefresh; dsimp only; (repeat' split) <;> (refine ⟨_, rfl, ?_⟩; (repeat' split) <;> (first | with_reducible rfl | simp))
@[simp] theorem State.pruneValid_held (s : State) : (State.pruneValid s).held = s.held := by
  simp [State.pruneValid]
theorem execJournalProgram_held (s : State) : ∃ t, (execJournalProgram s) = .next t ∧ t.held = s.held := by
  unfold execJournalProgram; split <;> exact ⟨_, rfl, by simp⟩
theorem execMapCheckpoint_held (s : State) : ∃ t, (execMapCheckpoint s) = .next t ∧ t.held = s.held := by
  unfold execMapCheckpoint; split <;> exact ⟨_, rfl, by simp⟩
@[simp] theorem State.persistCounters_held (s : State) : (State.persistCounters s).held = s.held := by
  simp [State.persistCounters]
theorem execCounterPersist_held (s : State) : ∃ t, (execCounterPersist s) = .next t ∧ t.held = s.held := by
  exact ⟨_, rfl, by simp⟩
theorem execMapRebuildDone_held (s : State) : ∃ t, (execMapRebuildDone s) = .next t ∧ t.held = s.held := by
  exact ⟨_, rfl, by simp⟩

-- Caddies.lean

@[simp] theorem State.powerBay_held (s : State) (n : Nat) : (State.powerBay s n).held = s.held := by
  simp [State.powerBay]
@[simp] theorem State.postInserted_held (s : State) (n : Nat) (auth : Nat) : (State.postInserted s n auth).held = s.held := by
  simp [State.postInserted]
@[simp] theorem State.postRemoved_held (s : State) (n : Nat) : (State.postRemoved s n).held = s.held := by
  simp [State.postRemoved]
@[simp] theorem State.refuseCaddy_held (s : State) (n : Nat) : (State.refuseCaddy s n).held = s.held := by
  simp [State.refuseCaddy]
@[simp] theorem State.memberAbsent_held (s : State) (n : Nat) : (State.memberAbsent s n).held = s.held := by
  simp [State.memberAbsent]
@[simp] theorem State.leaveSet_held (s : State) (n : Nat) : (State.leaveSet s n).held = s.held := by
  simp [State.leaveSet]
@[simp] theorem State.cutBay_held (s : State) (n : Nat) : (State.cutBay s n).held = s.held := by
  simp [State.cutBay]
@[simp] theorem State.failCaddy_held (s : State) (n : Nat) : (State.failCaddy s n).held = s.held := by
  unfold State.failCaddy; try dsimp only
  (repeat' split) <;> (first | with_reducible rfl | simp)
theorem execCaddyInsert_held (bay : Fin 8) (s : State) : ∃ t, (execCaddyInsert bay s) = .next t ∧ t.held = s.held := by
  unfold execCaddyInsert; dsimp only; (repeat' split) <;> (refine ⟨_, rfl, ?_⟩; (repeat' split) <;> (first | with_reducible rfl | simp))
theorem execCaddyLinkTrained_held (bay : Fin 8) (lanes : Fin 13) (s : State) :
    ∃ t, (execCaddyLinkTrained bay lanes s) = .next t ∧ t.held = s.held := by
  unfold execCaddyLinkTrained; dsimp only; (repeat' split) <;> (refine ⟨_, rfl, ?_⟩; (repeat' split) <;> (first | with_reducible rfl | simp))
theorem execCaddyAuthenticate_held (bay : Fin 8) (ident : CaddyIdent) (s : State) :
    ∃ t, (execCaddyAuthenticate bay ident s) = .next t ∧ t.held = s.held := by
  unfold execCaddyAuthenticate; dsimp only; (repeat' split) <;> (refine ⟨_, rfl, ?_⟩; (repeat' split) <;> (first | with_reducible rfl | simp))
@[simp] theorem State.joinSet_held (s : State) (n : Nat) : (State.joinSet s n).held = s.held := by
  simp [State.joinSet]
@[simp] theorem State.forgetBlocks_held (s : State) (n : Nat) : (State.forgetBlocks s n).held = s.held := by
  simp [State.forgetBlocks]
@[simp] theorem State.adopt_held (s : State) (n : Nat) : (State.adopt s n).held = s.held := by
  simp [State.adopt]
theorem execCaddyClassify_held (bay : Fin 8) (found : CaddyMeta) (s : State) :
    ∃ t, (execCaddyClassify bay found s) = .next t ∧ t.held = s.held := by
  unfold execCaddyClassify; dsimp only; (repeat' split) <;> (refine ⟨_, rfl, ?_⟩; (repeat' split) <;> (first | with_reducible rfl | simp))
@[simp] theorem State.requestRemoval_held (s : State) (n : Nat) : (State.requestRemoval s n).held = s.held := by
  simp [State.requestRemoval]
@[simp] theorem State.bayRemove_held (s : State) (n : Nat) : (State.bayRemove s n).held = s.held := by
  simp [State.bayRemove]
@[simp] theorem State.bayAdopt_held (s : State) (n : Nat) : (State.bayAdopt s n).held = s.held := by
  simp [State.bayAdopt]
theorem execBayRemove_held (bay : Fin 8) (s : State) : ∃ t, (execBayRemove bay s) = .next t ∧ t.held = s.held := by
  exact ⟨_, rfl, by simp⟩
theorem execBayAdopt_held (bay : Fin 8) (s : State) : ∃ t, (execBayAdopt bay s) = .next t ∧ t.held = s.held := by
  exact ⟨_, rfl, by simp⟩
theorem execLeverOpen_held (bay : Fin 8) (s : State) : ∃ t, (execLeverOpen bay s) = .next t ∧ t.held = s.held := by
  unfold execLeverOpen; dsimp only; (repeat' split) <;> (refine ⟨_, rfl, ?_⟩; (repeat' split) <;> (first | with_reducible rfl | simp))
theorem execLeverClose_held (bay : Fin 8) (s : State) : ∃ t, (execLeverClose bay s) = .next t ∧ t.held = s.held := by
  exact ⟨_, rfl, by simp⟩
theorem execRemovalQuiesced_held (bay : Fin 8) (s : State) : ∃ t, (execRemovalQuiesced bay s) = .next t ∧ t.held = s.held := by
  unfold execRemovalQuiesced; dsimp only; (repeat' split) <;> (refine ⟨_, rfl, ?_⟩; (repeat' split) <;> (first | with_reducible rfl | simp))
theorem execCaddySurpriseRemoval_held (bay : Fin 8) (s : State) :
    ∃ t, (execCaddySurpriseRemoval bay s) = .next t ∧ t.held = s.held := by
  unfold execCaddySurpriseRemoval; dsimp only; (repeat' split) <;> (refine ⟨_, rfl, ?_⟩; (repeat' split) <;> (first | with_reducible rfl | simp))
theorem execCaddyPulled_held (bay : Fin 8) (s : State) : ∃ t, (execCaddyPulled bay s) = .next t ∧ t.held = s.held := by
  unfold execCaddyPulled; dsimp only; (repeat' split) <;> (refine ⟨_, rfl, ?_⟩; (repeat' split) <;> (first | with_reducible rfl | simp))
theorem execCaddyTrip_held (bay : Fin 8) (s : State) : ∃ t, (execCaddyTrip bay s) = .next t ∧ t.held = s.held := by
  unfold execCaddyTrip; split <;> exact ⟨_, rfl, by simp⟩
theorem execCaddyCoolExpiry_held (bay : Fin 8) (s : State) : ∃ t, (execCaddyCoolExpiry bay s) = .next t ∧ t.held = s.held := by
  unfold execCaddyCoolExpiry; dsimp only; (repeat' split) <;> (refine ⟨_, rfl, ?_⟩; (repeat' split) <;> (first | with_reducible rfl | simp))
@[simp] theorem State.rebuildDone_held (s : State) (n : Nat) : (State.rebuildDone s n).held = s.held := by
  simp [State.rebuildDone]
theorem execRebuildGroup_held (bay : Fin 8) (s : State) : ∃ t, (execRebuildGroup bay s) = .next t ∧ t.held = s.held := by
  unfold execRebuildGroup; dsimp only; (repeat' split) <;> (refine ⟨_, rfl, ?_⟩; (repeat' split) <;> (first | with_reducible rfl | simp))
theorem execCaddyLaneFrameFail_held (bay : Fin 8) (lane : Fin 12) (s : State) :
    ∃ t, (execCaddyLaneFrameFail bay lane s) = .next t ∧ t.held = s.held := by
  unfold execCaddyLaneFrameFail; dsimp only; (repeat' split) <;> (refine ⟨_, rfl, ?_⟩; (repeat' split) <;> (first | with_reducible rfl | simp))

end Sys2Proof.Machine
end

