-- ==== Sys2Proof/Laws/HeldModule.lean ====
section
/-! SUPPORT. What peer links, firmware, resets, power and start-up leave unchanged: the held part of the state (`State.held`), operation by operation. -/

namespace Sys2Proof.Machine

-- Peers.lean

@[simp] theorem State.xferEnded_held (s : State) (port : Nat) (ord : Nat) (x : XferOut) (st : Nat) :
    (State.xferEnded s port ord x st).held = s.held := by
  unfold State.xferEnded; dsimp only; (repeat' split) <;> (first | with_reducible rfl | simp)
@[simp] theorem State.closeXfer_held (s : State) (port : Nat) (tag : Nat) (st : Nat) :
    (State.closeXfer s port tag st).held = s.held := by
  unfold State.closeXfer; dsimp only; (repeat' split) <;> (first | with_reducible rfl | simp)
@[simp] theorem State.linkLoss_held (s : State) (n : Nat) : (State.linkLoss s n).held = s.held := by
  simp [State.linkLoss]
theorem execPeerSignalDetect_held (port : Fin 4) (s : State) :
    ∃ t, (execPeerSignalDetect port s) = .next t ∧ t.held = s.held := by
  unfold execPeerSignalDetect; dsimp only; (repeat' split) <;> (refine ⟨_, rfl, ?_⟩; (repeat' split) <;> (first | with_reducible rfl | simp))
theorem execLinkTrainTimeout_held (port : Fin 4) (s : State) :
    ∃ t, (execLinkTrainTimeout port s) = .next t ∧ t.held = s.held := by
  unfold execLinkTrainTimeout; split <;> exact ⟨_, rfl, by simp⟩
@[simp] theorem State.mismatch_held (s : State) (n : Nat) (cause : BitVec 4) : (State.mismatch s n cause).held = s.held := by
  simp [State.mismatch]
@[simp] theorem State.dropPkt_held (s : State) (n : Nat) : (State.dropPkt s n).held = s.held := by
  simp [State.dropPkt]
theorem execHello_held (port : Fin 4) (h : HelloPkt) (s : State) :
    ∃ t, (execHello port h s) = .next t ∧ t.held = s.held := by
  unfold execHello; dsimp only; (repeat' split) <;> (refine ⟨_, rfl, ?_⟩; (repeat' split) <;> (first | with_reducible rfl | simp))
theorem execSpdmPeerMessage_held (port : Fin 4) (hdr : PktHdr) (proved : Option Nat) (s : State) :
    ∃ t, (execSpdmPeerMessage port hdr proved s) = .next t ∧ t.held = s.held := by
  unfold execSpdmPeerMessage; dsimp only; (repeat' split) <;> (refine ⟨_, rfl, ?_⟩; (repeat' split) <;> (first | with_reducible rfl | simp))
@[simp] theorem State.memberBack_held (s : State) (ord : Nat) : (State.memberBack s ord).held = s.held := by
  unfold State.memberBack; try dsimp only
  (repeat' split) <;> (first | with_reducible rfl | simp)
theorem execLinkUp_held (port : Fin 4) (lanes : Fin 9) (s : State) :
    ∃ t, (execLinkUp port lanes s) = .next t ∧ t.held = s.held := by
  unfold execLinkUp; dsimp only; (repeat' split) <;> (refine ⟨_, rfl, ?_⟩; (repeat' split) <;> (first | with_reducible rfl | simp))
@[simp] theorem State.retrain_held (s : State) (n : Nat) : (State.retrain s n).held = s.held := by
  simp [State.retrain]
theorem execFlitReceive_held (port : Fin 4) (f : FlitIn) (s : State) :
    ∃ t, (execFlitReceive port f s) = .next t ∧ t.held = s.held := by
  unfold execFlitReceive; dsimp only; (repeat' split) <;> (refine ⟨_, rfl, ?_⟩; (repeat' split) <;> (first | with_reducible rfl | simp))
theorem execPeerLaneOut_held (port : Fin 4) (lane : Fin 8) (s : State) :
    ∃ t, (execPeerLaneOut port lane s) = .next t ∧ t.held = s.held := by
  unfold execPeerLaneOut; dsimp only; (repeat' split) <;> (refine ⟨_, rfl, ?_⟩; (repeat' split) <;> (first | with_reducible rfl | simp))
theorem execLinkRetrain_held (port : Fin 4) (s : State) : ∃ t, (execLinkRetrain port s) = .next t ∧ t.held = s.held := by
  unfold execLinkRetrain; split <;> exact ⟨_, rfl, by simp⟩
theorem execLinkHoldExpiry_held (port : Fin 4) (s : State) : ∃ t, (execLinkHoldExpiry port s) = .next t ∧ t.held = s.held := by
  unfold execLinkHoldExpiry
  split
  · exact ⟨_, rfl, State.linkLoss_held ..⟩
  · exact ⟨_, rfl, rfl⟩
theorem State.onPacket_held (s : State) (n : Nat) (h : PktHdr) (f : State → State) (h_f : ∀ t, (f t).held = t.held) :
    ∃ t, (State.onPacket s n h f) = .next t ∧ t.held = s.held := by
  unfold State.onPacket
  split
  · exact ⟨_, rfl, rfl⟩
  · split
    · exact ⟨_, rfl, h_f s⟩
    · exact ⟨_, rfl, State.dropPkt_held ..⟩
theorem execStatusPacket_held (port : Fin 4) (h : PktHdr) (state : Nat) (_power : Nat) (_stepCount : Nat) (s : State) :
    ∃ t, (execStatusPacket port h state _power _stepCount s) = .next t ∧ t.held = s.held := by
  unfold execStatusPacket; exact State.onPacket_held _ _ _ _ (fun _ => by simp)
theorem execStatusTimer_held (s : State) : ∃ t, (execStatusTimer s) = .next t ∧ t.held = s.held := ⟨_, rfl, State.sendStatus_held ..⟩
theorem execPeerStatusTimeout_held (port : Fin 4) (s : State) :
    ∃ t, (execPeerStatusTimeout port s) = .next t ∧ t.held = s.held := by
  exact ⟨_, rfl, by simp⟩
theorem execAnnounce_held (port : Fin 4) (h : PktHdr) (d : XferDesc) (s : State) :
    ∃ t, (execAnnounce port h d s) = .next t ∧ t.held = s.held := by
  unfold execAnnounce; (repeat' split) <;> first | with_reducible exact State.toFront_held _ _ _ | with_reducible exact State.enqueue_held _ _ _ _ _ | (refine State.jobCommand_held _ _ _ _ ?_; intros; simp; done) | (refine State.onPacket_held _ _ _ _ ?_; intros; simp; done) | (refine State.onPacket_held _ _ _ _ ?_; intros; dsimp only; (repeat' split) <;> simp; done) | (refine State.jobCommand_held _ _ _ _ ?_; intros; dsimp only; (repeat' split) <;> simp; done)
@[simp] theorem State.sendGranted_held (s : State) (n : Nat) (x : XferOut) (upTo : Nat) :
    (State.sendGranted s n x upTo).held = s.held := by
  simp [State.sendGranted]
theorem execXferReady_held (port : Fin 4) (h : PktHdr) (s : State) :
    ∃ t, (execXferReady port h s) = .next t ∧ t.held = s.held := by
  unfold execXferReady; refine State.onPacket_held _ _ _ _ (fun _ => ?_); dsimp only; (repeat' split) <;> simp
@[simp] theorem State.dropIn_held (s : State) (n : Nat) (tag : Nat) : (State.dropIn s n tag).held = s.held := by
  simp [State.dropIn]
@[simp] theorem State.doneXfer_held (s : State) (n : Nat) (tag : Nat) (st : Nat) :
    (State.doneXfer s n tag st).held = s.held := by
  simp [State.doneXfer]
@[simp] theorem State.notifyCore_held (s : State) (job : Nat) (ord : Nat) (tk : Nat) (count : Nat) :
    (State.notifyCore s job ord tk count).held = s.held := by
  unfold State.notifyCore; dsimp only; (repeat' split) <;> (first | with_reducible rfl | simp)
@[simp] theorem State.answerBags_held (s : State) (n : Nat) (x : XferIn) : (State.answerBags s n x).held = s.held := by
  unfold State.answerBags; split <;> simp
@[simp] theorem State.takeRows_held (s : State) (n : Nat) (x : XferIn) : (State.takeRows s n x).held = s.held := by
  unfold State.takeRows; split <;> simp
@[simp] theorem State.runControl_held (s : State) (n : Nat) (x : XferIn) : (State.runControl s n x).held = s.held := by
  unfold State.runControl; dsimp only; (repeat' split) <;> (first | with_reducible rfl | simp)
@[simp] theorem State.takeStream_held (s : State) (n : Nat) (x : XferIn) : (State.takeStream s n x).held = s.held := by
  unfold State.takeStream; dsimp only; (repeat' split) <;> (first | with_reducible rfl | simp)
@[simp] theorem State.takeRecords_held (s : State) (n : Nat) (x y : XferIn) : (State.takeRecords s n x y).held = s.held := by
  unfold State.takeRecords; try dsimp only
  (repeat' split) <;> (first | with_reducible rfl | simp)
@[simp] theorem State.takePrefill_held (s : State) (n : Nat) (x : XferIn) : (State.takePrefill s n x).held = s.held := by
  unfold State.takePrefill; try dsimp only
  (repeat' split) <;> (first | with_reducible rfl | simp)
@[simp] theorem State.takeXfer_held (s : State) (n : Nat) (x : XferIn) : (State.takeXfer s n x).held = s.held := by
  unfold State.takeXfer; (repeat' split) <;> (first | with_reducible rfl | simp)
@[simp] theorem State.placeBytes_held (s : State) (x : XferIn) (off : Nat) (b : Bytes) :
    (State.placeBytes s x off b).held = s.held := by
  unfold State.placeBytes; split <;> simp
theorem execDataPacket_held (port : Fin 4) (h : PktHdr) (payload : Bytes) (s : State) :
    ∃ t, (execDataPacket port h payload s) = .next t ∧ t.held = s.held := by
  unfold execDataPacket; refine State.onPacket_held _ _ _ _ (fun _ => ?_); dsimp only; (repeat' split) <;> simp
theorem execXferDone_held (port : Fin 4) (h : PktHdr) (s : State) :
    ∃ t, (execXferDone port h s) = .next t ∧ t.held = s.held := by
  unfold execXferDone; exact State.onPacket_held _ _ _ _ (fun _ => by simp)
theorem execPeerNak_held (port : Fin 4) (h : PktHdr) (s : State) :
    ∃ t, (execPeerNak port h s) = .next t ∧ t.held = s.held := by
  unfold execPeerNak; exact State.onPacket_held _ _ _ _ (fun _ => by simp)
theorem execCancel_held (port : Fin 4) (h : PktHdr) (s : State) :
    ∃ t, (execCancel port h s) = .next t ∧ t.held = s.held := by
  unfold execCancel; refine State.onPacket_held _ _ _ _ (fun _ => ?_); dsimp only; (repeat' split) <;> simp
theorem execStepClose_held (port : Fin 4) (h : PktHdr) (step : Nat) (recs : List CloseRec) (s : State) :
    ∃ t, (execStepClose port h step recs s) = .next t ∧ t.held = s.held := by
  unfold execStepClose; exact State.onPacket_held _ _ _ _ (fun _ => by simp)
theorem execGrantWaitExpiry_held (port : Fin 4) (xfer : Nat) (s : State) :
    ∃ t, (execGrantWaitExpiry port xfer s) = .next t ∧ t.held = s.held := by
  unfold execGrantWaitExpiry; split <;> exact ⟨_, rfl, by simp⟩

-- Firmware.lean

@[simp] theorem State.modSlot_held (s : State) (n : Nat) (f : FwSlot → FwSlot) : (State.modSlot s n f).held = s.held := by
  simp [State.modSlot]
theorem execFirmwareImageDownload_held (c : NvCmd) (offset : Nat) (data : Bytes) (s : State) :
    ∃ t, (execFirmwareImageDownload c offset data s) = .next t ∧ t.held = s.held := by
  exact ⟨_, rfl, by simp⟩
theorem State.commitSlot_held (s : State) (slot : Nat) (m : Manifest) (t : State) :
    s.commitSlot slot m = .ok t → t.held = { s.held with rollback := Nat.max s.boot.rollback m.svn } := by
  intro h
  unfold State.commitSlot at h
  split at h
  · cases h
  · split at h
    · cases h
    · split at h
      · cases h
      · injection h with h
        rw [← h]
        unfold State.modSlot
        rfl
theorem State.fwCommit_held (s : State) (c : NvCmd) (slot : Nat) (m : Manifest) (after : State → State) (h_after : ∀ t, (after t).held = t.held) :
    ∃ r, s.boot.rollback ≤ r ∧ (s.fwCommit c slot m after).held = { s.held with rollback := r } := by
  unfold State.fwCommit State.nvRun
  split
  · dsimp only
    split
    · exact ⟨_, Nat.le_refl _, State.nvDone_held _ _ _ _⟩
    · rename_i t h
      exact ⟨_, Nat.le_max_left _ _, (h_after t).trans (State.commitSlot_held _ _ _ _ h)⟩
  · exact ⟨_, Nat.le_refl _, rfl⟩
theorem execFwCommitReplace_held (c : NvCmd) (slot : Nat) (m : Manifest) (s : State) :
    ∃ t r, execFwCommitReplace c slot m s = .next t ∧ s.boot.rollback ≤ r ∧ t.held = { s.held with rollback := r } := by
  have e : ∀ k, (∀ t, (k t).held = t.held) → ∃ u r, (Host.Outcome.next (s.fwCommit c slot m k) : Out) = .next u ∧ s.boot.rollback ≤ r ∧
      u.held = { s.held with rollback := r } := fun k hk =>
    let ⟨r, h1, h2⟩ := State.fwCommit_held s c slot m k hk
    ⟨_, r, rfl, h1, h2⟩
  refine e _ (fun t => ?_)
  simp
theorem execFwCommitActivateNext_held (c : NvCmd) (slot : Nat) (m : Manifest) (s : State) :
    ∃ t r, execFwCommitActivateNext c slot m s = .next t ∧ s.boot.rollback ≤ r ∧ t.held = { s.held with rollback := r } := by
  have e : ∀ k, (∀ t, (k t).held = t.held) → ∃ u r, (Host.Outcome.next (s.fwCommit c slot m k) : Out) = .next u ∧ s.boot.rollback ≤ r ∧
      u.held = { s.held with rollback := r } := fun k hk =>
    let ⟨r, h1, h2⟩ := State.fwCommit_held s c slot m k hk
    ⟨_, r, rfl, h1, h2⟩
  refine e _ (fun t => ?_)
  simp
theorem execFwCommitSelectSlot_held (c : NvCmd) (slot : Nat) (s : State) :
    ∃ t, (execFwCommitSelectSlot c slot s) = .next t ∧ t.held = s.held := by
  exact ⟨_, rfl, by simp⟩
@[simp] theorem State.beginHold_held (s : State) (c : NvCmd) : (State.beginHold s c).held = s.held := by
  simp [State.beginHold]
theorem execFwCommitActivateNow_held (c : NvCmd) (slot : Nat) (m : Manifest) (s : State) :
    ∃ t r, execFwCommitActivateNow c slot m s = .next t ∧ s.boot.rollback ≤ r ∧ t.held = { s.held with rollback := r } := by
  have e : ∀ k, (∀ t, (k t).held = t.held) → ∃ u r, (Host.Outcome.next (s.fwCommit c slot m k) : Out) = .next u ∧ s.boot.rollback ≤ r ∧
      u.held = { s.held with rollback := r } := fun k hk =>
    let ⟨r, h1, h2⟩ := State.fwCommit_held s c slot m k hk
    ⟨_, r, rfl, h1, h2⟩
  refine e _ (fun t => ?_)
  split <;> simp
@[simp] theorem State.endHold_held (s : State) : (State.endHold s).held = s.held := by
  simp [State.endHold]
theorem execActivationQuiesced_held (s : State) : ∃ t, (execActivationQuiesced s) = .next t ∧ t.held = s.held := by
  unfold execActivationQuiesced; (repeat' split) <;> exact ⟨_, rfl, by simp⟩
theorem execActivationQuiesceExpiry_held (s : State) : ∃ t, (execActivationQuiesceExpiry s) = .next t ∧ t.held = s.held := by
  unfold execActivationQuiesceExpiry; split <;> exact ⟨_, rfl, by simp⟩

-- Resets.lean

@[simp] theorem State.freshRings_held (s : State) (p : Fin 8) : (State.freshRings s p).held = s.held := by
  simp [State.freshRings]
@[simp] theorem State.cutSteeps_held (s : State) (mine : Corpus → Bool) : (State.cutSteeps s mine).held = s.held := by
  simp [State.cutSteeps]
@[simp] theorem State.flushPot_held (s : State) (p : Nat) : (State.flushPot s p).held = s.held := by
  simp [State.flushPot]
@[simp] theorem State.haltWork_held (s : State) : (State.haltWork s).held = s.held := by
  simp [State.haltWork]
@[simp] theorem State.cutProgram_held (s : State) (o : MediaOp) : (State.cutProgram s o).held = s.held := by
  simp [State.cutProgram]
@[simp] theorem State.cutMedia_held (s : State) : (State.cutMedia s).held = s.held := by
  simp [State.cutMedia]
@[simp] theorem State.dumpIntents_held (s : State) (power : Bool) : (State.dumpIntents s power).held = s.held := by
  simp [State.dumpIntents]
@[simp] theorem State.buildLoss_held (s : State) : (State.buildLoss s).held = s.held := by
  simp [State.buildLoss]
@[simp] theorem State.freshPots_held (s : State) : (State.freshPots s).held = s.held := by
  simp [State.freshPots]
@[simp] theorem State.cleared_held (s : State) (cold : Bool) (link : Bool) : (State.cleared s cold link).held = s.held := by
  simp [State.cleared]
@[simp] theorem State.makeMediaKeys_held (s : State) : (State.makeMediaKeys s).held = s.held := by
  simp [State.makeMediaKeys]
@[simp] theorem State.openDebug_held (s : State) : (State.openDebug s).held = s.held := by
  simp [State.openDebug]
@[simp] theorem State.bootSlot_held (s : State) (ok : Nat → Bool) : (State.bootSlot s ok).held = s.held := by
  unfold State.bootSlot; dsimp only; (repeat' split) <;> (first | with_reducible rfl | simp)
@[simp] theorem State.dropLinks_held (s : State) : (State.dropLinks s).held = s.held := by
  simp [State.dropLinks]
@[simp] theorem State.startDrain_held (s : State) (next : Nat) : (State.startDrain s next).held = s.held := by
  unfold State.startDrain; split <;> simp
@[simp] theorem State.restart_held (s : State) (next : Nat) : (State.restart s next).held = s.held := by
  simp [State.restart]
theorem execResetDrainDone_held (s : State) : ∃ t, (execResetDrainDone s) = .next t ∧ t.held = s.held := by
  unfold execResetDrainDone; (repeat' split) <;> exact ⟨_, rfl, by simp⟩
theorem execResetDrainExpiry_held (s : State) : ∃ t, (execResetDrainExpiry s) = .next t ∧ t.held = s.held := by
  unfold execResetDrainExpiry; split <;> exact ⟨_, rfl, by simp⟩
theorem execModuleReset_held (cause : ResetCause) (s : State) : ∃ t, (execModuleReset cause s) = .next t ∧ t.held = s.held := by
  unfold execModuleReset; split <;> exact ⟨_, rfl, by simp⟩
@[simp] theorem State.losePower_held (s : State) : (State.losePower s).held = s.held := by
  unfold State.losePower; split <;> simp
theorem execPowerLoss_held (s : State) : ∃ t, (execPowerLoss s) = .next t ∧ t.held = s.held := by
  exact ⟨_, rfl, by simp⟩
theorem execFeedLost_held (feed : Fin 2) (s : State) : ∃ t, (execFeedLost feed s) = .next t ∧ t.held = s.held := by
  unfold execFeedLost; split <;> exact ⟨_, rfl, by simp⟩
theorem execFeedRejoin_held (feed : Fin 2) (s : State) : ∃ t, (execFeedRejoin feed s) = .next t ∧ t.held = s.held := by
  unfold execFeedRejoin; split <;> exact ⟨_, rfl, by simp⟩
@[simp] theorem State.resetRingSet_held (s : State) (p : Fin 8) : (State.resetRingSet s p).held = s.held := by
  simp [State.resetRingSet]
theorem execPf1Flr_held (s : State) : ∃ t, (execPf1Flr s) = .next t ∧ t.held = s.held := by
  refine ⟨_, rfl, (held_foldl _ (fun t p => State.resetRingSet_held ..) _ _).trans ?_⟩
  simp
theorem execVfFlr_held (vf : Fin 8) (s : State) : ∃ t, (execVfFlr vf s) = .next t ∧ t.held = s.held := by
  unfold execVfFlr; split <;> exact ⟨_, rfl, by simp⟩
theorem execVfEnableChange_held (numVfs : Fin 9) (s : State) :
    ∃ t, (execVfEnableChange numVfs s) = .next t ∧ t.held = s.held := by
  unfold execVfEnableChange; dsimp only; (repeat' split) <;> (refine ⟨_, rfl, ?_⟩; (repeat' split) <;> (first | with_reducible rfl | simp))

-- Power.lean

@[simp] theorem State.preemptIdle_held (s : State) (p : Nat) : (State.preemptIdle s p).held = s.held := by
  unfold State.preemptIdle; split <;> simp
@[simp] theorem State.towards_held (s : State) : (State.towards s).held = s.held := by
  simp [State.towards]
@[simp] theorem State.sleepMedia_held (s : State) : (State.sleepMedia s).held = s.held := by
  simp [State.sleepMedia]
@[simp] theorem State.wakeMedia_held (s : State) : (State.wakeMedia s).held = s.held := by
  simp [State.wakeMedia]
@[simp] theorem State.enterPower_held (s : State) (goal : Nat) : (State.enterPower s goal).held = s.held := by
  simp [State.enterPower]
@[simp] theorem State.finishStep_held (s : State) : (State.finishStep s).held = s.held := by
  unfold State.finishStep; split <;> simp
@[simp] theorem State.requestPower_held (s : State) (v : Nat) : (State.requestPower s v).held = s.held := by
  simp [State.requestPower]
theorem execPowerReq_held (fn : PcieFn) (value : BitVec 3) (s : State) :
    ∃ t, (execPowerReq fn value s) = .next t ∧ t.held = s.held := by
  exact ⟨_, rfl, by simp⟩
theorem execPowerStepDone_held (s : State) : ∃ t, (execPowerStepDone s) = .next t ∧ t.held = s.held := by
  exact ⟨_, rfl, by simp⟩
@[simp] theorem State.stopOverruns_held (s : State) : (State.stopOverruns s).held = s.held := by
  unfold State.stopOverruns; exact held_foldl _ (fun _ _ => by (repeat' split) <;> (first | with_reducible rfl | simp)) _ _
@[simp] theorem State.stopTasks_held (s : State) : (State.stopTasks s).held = s.held := by
  simp [State.stopTasks]
theorem execPowerStepLimitExpiry_held (s : State) : ∃ t, (execPowerStepLimitExpiry s) = .next t ∧ t.held = s.held := by
  unfold execPowerStepLimitExpiry; (repeat' split) <;> exact ⟨_, rfl, by simp⟩
@[simp] theorem State.setLevel_held (s : State) (n : Nat) : (State.setLevel s n).held = s.held := by
  simp [State.setLevel]
@[simp] theorem State.deeper_held (s : State) (n : Nat) (single : Bool) : (State.deeper s n single).held = s.held := by
  simp [State.deeper]
@[simp] theorem State.recordFall_held (s : State) : (State.recordFall s).held = s.held := by
  unfold State.recordFall; split <;> simp
@[simp] theorem State.kettleMove_held (s : State) : (State.kettleMove s).held = s.held := by
  unfold State.kettleMove; dsimp only; (repeat' split) <;> (first | with_reducible rfl | simp)
theorem execKettleSample_held (milliwatts : Nat) (s : State) :
    ∃ t, (execKettleSample milliwatts s) = .next t ∧ t.held = s.held := by
  unfold execKettleSample; dsimp only; (repeat' split) <;> (refine ⟨_, rfl, ?_⟩; (repeat' split) <;> (first | with_reducible rfl | simp))
theorem execKettleTrial_held (s : State) : ∃ t, (execKettleTrial s) = .next t ∧ t.held = s.held := by
  unfold execKettleTrial; dsimp only; (repeat' split) <;> (refine ⟨_, rfl, ?_⟩; (repeat' split) <;> (first | with_reducible rfl | simp))
theorem execKettleTrialEnd_held (s : State) : ∃ t, (execKettleTrialEnd s) = .next t ∧ t.held = s.held := by
  unfold execKettleTrialEnd; dsimp only; (repeat' split) <;> (refine ⟨_, rfl, ?_⟩; (repeat' split) <;> (first | with_reducible rfl | simp))
theorem execThermalThrottleTick_held (hot : Bool) (s : State) :
    ∃ t, (execThermalThrottleTick hot s) = .next t ∧ t.held = s.held := by
  unfold execThermalThrottleTick; split <;> exact ⟨_, rfl, by simp⟩
theorem execThermalTrip_held (_sensor : SensorKind) (s : State) :
    ∃ t, (execThermalTrip _sensor s) = .next t ∧ t.held = s.held := by
  unfold execThermalTrip; split <;> exact ⟨_, rfl, by simp⟩
theorem execThermalTripClear_held (s : State) : ∃ t, (execThermalTripClear s) = .next t ∧ t.held = s.held := by
  unfold execThermalTripClear; split <;> exact ⟨_, rfl, by simp⟩

-- Start.lean

@[simp] theorem State.mapCores_held (s : State) (failed : List (Fin 52)) : (State.mapCores s failed).held = s.held := by
  simp [State.mapCores]
@[simp] theorem State.restoreSettings_held (s : State) (newer : Bool) (older : Bool) :
    (State.restoreSettings s newer older).held = s.held := by
  unfold State.restoreSettings; (repeat' split) <;> (first | with_reducible rfl | simp)
theorem execPowerOn_held (straps : BitVec 3) (failedCores : List (Fin 52)) (slotA slotB : Option Manifest) (copyA copyB : Bool) (s : State) :
    ∃ t, execPowerOn straps failedCores slotA slotB copyA copyB s = .next t ∧ (t.held = s.held ∨ t.held = { s.held with straps := straps }) := by
  unfold execPowerOn
  split
  · exact ⟨_, rfl, .inl rfl⟩
  · refine ⟨_, rfl, .inr ?_⟩
    dsimp only
    rw [State.bootSlot_held, State.freshPots_held, State.modMedia_held]
    split
    · split
      · rw [State.makeMediaKeys_held, State.modSec_held _ _ rfl rfl rfl, State.restoreSettings_held, State.mapCores_held]
        rw [← State.used_held s]
        rfl
      · rw [State.modSec_held _ _ rfl rfl rfl, State.restoreSettings_held, State.mapCores_held]
        rw [← State.used_held s]
        rfl
    · rw [State.restoreSettings_held, State.mapCores_held]
      rw [← State.used_held s]
      rfl
@[simp] theorem State.hardFault_held (s : State) (t : MemTier) (addr : Nat) : (State.hardFault s t addr).held = s.held := by
  unfold State.hardFault; try dsimp only
  (repeat' split) <;> (first | with_reducible rfl | simp)
@[simp] theorem State.bringUp_held (s : State) (n : Nat) : (State.bringUp s n).held = s.held := by
  unfold State.bringUp; dsimp only; (repeat' split) <;> simp
theorem execDramTrainingDone_held (s : State) : ∃ t, (execDramTrainingDone s) = .next t ∧ t.held = s.held := by
  unfold execDramTrainingDone
  split
  · exact ⟨_, rfl, rfl⟩
  · exact ⟨_, rfl, (held_foldl _ State.bringUp_held _ _).trans (State.modBoot_held _ _ rfl)⟩
@[simp] theorem State.setReads_held (s : State) : (State.setReads s).held = s.held := by
  simp [State.setReads]
theorem execModuleReady_held (mapReadable : Bool) (s : State) :
    ∃ t, (execModuleReady mapReadable s) = .next t ∧ t.held = s.held := by
  unfold execModuleReady; split <;> exact ⟨_, rfl, by simp⟩
theorem execWeightReload_held (image : Nat) (s : State) : ∃ t, (execWeightReload image s) = .next t ∧ t.held = s.held := by
  unfold execWeightReload
  split
  · exact ⟨_, rfl, rfl⟩
  · dsimp only
    split
    · exact ⟨_, rfl, rfl⟩
    · refine ⟨_, rfl, (State.tidy_held _).trans ?_⟩
      split
      · exact (held_images _ _).trans ((State.allocPinned_held ..).trans (held_images _ _))
      · exact (State.allocPinned_held ..).trans (held_images _ _)
theorem execBootWatchdog_held (s : State) : ∃ t, (execBootWatchdog s) = .next t ∧ t.held = s.held := by
  unfold execBootWatchdog; (repeat' split) <;> exact ⟨_, rfl, by simp⟩
theorem execSeWatchdog_held (s : State) : ∃ t, (execSeWatchdog s) = .next t ∧ t.held = s.held := by
  unfold execSeWatchdog; split <;> exact ⟨_, rfl, by simp⟩
@[simp] theorem State.loseJournal_held (s : State) : (State.loseJournal s).held = s.held := by
  simp [State.loseJournal]
theorem execControlCoreWatchdog_held (cc : Fin 16) (journalOk : Bool) (s : State) :
    ∃ t, (execControlCoreWatchdog cc journalOk s) = .next t ∧ t.held = s.held := by
  unfold execControlCoreWatchdog; (repeat' split) <;> exact ⟨_, rfl, by simp⟩
theorem execPcieRetrain_held (recovered : Bool) (s : State) :
    ∃ t, (execPcieRetrain recovered s) = .next t ∧ t.held = s.held := by
  unfold execPcieRetrain; (repeat' split) <;> exact ⟨_, rfl, by simp⟩
@[simp] theorem State.loseEngine_held (s : State) (n : Nat) : (State.loseEngine s n).held = s.held := by
  unfold State.loseEngine; try dsimp only
  (repeat' split) <;> (first | with_reducible rfl | simp)
theorem execHardwareFailure_held (part : HwPart) (s : State) :
    ∃ t, (execHardwareFailure part s) = .next t ∧ t.held = s.held := by
  unfold execHardwareFailure
  split
  · exact ⟨_, rfl, rfl⟩
  · cases part <;> exact ⟨_, rfl, by simp⟩
@[simp] theorem State.countWord_held (s : State) (t : MemTier) (c : Content) (bad : Bool) : (State.countWord s t c bad).held = s.held := by
  unfold State.countWord; try dsimp only
  (repeat' split) <;> (first | with_reducible rfl | simp)
@[simp] theorem State.loseCup_held (s : State) (i : Nat) : (State.loseCup s i).held = s.held := by
  unfold State.loseCup; try dsimp only
  (repeat' split) <;> (first | with_reducible rfl | simp)
@[simp] theorem State.loseWord_held (s : State) (t : MemTier) (c : Content) :
    (State.loseWord s t c).held = s.held := by
  unfold State.loseWord; (repeat' split) <;> (first | with_reducible rfl | simp)
@[simp] theorem State.uncorrectable_held (s : State) (t : MemTier) (addr : Nat) :
    (State.uncorrectable s t addr).held = s.held := by
  unfold State.uncorrectable; dsimp only; (repeat' split) <;> (first | with_reducible rfl | simp)
@[simp] theorem State.garble_held (s : State) (t : MemTier) (addr : Nat) (c : Content) : (State.garble s t addr c).held = s.held := by
  unfold State.garble; try dsimp only
  (repeat' split) <;> (first | with_reducible rfl | simp)
@[simp] theorem State.corrected_held (s : State) (t : MemTier) (addr : Nat) (errs : List (Fin 80)) :
    (State.corrected s t addr errs).held = s.held := by
  simp [State.corrected]
@[simp] theorem State.scrubWord_held (s : State) (t : MemTier) (addr : Nat) (errs : List (Fin 80)) (retry : Bool) :
    (State.scrubWord s t addr errs retry).held = s.held := by
  simp [State.scrubWord]
@[simp] theorem State.scrubFlash_held (s : State) (n : Nat) (g : Nat) (soft : Bool) (heavy : Bool) (unreadable : Bool) :
    (State.scrubFlash s n g soft heavy unreadable).held = s.held := by
  simp [State.scrubFlash]
theorem execScrubRead_held (target : ScrubTarget) (s : State) : ∃ t, (execScrubRead target s) = .next t ∧ t.held = s.held := by
  unfold execScrubRead; (repeat' split) <;> exact ⟨_, rfl, by simp⟩

end Sys2Proof.Machine
end

