-- ==== Sys2Proof/Laws/HeldHost.lean ====
section
/-! SUPPORT. What settings, security, registers and observability leave unchanged: the held part of the state (`State.held`), operation by operation. -/

namespace Sys2Proof.Machine

-- Settings.lean

@[simp] theorem State.withRecord_held (s : State) (r : List (Nat × BitVec 64)) : (State.withRecord s r).held = s.held := by
  simp [State.withRecord]
@[simp] theorem State.commit_held (s : State) : (State.commit s).held = s.held := by
  simp [State.commit]
theorem execCommit_held (fn : PcieFn) (s : State) : ∃ t, (execCommit fn s) = .next t ∧ t.held = s.held := by
  exact ⟨_, rfl, by simp⟩
@[simp] theorem State.keepWords_held (s : State) (o : State) (p : Nat) : (State.keepWords s o p).held = s.held := by
  simp [State.keepWords]
@[simp] theorem State.keepHot_held (s : State) (o : State) : (State.keepHot s o).held = s.held := by
  simp [State.keepHot]
@[simp] theorem State.settlePot_held (s : State) (o : State) (p : Nat) : (State.settlePot s o p).held = s.held := by
  simp [State.settlePot]
@[simp] theorem State.settlePort_held (s : State) (o : State) (n : Nat) : (State.settlePort s o n).held = s.held := by
  simp [State.settlePort]
@[simp] theorem State.shrinkShelf_held (s : State) (q : Nat) (x1 : Nat) : (State.shrinkShelf s q x1).held = s.held := by
  induction x1 generalizing s with
  | zero => rfl
  | succ n ih =>
    unfold State.shrinkShelf
    split
    · rfl
    · split
      · rw [ih, State.demote_held]
      · rfl
@[simp] theorem State.enact_held (s o : State) (limit : Bool) : (State.enact s o limit).held = s.held := by
  unfold State.enact; try dsimp only
  (repeat' split) <;> (first | with_reducible rfl | simp)
@[simp] theorem State.writeRecord_held (s : State) (r : List (Nat × BitVec 64)) (limit : Bool) :
    (State.writeRecord s r limit).held = s.held := by
  simp [State.writeRecord]
@[simp] theorem State.endCommit_held (s : State) : (State.endCommit s).held = s.held := by
  simp [State.endCommit]
theorem execCommitDone_held (verified : Bool) (s : State) : ∃ t, (execCommitDone verified s) = .next t ∧ t.held = s.held := by
  unfold execCommitDone; (repeat' split) <;> exact ⟨_, rfl, by simp⟩
@[simp] theorem State.stage_held (s : State) (off : Nat) (v : BitVec 64) (mask : BitVec 64) :
    (State.stage s off v mask).held = s.held := by
  simp [State.stage]

-- Security.lean

@[simp] theorem State.answer_held (s : State) (r : Reply) : (State.answer s r).held = s.held := by
  simp [State.answer]
@[simp] theorem State.agreed_held (s : State) (r : Reply) : (State.agreed s r).held = s.held := by
  simp [State.agreed]
@[simp] theorem State.longAnswer_held (s : State) (r : Reply) (n : Nat) : (State.longAnswer s r n).held = s.held := by
  simp [State.longAnswer]
theorem execGetVersion_held (s : State) : ∃ t, (execGetVersion s) = .next t ∧ t.held = s.held := by
  exact ⟨_, rfl, by simp⟩
theorem execGetCapabilities_held (s : State) : ∃ t, (execGetCapabilities s) = .next t ∧ t.held = s.held := by
  exact ⟨_, rfl, by simp⟩
theorem execNegotiateAlgorithms_held (hash : Bool) (mldsa : Bool) (s : State) :
    ∃ t, (execNegotiateAlgorithms hash mldsa s) = .next t ∧ t.held = s.held := by
  exact ⟨_, rfl, by simp⟩
theorem execGetDigests_held (s : State) : ∃ t, (execGetDigests s) = .next t ∧ t.held = s.held := by
  exact ⟨_, rfl, by simp⟩
theorem execGetCertificate_held (slot : Fin 8) (offset : Nat) (len : Nat) (s : State) :
    ∃ t, (execGetCertificate slot offset len s) = .next t ∧ t.held = s.held := by
  unfold execGetCertificate; (repeat' split) <;> exact ⟨_, rfl, by simp⟩
theorem execChallenge_held (slot : Fin 8) (nonce : Bytes) (s : State) :
    ∃ t, (execChallenge slot nonce s) = .next t ∧ t.held = s.held := by
  exact ⟨_, rfl, by simp⟩
theorem execGetMeasurements_held (index : Nat) (signed : Bool) (nonce : Bytes) (s : State) :
    ∃ t, (execGetMeasurements index signed nonce s) = .next t ∧ t.held = s.held := by
  unfold execGetMeasurements; dsimp only; (repeat' split) <;> (refine ⟨_, rfl, ?_⟩; (repeat' split) <;> (first | with_reducible rfl | simp))
theorem execGetCsr_held (s : State) : ∃ t, (execGetCsr s) = .next t ∧ t.held = s.held := by
  exact ⟨_, rfl, by simp⟩
theorem execSetCertificate_held (slot : Fin 8) (chain : Bytes) (s : State) :
    ∃ t, (execSetCertificate slot chain s) = .next t ∧ t.held = s.held := by
  exact ⟨_, rfl, by simp⟩
theorem execChunkSend_held (handle : Nat) (seq : Nat) (last : Bool) (chunk : Bytes) (s : State) :
    ∃ t, (execChunkSend handle seq last chunk s) = .next t ∧ t.held = s.held := by
  unfold execChunkSend; dsimp only; (repeat' split) <;> (refine ⟨_, rfl, ?_⟩; (repeat' split) <;> (first | with_reducible rfl | simp))
theorem execChunkGet_held (handle : Nat) (seq : Nat) (s : State) :
    ∃ t, (execChunkGet handle seq s) = .next t ∧ t.held = s.held := by
  unfold execChunkGet; (repeat' split) <;> exact ⟨_, rfl, by simp⟩
theorem execSpdmUnsupportedRequest_held (_code : Byte) (s : State) :
    ∃ t, (execSpdmUnsupportedRequest _code s) = .next t ∧ t.held = s.held := by
  exact ⟨_, rfl, by simp⟩
theorem execStateQuery_held (s : State) : ∃ t, (execStateQuery s) = .next t ∧ t.held = s.held := by
  exact ⟨_, rfl, by simp⟩
theorem execTokenRequest_held (action : Nat) (s : State) : ∃ t, (execTokenRequest action s) = .next t ∧ t.held = s.held := by
  unfold execTokenRequest; (repeat' split) <;> exact ⟨_, rfl, by simp⟩
theorem execTokenExpiry_held (s : State) : ∃ t, (execTokenExpiry s) = .next t ∧ t.held = s.held := by
  exact ⟨_, rfl, by simp⟩
theorem execLockoutExpiry_held (s : State) : ∃ t, (execLockoutExpiry s) = .next t ∧ t.held = s.held := by
  exact ⟨_, rfl, by simp⟩
theorem State.authorise_held (s : State) (r : ActionRule) (a : Authorise) (act : State → State) (g : Held → Held) (h : ∀ t, (act t).held = g t.held) :
    (s.authorise r a act).held = s.held ∨ (r.from_ = true ∧ r.ps0 = true ∧ s.sec.token = some a.token) ∧ (s.authorise r a act).held = g s.held := by
  unfold State.authorise
  split
  · exact .inl rfl
  · split
    · rename_i hf
      refine .inr ⟨?_, ?_⟩
      · unfold State.authFails at hf
        dsimp only at hf
        split at hf
        · cases hf
        · split at hf
          · cases hf
          · rename_i h1 h2
            simp only [List.append_eq_nil_iff] at hf
            simp only [Bool.or_eq_true, bne_iff_ne, ne_eq, not_or, Decidable.not_not] at h2
            refine ⟨?_, ?_, h2.1⟩
            · cases hr : r.from_
              · simp [hr] at hf
              · rfl
            · cases hr : r.ps0
              · simp [hr] at hf
              · rfl
      · rw [State.answer_held, h, State.modSec_held _ _ rfl rfl rfl]
    · exact .inl (by simp)
@[simp] theorem State.destroyKeys_held (s : State) : (State.destroyKeys s).held = s.held := by
  simp [State.destroyKeys]
@[simp] theorem State.dropObjects_held (s : State) : (State.dropObjects s).held = s.held := by
  simp [State.dropObjects]
@[simp] theorem State.unknownBlocks_held (s : State) : (State.unknownBlocks s).held = s.held := by
  simp [State.unknownBlocks]
theorem execActionService_held (a : Authorise) (s : State) : ∃ t, (execActionService a s) = .next t ∧ t.held = s.held := by
  refine ⟨_, rfl, (State.authorise_held s _ a _ id (fun t => ?_)).elim id And.right⟩
  simp
theorem execActionOpen_held (a : Authorise) (s : State) : ∃ t, (execActionOpen a s) = .next t ∧ t.held = s.held := by
  refine ⟨_, rfl, (State.authorise_held s _ a _ id (fun t => ?_)).elim id And.right⟩
  simp
@[simp] theorem State.writeDefaults_held (s : State) : (State.writeDefaults s).held = s.held := by
  simp [State.writeDefaults]
theorem execActionProvisioned_held (a : Authorise) (s : State) :
    ∃ t, execActionProvisioned a s = .next t ∧ (t.held = s.held ∨ s.sec.lifecycle = .blank ∧ s.power.st = 0 ∧ s.sec.token = some a.token ∧ t.held = { s.held with lifecycle := .provisioned, ownerKey := (a.sigs.head?).map (·.keyDigest) }) := by
  refine ⟨_, rfl, ?_⟩
  refine (State.authorise_held s _ a _ (fun h => { h with lifecycle := .provisioned, ownerKey := (a.sigs.head?).map (·.keyDigest) }) (fun t => ?_)).imp_right ?_
  · split
    rename_i u k hu
    have e : u.held = t.held := by rw [← State.makeKey_held t, hu]
    rw [State.writeDefaults_held, ← e]
    rfl
  · exact fun ⟨⟨h1, h2, h3⟩, h4⟩ => ⟨by simpa using h1, by simpa using h2, h3, h4⟩
theorem execActionOperational_held (a : Authorise) (s : State) :
    ∃ t, execActionOperational a s = .next t ∧ (t.held = s.held ∨ s.sec.lifecycle = .provisioned ∧ s.power.st = 0 ∧ s.sec.token = some a.token ∧ t.held = { s.held with lifecycle := .operational }) := by
  refine ⟨_, rfl, ?_⟩
  refine (State.authorise_held s _ a _ (fun h => { h with lifecycle := .operational }) (fun t => ?_)).imp_right ?_
  · refine (State.sendStatus_held _).trans ((held_foldl _ (fun u p => ?_) _ _).trans rfl)
    split
    · rw [State.modSec_held _ _ rfl rfl rfl, State.makeKey_held]
    · rfl
  · exact fun ⟨⟨h1, h2, h3⟩, h4⟩ => ⟨by simpa using h1, by simpa using h2, h3, h4⟩
theorem execActionReturn_held (a : Authorise) (s : State) :
    ∃ t, execActionReturn a s = .next t ∧ (t.held = s.held ∨ (s.sec.lifecycle = .provisioned ∨ s.sec.lifecycle = .operational) ∧ s.power.st = 0 ∧ s.sec.token = some a.token ∧ t.held = { s.held with lifecycle := .returned, ownerKey := none }) := by
  refine ⟨_, rfl, ?_⟩
  refine (State.authorise_held s _ a _ (fun h => { h with lifecycle := .returned, ownerKey := none }) (fun t => ?_)).imp_right ?_
  · rw [State.dropLinks_held]
    have e : t.destroyKeys.dropObjects.held = t.held := by simp
    rw [← e]
    rfl
  · exact fun ⟨⟨h1, h2, h3⟩, h4⟩ => ⟨by simpa using h1, by simpa using h2, h3, h4⟩
theorem execActionBlank_held (a : Authorise) (s : State) :
    ∃ t, execActionBlank a s = .next t ∧ (t.held = s.held ∨ s.sec.lifecycle = .returned ∧ s.power.st = 0 ∧ s.sec.token = some a.token ∧ t.held = { s.held with lifecycle := .blank }) := by
  refine ⟨_, rfl, ?_⟩
  refine (State.authorise_held s _ a _ (fun h => { h with lifecycle := .blank }) (fun t => ?_)).imp_right ?_
  · rw [State.writeDefaults_held]
    rfl
  · exact fun ⟨⟨h1, h2, h3⟩, h4⟩ => ⟨by simpa using h1, by simpa using h2, h3, h4⟩
@[simp] theorem State.closeDebug_held (s : State) : (State.closeDebug s).held = s.held := by
  simp [State.closeDebug]
theorem execRelock_held (s : State) : ∃ t, (execRelock s) = .next t ∧ t.held = s.held := by
  unfold execRelock; (repeat' split) <;> exact ⟨_, rfl, by simp⟩

-- Registers.lean

theorem execSnapshotStart_held (fn : PcieFn) (s : State) : ∃ t, (execSnapshotStart fn s) = .next t ∧ t.held = s.held := by
  unfold execSnapshotStart; dsimp only; (repeat' split) <;> (refine ⟨_, rfl, ?_⟩; (repeat' split) <;> (first | with_reducible rfl | simp))
theorem execSnapshotDone_held (fn : PcieFn) (startCclk : BitVec 64) (endCclk : BitVec 64) (s : State) :
    ∃ t, (execSnapshotDone fn startCclk endCclk s) = .next t ∧ t.held = s.held := by
  unfold execSnapshotDone; dsimp only; (repeat' split) <;> (refine ⟨_, rfl, ?_⟩; (repeat' split) <;> (first | with_reducible rfl | simp))
@[simp] theorem State.writeWatch_held (s : State) (n : Nat) (k : Nat) (acts : Nat) (w : RegWrite) :
    (State.writeWatch s n k acts w).held = s.held := by
  simp [State.writeWatch]
@[simp] theorem State.writeRing_held (s : State) (pot : Option (Fin 8)) (sel : RingSel) (k : Nat) (w : RegWrite) :
    (State.writeRing s pot sel k w).held = s.held := by
  simp [State.writeRing]
@[simp] theorem State.writeMsix_held (s : State) (fn : Nat) (v : Nat) (second : Bool) (w : RegWrite) :
    (State.writeMsix s fn v second w).held = s.held := by
  simp [State.writeMsix]
@[simp] theorem State.writeBlock_held (s : State) (p : Nat) (k : Nat) (w : RegWrite) :
    (State.writeBlock s p k w).held = s.held := by
  simp [State.writeBlock]
@[simp] theorem State.writePot_held (s : State) (p : Nat) (w : RegWrite) : (State.writePot s p w).held = s.held := by
  simp [State.writePot]
@[simp] theorem State.writeControl_held (s : State) (off : Nat) (w : RegWrite) : (State.writeControl s off w).held = s.held := by
  simp [State.writeControl]
@[simp] theorem State.writePf1_held (s : State) (off : Nat) (w : RegWrite) : (State.writePf1 s off w).held = s.held := by
  simp [State.writePf1]
@[simp] theorem State.writeVf_held (s : State) (n : Nat) (off : Nat) (w : RegWrite) :
    (State.writeVf s n off w).held = s.held := by
  simp [State.writeVf]
theorem execRegisterWrite_held (fn : PcieFn) (offset : Nat) (size : Nat) (value : BitVec 64) (s : State) :
    ∃ t, (execRegisterWrite fn offset size value s) = .next t ∧ t.held = s.held := by
  unfold execRegisterWrite; (repeat' split) <;> exact ⟨_, rfl, by simp⟩
@[simp] theorem State.answerSideband_held (s : State) (v : Option (BitVec 64)) : (State.answerSideband s v).held = s.held := by
  simp [State.answerSideband]
theorem execSidebandRead_held (offset : Nat) (s : State) : ∃ t, (execSidebandRead offset s) = .next t ∧ t.held = s.held := by
  unfold execSidebandRead; (repeat' split) <;> exact ⟨_, rfl, by simp⟩
theorem execSidebandWrite_held (offset : Nat) (value : BitVec 64) (s : State) :
    ∃ t, (execSidebandWrite offset value s) = .next t ∧ t.held = s.held := by
  unfold execSidebandWrite; (repeat' split) <;> exact ⟨_, rfl, by simp⟩

-- Observe.lean

@[simp] theorem State.portRecord_held (s : State) (reason : Nat) : (State.portRecord s reason).held = s.held := by
  simp [State.portRecord]
@[simp] theorem State.sync_held (s : State) (source : Nat) (counter : BitVec 64) (pc : BitVec 64) :
    (State.sync s source counter pc).held = s.held := by
  simp [State.sync]
theorem execTraceControl_held (start : Bool) (mask : BitVec 67) (period : Nat) (groupEn : Bool) (s : State) :
    ∃ t, (execTraceControl start mask period groupEn s) = .next t ∧ t.held = s.held := by
  unfold execTraceControl; (repeat' split) <;> exact ⟨_, rfl, by simp⟩
theorem execTraceSyncTimer_held (source : Fin 67) (counter : BitVec 64) (pc : BitVec 64) (s : State) :
    ∃ t, (execTraceSyncTimer source counter pc s) = .next t ∧ t.held = s.held := by
  exact ⟨_, rfl, by simp⟩
theorem execMarkerPulse_held (counters : List (BitVec 64)) (s : State) :
    ∃ t, (execMarkerPulse counters s) = .next t ∧ t.held = s.held := by
  unfold execMarkerPulse; split <;> exact ⟨_, rfl, by simp⟩
theorem execTraceFrame_held (s : State) : ∃ t, (execTraceFrame s) = .next t ∧ t.held = s.held := by
  unfold execTraceFrame; split <;> exact ⟨_, rfl, by simp⟩
@[simp] theorem State.probeWrite_held (s : State) (t : MemTier) (a : Nat) (data : Bytes) :
    (State.probeWrite s t a data).held = s.held := by
  unfold State.probeWrite; split <;> simp
@[simp] theorem State.probed_held (s : State) (v : Bytes) : (State.probed s v).held = s.held := by
  simp [State.probed]
theorem execJtagAccess_held (a : Jtag) (s : State) :
    execJtagAccess a s = .fault .noSuchAddress ∨ ∃ t, execJtagAccess a s = .next t ∧ t.held = s.held := by
  have k : ∀ t : State, t.held = s.held → (Host.Outcome.next t : Out) = .fault .noSuchAddress ∨ ∃ u, (Host.Outcome.next t : Out) = .next u ∧ u.held = s.held :=
    fun t h => .inr ⟨t, rfl, h⟩
  unfold execJtagAccess
  dsimp only
  split
  · exact k _ rfl
  · split
    · exact k _ rfl
    · exact k _ rfl
    · exact k _ rfl
    · exact k _ rfl
    · refine k _ ?_
      split
      · exact State.modPower_held _ _ rfl
      · rfl
    · refine k _ ?_
      split
      · exact State.modPower_held _ _ rfl
      · rfl
    · exact k _ rfl
    · split
      · exact k _ rfl
      · split
        · exact .inl rfl
        · refine k _ ?_
          simp
    · split
      · exact k _ rfl
      · split
        · exact .inl rfl
        · refine k _ ?_
          simp
    · split
      · refine k _ ?_
        simp
      · exact k _ rfl
    · split
      · refine k _ ?_
        simp
      · exact k _ rfl
    · split
      · exact k _ rfl
      · split
        · exact k _ rfl
        · split
          · exact k _ (by simp)
          · exact k _ (by simp)
    · split
      · exact k _ rfl
      · exact k _ (by simp)

end Sys2Proof.Machine
end

