-- ==== Sys2Proof/Laws/Memory.lean ====
section
/-! SUPPORT. Sparse memory: a write keeps the canonical form, the byte written is the byte read, and every other byte reads as
before. -/

namespace Sys2Proof.Machine

/-- A memory in canonical form above a bound is so above a lower one. -/
theorem Memory.wfFrom_mono {a b : Nat} (h : a ≤ b) {m : Mem} (w : Memory.wfFrom (some b) m = true) : Memory.wfFrom (some a) m = true := by
  cases m with
  | nil => rfl
  | cons x m =>
    simp only [Memory.wfFrom, Bool.and_eq_true, decide_eq_true_eq] at w ⊢
    exact ⟨⟨by omega, w.1.2⟩, w.2⟩

/-- A memory in canonical form above a bound is in canonical form. -/
theorem Memory.wf_of_wfFrom {b : Nat} {m : Mem} (w : Memory.wfFrom (some b) m = true) : Memory.wf m = true := by
  cases m with
  | nil => rfl
  | cons x m =>
    simp only [Memory.wf, Memory.wfFrom, Bool.and_eq_true, decide_eq_true_eq] at w ⊢
    exact ⟨⟨trivial, w.1.2⟩, w.2⟩

/-- Below the bound of a memory in canonical form every byte reads as zero. -/
theorem Memory.read_below {m : Mem} {lo a : Nat} (w : Memory.wfFrom (some lo) m = true) (h : a ≤ lo) : Memory.read m a = 0 := by
  cases m with
  | nil => rfl
  | cons x m =>
    simp only [Memory.wfFrom, Bool.and_eq_true, decide_eq_true_eq] at w
    simp only [Memory.read]
    rw [if_pos (by omega)]

/-- A write above a bound keeps the canonical form above it. -/
theorem Memory.write_wfFrom {m : Mem} {lo a : Nat} {b : Byte} (w : Memory.wfFrom (some lo) m = true) (h : lo < a) :
    Memory.wfFrom (some lo) (Memory.write m a b) = true := by
  induction m generalizing lo with
  | nil =>
    simp only [Memory.write]
    split
    · rfl
    · simpa [Memory.wfFrom] using ⟨h, ‹_›⟩
  | cons x m ih =>
    simp only [Memory.wfFrom, Bool.and_eq_true, decide_eq_true_eq] at w
    simp only [Memory.write]
    split
    · split
      · simpa [Memory.wfFrom] using ⟨⟨w.1.1, by simpa using w.1.2⟩, w.2⟩
      · simpa [Memory.wfFrom] using ⟨⟨h, ‹_›⟩, ⟨‹_›, by simpa using w.1.2⟩, w.2⟩
    · split
      · split
        · exact Memory.wfFrom_mono (by omega) w.2
        · rename_i e _
          subst e
          simpa [Memory.wfFrom] using ⟨⟨h, ‹_›⟩, w.2⟩
      · simpa [Memory.wfFrom] using ⟨⟨w.1.1, by simpa using w.1.2⟩, ih w.2 (by omega)⟩

/-- A write keeps the canonical form. -/
theorem Memory.write_wf {m : Mem} {a : Nat} {b : Byte} (w : Memory.wf m = true) : Memory.wf (Memory.write m a b) = true := by
  cases m with
  | nil =>
    simp only [Memory.write]
    split
    · rfl
    · simpa [Memory.wf, Memory.wfFrom] using ‹_›
  | cons x m =>
    simp only [Memory.wf, Memory.wfFrom, Bool.and_eq_true] at w
    simp only [Memory.write]
    split
    · split
      · simpa [Memory.wf, Memory.wfFrom] using ⟨by simpa using w.1.2, w.2⟩
      · simpa [Memory.wf, Memory.wfFrom] using ⟨‹_›, ⟨‹_›, by simpa using w.1.2⟩, w.2⟩
    · split
      · split
        · exact Memory.wf_of_wfFrom w.2
        · rename_i e _
          subst e
          simpa [Memory.wf, Memory.wfFrom] using ⟨‹_›, w.2⟩
      · simpa [Memory.wf, Memory.wfFrom] using ⟨by simpa using w.1.2, Memory.write_wfFrom w.2 (by omega)⟩

/-- A write of bytes keeps the canonical form. -/
theorem Memory.writeN_wf {m : Mem} {a : Nat} {bs : Bytes} (w : Memory.wf m = true) : Memory.wf (Memory.writeN m a bs) = true := by
  induction bs generalizing m a with
  | nil => exact w
  | cons b bs ih => exact ih (Memory.write_wf w)

/-- The byte written above the bound is the byte read. -/
theorem Memory.read_write_same {m : Mem} {a : Nat} {b : Byte} (w : Memory.wf m = true) :
    Memory.read (Memory.write m a b) a = b := by
  induction m with
  | nil =>
    simp only [Memory.write]
    split
    · simp [Memory.read, *]
    · simp [Memory.read]
  | cons x m ih =>
    have w' : Memory.wfFrom (some x.1) m = true := by simp only [Memory.wf, Memory.wfFrom, Bool.and_eq_true] at w; exact w.2
    simp only [Memory.write]
    split
    · split
      · simp [Memory.read, *]
      · simp [Memory.read]
    · split
      · split
        · rename_i e z
          rw [Memory.read_below w' (by omega), z]
        · simp [Memory.read]
      · simp only [Memory.read]
        rw [if_neg (by omega), if_neg (by omega)]
        exact ih (Memory.wf_of_wfFrom w')

/-- Every other byte reads as before. -/
theorem Memory.read_write_other {m : Mem} {a c : Nat} {b : Byte} (w : Memory.wf m = true) (h : c ≠ a) :
    Memory.read (Memory.write m a b) c = Memory.read m c := by
  induction m with
  | nil =>
    simp only [Memory.write]
    split
    · rfl
    · simp only [Memory.read]
      split <;> simp_all
  | cons x m ih =>
    have w' : Memory.wfFrom (some x.1) m = true := by simp only [Memory.wf, Memory.wfFrom, Bool.and_eq_true] at w; exact w.2
    simp only [Memory.write]
    split
    · split
      · rfl
      · simp only [Memory.read]
        by_cases h1 : c < a
        · rw [if_pos h1, if_pos (by omega)]
        · rw [if_neg h1, if_neg (by omega)]
    · split
      · rename_i e
        subst e
        split
        · by_cases h1 : c < x.1
          · rw [Memory.read_below w' (by omega)]
            simp [Memory.read, h1]
          · simp only [Memory.read]
            rw [if_neg h1, if_neg (by omega)]
        · simp only [Memory.read]
          by_cases h1 : c < x.1
          · rw [if_pos h1, if_pos h1]
          · rw [if_neg h1, if_neg h1, if_neg (by omega), if_neg (by omega)]
      · simp only [Memory.read]
        split
        · rfl
        · split
          · rfl
          · exact ih (Memory.wf_of_wfFrom w')

/-- Bytes outside a write of bytes read as before. -/
theorem Memory.read_writeN_other {m : Mem} {a c : Nat} {bs : Bytes} (w : Memory.wf m = true) (h : c < a ∨ a + bs.length ≤ c) :
    Memory.read (Memory.writeN m a bs) c = Memory.read m c := by
  induction bs generalizing m a with
  | nil => rfl
  | cons b bs ih =>
    simp only [List.length_cons] at h
    rw [Memory.writeN, ih (Memory.write_wf w) (by omega), Memory.read_write_other w (by omega)]

end Sys2Proof.Machine
end

