-- ==== Sys2Proof/Laws/State.lean ====
section
/-! SUPPORT. One lemma per update of the state and per field: what the update leaves in the field. (It comes after the
Held files, whose proofs do not want these rewritings.) -/

namespace Sys2Proof.Machine

-- used
@[simp] theorem State.used_pending (s : State) : (s.used).pending = s.pending := rfl
@[simp] theorem State.used_time (s : State) : (s.used).time = s.time := rfl
@[simp] theorem State.used_free (s : State) : (s.used).free = s.free + 1 := rfl
@[simp] theorem State.used_nextId (s : State) : (s.used).nextId = s.nextId := rfl
@[simp] theorem State.used_host (s : State) : (s.used).host = s.host := rfl
@[simp] theorem State.used_jobs (s : State) : (s.used).jobs = s.jobs := rfl
@[simp] theorem State.used_images (s : State) : (s.used).images = s.images := rfl
@[simp] theorem State.used_corpora (s : State) : (s.used).corpora = s.corpora := rfl
@[simp] theorem State.used_colls (s : State) : (s.used).colls = s.colls := rfl
@[simp] theorem State.used_tables (s : State) : (s.used).tables = s.tables := rfl
@[simp] theorem State.used_embed (s : State) : (s.used).embed = s.embed := rfl
@[simp] theorem State.used_strains (s : State) : (s.used).strains = s.strains := rfl
@[simp] theorem State.used_searches (s : State) : (s.used).searches = s.searches := rfl
@[simp] theorem State.used_cups (s : State) : (s.used).cups = s.cups := rfl
@[simp] theorem State.used_waiting (s : State) : (s.used).waiting = s.waiting := rfl
@[simp] theorem State.used_reads (s : State) : (s.used).reads = s.reads := rfl
@[simp] theorem State.used_cores (s : State) : (s.used).cores = s.cores := rfl
@[simp] theorem State.used_tiers (s : State) : (s.used).tiers = s.tiers := rfl
@[simp] theorem State.used_pots (s : State) : (s.used).pots = s.pots := rfl
@[simp] theorem State.used_nvme (s : State) : (s.used).nvme = s.nvme := rfl
@[simp] theorem State.used_media (s : State) : (s.used).media = s.media := rfl
@[simp] theorem State.used_ports (s : State) : (s.used).ports = s.ports := rfl
@[simp] theorem State.used_sec (s : State) : (s.used).sec = s.sec := rfl
@[simp] theorem State.used_power (s : State) : (s.used).power = s.power := rfl
@[simp] theorem State.used_boot (s : State) : (s.used).boot = s.boot := rfl
@[simp] theorem State.used_obs (s : State) : (s.used).obs = s.obs := rfl

-- modPot
@[simp] theorem State.modPot_pending (s : State) (p : Nat) (f : Pot → Pot) : (s.modPot p f).pending = s.pending := rfl
@[simp] theorem State.modPot_time (s : State) (p : Nat) (f : Pot → Pot) : (s.modPot p f).time = s.time := rfl
@[simp] theorem State.modPot_free (s : State) (p : Nat) (f : Pot → Pot) : (s.modPot p f).free = s.free := rfl
@[simp] theorem State.modPot_nextId (s : State) (p : Nat) (f : Pot → Pot) : (s.modPot p f).nextId = s.nextId := rfl
@[simp] theorem State.modPot_host (s : State) (p : Nat) (f : Pot → Pot) : (s.modPot p f).host = s.host := rfl
@[simp] theorem State.modPot_jobs (s : State) (p : Nat) (f : Pot → Pot) : (s.modPot p f).jobs = s.jobs := rfl
@[simp] theorem State.modPot_images (s : State) (p : Nat) (f : Pot → Pot) : (s.modPot p f).images = s.images := rfl
@[simp] theorem State.modPot_corpora (s : State) (p : Nat) (f : Pot → Pot) : (s.modPot p f).corpora = s.corpora := rfl
@[simp] theorem State.modPot_colls (s : State) (p : Nat) (f : Pot → Pot) : (s.modPot p f).colls = s.colls := rfl
@[simp] theorem State.modPot_tables (s : State) (p : Nat) (f : Pot → Pot) : (s.modPot p f).tables = s.tables := rfl
@[simp] theorem State.modPot_embed (s : State) (p : Nat) (f : Pot → Pot) : (s.modPot p f).embed = s.embed := rfl
@[simp] theorem State.modPot_strains (s : State) (p : Nat) (f : Pot → Pot) : (s.modPot p f).strains = s.strains := rfl
@[simp] theorem State.modPot_searches (s : State) (p : Nat) (f : Pot → Pot) : (s.modPot p f).searches = s.searches := rfl
@[simp] theorem State.modPot_cups (s : State) (p : Nat) (f : Pot → Pot) : (s.modPot p f).cups = s.cups := rfl
@[simp] theorem State.modPot_waiting (s : State) (p : Nat) (f : Pot → Pot) : (s.modPot p f).waiting = s.waiting := rfl
@[simp] theorem State.modPot_reads (s : State) (p : Nat) (f : Pot → Pot) : (s.modPot p f).reads = s.reads := rfl
@[simp] theorem State.modPot_cores (s : State) (p : Nat) (f : Pot → Pot) : (s.modPot p f).cores = s.cores := rfl
@[simp] theorem State.modPot_tiers (s : State) (p : Nat) (f : Pot → Pot) : (s.modPot p f).tiers = s.tiers := rfl
@[simp] theorem State.modPot_pots (s : State) (p : Nat) (f : Pot → Pot) : (s.modPot p f).pots = s.pots.setIfInBounds p (f (s.pot p)) := rfl
@[simp] theorem State.modPot_nvme (s : State) (p : Nat) (f : Pot → Pot) : (s.modPot p f).nvme = s.nvme := rfl
@[simp] theorem State.modPot_media (s : State) (p : Nat) (f : Pot → Pot) : (s.modPot p f).media = s.media := rfl
@[simp] theorem State.modPot_ports (s : State) (p : Nat) (f : Pot → Pot) : (s.modPot p f).ports = s.ports := rfl
@[simp] theorem State.modPot_sec (s : State) (p : Nat) (f : Pot → Pot) : (s.modPot p f).sec = s.sec := rfl
@[simp] theorem State.modPot_power (s : State) (p : Nat) (f : Pot → Pot) : (s.modPot p f).power = s.power := rfl
@[simp] theorem State.modPot_boot (s : State) (p : Nat) (f : Pot → Pot) : (s.modPot p f).boot = s.boot := rfl
@[simp] theorem State.modPot_obs (s : State) (p : Nat) (f : Pot → Pot) : (s.modPot p f).obs = s.obs := rfl

-- modCore
@[simp] theorem State.modCore_pending (s : State) (c : Nat) (f : Core → Core) : (s.modCore c f).pending = s.pending := rfl
@[simp] theorem State.modCore_time (s : State) (c : Nat) (f : Core → Core) : (s.modCore c f).time = s.time := rfl
@[simp] theorem State.modCore_free (s : State) (c : Nat) (f : Core → Core) : (s.modCore c f).free = s.free := rfl
@[simp] theorem State.modCore_nextId (s : State) (c : Nat) (f : Core → Core) : (s.modCore c f).nextId = s.nextId := rfl
@[simp] theorem State.modCore_host (s : State) (c : Nat) (f : Core → Core) : (s.modCore c f).host = s.host := rfl
@[simp] theorem State.modCore_jobs (s : State) (c : Nat) (f : Core → Core) : (s.modCore c f).jobs = s.jobs := rfl
@[simp] theorem State.modCore_images (s : State) (c : Nat) (f : Core → Core) : (s.modCore c f).images = s.images := rfl
@[simp] theorem State.modCore_corpora (s : State) (c : Nat) (f : Core → Core) : (s.modCore c f).corpora = s.corpora := rfl
@[simp] theorem State.modCore_colls (s : State) (c : Nat) (f : Core → Core) : (s.modCore c f).colls = s.colls := rfl
@[simp] theorem State.modCore_tables (s : State) (c : Nat) (f : Core → Core) : (s.modCore c f).tables = s.tables := rfl
@[simp] theorem State.modCore_embed (s : State) (c : Nat) (f : Core → Core) : (s.modCore c f).embed = s.embed := rfl
@[simp] theorem State.modCore_strains (s : State) (c : Nat) (f : Core → Core) : (s.modCore c f).strains = s.strains := rfl
@[simp] theorem State.modCore_searches (s : State) (c : Nat) (f : Core → Core) : (s.modCore c f).searches = s.searches := rfl
@[simp] theorem State.modCore_cups (s : State) (c : Nat) (f : Core → Core) : (s.modCore c f).cups = s.cups := rfl
@[simp] theorem State.modCore_waiting (s : State) (c : Nat) (f : Core → Core) : (s.modCore c f).waiting = s.waiting := rfl
@[simp] theorem State.modCore_reads (s : State) (c : Nat) (f : Core → Core) : (s.modCore c f).reads = s.reads := rfl
@[simp] theorem State.modCore_cores (s : State) (c : Nat) (f : Core → Core) : (s.modCore c f).cores = s.cores.setIfInBounds c (f (s.core c)) := rfl
@[simp] theorem State.modCore_tiers (s : State) (c : Nat) (f : Core → Core) : (s.modCore c f).tiers = s.tiers := rfl
@[simp] theorem State.modCore_pots (s : State) (c : Nat) (f : Core → Core) : (s.modCore c f).pots = s.pots := rfl
@[simp] theorem State.modCore_nvme (s : State) (c : Nat) (f : Core → Core) : (s.modCore c f).nvme = s.nvme := rfl
@[simp] theorem State.modCore_media (s : State) (c : Nat) (f : Core → Core) : (s.modCore c f).media = s.media := rfl
@[simp] theorem State.modCore_ports (s : State) (c : Nat) (f : Core → Core) : (s.modCore c f).ports = s.ports := rfl
@[simp] theorem State.modCore_sec (s : State) (c : Nat) (f : Core → Core) : (s.modCore c f).sec = s.sec := rfl
@[simp] theorem State.modCore_power (s : State) (c : Nat) (f : Core → Core) : (s.modCore c f).power = s.power := rfl
@[simp] theorem State.modCore_boot (s : State) (c : Nat) (f : Core → Core) : (s.modCore c f).boot = s.boot := rfl
@[simp] theorem State.modCore_obs (s : State) (c : Nat) (f : Core → Core) : (s.modCore c f).obs = s.obs := rfl

-- modPort
@[simp] theorem State.modPort_pending (s : State) (p : Nat) (f : Port → Port) : (s.modPort p f).pending = s.pending := rfl
@[simp] theorem State.modPort_time (s : State) (p : Nat) (f : Port → Port) : (s.modPort p f).time = s.time := rfl
@[simp] theorem State.modPort_free (s : State) (p : Nat) (f : Port → Port) : (s.modPort p f).free = s.free := rfl
@[simp] theorem State.modPort_nextId (s : State) (p : Nat) (f : Port → Port) : (s.modPort p f).nextId = s.nextId := rfl
@[simp] theorem State.modPort_host (s : State) (p : Nat) (f : Port → Port) : (s.modPort p f).host = s.host := rfl
@[simp] theorem State.modPort_jobs (s : State) (p : Nat) (f : Port → Port) : (s.modPort p f).jobs = s.jobs := rfl
@[simp] theorem State.modPort_images (s : State) (p : Nat) (f : Port → Port) : (s.modPort p f).images = s.images := rfl
@[simp] theorem State.modPort_corpora (s : State) (p : Nat) (f : Port → Port) : (s.modPort p f).corpora = s.corpora := rfl
@[simp] theorem State.modPort_colls (s : State) (p : Nat) (f : Port → Port) : (s.modPort p f).colls = s.colls := rfl
@[simp] theorem State.modPort_tables (s : State) (p : Nat) (f : Port → Port) : (s.modPort p f).tables = s.tables := rfl
@[simp] theorem State.modPort_embed (s : State) (p : Nat) (f : Port → Port) : (s.modPort p f).embed = s.embed := rfl
@[simp] theorem State.modPort_strains (s : State) (p : Nat) (f : Port → Port) : (s.modPort p f).strains = s.strains := rfl
@[simp] theorem State.modPort_searches (s : State) (p : Nat) (f : Port → Port) : (s.modPort p f).searches = s.searches := rfl
@[simp] theorem State.modPort_cups (s : State) (p : Nat) (f : Port → Port) : (s.modPort p f).cups = s.cups := rfl
@[simp] theorem State.modPort_waiting (s : State) (p : Nat) (f : Port → Port) : (s.modPort p f).waiting = s.waiting := rfl
@[simp] theorem State.modPort_reads (s : State) (p : Nat) (f : Port → Port) : (s.modPort p f).reads = s.reads := rfl
@[simp] theorem State.modPort_cores (s : State) (p : Nat) (f : Port → Port) : (s.modPort p f).cores = s.cores := rfl
@[simp] theorem State.modPort_tiers (s : State) (p : Nat) (f : Port → Port) : (s.modPort p f).tiers = s.tiers := rfl
@[simp] theorem State.modPort_pots (s : State) (p : Nat) (f : Port → Port) : (s.modPort p f).pots = s.pots := rfl
@[simp] theorem State.modPort_nvme (s : State) (p : Nat) (f : Port → Port) : (s.modPort p f).nvme = s.nvme := rfl
@[simp] theorem State.modPort_media (s : State) (p : Nat) (f : Port → Port) : (s.modPort p f).media = s.media := rfl
@[simp] theorem State.modPort_ports (s : State) (p : Nat) (f : Port → Port) : (s.modPort p f).ports = s.ports.setIfInBounds p (f (s.port p)) := rfl
@[simp] theorem State.modPort_sec (s : State) (p : Nat) (f : Port → Port) : (s.modPort p f).sec = s.sec := rfl
@[simp] theorem State.modPort_power (s : State) (p : Nat) (f : Port → Port) : (s.modPort p f).power = s.power := rfl
@[simp] theorem State.modPort_boot (s : State) (p : Nat) (f : Port → Port) : (s.modPort p f).boot = s.boot := rfl
@[simp] theorem State.modPort_obs (s : State) (p : Nat) (f : Port → Port) : (s.modPort p f).obs = s.obs := rfl

-- modBay
@[simp] theorem State.modBay_pending (s : State) (b : Nat) (f : Bay → Bay) : (s.modBay b f).pending = s.pending := rfl
@[simp] theorem State.modBay_time (s : State) (b : Nat) (f : Bay → Bay) : (s.modBay b f).time = s.time := rfl
@[simp] theorem State.modBay_free (s : State) (b : Nat) (f : Bay → Bay) : (s.modBay b f).free = s.free := rfl
@[simp] theorem State.modBay_nextId (s : State) (b : Nat) (f : Bay → Bay) : (s.modBay b f).nextId = s.nextId := rfl
@[simp] theorem State.modBay_host (s : State) (b : Nat) (f : Bay → Bay) : (s.modBay b f).host = s.host := rfl
@[simp] theorem State.modBay_jobs (s : State) (b : Nat) (f : Bay → Bay) : (s.modBay b f).jobs = s.jobs := rfl
@[simp] theorem State.modBay_images (s : State) (b : Nat) (f : Bay → Bay) : (s.modBay b f).images = s.images := rfl
@[simp] theorem State.modBay_corpora (s : State) (b : Nat) (f : Bay → Bay) : (s.modBay b f).corpora = s.corpora := rfl
@[simp] theorem State.modBay_colls (s : State) (b : Nat) (f : Bay → Bay) : (s.modBay b f).colls = s.colls := rfl
@[simp] theorem State.modBay_tables (s : State) (b : Nat) (f : Bay → Bay) : (s.modBay b f).tables = s.tables := rfl
@[simp] theorem State.modBay_embed (s : State) (b : Nat) (f : Bay → Bay) : (s.modBay b f).embed = s.embed := rfl
@[simp] theorem State.modBay_strains (s : State) (b : Nat) (f : Bay → Bay) : (s.modBay b f).strains = s.strains := rfl
@[simp] theorem State.modBay_searches (s : State) (b : Nat) (f : Bay → Bay) : (s.modBay b f).searches = s.searches := rfl
@[simp] theorem State.modBay_cups (s : State) (b : Nat) (f : Bay → Bay) : (s.modBay b f).cups = s.cups := rfl
@[simp] theorem State.modBay_waiting (s : State) (b : Nat) (f : Bay → Bay) : (s.modBay b f).waiting = s.waiting := rfl
@[simp] theorem State.modBay_reads (s : State) (b : Nat) (f : Bay → Bay) : (s.modBay b f).reads = s.reads := rfl
@[simp] theorem State.modBay_cores (s : State) (b : Nat) (f : Bay → Bay) : (s.modBay b f).cores = s.cores := rfl
@[simp] theorem State.modBay_tiers (s : State) (b : Nat) (f : Bay → Bay) : (s.modBay b f).tiers = s.tiers := rfl
@[simp] theorem State.modBay_pots (s : State) (b : Nat) (f : Bay → Bay) : (s.modBay b f).pots = s.pots := rfl
@[simp] theorem State.modBay_nvme (s : State) (b : Nat) (f : Bay → Bay) : (s.modBay b f).nvme = s.nvme := rfl
@[simp] theorem State.modBay_media (s : State) (b : Nat) (f : Bay → Bay) : (s.modBay b f).media = { s.media with bays := s.media.bays.setIfInBounds b (f (s.bay b)) } := rfl
@[simp] theorem State.modBay_ports (s : State) (b : Nat) (f : Bay → Bay) : (s.modBay b f).ports = s.ports := rfl
@[simp] theorem State.modBay_sec (s : State) (b : Nat) (f : Bay → Bay) : (s.modBay b f).sec = s.sec := rfl
@[simp] theorem State.modBay_power (s : State) (b : Nat) (f : Bay → Bay) : (s.modBay b f).power = s.power := rfl
@[simp] theorem State.modBay_boot (s : State) (b : Nat) (f : Bay → Bay) : (s.modBay b f).boot = s.boot := rfl
@[simp] theorem State.modBay_obs (s : State) (b : Nat) (f : Bay → Bay) : (s.modBay b f).obs = s.obs := rfl

-- modObs
@[simp] theorem State.modObs_pending (s : State) (f : Obs → Obs) : (s.modObs f).pending = s.pending := rfl
@[simp] theorem State.modObs_time (s : State) (f : Obs → Obs) : (s.modObs f).time = s.time := rfl
@[simp] theorem State.modObs_free (s : State) (f : Obs → Obs) : (s.modObs f).free = s.free := rfl
@[simp] theorem State.modObs_nextId (s : State) (f : Obs → Obs) : (s.modObs f).nextId = s.nextId := rfl
@[simp] theorem State.modObs_host (s : State) (f : Obs → Obs) : (s.modObs f).host = s.host := rfl
@[simp] theorem State.modObs_jobs (s : State) (f : Obs → Obs) : (s.modObs f).jobs = s.jobs := rfl
@[simp] theorem State.modObs_images (s : State) (f : Obs → Obs) : (s.modObs f).images = s.images := rfl
@[simp] theorem State.modObs_corpora (s : State) (f : Obs → Obs) : (s.modObs f).corpora = s.corpora := rfl
@[simp] theorem State.modObs_colls (s : State) (f : Obs → Obs) : (s.modObs f).colls = s.colls := rfl
@[simp] theorem State.modObs_tables (s : State) (f : Obs → Obs) : (s.modObs f).tables = s.tables := rfl
@[simp] theorem State.modObs_embed (s : State) (f : Obs → Obs) : (s.modObs f).embed = s.embed := rfl
@[simp] theorem State.modObs_strains (s : State) (f : Obs → Obs) : (s.modObs f).strains = s.strains := rfl
@[simp] theorem State.modObs_searches (s : State) (f : Obs → Obs) : (s.modObs f).searches = s.searches := rfl
@[simp] theorem State.modObs_cups (s : State) (f : Obs → Obs) : (s.modObs f).cups = s.cups := rfl
@[simp] theorem State.modObs_waiting (s : State) (f : Obs → Obs) : (s.modObs f).waiting = s.waiting := rfl
@[simp] theorem State.modObs_reads (s : State) (f : Obs → Obs) : (s.modObs f).reads = s.reads := rfl
@[simp] theorem State.modObs_cores (s : State) (f : Obs → Obs) : (s.modObs f).cores = s.cores := rfl
@[simp] theorem State.modObs_tiers (s : State) (f : Obs → Obs) : (s.modObs f).tiers = s.tiers := rfl
@[simp] theorem State.modObs_pots (s : State) (f : Obs → Obs) : (s.modObs f).pots = s.pots := rfl
@[simp] theorem State.modObs_nvme (s : State) (f : Obs → Obs) : (s.modObs f).nvme = s.nvme := rfl
@[simp] theorem State.modObs_media (s : State) (f : Obs → Obs) : (s.modObs f).media = s.media := rfl
@[simp] theorem State.modObs_ports (s : State) (f : Obs → Obs) : (s.modObs f).ports = s.ports := rfl
@[simp] theorem State.modObs_sec (s : State) (f : Obs → Obs) : (s.modObs f).sec = s.sec := rfl
@[simp] theorem State.modObs_power (s : State) (f : Obs → Obs) : (s.modObs f).power = s.power := rfl
@[simp] theorem State.modObs_boot (s : State) (f : Obs → Obs) : (s.modObs f).boot = s.boot := rfl
@[simp] theorem State.modObs_obs (s : State) (f : Obs → Obs) : (s.modObs f).obs = f s.obs := rfl

-- modHost
@[simp] theorem State.modHost_pending (s : State) (f : HostIf → HostIf) : (s.modHost f).pending = s.pending := rfl
@[simp] theorem State.modHost_time (s : State) (f : HostIf → HostIf) : (s.modHost f).time = s.time := rfl
@[simp] theorem State.modHost_free (s : State) (f : HostIf → HostIf) : (s.modHost f).free = s.free := rfl
@[simp] theorem State.modHost_nextId (s : State) (f : HostIf → HostIf) : (s.modHost f).nextId = s.nextId := rfl
@[simp] theorem State.modHost_host (s : State) (f : HostIf → HostIf) : (s.modHost f).host = f s.host := rfl
@[simp] theorem State.modHost_jobs (s : State) (f : HostIf → HostIf) : (s.modHost f).jobs = s.jobs := rfl
@[simp] theorem State.modHost_images (s : State) (f : HostIf → HostIf) : (s.modHost f).images = s.images := rfl
@[simp] theorem State.modHost_corpora (s : State) (f : HostIf → HostIf) : (s.modHost f).corpora = s.corpora := rfl
@[simp] theorem State.modHost_colls (s : State) (f : HostIf → HostIf) : (s.modHost f).colls = s.colls := rfl
@[simp] theorem State.modHost_tables (s : State) (f : HostIf → HostIf) : (s.modHost f).tables = s.tables := rfl
@[simp] theorem State.modHost_embed (s : State) (f : HostIf → HostIf) : (s.modHost f).embed = s.embed := rfl
@[simp] theorem State.modHost_strains (s : State) (f : HostIf → HostIf) : (s.modHost f).strains = s.strains := rfl
@[simp] theorem State.modHost_searches (s : State) (f : HostIf → HostIf) : (s.modHost f).searches = s.searches := rfl
@[simp] theorem State.modHost_cups (s : State) (f : HostIf → HostIf) : (s.modHost f).cups = s.cups := rfl
@[simp] theorem State.modHost_waiting (s : State) (f : HostIf → HostIf) : (s.modHost f).waiting = s.waiting := rfl
@[simp] theorem State.modHost_reads (s : State) (f : HostIf → HostIf) : (s.modHost f).reads = s.reads := rfl
@[simp] theorem State.modHost_cores (s : State) (f : HostIf → HostIf) : (s.modHost f).cores = s.cores := rfl
@[simp] theorem State.modHost_tiers (s : State) (f : HostIf → HostIf) : (s.modHost f).tiers = s.tiers := rfl
@[simp] theorem State.modHost_pots (s : State) (f : HostIf → HostIf) : (s.modHost f).pots = s.pots := rfl
@[simp] theorem State.modHost_nvme (s : State) (f : HostIf → HostIf) : (s.modHost f).nvme = s.nvme := rfl
@[simp] theorem State.modHost_media (s : State) (f : HostIf → HostIf) : (s.modHost f).media = s.media := rfl
@[simp] theorem State.modHost_ports (s : State) (f : HostIf → HostIf) : (s.modHost f).ports = s.ports := rfl
@[simp] theorem State.modHost_sec (s : State) (f : HostIf → HostIf) : (s.modHost f).sec = s.sec := rfl
@[simp] theorem State.modHost_power (s : State) (f : HostIf → HostIf) : (s.modHost f).power = s.power := rfl
@[simp] theorem State.modHost_boot (s : State) (f : HostIf → HostIf) : (s.modHost f).boot = s.boot := rfl
@[simp] theorem State.modHost_obs (s : State) (f : HostIf → HostIf) : (s.modHost f).obs = s.obs := rfl

-- modMedia
@[simp] theorem State.modMedia_pending (s : State) (f : Media → Media) : (s.modMedia f).pending = s.pending := rfl
@[simp] theorem State.modMedia_time (s : State) (f : Media → Media) : (s.modMedia f).time = s.time := rfl
@[simp] theorem State.modMedia_free (s : State) (f : Media → Media) : (s.modMedia f).free = s.free := rfl
@[simp] theorem State.modMedia_nextId (s : State) (f : Media → Media) : (s.modMedia f).nextId = s.nextId := rfl
@[simp] theorem State.modMedia_host (s : State) (f : Media → Media) : (s.modMedia f).host = s.host := rfl
@[simp] theorem State.modMedia_jobs (s : State) (f : Media → Media) : (s.modMedia f).jobs = s.jobs := rfl
@[simp] theorem State.modMedia_images (s : State) (f : Media → Media) : (s.modMedia f).images = s.images := rfl
@[simp] theorem State.modMedia_corpora (s : State) (f : Media → Media) : (s.modMedia f).corpora = s.corpora := rfl
@[simp] theorem State.modMedia_colls (s : State) (f : Media → Media) : (s.modMedia f).colls = s.colls := rfl
@[simp] theorem State.modMedia_tables (s : State) (f : Media → Media) : (s.modMedia f).tables = s.tables := rfl
@[simp] theorem State.modMedia_embed (s : State) (f : Media → Media) : (s.modMedia f).embed = s.embed := rfl
@[simp] theorem State.modMedia_strains (s : State) (f : Media → Media) : (s.modMedia f).strains = s.strains := rfl
@[simp] theorem State.modMedia_searches (s : State) (f : Media → Media) : (s.modMedia f).searches = s.searches := rfl
@[simp] theorem State.modMedia_cups (s : State) (f : Media → Media) : (s.modMedia f).cups = s.cups := rfl
@[simp] theorem State.modMedia_waiting (s : State) (f : Media → Media) : (s.modMedia f).waiting = s.waiting := rfl
@[simp] theorem State.modMedia_reads (s : State) (f : Media → Media) : (s.modMedia f).reads = s.reads := rfl
@[simp] theorem State.modMedia_cores (s : State) (f : Media → Media) : (s.modMedia f).cores = s.cores := rfl
@[simp] theorem State.modMedia_tiers (s : State) (f : Media → Media) : (s.modMedia f).tiers = s.tiers := rfl
@[simp] theorem State.modMedia_pots (s : State) (f : Media → Media) : (s.modMedia f).pots = s.pots := rfl
@[simp] theorem State.modMedia_nvme (s : State) (f : Media → Media) : (s.modMedia f).nvme = s.nvme := rfl
@[simp] theorem State.modMedia_media (s : State) (f : Media → Media) : (s.modMedia f).media = f s.media := rfl
@[simp] theorem State.modMedia_ports (s : State) (f : Media → Media) : (s.modMedia f).ports = s.ports := rfl
@[simp] theorem State.modMedia_sec (s : State) (f : Media → Media) : (s.modMedia f).sec = s.sec := rfl
@[simp] theorem State.modMedia_power (s : State) (f : Media → Media) : (s.modMedia f).power = s.power := rfl
@[simp] theorem State.modMedia_boot (s : State) (f : Media → Media) : (s.modMedia f).boot = s.boot := rfl
@[simp] theorem State.modMedia_obs (s : State) (f : Media → Media) : (s.modMedia f).obs = s.obs := rfl

-- modNvme
@[simp] theorem State.modNvme_pending (s : State) (f : Nvme → Nvme) : (s.modNvme f).pending = s.pending := rfl
@[simp] theorem State.modNvme_time (s : State) (f : Nvme → Nvme) : (s.modNvme f).time = s.time := rfl
@[simp] theorem State.modNvme_free (s : State) (f : Nvme → Nvme) : (s.modNvme f).free = s.free := rfl
@[simp] theorem State.modNvme_nextId (s : State) (f : Nvme → Nvme) : (s.modNvme f).nextId = s.nextId := rfl
@[simp] theorem State.modNvme_host (s : State) (f : Nvme → Nvme) : (s.modNvme f).host = s.host := rfl
@[simp] theorem State.modNvme_jobs (s : State) (f : Nvme → Nvme) : (s.modNvme f).jobs = s.jobs := rfl
@[simp] theorem State.modNvme_images (s : State) (f : Nvme → Nvme) : (s.modNvme f).images = s.images := rfl
@[simp] theorem State.modNvme_corpora (s : State) (f : Nvme → Nvme) : (s.modNvme f).corpora = s.corpora := rfl
@[simp] theorem State.modNvme_colls (s : State) (f : Nvme → Nvme) : (s.modNvme f).colls = s.colls := rfl
@[simp] theorem State.modNvme_tables (s : State) (f : Nvme → Nvme) : (s.modNvme f).tables = s.tables := rfl
@[simp] theorem State.modNvme_embed (s : State) (f : Nvme → Nvme) : (s.modNvme f).embed = s.embed := rfl
@[simp] theorem State.modNvme_strains (s : State) (f : Nvme → Nvme) : (s.modNvme f).strains = s.strains := rfl
@[simp] theorem State.modNvme_searches (s : State) (f : Nvme → Nvme) : (s.modNvme f).searches = s.searches := rfl
@[simp] theorem State.modNvme_cups (s : State) (f : Nvme → Nvme) : (s.modNvme f).cups = s.cups := rfl
@[simp] theorem State.modNvme_waiting (s : State) (f : Nvme → Nvme) : (s.modNvme f).waiting = s.waiting := rfl
@[simp] theorem State.modNvme_reads (s : State) (f : Nvme → Nvme) : (s.modNvme f).reads = s.reads := rfl
@[simp] theorem State.modNvme_cores (s : State) (f : Nvme → Nvme) : (s.modNvme f).cores = s.cores := rfl
@[simp] theorem State.modNvme_tiers (s : State) (f : Nvme → Nvme) : (s.modNvme f).tiers = s.tiers := rfl
@[simp] theorem State.modNvme_pots (s : State) (f : Nvme → Nvme) : (s.modNvme f).pots = s.pots := rfl
@[simp] theorem State.modNvme_nvme (s : State) (f : Nvme → Nvme) : (s.modNvme f).nvme = f s.nvme := rfl
@[simp] theorem State.modNvme_media (s : State) (f : Nvme → Nvme) : (s.modNvme f).media = s.media := rfl
@[simp] theorem State.modNvme_ports (s : State) (f : Nvme → Nvme) : (s.modNvme f).ports = s.ports := rfl
@[simp] theorem State.modNvme_sec (s : State) (f : Nvme → Nvme) : (s.modNvme f).sec = s.sec := rfl
@[simp] theorem State.modNvme_power (s : State) (f : Nvme → Nvme) : (s.modNvme f).power = s.power := rfl
@[simp] theorem State.modNvme_boot (s : State) (f : Nvme → Nvme) : (s.modNvme f).boot = s.boot := rfl
@[simp] theorem State.modNvme_obs (s : State) (f : Nvme → Nvme) : (s.modNvme f).obs = s.obs := rfl

-- modSec
@[simp] theorem State.modSec_pending (s : State) (f : Sec → Sec) : (s.modSec f).pending = s.pending := rfl
@[simp] theorem State.modSec_time (s : State) (f : Sec → Sec) : (s.modSec f).time = s.time := rfl
@[simp] theorem State.modSec_free (s : State) (f : Sec → Sec) : (s.modSec f).free = s.free := rfl
@[simp] theorem State.modSec_nextId (s : State) (f : Sec → Sec) : (s.modSec f).nextId = s.nextId := rfl
@[simp] theorem State.modSec_host (s : State) (f : Sec → Sec) : (s.modSec f).host = s.host := rfl
@[simp] theorem State.modSec_jobs (s : State) (f : Sec → Sec) : (s.modSec f).jobs = s.jobs := rfl
@[simp] theorem State.modSec_images (s : State) (f : Sec → Sec) : (s.modSec f).images = s.images := rfl
@[simp] theorem State.modSec_corpora (s : State) (f : Sec → Sec) : (s.modSec f).corpora = s.corpora := rfl
@[simp] theorem State.modSec_colls (s : State) (f : Sec → Sec) : (s.modSec f).colls = s.colls := rfl
@[simp] theorem State.modSec_tables (s : State) (f : Sec → Sec) : (s.modSec f).tables = s.tables := rfl
@[simp] theorem State.modSec_embed (s : State) (f : Sec → Sec) : (s.modSec f).embed = s.embed := rfl
@[simp] theorem State.modSec_strains (s : State) (f : Sec → Sec) : (s.modSec f).strains = s.strains := rfl
@[simp] theorem State.modSec_searches (s : State) (f : Sec → Sec) : (s.modSec f).searches = s.searches := rfl
@[simp] theorem State.modSec_cups (s : State) (f : Sec → Sec) : (s.modSec f).cups = s.cups := rfl
@[simp] theorem State.modSec_waiting (s : State) (f : Sec → Sec) : (s.modSec f).waiting = s.waiting := rfl
@[simp] theorem State.modSec_reads (s : State) (f : Sec → Sec) : (s.modSec f).reads = s.reads := rfl
@[simp] theorem State.modSec_cores (s : State) (f : Sec → Sec) : (s.modSec f).cores = s.cores := rfl
@[simp] theorem State.modSec_tiers (s : State) (f : Sec → Sec) : (s.modSec f).tiers = s.tiers := rfl
@[simp] theorem State.modSec_pots (s : State) (f : Sec → Sec) : (s.modSec f).pots = s.pots := rfl
@[simp] theorem State.modSec_nvme (s : State) (f : Sec → Sec) : (s.modSec f).nvme = s.nvme := rfl
@[simp] theorem State.modSec_media (s : State) (f : Sec → Sec) : (s.modSec f).media = s.media := rfl
@[simp] theorem State.modSec_ports (s : State) (f : Sec → Sec) : (s.modSec f).ports = s.ports := rfl
@[simp] theorem State.modSec_sec (s : State) (f : Sec → Sec) : (s.modSec f).sec = f s.sec := rfl
@[simp] theorem State.modSec_power (s : State) (f : Sec → Sec) : (s.modSec f).power = s.power := rfl
@[simp] theorem State.modSec_boot (s : State) (f : Sec → Sec) : (s.modSec f).boot = s.boot := rfl
@[simp] theorem State.modSec_obs (s : State) (f : Sec → Sec) : (s.modSec f).obs = s.obs := rfl

-- modPower
@[simp] theorem State.modPower_pending (s : State) (f : Power → Power) : (s.modPower f).pending = s.pending := rfl
@[simp] theorem State.modPower_time (s : State) (f : Power → Power) : (s.modPower f).time = s.time := rfl
@[simp] theorem State.modPower_free (s : State) (f : Power → Power) : (s.modPower f).free = s.free := rfl
@[simp] theorem State.modPower_nextId (s : State) (f : Power → Power) : (s.modPower f).nextId = s.nextId := rfl
@[simp] theorem State.modPower_host (s : State) (f : Power → Power) : (s.modPower f).host = s.host := rfl
@[simp] theorem State.modPower_jobs (s : State) (f : Power → Power) : (s.modPower f).jobs = s.jobs := rfl
@[simp] theorem State.modPower_images (s : State) (f : Power → Power) : (s.modPower f).images = s.images := rfl
@[simp] theorem State.modPower_corpora (s : State) (f : Power → Power) : (s.modPower f).corpora = s.corpora := rfl
@[simp] theorem State.modPower_colls (s : State) (f : Power → Power) : (s.modPower f).colls = s.colls := rfl
@[simp] theorem State.modPower_tables (s : State) (f : Power → Power) : (s.modPower f).tables = s.tables := rfl
@[simp] theorem State.modPower_embed (s : State) (f : Power → Power) : (s.modPower f).embed = s.embed := rfl
@[simp] theorem State.modPower_strains (s : State) (f : Power → Power) : (s.modPower f).strains = s.strains := rfl
@[simp] theorem State.modPower_searches (s : State) (f : Power → Power) : (s.modPower f).searches = s.searches := rfl
@[simp] theorem State.modPower_cups (s : State) (f : Power → Power) : (s.modPower f).cups = s.cups := rfl
@[simp] theorem State.modPower_waiting (s : State) (f : Power → Power) : (s.modPower f).waiting = s.waiting := rfl
@[simp] theorem State.modPower_reads (s : State) (f : Power → Power) : (s.modPower f).reads = s.reads := rfl
@[simp] theorem State.modPower_cores (s : State) (f : Power → Power) : (s.modPower f).cores = s.cores := rfl
@[simp] theorem State.modPower_tiers (s : State) (f : Power → Power) : (s.modPower f).tiers = s.tiers := rfl
@[simp] theorem State.modPower_pots (s : State) (f : Power → Power) : (s.modPower f).pots = s.pots := rfl
@[simp] theorem State.modPower_nvme (s : State) (f : Power → Power) : (s.modPower f).nvme = s.nvme := rfl
@[simp] theorem State.modPower_media (s : State) (f : Power → Power) : (s.modPower f).media = s.media := rfl
@[simp] theorem State.modPower_ports (s : State) (f : Power → Power) : (s.modPower f).ports = s.ports := rfl
@[simp] theorem State.modPower_sec (s : State) (f : Power → Power) : (s.modPower f).sec = s.sec := rfl
@[simp] theorem State.modPower_power (s : State) (f : Power → Power) : (s.modPower f).power = f s.power := rfl
@[simp] theorem State.modPower_boot (s : State) (f : Power → Power) : (s.modPower f).boot = s.boot := rfl
@[simp] theorem State.modPower_obs (s : State) (f : Power → Power) : (s.modPower f).obs = s.obs := rfl

-- modBoot
@[simp] theorem State.modBoot_pending (s : State) (f : Boot → Boot) : (s.modBoot f).pending = s.pending := rfl
@[simp] theorem State.modBoot_time (s : State) (f : Boot → Boot) : (s.modBoot f).time = s.time := rfl
@[simp] theorem State.modBoot_free (s : State) (f : Boot → Boot) : (s.modBoot f).free = s.free := rfl
@[simp] theorem State.modBoot_nextId (s : State) (f : Boot → Boot) : (s.modBoot f).nextId = s.nextId := rfl
@[simp] theorem State.modBoot_host (s : State) (f : Boot → Boot) : (s.modBoot f).host = s.host := rfl
@[simp] theorem State.modBoot_jobs (s : State) (f : Boot → Boot) : (s.modBoot f).jobs = s.jobs := rfl
@[simp] theorem State.modBoot_images (s : State) (f : Boot → Boot) : (s.modBoot f).images = s.images := rfl
@[simp] theorem State.modBoot_corpora (s : State) (f : Boot → Boot) : (s.modBoot f).corpora = s.corpora := rfl
@[simp] theorem State.modBoot_colls (s : State) (f : Boot → Boot) : (s.modBoot f).colls = s.colls := rfl
@[simp] theorem State.modBoot_tables (s : State) (f : Boot → Boot) : (s.modBoot f).tables = s.tables := rfl
@[simp] theorem State.modBoot_embed (s : State) (f : Boot → Boot) : (s.modBoot f).embed = s.embed := rfl
@[simp] theorem State.modBoot_strains (s : State) (f : Boot → Boot) : (s.modBoot f).strains = s.strains := rfl
@[simp] theorem State.modBoot_searches (s : State) (f : Boot → Boot) : (s.modBoot f).searches = s.searches := rfl
@[simp] theorem State.modBoot_cups (s : State) (f : Boot → Boot) : (s.modBoot f).cups = s.cups := rfl
@[simp] theorem State.modBoot_waiting (s : State) (f : Boot → Boot) : (s.modBoot f).waiting = s.waiting := rfl
@[simp] theorem State.modBoot_reads (s : State) (f : Boot → Boot) : (s.modBoot f).reads = s.reads := rfl
@[simp] theorem State.modBoot_cores (s : State) (f : Boot → Boot) : (s.modBoot f).cores = s.cores := rfl
@[simp] theorem State.modBoot_tiers (s : State) (f : Boot → Boot) : (s.modBoot f).tiers = s.tiers := rfl
@[simp] theorem State.modBoot_pots (s : State) (f : Boot → Boot) : (s.modBoot f).pots = s.pots := rfl
@[simp] theorem State.modBoot_nvme (s : State) (f : Boot → Boot) : (s.modBoot f).nvme = s.nvme := rfl
@[simp] theorem State.modBoot_media (s : State) (f : Boot → Boot) : (s.modBoot f).media = s.media := rfl
@[simp] theorem State.modBoot_ports (s : State) (f : Boot → Boot) : (s.modBoot f).ports = s.ports := rfl
@[simp] theorem State.modBoot_sec (s : State) (f : Boot → Boot) : (s.modBoot f).sec = s.sec := rfl
@[simp] theorem State.modBoot_power (s : State) (f : Boot → Boot) : (s.modBoot f).power = s.power := rfl
@[simp] theorem State.modBoot_boot (s : State) (f : Boot → Boot) : (s.modBoot f).boot = f s.boot := rfl
@[simp] theorem State.modBoot_obs (s : State) (f : Boot → Boot) : (s.modBoot f).obs = s.obs := rfl

-- modTiers
@[simp] theorem State.modTiers_pending (s : State) (f : Tiers → Tiers) : (s.modTiers f).pending = s.pending := rfl
@[simp] theorem State.modTiers_time (s : State) (f : Tiers → Tiers) : (s.modTiers f).time = s.time := rfl
@[simp] theorem State.modTiers_free (s : State) (f : Tiers → Tiers) : (s.modTiers f).free = s.free := rfl
@[simp] theorem State.modTiers_nextId (s : State) (f : Tiers → Tiers) : (s.modTiers f).nextId = s.nextId := rfl
@[simp] theorem State.modTiers_host (s : State) (f : Tiers → Tiers) : (s.modTiers f).host = s.host := rfl
@[simp] theorem State.modTiers_jobs (s : State) (f : Tiers → Tiers) : (s.modTiers f).jobs = s.jobs := rfl
@[simp] theorem State.modTiers_images (s : State) (f : Tiers → Tiers) : (s.modTiers f).images = s.images := rfl
@[simp] theorem State.modTiers_corpora (s : State) (f : Tiers → Tiers) : (s.modTiers f).corpora = s.corpora := rfl
@[simp] theorem State.modTiers_colls (s : State) (f : Tiers → Tiers) : (s.modTiers f).colls = s.colls := rfl
@[simp] theorem State.modTiers_tables (s : State) (f : Tiers → Tiers) : (s.modTiers f).tables = s.tables := rfl
@[simp] theorem State.modTiers_embed (s : State) (f : Tiers → Tiers) : (s.modTiers f).embed = s.embed := rfl
@[simp] theorem State.modTiers_strains (s : State) (f : Tiers → Tiers) : (s.modTiers f).strains = s.strains := rfl
@[simp] theorem State.modTiers_searches (s : State) (f : Tiers → Tiers) : (s.modTiers f).searches = s.searches := rfl
@[simp] theorem State.modTiers_cups (s : State) (f : Tiers → Tiers) : (s.modTiers f).cups = s.cups := rfl
@[simp] theorem State.modTiers_waiting (s : State) (f : Tiers → Tiers) : (s.modTiers f).waiting = s.waiting := rfl
@[simp] theorem State.modTiers_reads (s : State) (f : Tiers → Tiers) : (s.modTiers f).reads = s.reads := rfl
@[simp] theorem State.modTiers_cores (s : State) (f : Tiers → Tiers) : (s.modTiers f).cores = s.cores := rfl
@[simp] theorem State.modTiers_tiers (s : State) (f : Tiers → Tiers) : (s.modTiers f).tiers = f s.tiers := rfl
@[simp] theorem State.modTiers_pots (s : State) (f : Tiers → Tiers) : (s.modTiers f).pots = s.pots := rfl
@[simp] theorem State.modTiers_nvme (s : State) (f : Tiers → Tiers) : (s.modTiers f).nvme = s.nvme := rfl
@[simp] theorem State.modTiers_media (s : State) (f : Tiers → Tiers) : (s.modTiers f).media = s.media := rfl
@[simp] theorem State.modTiers_ports (s : State) (f : Tiers → Tiers) : (s.modTiers f).ports = s.ports := rfl
@[simp] theorem State.modTiers_sec (s : State) (f : Tiers → Tiers) : (s.modTiers f).sec = s.sec := rfl
@[simp] theorem State.modTiers_power (s : State) (f : Tiers → Tiers) : (s.modTiers f).power = s.power := rfl
@[simp] theorem State.modTiers_boot (s : State) (f : Tiers → Tiers) : (s.modTiers f).boot = s.boot := rfl
@[simp] theorem State.modTiers_obs (s : State) (f : Tiers → Tiers) : (s.modTiers f).obs = s.obs := rfl

-- modEmbed
@[simp] theorem State.modEmbed_pending (s : State) (f : Embed → Embed) : (s.modEmbed f).pending = s.pending := rfl
@[simp] theorem State.modEmbed_time (s : State) (f : Embed → Embed) : (s.modEmbed f).time = s.time := rfl
@[simp] theorem State.modEmbed_free (s : State) (f : Embed → Embed) : (s.modEmbed f).free = s.free := rfl
@[simp] theorem State.modEmbed_nextId (s : State) (f : Embed → Embed) : (s.modEmbed f).nextId = s.nextId := rfl
@[simp] theorem State.modEmbed_host (s : State) (f : Embed → Embed) : (s.modEmbed f).host = s.host := rfl
@[simp] theorem State.modEmbed_jobs (s : State) (f : Embed → Embed) : (s.modEmbed f).jobs = s.jobs := rfl
@[simp] theorem State.modEmbed_images (s : State) (f : Embed → Embed) : (s.modEmbed f).images = s.images := rfl
@[simp] theorem State.modEmbed_corpora (s : State) (f : Embed → Embed) : (s.modEmbed f).corpora = s.corpora := rfl
@[simp] theorem State.modEmbed_colls (s : State) (f : Embed → Embed) : (s.modEmbed f).colls = s.colls := rfl
@[simp] theorem State.modEmbed_tables (s : State) (f : Embed → Embed) : (s.modEmbed f).tables = s.tables := rfl
@[simp] theorem State.modEmbed_embed (s : State) (f : Embed → Embed) : (s.modEmbed f).embed = f s.embed := rfl
@[simp] theorem State.modEmbed_strains (s : State) (f : Embed → Embed) : (s.modEmbed f).strains = s.strains := rfl
@[simp] theorem State.modEmbed_searches (s : State) (f : Embed → Embed) : (s.modEmbed f).searches = s.searches := rfl
@[simp] theorem State.modEmbed_cups (s : State) (f : Embed → Embed) : (s.modEmbed f).cups = s.cups := rfl
@[simp] theorem State.modEmbed_waiting (s : State) (f : Embed → Embed) : (s.modEmbed f).waiting = s.waiting := rfl
@[simp] theorem State.modEmbed_reads (s : State) (f : Embed → Embed) : (s.modEmbed f).reads = s.reads := rfl
@[simp] theorem State.modEmbed_cores (s : State) (f : Embed → Embed) : (s.modEmbed f).cores = s.cores := rfl
@[simp] theorem State.modEmbed_tiers (s : State) (f : Embed → Embed) : (s.modEmbed f).tiers = s.tiers := rfl
@[simp] theorem State.modEmbed_pots (s : State) (f : Embed → Embed) : (s.modEmbed f).pots = s.pots := rfl
@[simp] theorem State.modEmbed_nvme (s : State) (f : Embed → Embed) : (s.modEmbed f).nvme = s.nvme := rfl
@[simp] theorem State.modEmbed_media (s : State) (f : Embed → Embed) : (s.modEmbed f).media = s.media := rfl
@[simp] theorem State.modEmbed_ports (s : State) (f : Embed → Embed) : (s.modEmbed f).ports = s.ports := rfl
@[simp] theorem State.modEmbed_sec (s : State) (f : Embed → Embed) : (s.modEmbed f).sec = s.sec := rfl
@[simp] theorem State.modEmbed_power (s : State) (f : Embed → Embed) : (s.modEmbed f).power = s.power := rfl
@[simp] theorem State.modEmbed_boot (s : State) (f : Embed → Embed) : (s.modEmbed f).boot = s.boot := rfl
@[simp] theorem State.modEmbed_obs (s : State) (f : Embed → Embed) : (s.modEmbed f).obs = s.obs := rfl

-- modJob
@[simp] theorem State.modJob_pending (s : State) (key : Nat) (f : Job → Job) : (s.modJob key f).pending = s.pending := rfl
@[simp] theorem State.modJob_time (s : State) (key : Nat) (f : Job → Job) : (s.modJob key f).time = s.time := rfl
@[simp] theorem State.modJob_free (s : State) (key : Nat) (f : Job → Job) : (s.modJob key f).free = s.free := rfl
@[simp] theorem State.modJob_nextId (s : State) (key : Nat) (f : Job → Job) : (s.modJob key f).nextId = s.nextId := rfl
@[simp] theorem State.modJob_host (s : State) (key : Nat) (f : Job → Job) : (s.modJob key f).host = s.host := rfl
@[simp] theorem State.modJob_jobs (s : State) (key : Nat) (f : Job → Job) : (s.modJob key f).jobs = s.jobs.map fun j => if j.key == key then f j else j := rfl
@[simp] theorem State.modJob_images (s : State) (key : Nat) (f : Job → Job) : (s.modJob key f).images = s.images := rfl
@[simp] theorem State.modJob_corpora (s : State) (key : Nat) (f : Job → Job) : (s.modJob key f).corpora = s.corpora := rfl
@[simp] theorem State.modJob_colls (s : State) (key : Nat) (f : Job → Job) : (s.modJob key f).colls = s.colls := rfl
@[simp] theorem State.modJob_tables (s : State) (key : Nat) (f : Job → Job) : (s.modJob key f).tables = s.tables := rfl
@[simp] theorem State.modJob_embed (s : State) (key : Nat) (f : Job → Job) : (s.modJob key f).embed = s.embed := rfl
@[simp] theorem State.modJob_strains (s : State) (key : Nat) (f : Job → Job) : (s.modJob key f).strains = s.strains := rfl
@[simp] theorem State.modJob_searches (s : State) (key : Nat) (f : Job → Job) : (s.modJob key f).searches = s.searches := rfl
@[simp] theorem State.modJob_cups (s : State) (key : Nat) (f : Job → Job) : (s.modJob key f).cups = s.cups := rfl
@[simp] theorem State.modJob_waiting (s : State) (key : Nat) (f : Job → Job) : (s.modJob key f).waiting = s.waiting := rfl
@[simp] theorem State.modJob_reads (s : State) (key : Nat) (f : Job → Job) : (s.modJob key f).reads = s.reads := rfl
@[simp] theorem State.modJob_cores (s : State) (key : Nat) (f : Job → Job) : (s.modJob key f).cores = s.cores := rfl
@[simp] theorem State.modJob_tiers (s : State) (key : Nat) (f : Job → Job) : (s.modJob key f).tiers = s.tiers := rfl
@[simp] theorem State.modJob_pots (s : State) (key : Nat) (f : Job → Job) : (s.modJob key f).pots = s.pots := rfl
@[simp] theorem State.modJob_nvme (s : State) (key : Nat) (f : Job → Job) : (s.modJob key f).nvme = s.nvme := rfl
@[simp] theorem State.modJob_media (s : State) (key : Nat) (f : Job → Job) : (s.modJob key f).media = s.media := rfl
@[simp] theorem State.modJob_ports (s : State) (key : Nat) (f : Job → Job) : (s.modJob key f).ports = s.ports := rfl
@[simp] theorem State.modJob_sec (s : State) (key : Nat) (f : Job → Job) : (s.modJob key f).sec = s.sec := rfl
@[simp] theorem State.modJob_power (s : State) (key : Nat) (f : Job → Job) : (s.modJob key f).power = s.power := rfl
@[simp] theorem State.modJob_boot (s : State) (key : Nat) (f : Job → Job) : (s.modJob key f).boot = s.boot := rfl
@[simp] theorem State.modJob_obs (s : State) (key : Nat) (f : Job → Job) : (s.modJob key f).obs = s.obs := rfl

-- modColl
@[simp] theorem State.modColl_pending (s : State) (id : Nat) (f : Coll → Coll) : (s.modColl id f).pending = s.pending := rfl
@[simp] theorem State.modColl_time (s : State) (id : Nat) (f : Coll → Coll) : (s.modColl id f).time = s.time := rfl
@[simp] theorem State.modColl_free (s : State) (id : Nat) (f : Coll → Coll) : (s.modColl id f).free = s.free := rfl
@[simp] theorem State.modColl_nextId (s : State) (id : Nat) (f : Coll → Coll) : (s.modColl id f).nextId = s.nextId := rfl
@[simp] theorem State.modColl_host (s : State) (id : Nat) (f : Coll → Coll) : (s.modColl id f).host = s.host := rfl
@[simp] theorem State.modColl_jobs (s : State) (id : Nat) (f : Coll → Coll) : (s.modColl id f).jobs = s.jobs := rfl
@[simp] theorem State.modColl_images (s : State) (id : Nat) (f : Coll → Coll) : (s.modColl id f).images = s.images := rfl
@[simp] theorem State.modColl_corpora (s : State) (id : Nat) (f : Coll → Coll) : (s.modColl id f).corpora = s.corpora := rfl
@[simp] theorem State.modColl_colls (s : State) (id : Nat) (f : Coll → Coll) : (s.modColl id f).colls = s.colls.map fun c => if c.id == id then f c else c := rfl
@[simp] theorem State.modColl_tables (s : State) (id : Nat) (f : Coll → Coll) : (s.modColl id f).tables = s.tables := rfl
@[simp] theorem State.modColl_embed (s : State) (id : Nat) (f : Coll → Coll) : (s.modColl id f).embed = s.embed := rfl
@[simp] theorem State.modColl_strains (s : State) (id : Nat) (f : Coll → Coll) : (s.modColl id f).strains = s.strains := rfl
@[simp] theorem State.modColl_searches (s : State) (id : Nat) (f : Coll → Coll) : (s.modColl id f).searches = s.searches := rfl
@[simp] theorem State.modColl_cups (s : State) (id : Nat) (f : Coll → Coll) : (s.modColl id f).cups = s.cups := rfl
@[simp] theorem State.modColl_waiting (s : State) (id : Nat) (f : Coll → Coll) : (s.modColl id f).waiting = s.waiting := rfl
@[simp] theorem State.modColl_reads (s : State) (id : Nat) (f : Coll → Coll) : (s.modColl id f).reads = s.reads := rfl
@[simp] theorem State.modColl_cores (s : State) (id : Nat) (f : Coll → Coll) : (s.modColl id f).cores = s.cores := rfl
@[simp] theorem State.modColl_tiers (s : State) (id : Nat) (f : Coll → Coll) : (s.modColl id f).tiers = s.tiers := rfl
@[simp] theorem State.modColl_pots (s : State) (id : Nat) (f : Coll → Coll) : (s.modColl id f).pots = s.pots := rfl
@[simp] theorem State.modColl_nvme (s : State) (id : Nat) (f : Coll → Coll) : (s.modColl id f).nvme = s.nvme := rfl
@[simp] theorem State.modColl_media (s : State) (id : Nat) (f : Coll → Coll) : (s.modColl id f).media = s.media := rfl
@[simp] theorem State.modColl_ports (s : State) (id : Nat) (f : Coll → Coll) : (s.modColl id f).ports = s.ports := rfl
@[simp] theorem State.modColl_sec (s : State) (id : Nat) (f : Coll → Coll) : (s.modColl id f).sec = s.sec := rfl
@[simp] theorem State.modColl_power (s : State) (id : Nat) (f : Coll → Coll) : (s.modColl id f).power = s.power := rfl
@[simp] theorem State.modColl_boot (s : State) (id : Nat) (f : Coll → Coll) : (s.modColl id f).boot = s.boot := rfl
@[simp] theorem State.modColl_obs (s : State) (id : Nat) (f : Coll → Coll) : (s.modColl id f).obs = s.obs := rfl

-- modCorpus
@[simp] theorem State.modCorpus_pending (s : State) (id : Nat) (f : Corpus → Corpus) : (s.modCorpus id f).pending = s.pending := rfl
@[simp] theorem State.modCorpus_time (s : State) (id : Nat) (f : Corpus → Corpus) : (s.modCorpus id f).time = s.time := rfl
@[simp] theorem State.modCorpus_free (s : State) (id : Nat) (f : Corpus → Corpus) : (s.modCorpus id f).free = s.free := rfl
@[simp] theorem State.modCorpus_nextId (s : State) (id : Nat) (f : Corpus → Corpus) : (s.modCorpus id f).nextId = s.nextId := rfl
@[simp] theorem State.modCorpus_host (s : State) (id : Nat) (f : Corpus → Corpus) : (s.modCorpus id f).host = s.host := rfl
@[simp] theorem State.modCorpus_jobs (s : State) (id : Nat) (f : Corpus → Corpus) : (s.modCorpus id f).jobs = s.jobs := rfl
@[simp] theorem State.modCorpus_images (s : State) (id : Nat) (f : Corpus → Corpus) : (s.modCorpus id f).images = s.images := rfl
@[simp] theorem State.modCorpus_corpora (s : State) (id : Nat) (f : Corpus → Corpus) : (s.modCorpus id f).corpora = s.corpora.map fun c => if c.id == id then f c else c := rfl
@[simp] theorem State.modCorpus_colls (s : State) (id : Nat) (f : Corpus → Corpus) : (s.modCorpus id f).colls = s.colls := rfl
@[simp] theorem State.modCorpus_tables (s : State) (id : Nat) (f : Corpus → Corpus) : (s.modCorpus id f).tables = s.tables := rfl
@[simp] theorem State.modCorpus_embed (s : State) (id : Nat) (f : Corpus → Corpus) : (s.modCorpus id f).embed = s.embed := rfl
@[simp] theorem State.modCorpus_strains (s : State) (id : Nat) (f : Corpus → Corpus) : (s.modCorpus id f).strains = s.strains := rfl
@[simp] theorem State.modCorpus_searches (s : State) (id : Nat) (f : Corpus → Corpus) : (s.modCorpus id f).searches = s.searches := rfl
@[simp] theorem State.modCorpus_cups (s : State) (id : Nat) (f : Corpus → Corpus) : (s.modCorpus id f).cups = s.cups := rfl
@[simp] theorem State.modCorpus_waiting (s : State) (id : Nat) (f : Corpus → Corpus) : (s.modCorpus id f).waiting = s.waiting := rfl
@[simp] theorem State.modCorpus_reads (s : State) (id : Nat) (f : Corpus → Corpus) : (s.modCorpus id f).reads = s.reads := rfl
@[simp] theorem State.modCorpus_cores (s : State) (id : Nat) (f : Corpus → Corpus) : (s.modCorpus id f).cores = s.cores := rfl
@[simp] theorem State.modCorpus_tiers (s : State) (id : Nat) (f : Corpus → Corpus) : (s.modCorpus id f).tiers = s.tiers := rfl
@[simp] theorem State.modCorpus_pots (s : State) (id : Nat) (f : Corpus → Corpus) : (s.modCorpus id f).pots = s.pots := rfl
@[simp] theorem State.modCorpus_nvme (s : State) (id : Nat) (f : Corpus → Corpus) : (s.modCorpus id f).nvme = s.nvme := rfl
@[simp] theorem State.modCorpus_media (s : State) (id : Nat) (f : Corpus → Corpus) : (s.modCorpus id f).media = s.media := rfl
@[simp] theorem State.modCorpus_ports (s : State) (id : Nat) (f : Corpus → Corpus) : (s.modCorpus id f).ports = s.ports := rfl
@[simp] theorem State.modCorpus_sec (s : State) (id : Nat) (f : Corpus → Corpus) : (s.modCorpus id f).sec = s.sec := rfl
@[simp] theorem State.modCorpus_power (s : State) (id : Nat) (f : Corpus → Corpus) : (s.modCorpus id f).power = s.power := rfl
@[simp] theorem State.modCorpus_boot (s : State) (id : Nat) (f : Corpus → Corpus) : (s.modCorpus id f).boot = s.boot := rfl
@[simp] theorem State.modCorpus_obs (s : State) (id : Nat) (f : Corpus → Corpus) : (s.modCorpus id f).obs = s.obs := rfl

-- modCup
@[simp] theorem State.modCup_pending (s : State) (idx : Nat) (f : Cup → Cup) : (s.modCup idx f).pending = s.pending := rfl
@[simp] theorem State.modCup_time (s : State) (idx : Nat) (f : Cup → Cup) : (s.modCup idx f).time = s.time := rfl
@[simp] theorem State.modCup_free (s : State) (idx : Nat) (f : Cup → Cup) : (s.modCup idx f).free = s.free := rfl
@[simp] theorem State.modCup_nextId (s : State) (idx : Nat) (f : Cup → Cup) : (s.modCup idx f).nextId = s.nextId := rfl
@[simp] theorem State.modCup_host (s : State) (idx : Nat) (f : Cup → Cup) : (s.modCup idx f).host = s.host := rfl
@[simp] theorem State.modCup_jobs (s : State) (idx : Nat) (f : Cup → Cup) : (s.modCup idx f).jobs = s.jobs := rfl
@[simp] theorem State.modCup_images (s : State) (idx : Nat) (f : Cup → Cup) : (s.modCup idx f).images = s.images := rfl
@[simp] theorem State.modCup_corpora (s : State) (idx : Nat) (f : Cup → Cup) : (s.modCup idx f).corpora = s.corpora := rfl
@[simp] theorem State.modCup_colls (s : State) (idx : Nat) (f : Cup → Cup) : (s.modCup idx f).colls = s.colls := rfl
@[simp] theorem State.modCup_tables (s : State) (idx : Nat) (f : Cup → Cup) : (s.modCup idx f).tables = s.tables := rfl
@[simp] theorem State.modCup_embed (s : State) (idx : Nat) (f : Cup → Cup) : (s.modCup idx f).embed = s.embed := rfl
@[simp] theorem State.modCup_strains (s : State) (idx : Nat) (f : Cup → Cup) : (s.modCup idx f).strains = s.strains := rfl
@[simp] theorem State.modCup_searches (s : State) (idx : Nat) (f : Cup → Cup) : (s.modCup idx f).searches = s.searches := rfl
@[simp] theorem State.modCup_cups (s : State) (idx : Nat) (f : Cup → Cup) : (s.modCup idx f).cups = s.cups.map fun c => if c.idx == idx then f c else c := rfl
@[simp] theorem State.modCup_waiting (s : State) (idx : Nat) (f : Cup → Cup) : (s.modCup idx f).waiting = s.waiting := rfl
@[simp] theorem State.modCup_reads (s : State) (idx : Nat) (f : Cup → Cup) : (s.modCup idx f).reads = s.reads := rfl
@[simp] theorem State.modCup_cores (s : State) (idx : Nat) (f : Cup → Cup) : (s.modCup idx f).cores = s.cores := rfl
@[simp] theorem State.modCup_tiers (s : State) (idx : Nat) (f : Cup → Cup) : (s.modCup idx f).tiers = s.tiers := rfl
@[simp] theorem State.modCup_pots (s : State) (idx : Nat) (f : Cup → Cup) : (s.modCup idx f).pots = s.pots := rfl
@[simp] theorem State.modCup_nvme (s : State) (idx : Nat) (f : Cup → Cup) : (s.modCup idx f).nvme = s.nvme := rfl
@[simp] theorem State.modCup_media (s : State) (idx : Nat) (f : Cup → Cup) : (s.modCup idx f).media = s.media := rfl
@[simp] theorem State.modCup_ports (s : State) (idx : Nat) (f : Cup → Cup) : (s.modCup idx f).ports = s.ports := rfl
@[simp] theorem State.modCup_sec (s : State) (idx : Nat) (f : Cup → Cup) : (s.modCup idx f).sec = s.sec := rfl
@[simp] theorem State.modCup_power (s : State) (idx : Nat) (f : Cup → Cup) : (s.modCup idx f).power = s.power := rfl
@[simp] theorem State.modCup_boot (s : State) (idx : Nat) (f : Cup → Cup) : (s.modCup idx f).boot = s.boot := rfl
@[simp] theorem State.modCup_obs (s : State) (idx : Nat) (f : Cup → Cup) : (s.modCup idx f).obs = s.obs := rfl

-- modRead
@[simp] theorem State.modRead_pending (s : State) (key : Nat) (f : LeafRead → LeafRead) : (s.modRead key f).pending = s.pending := rfl
@[simp] theorem State.modRead_time (s : State) (key : Nat) (f : LeafRead → LeafRead) : (s.modRead key f).time = s.time := rfl
@[simp] theorem State.modRead_free (s : State) (key : Nat) (f : LeafRead → LeafRead) : (s.modRead key f).free = s.free := rfl
@[simp] theorem State.modRead_nextId (s : State) (key : Nat) (f : LeafRead → LeafRead) : (s.modRead key f).nextId = s.nextId := rfl
@[simp] theorem State.modRead_host (s : State) (key : Nat) (f : LeafRead → LeafRead) : (s.modRead key f).host = s.host := rfl
@[simp] theorem State.modRead_jobs (s : State) (key : Nat) (f : LeafRead → LeafRead) : (s.modRead key f).jobs = s.jobs := rfl
@[simp] theorem State.modRead_images (s : State) (key : Nat) (f : LeafRead → LeafRead) : (s.modRead key f).images = s.images := rfl
@[simp] theorem State.modRead_corpora (s : State) (key : Nat) (f : LeafRead → LeafRead) : (s.modRead key f).corpora = s.corpora := rfl
@[simp] theorem State.modRead_colls (s : State) (key : Nat) (f : LeafRead → LeafRead) : (s.modRead key f).colls = s.colls := rfl
@[simp] theorem State.modRead_tables (s : State) (key : Nat) (f : LeafRead → LeafRead) : (s.modRead key f).tables = s.tables := rfl
@[simp] theorem State.modRead_embed (s : State) (key : Nat) (f : LeafRead → LeafRead) : (s.modRead key f).embed = s.embed := rfl
@[simp] theorem State.modRead_strains (s : State) (key : Nat) (f : LeafRead → LeafRead) : (s.modRead key f).strains = s.strains := rfl
@[simp] theorem State.modRead_searches (s : State) (key : Nat) (f : LeafRead → LeafRead) : (s.modRead key f).searches = s.searches := rfl
@[simp] theorem State.modRead_cups (s : State) (key : Nat) (f : LeafRead → LeafRead) : (s.modRead key f).cups = s.cups := rfl
@[simp] theorem State.modRead_waiting (s : State) (key : Nat) (f : LeafRead → LeafRead) : (s.modRead key f).waiting = s.waiting := rfl
@[simp] theorem State.modRead_reads (s : State) (key : Nat) (f : LeafRead → LeafRead) : (s.modRead key f).reads = s.reads.map fun r => if r.key == key then f r else r := rfl
@[simp] theorem State.modRead_cores (s : State) (key : Nat) (f : LeafRead → LeafRead) : (s.modRead key f).cores = s.cores := rfl
@[simp] theorem State.modRead_tiers (s : State) (key : Nat) (f : LeafRead → LeafRead) : (s.modRead key f).tiers = s.tiers := rfl
@[simp] theorem State.modRead_pots (s : State) (key : Nat) (f : LeafRead → LeafRead) : (s.modRead key f).pots = s.pots := rfl
@[simp] theorem State.modRead_nvme (s : State) (key : Nat) (f : LeafRead → LeafRead) : (s.modRead key f).nvme = s.nvme := rfl
@[simp] theorem State.modRead_media (s : State) (key : Nat) (f : LeafRead → LeafRead) : (s.modRead key f).media = s.media := rfl
@[simp] theorem State.modRead_ports (s : State) (key : Nat) (f : LeafRead → LeafRead) : (s.modRead key f).ports = s.ports := rfl
@[simp] theorem State.modRead_sec (s : State) (key : Nat) (f : LeafRead → LeafRead) : (s.modRead key f).sec = s.sec := rfl
@[simp] theorem State.modRead_power (s : State) (key : Nat) (f : LeafRead → LeafRead) : (s.modRead key f).power = s.power := rfl
@[simp] theorem State.modRead_boot (s : State) (key : Nat) (f : LeafRead → LeafRead) : (s.modRead key f).boot = s.boot := rfl
@[simp] theorem State.modRead_obs (s : State) (key : Nat) (f : LeafRead → LeafRead) : (s.modRead key f).obs = s.obs := rfl

-- modTable
@[simp] theorem State.modTable_pending (s : State) (id : Nat) (f : Table → Table) : (s.modTable id f).pending = s.pending := rfl
@[simp] theorem State.modTable_time (s : State) (id : Nat) (f : Table → Table) : (s.modTable id f).time = s.time := rfl
@[simp] theorem State.modTable_free (s : State) (id : Nat) (f : Table → Table) : (s.modTable id f).free = s.free := rfl
@[simp] theorem State.modTable_nextId (s : State) (id : Nat) (f : Table → Table) : (s.modTable id f).nextId = s.nextId := rfl
@[simp] theorem State.modTable_host (s : State) (id : Nat) (f : Table → Table) : (s.modTable id f).host = s.host := rfl
@[simp] theorem State.modTable_jobs (s : State) (id : Nat) (f : Table → Table) : (s.modTable id f).jobs = s.jobs := rfl
@[simp] theorem State.modTable_images (s : State) (id : Nat) (f : Table → Table) : (s.modTable id f).images = s.images := rfl
@[simp] theorem State.modTable_corpora (s : State) (id : Nat) (f : Table → Table) : (s.modTable id f).corpora = s.corpora := rfl
@[simp] theorem State.modTable_colls (s : State) (id : Nat) (f : Table → Table) : (s.modTable id f).colls = s.colls := rfl
@[simp] theorem State.modTable_tables (s : State) (id : Nat) (f : Table → Table) : (s.modTable id f).tables = s.tables.map fun t => if t.id == id then f t else t := rfl
@[simp] theorem State.modTable_embed (s : State) (id : Nat) (f : Table → Table) : (s.modTable id f).embed = s.embed := rfl
@[simp] theorem State.modTable_strains (s : State) (id : Nat) (f : Table → Table) : (s.modTable id f).strains = s.strains := rfl
@[simp] theorem State.modTable_searches (s : State) (id : Nat) (f : Table → Table) : (s.modTable id f).searches = s.searches := rfl
@[simp] theorem State.modTable_cups (s : State) (id : Nat) (f : Table → Table) : (s.modTable id f).cups = s.cups := rfl
@[simp] theorem State.modTable_waiting (s : State) (id : Nat) (f : Table → Table) : (s.modTable id f).waiting = s.waiting := rfl
@[simp] theorem State.modTable_reads (s : State) (id : Nat) (f : Table → Table) : (s.modTable id f).reads = s.reads := rfl
@[simp] theorem State.modTable_cores (s : State) (id : Nat) (f : Table → Table) : (s.modTable id f).cores = s.cores := rfl
@[simp] theorem State.modTable_tiers (s : State) (id : Nat) (f : Table → Table) : (s.modTable id f).tiers = s.tiers := rfl
@[simp] theorem State.modTable_pots (s : State) (id : Nat) (f : Table → Table) : (s.modTable id f).pots = s.pots := rfl
@[simp] theorem State.modTable_nvme (s : State) (id : Nat) (f : Table → Table) : (s.modTable id f).nvme = s.nvme := rfl
@[simp] theorem State.modTable_media (s : State) (id : Nat) (f : Table → Table) : (s.modTable id f).media = s.media := rfl
@[simp] theorem State.modTable_ports (s : State) (id : Nat) (f : Table → Table) : (s.modTable id f).ports = s.ports := rfl
@[simp] theorem State.modTable_sec (s : State) (id : Nat) (f : Table → Table) : (s.modTable id f).sec = s.sec := rfl
@[simp] theorem State.modTable_power (s : State) (id : Nat) (f : Table → Table) : (s.modTable id f).power = s.power := rfl
@[simp] theorem State.modTable_boot (s : State) (id : Nat) (f : Table → Table) : (s.modTable id f).boot = s.boot := rfl
@[simp] theorem State.modTable_obs (s : State) (id : Nat) (f : Table → Table) : (s.modTable id f).obs = s.obs := rfl

end Sys2Proof.Machine
end

