-- ==== Sys2Proof/WellFormed.lean ====
section
/-! DEFINITION. Which operand values the manual's fields can carry: the widths and sizes of the registers, commands,
packets and pages that bring each command to the block. Job keys, read numbers and the like are the model's own names and
have no width. `exec` is total on every term; a term outside these bounds is one that no interface can send. -/

namespace Sys2Proof

/-- A number fits a field of `n` bits. -/
def fits (n v : Nat) : Bool := decide (v < 2 ^ n)

/-- An access that reaches a register carries 1 to 8 bytes (R421 says which sizes take effect). -/
def accessSize (n : Nat) : Bool := decide (1 ≤ n) && decide (n ≤ 8)

/-- NVMe queue identifier, command identifier and namespace identifier (R276). -/
def NvCmd.ok (c : NvCmd) : Bool := fits 16 c.sqid && fits 16 c.cid && fits 32 c.nsid

/-- PRP addresses are 64 bits, and each names a 4,096-byte unit of host memory (R277). -/
def Prp.ok (p : Prp) : Bool := p.all fun a => fits 64 a

/-- A block range of an NVMe command (R276). -/
def blocksOk (slba nlb : Nat) : Bool := fits 64 slba && fits 32 nlb

/-- The widths of Table 16.3. -/
def Manifest.ok (m : Manifest) : Bool :=
  fits 16 m.keyIndex && fits 32 m.svn && fits 32 m.version && fits 16 m.revoke && fits 256 m.digest && fits 256 m.seDigest &&
  fits 256 m.oeDigest && fits 64 m.length

/-- A signature of an AUTHORISE message: role, key index and key digest (R380). -/
def AuthSig.ok (g : AuthSig) : Bool := fits 8 g.role && fits 8 g.keyIndex && fits 256 g.keyDigest

/-- An AUTHORISE message (R380). -/
def Authorise.ok (a : Authorise) : Bool := a.sigs.all AuthSig.ok

/-- An identity record (R320). -/
def CaddyIdent.ok (c : CaddyIdent) : Bool := fits 16 c.compat && fits 64 c.serial && fits 16 c.rated

/-- Caddy metadata (R321, R322, R325). -/
def CaddyMeta.ok (c : CaddyMeta) : Bool :=
  fits 8 c.wearUsed && fits 8 c.spareLeft && c.counters.all (fits 64) && decide (c.counters.length ≤ 8) &&
  (match c.membership with | some (d, b, e) => fits 64 d && decide (b < 8) && fits 64 e | none => true)

/-- The widths of Table 14.4. -/
def PktHdr.ok (h : PktHdr) : Bool :=
  fits 3 h.src && fits 3 h.dst && fits 32 h.groupId && fits 32 h.jobId && fits 16 h.layer && fits 16 h.oper && fits 16 h.xfer &&
  fits 8 h.status && fits 2 h.tc && fits 8 h.lfmt && fits 64 h.arg

/-- The widths of Table 14.7. -/
def XferDesc.ok (d : XferDesc) : Bool :=
  fits 8 d.kind && fits 32 d.object && fits 64 d.total && fits 64 d.target && fits 8 d.ordinal && fits 16 d.notifyCount

/-- The fields of HELLO (R336). -/
def HelloPkt.ok (h : HelloPkt) : Bool := h.hdr.ok && fits 32 h.groupId && fits 3 h.own && fits 3 h.expects && fits 8 h.fwMajor && fits 64 h.digest

/-- The widths of Table 14.1. -/
def FlitIn.ok (f : FlitIn) : Bool := fits 12 f.seq && fits 12 f.ackSeq && fits 11 f.crCount

/-- A cup record of STEP_CLOSE (R350). -/
def CloseRec.ok (c : CloseRec) : Bool := fits 8 c.cup && fits 32 c.token

/-- A key or value row of a step: 64 code bytes and 4 scales (Table 10.13). -/
def rowOk (b : Bytes) : Bool := b.length == 68

/-- A token's row: 68 bytes each of key and value, of 256 elements (Table 10.13). -/
def KvRow.ok (r : KvRow) : Bool := rowOk r.key && rowOk r.value && decide (r.sats ≤ 256)
/-- What one cup's step computed: 256 cups, rows of 68 bytes (R61, Table 10.13). -/
def StepOut.ok (o : StepOut) : Bool := fits 8 o.cup && o.rows.all fun r => r.2.2.ok

/-- The queries of one cup: 128 elements each (R27). -/
def StepQ.ok (q : StepQ) : Bool := fits 8 q.cup && q.queries.all (·.length == 128)

/-- The rows of a stage of a steep job (Table 10.13), and its attention outputs: 128 elements each (R40). -/
def StageData.ok (d : StageData) : Bool := d.rows.all KvRow.ok && d.outs.all (·.o.length == 128)

/-- A stored leaf or centroid page: 18,432 bytes (R17, R24). -/
def pageOk (p : Bytes) : Bool := p.length == 18432

/-- A JTAG access: addresses and offsets of 64 bits (R414). -/
def Jtag.ok : Jtag → Bool
  | .readMem _ a n => fits 64 a && fits 64 n
  | .writeMem _ a d => fits 64 a && fits 64 d.length
  | .readCounter f i k => fits 8 f && fits 16 i && fits 16 k
  | .readReg off => fits 64 off
  | .writeReg off _ => fits 64 off
  | _ => true

/-- The operands of a command lie within the widths of the fields that carry them. -/
def Instr.wellFormed : Instr → Bool
  | .sqTailDoorbell _ page off size _ host => fits 52 page && fits 12 off && accessSize size && host.all fun c => fits 64 c.1
  | .cqHeadDoorbell _ page off size _ => fits 52 page && fits 12 off && accessSize size
  | .eventHeadDoorbell _ off size _ => fits 64 off && accessSize size
  | .registerWrite _ off size _ => fits 64 off && accessSize size
  | .sidebandRead off => fits 64 off
  | .sidebandWrite off _ => fits 64 off
  | .steepCheckpointCommit _ d => d.ok
  | .stepBoundary _ outs qs => outs.all StepOut.ok && qs.all StepQ.ok
  | .tailLeafProgramDone _ cup _ _ _ => fits 8 cup
  | .leafReadComplete _ page => pageOk page
  | .reconstructComplete _ page _ => (page.map pageOk).getD true
  | .centroidPageRead _ _ page => pageOk page
  | .strainerPageEval _ _ _ _ page => (page.map pageOk).getD true
  | .searchExpansion _ _ page => (page.map pageOk).getD true
  | .stallLimitExpiry _ _ _ ns _ _ => fits 64 ns
  | .kettleSample mw => fits 32 mw
  | .sliceEnd _ ns => fits 64 ns
  | .preemptLimitExpiry _ ns => fits 64 ns
  | .latencyTargetExpiry _ ns => fits 64 ns
  | .quotaWaitExpiry _ _ n => fits 64 n
  | .shareWindowEnd _ _ ns => fits 64 ns
  | .nvmRead c slba nlb prp _ => c.ok && blocksOk slba nlb && prp.ok
  | .nvmWrite c slba nlb prp _ => c.ok && blocksOk slba nlb && prp.ok
  | .nvmFlush c => c.ok
  | .writeZeroes c slba nlb => c.ok && blocksOk slba nlb
  | .datasetManagement c _ rs => c.ok && rs.all (fun r => blocksOk r.1 r.2) && decide (rs.length ≤ 256)
  | .identify c cns prp => c.ok && fits 8 cns && prp.ok
  | .getLogPage c lid off len lsp _ prp => c.ok && fits 8 lid && fits 64 off && fits 34 len && fits 7 lsp && prp.ok
  | .getFeatures c fid => c.ok && fits 8 fid
  | .setFeatures c fid _ hmb => c.ok && fits 8 fid && hmb.all fun h => fits 64 h.1 && fits 64 h.2
  | .createIoQueue c _ qid size cqid base => c.ok && fits 16 qid && decide (size ≤ 2 ^ 16) && fits 16 cqid && fits 64 base
  | .deleteIoQueue c _ qid => c.ok && fits 16 qid
  | .abortCmd c sqid cid => c.ok && fits 16 sqid && fits 16 cid
  | .asyncEventRequest c => c.ok
  | .namespaceCreate c nsze _ => c.ok && fits 64 nsze
  | .namespaceDelete c => c.ok
  | .namespaceAttachment c _ => c.ok
  | .formatNvm c ses => c.ok && fits 3 ses
  | .sanitizeBlockErase c => c.ok
  | .sanitizeCryptoErase c => c.ok
  | .firmwareImageDownload c off data => c.ok && fits 34 off && fits 34 data.length
  | .fwCommitReplace c slot m => c.ok && fits 3 slot && m.ok
  | .fwCommitActivateNext c slot m => c.ok && fits 3 slot && m.ok
  | .fwCommitSelectSlot c slot => c.ok && fits 3 slot
  | .fwCommitActivateNow c slot m => c.ok && fits 3 slot && m.ok
  | .invalidCommandOpcode c _ => c.ok
  | .caddyAuthenticate _ i => i.ok
  | .caddyClassify _ m => m.ok
  | .hello _ h => h.ok
  | .spdmPeerMessage _ p d => p.ok && d.all (fits 64)
  | .flitReceive _ f => f.ok
  | .statusPacket _ h st pw n => h.ok && fits 8 st && fits 8 pw && fits 32 n
  | .announce _ h d => h.ok && d.ok
  | .xferReady _ h => h.ok
  | .dataPacket _ h p => h.ok && decide (p.length ≤ 4096)
  | .xferDone _ h => h.ok
  | .peerNak _ h => h.ok
  | .cancel _ h => h.ok
  | .stepClose _ h step rs => h.ok && fits 32 step && rs.all CloseRec.ok
  | .grantWaitExpiry _ x => fits 16 x
  | .getCertificate _ off len => fits 16 off && fits 16 len
  | .challenge _ nonce => nonce.length == 32
  | .getMeasurements i _ nonce => fits 8 i && (nonce.length == 32 || nonce.length == 0)
  | .chunkSend h seq _ _ => fits 8 h && fits 16 seq
  | .chunkGet h seq => fits 8 h && fits 16 seq
  | .tokenRequest a => fits 8 a
  | .actionService a => a.ok
  | .actionOpen a => a.ok
  | .actionProvisioned a => a.ok
  | .actionOperational a => a.ok
  | .actionReturn a => a.ok
  | .actionBlank a => a.ok
  | .powerOn _ _ a b _ _ => (a.map Manifest.ok).getD true && (b.map Manifest.ok).getD true
  | .scrubRead t => match t with | .word _ a _ _ => fits 64 a | .flash .. => true
  | .jtagAccess a => a.ok
  -- Operands typed by their exact ranges, or the model's own names
  | .descriptorFetch _ | .descriptorFetchFailed _ | .orderedJobAdmit _ | .deferredJobAdmit _ | .imageLoad _ | .imageUnload _
  | .steep _ | .steepResume _ | .generate _ | .attend _ | .collectionCreate _ | .collectionAppend .. | .collectionDelete _
  | .filter _ | .search _ | .recallJob .. | .fetchJob _ | .tableCreate _ | .tableRule _ | .bag _ | .addJob _ | .update _
  | .tableSave _ | .tableLoad _ | .dropJob _ | .runJob _ | .lateReadExpiry _ | .groupStepLimitExpiry _
  | .searchRerank .. | .mendingPassEnd _ | .bagPartReceived .. | .bagWaitExpiry .. | .atomicAdd _
  | .ruleApplication _ | .shelfRedirectFlip .. | .shelfAbandoned .. | .shelfDemotion .. | .hotWindowExpiry _ => true
  | .nop .. | .group .. | .point .. | .fence .. | .loop .. | .endInv .. | .addr .. | .addri .. | .vadd .. | .vmul .. | .vfma ..
  | .vmax .. | .vmin .. | .vcmp .. | .vsel .. | .vcvt .. | .vexp .. | .vln .. | .vrcp .. | .vrsq .. | .vtanh .. | .vsum ..
  | .vrmax .. | .vtopk .. | .vpart .. | .vmerge .. | .vsample .. | .mm .. | .shape .. | .stride .. | .spout .. | .spoutv ..
  | .mov .. | .mov2d .. | .leafrd .. | .tkset .. | .semacq .. | .semrel .. => true
  | .stationaryLoadDone _ | .passLanded _ | .spoutDrain _ | .moveArrived .. | .coreProgressExpiry _ | .intervalOverrun _
  | .datapathCheckFail _ | .spareTakeoverResume .. | .evictWaitEnd _ | .preemptDrainExpiry _ | .activationQuiesced
  | .activationQuiesceExpiry | .writeBufferProgram .. | .feedLost _ | .feedRejoin _ | .powerLoss | .flashReadDone ..
  | .flashProgramDone .. | .flashEraseDone .. | .eraseSuspend _ | .eraseResume _ | .garbageCollection | .fold ..
  | .readDisturbRefresh .. | .journalProgram | .mapCheckpoint | .counterPersist | .dieOpTimeout _ | .caddyInsert _
  | .caddyLinkTrained .. | .bayRemove _ | .bayAdopt _ | .leverOpen _ | .leverClose _ | .removalQuiesced _
  | .caddySurpriseRemoval _ | .caddyPulled _ | .rebuildGroup _ | .caddyLaneFrameFail .. => true
  | .peerSignalDetect _ | .linkTrainTimeout _ | .linkUp .. | .peerLaneOut .. | .linkRetrain _ | .linkHoldExpiry _ | .statusTimer
  | .peerStatusTimeout _ | .controlCoreWatchdog .. | .pcieRetrain _ | .getVersion | .getCapabilities | .negotiateAlgorithms ..
  | .getDigests | .getCsr | .setCertificate .. | .spdmUnsupportedRequest _ | .stateQuery | .relock | .tokenExpiry
  | .lockoutExpiry | .powerReq .. | .powerStepDone | .powerStepLimitExpiry | .kettleTrial | .kettleTrialEnd
  | .thermalThrottleTick _ | .thermalTrip _ | .caddyTrip _ | .caddyCoolExpiry _ | .dramTrainingDone | .moduleReady _
  | .weightReload _ | .bootWatchdog | .seWatchdog | .commit _ | .commitDone _ | .moduleReset _ | .resetDrainDone
  | .resetDrainExpiry | .pf1Flr | .vfFlr _ | .pf0Reset | .vfEnableChange _ | .potStop .. | .potRestart .. | .ringEnable ..
  | .ringDisable .. | .coalesceTimerExpiry .. | .snapshotStart _ | .snapshotDone .. | .traceControl .. | .markerPulse _
  | .traceSyncTimer .. | .traceFrame | .mapRebuildDone | .hardwareFailure _ | .controllerEnable | .thermalTripClear => true

end Sys2Proof
end

