-- ==== Sys2Proof/Tests/Slice0.lean ====
section
/-! SUPPORT. The model's own tests: terms that no interface can send are refused, states and operands that meet the hypotheses of the
statements, and single steps checked against the manual's numbers. -/

namespace Sys2Proof.Tests

open Sys2Proof Sys2Proof.Machine

-- One theorem at a time: each evaluates a whole State in the kernel.
set_option Elab.async false

-- States and operands that meet the hypotheses of the statements

/-- A module that runs in PS0, owned, on both feeds, with an event in no queue. -/
def ready : State := { State.reset with
  boot := { State.reset.boot with phase := .ready, active := 1 }
  sec := { lifecycle := .operational, ownerKey := some 7 }
  power := { feeds := Vector.replicate 2 true } }
/-- A token that asks for an action: 128 bytes with the action at 0x48. -/
def tokenOf (action : Nat) : Bytes := zeros 0x48 ++ [BitVec.ofNat 8 action] ++ zeros 55
/-- `ready` in a lifecycle, with a token outstanding. -/
def asked (l : Lifecycle) (owner : Option Nat) (action : Nat) : State := { ready with
  sec := { lifecycle := l, ownerKey := owner, token := some (tokenOf action) } }
/-- The owner's signature and the service's. -/
def ownerGives : AuthSig := { role := 1, keyDigest := 7, valid := true }
def serviceGives : AuthSig := { keyDigest := Config.serviceKey 0, valid := true }
/-- `ready` with every pot at rest. -/
def rest (s : State) : State := { s with pots := Vector.replicate 8 {} }

-- The step

theorem witness_StepRunsFrontCommand : State.reset.pending = [] := rfl
theorem witness_CommandsCompleteAndKeepTheQueue :
    ∃ t, exec .lockoutExpiry { ready with pending := [.tokenExpiry] } = .next t := ⟨_, rfl⟩

-- Security

theorem witness_LifecycleMovesOnlyByItsActions :
    let s := { asked .blank none 3 with pending := [.actionProvisioned { token := tokenOf 3, sigs := [ownerGives] }] }
    ∃ t, step s = .next t ∧ t.sec.lifecycle ≠ s.sec.lifecycle ∧ t.sec.ownerKey ≠ s.sec.ownerKey := by
  refine ⟨_, rfl, ?_, ?_⟩ <;> decide +kernel
theorem witness_OwnerKeyHeldExactlyWhileOwned : ready.ownerKeyHeld ∧ step ready = .next ready := ⟨by unfold State.ownerKeyHeld; decide, rfl⟩
theorem witness_SecurityStateHasItsWriters_rollback : ∃ t, exec (.fwCommitReplace {} 2 { svn := 1 })
    { ready with nvme := { enabled := true, ready := true } } = .next t ∧ t.boot.rollback ≠ ready.boot.rollback := by
  refine ⟨_, rfl, ?_⟩; decide +kernel
theorem witness_SecurityStateHasItsWriters_straps : ∃ t, exec (.powerOn 5 [] (some {}) none true true) State.reset = .next t ∧
    t.power.straps ≠ State.reset.power.straps := by
  refine ⟨_, rfl, ?_⟩; decide +kernel
theorem witness_ElementAnswersRequests :
    let sec := { ready.sec with
      versionOk := true, algorithmsOk := true, lifecycle := .provisioned, chunks := some (9, 65535, [1]), large := some (9, 0, [1, 2]) }
    let s : State := { ready with sec := sec }
    s.elementUp = true ∧ s.sec.versionOk = true ∧ s.sec.algorithmsOk = true ∧ (s.measurement 1).isSome = true ∧
      (s.measurement 15).isSome = true ∧ (s.chainOf 0).isSome = true ∧ s.sec.lifecycle = .provisioned ∧
      s.sec.chunks = some (9, 65535, [1]) ∧ s.sec.large = some (9, 0, [1, 2]) ∧ s.sec.locked = false := by
  simp only [State.measurement, State.chainOf]; decide +kernel
theorem witness_ElementAnswersRequests_lifecycle : ready.sec.lifecycle ≠ .provisioned ∧
    State.chainOf { ready with sec := { ready.sec with slot1 := some [1, 2] } } 1 = some [1, 2] ∧
    State.elementUp { ready with sec := { ready.sec with locked := true } } = true := by decide +kernel

theorem tokenOf_action : field (tokenOf 1) 0x48 1 = 1 ∧ field (tokenOf 2) 0x48 1 = 2 ∧ field (tokenOf 3) 0x48 1 = 3 ∧
    field (tokenOf 4) 0x48 1 = 4 ∧ field (tokenOf 5) 0x48 1 = 5 ∧ field (tokenOf 6) 0x48 1 = 6 := by decide +kernel
theorem tokenOf_length : (tokenOf 1).length = 128 ∧ (tokenOf 2).length = 128 ∧ (tokenOf 3).length = 128 ∧
    (tokenOf 4).length = 128 ∧ (tokenOf 5).length = 128 ∧ (tokenOf 6).length = 128 := by decide +kernel
theorem serviceGives_counts (s : State) (h : s.sec.serviceRevoked = 0) : s.serviceSig serviceGives = true := by
  simp [State.serviceSig, serviceGives, h]
/-- SERVICE by the service alone, and by the owner alone. -/
theorem witness_ActionsTakeEffect_service (l : Lifecycle) (o : Option Nat) :
    (asked l o 1).elementUp = true ∧ (asked l o 1).sec.token = some (tokenOf 1) ∧ [serviceGives].all (·.valid) = true ∧
      [serviceGives].any (asked l o 1).serviceSig = true ∧ [ownerGives].any (asked l (some 7) 1).ownerSig = true := by
  refine ⟨rfl, rfl, rfl, ?_, rfl⟩
  simp [serviceGives_counts (asked l o 1) rfl]
/-- OPEN with both signatures and every pot at rest. -/
theorem witness_ActionsTakeEffect_open :
    let s := rest (asked .operational (some 7) 2)
    s.elementUp = true ∧ [serviceGives, ownerGives].any s.serviceSig = true ∧ [serviceGives, ownerGives].any s.ownerSig = true ∧
      s.potsStopped = true ∧ [serviceGives, ownerGives].length = 2 := by
  have h := serviceGives_counts (rest (asked .operational (some 7) 2)) rfl
  refine ⟨rfl, ?_, ?_, by decide +kernel, rfl⟩
  · simp [h]
  · simp [State.ownerSig, ownerGives, rest, asked]
theorem witness_ActionsTakeEffect_owner :
    let s := rest (asked .operational (some 7) 5)
    s.elementUp = true ∧ s.sec.token = some (tokenOf 5) ∧ s.power.st = 0 ∧ s.potsStopped = true ∧ [ownerGives].any s.ownerSig = true ∧
      (asked .provisioned (some 7) 4).elementUp = true ∧ [ownerGives].any (asked .provisioned (some 7) 4).ownerSig = true ∧
      (asked .blank none 3).sec.lifecycle = .blank ∧ ownerGives.role = 1 := by decide +kernel
theorem witness_ActionsTakeEffect_blank :
    (asked .returned none 6).elementUp = true ∧ (asked .returned none 6).power.st = 0 ∧ [serviceGives].any (asked .returned none 6).serviceSig = true := by
  refine ⟨rfl, rfl, ?_⟩
  simp [serviceGives_counts (asked .returned none 6) rfl]
theorem witness_ActionsTakeEffect_refused : ready.elementUp = true ∧ ready.sec.token ≠ some (tokenOf 1) ∧
    (asked .operational none 1).sec.token ≠ some [] := by decide +kernel
theorem witness_ActionsTakeEffect_relock : ready.sec.debug = .closed ∧
    State.elementUp { ready with sec := { ready.sec with debug := .service } } = true ∧
    State.elementUp { ready with sec := { ready.sec with debug := .opened } } = true := by decide +kernel

-- Power

/-- A module in a power state, on its way to another, with a request. -/
def powered (st : Nat) (step : Option Nat) (req : Nat) : State := { ready with power := { ready.power with st := st, step := step, req := req } }
theorem witness_PowerStatesMoveByStep : ready.boot.up = true ∧ PcieFn.vf 0 ≠ .pf1 ∧
    (powered 0 (some 1) 4).power.step = some 1 ∧ (powered 0 (some 1) 4).stepReady 1 = true ∧ (powered 3 (some 2) 0).stepReady 2 = true ∧
    (powered 1 (some 2) 4).boot.phase = .ready := by decide +kernel
theorem witness_PowerStatesMoveByStep_begins : (powered 0 none 4).powerWant ≠ 0 ∧ (powered 3 none 4).powerWant ≠ 3 ∧
    (powered 4 none 0).powerWant ≠ 4 ∧ (powered 2 none 0).powerWant ≠ 2 := by decide +kernel
/-- 1,000 samples of a power in mW, with a trial in progress from level 3. -/
def kettle (level mw since : Nat) (trial : Option (Nat × Nat)) : State := { ready with power := { ready.power with
  level := level, samples := List.replicate 1000 mw, sinceDeeper := since, sinceTrial := since, trial := trial } }
theorem witness_KettleAndThermalCommands : ready.kettleRuns = true ∧ (kettle 1 0 100000 none).kettleRuns = true ∧
    0 < (kettle 1 0 100000 none).power.level ∧ (kettle 1 0 100000 none).power.trial = none ∧
    (kettle 16 0 100000 none).power.level = 16 ∧ (kettle 15 0 0 none).power.level < 16 := by decide +kernel
theorem witness_KettleAndThermalCommands_trial :
    let L := ready.powerLimit
    let at_ := kettle 2 (1000 * L - 20000) 100 (some (3, 0))
    let above1 := kettle 2 (1000 * L) 100 (some (3, 0))
    20 < L ∧ 100 ≤ at_.power.samples.length ∧ (at_.power.samples.take 100).sum ≤ 100 * (1000 * at_.powerLimit - 20000) ∧
      100 * (1000 * above1.powerLimit - 20000) < (above1.power.samples.take 100).sum := by decide +kernel
theorem witness_KettleAndThermalCommands_trip :
    let s := { ready with power := { ready.power with tripped := true } }
    s.power.tripped = true ∧ (∀ c io, NvWait.io c io ∉ s.nvme.waits) := ⟨rfl, fun _ _ h => nomatch h⟩

-- Start-up, watchdogs, resets

theorem witness_StartRunsInOrder : State.reset.boot.phase = .off ∧ State.reset.boot.pointer = 1 ∧ State.reset.slotPasses 1 (some {}) ∧
    ¬ State.reset.slotPasses 2 (some {}) ∧ ¬ State.reset.slotPasses 1 none := by
  refine ⟨rfl, rfl, ⟨by decide +kernel, {}, rfl, by decide⟩, fun h => absurd h.1 (by decide +kernel), fun h => ?_⟩
  obtain ⟨-, m, h, -⟩ := h
  cases h
/-- The other slot boots when the pointer's does not pass. -/
theorem witness_StartRunsInOrder_other :
    let s := { State.reset with boot := { State.reset.boot with pointer := 2 } }
    ¬ s.slotPasses 2 none ∧ s.slotPasses (3 - 2) (some {}) := by
  refine ⟨fun h => absurd h.1 (by decide +kernel), by decide +kernel, {}, rfl, by decide⟩
def phase (p : Phase) : State := { ready with boot := { ready.boot with phase := p } }
theorem witness_StartRunsInOrder_rest : (phase .training).boot.phase = .training ∧ (phase .booting).nvme.loss = [] ∧
    (phase .booting).nvme.dump = [] ∧
    (let s := { phase .booting with nvme := { dump := [default] } }; s.nvme.loss ++ s.nvme.dump ≠ []) ∧
    (let s := { ready with images := [{ id := 1, reload := true }] }; s.images.find? (·.reload) = some { id := 1, reload := true }) ∧
    ready.nvme.enabled = false := by decide +kernel
theorem witness_WatchdogsAndPowerLoss : (phase .booting).boot.active = (phase .booting).boot.pointer ∧
    (let s := { phase .booting with boot := { (phase .booting).boot with active := 2 } }; s.boot.active ≠ s.boot.pointer) ∧
    ready.boot.hold = none ∧ ready.power.halted.getLsbD 15 = false ∧
    (let s := { ready with time := 60000000, boot := { ready.boot with restartsAt := [(1, 0)] } }
     ∀ r ∈ s.boot.restartsAt, r.2 + 60000000 ≤ s.time) ∧
    (let s := { ready with time := 59999999, boot := { ready.boot with restartsAt := [(1, 0)] } }
     ∃ r ∈ s.boot.restartsAt, s.time < r.2 + 60000000) ∧
    ready.power.feeds[(0 : Fin 2)] = true ∧
    (let s := { ready with power := { ready.power with feeds := #v[true, false] } }; s.power.feeds[(1 : Fin 2)] = false) := by decide +kernel
theorem witness_ResetsRestartTheModule : (phase (.draining 0)).boot.phase = .draining 0 ∧ (phase (.draining 0)).nvme.buffer = [] ∧
    (phase (.draining 0)).writeOk = false ∧
    (let s := { phase (.draining 1) with nvme := { buffer := [default] } }; s.writeOk = false ∧ s.nvme.buffer ≠ []) ∧
    (let s := { ready with host := { ready.host with numVfs := 8 } }; (7 : Fin 8).val < s.host.numVfs) ∧
    (8 : Fin 9).val ≠ ready.host.numVfs ∧ (0xA5C30000 : BitVec 32) ≠ 0xA5C30001 := by decide +kernel
theorem witness_LinkRetrainFailureAndScrub : ready.host.retraining = false ∧ ready.boot.phase ≠ .off ∧ ready.boot.phase ≠ .lost ∧
    ready.boot.phase ≠ .failed ∧ ready.boot.phase = .ready ∧ (powered 2 none 2).power.st < 3 := by decide +kernel

-- Storage

/-- A caddy that works in its bay. -/
def worksIn (n : Nat) : Bay := { present := true, stage := .up, st := 1, lanes := 12, serial := 100 + n, spareLeft := 100, member := some (0, n, 0) }
/-- `n` working caddies, in the lowest bays. -/
def caddies (n : Nat) : Vector Bay 8 := Vector.ofFn fun k => if k.val < n then worksIn k.val else {}
/-- A running module with `n` caddies whose storage function serves one attached namespace of 262,144 blocks. -/
def storage (n : Nat) : State := { ready with
  nvme := { enabled := true, ready := true, spaces := [{ nsid := 1, pot := 0, nsze := 262144, attached := true }] }
  media := { bays := caddies n } }
def one : NvCmd := { sqid := 1, cid := 5, nsid := 1 }
theorem witness_IoCommandsRun : (storage 6).nvFetches = true ∧ (storage 6).power.st < 3 ∧ (storage 6).writeOk = true ∧
    (storage 6).ioFail one (262144 - 512) 512 true = none ∧ ((storage 6).ns? 1).isSome = true ∧ (storage 6).writeRoom 1 true = true ∧
    (storage 6).writeRoom 1 false = true ∧ (storage 6).writeThrough true = true ∧ (storage 6).writeThrough false = false ∧
    (storage 6).ioFail one 0 0 false = none ∧ one.nsid ≠ 0xFFFFFFFF := by decide +kernel
/-- One block of data from host address 8192: what host memory holds there. -/
theorem witness_IoCommandsRun_data : ∀ i < 1, (storage 6).hostRead (([8192] : Prp).getD i 0) 4096 =
    some (([Memory.readN [] 8192 4096] : List Bytes).getD i []) := by
  intro i h
  obtain rfl : i = 0 := by omega
  simp [State.hostRead, storage, ready, State.reset]
theorem witness_IoCommandsRun_read (n : Namespace) (h : (storage 6).ns? 1 = some n) : ∀ i < 512, (storage 6).fromFlash n i = false := by
  cases h; decide +kernel
theorem witness_IoCommandsRun_fails : (storage 6).ioFail one (262144 - 512) 513 true = some .invalidField ∧ (storage 5).writeOk = false ∧
    (storage 5).ioFail one 0 1 true = none ∧ (storage 5).nvFetches = true ∧
    (let s := { storage 6 with sec := {} }; s.nvFetches = true ∧ s.sec.lifecycle ≠ .operational) ∧
    (let s := { storage 6 with media := { bays := caddies 6, rebuildingMap := true } }; s.media.rebuildingMap = true ∧ s.nvFetches = true) ∧
    (storage 6).ns? 2 = none ∧ (storage 6).nsDeleting 1 = false ∧
    (let s := { storage 6 with nvme := { (storage 6).nvme with loss := [{ (default : LossEntry) with nsid := 1 }] } }; s.flagged 1 = true) ∧
    (let s := { storage 6 with power := { (powered 3 none 3).power with step := none } }; s.nvFetches = true ∧ 3 ≤ s.power.st ∧
      s.power.tripped = false ∧ s.power.step = none) := by decide +kernel
theorem witness_IoCommandsRun_blocks : ({ blocks := [(3, 9, [])] } : Namespace).blocks.find? (·.1 == 3) = some (3, 9, []) ∧
    ({} : Namespace).blocks.find? (·.1 == 3) = none := by decide +kernel
/-- The VENDOR byte 0x80 names pot 0, which has 74,505 GB-units of flash after a cold start. -/
theorem witness_NamespaceCommandsRun : (storage 6).nvFetches = true ∧ (storage 6).sec.lifecycle = .operational ∧ 262144 % 262144 = 0 ∧
    bit (0x80 : Byte).toNat 7 = true ∧ (storage 6).potEnabled ((0x80 : Byte).toNat % 8) = true ∧ (storage 6).nvme.spaces.length < 256 ∧
    262144 ≤ (storage 6).unitsFree 0 ∧ (storage 6).nsDeleting 1 = false ∧ ((storage 6).ns? 1).map (·.attached) = some (!false) := by decide +kernel
theorem witness_AdminCommandsRun : (storage 6).nvFetches = true ∧ (storage 6).nvme.events = [] ∧
    (∀ q ∈ (storage 6).nvme.cqs, q.1 ≠ 128) ∧
    (let n := { (storage 6).nvme with cqs := [(1, 65536, 0)] }; (∀ q ∈ n.sqs, q.1 ≠ 1) ∧ (∃ q ∈ n.cqs, q.1 = 1) ∧ (∀ q ∈ n.sqs, q.2.2.2 ≠ 1)) ∧
    (let n := { (storage 6).nvme with sqs := [(128, 2, 0, 1)] }; (∃ q ∈ n.sqs, q.1 = 128)) ∧
    (let n := { (storage 6).nvme with events := [0x81] }; n.events = 0x81 :: []) := by decide +kernel
theorem witness_AdminCommandsRun_waits : (∀ w ∈ (storage 6).nvme.waits, w.idle = true → w.cmd.sqid ≠ 128) ∧
    (∀ d ∈ ([(0, 2 ^ 21)] : List (Nat × Nat)), 2 ^ 21 ≤ d.2 ∧ d.2 % 2 ^ 21 = 0) ∧ (1 : BitVec 32).getLsbD 0 = true := by
  refine ⟨fun _ h => (nomatch h), ?_⟩
  decide +kernel
theorem witness_AdminCommandsRun_logs : (storage 6).logLength 0xC0 0 = some 64 ∧ (storage 6).logLength 0xC2 7 = none ∧
    (storage 6).logLength 0xC2 0 = some 1244224 ∧ 0x04 ∉ [0x00, 0x01, 0x02, 0x03, 0x05, 0x06, 0x08, 0x10, 0x11, 0x12, 0x13, 0x1C] := by decide +kernel

-- Firmware and settings

theorem witness_FirmwareCommands : (storage 6).nvFetches = true ∧ (storage 6).fwServed = true ∧ (storage 6).boot.pointer = (storage 6).boot.active ∧
    (storage 6).inactive = 2 ∧ (storage 6).manifestOk { version := 0x04000001 } = true ∧ (storage 6).manifestOk { sigOk := false } = false ∧
    (storage 6).sameParts { version := 0x04000001 } = true ∧ (storage 6).sameParts { version := 0x05000000 } = false ∧
    ((storage 6).slot 1).record.isSome = true ∧ (1 ≠ 0 ∧ 1 ≠ (storage 6).inactive) ∧
    (let s := { storage 6 with boot := { (storage 6).boot with pointer := 2 } }; s.boot.pointer ≠ s.boot.active ∧ s.nvFetches = true) ∧
    (let s := { storage 6 with boot := { (storage 6).boot with hold := some { cmd := one, slot := 2 } } }; s.coresQuiet = true) := by decide +kernel
/-- A commit is running. -/
def committing : State := { ready with boot := { ready.boot with committing := some [] } }
theorem witness_CommitsAndPotControl : ready.boot.up = true ∧ ready.boot.committing = none ∧ committing.boot.committing ≠ none ∧
    (ready.pot 0).st = 1 ∧ (ready.pot 7).st ≠ 1 ∧ ready.servingPot = 0 ∧ PcieFn.vf 0 ≠ .pf1 := by decide +kernel
theorem witness_CommitsAndPotControl_checks :
    ({ ready with cores := Vector.ofFn fun n => { phys := some n.val } } : State).commitOk [] = true ∧ 
    State.commitOk { ready with sec := {} } [] = false := by decide +kernel
/-- Pots 0 and 1 stopped; pot 0 serves the group. -/
def stopped : State := { ready with pots := Vector.replicate 8 { st := 3 } }
theorem witness_CommitsAndPotControl_restart : (stopped.pot 0).st = 3 ∧ (stopped.pot 1).st = 3 ∧ (0 : Fin 8).val = stopped.servingPot ∧
    (1 : Fin 8).val ≠ stopped.servingPot ∧ stopped.boot.committing = none := by decide +kernel

-- Scheduling

/-- A descriptor of a type with `n` items. -/
def desc (type n : Nat) : Bytes := natLe 1 type ++ zeros 11 ++ natLe 4 n ++ zeros 112
/-- Every core present, pot 0 holding all of them and running job 1, a job of a type. -/
def runs (type : Nat) (sliced : Bool) : State := { ready with
  cores := Vector.ofFn fun n => { phys := some n.val }
  jobs := [{ key := 1, desc := desc type 1, phase := .admitted, sliced := sliced }]
  pots := Vector.ofFn fun p => if p.val = 0 then { st := 1, cores := BitVec.allOnes 48, running := some 1 } else {} }
/-- Job 1 on core 0. -/
def onCore (s : State) (parked : Bool) : State := { s with cores := s.cores.set 0 { phys := some 0, run := some { job := 1 }, parked := parked } }
theorem witness_SliceEndChoosesTheNextJob : ((runs 0x15 true).runningJob 0).isSome = true ∧ 12 ≤ ((runs 0x15 true).potCores 0).length ∧
    (runs 0x15 true).coresOn = true ∧ ((runs 0x0A false).runningJob 0).map (·.isTask) = some true ∧
    ((runs 0x15 false).runningJob 0).map (·.sliced) = some false ∧
    ((runs 0x15 true).runningJob 0).map (fun j => (j.isTask, j.sliced)) = some (false, true) := by decide +kernel
/-- The running job of a ring behind ring 0. -/
def earlyOne : Job := { key := 1, ring := 15, admitted := 1, desc := desc 0x15 1, phase := .admitted, sliced := true }
/-- The deficits choose the one job there is, and not the running one where an earlier ring has a job that is due. -/
theorem witness_SliceEndChoosesTheNextJob_next :
    let next := fun (s : State) => let u := ((s.chargeCores 0 0).deficits 0 0).1
      (((((s.chargeCores 0 0).deficits 0 0).2).bind (u.oldestOf 0)).map (·.key))
    next (runs 0x15 true) = some 1 ∧
    next { runs 0x15 true with jobs := [{ key := 0, desc := desc 0x15 1, phase := .admitted }, earlyOne] } ≠ some 1 ∧
    (∀ j ∈ (runs 0x15 true).jobs, (runs 0x15 true).coreless 0 j = true) ∧
    (∀ j ∈ (onCore (runs 0x15 true) false).jobs, (onCore (runs 0x15 true) false).coreless 0 j = false) := by decide +kernel
/-- Pot 0's slice has ended and its job, on core 0, still has a transfer under way. -/
def draining (parked : Bool) : State :=
  let s := onCore (runs 0x15 true) parked
  { s with
    pots := s.pots.set 0 { s.pots[0] with switchDue := true, loop := { between := true } }
    ports := s.ports.set 0 { out := [{ job := 1 }] } }
theorem witness_LimitsAndGuarantees : ((draining true).pot 0).running = some 1 ∧ (draining true).preempting 0 = true ∧
    (draining true).xfersOf 1 = true ∧ (∃ c ∈ (draining true).coresOf 1, ((draining true).core c).parked = true) ∧
    (∀ c ∈ (draining false).coresOf 1, ((draining false).core c).parked = false) ∧ ((draining false).pot 0).loop.between = true ∧
    (draining true).potAbort 0 = false ∧
    (let s := { draining true with boot := { ready.boot with settings := [(0x1000, BitVec.ofNat 64 (2 ^ 50))] } }; s.potAbort 0 = true) := by decide +kernel
theorem witness_LimitsAndGuarantees_reports :
    let s := { runs 0x15 false with boot := { ready.boot with settings := [(0x1040, BitVec.ofNat 64 (2 ^ 16))] } }
    let j := { key := 1, desc := desc 0x15 1, phase := .admitted : Job }
    s.job? 1 = some j ∧ s.latencyTarget 0 0 ≠ 0 ∧ j.remote = none ∧ (if j.isCore || j.isTask then !j.sliced else !j.ready) = true ∧
      j.stallAt = none ∧ (16 : Fin 17).val ≠ 0 ∧ s.potStall 0 * 1000 ≤ 10000000 ∧ ready.potEnabled 0 = true := by decide +kernel
theorem witness_LimitsAndGuarantees_quota :
    let s := { ready with tiers := { waits := [{ key := .weights 1, pot := 0, cls := .pinned, size := 1 }],
                                     dram := [{ key := .weights 2, pot := 1, cls := .pinned, size := 2 ^ 30 }] } }
    (∃ e ∈ s.tiers.waits, e.pot = 0) ∧ s.share true 1 < s.holding true 1 ∧ (0 : Fin 8) ≠ 1 := by decide +kernel
theorem witness_LimitsAndGuarantees_post :
    let s := fun (t : Nat) => ({ ready with time := t, pots := ready.pots.set 0 { st := 1, postedAt := [(4, 0)] } } : State)
    ((s 99999).pot 0).postedAt.lookup 4 = some 0 ∧ (s 99999).time < 0 + 100000 ∧ 0 + 100000 ≤ (s 100000).time ∧
      (ready.pot 0).postedAt.lookup 4 = none := by decide +kernel
theorem witness_SparesTakeOver :
    let s := { runs 0x15 true with boot := { ready.boot with spares := #v[some (12, false), none, none, some (51, true)] } }
    s.mappedTo (0 : Fin 52) = some 0 ∧ s.takingOver 0 = false ∧ (s.boot.spares[0]?).join = some (12, false) ∧
      s.mappedTo (47 : Fin 52) = some 47 ∧ (∀ sp, (s.boot.spares[3]?).join ≠ some (sp, false)) ∧
      (let t := { s with boot := { s.boot with takeovers := [(0, 12)] } }
       t.boot.takeovers.find? (fun t => t.1 / 12 == (0 : Fin 4).val) = some (0, 12)) := by
  refine ⟨by decide +kernel, by decide +kernel, rfl, by decide +kernel, fun _ h => ?_, rfl⟩
  cases h

-- Rings

/-- Rings of 64 entries in pot 0: submission ring 15 with an entry, completion ring 0. -/
def rings : State := { ready with
  host := { ready.host with
    sq := ready.host.sq.set 0 (ready.host.sq[0].set 15 { enable := true, sizeLog2 := 6, base := 0x10000, hostIndex := 1 })
    cq := ready.host.cq.set 0 (ready.host.cq[0].set 0 { enable := true, sizeLog2 := 6, base := 0x20000 })
    ev := ready.host.ev.set 0 { enable := true, sizeLog2 := 6 }
    modEv := { enable := true, sizeLog2 := 16 } } }
theorem witness_DoorbellsMoveIndices : rings.reaches .pf1 (some 0) = true ∧ rings.reaches (.vf 0) (some 0) = false ∧
    (rings.ring (some 0) (.sq 15)).doorbellOk (.sq 15) 63 = true ∧ (rings.ring (some 0) (.sq 15)).doorbellOk (.sq 15) 0 = false ∧
    (rings.ring (some 0) (.sq 15)).doorbellOk (.sq 15) 64 = false ∧ (rings.ring (some 0) (.cq 0)).doorbellOk (.cq 0) 0 = true ∧
    (rings.ring (some 0) (.cq 0)).doorbellOk (.cq 0) 1 = false ∧ (rings.ring (some 0) .ev).doorbellOk .ev 0 = true ∧
    rings.host.modEv.doorbellOk .ev 0 = true ∧ rings.host.modEv.sizeLog2.toNat ≤ 16 := by decide +kernel
/-- A doorbell in a VF's ring set reaches it only while VF Enable gives the VF its set. -/
theorem test_doorbell_vf : State.reaches { rings with host := { rings.host with numVfs := 1 } } (.vf 0) (some 0) = true ∧
    State.reaches { rings with host := { rings.host with numVfs := 1 } } .pf1 (some 0) = false := by decide +kernel
theorem witness_RingsFetchDescriptors : rings.canFetch 0 = true ∧ rings.nextRing 0 = some 15 ∧ (rings.hostRead 0x10000 128).isSome = true ∧
    (let s := { rings with host := { rings.host with bad := [(0x1007F, 1)] } }; s.hostRead 0x10000 128 = none ∧ s.nextRing 0 = some 15) ∧
    ready.nextRing 0 = none ∧ ready.canFetch 1 = false := by decide +kernel
theorem witness_RingsFetchDescriptors_enable : let v := BitVec.ofNat 64 6
    ready.boot.phase = .ready ∧ (ready.ring (some 0) (.cq 0)).enable = false ∧
    ready.ringFault (some 0) (.cq 0) { sizeLog2 := 16, vector := 136 } = none ∧
    ready.ringFault (some 0) (.cq 0) { sizeLog2 := 17 } = some 1 ∧ ready.ringFault (some 0) (.sq 0) { sizeLog2 := 6 } = some 5 ∧
    rings.cqOwed 0 1 = false ∧ rings.cqOwed 0 0 = true ∧ (rings.ring (some 0) (.cq 0)).enable = true ∧ v = 6 := by decide +kernel
theorem witness_RingsFetchDescriptors_coalesce :
    let r : Ring := { (rings.ring (some 0) (.cq 0)) with coalArmed := true, unannounced := 1 }
    let s := rings.setRing (some 0) (.cq 0) r
    s.ring (some 0) (.cq 0) = r ∧ r.coalArmed = true ∧ 0 < r.unannounced := by decide +kernel

-- Jobs

/-- Bytes of a length with fields (offset, length, value) set. -/
def fill (n : Nat) (fs : List (Nat × Nat × Nat)) : Bytes := (List.range n).map fun i =>
  match fs.find? fun f => decide (f.1 ≤ i) && decide (i < f.1 + f.2.1) with
  | some f => BitVec.ofNat 8 (f.2.2 / 256 ^ (i - f.1))
  | none => 0
/-- A descriptor of a type with one item of a size, an image, and the type's fields. -/
def descOf (type size image : Nat) (fs : List (Nat × Nat × Nat)) : Bytes :=
  fill 128 ([(0, 1, type), (0x0C, 4, 1), (0x18, 2, size), (0x1C, 4, image)] ++ fs)
/-- An image of a model with one layer, one head and an encoder of 64 dimensions, with an entry of each kind. -/
def model : Image := { id := 1, header := fill 256 [(0x0A, 2, 2), (0x10, 4, 100), (0x14, 2, 1), (0x16, 2, 1), (0x18, 2, 1), (0x36, 2, 64)]
                       variants := [{ entries := [(1, 0), (2, 0), (3, 0), (4, 0), (5, 0)] }] }
/-- A corpus of the model's shape, of one token. -/
def corpus (id : Nat) (st : CorpusState) : Corpus :=
  { id := id, st := st, tokens := 1, layers := 1, qHeads := 1, kvHeads := 1, coll := 1, gens := [1], range := (0, 1), mark := { stage := 0 } }
def table1 : Table := { id := 1, rows := 64, hyper := hyperDefault, image := some ([], []) }
/-- Pot 0 with every core, an image, a ready and a suspended corpus, a collection and a table; six caddies; job 1 as given. -/
def world (d : Bytes) (phase : JobPhase) : State := { runs 0x15 true with
  nextId := 10
  media := { bays := caddies 6 }
  images := [model]
  corpora := [corpus 1 .ready, corpus 3 .suspended]
  colls := [{ id := 1, encoder := 1, columns := [{}], recs := [{ values := [none] }] }]
  tables := [table1]
  cores := Vector.ofFn fun n => { phys := some n.val }
  jobs := [{ key := 1, desc := d, phase := phase }]
  pots := Vector.ofFn fun p => if p.val = 0 then { st := 1, cores := BitVec.allOnes 48 } else {} }
/-- The job of `world` is found for its command, passes the checks of its type, and fits. -/
def meets (s : State) (type : Nat) (a : State → Job → Admission) : Bool :=
  match s.fetchedJob 1 fun k => k.type == type with
  | some j => (a s j).whole.isNone && s.footprintFits j.pot (a s j).footprint && s.sec.lifecycle == .operational && !j.ordered
  | none => false
theorem witness_AdmissionOutcomes : meets (world (descOf 0x01 0 0 []) .fetched) 0x01 (fun _ => admitImageLoad) = true ∧
    (admitImageLoad { desc := descOf 0x01 0 7 [] }).whole = some 0x10 ∧ ready.footprintFits 7 (64 * 2 ^ 30 + 1) = false ∧ ready.footprintFits 7 (64 * 2 ^ 30) = true ∧
    (asked .blank none 1).sec.lifecycle ≠ .operational := by decide +kernel
theorem witness_AdmissionOutcomes_ordered :
    let second := { key := 2, desc := fill 128 [(0, 2, 0x114)] : Job }
    let s := { world (descOf 0x14 0 0 []) .fetched with jobs := [{ key := 1, desc := descOf 0x14 0 0 [] }, second] }
    s.fetchedJob 2 (fun k => k.type == 0x14) = some second ∧ second.ordered = true ∧ s.lastAwaited second = true := by decide +kernel
theorem witness_AdmissionOutcomes_later :
    let s := fun p => world (descOf 0x14 0 0 []) p
    let j := fun p => { key := 1, desc := descOf 0x14 0 0 [], phase := p : Job }
    (s .ordered).job? 1 = some (j .ordered) ∧ (s .deferred).job? 1 = some (j .deferred) ∧ ((s .ordered).pot 0).st = 1 ∧
      (s .ordered).boot.phase = .ready ∧ (s .ordered).power.st ≤ 1 ∧ (s .ordered).lastAwaited (j .ordered) = false ∧
      (s .deferred).behindOrdered (j .deferred) = false ∧
      (let t := { s .deferred with jobs := [{ key := 0, desc := fill 128 [(0, 2, 0x114)] }, j .deferred] }
       t.behindOrdered (j .deferred) = true ∧ t.lastAwaited (j .ordered) = true) := by decide +kernel
theorem witness_EntriesArePostedInOrder : rings.host.cq[(0 : Fin 8)][(0 : Fin 16)].enable = true ∧
    rings.host.cq[(0 : Fin 8)][(0 : Fin 16)].full = false ∧ rings.host.cq[(0 : Fin 8)][(0 : Fin 16)].held = [] ∧
    rings.host.retraining = false ∧ ready.host.cq[(0 : Fin 8)][(0 : Fin 16)].enable = false ∧
    ({ sizeLog2 := 6, moduleIndex := 63 } : Ring).full = true ∧ ({ sizeLog2 := 6, moduleIndex := 62 } : Ring).full = false := by decide +kernel
theorem witness_LastItemEndsTheJob :
    let j := { key := 1, phase := .admitted, items := [{ idx := 0 }] : Job }
    let s := { ready with jobs := [j] }
    let k := { key := 1, phase := .admitted, items := [{ idx := 0 }, { idx := 1 }] : Job }
    let t := { ready with jobs := [k] }
    s.live? 1 0 = some (j, { idx := 0 }) ∧ (∀ i ∈ j.items, i.done = true ∨ i.idx = 0) ∧
      t.live? 1 1 = some (k, { idx := 1 }) ∧ (∃ i ∈ k.items, i.done = false ∧ i.idx ≠ 1) := by decide +kernel
theorem witness_ImageAndRunJobsBegin : meets (world (descOf 0x02 0 1 []) .fetched) 0x02 State.admitImageUnload = true ∧
    meets (world (descOf 0x15 16 1 []) .fetched) 0x15 State.admitRun = true := by decide +kernel
/-- The smallest image: one variant of one core whose program is `END`, without weights; the digest is SHA3-256 of its section. -/
def smallVariant : Bytes := [1, 0, 1, 0, 1] ++ zeros 59 ++ [1] ++ zeros 127 ++ [0x05] ++ zeros 15
def smallDigest : Bytes :=
  [0xe8, 0x46, 0xa3, 0xd6, 0x2, 0x7a, 0x3c, 0xc, 0xa, 0xb2, 0x4d, 0x79, 0xf5, 0xc, 0x90, 0x7a] ++
  [0x94, 0xd1, 0xb1, 0xf1, 0x94, 0x7f, 0xe9, 0xc6, 0xa0, 0x5c, 0xc, 0xd4, 0xb8, 0xfb, 0x11, 0x8c]
def smallHead : Bytes :=
  [0x4B, 0x4F, 0x45, 0x4C, 0x42, 0x52, 0x45, 0x57, 1] ++ zeros 43 ++ [1] ++ zeros 203 ++
  [1, 0, 0, 0, 0, 0, 0, 0, 64, 1, 0, 0, 0, 0, 0, 0, 208] ++ zeros 15 ++ smallDigest
def smallImage : Bytes := smallHead ++ smallVariant
theorem slice_append (a b : Bytes) : slice (a ++ b) a.length b.length = b := by
  apply List.ext_getElem
  · simp [slice]
  · intro i h₁ h₂; simp [slice, List.getElem?_append_right, h₂]
def smallSection : Section := { kind := 1, off := 320, len := 208, digest := smallDigest, reserved := false }
theorem small_sections : sectionsOf smallImage = [smallSection] := by decide +kernel
theorem small_lengths : smallHead.length = 320 ∧ smallVariant.length = 208 := by decide +kernel
theorem small_bytes : smallSection.bytes smallImage = smallVariant := by
  have h := slice_append smallHead smallVariant
  rwa [small_lengths.1, small_lengths.2] at h
theorem small_1 : imgCheck1 smallImage = true := by
  simp only [imgCheck1, small_sections]; decide +kernel
theorem small_2 : imgCheck2 smallImage = true := by
  simp only [imgCheck2, small_sections, List.all_cons, small_bytes]; decide +kernel
theorem small_fields : field smallImage 0x0A 2 = 0 ∧ field smallImage 0x36 2 = 0 ∧ field smallImage 0x20 8 = 0 ∧ field smallImage 0x30 4 = 0 := by
  decide +kernel
theorem small_3 : imgCheck3 smallImage = true := by
  simp only [imgCheck3, small_fields]; decide
theorem small_variants : variantSections smallImage = [smallVariant] := by
  simp only [variantSections, small_sections, List.filter_cons, smallSection]; simp [← small_bytes, smallSection]
theorem small_regions : regionSection smallImage = [] := by
  simp only [regionSection, small_sections, smallSection]; rfl
theorem small_4 : imgCheck4 smallImage = true := by
  simp only [imgCheck4, small_variants, small_regions]; decide +kernel
theorem small_5 : imgCheck5 smallImage = true := by
  simp only [imgCheck5, small_variants]; decide +kernel
theorem small_ok : imgFail smallImage = none := by
  simp [imgFail, small_1, small_2, small_3, small_4, small_5, firstFail]
theorem witness_ImageAndRunJobsBegin_load :
    let s := { world (descOf 0x01 0 0 [(0x38, 8, 528)]) .fetched with host := { ready.host with mem := Memory.writeN [] 0 smallImage } }
    s.hostRead 0 528 = some smallImage ∧ s.writeOk = true ∧ imageUnits 0 ≤ s.unitsFree 0 := by decide +kernel
theorem witness_ImageAndRunJobsBegin_image : imgFail smallImage = none ∧ imageUnits (weightSection smallImage).length = imageUnits 0 ∧
    imgFail [] = some 0x10 := by
  refine ⟨small_ok, ?_, rfl⟩
  simp only [weightSection, small_sections]; rfl
theorem witness_GenerationJobsBegin :
    let new := [(0x30, 4, 2), (0x34, 4, 1), (0x38, 4, 1), (0x3C, 4, 1), (0x40, 4, 1), (0x4D, 1, 1)]
    let again := [(0x30, 4, 3), (0x34, 4, 1), (0x38, 4, 1), (0x3C, 4, 1), (0x40, 4, 1), (0x4C, 2, 0x101)]
    let s := world (descOf 0x03 0 1 new) .fetched
    let t := world (descOf 0x03 0 1 again) .fetched
    meets s 0x03 State.steepAdmission = true ∧ meets t 0x03 State.steepAdmission = true ∧ s.corpus? 2 = none ∧
      (s.job? 1).map (·.isResume) = some false ∧ (t.job? 1).map (·.isResume) = some true ∧
      meets (world (descOf 0x04 128 1 [(0x30, 4, 1), (0x34, 4, 0xFFFFFFFF)]) .fetched) 0x04 State.admitGenerate = true ∧
      meets (world (descOf 0x05 32 0 [(0x30, 4, 1), (0x34, 4, 0xFFFFFFFF)]) .fetched) 0x05 State.admitAttend = true := by decide +kernel
/-- The job of a type on collection 1. -/
def collJob (type size : Nat) (fs : List (Nat × Nat × Nat)) : State := world (descOf type size 0 ((0x30, 4, 1) :: fs)) .fetched
theorem witness_CollectionJobsBegin : ((collJob 0x07 16 []).coll? 1).map (·.recallers) = some [] ∧
    meets (collJob 0x07 16 []) 0x07 State.admitCollectionAppend = true ∧
    meets (collJob 0x08 8 []) 0x08 (fun s j => { whole := firstFail (s.collChecks j true), items := [], footprint := 0 }) = true ∧
    meets (collJob 0x09 32 []) 0x09 State.admitFilter = true ∧ meets (collJob 0x0A 16 [(0x34, 2, 1)]) 0x0A State.admitSearch = true ∧
    meets (collJob 0x0B 16 [(0x34, 2, 1024), (0x50, 2, 4096)]) 0x0B State.admitRecall = true ∧
    meets (collJob 0x0C 24 []) 0x0C State.admitFetch = true ∧ (collJob 0x0C 24 []).writeOk = true := by decide +kernel
/-- A schema of one column, named by buffer 0, whose entry is at 64. -/
theorem witness_CollectionJobsBegin_create :
    let s := { world (descOf 0x06 0 1 [(0x28, 1, 1), (0x30, 4, 2), (0x38, 2, 64), (0x3A, 2, 32), (0x3C, 1, 1)]) .fetched with
      host := { ready.host with mem := Memory.writeN [] 0 (fill 80 [(0, 8, 64), (8, 8, 16), (64, 1, 1)]) } }
    meets s 0x06 State.admitCollectionCreate = true := by decide +kernel
theorem witness_CollectionJobsBegin_items :
    let j := { key := 1, phase := .admitted, desc := descOf 0x08 8 0 [(0x30, 4, 1)], items := [{}] : Job }
    let s := { collJob 0x08 8 [] with jobs := [j] }
    let c : Coll := { id := 1, encoder := 1, columns := [{}], recs := [{ values := [none] }] }
    s.live? 1 0 = some (j, {}) ∧ s.coll? 1 = some c ∧ s.itemRec j 0 = some (zeros 8) ∧
      c.resolve (field (zeros 8) 0 8) = some ({ values := [none] }, none) ∧ (c.fetched (field (zeros 24) 0 8) (field (zeros 24) 0x14 1)).isSome = true := by
  decide +kernel
def tableJob (type size : Nat) (fs : List (Nat × Nat × Nat)) : State := world (descOf type size 0 ((0x30, 4, 1) :: fs)) .fetched
/-- Table 1's rule job, whose hyperparameter record at host address 64 holds the defaults. -/
def ruleJob : State :=
  let s := tableJob 0x0E 0 [(0x48, 8, 64)]
  { s with host := { s.host with mem := Memory.writeN [] 64 ((hyperDefault.map fun v => natLe 4 v.toNat).flatten ++ zeros 8) } }
theorem witness_TableJobsBegin : (tableJob 0x10 16 []).saving 1 = false ∧
    meets (world (descOf 0x0D 0 0 [(0x30, 4, 2), (0x34, 4, 32), (0x38, 8, 1), (0x43, 1, 1)]) .fetched) 0x0D State.admitTableCreate = true ∧
    meets ruleJob 0x0E State.admitTableRule = true ∧ meets (tableJob 0x0F 32 []) 0x0F State.admitBag = true ∧
    meets (tableJob 0x10 16 []) 0x10 (fun s j => s.admitRows j false) = true ∧
    meets (tableJob 0x11 16 [(0x34, 1, 1)]) 0x11 (fun s j => s.admitRows j true) = true ∧
    meets (tableJob 0x12 0 []) 0x12 State.admitTableSave = true ∧ meets (tableJob 0x13 0 []) 0x13 State.admitTableLoad = true ∧
    meets (world (descOf 0x14 0 0 [(0x30, 1, 3), (0x34, 4, 1)]) .fetched) 0x14 State.admitDrop = true ∧ table1.list.length ≤ 1 ∧
    ruleJob.ruleValues { desc := descOf 0x0E 0 0 [(0x48, 8, 64)] } = some hyperDefault := by decide +kernel

-- Leaves, steps, steeps

/-- A page whose check word is that of its body. -/
def checked (body : Bytes) : Bytes := body ++ crcBytes body
theorem crcBytes_length (b : Bytes) : (crcBytes b).length = 8 := rfl
theorem checked_crc (body : Bytes) (h : body.length = 18424) :
    (checked body).length = 18432 ∧ crcBytes ((checked body).take 18424) = slice (checked body) 18424 8 := by
  have s := slice_append body (crcBytes body)
  rw [h, crcBytes_length] at s
  refine ⟨by simp [checked, h, crcBytes_length], ?_⟩
  rw [show slice (checked body) 18424 8 = _ from s, ← h, checked, List.take_left']
  rfl
/-- The page of leaf 0 of space 0: format 1, zeros. -/
def leafBody : Bytes := [1] ++ zeros 18423
theorem leafBody_length : leafBody.length = 18424 := by
  simp only [leafBody, zeros, List.length_append, List.length_replicate, List.length_singleton]
theorem leaf_good : leafOk (checked leafBody) 0 0 0 0 = true := by
  have h := checked_crc leafBody leafBody_length
  simp only [leafOk, h, beq_self_eq_true, Bool.true_and]
  rfl
theorem centroid_good : centroidOk (checked (zeros 18424)) 0 (71 * 0) = true := by
  have h := checked_crc (zeros 18424) List.length_replicate
  simp only [centroidOk, h, beq_self_eq_true, Bool.true_and]
  rfl
/-- Read 1 in flight, of leaf 0 of space 0. -/
def reading (r : LeafRead) : State := { ready with reads := [r] }
theorem witness_LeafReadsEnd : (reading { key := 1 }).reads.find? (·.key == 1) = some { key := 1 } ∧
    leafOk [] 0 0 0 0 = false ∧ ({ rebuilding := true } : LeafRead).rebuilding = true ∧
    (let r : LeafRead := { key := 1, origBad := true, rebuildBad := some 3 }; (reading r).reads.find? (·.key == 1) = some r) := by decide +kernel
theorem witness_LeafReadsEnd_pages : leafOk (checked leafBody) 0 0 0 0 = true ∧ centroidOk (checked (zeros 18424)) 0 (71 * 0) = true ∧
    centroidOk [] 0 0 = false ∧ State.corpus? { ready with corpora := [{}] } 0 = some {} :=
  ⟨leaf_good, centroid_good, rfl, rfl⟩
/-- Job 1, a `GENERATE` that drives pot 0's steps, and a step loop. -/
def steps (l : StepLoop) : State := { ready with
  jobs := [{ key := 1, desc := desc 0x04 1, phase := .admitted, sliced := true }]
  pots := ready.pots.set 0 { st := 1, running := some 1, loop := l } }
theorem witness_StepBoundariesRun : ((steps {}).runningJob 0).map (fun j => (j.type, j.phase, j.sliced)) = some (0x04, .admitted, true) ∧
    ((steps { running := true }).runningJob 0).map ((steps { running := true }).stepOver 0) = some true ∧
    ((steps { running := true, queued := [{}] }).runningJob 0).map ((steps { running := true, queued := [{}] }).stepOver 0) = some false ∧
    ((steps { between := true }).pot 0).loop.between = true ∧ ready.runningJob 0 = none ∧ ready.strayBelt 0 = false ∧
    (ready.pot 0).loop.running = false ∧
    (let s := { steps { running := true } with jobs := [{ key := 2, desc := desc 0x04 1 }] }
     s.runningJob 0 = none ∧ s.strayBelt 0 = false ∧ (s.pot 0).loop.running = true ∧ s.jobs.any (fun j => j.pot == 0 && j.type == 0x04) = true) := by
  decide +kernel
theorem witness_StepBoundariesRun_tail :
    let s := { steps { growth := [(255, 0, 0, 0)] } with cups := [{ idx := 255 }], media := { bays := caddies 6 } }
    s.cup? 255 = some { idx := 255 } ∧ s.writeOk = true ∧ (255, 0, 0, 0) ∈ (s.pot 0).loop.growth ∧ (255, 0, 0, 1) ∉ (s.pot 0).loop.growth := by
  decide +kernel
/-- Job 1, a `STEEP` of corpus 1 with its commits at a stage, over a range of two layers. -/
def steeps (n stage layers : Nat) : State := { ready with
  media := { bays := caddies n }
  images := [model]
  colls := [{ id := 1, encoder := 1, columns := [{}] }]
  corpora := [{ id := 1, tokens := 1, layers := 2, coll := 1, range := (0, 2), job := some 1, mark := { stage := stage, layers := layers } }]
  jobs := [{ key := 1, phase := .admitted, sliced := true
             desc := descOf 0x03 0 1 [(0x20, 8, 64), (0x28, 1, 1), (0x30, 4, 1), (0x34, 4, 1), (0x3C, 4, 1), (0x40, 4, 1)] }]
  pots := ready.pots.set 0 { st := 1, running := some 1 }
  host := { ready.host with mem := Memory.writeN [] 0 (fill 80 [(0, 4, 1), (4, 4, 8), (8, 8, 1), (72, 8, 24)]) } }
theorem witness_SteepsCommitInOrder : ((steeps 5 0 0).steeping 1).isSome = true ∧ (steeps 5 0 0).writeOk = false ∧ (steeps 6 0 0).writeOk = true ∧
    ((steeps 6 1 0).steeping 1).map (·.2.mark.stage) = some 1 ∧ ((steeps 6 2 0).steeping 1).map (·.2.mark.stage) = some 2 ∧
    ((steeps 6 3 0).steeping 1).map (fun x => (Nat.max x.2.range.1 x.2.mark.layers + 1 < x.2.range.1 + x.2.range.2 : Bool)) = some true ∧
    ((steeps 6 3 1).steeping 1).map (fun x => (Nat.max x.2.range.1 x.2.mark.layers + 1 == x.2.range.1 + x.2.range.2 : Bool)) = some true ∧
    ((steeps 6 3 2).steeping 1).map (fun x => (x.2.range.1 + x.2.range.2 ≤ Nat.max x.2.range.1 x.2.mark.layers : Bool)) = some true ∧
    (steeps 6 0 0).coll? 1 = some { id := 1, encoder := 1, columns := [{}] } := by decide +kernel
/-- A record of one token and one null value: token count, length of its values, their null mask, the token. -/
theorem witness_SteepsCommitInOrder_records : (((steeps 6 0 0).steeping 1).map fun x =>
    match (steeps 6 0 0).steepRecords x.1 { id := 1, encoder := 1, columns := [{}] } model.vocab 1 with
    | .ok l => l.length == 1
    | .error _ => false) = some true := by decide +kernel

-- Collections and tables

/-- A pass of filter item 0 of job 1 that waits for one page, and a search item whose task runs. -/
def searching (x : Searching) : State := { ready with
  jobs := [{ key := 1, desc := descOf 0x0A 16 0 [(0x30, 4, 1)], phase := .admitted, items := [{}] }]
  colls := [{ id := 1 }]
  strains := [{ job := 1, coll := 1, pages := [(63, 8191, 0)] }]
  searches := [x]
  cores := ready.cores.set 0 { phys := some 0, run := some { job := 1, item := 0, kind := 0 } } }
def walking : Searching := { job := 1, coll := 1, hopLimit := 1, beam := [(0, 0, false)] }
theorem witness_CollectionEventsRun :
    let x : Strain := { job := 1, coll := 1, pages := [(63, 8191, 0)] }
    let s := searching walking
    let t := searching { walking with traversed := true }
    s.strains.find? (fun y => y.job == 1 && y.item == 0) = some x ∧ x.pages.find? (fun p => p.1 == 63 && p.2.1 == 8191) = some (63, 8191, 0) ∧
      s.search? 1 0 = some walking ∧ walking.isOver = false ∧ (s.coll? 1).isSome = true ∧
      t.search? 1 0 = some { walking with traversed := true } ∧ Searching.isOver { walking with traversed := true } = true ∧
      ((s.job? 1).bind fun j => s.itemRec j 0).isSome = true ∧ (s.coll? 1).map (·.recallers) = some [] ∧ bits (s.rs 0x1900) 36 32 ≠ 0 ∧
      (let u := { s with colls := [{ id := 1, recallers := [1] }] }; (u.coll? 1).map (·.recallers) = some [1]) := by decide +kernel
/-- Table 1 with row 5 under way to the shelf, and row 7 on it. -/
def shelf : Table := { table1 with shelf := [{ row := 5 }, { row := 7 }], redirect := [(5, .copy), (7, .shelf)] }
def shelved : State := { ready with tables := [shelf] }
theorem witness_ShelfMigrationsEnd : shelved.table? 1 = some shelf ∧ shelf.redirect.lookup 5 = some .copy ∧ shelf.redirect.lookup 6 ≠ some .copy ∧
    shelf.onShelf 7 = true := by decide +kernel
/-- An addend and a gradient that have arrived for rows of table 1, and an addend of a table that has gone. -/
def arrived : State := { shelved with
  tables := [{ shelf with redirect := [(7, .shelf)] }]
  embed := { arrivals := [{ table := 1, row := 6 }, { grad := true, table := 1, row := 7 }, { table := 2 }, { grad := true, table := 2 }] } }
theorem witness_ArrivalsAreApplied : (arrived.embed.takeable 0 false).isSome = true ∧ (arrived.embed.takeable 1 true).isSome = true ∧
    arrived.embed.takeable 2 false = some { table := 2 } ∧ arrived.embed.takeable 3 true = some { grad := true, table := 2 } ∧
    arrived.table? 2 = none ∧ (arrived.table? 1).isSome = true := by decide +kernel
/-- With the sketch's free over-count, a row that is on the shelf stays there; one below the threshold with no shelf space set stays in DRAM. -/
theorem witness_ArrivalsAreApplied_served :
    let s := { arrived with boot := { arrived.boot with settings := [(0x1900, 0)] } }
    (∃ v, (s.access 1 6).table? 1 = some v ∧ v.redirect.lookup 6 = none) ∧ (∃ v, (s.access 1 7).table? 1 = some v ∧ v.redirect.lookup 7 = some .shelf) := by
  simp [State.access, State.table?, State.shelfBytes, State.rs, arrived, shelved, shelf, table1, State.used, State.modEmbed, State.modTable, bits]
theorem witness_ArrivalsAreApplied_bags :
    let w : BagWait := { job := 1, item := 0, left := [1], acc := [] }
    let s := { ready with
      tables := [table1], jobs := [{ key := 1, desc := descOf 0x0F 32 0 [(0x30, 4, 1)] }], embed := { bags := [w, { w with item := 1, left := [1, 4] }] } }
    s.embed.bags.find? (fun x => x.job == 1 && x.item == 0) = some w ∧ (s.job? 1).isSome = true ∧ s.table? 1 = some table1 ∧
      (1 : Fin 5).val ∈ w.left ∧ w.left.erase 1 = [] ∧ ([1, 4] : List Nat).erase 4 ≠ [] ∧
      (∀ x ∈ s.embed.waits, ¬ (x.job = w.job ∧ x.item = w.item)) := by
  refine ⟨by decide +kernel, by decide +kernel, by decide +kernel, by decide, by decide, by decide, fun _ h => (nomatch h)⟩

-- Koelnu words and their dispatch

/-- A word from its fields, as the manual's tables place them: (lowest bit, value). -/
def word (fs : List (Nat × Nat)) : BitVec 128 := BitVec.ofNat 128 ((fs.map fun f => f.2 * 2 ^ f.1).sum)
/-- Core 5 runs job 1, at the one word of its program. -/
def atWord (w : BitVec 128) : State := { ready with
  images := [{ id := 1, variants := [{ code := [w] }] }]
  jobs := [{ key := 1, desc := desc 0x15 1, phase := .admitted, sliced := true }]
  cores := ready.cores.set 5 { phys := some 5, run := some { job := 1, image := 1 } } }
/-- The word decodes to this operation under an empty header, and core 5 takes it. -/
def goesIn (w : BitVec 128) (op : KOp) : Bool := decodeK w == some ⟨{}, op⟩ && (atWord w).takes 5 ⟨{}, op⟩ && !(atWord w).badWord 5
theorem witness_FrontInstructionsAreDispatched : goesIn (word []) (.nop 0) = true ∧
    goesIn (word [(0, 0x01), (48, 0xFFFF), (64, 7)]) (.group 0xFFFF 7) = true ∧ goesIn (word [(0, 0x02)]) .point = true ∧
    goesIn (word [(0, 0x03), (48, 0x1F)]) (.fence 0x1F) = true ∧ goesIn (word [(0, 0x05)]) .endInv = true ∧
    goesIn (word [(0, 0x04), (48, 0xFFFF), (64, 1)]) (.loop 0xFFFF 1) = true ∧
    goesIn (word [(0, 0x06), (48, 15), (52, 2 ^ 48 - 1), (100, 0xFFFF)]) (.addr 15 0xFFFFFFFFFFFF 0xFFFF) = true ∧
    goesIn (word [(0, 0x07), (48, 3), (52, 0xFFFFFFFF)]) (.addri 3 0xFFFFFFFF) = true ∧
    goesIn (word [(0, 0x41), (48, 7), (52, 1), (68, 2), (84, 3)]) (.shape 7 1 2 3) = true ∧
    goesIn (word [(0, 0x42), (48, 7), (52, 1), (68, 2), (84, 3)]) (.stride 7 1 2 3) = true ∧
    goesIn (word [(0, 0x43), (48, 2), (52, 1), (54, 2), (56, 6), (66, 9), (70, 8)])
      (.spout { sci := 2, scale := 1, bias := 2, act := 6, scalead := 9, biasad := 8 }) = true ∧
    goesIn (word [(0, 0x44), (48, 2), (52, 0x3F800000), (84, 0x47800000)]) (.spoutv 2 0x3F800000 0x47800000) = true ∧
    goesIn (word [(0, 0x80), (48, 31), (53, 0xFFFF)]) (.tkset 31 0xFFFF) = true ∧
    goesIn (word [(0, 0x81), (48, 31), (53, 1)]) (.semacq 31 1) = true ∧ goesIn (word [(0, 0x82), (48, 31), (53, 0xFFFF)]) (.semrel 31 0xFFFF) = true := by
  decide +kernel
/-- A word that is uncorrectable in DRAM, and a word that is not the one at the program counter. -/
theorem witness_FrontInstructionsAreDispatched_bad :
    let s := { atWord (word [(0, 0x02)]) with images := [{ id := 1, variants := [{ code := [word [(0, 0x02)]] }], badCode := [(0, 0)] }] }
    s.takes 5 ⟨{}, .point⟩ = true ∧ s.badWord 5 = true ∧ s.takes 5 ⟨{}, .endInv⟩ = false := by decide +kernel
/-- The vector operations of Table 7.9 have the opcodes 0x20 to 0x32 in its order. -/
theorem witness_UnitInstructionsEnterTheirQueues_vector : ([.vadd, .vmul, .vfma, .vmax, .vmin, .vcmp, .vsel, .vcvt, .vexp, .vln, .vrcp, .vrsq,
      .vtanh, .vsum, .vrmax, .vtopk, .vpart, .vmerge, .vsample].zipIdx.all fun (v, i) =>
    goesIn (word [(0, 0x20 + i), (48, 1), (52, 2), (60, 0xFFFFF), (84, 2)]) (.vec v { dad := 1, aad := 2, n1 := 0xFFFFF, dfmt := 2 })) = true := by
  decide +kernel
theorem witness_UnitInstructionsEnterTheirQueues :
    goesIn (word [(0, 0x40), (48, 1), (52, 2), (56, 3), (60, 4), (63, 5), (70, 2), (73, 2)])
      (.mm { sad := 1, xad := 2, dad := 3, shp := 4, spc := 5, sfmt := 2, xfmt := 2 }) = true ∧
    goesIn (word [(0, 0x60), (48, 1), (52, 2), (56, 2 ^ 24 - 1), (80, 5), (83, 1), (84, 31), (89, 255), (97, 1), (103, 1)])
      (.mov { src := 1, dst := 2, len1 := 0xFFFFFF, pfmt := 5, dw := { en := true, tk := 31, cnt := 255 }, xs := { en := true, cnt := 1 } }) = true ∧
    goesIn (word [(0, 0x61), (48, 1), (52, 2), (56, 7), (72, 0x1FF), (88, 3), (104, 4), (120, 1)])
      (.mov2d { src := 1, dst := 2, row1 := 7, rows1 := 0x1FF, sstr := 3, dstr := 4, pfmt := 1 }) = true ∧
    goesIn (word [(0, 0x62), (48, 1), (52, 2), (56, 4095), (68, 1)]) (.leafrd { list := 1, dst := 2, count1 := 4095, dw := { en := true } }) = true ∧
    goesIn (word [(48, 1)]) (.nop 1) = true ∧ goesIn (word [(48, 2)]) (.nop 2) = true ∧ goesIn (word [(48, 3)]) (.nop 3) = true ∧
    goesIn (word [(48, 4)]) (.nop 4) = true ∧ goesIn (word [(48, 5)]) (.nop 5) = true := by decide +kernel
/-- The three words of Table 7.7, as it writes them out. -/
theorem test_decode_table_7_7 :
    decodeK 0x000000003FF1FFF002F0000000000041 = some ⟨{}, .shape 0 0x002F 0x1FFF 0x03FF⟩ ∧
    decodeK 0x00000000000000100810000000000043 = some ⟨{}, .spout { scale := 1, ofmt := 1, scalead := 4 }⟩ ∧
    decodeK 0x0000000000114000032100010C004140 = some ⟨{ wen := true, wtk := 0, wcnt := 1, sen := true, stk := 1, scnt := 1 },
      .mm { sad := 1, xad := 2, dad := 3, xw := { en := true, tk := 2, cnt := 1 } }⟩ := by decide +kernel
/-- A reserved bit, a disabled wait with a counter, an unassigned opcode and a zero fence mask are illegal encodings. -/
theorem test_decode_illegal : decodeK (word [(0, 0x02), (48, 1)]) = none ∧ decodeK (word [(0, 0x02), (9, 1)]) = none ∧
    decodeK (word [(0, 0x08)]) = none ∧ decodeK (word [(0, 0x03)]) = none ∧ decodeK (word [(0, 0x81)]) = none ∧
    decodeK (word [(48, 6)]) = none ∧ decodeK (word [(0, 0x02), (44, 1)]) = none := by decide +kernel
/-- The common header of Table 7.1. -/
theorem test_decode_header :
    decodeHdr (word [(8, 1), (9, 31), (14, 255), (22, 8), (26, 1), (27, 1), (32, 2), (40, 3)]) =
      some { wen := true, wtk := 31, wcnt := 255, wexp := 8, sen := true, stk := 1, scnt := 2, sexp := 3 } := by decide +kernel

-- Front-end instructions that fire

/-- Core 5 of `atWord`, changed. -/
def withCore (f : Core → Core) : State := { atWord 0 with cores := (atWord 0).cores.set 5 (f (atWord 0).cores[5]) }
/-- Core 5 with an operation at its front, under a header. -/
def fronts (h : KHdr) (op : KOp) (f : Core → Core) : State := withCore fun k => { f k with front := some { word := ⟨h, op⟩ } }
def count16 (n : BitVec 8) (e : BitVec 4) : KHdr := { wen := true, wcnt := n, wexp := e }
theorem witness_FrontInstructionsFire :
    let s := fronts {} .point id
    s.cores[(5 : Fin 48)].front.isSome = true ∧ s.cores[(5 : Fin 48)].run.isSome = true ∧ s.cores[(5 : Fin 48)].unitsIdle = true ∧
      s.cores[(5 : Fin 48)].keep = none ∧ s.cores[(5 : Fin 48)].hdrReady {} = true ∧
      65535 < (count16 1 15).wcnt.toNat * 2 ^ (count16 4 15).wexp.toNat * 2 ∧
      65535 < (count16 2 15).wcnt.toNat * 2 ^ (count16 2 15).wexp.toNat ∧
      (count16 255 8).wcnt.toNat * 2 ^ (count16 255 8).wexp.toNat ≤ 65535 ∧
      (fronts (count16 255 8) .point id).cores[(5 : Fin 48)].hdrReady (count16 255 8) = false ∧
      (fronts {} .point fun k => { k with keep := some (1, 1, 1) }).cores[(5 : Fin 48)].keep ≠ none ∧
      (fronts {} .endInv fun k => { k with qVector := [{ word := ⟨{}, .point⟩ }] }).cores[(5 : Fin 48)].unitsIdle = false := by decide +kernel
theorem witness_FrontInstructionsFire_fence :
    let k := (fronts {} (.fence 8) fun k => { k with qVector := [{ word := ⟨{}, .point⟩ }] }).cores[(5 : Fin 48)]
    (8 : BitVec 5).getLsbD 3 = true ∧ k.qVector ≠ [] ∧ (16 : BitVec 5).getLsbD 3 = false ∧ k.qMove = [] ∧ k.moves = [] ∧ k.mms = [] := by decide +kernel
theorem witness_FrontInstructionsFire_group : (ready.obs.groupEn = false) ∧ ((atWord 0).job? 1).isSome = true ∧
    ((atWord 0).cores[(5 : Fin 48)].run).map (·.wrote) = some false := by decide +kernel
theorem witness_FrontInstructionsFire_semaphores :
    let s := atWord 0
    let waits := fun (l : List (Nat × Nat × Nat)) (n : Nat) => ({ s with pots := s.pots.set 0 { s.pots[0] with
      sems := s.pots[0].sems.set 31 { count := n, waiting := l } } } : State)
    (∀ w ∈ (s.sem 0 31).waiting, w.1 ≠ 5) ∧ (s.job? 1).isSome = true ∧ (waits [(5, 1, 1)] 1).sem 0 31 = { count := 1, waiting := [(5, 1, 1)] } ∧
      1 ≤ ((waits [(5, 1, 1)] 1).sem 0 31).count ∧ s.cores[(5 : Fin 48)].keep = none ∧ ((waits [(5, 1, 2)] 1).sem 0 31).count < 2 ∧
      65535 < ((waits [] 65535).sem 0 31).count + 1 ∧ ((waits [] 65534).sem 0 31).count + 1 ≤ 65535 ∧ (s.pot 0).loan = none := by decide +kernel
/-- With no token wanted, `TKSET` waits for an instruction in a queue that signals its counter, and not for one that signals another. -/
theorem witness_TksetSetsItsCounter :
    let s := fronts {} (.tkset 31 9) fun k => { k with qVector := [{ word := ⟨{ sen := true, stk := 31 }, .point⟩ }] }
    tooMany {} = false ∧ s.cores[(5 : Fin 48)].hdrReady {} = true ∧
      (∃ e ∈ s.cores[(5 : Fin 48)].qVector, e.word.hdr.sen = true ∧ e.word.hdr.stk = 31) ∧
      (fronts {} (.tkset 31 9) id).cores[(5 : Fin 48)].qVector = [] ∧ (word [(0, 0x80), (48, 31)]).toNat % 256 = 0x80 ∧
      (word [(0, 0x80), (69, 1)]).toNat / 2 ^ 69 ≠ 0 := by decide +kernel

-- Units

theorem witness_VectorOperationsFormTheirResults : (0 : Nat) < 1 ∧ (some (1, 2, [3]) : Option (Nat × Nat × List Nat)) = some (1, 2, [3]) := by decide
/-- Operands in the core store and apart; one beyond its end; one that overlaps the destination in part. -/
theorem witness_VectorInstructionsWriteTheirRow :
    let inside := fun (v : BitVec 48) (len : Nat) => v.toNat / 2 ^ 44 = 0 ∧ v.toNat % 2 ^ 44 + len ≤ coreBytes
    let o : VOps := {}
    VecOp.vadd ∉ [VecOp.vtopk, .vpart, .vmerge, .vsample] ∧ inside 20971516 (vecABytes .vadd o 1) ∧ ¬ inside 20971517 (vecABytes .vadd o 1) ∧
      ¬ inside 0x100000000000 (vecABytes .vadd o 1) ∧ vecBBytes .vadd o 1 ≠ 0 ∧ vecBBytes .vexp o 1 = 0 ∧
      apart 0 (vecDBytes .vadd o 1 0) 4 (vecABytes .vadd o 1) = true ∧ apart 0 (vecDBytes .vadd o 1 0) 2 (vecABytes .vadd o 1) = false ∧
      apart 0 (vecDBytes .vadd o 1 0) 0 (vecABytes .vadd o 1) = true := by decide +kernel
/-- An `MM` of M 4, K 512, N 128 in progress on core 5: one pass of one tile. -/
def product (r : MmRun) : State := withCore fun k => { k with mms := [r], qLoader := [r.q], qArrays := [r.q], qSpout := [r.q] }
def mmEntry (k : Nat) : QEntry := { word := ⟨{}, .mm { sfmt := 2, xfmt := 2 }⟩, shape := { valid := true, m := 4, k := k, n := 128 } }
/-- A fold of one pass, and one of more. -/
theorem witness_CoreEnginesAdvance_folds : (foldOf (mmEntry 1)).passes = 1 ∧ 1 < (foldOf (mmEntry 100000)).passes ∧ (foldOf (mmEntry 1)).tiles = 1 := by
  decide +kernel
theorem witness_CoreEnginesAdvance :
    let load := { q := mmEntry 1, loaderOn := true : MmRun }
    let land := { load with arraysOn := true, loaded := 1 }
    let drain := { land with spoutOn := true, landed := 1 }
    (product load).cores[(5 : Fin 48)].loadingRun = some load ∧ load.loaded + 1 = (foldOf load.q).passes ∧
      (product land).cores[(5 : Fin 48)].landingRun = some land ∧ land.landed + 1 = (foldOf land.q).passes ∧
      (product drain).cores[(5 : Fin 48)].drainingRun = some drain ∧ drain.drained + 1 = (foldOf drain.q).tiles ∧
      (((product drain).drainTile 5 drain).core 5).mms ≠ [] ∧
      (let long := { load with q := mmEntry 100000 }
       (product long).cores[(5 : Fin 48)].loadingRun = some long ∧ long.loaded + 1 < (foldOf long.q).passes) ∧
      (let long := { land with q := mmEntry 100000 }
       (product long).cores[(5 : Fin 48)].landingRun = some long ∧ long.landed + 1 < (foldOf long.q).passes) := by decide +kernel
theorem witness_CoreEnginesAdvance_tiles :
    let q := { mmEntry 1 with shape := { valid := true, m := 4, k := 1, n := 1000 } }
    let drain := { q := q, loaderOn := true, arraysOn := true, spoutOn := true, loaded := 2, landed := 2 : MmRun }
    (product drain).cores[(5 : Fin 48)].drainingRun = some drain ∧ drain.drained + 1 < (foldOf drain.q).tiles := by decide +kernel
theorem witness_CoreEnginesAdvance_idle : (atWord 0).cores[(5 : Fin 48)].loadingRun = none ∧ (atWord 0).cores[(5 : Fin 48)].landingRun = none ∧
    (atWord 0).cores[(5 : Fin 48)].drainingRun = none ∧ (atWord 0).move? 5 0 = none ∧
    (let m := { word := ⟨{}, .point⟩ : Move }; (withCore fun k => { k with moves := [m] }).move? 5 0 = some m ∧ m.leaves = [] ∧ m.peers = []) := by
  decide +kernel
theorem witness_CoreEnginesAdvance_limit : (atWord 0).coresOn = true ∧ (atWord 0).cores[(5 : Fin 48)].parked = false ∧
    ((atWord 0).cores[(5 : Fin 48)].run).map (fun r => (r.ended, r.kind)) = some (false, 1) ∧ (atWord 0).cores[(5 : Fin 48)].moves = [] ∧
    ((onCore (runs 0x0A true) true).cores[(0 : Fin 48)].parked = true) ∧
    ((searching walking).cores[(0 : Fin 48)].run).map (·.kind) = some 0 := by decide +kernel
theorem witness_OverrunsAreCountedNotFailed : (atWord 0).cores[(5 : Fin 48)].run.isSome = true := by decide +kernel

-- Media

/-- Six caddies, a buffered block of namespace 1, and what is on flash. -/
def flash (gs : List Group) (ops : List MediaOp) : State := { storage 6 with
  nvme := { (storage 6).nvme with buffer := [{ nsid := 1, lba := 9, data := zeros 8, seq := 1 }] }
  media := { bays := caddies 6, groups := gs, ops := ops } }
theorem witness_BufferedBlocksAreProgrammed : ((flash [] []).unprogrammed 1 9).isSome = true ∧ (flash [] []).writeOk = true ∧
    (flash [] []).boot.phase = .ready ∧ (flash [] []).placeable 304895 0 true = true ∧ (flash [] []).placeable 304896 0 true = false ∧
    (flash [] []).group? 304895 = none ∧ 1524 ≤ (flash [] []).freeGroups ∧ (flash [] []).unerased 304895 = false ∧
    (flash [] []).unprogrammed 1 8 = none ∧
    (flash [{ pos := 3, st := .openPslc, pslc := true, pages := 767 }] []).placeable 3 767 true = true ∧
    (flash [{ pos := 3, st := .openPslc, pslc := true, pages := 768 }] []).placeable 3 768 true = false := by decide +kernel
/-- A die operation in flight on bay 5. -/
def dieOp (kind : Nat) (f : MediaOp → MediaOp) : MediaOp := f { key := 1, kind := kind, bay := 5, group := 3 }
theorem witness_DieOperationsEnd : (∀ kind < 3, ((flash [] [dieOp kind id]).media.ops.take 131072).find? (fun x => x.key == 1) = some (dieOp kind id)) ∧
    (dieOp 0 fun o => { o with tries := 3 }).tries < 4 ∧ 4 ≤ (dieOp 0 fun o => { o with tries := 4 }).tries ∧
    (dieOp 2 fun o => { o with suspended := true }).suspended = true ∧ (dieOp 2 fun o => { o with suspends := 11 }).suspends < 12 ∧
    12 ≤ (dieOp 2 fun o => { o with suspends := 12 }).suspends ∧ (dieOp 2 id).bay < 8 := by decide +kernel
theorem witness_DieOperationsEnd_timeouts :
    let s := fun (n : Nat) => (flash [] [dieOp 0 id]).modBay 5 fun b => b.modBlock 3 fun x => { x with timeouts := n }
    let u := fun n => (s n).modBay 5 fun b => b.modBlock (b.phys 3) fun x => { x with timeouts := x.timeouts + 1 }
    (((u 0).bay 5).block (((u 0).bay 5).phys 3)).timeouts < 2 ∧ 2 ≤ (((u 1).bay 5).block (((u 1).bay 5).phys 3)).timeouts := by decide +kernel
/-- A closed group with one valid page, and one without. -/
def held3 : Group := { pos := 3, st := .closed, pslc := true, valid := [(0, .journal)], pages := 768, seq := 8 }
def empty4 : Group := { pos := 4, st := .closed, pages := 3072, seq := 16 }
theorem witness_GroupsAreMovedAndErased :
    let s := flash [held3, empty4] []
    s.writeOk = true ∧ s.boot.phase = .ready ∧ s.power.st < 3 ∧
      s.media.groups.find? (fun x => x.st == .closed && x.valid.isEmpty) = some empty4 ∧
      (flash [held3] []).media.groups.find? (fun x => x.st == .closed && x.valid.isEmpty) = none ∧ 6098 ≤ (flash [held3] []).freeGroups ∧
      s.group? 3 = some held3 ∧ held3.valid ≠ [] ∧ (∀ t ∈ s.media.stripes, t.group ≠ 3) ∧ s.placeable 7 0 false = true ∧
      0 + held3.valid.length ≤ 3072 ∧ s.movable 3 = true ∧ (flash [held3] []).gcVictim = some held3 := by decide +kernel
/-- Reads of a block of a group that may be moved: at the limits of Table 13.9's two modes and one below each. -/
theorem witness_GroupsAreMovedAndErased_reads :
    let s := fun (n : Nat) (p : Bool) => (flash [held3] []).modBay 5 fun b => b.modBlock 3 fun x => { x with reads := n, pslc := p }
    let b := fun n p => ((s n p).bay 5).block (((s n p).bay 5).phys 3)
    (b 500000 true).reads = 500000 ∧ (b 59999 false).reads = 59999 ∧ (b 60000 false).pslc = false ∧ (b 499999 true).pslc = true ∧
      (s 60000 false).movable 3 = true := by decide +kernel
/-- More groups than leave 6,098 free ones. -/
theorem witness_GroupsAreMovedAndErased_full : (flash (List.replicate 298799 held3) []).freeGroups < 6098 := by
  simp only [State.freeGroups, flash, List.length_replicate]; omega
theorem witness_JournalAndCheckpointsAreKept :
    let s := { flash [] [] with media := { (flash [] []).media with journal := [1] } }
    s.writeOk = true ∧ s.media.journal ≠ [] ∧ (storage 5).writeOk = false ∧ (flash [] []).media.journal = [] := by decide +kernel

-- Caddies

/-- A module whose bay 7 holds what is given. -/
def bay7 (b : Bay) : State := { storage 6 with media := { bays := (caddies 6).set 7 b } }
theorem witness_CaddiesAreBroughtUp : (bay7 {}).media.bays[(7 : Fin 8)].present = false ∧ (bay7 (worksIn 7)).media.bays[(7 : Fin 8)].present = true ∧
    (bay7 { present := true, stage := .powering }).media.bays[(7 : Fin 8)].stage = .powering ∧ 8 ≤ (8 : Fin 13).val ∧ (7 : Fin 13).val < 8 ∧
    (bay7 { present := true, stage := .linked }).media.bays[(7 : Fin 8)].stage = .linked ∧
    (let i : CaddyIdent := {}; i.magicOk = true ∧ i.formatOk = true ∧ i.compat = 1 ∧ i.keyDigestOk = true ∧ i.chainOk = true ∧ i.sigOk = true) ∧
    (bay7 {}).media.bays[(7 : Fin 8)].stage = .idle ∧ (bay7 (worksIn 7)).media.bays[(7 : Fin 8)].stage = .up := by decide +kernel
theorem witness_CaddiesAreBroughtUp_class :
    let s := bay7 { present := true, stage := .authentic }
    s.media.bays[(7 : Fin 8)].stage = .authentic ∧ s.classOf 7 { membership := some (1, 7, 0) } = .foreign ∧ s.classOf 7 {} = .blank ∧
      s.classOf 7 { membership := some (0, 7, 0), wearUsed := 99 } = .returning ∧ s.classOf 7 { membership := some (0, 7, 0), wearUsed := 100 } = .returning ∧
      s.classOf 7 { membership := some (0, 6, 0) } = .stale := by decide +kernel
theorem witness_CaddiesLeave : (bay7 (worksIn 7)).sec.lifecycle = .operational ∧ (worksIn 7).present = true ∧ (worksIn 7).st ≠ 7 ∧
    (worksIn 7).st ≠ 5 ∧ (worksIn 7).st = 1 ∧ (worksIn 7).stage ≠ .idle ∧ (bay7 { present := true, st := 4 }).media.bays[(7 : Fin 8)].st = 4 ∧
    (bay7 { present := true, st := 5 }).media.bays[(7 : Fin 8)].st = 5 ∧ (bay7 { present := true, safe := true }).bayPower = true ∧
    (bay7 { present := true, tripped := true }).media.bays[(7 : Fin 8)].stage = .idle ∧ (bay7 {}).media.bays[(7 : Fin 8)].safe = false := by
  decide +kernel
theorem witness_CaddiesLeave_quiet :
    let s := bay7 { worksIn 7 with removing := true }
    s.media.bays[(7 : Fin 8)].removing = true ∧ (∀ o ∈ s.media.ops, o.bay ≠ (7 : Fin 8).val) ∧
      (∃ o ∈ (flash [] [{ bay := 7 }]).media.ops, o.bay = (7 : Fin 8).val) ∧ State.reset.sec.lifecycle = .blank := by
  refine ⟨by decide +kernel, fun _ h => (nomatch h), by decide +kernel, rfl⟩
theorem witness_RebuildsWalkTheGroups :
    let s := { bay7 { worksIn 7 with rebuild := some 304895, absent := true } with
      media := { bays := (caddies 6).set 7 { worksIn 7 with rebuild := some 304895, absent := true }, rebuilds := [7] } }
    s.media.bays[(7 : Fin 8)].rebuild = some 304895 ∧ 304895 < 304896 ∧ s.media.rebuilds = (7 : Fin 8).val :: [] ∧
      s.media.bays[(7 : Fin 8)].isWritable = true ∧ 6 ≤ (s.readables.filter (· != (7 : Fin 8).val)).length ∧ s.power.st < 3 ∧ s.boot.phase = .ready ∧
      (worksIn 7).stage ≠ .powering ∧ (11 : Fin 12).val ∉ (worksIn 7).lanesOut ∧ 9 ≤ (worksIn 7).lanes ∧
      ({ worksIn 7 with lanes := 8 } : Bay).lanes ≤ 8 ∧ 11 ∈ ({ worksIn 7 with lanesOut := [11] } : Bay).lanesOut := by decide +kernel

-- Peer links

/-- Port 0 as given, of a module that is member 0 of group 77 with member 1 behind port 0. -/
def linked (p : Port) : State := { ready with
  boot := { ready.boot with settings := [(0x1800, BitVec.ofNat 64 77), (0x1808, 1)] }
  ports := ready.ports.set 0 p }
def h01 : PktHdr := { src := 1, dst := 0, groupId := 77, xfer := 4 }
theorem witness_PortsTrain : (linked {}).portAllowed 0 = true ∧
    State.portAllowed { ready with boot := State.reset.boot } 0 = false ∧ (linked {}).groupId = 77 ∧ (linked {}).portOrdinal 0 = 1 ∧
    (linked {}).self = 0 ∧ (linked {}).portDigest 0 = 0 ∧ ({ own := 1, expects := 0, groupId := 77 } : HelloPkt).fwMajor = 4 ∧
    (let s := { linked {} with boot := { ready.boot with settings := [(0x1800, BitVec.ofNat 64 77), (0x1808, 1), (0x1828, 5)] } }
     s.portDigest 0 ≠ 0 ∧ s.groupId = 77 ∧ s.portOrdinal 0 = 1) ∧ 4 ≤ (4 : Fin 9).val := by decide +kernel
theorem witness_PortsTrain_states :
    let p : Port := { st := .training, helloDigest := some 9 }
    let q : Port := { st := .retraining, helloDigest := some 9, authed := true }
    (linked p).ports[(0 : Fin 4)].st = .training ∧ (linked p).ports[(0 : Fin 4)].helloDigest = some 9 ∧ p.authed = false ∧
      (linked q).ports[(0 : Fin 4)].st = .retraining ∧ q.authed = true ∧ q.helloDigest ≠ none ∧ ({} : Port).st = .down := by decide +kernel
/-- Port 0 up, with what is given. -/
def upPort (f : Port → Port) : Port := f { st := .up, lanes := 255, ordinal := 1, present := true, authed := true, helloDigest := some 0 }
theorem witness_FlitsAreTakenInSequence : (linked (upPort id)).ports[(0 : Fin 4)].st = .up ∧ (upPort id).fails < 7 ∧
    7 ≤ (upPort fun p => { p with fails := 7 }).fails ∧ (upPort id).rxSeq = ({} : FlitIn).seq ∧ ({ seq := 4095 } : FlitIn).seq ≠ (upPort id).rxSeq ∧
    (upPort id).lanes.getLsbD (7 : Fin 8) = true ∧ (upPort fun p => { p with lanes := 127 }).lanes.getLsbD (7 : Fin 8) = false ∧
    (linked { st := .retraining }).ports[(0 : Fin 4)].st = .retraining := by decide +kernel
theorem witness_StatusMakesPeersPresent :
    let s := linked (upPort id)
    s.ports[(0 : Fin 4)].st = .up ∧ (h01.reserved = false ∧ h01.groupId = s.groupId ∧ h01.dst = s.self ∧ h01.src = s.ports[(0 : Fin 4)].ordinal) ∧
      ({ h01 with src := 2 } : PktHdr).src ≠ s.ports[(0 : Fin 4)].ordinal ∧ (s.pot s.servingPot).loop.count = 0 ∧
      (1 : Nat) ≠ (s.pot s.servingPot).loop.count := by decide +kernel
/-- Port 0 with a transfer announced to the peer, and one from it. -/
def moving (inn : XferIn) : State := linked (upPort fun p => { p with
  out := [{ tag := 4, desc := { kind := 1, total := 8 }, data := zeros 8 }], inn := [{ inn with tag := 4 }] })
theorem witness_TransfersRun :
    let s := moving { granted := 8, desc := { kind := 2, total := 8 } }
    s.announceFail 1 { kind := 1, total := 8 } = none ∧ (s.announceFail 1 { kind := 99 }).isSome = true ∧
      (s.ports[(0 : Fin 4)].out.find? (fun x => x.tag == h01.xfer && !x.standing)).isSome = true ∧ 1 ≤ ({ h01 with arg := 1048576 } : PktHdr).arg ∧
      (s.inn? 0 h01.xfer).map (fun x => (x.withheld, x.got, min x.granted x.desc.total)) = some (false, h01.arg, 8) ∧ (zeros 8).length = 8 ∧
      s.inn? 0 5 = none ∧ (s.ports[(0 : Fin 4)].out.find? fun x => x.tag == 4 && x.desc.kind == 1 && x.granted == 0 && !x.standing).isSome = true ∧
      s.ports[(0 : Fin 4)].out.find? (fun x => x.tag == 5 && !x.standing) = none ∧
      ((moving { withheld := true }).inn? 0 4).map (·.withheld) = some true := by decide +kernel

-- Registers, trace, probe

/-- PF1's snapshot fields with a length, and whether one runs. -/
def snap (len : BitVec 32) (busy : Bool) : State := { ready with host := { ready.host with
  numVfs := 8, snaps := ready.host.snaps.set 0 { addr := 0x1000, len := len, mask := 1, busy := busy } } }
theorem witness_ShortSnapshotsAndBusyFields : (snap 63 false).host.snaps[(0 : Fin 9)].len.toNat < 64 ∧ (snap 63 false).boot.up = true ∧
    (8 : Fin 9).val ≤ (snap 63 false).host.numVfs ∧ (63 : BitVec 64).toNat % 2 ^ 32 < 64 ∧ (snap 64 true).host.snaps[(0 : Fin 9)].busy = true := by
  decide +kernel
theorem witness_RegistersAndSidebandAct : 64 ≤ (snap 64 false).host.snaps[(0 : Fin 9)].len.toNat ∧ ready.sidebandUp = true ∧ State.reset.sidebandUp = false ∧
    ready.boot.up = true ∧ ¬ (4 = 8 ∧ 2 % 8 = 0) ∧ ¬ (4 = 4 ∧ 2 % 4 = 0) ∧
    (let reach := fun o : Nat => o < 0x80 ∨ (0x100 ≤ o ∧ o < 0x180); reach 0x78 ∧ reach 0x178 ∧ ¬ reach 0x80 ∧ ¬ reach 0x180) ∧
    (phase .failed).sidebandUp = true ∧ (phase .failed).boot.up = false := by decide +kernel
/-- `ready` in a debug level, with trace running from every source or not. -/
def traced (d : Debug) (on : Bool) : State := { ready with sec := { ready.sec with debug := d }, obs := { tracing := on, mask := BitVec.allOnes 67 } }
theorem witness_TraceRuns : (traced .service true).traceAllowed = true ∧ (traced .service true).obs.tracing = true ∧
    (traced .closed false).traceAllowed = false ∧ (traced .opened true).obs.mask.getLsbD 15 = true ∧ (traced .opened true).obs.dropped = [] ∧
    ((traced .opened true).obs.buffer.filter fun x => x.source == 15).length < 255 ∧ (traced .opened true).sidebandUp = true ∧
    (traced .opened false).obs.tracing = false := by decide +kernel
theorem witness_ProbeAccessFollowsTheDebugLevel : (traced .closed false).sidebandUp = true ∧ (traced .closed false).sec.debug = .closed ∧
    (traced .service false).sec.debug ≠ .closed ∧ (traced .opened false).sec.debug = .opened ∧ (0x78 < 0x80 ∧ 0x78 % 8 = 0) ∧
    (let s := { traced .opened false with cores := ready.cores.set 47 { phys := some 51 } }; s.mappedTo (51 : Fin 52).val = some (47 : Fin 48).val) ∧
    20 * 2 ^ 20 < 20 * 2 ^ 20 - 1 + 2 ∧ 20 * 2 ^ 20 - 1 + ([7] : Bytes).length ≤ 20 * 2 ^ 20 := by decide +kernel

-- Terms that no interface can send, one or more for each check of WellFormed.lean

def refused (is : List Instr) : Bool := is.all fun i => i.wellFormed == false
def big : Nat := 2 ^ 64
theorem test_ill_formed_registers : refused [.sqTailDoorbell .pf1 0 0 0 0 [], .sqTailDoorbell .pf1 (2 ^ 52) 0 4 0 [], .sqTailDoorbell .pf1 0 0x1000 4 0 [], .sqTailDoorbell .pf1 0 0 4 0 [(big, 0)],
    .cqHeadDoorbell .pf1 0 0x100 9 0, .cqHeadDoorbell .pf1 0 0x1000 4 0, .eventHeadDoorbell .pf1 0x200 0 0, .eventHeadDoorbell .pf1 big 4 0, .registerWrite .pf1 big 4 0, .registerWrite .pf1 0 9 0, .sidebandRead big, .sidebandWrite big 0] = true := by decide +kernel
theorem test_ill_formed_results : refused [.steepCheckpointCommit 0 { rows := [{ key := [], value := [] }] }, .steepCheckpointCommit 0 { outs := [{ token := 0, head := 0, tokens := 0, lam := 0, o := [] }] },
    .strainerPageEval 0 0 0 0 (some []), .searchExpansion 0 0 (some []), .stepBoundary 0 [{ cup := 256, rows := [], logits := [] }] [],
    .stepBoundary 0 [{ cup := 0, rows := [(0, 0, { key := [], value := [] })], logits := [] }] [], .stepBoundary 0 [] [{ cup := 256, layer := 0, head := 0, queries := [] }],
    .stepBoundary 0 [] [{ cup := 0, layer := 0, head := 0, queries := [[]] }], .tailLeafProgramDone 0 256 0 0 0, .leafReadComplete 0 [],
    .reconstructComplete 0 (some []) 0, .centroidPageRead 0 0 [], .stallLimitExpiry 0 0 none big 0 0] = true := by decide +kernel
theorem test_ill_formed_times : refused [.kettleSample (2 ^ 32), .sliceEnd 0 big, .preemptLimitExpiry 0 big, .latencyTargetExpiry 0 big,
    .quotaWaitExpiry 0 0 big, .shareWindowEnd 0 0 big] = true := by decide +kernel
theorem test_ill_formed_nvme : refused [.nvmRead { sqid := 65536 } 0 1 [] true, .nvmRead { cid := 65536 } 0 1 [] true, .nvmRead { nsid := 2 ^ 32 } 0 1 [] true,
    .nvmRead {} big 1 [] true, .nvmRead {} 0 (2 ^ 32) [] true, .nvmWrite {} 0 1 [big] true, .nvmFlush { sqid := 65536 }, .writeZeroes {} big 1,
    .datasetManagement {} true [(big, 1)], .datasetManagement {} true (List.replicate 257 (0, 1)), .identify {} 256 [], .getLogPage {} 256 0 0 0 false [],
    .getLogPage {} 0 big 0 0 false [], .getLogPage {} 0 0 (2 ^ 34) 0 false [], .getLogPage {} 0 0 0 128 false [], .getLogPage {} 0 0 0 0 false [big],
    .getFeatures {} 256, .setFeatures {} 256 0 [], .setFeatures {} 0 0 [(big, 0)], .setFeatures {} 0 0 [(0, big)]] = true := by decide +kernel
theorem test_ill_formed_admin : refused [.createIoQueue {} true 65536 1 0 0, .createIoQueue {} true 1 65537 0 0, .createIoQueue {} true 1 1 65536 0,
    .createIoQueue {} true 1 1 0 big, .deleteIoQueue {} true 65536, .abortCmd {} 65536 0, .abortCmd {} 0 65536, .asyncEventRequest { cid := 65536 },
    .namespaceCreate {} big 0, .namespaceDelete { nsid := 2 ^ 32 }, .namespaceAttachment { nsid := 2 ^ 32 } true, .formatNvm {} 8,
    .sanitizeBlockErase { cid := 65536 }, .sanitizeCryptoErase { cid := 65536 }, .invalidCommandOpcode { cid := 65536 } 0,
    .firmwareImageDownload {} (2 ^ 34) [], .fwCommitReplace {} 8 {}, .fwCommitReplace {} 0 { svn := 2 ^ 32 }, .fwCommitActivateNext {} 0 { version := 2 ^ 32 },
    .fwCommitActivateNext {} 0 { keyIndex := 65536 }, .fwCommitSelectSlot {} 8, .fwCommitActivateNow {} 0 { digest := 2 ^ 256 },
    .fwCommitActivateNow {} 0 { length := big }, .fwCommitReplace {} 0 { revoke := 65536 }, .fwCommitReplace {} 0 { seDigest := 2 ^ 256 },
    .fwCommitReplace {} 0 { oeDigest := 2 ^ 256 }, .powerOn 0 [] (some { svn := 2 ^ 32 }) none true true,
    .powerOn 0 [] none (some { svn := 2 ^ 32 }) true true] = true := by decide +kernel
theorem test_ill_formed_caddies : refused [.caddyAuthenticate 0 { compat := 65536 }, .caddyAuthenticate 0 { serial := big }, .caddyAuthenticate 0 { rated := 65536 },
    .caddyClassify 0 { wearUsed := 256 }, .caddyClassify 0 { spareLeft := 256 }, .caddyClassify 0 { counters := [big] },
    .caddyClassify 0 { counters := List.replicate 9 0 }, .caddyClassify 0 { membership := some (big, 0, 0) },
    .caddyClassify 0 { membership := some (0, 8, 0) }, .caddyClassify 0 { membership := some (0, 0, big) }] = true := by decide +kernel
theorem test_ill_formed_links : refused [.hello 0 { groupId := 2 ^ 32 }, .hello 0 { own := 8 }, .hello 0 { expects := 8 }, .hello 0 { fwMajor := 256 },
    .hello 0 { digest := big }, .hello 0 { hdr := { src := 8 } }, .spdmPeerMessage 0 {} (some big), .spdmPeerMessage 0 { dst := 8 } none, .flitReceive 0 { seq := 4096 }, .flitReceive 0 { ackSeq := 4096 }, .flitReceive 0 { crCount := 2048 },
    .statusPacket 0 {} 256 0 0, .statusPacket 0 {} 0 256 0, .statusPacket 0 {} 0 0 (2 ^ 32), .statusPacket 0 { src := 8 } 0 0 0, .announce 0 { dst := 8 } {},
    .announce 0 { groupId := 2 ^ 32 } {}, .announce 0 {} { kind := 256 }, .announce 0 {} { object := 2 ^ 32 }, .announce 0 {} { total := big },
    .announce 0 {} { target := big }, .announce 0 {} { ordinal := 256 }, .announce 0 {} { notifyCount := 65536 }, .xferReady 0 { jobId := 2 ^ 32 },
    .xferDone 0 { layer := 65536 }, .peerNak 0 { oper := 65536 }, .cancel 0 { xfer := 65536 }, .cancel 0 { status := 256 }, .cancel 0 { tc := 4 },
    .cancel 0 { lfmt := 256 }, .cancel 0 { arg := big }, .dataPacket 0 { tc := 4 } [], .dataPacket 0 {} (zeros 4097), .stepClose 0 {} (2 ^ 32) [],
    .stepClose 0 {} 0 [{ cup := 256 }], .stepClose 0 {} 0 [{ cup := 0, token := 2 ^ 32 }], .stepClose 0 { tc := 4 } 0 [], .grantWaitExpiry 0 65536] = true := by
  decide +kernel
theorem test_ill_formed_security : refused [.getCertificate 0 65536 0, .getCertificate 0 0 65536, .challenge 0 [1], .getMeasurements 256 false [],
    .getMeasurements 0 false [1], .chunkSend 256 0 false [], .chunkSend 0 65536 false [], .chunkGet 256 0, .chunkGet 0 65536, .tokenRequest 256,
    .actionService { sigs := [{ role := 256 }] }, .actionOpen { sigs := [{ keyIndex := 256 }] }, .actionProvisioned { sigs := [{ keyDigest := 2 ^ 256 }] },
    .actionOperational { sigs := [{ role := 256 }] }, .actionReturn { sigs := [{ role := 256 }] }, .actionBlank { sigs := [{ role := 256 }] },
    .scrubRead (.word (.dram 0) big [] false), .jtagAccess (.readMem (.dram 0) big 8), .jtagAccess (.readMem (.dram 0) 0 big), .jtagAccess (.writeMem (.dram 0) big []),
    .jtagAccess (.readCounter 256 0 0), .jtagAccess (.readCounter 0 65536 0), .jtagAccess (.readCounter 0 0 65536), .jtagAccess (.readReg big),
    .jtagAccess (.writeReg big 0)] = true := by decide +kernel
/-- Operands at the ends of their ranges are well formed. -/
theorem test_well_formed : ([.sqTailDoorbell .pf1 (2 ^ 52 - 1) 0xFFF 8 0xFFFFFFFF [(big - 1, 0xFF)], .registerWrite (.vf 7) (big - 1) 8 0, .nvmRead { sqid := 65535, cid := 65535 } (big - 1) (2 ^ 32 - 1) [] true,
    .createIoQueue {} false 65535 65536 65535 (big - 1), .cancel 3 { src := 7, dst := 7, tc := 3, xfer := 65535 }, .challenge 7 (zeros 32),
    .getMeasurements 255 true (zeros 32), .getMeasurements 1 false [], .leafReadComplete 0 (zeros 18432), .tkset 47 {} 31 0xFFFF, .jtagAccess .idcode] : List Instr).all
      Instr.wellFormed = true := by decide +kernel

-- More of the clauses' hypotheses, one witness for each

theorem witness_StartRunsInOrder_bays :
    let b := fun (lever : Bool) (m : Option (Nat × Nat × Nat)) => ({ storage 6 with media := { bays := (caddies 6).set 7 { worksIn 7 with lever := lever, member := m } } } : State)
    (b true none).media.bays[(7 : Fin 8)].lever = true ∧ (b true (some (0, 7, 0))).media.bays[(7 : Fin 8)].member ≠ none ∧
      (b false none).media.bays[(7 : Fin 8)].safe = false ∧ (b false none).media.bays[(7 : Fin 8)].present = true ∧
      (caddies 6)[(7 : Fin 8)].present = false := by decide +kernel
theorem witness_StartRunsInOrder_faults :
    let s := { ready with tiers := { hard := [(.dram 0, 8)] } }
    (.dram 0, 8) ∈ s.tiers.hard ∧ (.dram 0, 16) ∉ s.tiers.hard := by decide +kernel
/-- An image whose weights return to the pool, and one that its share refuses. -/
theorem witness_StartRunsInOrder_reload :
    let s := fun n => { ready with images := [{ id := 1, reload := true, residentBytes := n }] }
    let r := fun n => (s n).allocPinned true { key := .weights 1, pot := 0, cls := .pinned, size := n }
    (r 1).2 ≠ .refused ∧ (r (2 ^ 40)).2 = .refused := by decide +kernel
theorem witness_LimitsAndGuarantees_waits :
    let e : Nat → PoolEntry := fun n => { key := .weights 1, pot := 0, cls := .pinned, size := n }
    let s := { ready with tiers := { waits := [e 1, e (2 ^ 40)] } }
    let r := fun n => ({ s with tiers := { s.tiers with waits := s.tiers.waits.erase (e n) } } : State).allocPinned (!(e n).quad) { e n with quad := false }
    (r 1).2 ≠ .refused ∧ (r (2 ^ 40)).2 = .refused := by decide +kernel
theorem witness_SparesTakeOver_free :
    let s := { runs 0x15 true with boot := { ready.boot with spares := #v[some (12, false), none, none, some (51, true)] } }
    s.mappedTo (0 : Fin 52) = some 0 ∧ s.takingOver 0 = false ∧ s.freeSpare ((0 : Fin 52).val / 13) = some 12 ∧ s.freeSpare (51 / 13) = none ∧
      State.freeSpare { s with boot := { s.boot with takeovers := [(1, 12)] } } 0 = none := by decide +kernel
theorem witness_DoorbellsMoveIndices_offsets : doorbellAt .pf1 0x80 = none ∧ doorbellAt (.vf 0) 0x8000 = none ∧
    doorbellAt .pf1 (0x1000 * 7 + 8 * 15) = some (some 7, .sq 15) ∧ doorbellAt (.vf 7) 0x178 = some (some 7, .cq 15) ∧
    doorbellAt .pf1 0x8000 = some (none, .ev) ∧ (8 : Nat) ≠ 4 := by decide +kernel
theorem witness_EntriesArePostedInOrder_last : ({ last := true } : CqEntry).last = true ∧ ({} : CqEntry).last = false ∧
    ({ sizeLog2 := 6, moduleIndex := 63, held := [{}] } : Ring).held ≠ [] := by decide +kernel
theorem witness_CollectionJobsBegin_free : (collJob 0x07 16 []).recalling 1 = false := by decide +kernel

-- Leaves, steps, steeps

/-- A read that waits behind 131,072 die operations. -/
def behind (o : MediaOp) : State := { reading { key := 1 } with media := { bays := caddies 6, ops := List.replicate 131072 { key := 2, kind := 1 } ++ [o] } }
theorem witness_LeafReadsEnd_waits :
    ((behind { key := 3, read := 1 }).media.ops.drop 131072).any (fun o => o.kind == 0 && o.read == 1) = true ∧
      ((reading { key := 1 }).media.ops.drop 131072).any (fun o => o.kind == 0 && o.read == 1) = false := by
  constructor
  · rw [show (behind { key := 3, read := 1 }).media.ops = List.replicate 131072 { key := 2, kind := 1 } ++ [{ key := 3, read := 1 }] from rfl,
      List.drop_left' List.length_replicate]
    rfl
  · decide +kernel
/-- An operation that waits for a slot is none of those in the slots. -/
theorem witness_DieOperationsEnd_waits : ∀ o ∈ (behind { key := 3 }).media.ops.take 131072, o.key ≠ 3 := by
  rw [show (behind { key := 3 }).media.ops = List.replicate 131072 { key := 2, kind := 1 } ++ [{ key := 3 }] from rfl,
    List.take_left' List.length_replicate]
  intro o h
  rw [List.eq_of_mem_replicate h]
  decide
theorem witness_LeafReadsEnd_passes : ({ rebuilding := true } : LeafRead).passes (checked leafBody) = true ∧
    ({ rebuilding := true } : LeafRead).passes [] = false ∧ ({ cent := true } : LeafRead).passes (checked (zeros 18424)) = true :=
  ⟨leaf_good, rfl, centroid_good⟩
theorem witness_LeafReadsEnd_both :
    let r := fun c => ({ key := 1, origBad := true, rebuildBad := some 3, cent := c } : LeafRead)
    (reading (r false)).reads.find? (·.key == 1) = some (r false) ∧ (reading (r true)).reads.find? (·.key == 1) = some (r true) := by decide +kernel
theorem witness_CentroidPagesBecomeResident :
    let want : LeafRead := { cent := true }
    (reading { key := 1, cent := true, late := true }).reads.find? want.same = some { key := 1, cent := true, late := true } ∧
      (reading { key := 1 }).reads.find? want.same = none := by decide +kernel
/-- Pot 0's stray belt: cups of another module and no job of this one. -/
theorem witness_StepBoundariesRun_stray :
    let s := { ready with cups := [{ idx := 1, home := some 1 }] }
    s.strayBelt 0 = true ∧ (s.runningJob 0) = none ∧ (ready.pot 0).st ≠ 2 ∧
      (let t := { s with pots := s.pots.set 0 { st := 2 } }; (t.pot 0).st = 2) := by decide +kernel
theorem witness_StepBoundariesRun_boundary :
    let s := steps {}
    s.preempting 0 = false ∧ s.boot.hold = none ∧ s.coresOn = true ∧ (s.boundaryWork 0).preempting 0 = false ∧ (s.boundaryWork 0).coresOn = true ∧
      (let t := { s with pots := s.pots.set 0 { s.pots[0] with switchDue := true } }; t.preempting 0 = true ∧ t.xfersOf 1 = false) ∧
      (draining true).preempting 0 = true ∧ (draining true).xfersOf 1 = true ∧ ((draining true).pot 0).loop.between = true := by decide +kernel
/-- A standing grant in whose records the step of pot 0 waits, and a boundary that waits for member 1. -/
theorem witness_TailsAndGroupSteps :
    let s := { linked (upPort fun p => { p with inn := [{ standing := true }] }) with pots := ready.pots.set 0 { st := 1, loop := { running := true } } }
    let t := steps { between := true, peers := [1] }
    s.recordsDue 0 = true ∧ (s.pot 0).loop.running = true ∧ (t.pot 0).loop.between = true ∧ (t.pot 0).loop.peers ≠ [] ∧
      (ready.pot 0).loop.running = false ∧ (ready.pot 0).loop.between = false ∧ ready.recordsDue 0 = false := by decide +kernel
theorem witness_SteepsCommitInOrder_outs :
    let c : Corpus := { id := 1, home := 0, shard := (1, 3), sentLayer := some 0, range := (0, 2) }
    let s := linked (upPort id)
    s.outsDue c 1 = true ∧ s.outsDue { c with outs := [(1, 0, [])] } 1 = false ∧ s.outsDue { c with shard := (0, 0) } 1 = false := by decide +kernel
/-- Records whose token is outside the vocabulary, and records of another total. -/
theorem witness_SteepsCommitInOrder_error : (((steeps 6 0 0).steeping 1).map fun x =>
    (match (steeps 6 0 0).steepRecords x.1 { id := 1, encoder := 1, columns := [{}] } 0 1 with | .ok _ => 0 | .error e => e,
     match (steeps 6 0 0).steepRecords x.1 { id := 1, encoder := 1, columns := [{}] } model.vocab 2 with | .ok _ => 0 | .error e => e)) =
    some (0x10, 0x10) := by decide +kernel
/-- A page whose checks pass, one that fails them, and a page in the DRAM pool. -/
theorem witness_CollectionEventsRun_pages : ({ id := 0 } : Coll).pageOk 0 (checked (zeros 18424)) = true ∧ ({ id := 1 } : Coll).pageOk 8191 [] = false ∧
    (searching walking).cached (({ id := 1 } : Coll).pageKey { kind := 1, column := 63, first := 8191 }) = false ∧
    (let k := ({ id := 1 } : Coll).pageKey { kind := 1, column := 63, first := 8191 }
     State.cached { searching walking with tiers := { dram := [{ key := k, pot := 0, cls := .cached, size := 18432 }] } } k = true) ∧
    walking.lostPages.contains 0 = false := by
  refine ⟨?_, by decide +kernel, by decide +kernel, by decide +kernel, rfl⟩
  have h := checked_crc (zeros 18424) List.length_replicate
  simp only [Coll.pageOk, h, beq_self_eq_true, Bool.true_and]
  rfl
theorem witness_ShelfMigrationsEnd_demote :
    let t := { shelf with redirect := [(5, .demote), (7, .shelf)] }
    t.redirect.lookup 5 = some .demote ∧ t.redirect.lookup 7 = some .shelf ∧ t.redirect.lookup 6 = none ∧ t.onShelf 6 = false := by decide +kernel
/-- A row that migrates, with its quadrant's buffer empty and with 63 updates held. -/
theorem witness_ArrivalsAreApplied_held :
    let s := fun n => { shelved with
      boot := { ready.boot with settings := [(0x1900, 0)] }
      embed := { arrivals := [{ table := 1, row := 5 }, { grad := true, table := 1, row := 5 }], buffer := Vector.replicate 4 (List.replicate n {}) } }
    (∃ v, ((s 63).access 1 5).table? 1 = some v ∧ v.redirect.lookup 5 = some .copy) ∧
      ((s 0).access 1 5).embed.buffer[quadOf 5]?.getD [] = [] ∧ (((s 63).access 1 5).embed.buffer[quadOf 5]?.getD []).length = 63 := by
  simp [State.access, State.table?, State.shelfBytes, State.rs, shelved, shelf, table1, State.used, State.modEmbed, State.modTable, bits, quadOf,
    List.lookup]
theorem witness_ArrivalsAreApplied_saving :
    let s := { tableJob 0x12 0 [] with jobs := [{ key := 1, phase := .admitted, desc := descOf 0x12 0 0 [(0x30, 4, 1)] }]
                                       embed := { arrivals := [{ table := 1, link := some (0, 4) }] } }
    s.saving 1 = true ∧ s.embed.takeable 0 false = some { table := 1, link := some (0, 4) } := by decide +kernel

-- Cores

theorem witness_SemaphoresGrantInOrder_open :
    let s := { atWord 0 with pots := ready.pots.set 0 { st := 1, cores := BitVec.allOnes 48 } }
    let t := { s with cores := s.cores.set 5 { s.cores[5] with mms := [{ q := { word := ⟨{}, .mm { keep := true }⟩ } }] } }
    12 ≤ (({ s with cores := Vector.ofFn fun n => { phys := some n.val } } : State).potCores 0).length ∧ ((atWord 0).potCores 0).length < 12 ∧
      (∃ r ∈ t.cores[(5 : Fin 48)].mms, (mmOps r.q).keep = true) ∧ s.cores[(5 : Fin 48)].keep = none ∧ s.cores[(5 : Fin 48)].mms = [] := by decide +kernel
/-- A tile whose check words fit its sums, one whose do not, and one whose checks are void. -/
theorem witness_CoreEnginesAdvance_checks :
    let drain := { q := mmEntry 1, loaderOn := true, arraysOn := true, spoutOn := true, loaded := 1, landed := 1 : MmRun }
    rowChecks 0 true { y := 6 } [1, 2, 3] = true ∧ rowChecks 0 true { y := 7 } [1, 2, 3] = false ∧
      rowChecks 0 false { void := true, y := 9 } [] = true ∧ (product drain).tileChecks 5 drain = true := by decide +kernel
theorem witness_CoreEnginesAdvance_fails :
    let drain := { q := mmEntry 1, loaderOn := true, arraysOn := true, spoutOn := true, loaded := 1, landed := 1 : MmRun }
    let s := withCore fun k => { k with mms := [drain], qLoader := [drain.q], qArrays := [drain.q], qSpout := [drain.q]
                                        checkRows := [((0, drain.drainRow 0), { y := 7, a := 0, k := 1 })] }
    s.cores[(5 : Fin 48)].drainingRun = some drain ∧ s.tileChecks 5 drain = false := by decide +kernel
/-- Core 5 waits at `SEMACQ` for the unit that job 2 holds, whose cores fire; and a transfer on its way into core 5. -/
theorem witness_IdleCoresFailTheirWork :
    let s := { fronts {} (.semacq 31 1) id with
      jobs := [{ key := 1, desc := desc 0x15 1, phase := .admitted }, { key := 2, desc := desc 0x15 1, phase := .admitted }]
      pots := ready.pots.set 0 { ready.pots[0] with sems := ready.pots[0].sems.set 31 { count := 0, held := [(2, 1)], waiting := [(5, 1, 1)] } } }
    (2, 1) ∈ (s.sem 0 31).held ∧ (s.job? 2).map (fun y => decide (s.time ≤ y.firedAt + 2000000)) = some true ∧
      (∃ x ∈ (linked (upPort fun p => { p with inn := [{ job := 1, desc := { kind := 1, ordinal := 0 } }] })).ports[(0 : Fin 4)].inn,
        x.desc.kind = 1 ∧ x.job = 1 ∧ x.desc.ordinal = 0) ∧
      ((atWord 0).cores[(5 : Fin 48)].run).map (·.ordinal) = some 0 ∧ (atWord 0).cores[(5 : Fin 48)].front = none := by decide +kernel

-- Media and links

theorem witness_BufferedBlocksAreProgrammed_unerased :
    let s := (flash [] []).modBay 5 fun b => b.modBlock (b.phys 304895) fun x => { x with st := .eraseUnknown }
    (s.unprogrammed 1 9).isSome = true ∧ s.writeOk = true ∧ s.boot.phase = .ready ∧ s.group? 304895 = none ∧ 1524 ≤ s.freeGroups ∧
      s.placeable 304895 0 true = true ∧ s.unerased 304895 = true := by decide +kernel
theorem witness_CaddiesLeave_engines : (7 : Fin 8).val ∉ (bay7 (worksIn 7)).boot.engines ∧
    (7 : Fin 8).val ∈ (State.boot { ready with boot := { ready.boot with engines := [7] } }).engines := by decide +kernel
theorem witness_CaddiesAreBroughtUp_returning : (bay7 { worksIn 7 with stage := .authentic, absent := false }).classOf 7 { membership := some (0, 7, 0) } = .returning ∧
    (worksIn 7).member.isSome = true ∧ ({} : Bay).member.isSome = false := by decide +kernel
/-- Lanes 0 to 3 are of the engine of bay 0: with it out, eight trained lanes leave four. -/
theorem witness_PortsTrain_lanes :
    let lit := fun (out : List Nat) (lanes : Nat) => ((List.range 8).filter fun l => !out.contains (2 * (0 : Fin 4).val + l / 4)).take lanes
    4 ≤ (lit [] 4).length ∧ (lit [] 3).length < 4 ∧ 4 ≤ (lit [0] 8).length ∧ (lit [0, 1] 8).length < 4 := by decide +kernel
theorem witness_PortsTrain_headers : ({ h01 with reserved := true } : PktHdr).reserved = true ∧ h01.reserved = false ∧
    (h01.groupId = (linked {}).groupId ∧ h01.dst = (linked {}).self ∧ h01.src = 1) ∧ ({ h01 with dst := 3 } : PktHdr).dst ≠ (linked {}).self := by decide +kernel
/-- Member 1 shares the corpus that pot 0's cup attends, so its close of another step is held. -/
theorem witness_StatusMakesPeersPresent_closes :
    let s := { linked (upPort id) with corpora := [{ id := 1, shard := (1, 3), home := 0 }], cups := [{ idx := 1, corpus := some 1 }] }
    s.stepPeers s.servingPot = [1] ∧ ready.stepPeers ready.servingPot = [] := by decide +kernel
theorem witness_TransfersRun_standing :
    let x : XferIn := { tag := 4, standing := true, granted := 8, desc := { kind := 1, total := 8 } }
    let s := linked (upPort fun p => { p with inn := [x] })
    s.ports[(0 : Fin 4)].inn.find? (fun x => x.tag == h01.xfer && x.standing) = some x ∧ h01.arg = x.got ∧ h01.arg + (zeros 8).length ≤ x.granted ∧
      ({ h01 with last := true } : PktHdr).last = true ∧ h01.last = false ∧ 0x77 ∉ [0x00, 0x01, 0x02, 0x10, 0x11, 0x12, 0x20, 0x21, 0x22, 0x30, 0x31, 0x40, 0x41, 0x50] ∧
      ((moving { granted := 8, desc := { kind := 1, total := 8 } }).inn? 0 4).map (·.desc.kind) = some 1 := by decide +kernel

end Sys2Proof.Tests
end

section
/-! Proofs about the instruction `TKSET` (R173) and the interval counter (R189): rules of the counters, of a core named by its
number, and of the counters that a Koelnu word names; then the statements they settle. -/

namespace Sys2Proof.Machine

-- A core named by its number

/-- A core number of the module names the core at that place. -/
theorem State.core_fin (s : State) (c : Fin 48) : s.core c = s.cores[c] := by
  simp [State.core]

/-- A change of a core by its number replaces the core at that place. -/
theorem State.modCore_fin (s : State) (c : Fin 48) (f : Core → Core) :
    s.modCore c f = { s with cores := s.cores.set c (f s.cores[c]) } := by
  rw [State.modCore, State.core_fin]
  simp [Vector.setIfInBounds, Vector.set, Array.setIfInBounds]

-- Counters (R407, R408)

/-- An association list answers by its first entry at the key. -/
theorem lookupD_cons {κ α : Type} [BEq κ] (i : κ) (v : α) (l : List (κ × α)) (j : κ) (d : α) :
    lookupD ((i, v) :: l) j d = if j == i then v else lookupD l j d := by
  rw [lookupD, List.lookup_cons]
  cases j == i <;> rfl

/-- What an association list answers once the value at one key was changed. -/
theorem lookupD_upsert {κ α : Type} [BEq κ] [LawfulBEq κ] (l : List (κ × α)) (k j : κ) (d : α) (f : α → α) :
    lookupD (upsert l k d f) j d = if j == k then f (lookupD l k d) else lookupD l j d := by
  induction l with
  | nil => exact lookupD_cons k (f d) [] j d
  | cons e l ih =>
    obtain ⟨i, v⟩ := e
    by_cases hik : i = k
    · cases hjk : j == k <;> simp [upsert, lookupD_cons, hik, hjk]
    · by_cases hji : j = i
      · simp [upsert, lookupD_cons, hik, hji]
      · simp [upsert, lookupD_cons, hik, Ne.symm hik, hji, ih]

/-- Counting changes the counters and nothing else. -/
theorem State.count_frame (s : State) (fam inst idx n : Nat) :
    s.count fam inst idx n = { s with obs := { s.obs with counters := (s.count fam inst idx n).obs.counters } } := by
  cases n <;> rfl

/-- Counting adds to the counter it names, up to 2^64 - 1, and every other counter reads as before (R408). -/
theorem State.lookupD_count (s : State) {n : Nat} (hn : n ≠ 0) (fam inst idx : Nat) (k : Nat × Nat × Nat) :
    lookupD (s.count fam inst idx n).obs.counters k 0 =
      if k = (fam, inst, idx) then min (lookupD s.obs.counters k 0 + n) (2 ^ 64 - 1 : Nat) else lookupD s.obs.counters k 0 := by
  have h := lookupD_upsert s.obs.counters (fam, inst, idx) k 0 fun v : Int => min (v + n) (2 ^ 64 - 1 : Nat)
  rw [State.count, if_neg hn]
  refine h.trans ?_
  simp only [beq_iff_eq]
  split
  next hk => rw [hk]
  next => rfl

/-- An overrun on a core that runs is one count of `INTERVAL_OVERRUN`. -/
theorem exec_intervalOverrun_of_run {s : State} {c : Fin 48} (hrun : s.cores[c].run.isSome = true) :
    exec (.intervalOverrun c) s = .next (s.count 1 c 8 1) := by
  rw [← State.core_fin] at hrun
  exact if_pos hrun

/-- Settles O45: the command is one count (R189), and a count leaves everything but its counter. -/
theorem overrunsAreCountedNotFailed : Obligations.OverrunsAreCountedNotFailed := by
  intro s c hrun
  exact ⟨s.count 1 c 8 1, exec_intervalOverrun_of_run hrun, s.count_frame 1 c 8 1, s.lookupD_count Nat.one_ne_zero 1 c 8⟩

-- TKSET (R173)

/-- The bits of a word from a place to its end are reserved exactly when the word has no value there. -/
theorem kz_top (w : BitVec 128) (lo : Nat) (hlo : lo ≤ 128) : kz w 127 lo = decide (w.toNat / 2 ^ lo = 0) := by
  have hw : w.toNat / 2 ^ lo < 2 ^ (128 - lo) := by
    rw [Nat.div_lt_iff_lt_mul (Nat.two_pow_pos lo), ← Nat.pow_add, Nat.sub_add_cancel hlo]
    exact w.isLt
  rw [kz, kf, bits, Nat.mod_eq_of_lt hw]
  rfl

/-- The word of `TKSET`: its counter, its value, and nothing above them. -/
theorem decodeOp_tkset (w : BitVec 128) (hw : w.toNat % 256 = 0x80) :
    decodeOp w = if w.toNat / 2 ^ 69 = 0 then
      some (.tkset (BitVec.ofNat 5 (w.toNat / 2 ^ 48 % 2 ^ 5)) (BitVec.ofNat 16 (w.toNat / 2 ^ 53 % 2 ^ 16))) else none := by
  have hop : kf w 7 0 = 0x80 := by rw [kf, bits, Nat.pow_zero, Nat.div_one]; exact hw
  have hz : kz w 127 69 = decide (w.toNat / 2 ^ 69 = 0) := kz_top w 69 (by decide)
  simp only [decodeOp, hop, hz, decide_eq_true_eq]
  rfl

/-- The counters that a word names: those of its header, and those of its short fields where its operation has them. -/
theorem mem_wordCounters (t : BitVec 5) (w : KWord) : t ∈ wordCounters w ↔
    (w.hdr.wen = true ∧ w.hdr.wtk = t) ∨ (w.hdr.sen = true ∧ w.hdr.stk = t) ∨
      (∃ o, w.op = .mm o ∧ ((o.xw.en = true ∧ o.xw.tk = t) ∨ (o.dw.en = true ∧ o.dw.tk = t) ∨ (o.xs.en = true ∧ o.xs.tk = t))) ∨
      (∃ o, w.op = .mov o ∧ ((o.dw.en = true ∧ o.dw.tk = t) ∨ (o.xs.en = true ∧ o.xs.tk = t))) ∨
      (∃ o, w.op = .leafrd o ∧ o.dw.en = true ∧ o.dw.tk = t) := by
  obtain ⟨hdr, op⟩ := w
  cases op <;> grind [wordCounters]

/-- A counter is busy exactly while a word that names it is queued, in the arrays or in a move. -/
theorem Core.counterBusy_iff (k : Core) (t : BitVec 5) : k.counterBusy t = true ↔
    (∃ e ∈ k.qLoader ++ k.qArrays ++ k.qSpout ++ k.qVector ++ k.qMove, t ∈ wordCounters e.word) ∨
      (∃ m ∈ k.mms, t ∈ wordCounters m.q.word) ∨ (∃ m ∈ k.moves, t ∈ wordCounters m.word) := by
  simp only [Core.counterBusy, Bool.or_eq_true, List.any_eq_true, List.contains_iff_mem, or_assoc]

/-- A header wait takes tokens and nothing else of its core. -/
theorem Core.hdrTake_frame (k : Core) (h : KHdr) : k.hdrTake h = { k with tk := (k.hdrTake h).tk } := by
  rw [Core.hdrTake]
  split <;> rfl

/-- With its header wait met, `TKSET` waits for its counter alone, and then is a write of that counter. -/
theorem State.fireFront_tkset {s : State} {c : Fin 48} {q : QEntry} {inv : Invocation} {t : BitVec 5} {v : BitVec 16}
    (hfront : s.cores[c].front = some q) (hrun : s.cores[c].run = some inv) (hop : q.word.op = .tkset t v)
    (hmany : tooMany q.word.hdr = false) (hready : s.cores[c].hdrReady q.word.hdr = true) :
    s.fireFront c = if s.cores[c].counterBusy t then none else
      some (s.regFire c q fun k => { k with tk := k.tk.setIfInBounds t.toNat v }) := by
  simp only [State.fireFront, State.core_fin, hfront, hrun, hop, hmany, hready, Bool.not_true, Bool.false_eq_true, if_false]

/-- The write of a counter, as a change of the one core (R159). -/
theorem State.regFire_tkset (s : State) (c : Fin 48) (q : QEntry) (t : BitVec 5) (v : BitVec 16) :
    s.regFire c q (fun k => { k with tk := k.tk.setIfInBounds t.toNat v }) =
      ({ s with cores := s.cores.set c { s.cores[c] with
        tk := (s.cores[c].hdrTake q.word.hdr).tk.setIfInBounds t.toNat v, front := none }.advance } : State).signalIf c q := by
  rw [State.regFire, State.modCore_fin, Core.hdrTake_frame]

/-- Settles O41: the word by its bits; the firing by the one condition that `TKSET` adds to its header wait. -/
theorem tksetSetsItsCounter : Obligations.TksetSetsItsCounter := by
  refine ⟨decodeOp_tkset, ?_⟩
  intro s c q inv t v hfront hrun hop hmany hready
  simp only [← mem_wordCounters, ← Core.counterBusy_iff, State.fireFront_tkset hfront hrun hop hmany hready]
  constructor
  · intro hbusy
    exact if_pos hbusy
  · intro hfree
    refine ⟨_, (if_neg hfree).trans (congrArg some (s.regFire_tkset c q t v)), ?_, rfl⟩
    simp [Core.advance, t.isLt]

end Sys2Proof.Machine
end

section
/-! Proofs about the snapshot fields (Table 19.7, R428): where each function's fields stand, what a start and a write make of them,
and that a register write at their offsets reaches nothing else; then the statement they settle. -/

namespace Sys2Proof.Machine

-- Where the snapshot fields of a function stand (Tables 19.1, 19.7 and 19.10)

/-- The place of a function's snapshot fields in the host interface: PF1's first, then the VFs'. -/
def snapSlot : PcieFn → Fin 9
  | .pf1 => 0
  | .vf n => n.succ.castLE (by decide)

/-- The offset of a function's snapshot fields among its registers. -/
def snapBase : PcieFn → Nat
  | .pf1 => 0x200
  | .vf _ => 0x800

/-- The state with other snapshot fields at one place. -/
def State.setSnap (s : State) (k : Fin 9) (x : Snap) : State :=
  s.modHost fun h => { h with snaps := h.snaps.set k x }

@[simp] theorem State.setSnap_snaps_self (s : State) (k : Fin 9) (x : Snap) : (s.setSnap k x).host.snaps[k] = x := by
  simp [State.setSnap, State.modHost]

@[simp] theorem State.setSnap_mem (s : State) (k : Fin 9) (x : Snap) : (s.setSnap k x).host.mem = s.host.mem := rfl

/-- Fields that are put back as they were change nothing. -/
@[simp] theorem State.setSnap_self (s : State) (k : Fin 9) : s.setSnap k s.host.snaps[k] = s := by
  simp [State.setSnap, State.modHost]

-- A start and a write of the fields (R409, R428)

/-- Below 64 bytes a start leaves the fields as they are. -/
theorem Snap.start_of_short {x : Snap} (hlen : x.len.toNat < 64) : x.start = x := by
  simp [Snap.start, Nat.not_le.mpr hlen]

/-- A snapshot that runs is not started again. -/
theorem Snap.start_of_busy {x : Snap} (hbusy : x.busy = true) : x.start = x := by
  rw [Snap.start, hbusy, Bool.true_or, ← hbusy]

/-- A write of fields whose snapshot runs is ignored. -/
theorem Snap.write_of_busy {x : Snap} (hbusy : x.busy = true) (second : Bool) (w : RegWrite) : x.write second w = x :=
  if_pos hbusy

/-- A write of the whole second word puts its low half into `SNAP_LEN`. -/
theorem RegWrite.into_allOnes_len (old v : BitVec 64) : ((RegWrite.into { val := v, mask := BitVec.allOnes 64 } old
    (BitVec.ofNat 64 (0xFFFFFFFF + at_ 0xFE 32))).truncate 32) = v.truncate 32 := by
  have hallowed : (BitVec.ofNat 64 (0xFFFFFFFF + at_ 0xFE 32)).setWidth 32 = BitVec.allOnes 32 := by decide
  simp only [RegWrite.into, BitVec.truncate_eq_setWidth, BitVec.not_allOnes, BitVec.and_zero, BitVec.zero_or, BitVec.setWidth_and,
    hallowed, BitVec.and_allOnes]

/-- A write of the whole second word with a length below 64 leaves `BUSY` clear, whether it starts a snapshot or not. -/
theorem Snap.write_short_busy {x : Snap} (hidle : x.busy = false) {v : BitVec 64} (hlen : v.toNat % 2 ^ 32 < 64) :
    (x.write true { val := v, mask := BitVec.allOnes 64 }).busy = false := by
  have hshort : (v.truncate 32).toNat < 64 := hlen
  simp only [Snap.write, hidle, RegWrite.into_allOnes_len, Bool.not_true, Bool.false_eq_true, if_false]
  split
  · rw [Snap.start_of_short hshort]
  · rfl

-- The instructions that reach the fields

/-- A place of the fields, read by its number. -/
theorem snaps_getElem?_getD (h : HostIf) (k : Fin 9) : h.snaps[k.val]?.getD {} = h.snaps[k] := by
  simp

/-- A change of the fields at one place, made by its number. -/
theorem State.modHost_setIfInBounds (s : State) (k : Fin 9) (x : Snap) :
    s.modHost (fun h => { h with snaps := h.snaps.setIfInBounds k.val x }) = s.setSnap k x := by
  simp [State.setSnap, Vector.setIfInBounds, Vector.set, Array.setIfInBounds]

/-- SNAPSHOT_START starts the fields of a function that is there, once firmware runs. -/
theorem exec_snapshotStart (fn : PcieFn) (s : State) : exec (.snapshotStart fn) s =
    if !s.boot.up || decide (s.host.numVfs < (snapSlot fn).val) then .next s
    else .next (s.setSnap (snapSlot fn) s.host.snaps[snapSlot fn].start) := by
  rw [← snaps_getElem?_getD, ← State.modHost_setIfInBounds]
  cases fn <;> rfl

/-- SNAPSHOT_START changes nothing where a start would leave the fields as they are. -/
theorem exec_snapshotStart_of_start_eq {fn : PcieFn} {s : State} (h : s.host.snaps[snapSlot fn].start = s.host.snaps[snapSlot fn]) :
    exec (.snapshotStart fn) s = .next s := by
  rw [exec_snapshotStart, h, State.setSnap_self, ite_self]

/-- SNAPSHOT_DONE of a function without a snapshot that runs changes nothing. -/
theorem exec_snapshotDone_of_idle {fn : PcieFn} {s : State} (hidle : s.host.snaps[snapSlot fn].busy = false) (a b : BitVec 64) :
    exec (.snapshotDone fn a b) s = .next s := by
  change execSnapshotDone fn a b s = _
  rw [← snaps_getElem?_getD] at hidle
  have hskip : (!(s.host.snaps[(snapSlot fn).val]?.getD {}).busy) = true := by rw [hidle]; rfl
  cases fn <;> exact if_pos hskip

/-- A function's write of a register. -/
def State.writeFn (s : State) (fn : PcieFn) (off : Nat) (w : RegWrite) : State :=
  match fn with
  | .pf1 => s.writePf1 off w
  | .vf n => s.writeVf n.val off w

/-- REGISTER_WRITE of an access that writes no register (R421). -/
theorem exec_registerWrite_of_none {fn : PcieFn} {off size : Nat} {v : BitVec 64} (s : State) (hw : regWrite off size v = none) :
    exec (.registerWrite fn off size v) s = .next s := by
  change execRegisterWrite fn off size v s = _
  simp only [execRegisterWrite, hw]

/-- REGISTER_WRITE of an access that writes a register: the function's write of it, once firmware runs (R422). -/
theorem exec_registerWrite_of_some {fn : PcieFn} {off size : Nat} {v : BitVec 64} {w : RegWrite} (s : State)
    (hw : regWrite off size v = some w) :
    exec (.registerWrite fn off size v) s = .next (if s.boot.up = true then s.writeFn fn (off / 8 * 8) w else s) := by
  change execRegisterWrite fn off size v s = _
  simp only [execRegisterWrite, hw]
  cases s.boot.up <;> rfl

/-- At the offsets of its snapshot fields, a write of a function that is there is a write of those fields. -/
theorem State.writeFn_snap (s : State) {fn : PcieFn} {off : Nat} (hlo : snapBase fn ≤ off) (hhi : off < snapBase fn + 16) (w : RegWrite) :
    s.writeFn fn off w = if (snapSlot fn).val ≤ s.host.numVfs then
      s.setSnap (snapSlot fn) (s.host.snaps[snapSlot fn].write (decide (off % 16 = 8)) w) else s := by
  cases fn with
  | pf1 =>
    simp only [snapBase] at hlo hhi
    have hfields : 0x200 ≤ off ∧ off < 0x210 := ⟨hlo, hhi⟩
    have hfatal : off ≠ 0x08 := by omega
    have hcontrol : ¬ (0x100 ≤ off ∧ off < 0x180) := by omega
    simp only [State.writeFn, State.writePf1, if_neg hfatal, if_neg hcontrol, if_pos hfields]
    exact (if_pos (Nat.zero_le _)).symm
  | vf n =>
    simp only [snapBase] at hlo hhi
    have hfields : 0x800 ≤ off ∧ off < 0x810 := ⟨hlo, hhi⟩
    have hrings : ¬ off < 0x420 := by omega
    have hslot : n.val + 1 = (snapSlot (.vf n)).val := rfl
    simp only [State.writeFn, State.writeVf, if_neg hrings, if_pos hfields, hslot, snaps_getElem?_getD]
    by_cases hthere : s.host.numVfs ≤ n.val
    · rw [if_pos hthere, if_neg (by omega)]
    · rw [if_neg hthere, if_pos (by omega)]
      exact s.modHost_setIfInBounds _ _

/-- While `BUSY` is set, a write at the offsets of the snapshot fields is ignored (R428). -/
theorem exec_registerWrite_of_busy {fn : PcieFn} {s : State} (hbusy : s.host.snaps[snapSlot fn].busy = true) {off : Nat} (size : Nat)
    (v : BitVec 64) (hlo : snapBase fn ≤ off) (hhi : off < snapBase fn + 16) : exec (.registerWrite fn off size v) s = .next s := by
  have haligned : snapBase fn ≤ off / 8 * 8 := by
    cases fn <;> simp only [snapBase] at hlo ⊢ <;> omega
  cases hw : regWrite off size v with
  | none => exact exec_registerWrite_of_none s hw
  | some w =>
    rw [exec_registerWrite_of_some s hw, s.writeFn_snap haligned (by omega), Snap.write_of_busy hbusy, State.setSnap_self,
      ite_self, ite_self]

/-- A length below 64 that an idle function writes with `SNAP_MASK` and `BUSY` leaves `BUSY` clear, and host memory as it was (R428). -/
theorem exec_registerWrite_short {fn : PcieFn} {s : State} (hidle : s.host.snaps[snapSlot fn].busy = false) (hup : s.boot.up = true)
    (hthere : (snapSlot fn).val ≤ s.host.numVfs) {v : BitVec 64} (hlen : v.toNat % 2 ^ 32 < 64) :
    ∃ t : State, exec (.registerWrite fn (snapBase fn + 8) 8 v) s = .next t ∧ t.host.snaps[snapSlot fn].busy = false ∧
      t.host.mem = s.host.mem := by
  have hbase : snapBase fn % 16 = 0 := by cases fn <;> simp only [snapBase, Nat.reduceMod]
  have haligned : (snapBase fn + 8) / 8 * 8 = snapBase fn + 8 := by omega
  have hsecond : (snapBase fn + 8) % 16 = 8 := by omega
  have hw : regWrite (snapBase fn + 8) 8 v = some { val := v, mask := BitVec.allOnes 64 } := if_pos ⟨rfl, by omega⟩
  rw [exec_registerWrite_of_some s hw, if_pos hup, haligned, s.writeFn_snap (Nat.le_add_right _ _) (by omega), if_pos hthere]
  refine ⟨_, rfl, ?_, State.setSnap_mem _ _ _⟩
  rw [State.setSnap_snaps_self, decide_eq_true hsecond]
  exact Snap.write_short_busy hidle hlen

/-- Settles O57: a short start and a write while `BUSY` is set put the fields back as they were; a short length that is written
with `BUSY` leaves it clear. -/
theorem shortSnapshotsAndBusyFields : Obligations.ShortSnapshotsAndBusyFields := by
  intro s fn
  refine ⟨fun hidle hlen => ⟨?_, ?_⟩, fun hidle hup hthere v hlen => ?_, fun hbusy => ⟨?_, fun off size v hlo hhi => ?_⟩⟩
  · exact exec_snapshotStart_of_start_eq (Snap.start_of_short hlen)
  · exact exec_snapshotDone_of_idle hidle
  · exact exec_registerWrite_short hidle hup hthere hlen
  · exact exec_snapshotStart_of_start_eq (Snap.start_of_busy hbusy)
  · exact exec_registerWrite_of_busy hbusy size v hlo hhi

end Sys2Proof.Machine
end

section
/-! Proofs about every command at once: what any command can do to the queue, the lifecycle, the owner key, the identity, the
anti-rollback counter and the straps, said once (`exec_moves`); then the statements about them. -/

namespace Sys2Proof.Machine

-- What a command can do to the held part of the state

/-- The ways in which a command moves the held part of a state: it keeps it, or is one of the writers of Tables 16.6 and 17.1. -/
inductive HeldMove (c : Instr) (s t : State) : Prop where
  | keeps (h : t.held = s.held)
  | provisions (a : Authorise) (hc : c = .actionProvisioned a) (hfrom : s.sec.lifecycle = .blank) (hps0 : s.power.st = 0)
      (htoken : s.sec.token = some a.token) (hsigned : a.sigs ≠ [])
      (h : t.held = { s.held with lifecycle := .provisioned, ownerKey := (a.sigs.head?).map (·.keyDigest) })
  | opens (a : Authorise) (hc : c = .actionOperational a) (hfrom : s.sec.lifecycle = .provisioned) (hps0 : s.power.st = 0)
      (htoken : s.sec.token = some a.token) (h : t.held = { s.held with lifecycle := .operational })
  | returns (a : Authorise) (hc : c = .actionReturn a) (hfrom : s.sec.lifecycle = .provisioned ∨ s.sec.lifecycle = .operational)
      (hps0 : s.power.st = 0) (htoken : s.sec.token = some a.token)
      (h : t.held = { s.held with lifecycle := .returned, ownerKey := none })
  | blanks (a : Authorise) (hc : c = .actionBlank a) (hfrom : s.sec.lifecycle = .returned) (hps0 : s.power.st = 0)
      (htoken : s.sec.token = some a.token) (h : t.held = { s.held with lifecycle := .blank })
  | commits (r : Nat) (hc : (∃ n k m, c = .fwCommitReplace n k m) ∨ (∃ n k m, c = .fwCommitActivateNext n k m) ∨
      (∃ n k m, c = .fwCommitActivateNow n k m)) (hrises : s.boot.rollback ≤ r) (h : t.held = { s.held with rollback := r })
  | samples (straps : BitVec 3) (hc : ∃ f a b ca cb, c = .powerOn straps f a b ca cb) (h : t.held = { s.held with straps := straps })

/-- What a command answers: a fault of the probe, or a next state that it has moved to in one of those ways. -/
def Moves (c : Instr) (s : State) (o : Out) : Prop :=
  (o = .fault .noSuchAddress ∧ ∃ a, c = .jtagAccess a) ∨ ∃ t, o = .next t ∧ HeldMove c s t

theorem Moves.keeps {c : Instr} {s : State} {o : Out} (h : ∃ t, o = .next t ∧ t.held = s.held) : Moves c s o :=
  .inr (h.imp fun _ ⟨ho, ht⟩ => ⟨ho, .keeps ht⟩)

theorem Moves.commits {c : Instr} {s : State} {o : Out} (hc : (∃ n k m, c = .fwCommitReplace n k m) ∨
    (∃ n k m, c = .fwCommitActivateNext n k m) ∨ (∃ n k m, c = .fwCommitActivateNow n k m))
    (h : ∃ t r, o = .next t ∧ s.boot.rollback ≤ r ∧ t.held = { s.held with rollback := r }) : Moves c s o :=
  have ⟨t, r, ho, hr, ht⟩ := h
  .inr ⟨t, ho, .commits r hc hr ht⟩

/-- An `AUTHORISE` without signatures is malformed, and fails with its held part kept (R380). -/
theorem State.authorise_held_of_unsigned (s : State) (r : ActionRule) {a : Authorise} (act : State → State) (h : a.sigs = []) :
    (s.authorise r a act).held = s.held := by
  have hfails : s.authFails r a = [7] := by simp [State.authFails, h]
  rw [State.authorise, hfails]
  split
  · rfl
  · simp

/-- ACTION_PROVISIONED moves the held part only when a signature comes with it. -/
theorem execActionProvisioned_moves (a : Authorise) (s : State) :
    Moves (.actionProvisioned a) s (execActionProvisioned a s) := by
  obtain ⟨t, ho, hkept | ⟨hfrom, hps0, htoken, hmoved⟩⟩ := execActionProvisioned_held a s
  · exact .keeps ⟨t, ho, hkept⟩
  · by_cases hsigned : a.sigs = []
    · exact .keeps ⟨_, rfl, s.authorise_held_of_unsigned _ _ hsigned⟩
    · exact .inr ⟨t, ho, .provisions a rfl hfrom hps0 htoken hsigned hmoved⟩

theorem execActionOperational_moves (a : Authorise) (s : State) : Moves (.actionOperational a) s (execActionOperational a s) := by
  obtain ⟨t, ho, hkept | ⟨hfrom, hps0, htoken, hmoved⟩⟩ := execActionOperational_held a s
  · exact .keeps ⟨t, ho, hkept⟩
  · exact .inr ⟨t, ho, .opens a rfl hfrom hps0 htoken hmoved⟩

theorem execActionReturn_moves (a : Authorise) (s : State) : Moves (.actionReturn a) s (execActionReturn a s) := by
  obtain ⟨t, ho, hkept | ⟨hfrom, hps0, htoken, hmoved⟩⟩ := execActionReturn_held a s
  · exact .keeps ⟨t, ho, hkept⟩
  · exact .inr ⟨t, ho, .returns a rfl hfrom hps0 htoken hmoved⟩

theorem execActionBlank_moves (a : Authorise) (s : State) : Moves (.actionBlank a) s (execActionBlank a s) := by
  obtain ⟨t, ho, hkept | ⟨hfrom, hps0, htoken, hmoved⟩⟩ := execActionBlank_held a s
  · exact .keeps ⟨t, ho, hkept⟩
  · exact .inr ⟨t, ho, .blanks a rfl hfrom hps0 htoken hmoved⟩

theorem execPowerOn_moves (straps : BitVec 3) (failed : List (Fin 52)) (a b : Option Manifest) (ca cb : Bool) (s : State) :
    Moves (.powerOn straps failed a b ca cb) s (execPowerOn straps failed a b ca cb s) := by
  obtain ⟨t, ho, hkept | hmoved⟩ := execPowerOn_held straps failed a b ca cb s
  · exact .keeps ⟨t, ho, hkept⟩
  · exact .inr ⟨t, ho, .samples straps ⟨_, _, _, _, _, rfl⟩ hmoved⟩

theorem execJtagAccess_moves (a : Jtag) (s : State) : Moves (.jtagAccess a) s (execJtagAccess a s) :=
  (execJtagAccess_held a s).elim (fun hfault => .inl ⟨hfault, a, rfl⟩) .keeps

/-- Every command answers, and moves the held part of the state in one of the ways of `HeldMove`. -/
theorem exec_moves (c : Instr) (s : State) : Moves c s (exec c s) :=
  match c with
  | .sqTailDoorbell .. => .keeps (execSqTailDoorbell_held ..)
  | .cqHeadDoorbell .. => .keeps (execCqHeadDoorbell_held ..)
  | .eventHeadDoorbell .. => .keeps (execEventHeadDoorbell_held ..)
  | .descriptorFetch .. => .keeps (execDescriptorFetch_held ..)
  | .descriptorFetchFailed .. => .keeps (execDescriptorFetchFailed_held ..)
  | .orderedJobAdmit .. => .keeps (execOrderedJobAdmit_held ..)
  | .deferredJobAdmit .. => .keeps (execDeferredJobAdmit_held ..)
  | .imageLoad .. => .keeps (execImageLoad_held ..)
  | .imageUnload .. => .keeps (execImageUnload_held ..)
  | .steep .. => .keeps (execSteep_held ..)
  | .steepResume .. => .keeps (execSteepResume_held ..)
  | .generate .. => .keeps (execGenerate_held ..)
  | .attend .. => .keeps (execAttend_held ..)
  | .collectionCreate .. => .keeps (execCollectionCreate_held ..)
  | .collectionAppend .. => .keeps (execCollectionAppend_held ..)
  | .collectionDelete .. => .keeps (execCollectionDelete_held ..)
  | .filter .. => .keeps (execFilter_held ..)
  | .search .. => .keeps (execSearch_held ..)
  | .recallJob .. => .keeps (execRecallJob_held ..)
  | .fetchJob .. => .keeps (execFetchJob_held ..)
  | .tableCreate .. => .keeps (execTableCreate_held ..)
  | .tableRule .. => .keeps (execTableRule_held ..)
  | .bag .. => .keeps (execBag_held ..)
  | .addJob .. => .keeps (execAddJob_held ..)
  | .update .. => .keeps (execUpdate_held ..)
  | .tableSave .. => .keeps (execTableSave_held ..)
  | .tableLoad .. => .keeps (execTableLoad_held ..)
  | .dropJob .. => .keeps (execDropJob_held ..)
  | .runJob .. => .keeps (execRunJob_held ..)
  | .steepCheckpointCommit .. => .keeps (execSteepCheckpointCommit_held ..)
  | .stepBoundary .. => .keeps (execStepBoundary_held ..)
  | .tailLeafProgramDone .. => .keeps (execTailLeafProgramDone_held ..)
  | .leafReadComplete .. => .keeps (execLeafReadComplete_held ..)
  | .lateReadExpiry .. => .keeps (execLateReadExpiry_held ..)
  | .reconstructComplete .. => .keeps (execReconstructComplete_held ..)
  | .centroidPageRead .. => .keeps (execCentroidPageRead_held ..)
  | .groupStepLimitExpiry .. => .keeps (execGroupStepLimitExpiry_held ..)
  | .strainerPageEval .. => .keeps (execStrainerPageEval_held ..)
  | .searchExpansion .. => .keeps (execSearchExpansion_held ..)
  | .searchRerank .. => .keeps (execSearchRerank_held ..)
  | .mendingPassEnd .. => .keeps (execMendingPassEnd_held ..)
  | .bagPartReceived .. => .keeps (execBagPartReceived_held ..)
  | .bagWaitExpiry .. => .keeps (execBagWaitExpiry_held ..)
  | .atomicAdd .. => .keeps (execAtomicAdd_held ..)
  | .ruleApplication .. => .keeps (execRuleApplication_held ..)
  | .shelfRedirectFlip .. => .keeps (execShelfRedirectFlip_held ..)
  | .shelfAbandoned .. => .keeps (execShelfAbandoned_held ..)
  | .shelfDemotion .. => .keeps (execShelfDemotion_held ..)
  | .hotWindowExpiry .. => .keeps (execHotWindowExpiry_held ..)
  | .nop .. => .keeps (execNop_held ..)
  | .group .. => .keeps (execGroup_held ..)
  | .point .. => .keeps (execPoint_held ..)
  | .fence .. => .keeps (execFence_held ..)
  | .loop .. => .keeps (execLoop_held ..)
  | .endInv .. => .keeps (execEndInv_held ..)
  | .addr .. => .keeps (execAddr_held ..)
  | .addri .. => .keeps (execAddri_held ..)
  | .vadd .. => .keeps (execVadd_held ..)
  | .vmul .. => .keeps (execVmul_held ..)
  | .vfma .. => .keeps (execVfma_held ..)
  | .vmax .. => .keeps (execVmax_held ..)
  | .vmin .. => .keeps (execVmin_held ..)
  | .vcmp .. => .keeps (execVcmp_held ..)
  | .vsel .. => .keeps (execVsel_held ..)
  | .vcvt .. => .keeps (execVcvt_held ..)
  | .vexp .. => .keeps (execVexp_held ..)
  | .vln .. => .keeps (execVln_held ..)
  | .vrcp .. => .keeps (execVrcp_held ..)
  | .vrsq .. => .keeps (execVrsq_held ..)
  | .vtanh .. => .keeps (execVtanh_held ..)
  | .vsum .. => .keeps (execVsum_held ..)
  | .vrmax .. => .keeps (execVrmax_held ..)
  | .vtopk .. => .keeps (execVtopk_held ..)
  | .vpart .. => .keeps (execVpart_held ..)
  | .vmerge .. => .keeps (execVmerge_held ..)
  | .vsample .. => .keeps (execVsample_held ..)
  | .mm .. => .keeps (execMm_held ..)
  | .shape .. => .keeps (execShape_held ..)
  | .stride .. => .keeps (execStride_held ..)
  | .spout .. => .keeps (execSpout_held ..)
  | .spoutv .. => .keeps (execSpoutv_held ..)
  | .mov .. => .keeps (execMov_held ..)
  | .mov2d .. => .keeps (execMov2d_held ..)
  | .leafrd .. => .keeps (execLeafrd_held ..)
  | .tkset .. => .keeps (execTkset_held ..)
  | .semacq .. => .keeps (execSemacq_held ..)
  | .semrel .. => .keeps (execSemrel_held ..)
  | .stationaryLoadDone .. => .keeps (execStationaryLoadDone_held ..)
  | .passLanded .. => .keeps (execPassLanded_held ..)
  | .spoutDrain .. => .keeps (execSpoutDrain_held ..)
  | .moveArrived .. => .keeps (execMoveArrived_held ..)
  | .coreProgressExpiry .. => .keeps (execCoreProgressExpiry_held ..)
  | .intervalOverrun .. => .keeps (execIntervalOverrun_held ..)
  | .datapathCheckFail .. => .keeps (execDatapathCheckFail_held ..)
  | .spareTakeoverResume .. => .keeps (execSpareTakeoverResume_held ..)
  | .evictWaitEnd .. => .keeps (execEvictWaitEnd_held ..)
  | .stallLimitExpiry .. => .keeps (execStallLimitExpiry_held ..)
  | .scrubRead .. => .keeps (execScrubRead_held ..)
  | .sliceEnd .. => .keeps (execSliceEnd_held ..)
  | .preemptDrainExpiry .. => .keeps (execPreemptDrainExpiry_held ..)
  | .preemptLimitExpiry .. => .keeps (execPreemptLimitExpiry_held ..)
  | .latencyTargetExpiry .. => .keeps (execLatencyTargetExpiry_held ..)
  | .nvmRead .. => .keeps (execNvmRead_held ..)
  | .nvmWrite .. => .keeps (execNvmWrite_held ..)
  | .nvmFlush .. => .keeps (execNvmFlush_held ..)
  | .writeZeroes .. => .keeps (execWriteZeroes_held ..)
  | .datasetManagement .. => .keeps (execDatasetManagement_held ..)
  | .identify .. => .keeps (execIdentify_held ..)
  | .getLogPage .. => .keeps (execGetLogPage_held ..)
  | .getFeatures .. => .keeps (execGetFeatures_held ..)
  | .setFeatures .. => .keeps (execSetFeatures_held ..)
  | .createIoQueue .. => .keeps (execCreateIoQueue_held ..)
  | .deleteIoQueue .. => .keeps (execDeleteIoQueue_held ..)
  | .abortCmd .. => .keeps (execAbortCmd_held ..)
  | .asyncEventRequest .. => .keeps (execAsyncEventRequest_held ..)
  | .namespaceCreate .. => .keeps (execNamespaceCreate_held ..)
  | .namespaceDelete .. => .keeps (execNamespaceDelete_held ..)
  | .namespaceAttachment .. => .keeps (execNamespaceAttachment_held ..)
  | .formatNvm .. => .keeps (execFormatNvm_held ..)
  | .sanitizeBlockErase .. => .keeps (execSanitizeBlockErase_held ..)
  | .sanitizeCryptoErase .. => .keeps (execSanitizeCryptoErase_held ..)
  | .firmwareImageDownload .. => .keeps (execFirmwareImageDownload_held ..)
  | .fwCommitReplace c slot m => .commits (.inl ⟨_, _, _, rfl⟩) (execFwCommitReplace_held c slot m s)
  | .fwCommitActivateNext c slot m => .commits (.inr (.inl ⟨_, _, _, rfl⟩)) (execFwCommitActivateNext_held c slot m s)
  | .fwCommitSelectSlot .. => .keeps (execFwCommitSelectSlot_held ..)
  | .fwCommitActivateNow c slot m => .commits (.inr (.inr ⟨_, _, _, rfl⟩)) (execFwCommitActivateNow_held c slot m s)
  | .activationQuiesced => .keeps (execActivationQuiesced_held _)
  | .activationQuiesceExpiry => .keeps (execActivationQuiesceExpiry_held _)
  | .invalidCommandOpcode c op => .keeps (execInvalidCommandOpcode_held c op s)
  | .writeBufferProgram .. => .keeps (execWriteBufferProgram_held ..)
  | .feedLost .. => .keeps (execFeedLost_held ..)
  | .feedRejoin .. => .keeps (execFeedRejoin_held ..)
  | .powerLoss => .keeps (execPowerLoss_held _)
  | .flashReadDone .. => .keeps (execFlashReadDone_held ..)
  | .flashProgramDone .. => .keeps (execFlashProgramDone_held ..)
  | .flashEraseDone .. => .keeps (execFlashEraseDone_held ..)
  | .eraseSuspend .. => .keeps (execEraseSuspend_held ..)
  | .eraseResume .. => .keeps (execEraseResume_held ..)
  | .garbageCollection => .keeps (execGarbageCollection_held _)
  | .fold .. => .keeps (execFold_held ..)
  | .readDisturbRefresh .. => .keeps (execReadDisturbRefresh_held ..)
  | .journalProgram => .keeps (execJournalProgram_held _)
  | .mapCheckpoint => .keeps (execMapCheckpoint_held _)
  | .counterPersist => .keeps (execCounterPersist_held _)
  | .dieOpTimeout .. => .keeps (execDieOpTimeout_held ..)
  | .caddyInsert .. => .keeps (execCaddyInsert_held ..)
  | .caddyLinkTrained .. => .keeps (execCaddyLinkTrained_held ..)
  | .caddyAuthenticate .. => .keeps (execCaddyAuthenticate_held ..)
  | .caddyClassify .. => .keeps (execCaddyClassify_held ..)
  | .bayRemove .. => .keeps (execBayRemove_held ..)
  | .bayAdopt .. => .keeps (execBayAdopt_held ..)
  | .leverOpen .. => .keeps (execLeverOpen_held ..)
  | .leverClose .. => .keeps (execLeverClose_held ..)
  | .removalQuiesced .. => .keeps (execRemovalQuiesced_held ..)
  | .caddySurpriseRemoval .. => .keeps (execCaddySurpriseRemoval_held ..)
  | .caddyPulled .. => .keeps (execCaddyPulled_held ..)
  | .rebuildGroup .. => .keeps (execRebuildGroup_held ..)
  | .caddyLaneFrameFail .. => .keeps (execCaddyLaneFrameFail_held ..)
  | .peerSignalDetect .. => .keeps (execPeerSignalDetect_held ..)
  | .linkTrainTimeout .. => .keeps (execLinkTrainTimeout_held ..)
  | .hello .. => .keeps (execHello_held ..)
  | .spdmPeerMessage .. => .keeps (execSpdmPeerMessage_held ..)
  | .linkUp .. => .keeps (execLinkUp_held ..)
  | .flitReceive .. => .keeps (execFlitReceive_held ..)
  | .peerLaneOut .. => .keeps (execPeerLaneOut_held ..)
  | .linkRetrain .. => .keeps (execLinkRetrain_held ..)
  | .linkHoldExpiry .. => .keeps (execLinkHoldExpiry_held ..)
  | .statusPacket port h state power n => .keeps (execStatusPacket_held port h state power n s)
  | .statusTimer => .keeps (execStatusTimer_held _)
  | .peerStatusTimeout .. => .keeps (execPeerStatusTimeout_held ..)
  | .announce .. => .keeps (execAnnounce_held ..)
  | .xferReady .. => .keeps (execXferReady_held ..)
  | .dataPacket .. => .keeps (execDataPacket_held ..)
  | .xferDone .. => .keeps (execXferDone_held ..)
  | .peerNak .. => .keeps (execPeerNak_held ..)
  | .cancel .. => .keeps (execCancel_held ..)
  | .stepClose .. => .keeps (execStepClose_held ..)
  | .grantWaitExpiry .. => .keeps (execGrantWaitExpiry_held ..)
  | .controlCoreWatchdog .. => .keeps (execControlCoreWatchdog_held ..)
  | .pcieRetrain .. => .keeps (execPcieRetrain_held ..)
  | .getVersion => .keeps (execGetVersion_held _)
  | .getCapabilities => .keeps (execGetCapabilities_held _)
  | .negotiateAlgorithms .. => .keeps (execNegotiateAlgorithms_held ..)
  | .getDigests => .keeps (execGetDigests_held _)
  | .getCertificate .. => .keeps (execGetCertificate_held ..)
  | .challenge .. => .keeps (execChallenge_held ..)
  | .getMeasurements .. => .keeps (execGetMeasurements_held ..)
  | .getCsr => .keeps (execGetCsr_held _)
  | .setCertificate .. => .keeps (execSetCertificate_held ..)
  | .chunkSend .. => .keeps (execChunkSend_held ..)
  | .chunkGet .. => .keeps (execChunkGet_held ..)
  | .spdmUnsupportedRequest code => .keeps (execSpdmUnsupportedRequest_held code s)
  | .stateQuery => .keeps (execStateQuery_held _)
  | .tokenRequest .. => .keeps (execTokenRequest_held ..)
  | .actionService .. => .keeps (execActionService_held ..)
  | .actionOpen .. => .keeps (execActionOpen_held ..)
  | .actionProvisioned a => execActionProvisioned_moves a s
  | .actionOperational a => execActionOperational_moves a s
  | .actionReturn a => execActionReturn_moves a s
  | .actionBlank a => execActionBlank_moves a s
  | .relock => .keeps (execRelock_held _)
  | .tokenExpiry => .keeps (execTokenExpiry_held _)
  | .lockoutExpiry => .keeps (execLockoutExpiry_held _)
  | .powerReq .. => .keeps (execPowerReq_held ..)
  | .powerStepDone => .keeps (execPowerStepDone_held _)
  | .powerStepLimitExpiry => .keeps (execPowerStepLimitExpiry_held _)
  | .kettleSample .. => .keeps (execKettleSample_held ..)
  | .kettleTrial => .keeps (execKettleTrial_held _)
  | .kettleTrialEnd => .keeps (execKettleTrialEnd_held _)
  | .thermalThrottleTick .. => .keeps (execThermalThrottleTick_held ..)
  | .thermalTrip k => .keeps (execThermalTrip_held k s)
  | .caddyTrip .. => .keeps (execCaddyTrip_held ..)
  | .caddyCoolExpiry .. => .keeps (execCaddyCoolExpiry_held ..)
  | .powerOn straps failed a b ca cb => execPowerOn_moves straps failed a b ca cb s
  | .dramTrainingDone => .keeps (execDramTrainingDone_held _)
  | .moduleReady .. => .keeps (execModuleReady_held ..)
  | .weightReload .. => .keeps (execWeightReload_held ..)
  | .bootWatchdog => .keeps (execBootWatchdog_held _)
  | .seWatchdog => .keeps (execSeWatchdog_held _)
  | .commit .. => .keeps (execCommit_held ..)
  | .commitDone .. => .keeps (execCommitDone_held ..)
  | .moduleReset .. => .keeps (execModuleReset_held ..)
  | .resetDrainDone => .keeps (execResetDrainDone_held _)
  | .resetDrainExpiry => .keeps (execResetDrainExpiry_held _)
  | .pf1Flr => .keeps (execPf1Flr_held _)
  | .vfFlr .. => .keeps (execVfFlr_held ..)
  | .pf0Reset => .keeps (execPf0Reset_held _)
  | .vfEnableChange .. => .keeps (execVfEnableChange_held ..)
  | .potStop .. => .keeps (execPotStop_held ..)
  | .potRestart .. => .keeps (execPotRestart_held ..)
  | .ringEnable .. => .keeps (execRingEnable_held ..)
  | .ringDisable .. => .keeps (execRingDisable_held ..)
  | .coalesceTimerExpiry .. => .keeps (execCoalesceTimerExpiry_held ..)
  | .snapshotStart .. => .keeps (execSnapshotStart_held ..)
  | .snapshotDone .. => .keeps (execSnapshotDone_held ..)
  | .sidebandRead .. => .keeps (execSidebandRead_held ..)
  | .sidebandWrite .. => .keeps (execSidebandWrite_held ..)
  | .registerWrite .. => .keeps (execRegisterWrite_held ..)
  | .traceControl .. => .keeps (execTraceControl_held ..)
  | .markerPulse .. => .keeps (execMarkerPulse_held ..)
  | .traceSyncTimer .. => .keeps (execTraceSyncTimer_held ..)
  | .traceFrame => .keeps (execTraceFrame_held _)
  | .mapRebuildDone => .keeps (execMapRebuildDone_held _)
  | .hardwareFailure .. => .keeps (execHardwareFailure_held ..)
  | .controllerEnable => .keeps (execControllerEnable_held _)
  | .jtagAccess a => execJtagAccess_moves a s
  | .quotaWaitExpiry .. => .keeps (execQuotaWaitExpiry_held ..)
  | .shareWindowEnd .. => .keeps (execShareWindowEnd_held ..)
  | .thermalTripClear => .keeps (execThermalTripClear_held _)

/-- A command's next state is reached by one of the moves. -/
theorem heldMove_of_exec {c : Instr} {s t : State} (h : exec c s = .next t) : HeldMove c s t := by
  obtain ⟨hfault, -⟩ | ⟨u, hu, hmove⟩ := exec_moves c s
  · rw [hfault] at h
    cases h
  · rw [hu] at h
    cases h
    exact hmove

/-- A step idles, or is one of the moves of the command at the front of the queue. -/
theorem heldMove_of_step {s t : State} (h : step s = .next t) :
    t = s ∨ ∃ c rest, s.pending = c :: rest ∧ HeldMove c { s with pending := rest } t := by
  unfold step at h
  split at h
  next => cases h; exact .inl rfl
  next c rest hq => exact .inr ⟨c, rest, hq, heldMove_of_exec h⟩

/-- No move touches the queue. -/
theorem HeldMove.pending {c : Instr} {s t : State} (h : HeldMove c s t) : t.pending = s.pending := by
  cases h <;> exact congrArg Held.pending ‹_›

/-- No move touches the identity. -/
theorem HeldMove.identity {c : Instr} {s t : State} (h : HeldMove c s t) : t.sec.identity = s.sec.identity := by
  cases h <;> exact congrArg Held.identity ‹_›

/-- A move leaves the anti-rollback counter, or is a Firmware Commit that does not lower it. -/
theorem HeldMove.rollback {c : Instr} {s t : State} (h : HeldMove c s t) : t.boot.rollback = s.boot.rollback ∨
    s.boot.rollback ≤ t.boot.rollback ∧ ((∃ n k m, c = .fwCommitReplace n k m) ∨ (∃ n k m, c = .fwCommitActivateNext n k m) ∨
      (∃ n k m, c = .fwCommitActivateNow n k m)) := by
  cases h with
  | commits r hc hrises h =>
    have hr : t.boot.rollback = r := congrArg Held.rollback h
    exact .inr ⟨hr ▸ hrises, hc⟩
  | _ => exact .inl (congrArg Held.rollback ‹_›)

/-- A move leaves the straps, or is a power-on. -/
theorem HeldMove.straps {c : Instr} {s t : State} (h : HeldMove c s t) :
    t.power.straps = s.power.straps ∨ ∃ x f a b ca cb, c = .powerOn x f a b ca cb := by
  cases h with
  | samples straps hc => exact .inr ⟨straps, hc⟩
  | _ => exact .inl (congrArg Held.straps ‹_›)

/-- A move leaves the owner key, or is action 3 or 5 under the outstanding token. -/
theorem HeldMove.ownerKey {c : Instr} {s t : State} (h : HeldMove c s t) : t.sec.ownerKey = s.sec.ownerKey ∨
    ∃ a, s.sec.token = some a.token ∧ (c = .actionProvisioned a ∧ t.sec.ownerKey = (a.sigs.head?).map (·.keyDigest) ∨
      c = .actionReturn a ∧ t.sec.ownerKey = none) := by
  cases h with
  | provisions a hc _ _ htoken _ h => exact .inr ⟨a, htoken, .inl ⟨hc, congrArg Held.ownerKey h⟩⟩
  | returns a hc _ _ htoken h => exact .inr ⟨a, htoken, .inr ⟨hc, congrArg Held.ownerKey h⟩⟩
  | _ => exact .inl (congrArg Held.ownerKey ‹_›)

/-- Whether an owner key is held rightly is said of the held part alone. -/
theorem State.ownerKeyHeld_iff (s : State) : s.ownerKeyHeld ↔
    s.held.ownerKey.isSome = (s.held.lifecycle == .provisioned || s.held.lifecycle == .operational) := Iff.rfl

/-- A move keeps that an owner key is held exactly while the module is owned. -/
theorem HeldMove.ownerKeyHeld {c : Instr} {s t : State} (h : HeldMove c s t) (hs : s.ownerKeyHeld) : t.ownerKeyHeld := by
  rw [State.ownerKeyHeld_iff] at hs ⊢
  cases h with
  | provisions a _ _ _ _ hsigned h =>
    obtain ⟨g, sigs, hg⟩ := List.exists_cons_of_ne_nil hsigned
    simp [h, hg]
  | opens a _ hfrom _ _ h =>
    have hl : s.held.lifecycle = .provisioned := hfrom
    simp [h, hs, hl]
  | returns a _ _ _ _ h => simp [h]
  | blanks a _ hfrom _ _ h =>
    have hl : s.held.lifecycle = .returned := hfrom
    rw [hl] at hs
    rw [h]
    exact hs
  | keeps h | commits _ _ _ h | samples _ _ h => rw [h]; exact hs

-- The statements

/-- Settles O1: the step by the two shapes of the queue. -/
theorem stepRunsFrontCommand : Obligations.StepRunsFrontCommand := by
  refine ⟨fun _ _ _ => rfl, fun s hs => ?_⟩
  rw [step, hs]

/-- Settles O2: every answer is one of the moves, and no move touches the queue. -/
theorem commandsCompleteAndKeepTheQueue : Obligations.CommandsCompleteAndKeepTheQueue := by
  refine ⟨fun c s => ?_, fun c s t h => (heldMove_of_exec h).pending⟩
  obtain hfault | ⟨t, ht, -⟩ := exec_moves c s
  · exact .inr hfault
  · exact .inl ⟨t, ht⟩

/-- Settles O3: among the moves, four change the lifecycle. -/
theorem lifecycleMovesOnlyByItsActions : Obligations.LifecycleMovesOnlyByItsActions := by
  intro s t h hne
  obtain rfl | ⟨c, rest, hq, hmove⟩ := heldMove_of_step h
  · exact absurd rfl hne
  · cases hmove with
    | provisions a hc hfrom hps0 htoken _ h =>
      exact ⟨hps0, a, rest, htoken, .inl ⟨hc ▸ hq, hfrom, congrArg Held.lifecycle h⟩⟩
    | opens a hc hfrom hps0 htoken h =>
      exact ⟨hps0, a, rest, htoken, .inr (.inl ⟨hc ▸ hq, hfrom, congrArg Held.lifecycle h⟩)⟩
    | returns a hc hfrom hps0 htoken h =>
      exact ⟨hps0, a, rest, htoken, .inr (.inr (.inl ⟨hc ▸ hq, hfrom, congrArg Held.lifecycle h⟩))⟩
    | blanks a hc hfrom hps0 htoken h =>
      exact ⟨hps0, a, rest, htoken, .inr (.inr (.inr ⟨hc ▸ hq, hfrom, congrArg Held.lifecycle h⟩))⟩
    | keeps h | commits _ _ _ h | samples _ _ h => exact absurd (congrArg Held.lifecycle h) hne

/-- Settles O4: each move keeps it. -/
theorem ownerKeyHeldExactlyWhileOwned : Obligations.OwnerKeyHeldExactlyWhileOwned := by
  intro s t hs h
  obtain rfl | ⟨c, rest, -, hmove⟩ := heldMove_of_step h
  · exact hs
  · exact hmove.ownerKeyHeld hs

/-- Settles O5. -/
theorem resetHoldsNoOwnerKey : Obligations.ResetHoldsNoOwnerKey := by
  exact ⟨rfl, rfl, rfl⟩

/-- Settles O6: each part of the held state by the moves that write it. -/
theorem securityStateHasItsWriters : Obligations.SecurityStateHasItsWriters := by
  refine ⟨fun s t h hne => ?_, fun s t h => ?_, fun c s t h => ⟨?_, ?_⟩⟩
  · obtain rfl | ⟨c, rest, hq, hmove⟩ := heldMove_of_step h
    · exact absurd rfl hne
    · obtain hkept | ⟨a, htoken, ⟨rfl, hkey⟩ | ⟨rfl, hkey⟩⟩ := hmove.ownerKey
      · exact absurd hkept hne
      · exact ⟨a, rest, htoken, .inl ⟨hq, hkey⟩⟩
      · exact ⟨a, rest, htoken, .inr ⟨hq, hkey⟩⟩
  · obtain rfl | ⟨c, rest, -, hmove⟩ := heldMove_of_step h
    · exact ⟨rfl, Nat.le_refl _⟩
    · exact ⟨hmove.identity, hmove.rollback.elim (fun hkept => Nat.le_of_eq hkept.symm) And.left⟩
  · exact fun hne => ((heldMove_of_exec h).rollback.resolve_left hne).2
  · exact fun hne => (heldMove_of_exec h).straps.resolve_left hne

end Sys2Proof.Machine
end

section
/-! Proofs about the security element's requests (R378 to R380): when it answers, what its answers leave, and the token. -/

namespace Sys2Proof.Machine

-- Bytes of fixed length

@[simp] theorem length_natLe (n v : Nat) : (natLe n v).length = n := by
  induction n generalizing v with
  | zero => rfl
  | succ n ih => simp [natLe, ih]

@[simp] theorem length_zeros (n : Nat) : (zeros n).length = n := List.length_replicate

/-- Free bytes are as many as were asked for. -/
@[simp] theorem State.length_freeBytes (s : State) (i n : Nat) : (s.freeBytes i n).length = n := by
  have hwords : ∀ l : List Nat, ((l.map fun k => natLe 8 (Config.freeWord s.free (i + k)).toNat).flatten).length = 8 * l.length := by
    intro l
    induction l with
    | nil => rfl
    | cons k l ih => simp [ih]; omega
  have henough : n ≤ 8 * ceilDiv n 8 := by unfold ceilDiv; omega
  simp [State.freeBytes, hwords, henough]

-- Answers

/-- An element that answers puts its answer in the place of the last one, and does nothing else. -/
theorem State.answer_of_up {s : State} (hup : s.elementUp = true) (r : Reply) :
    s.answer r = { s with sec := { s.sec with reply := r } } := if_pos hup

/-- Whether the element answers does not depend on what it holds. -/
@[simp] theorem State.elementUp_modSec (s : State) (f : Sec → Sec) : (s.modSec f).elementUp = s.elementUp := rfl

/-- A request that needs the algorithms is answered once they are agreed (log 8). -/
theorem State.agreed_of_up {s : State} (hup : s.elementUp = true) (hversion : s.sec.versionOk = true)
    (halgorithms : s.sec.algorithmsOk = true) (r : Reply) : s.agreed r = { s with sec := { s.sec with reply := r } } := by
  simp [State.agreed, hversion, halgorithms, State.answer_of_up hup]

/-- A long answer comes at once, or is announced by an error and waits to be fetched in chunks (log 1). -/
theorem State.longAnswer_cases {s : State} (hup : s.elementUp = true) (hversion : s.sec.versionOk = true)
    (halgorithms : s.sec.algorithmsOk = true) (r : Reply) (n : Nat) :
    s.longAnswer r n = { s with free := s.free + 1, sec := { s.sec with reply := r } } ∨
      ∃ h b, s.longAnswer r n = { s with free := s.free + 1, sec := { s.sec with reply := .error, large := some (h, 0, b) } } := by
  rw [State.longAnswer]
  split
  · exact .inr ⟨Config.pick s.free 1 256, s.freeBytes 2 n, rfl⟩
  · exact .inl (congrArg State.used (State.agreed_of_up hup hversion halgorithms r))

/-- An index below 16 with a value answers that value: 0 and 0xFF alone stand for others (R379). -/
theorem execGetMeasurements_of_index {s : State} {i : Nat} {v : Bytes} (hv : s.measurement i = some v) (hpos : 0 < i) (hlt : i < 16)
    (signed : Bool) (nonce : Bytes) : exec (.getMeasurements i signed nonce) s =
      .next (if signed then s.longAnswer (.measurements [(i, v)] true nonce) 2600 else s.agreed (.measurements [(i, v)] false nonce)) := by
  have hzero : i ≠ 0 := by omega
  have hall : i ≠ 0xFF := by omega
  change execGetMeasurements i signed nonce s = _
  simp only [execGetMeasurements, if_neg hzero, if_neg hall, hv, Option.map_some]

/-- A first chunk starts the request that is assembled. -/
theorem execChunkSend_first {s : State} (hup : s.elementUp = true) (hversion : s.sec.versionOk = true)
    (halgorithms : s.sec.algorithmsOk = true) (h : Nat) (last : Bool) (chunk : Bytes) :
    exec (.chunkSend h 0 last chunk) s = .next { s with sec := { s.sec with
      chunks := if last then none else some (h, 1, chunk), reply := .chunkAck h 0 } } := by
  have hgo : ¬ (!(s.elementUp && s.sec.versionOk && s.sec.algorithmsOk)) = true := by simp [hup, hversion, halgorithms]
  exact (if_neg hgo).trans (congrArg Host.Outcome.next (State.answer_of_up (s := s.modSec _) hup _))

/-- A chunk with the next number extends the request that is assembled. -/
theorem execChunkSend_next {s : State} (hup : s.elementUp = true) (hversion : s.sec.versionOk = true)
    (halgorithms : s.sec.algorithmsOk = true) {h n : Nat} {b : Bytes} (hchunks : s.sec.chunks = some (h, n, b)) (hn : n ≠ 0)
    (last : Bool) (chunk : Bytes) :
    exec (.chunkSend h n last chunk) s = .next { s with sec := { s.sec with
      chunks := if last then none else some (h, n + 1, b ++ chunk), reply := .chunkAck h n } } := by
  have hgo : ¬ (!(s.elementUp && s.sec.versionOk && s.sec.algorithmsOk)) = true := by simp [hup, hversion, halgorithms]
  refine (if_neg hgo).trans ?_
  simp only [if_neg hn, hchunks, Option.bind_some, and_self, if_true]
  exact congrArg Host.Outcome.next (State.answer_of_up (s := s.modSec _) hup _)

/-- The next part of a long answer, of a length that is free. -/
theorem execChunkGet_next {s : State} (hup : s.elementUp = true) {h n : Nat} {b : Bytes} (hlarge : s.sec.large = some (h, n, b)) :
    ∃ k, 0 < k ∧ exec (.chunkGet h n) s = .next { s with free := s.free + 1, sec := { s.sec with
      large := if b.length ≤ k then none else some (h, n + 1, b.drop k)
      reply := .chunk h n (b.take k) (decide (b.length ≤ k)) } } := by
  refine ⟨1 + Config.pick s.free 0 b.length, Nat.lt_of_lt_of_le Nat.one_pos (Nat.le_add_right _ _), ?_⟩
  change execChunkGet h n s = _
  have hmine : ¬ (h ≠ h ∨ n ≠ n ∨ s.elementUp = false) := by simp [hup]
  simp only [execChunkGet, hlarge, if_neg hmine, decide_eq_true_eq]
  rw [State.answer_of_up (s := s.modSec _) hup]
  rfl

/-- The token of Table 16.7 has 128 bytes. -/
theorem State.length_tokenBytes (s : State) (action : Nat) : (s.tokenBytes action).length = 128 := by
  simp [State.tokenBytes]

/-- TOKEN_REQUEST of an action of Table 16.6, when it is not locked out. -/
theorem execTokenRequest_of_action {s : State} (hup : s.elementUp = true) (hlocked : s.sec.locked = false) {action : Nat}
    (hlo : 1 ≤ action) (hhi : action ≤ 6) : exec (.tokenRequest action) s = .next { s with
      free := s.free + 1, sec := { s.sec with token := some (s.tokenBytes action), reply := .token (s.tokenBytes action) } } := by
  have haction : ¬ (action < 1 ∨ 6 < action) := by omega
  change execTokenRequest action s = _
  rw [execTokenRequest, if_neg (by simp [hup]), if_neg (by simp [hlocked]), if_neg haction]
  exact congrArg (fun t : State => Host.Outcome.next t.used) (State.answer_of_up (s := s.modSec _) hup _)

/-- Settles O7: each request by what it answers, an answer that may be long by its two forms. -/
theorem elementAnswersRequests : Obligations.ElementAnswersRequests := by
  refine ⟨fun s hup => ?_, fun s hup hversion halgorithms => ?_, fun s => ?_⟩
  · have hanswer (r : Reply) (f : Sec → Sec) := State.answer_of_up (s := s.modSec f) hup r
    refine ⟨?_, fun code => ?_, ?_, fun hversion => ⟨?_, ?_, fun hash mldsa hno => ?_⟩, fun hversion halgorithms => ?_⟩
    · exact congrArg Host.Outcome.next ((if_pos hup).trans (hanswer _ _))
    · exact congrArg Host.Outcome.next (s.answer_of_up hup _)
    · exact congrArg Host.Outcome.next (s.answer_of_up hup _)
    · exact congrArg Host.Outcome.next ((congrArg s.answer (if_pos hversion)).trans (s.answer_of_up hup _))
    · have hgo : (s.elementUp && s.sec.versionOk && true && true) = true := by simp [hup, hversion]
      exact congrArg Host.Outcome.next ((if_pos hgo).trans (hanswer _ _))
    · change execNegotiateAlgorithms hash mldsa s = _
      have hrefused : ¬ (s.elementUp && s.sec.versionOk && hash && mldsa) = true := by
        rcases hno with rfl | rfl <;> simp
      rw [execNegotiateAlgorithms, if_neg hrefused, s.answer_of_up hup]
    · have hagreed := s.agreed_of_up hup hversion halgorithms
      refine ⟨congrArg Host.Outcome.next (hagreed _), fun i v nonce hv hpos hlt => ?_,
        fun nonce => congrArg Host.Outcome.next (hagreed _), fun chain howned => ?_,
        fun slot chain hno => ?_, fun h last chunk => execChunkSend_first hup hversion halgorithms h last chunk,
        fun h n b last chunk hchunks hn => execChunkSend_next hup hversion halgorithms hchunks hn last chunk⟩
      · rw [execGetMeasurements_of_index hv hpos hlt]
        exact congrArg Host.Outcome.next (hagreed _)
      · have hgo : (s.elementUp && s.sec.versionOk && s.sec.algorithmsOk && (1 : Fin 8).val == 1 &&
            s.sec.lifecycle == .provisioned) = true := by simp [hup, hversion, halgorithms, howned]
        exact congrArg Host.Outcome.next ((if_pos hgo).trans (hanswer _ _))
      · change execSetCertificate slot chain s = _
        have hrefused : ¬ (s.elementUp && s.sec.versionOk && s.sec.algorithmsOk && slot.val == 1 &&
            s.sec.lifecycle == .provisioned) = true := by
          simp only [Bool.and_eq_true, beq_iff_eq]
          rintro ⟨⟨-, hslot⟩, howned⟩
          exact hno.elim (fun h => h (Fin.ext hslot)) fun h => h howned
        rw [execSetCertificate, if_neg hrefused, s.answer_of_up hup]
  · have hlong (r : Reply) (n : Nat) := s.longAnswer_cases hup hversion halgorithms r n
    refine ⟨fun slot nonce hchain => ⟨_, congrArg Host.Outcome.next (if_pos hchain), hlong _ _⟩, fun slot off len c hc hoff => ?_,
      fun i v nonce hv hpos hlt => ⟨_, execGetMeasurements_of_index hv hpos hlt true nonce, hlong _ _⟩,
      ⟨_, rfl, hlong _ _⟩, fun h n b hlarge => ?_⟩
    · refine ⟨_, ?_, hlong _ len⟩
      change execGetCertificate slot off len s = _
      simp only [execGetCertificate, hc, if_neg (Nat.not_le.mpr hoff)]
    · obtain ⟨k, hk, hnext⟩ := execChunkGet_next hup hlarge
      exact ⟨_, hnext, k, hk, rfl⟩
  · refine ⟨fun action hup hlocked hlo hhi => ?_, fun action hup hlocked => ?_, rfl, rfl⟩
    · exact ⟨s.tokenBytes action, s.freeBytes 0 32, s.length_freeBytes 0 32, rfl, s.length_tokenBytes action,
        execTokenRequest_of_action hup hlocked hlo hhi⟩
    · change execTokenRequest action s = _
      rw [execTokenRequest, if_neg (by simp [hup]), if_pos hlocked, s.answer_of_up hup]

end Sys2Proof.Machine
end

section
/-! Proofs about the rings (chapter 10): where the doorbells lie and which values they take, the fetch of descriptors, the
configuration word, and the posting of completion entries. -/

namespace Sys2Proof.Machine

-- Where the doorbells lie (R236)

/-- The page of BAR2 at which a function finds the doorbells of a pot. -/
def doorbellPage (fn : PcieFn) (p : Fin 8) : Nat := match fn with | .pf1 => p.val | .vf _ => 0

/-- A pot as the index of a page, and a ring as the index of a place in it. -/
theorem fin8_val (p : Fin 8) : fin8 p.val = p := Fin.ext (Nat.mod_eq_of_lt p.isLt)
theorem fin16_val (i : Fin 16) : fin16 i.val = i := Fin.ext (Nat.mod_eq_of_lt i.isLt)

/-- A function that reaches a pot's ring set is PF1 or the pot's own VF. -/
theorem State.fn_of_reaches {s : State} {fn : PcieFn} {p : Fin 8} (h : s.reaches fn (some p) = true) : fn = .pf1 ∨ fn = .vf p := by
  cases fn with
  | pf1 => exact .inl rfl
  | vf n =>
    simp only [State.reaches, Bool.and_eq_true, beq_iff_eq, Option.some.injEq] at h
    exact .inr (congrArg PcieFn.vf h.1.symm)

/-- What lies at an offset of a pot's page, from either function that has the page. -/
theorem doorbellAt_page {fn : PcieFn} {p : Fin 8} (hfn : fn = .pf1 ∨ fn = .vf p) {off : Nat} (hoff : off < 0x1000) :
    doorbellAt fn (0x1000 * doorbellPage fn p + off) =
      if off < 0x80 ∧ off % 8 = 0 then some (some p, RingSel.sq (fin16 (off / 8)))
      else if 0x100 ≤ off ∧ off < 0x180 ∧ off % 8 = 0 then some (some p, RingSel.cq (fin16 ((off - 0x100) / 8)))
      else if off = 0x200 then some (some p, RingSel.ev)
      else none := by
  have hp := p.isLt
  rcases hfn with rfl | rfl
  · have hpage : (0x1000 * p.val + off) / 0x1000 = p.val := by omega
    have hplace : (0x1000 * p.val + off) % 0x1000 = off := by omega
    simp only [doorbellAt, doorbellPage, hpage, hplace, fin8_val, if_pos (show 0x1000 * p.val + off < 0x8000 by omega)]
  · have hplace : (0x1000 * 0 + off) % 0x1000 = off := by omega
    simp only [doorbellAt, doorbellPage, hplace, fin8_val, if_pos (show 0x1000 * 0 + off < 0x1000 by omega)]

theorem doorbellAt_sq {fn : PcieFn} {p : Fin 8} (hfn : fn = .pf1 ∨ fn = .vf p) (i : Fin 16) :
    doorbellAt fn (0x1000 * doorbellPage fn p + 8 * i.val) = some (some p, .sq i) := by
  have hi := i.isLt
  rw [doorbellAt_page hfn (by omega), if_pos (by omega), Nat.mul_div_cancel_left _ (by decide), fin16_val]

theorem doorbellAt_cq {fn : PcieFn} {p : Fin 8} (hfn : fn = .pf1 ∨ fn = .vf p) (c : Fin 16) :
    doorbellAt fn (0x1000 * doorbellPage fn p + (0x100 + 8 * c.val)) = some (some p, .cq c) := by
  have hc := c.isLt
  rw [doorbellAt_page hfn (by omega), if_neg (by omega), if_pos (by omega), Nat.add_sub_cancel_left,
    Nat.mul_div_cancel_left _ (by decide), fin16_val]

theorem doorbellAt_ev {fn : PcieFn} {p : Fin 8} (hfn : fn = .pf1 ∨ fn = .vf p) :
    doorbellAt fn (0x1000 * doorbellPage fn p + 0x200) = some (some p, .ev) := by
  rw [doorbellAt_page hfn (by decide), if_neg (by decide), if_neg (by decide), if_pos rfl]

-- What a doorbell write does (R236, R237)

/-- The host's index moves; on a completion ring held entries then take the free slots. -/
def State.moveHostIndex (s : State) (pot : Option (Fin 8)) (sel : RingSel) (v : BitVec 32) : State :=
  let u := s.setRing pot sel { s.ring pot sel with hostIndex := v.truncate 16 }
  match pot, sel with
  | some p, .cq c => u.drainHeld p c (s.ring pot sel).held.length
  | _, _ => u

/-- A doorbell of 32 bits with a valid index moves the host's index. -/
theorem State.doorbell_of_ok {s : State} {fn : PcieFn} {pot : Option (Fin 8)} {sel : RingSel} {v : BitVec 32}
    (hreach : s.reaches fn pot = true) (hok : (s.ring pot sel).doorbellOk sel v = true) :
    s.doorbell fn pot sel 4 v = s.moveHostIndex pot sel v := by
  rw [State.doorbell, if_neg (by simp [hreach]), if_neg (by simp)]
  exact if_pos hok

/-- A doorbell of 32 bits with an index that is not valid is ignored, counted, and sets the ring's error. -/
theorem State.doorbell_of_bad {s : State} {fn : PcieFn} {pot : Option (Fin 8)} {sel : RingSel} {v : BitVec 32}
    (hreach : s.reaches fn pot = true) (hbad : (s.ring pot sel).doorbellOk sel v = false) :
    s.doorbell fn pot sel 4 v = s.badDoorbell pot sel := by
  rw [State.doorbell, if_neg (by simp [hreach]), if_neg (by simp)]
  exact if_neg (by simp [hbad])

/-- A doorbell of another size is ignored and counted. -/
theorem State.doorbell_of_size {s : State} {fn : PcieFn} {pot : Option (Fin 8)} (hreach : s.reaches fn pot = true) (sel : RingSel)
    {size : Nat} (hsize : size ≠ 4) (v : BitVec 32) : s.doorbell fn pot sel size v = s.ignoredDoorbell pot := by
  rw [State.doorbell, if_neg (by simp [hreach]), if_pos hsize]

/-- A function that does not carry the ring set reaches nothing. -/
theorem State.doorbell_of_unreached {s : State} {fn : PcieFn} {pot : Option (Fin 8)} (hreach : s.reaches fn pot = false) (sel : RingSel)
    (size : Nat) (v : BitVec 32) : s.doorbell fn pot sel size v = s := by
  rw [State.doorbell, if_pos (by simp [hreach])]

/-- Host memory with the bytes that host software wrote before a doorbell. -/
def State.withHostBytes (s : State) (host : List (Nat × Byte)) : State :=
  s.modHost fun h => { h with mem := host.foldl (fun m w => Memory.write m (w.1 % 2 ^ 64) w.2) h.mem }

/-- The doorbell commands at the offsets where their doorbells lie. -/
theorem exec_sqTailDoorbell {fn : PcieFn} {p : Fin 8} (hfn : fn = .pf1 ∨ fn = .vf p) (i : Fin 16) (size : Nat) (v : BitVec 32)
    (host : List (Nat × Byte)) (s : State) : exec (.sqTailDoorbell fn (doorbellPage fn p) (8 * i.val) size v host) s =
      .next ((s.withHostBytes host).doorbell fn (some p) (.sq i) size v) := by
  change execSqTailDoorbell _ _ _ _ _ _ s = _
  simp only [execSqTailDoorbell, doorbellAt_sq hfn]
  rfl

theorem exec_cqHeadDoorbell {fn : PcieFn} {p : Fin 8} (hfn : fn = .pf1 ∨ fn = .vf p) (c : Fin 16) (size : Nat) (v : BitVec 32)
    (s : State) : exec (.cqHeadDoorbell fn (doorbellPage fn p) (0x100 + 8 * c.val) size v) s =
      .next (s.doorbell fn (some p) (.cq c) size v) := by
  change execCqHeadDoorbell _ _ _ _ _ s = _
  simp only [execCqHeadDoorbell, doorbellAt_cq hfn]

theorem exec_eventHeadDoorbell {fn : PcieFn} {p : Fin 8} (hfn : fn = .pf1 ∨ fn = .vf p) (size : Nat) (v : BitVec 32) (s : State) :
    exec (.eventHeadDoorbell fn (0x1000 * doorbellPage fn p + 0x200) size v) s = .next (s.doorbell fn (some p) .ev size v) := by
  change execEventHeadDoorbell _ _ _ _ s = _
  simp only [execEventHeadDoorbell, doorbellAt_ev hfn]

/-- An offset at which no doorbell lies. -/
theorem exec_doorbells_of_none {fn : PcieFn} {page off : Nat} (hnone : doorbellAt fn (0x1000 * page + off) = none) (size : Nat)
    (v : BitVec 32) (s : State) : exec (.sqTailDoorbell fn page off size v []) s = .next s ∧
      exec (.cqHeadDoorbell fn page off size v) s = .next s ∧
      exec (.eventHeadDoorbell fn (0x1000 * page + off) size v) s = .next s := by
  refine ⟨?_, ?_, ?_⟩
  · change execSqTailDoorbell _ _ _ _ _ _ s = _
    simp only [execSqTailDoorbell, hnone, List.foldl_nil]
    rfl
  · change execCqHeadDoorbell _ _ _ _ _ s = _
    simp only [execCqHeadDoorbell, hnone]
  · change execEventHeadDoorbell _ _ _ _ s = _
    simp only [execEventHeadDoorbell, hnone]

-- Which indices a doorbell takes (R236)

theorem Ring.size_pos (r : Ring) : 0 < r.size := Nat.two_pow_pos _

/-- In a ring of `n`, the index `v` lies within `room` of the host's position exactly when some number of steps, at most `room`, leads
from there to it. -/
theorem ring_steps_iff {n v h room : Nat} (hv : v < n) (hh : h < n) (hroom : room < n) :
    (v + (n - h)) % n ≤ room ↔ ∃ k, k ≤ room ∧ (h + k) % n = v := by
  constructor
  · intro hle
    refine ⟨_, hle, ?_⟩
    rw [Nat.add_mod_mod, show h + (v + (n - h)) = v + n by omega, Nat.add_mod_right, Nat.mod_eq_of_lt hv]
  · rintro ⟨k, hk, rfl⟩
    rw [Nat.mod_add_mod, show h + k + (n - h) = k + n by omega, Nat.add_mod_right, Nat.mod_eq_of_lt (by omega)]
    exact hk

/-- A valid index of a ring: enabled, in the ring, and no more steps on than the module's position lets it. -/
theorem Ring.doorbellOk_iff (r : Ring) (sel : RingSel) (v : BitVec 32) (hhost : r.hostIndex.toNat < r.size)
    (hroom : r.doorbellRoom sel < r.size) : r.doorbellOk sel v = true ↔ r.enable = true ∧ v.toNat < r.size ∧ v.toNat < 2 ^ 16 ∧
      ∃ k, k ≤ r.doorbellRoom sel ∧ (r.hostIndex.toNat + k) % r.size = v.toNat := by
  simp only [Ring.doorbellOk, Bool.and_eq_true, decide_eq_true_eq]
  constructor
  · rintro ⟨⟨⟨hen, hsmall⟩, hv⟩, hsteps⟩
    exact ⟨hen, hv, hsmall, (ring_steps_iff hv hhost hroom).mp hsteps⟩
  · rintro ⟨hen, hv, hsmall, hsteps⟩
    exact ⟨⟨⟨hen, hsmall⟩, hv⟩, (ring_steps_iff hv hhost hroom).mpr hsteps⟩

theorem Ring.doorbellRoom_lt (r : Ring) (sel : RingSel) : r.doorbellRoom sel < r.size := by
  unfold Ring.doorbellRoom
  split <;> exact Nat.mod_lt _ r.size_pos

theorem Ring.doorbellRoom_sq (r : Ring) (i : Fin 16) (hhost : r.hostIndex.toNat < r.size) :
    r.doorbellRoom (.sq i) = (r.moduleIndex.toNat + (r.size - 1) + r.size - r.hostIndex.toNat) % r.size := by
  have hpos := r.size_pos
  exact congrArg (· % r.size) (by omega)

theorem Ring.doorbellRoom_cq (r : Ring) (c : Fin 16) (hhost : r.hostIndex.toNat < r.size) :
    r.doorbellRoom (.cq c) = (r.moduleIndex.toNat + r.size - r.hostIndex.toNat) % r.size :=
  congrArg (· % r.size) (by omega)

/-- Settles O23: each doorbell by what lies at its offset and what its value is. -/
theorem doorbellsMoveIndices : Obligations.DoorbellsMoveIndices := by
  refine ⟨fun s fn p v hreach => ?_, fun r i v _ hhost _ => ⟨?_, ?_⟩, fun s fn p c v hfn => ?_⟩
  · have hfn := State.fn_of_reaches hreach
    refine ⟨fun i host hok => ?_, fun c hok => ?_, fun hok => ?_, fun hok => ?_⟩
    · exact (exec_sqTailDoorbell hfn i 4 v host s).trans (congrArg Host.Outcome.next (State.doorbell_of_ok (s := s.withHostBytes host) hreach hok))
    · have hmoved := (exec_cqHeadDoorbell hfn c 4 v s).trans (congrArg Host.Outcome.next (State.doorbell_of_ok hreach hok))
      refine ⟨_, hmoved, rfl, fun hheld => hmoved.trans (congrArg Host.Outcome.next ?_)⟩
      have hnone : (s.ring (some p) (.cq c)).held.length = 0 := congrArg List.length hheld
      rw [State.moveHostIndex, hnone]
      rfl
    · exact (exec_eventHeadDoorbell hfn 4 v s).trans (congrArg Host.Outcome.next (State.doorbell_of_ok hreach hok))
    · exact congrArg Host.Outcome.next (State.doorbell_of_ok (fn := .pf1) (pot := none) (sel := .ev) rfl hok)
  · rw [← r.doorbellRoom_sq i hhost]
    exact r.doorbellOk_iff _ v hhost (r.doorbellRoom_lt _)
  · rw [← r.doorbellRoom_cq i hhost]
    exact r.doorbellOk_iff _ v hhost (r.doorbellRoom_lt _)
  · refine ⟨fun page off size hnone => exec_doorbells_of_none hnone size v s, fun hunreached size => ⟨?_, ?_⟩,
      fun hreach => ⟨fun size hsize => ⟨?_, ?_⟩, fun hbad => ?_, fun i hbad => ?_⟩⟩
    · exact (exec_cqHeadDoorbell hfn c size v s).trans (congrArg Host.Outcome.next (State.doorbell_of_unreached hunreached _ _ _))
    · exact (exec_eventHeadDoorbell hfn size v s).trans (congrArg Host.Outcome.next (State.doorbell_of_unreached hunreached _ _ _))
    · exact (exec_cqHeadDoorbell hfn c size v s).trans (congrArg Host.Outcome.next (State.doorbell_of_size hreach _ hsize v))
    · exact (exec_eventHeadDoorbell hfn size v s).trans (congrArg Host.Outcome.next (State.doorbell_of_size hreach _ hsize v))
    · exact (exec_cqHeadDoorbell hfn c 4 v s).trans (congrArg Host.Outcome.next (State.doorbell_of_bad hreach hbad))
    · exact (exec_sqTailDoorbell hfn i 4 v [] s).trans (congrArg Host.Outcome.next (State.doorbell_of_bad (s := s.withHostBytes []) hreach hbad))

-- The fetch of descriptors (R233, R246, R249)

/-- A pot that cannot fetch, or has nothing to fetch, fetches nothing. -/
theorem exec_descriptorFetch_of_none {s : State} {p : Fin 8} (h : s.canFetch p = false ∨ s.nextRing p = none) :
    exec (.descriptorFetch p) s = .next s ∧ exec (.descriptorFetchFailed p) s = .next s := by
  change execDescriptorFetch p s = _ ∧ execDescriptorFetchFailed p s = _
  unfold execDescriptorFetch execDescriptorFetchFailed
  rcases h with h | h
  · simp [h]
  · simp only [h]
    exact ⟨ite_self _, ite_self _⟩

theorem exec_descriptorFetchFailed_of_some {s : State} {p : Fin 8} {i : Fin 16} (hcan : s.canFetch p = true) (hi : s.nextRing p = some i) :
    exec (.descriptorFetchFailed p) s = .next (s.fetchFailed p i) := by
  change execDescriptorFetchFailed p s = _
  rw [execDescriptorFetchFailed, if_neg (by simp [hcan]), hi]

/-- A fetch whose read PCIe fails is a failed fetch. -/
theorem exec_descriptorFetch_of_unread {s : State} {p : Fin 8} {i : Fin 16} (hcan : s.canFetch p = true) (hi : s.nextRing p = some i)
    (hread : s.hostRead ((s.ring (some p) (.sq i)).slot 128) 128 = none) : exec (.descriptorFetch p) s = .next (s.fetchFailed p i) := by
  change execDescriptorFetch p s = _
  rw [execDescriptorFetch, if_neg (by simp [hcan])]
  simp only [hi, hread]

/-- The job that a descriptor makes. -/
def State.fetchedAs (s : State) (p : Fin 8) (i : Fin 16) (d : Bytes) : Job :=
  { key := s.nextId, pot := p.val, ring := i.val, cq := (s.ring (some p) (.sq i)).targetCq.toNat, desc := d, fetchedAt := s.time }

/-- The state with a descriptor taken from its ring and its job in flight. -/
def State.takeDescriptor (s : State) (p : Fin 8) (i : Fin 16) (d : Bytes) : State :=
  let u := (s.hostSeen ((s.ring (some p) (.sq i)).slot 128) 128).setRing (some p) (.sq i) (s.ring (some p) (.sq i)).advance
  { u with
    host := { u.host with next := u.host.next.set p ((i.val + 1) % 16) }
    jobs := u.jobs ++ [s.fetchedAs p i d], nextId := u.nextId + 1 }

/-- A fetch that reads its descriptor makes a job in flight, refused at once when no table assigns its type (R9). -/
theorem exec_descriptorFetch_of_read {s : State} {p : Fin 8} {i : Fin 16} {d : Bytes} (hcan : s.canFetch p = true)
    (hi : s.nextRing p = some i) (hread : s.hostRead ((s.ring (some p) (.sq i)).slot 128) 128 = some d) :
    exec (.descriptorFetch p) s = .next (if assignedType (s.fetchedAs p i d).type then s.takeDescriptor p i d
      else (s.takeDescriptor p i d).refuseJob (s.fetchedAs p i d).key 0x10) := by
  change execDescriptorFetch p s = _
  rw [execDescriptorFetch, if_neg (by simp [hcan])]
  simp only [hi, hread]
  rfl

theorem assignedType_iff (t : Nat) : assignedType t = true ↔ 1 ≤ t ∧ t ≤ 0x15 := by
  simp [assignedType]

-- The configuration word (Table 19.8, R429)

/-- Whether a ring of a pot is a submission ring. -/
def isSqRing : RingSel → Bool
  | .sq _ => true
  | _ => false

/-- What a write of the whole word makes of a disabled ring's fields, before its check. -/
def Ring.configured (r : Ring) (isSq : Bool) (n : Nat) : Ring := { r with
  coalCount := BitVec.ofNat 16 (bits n 47 32), coalTime := BitVec.ofNat 16 (bits n 63 48), error := if bit n 9 then false else r.error
  vector := if isSq then r.vector else BitVec.ofNat 8 (bits n 31 24)
  sizeLog2 := BitVec.ofNat 5 (bits n 4 0), targetCq := if isSq then BitVec.ofNat 4 (bits n 19 16) else 0 }

/-- A word with `ENABLE` that is written to a disabled ring enables it, or sets its error with the cause. -/
theorem State.ringCfg_of_enable {s : State} {p : Fin 8} {sel : RingSel} {v : BitVec 64} (hbit : bit v.toNat 8 = true)
    (hoff : (s.ring (some p) sel).enable = false) (hready : s.boot.phase = .ready) :
    s.ringCfg (some p) sel true true v =
      match s.ringFault (some p) sel ((s.ring (some p) sel).configured (isSqRing sel) v.toNat) with
      | some c => s.setRing (some p) sel (((s.ring (some p) sel).configured (isSqRing sel) v.toNat).fail c)
      | none => (s.setRing (some p) sel { (s.ring (some p) sel).configured (isSqRing sel) v.toNat with
          enable := true, moduleIndex := 0, hostIndex := 0, phase := true, held := [], unannounced := 0, coalArmed := false }).onEnable
            (some p) sel := by
  cases sel <;> cases hclear : bit v.toNat 9 <;>
    simp [State.ringCfg, Ring.configured, isSqRing, hclear, hbit, hoff, hready] <;> rfl

/-- The bit of `ENABLE` in a word that RING_ENABLE writes. -/
theorem bit_enable (v : BitVec 64) : bit (v ||| 0x100).toNat 8 = true := by
  have hbit : (v ||| 0x100).getLsbD 8 = true := by simp
  rw [BitVec.getLsbD, Nat.testBit_eq_decide_div_mod_eq, decide_eq_true_eq] at hbit
  rw [bit, hbit]
  rfl

theorem exec_ringEnable_of_reaches {s : State} {fn : PcieFn} {pot : Option (Fin 8)} (hreach : s.reaches fn pot = true) (sel : RingSel)
    (v : BitVec 64) : exec (.ringEnable fn pot sel v) s = .next (s.ringCfg pot sel true true (v ||| 0x100)) := if_pos hreach

/-- The word that RING_DISABLE writes names the ring's own fields, without `ENABLE` and without clearing `ERROR`. -/
theorem Ring.cfgLow_fields (r : Ring) : bit (BitVec.ofNat 64 (r.cfgLow false)).toNat 8 = false ∧
    bit (BitVec.ofNat 64 (r.cfgLow false)).toNat 9 = false ∧
    { r with vector := BitVec.ofNat 8 (bits (BitVec.ofNat 64 (r.cfgLow false)).toNat 31 24) } = r := by
  have hsize := r.sizeLog2.isLt
  have hcq := r.targetCq.isLt
  have hvector := r.vector.isLt
  have hword : (BitVec.ofNat 64 (r.cfgLow false)).toNat = r.sizeLog2.toNat + 2 ^ 16 * r.targetCq.toNat + 2 ^ 24 * r.vector.toNat := by
    rw [BitVec.toNat_ofNat]
    simp only [Ring.cfgLow, b2n, Bool.false_eq_true, if_false]
    omega
  rw [hword]
  refine ⟨?_, ?_, ?_⟩
  · simp only [bit, beq_eq_false_iff_ne]
    omega
  · simp only [bit, beq_eq_false_iff_ne]
    omega
  · have hbits : BitVec.ofNat 8 (bits (r.sizeLog2.toNat + 2 ^ 16 * r.targetCq.toNat + 2 ^ 24 * r.vector.toNat) 31 24) = r.vector := by
      refine BitVec.eq_of_toNat_eq ?_
      simp only [bits, BitVec.toNat_ofNat, Nat.reducePow, Nat.reduceAdd, Nat.reduceSub] at hvector ⊢
      omega
    rw [hbits]

/-- An enabled ring with `ENABLE` cleared, or with its error set where it is a completion ring that is still owed entries. -/
def State.disableRing (s : State) (p : Fin 8) (sel : RingSel) : State :=
  match sel with
  | .cq c => if s.cqOwed p c then s.setRing (some p) (.cq c) ((s.ring (some p) (.cq c)).fail 5)
      else s.setRing (some p) (.cq c) { s.ring (some p) (.cq c) with enable := false }
  | sel => s.setRing (some p) sel { s.ring (some p) sel with enable := false }

theorem exec_ringDisable_of_enabled {s : State} {fn : PcieFn} {p : Fin 8} (hreach : s.reaches fn (some p) = true) {sel : RingSel}
    (hon : (s.ring (some p) sel).enable = true) : exec (.ringDisable fn (some p) sel) s =
      .next (s.disableRing p sel) := by
  obtain ⟨henable, hclear, hself⟩ := (s.ring (some p) sel).cfgLow_fields
  refine (if_pos hreach).trans (congrArg Host.Outcome.next ?_)
  cases sel <;> simp only [State.ringCfg, State.disableRing, hclear, hself, Bool.not_true, Bool.false_eq_true, if_false, if_true] <;>
    simp only [henable, hon, Bool.true_and, Bool.false_eq_true, if_false, if_true]

/-- Settles O24: the fetch by what its read gives, the word by its bits. -/
theorem ringsFetchDescriptors : Obligations.RingsFetchDescriptors := by
  refine ⟨fun s p => ⟨fun i hcan hi => ?_, exec_descriptorFetch_of_none⟩, fun s fn p sel v hreach => ?_⟩
  · refine ⟨exec_descriptorFetchFailed_of_some hcan hi, exec_descriptorFetch_of_unread hcan hi, fun d hread => ?_⟩
    have hfetch := exec_descriptorFetch_of_read hcan hi hread
    refine ⟨_, s.takeDescriptor p i d, rfl, rfl, fun hlo hhi => ?_, fun hno => ?_⟩
    · exact hfetch.trans (congrArg Host.Outcome.next (if_pos ((assignedType_iff _).mpr ⟨hlo, hhi⟩)))
    · refine hfetch.trans (congrArg Host.Outcome.next (if_neg fun h => ?_))
      have hassigned := (assignedType_iff _).mp h
      exact hno.elim (fun h => absurd hassigned.1 (by rw [show (s.fetchedAs p i d).type = 0 from h]; decide))
        fun h => absurd hassigned.2 (Nat.not_le.mpr h)
  · have hwrite (hoff : (s.ring (some p) sel).enable = false) (hready : s.boot.phase = .ready) :=
      (exec_ringEnable_of_reaches hreach sel v).trans (congrArg Host.Outcome.next (s.ringCfg_of_enable (bit_enable v) hoff hready))
    have hdisable := fun hon => exec_ringDisable_of_enabled (sel := sel) hreach hon
    refine ⟨fun hoff hready hfault => ?_, fun cause hoff hready hfault => ?_, fun hfree hon => ?_, fun c hc hon howed => ?_,
      fun harmed hsome => ?_⟩
    · refine (hwrite hoff hready).trans (congrArg Host.Outcome.next ?_)
      rw [show s.ringFault (some p) sel ((s.ring (some p) sel).configured (isSqRing sel) (v ||| 0x100).toNat) = none from hfault]
      rfl
    · refine (hwrite hoff hready).trans (congrArg Host.Outcome.next ?_)
      rw [show s.ringFault (some p) sel ((s.ring (some p) sel).configured (isSqRing sel) (v ||| 0x100).toNat) = some cause from hfault]
      rfl
    · refine ⟨_, (hdisable hon).trans ?_, rfl⟩
      cases sel with
      | sq i => rfl
      | cq c => exact congrArg Host.Outcome.next (if_neg (by simp [hfree c rfl]))
      | ev => rfl
    · subst hc
      exact (hdisable hon).trans (congrArg Host.Outcome.next (if_pos howed))
    · exact if_pos (by simp [harmed, hsome])

-- The posting of completion entries (R237, R360)

/-- Settles O26: the branches of `postCq` in their order. -/
theorem entriesArePostedInOrder : Obligations.EntriesArePostedInOrder := by
  intro s p c e
  have hposts : s.postCq p c e =
      let r := s.ring (some p) (.cq c)
      if !r.enable then s
      else if s.host.retraining then { s with host := { s.host with linkHeld := s.host.linkHeld ++ [(p.val, c.val, e)] } }
      else if r.full || !r.held.isEmpty then s.setRing (some p) (.cq c) { r with held := r.held ++ [e] }
      else s.putCq p c e := rfl
  refine ⟨fun hoff => ?_, fun hon hheld => ?_, fun hon hlink hwait => ?_, fun hon hlink hroom hnone => ?_⟩
  · exact hposts.trans (if_pos (by simpa [State.ring] using hoff))
  · exact hposts.trans ((if_neg (by simpa [State.ring] using hon)).trans (if_pos hheld))
  · refine hposts.trans ((if_neg (by simpa [State.ring] using hon)).trans ((if_neg (by simp [hlink])).trans (if_pos ?_)))
    simpa [State.ring] using hwait
  · refine hposts.trans ((if_neg (by simpa [State.ring] using hon)).trans ((if_neg (by simp [hlink])).trans (if_neg ?_)))
    simpa [State.ring] using ⟨hroom, hnone⟩

end Sys2Proof.Machine
end

section
/-! Proofs about slices, limits and spares (chapters 6 and 11): the branches of each command by the conditions of its rule. -/

namespace Sys2Proof.Machine

-- A pot and a core named by their numbers

/-- A change of a pot by its number replaces the pot at that place. -/
theorem State.modPot_fin (s : State) (p : Fin 8) (f : Pot → Pot) :
    s.modPot p f = { s with pots := s.pots.set p (f (s.pot p)) } := by
  simp [State.modPot, Vector.setIfInBounds, Vector.set, Array.setIfInBounds]

/-- A core reads as it was changed, and every other core as before. -/
theorem State.core_modCore_self (s : State) {c : Nat} (hc : c < 48) (f : Core → Core) : (s.modCore c f).core c = f (s.core c) := by
  simp [State.core, hc]

theorem State.core_modCore_ne (s : State) {c d : Nat} (hne : d ≠ c) (f : Core → Core) : (s.modCore c f).core d = s.core d := by
  simp [State.core, hne.symm]

-- SLICE_END (R265)

/-- In a pot of 12 or more cores whose cores run, a slice's end charges, chooses, and then goes on by what was chosen. -/
theorem exec_sliceEnd {s : State} {p : Fin 8} {j : Job} (hrun : s.runningJob p = some j) (hcores : 12 ≤ (s.potCores p).length)
    (hon : s.coresOn = true) (ns : Nat) : exec (.sliceEnd p ns) s =
      let u := ((s.chargeCores p ns).deficits p ns).1
      let next := ((((s.chargeCores p ns).deficits p ns).2).bind (u.oldestOf p)).map (·.key)
      let go := fun (s : State) => s.modPot p fun q => { q with running := next, switchDue := false }
      if next == some j.key then .next (u.modPot p fun q => { q with switchDue := false })
      else if j.isTask || !j.sliced then .next (go u).tidy
      else if u.coreless p j then .next (go (u.preempt p j.key)).tidy
      else .next (u.modPot p fun q => { q with switchDue := true }) := by
  have hlarge : ¬ (decide ((s.potCores p).length < 12) || !s.coresOn) = true := by
    simp only [hon, Bool.not_true, Bool.or_false, decide_eq_true_eq]
    omega
  change execSliceEnd p ns s = _
  simp only [execSliceEnd, hrun]
  exact if_neg hlarge

/-- Settles O20: the four ways on from the job that was chosen. -/
theorem sliceEndChoosesTheNextJob : Obligations.SliceEndChoosesTheNextJob := by
  intro s p ns j hrun hcores hon
  have hexec := exec_sliceEnd hrun hcores hon ns
  refine ⟨fun hsame => ?_, fun hother hfree => ?_, fun hother htask hsliced hholds => ?_, fun hother htask hsliced hless => ?_⟩
  · exact hexec.trans (if_pos (beq_iff_eq.mpr hsame))
  · refine hexec.trans ((if_neg (by simpa using hother)).trans (if_pos ?_))
    rcases hfree with h | h <;> simp [h]
  · exact hexec.trans ((if_neg (by simpa using hother)).trans ((if_neg (by simp [htask, hsliced])).trans (if_neg (by simp [hholds]))))
  · exact hexec.trans ((if_neg (by simpa using hother)).trans ((if_neg (by simp [htask, hsliced])).trans (if_pos hless)))

-- Limits and guarantees (R224, R270, R273 to R275)

/-- A broken guarantee between two posts adds to what is owed, and after them is posted with it (R274). -/
theorem State.guarantee_cases (s : State) (p : Fin 8) (code winner amount jobId : Nat) :
    let q := s.pot p
    let sum := satAdd64 ((q.owed.lookup code).getD 0) amount
    ((∀ t, q.postedAt.lookup code = some t → s.time < t + 100000) → q.postedAt.lookup code ≠ none →
      s.guarantee p code winner amount jobId =
        { s with pots := s.pots.set p { q with owed := upsert q.owed code 0 fun _ => sum } }) ∧
    ((∀ t, q.postedAt.lookup code = some t → t + 100000 ≤ s.time) →
      s.guarantee p code winner amount jobId =
        ({ s with pots := s.pots.set p { q with
            owed := q.owed.filter (·.1 != code), postedAt := upsert q.postedAt code 0 fun _ => s.time } } : State).postEvent
          (some p) 0x0007 jobId 0xFFFF 0xFFFF (natLe 1 code ++ natLe 1 winner ++ zeros 6 ++ natLe 8 sum)) := by
  refine ⟨fun hearly hposted => ?_, fun hlate => ?_⟩
  · obtain ⟨t, ht⟩ := Option.ne_none_iff_exists'.mp hposted
    have hwaits : decide (t + 100000 ≤ s.time) = false := decide_eq_false (Nat.not_le.mpr (hearly t ht))
    simp only [State.guarantee, ht, hwaits, Bool.false_eq_true, if_false, State.modPot_fin]
    rfl
  · cases ht : (s.pot p).postedAt.lookup code with
    | none =>
      simp only [State.guarantee, ht, if_true, State.modPot_fin, fin8_val]
      rfl
    | some t =>
      simp only [State.guarantee, ht, hlate t ht, decide_true, if_true, State.modPot_fin, fin8_val]
      rfl

/-- Settles O21: each limit by the branch that its hypotheses choose. -/
theorem limitsAndGuarantees : Obligations.LimitsAndGuarantees := by
  refine ⟨fun s p => ⟨fun key hrun hpreempting => ?_, fun j ns hj htarget hremote hwaits => ?_, fun o n hwaits hexceeds hne => ?_,
    fun w n hen => if_pos hen, rfl, fun e => ?_, fun j cause ns layer oper hj hcause hlimit hfirst => ?_⟩,
    fun s p code winner amount jobId => ⟨fun t ht hearly => ?_, (s.guarantee_cases p code winner amount jobId).2⟩⟩
  · have hlimit (ns : Nat) : exec (.preemptLimitExpiry p ns) s =
        if s.potAbort p then .next ((s.abortJob key 0x31).modPot p fun q => { q with switchDue := false, drainRetry := false }).tidy
        else .next (s.guarantee p 4 p ns 0) := by
      change execPreemptLimitExpiry p ns s = _
      simp only [execPreemptLimitExpiry, hrun, hpreempting, Bool.not_true, Bool.false_eq_true, if_false]
    have hdrain (hxfers : s.xfersOf key = true) : exec (.preemptDrainExpiry p) s =
        let u := s.count 2 p 39 1
        if (u.coresOf key).any fun c => (u.core c).parked then .next (u.unpark p).tidy
        else if (u.pot p).loop.between then .next (u.modPot p fun q => { q with drainRetry := true })
        else .next u := by
      change execPreemptDrainExpiry p s = _
      simp only [execPreemptDrainExpiry, hrun, hpreempting, hxfers, Bool.not_true, Bool.or_self, Bool.false_eq_true, if_false]
    refine ⟨fun hxfers => ⟨fun hparked => ?_, fun hnone hbetween => ?_⟩, fun ns habort => ?_, fun ns habort => ?_⟩
    · exact (hdrain hxfers).trans (if_pos (List.any_eq_true.mpr hparked))
    · refine (hdrain hxfers).trans ((if_neg fun hany => ?_).trans (if_pos hbetween))
      obtain ⟨c, hc, hparked⟩ := List.any_eq_true.mp hany
      exact absurd hparked (Bool.eq_false_iff.mp (hnone c hc))
    · exact (hlimit ns).trans (if_pos habort)
    · exact (hlimit ns).trans (if_neg (by simp [habort]))
  · change execLatencyTargetExpiry j.key ns s = _
    simp only [execLatencyTargetExpiry, hj]
    exact if_pos ⟨htarget, hwaits, by simp [hremote]⟩
  · refine if_pos ?_
    have hany : s.tiers.waits.any (·.pot == p.val) = true := by simpa using hwaits
    simp [hany, hexceeds, hne]
  · rfl
  · change execStallLimitExpiry j.key cause none ns layer oper s = _
    simp only [execStallLimitExpiry, hj, hfirst]
    exact if_neg (by simpa [hcause] using hlimit)
  · refine (s.guarantee_cases p code winner amount jobId).1 (fun u hu => ?_) (by simp [ht])
    rw [ht] at hu
    cases hu
    exact hearly

-- Failed datapath checks and takeovers (R154 to R156, R365)

/-- A core whose queues empty as its spare begins to take over. -/
def Core.emptied (k : Core) : Core := { k with
  front := none, qLoader := [], qArrays := [], qSpout := [], qVector := [], qMove := [], mms := [], loads := [] }

/-- The state with a spare that has begun to take over a logical core. -/
def State.withTakeover (s : State) (c sp : Nat) : State :=
  let u := s.modCore c Core.emptied
  let quiet := fun (m : Sem) => { m with waiting := m.waiting.filter (·.1 != c) }
  ({ u with pots := u.pots.map fun p => { p with sems := p.sems.map quiet } } : State).modBoot fun b => { b with
    takeovers := b.takeovers ++ [(c, sp)] }

/-- A failed check of a physical core that serves a logical one: a free spare begins to take over, else the core is lost. -/
theorem exec_datapathCheckFail {s : State} {ph : Fin 52} {c : Nat} (hserves : s.mappedTo ph = some c) (hfirst : s.takingOver c = false) :
    exec (.datapathCheckFail ph) s = .next (match s.freeSpare (ph.val / 13) with
      | some sp => s.withTakeover c sp
      | none => (s.loseCore c).tidy) := by
  refine congrArg Host.Outcome.next ?_
  simp only [State.datapathFail, hserves, hfirst, Bool.false_eq_true, if_false]
  cases s.freeSpare (ph.val / 13) <;> rfl

/-- A logical core that a physical one serves is one of the 48. -/
theorem State.lt_of_mappedTo {s : State} {ph c : Nat} (h : s.mappedTo ph = some c) : c < 48 :=
  List.mem_range.mp (List.mem_of_find?_eq_some h)

/-- The cores once a takeover has begun. -/
theorem State.core_withTakeover_self (s : State) {c : Nat} (hc : c < 48) (sp : Nat) :
    (s.withTakeover c sp).core c = (s.core c).emptied := s.core_modCore_self hc _
theorem State.core_withTakeover_ne (s : State) {c d : Nat} (hne : d ≠ c) (sp : Nat) :
    (s.withTakeover c sp).core d = s.core d := s.core_modCore_ne hne _

/-- The state with a logical core mapped to its spare, and the physical core held out. -/
def State.mappedToSpare (s : State) (q : Fin 4) (c sp : Nat) : State :=
  (s.modCore c fun k => { k with phys := some sp, windows := [] }).modBoot fun b => { b with
    takeovers := b.takeovers.filter (·.1 != c), spares := b.spares.set q (some (sp, true))
    heldOut := b.heldOut ||| BitVec.ofNat 52 (2 ^ (((s.core c).phys).getD 0)) }

/-- The cores once the logical core maps to its spare. -/
theorem State.phys_mappedToSpare (s : State) (q : Fin 4) {c : Nat} (hc : c < 48) (sp : Nat) :
    ((s.mappedToSpare q c sp).core c).phys = some sp :=
  congrArg Core.phys (s.core_modCore_self hc fun k => { k with phys := some sp, windows := [] })
theorem State.core_mappedToSpare_ne (s : State) (q : Fin 4) {c d : Nat} (hne : d ≠ c) (sp : Nat) :
    (s.mappedToSpare q c sp).core d = s.core d := s.core_modCore_ne hne fun k => { k with phys := some sp, windows := [] }

/-- What the core's work does after the takeover: it fails, goes on, or runs again from its last point (R155). -/
def State.workAfterTakeover (u : State) (c : Nat) (ok : Bool) : State :=
  match (u.core c).run with
  | none => u
  | some inv => if ok = false ∨ u.mayResume inv = false then u.failCore c else if inv.kind = 0 then u else u.rerun c inv

/-- SPARE_TAKEOVER_RESUME of a quadrant with a takeover: mapping, hold-out, the core's work, the report. -/
theorem exec_spareTakeoverResume {s : State} {q : Fin 4} {c sp : Nat} (ok : Bool)
    (hover : s.boot.takeovers.find? (fun t => t.1 / 12 == q.val) = some (c, sp)) :
    exec (.spareTakeoverResume q ok) s =
      let w := ((((s.mappedToSpare q c sp).workAfterTakeover c ok).count 1 c 10 1).modEvent 0x0008
        (natLe 1 5 ++ natLe 1 (((s.core c).phys).getD 0) ++ zeros 14))
      .next (match w.corePot c with | some p => (w.settlePoint p).tidy | none => w.tidy) := by
  have hwork : ∀ u : State, (match (u.core c).run with
      | none => u
      | some inv => if !(ok && u.mayResume inv) then u.failCore c else if inv.kind = 0 then u else u.rerun c inv) =
      u.workAfterTakeover c ok := by
    intro u
    unfold State.workAfterTakeover
    cases (u.core c).run with
    | none => rfl
    | some inv => cases ok <;> cases hresume : u.mayResume inv <;> simp [hresume]
  change execSpareTakeoverResume q ok s = _
  simp only [execSpareTakeoverResume, hover]
  rw [← hwork]
  rfl

/-- Settles O22: the failed check by the spare that is found, the resume by its four orders. -/
theorem sparesTakeOver : Obligations.SparesTakeOver := by
  refine ⟨fun s ph c hserves hfirst => ⟨fun sp hspare => ?_, fun hnone => ?_⟩, fun s q c sp ok hover hc => ?_⟩
  · have hc := State.lt_of_mappedTo hserves
    refine ⟨s.withTakeover c sp, ?_, rfl, ?_⟩
    · rw [exec_datapathCheckFail hserves hfirst, hspare]
    · rw [s.core_withTakeover_self hc]
      exact ⟨rfl, rfl, rfl, rfl, rfl, rfl, rfl, rfl, rfl, rfl, fun d hne => s.core_withTakeover_ne hne sp, rfl, rfl⟩
  · rw [exec_datapathCheckFail hserves hfirst, hnone]
  · exact ⟨s.mappedToSpare q c sp, (s.mappedToSpare q c sp).workAfterTakeover c ok, rfl, s.phys_mappedToSpare q hc sp,
      fun d hne => s.core_mappedToSpare_ne q hne sp, rfl, exec_spareTakeoverResume ok hover⟩

end Sys2Proof.Machine
end

section
/-! Proofs about admission, the end of a job and what PF1 commands (chapters 10, 11 and 17). -/

namespace Sys2Proof.Machine

-- The outcomes of `admitWith` (R247, R218)

theorem State.admitWith_of_refused (s : State) (j : Job) {a : Admission} {st : Nat} (h : a.whole = some st)
    (begin_ : State → State) : s.admitWith j a begin_ = s.refuseJob j.key st := by
  simp only [State.admitWith, h]

theorem State.admitWith_of_tooLarge (s : State) (j : Job) {a : Admission} (h : a.whole = none)
    (hfit : s.footprintFits j.pot a.footprint = false) (begin_ : State → State) :
    s.admitWith j a begin_ = (if j.deferPosted then s else s.postDeferred j 0xFFFFFFFF).modJob j.key
      fun j => { j with phase := .deferred, deferPosted := true } := by
  simp only [State.admitWith, h, hfit, Bool.not_false, if_pos]

theorem State.admitWith_of_passes (s : State) (j : Job) {a : Admission} (h : a.whole = none)
    (hfit : s.footprintFits j.pot a.footprint = true) (begin_ : State → State) :
    s.admitWith j a begin_ = begin_ ((s.markAdmitted j a.footprint).failItems j.key a.items) := by
  simp [State.admitWith, h, hfit]

-- The way from a job command to its admission (R247, R248)

theorem State.startAllowed_of_operational {s : State} (h : s.sec.lifecycle = .operational) (j : Job) (start : State → Job → State) :
    s.startAllowed j start = (start s j).regrant :=
  if_pos (beq_iff_eq.mpr h)

theorem State.startAllowed_of_other {s : State} (h : s.sec.lifecycle ≠ .operational) (j : Job) (start : State → Job → State) :
    s.startAllowed j start = s.refuseJob j.key 0x40 :=
  if_neg (mt beq_iff_eq.mp h)

theorem State.jobAdmit_of_awaiting {s : State} {key : Nat} {isType : Job → Bool} {j : Job} (h : s.fetchedJob key isType = some j)
    (hord : j.ordered = true) (hlast : s.lastAwaited j = true) (start : State → Job → State) :
    s.jobAdmit key isType start = s.modJob key fun j => { j with phase := .ordered } := by
  simp only [State.jobAdmit, h, hord, hlast, Bool.and_self, if_pos]

/-- A fetched job whose turn it is meets its admission. -/
theorem State.jobAdmit_of_turn {s : State} {key : Nat} {isType : Job → Bool} {j : Job} (h : s.fetchedJob key isType = some j)
    (hturn : j.ordered = false ∨ s.lastAwaited j = false) (start : State → Job → State) :
    s.jobAdmit key isType start = (s.startAllowed j start).tidy := by
  have hgo : ¬ (j.ordered && s.lastAwaited j) = true := by
    rcases hturn with hord | hlast
    · simp [hord]
    · simp [hlast]
  simp only [State.jobAdmit, h]
  exact if_neg hgo

theorem State.admits_of_ready {s : State} (hready : s.boot.phase = .ready) (hpower : s.power.st ≤ 1) : s.admits = true := by
  simp [State.admits, hready, hpower]

-- ORDERED_JOB_ADMIT and DEFERRED_JOB_ADMIT (R248, R218)

/-- What `ORDERED_JOB_ADMIT` and `DEFERRED_JOB_ADMIT` do with the job they look for. -/
def State.readmitted (s : State) : Option Job → Out
  | none => .next s
  | some j => .next (s.startAllowed j State.startJob).tidy

theorem exec_orderedJobAdmit (key : Nat) (s : State) : exec (.orderedJobAdmit key) s =
    s.readmitted ((s.job? key).filter fun j => j.phase == .ordered && (s.pot j.pot).st == 1 && s.admits && !s.lastAwaited j) := by
  change execOrderedJobAdmit key s = _
  unfold execOrderedJobAdmit
  split
  next h => rw [h, State.readmitted]
  next h => rw [h, State.readmitted]

theorem exec_deferredJobAdmit (key : Nat) (s : State) : exec (.deferredJobAdmit key) s =
    s.readmitted ((s.job? key).filter fun j => j.phase == .deferred && (s.pot j.pot).st == 1 && s.admits && !s.behindOrdered j) := by
  change execDeferredJobAdmit key s = _
  unfold execDeferredJobAdmit
  split
  next h => rw [h, State.readmitted]
  next h => rw [h, State.readmitted]

/-- Settles O25: the outcomes of `admitWith`, `startAllowed` and `jobAdmit`, and the waiting job that is found or not. -/
theorem admissionOutcomes : Obligations.AdmissionOutcomes := by
  unfold Obligations.AdmissionOutcomes
  refine ⟨fun s j a start begin_ => ⟨?_, ?_, ?_, ?_, ?_, ?_⟩, fun s j hjob hpot hready hpower => ?_⟩
  · exact fun st h => s.admitWith_of_refused j h begin_
  · intro h hfit hposted
    rw [s.admitWith_of_tooLarge j h hfit, if_pos hposted]
  · intro h hfit hposted
    rw [s.admitWith_of_tooLarge j h hfit, if_neg (by simp [hposted])]
  · exact fun h hfit => s.admitWith_of_passes j h hfit begin_
  · exact fun h => State.startAllowed_of_other h j start
  · exact fun _ h hord hlast => State.jobAdmit_of_awaiting h hord hlast start
  · have hadmits := State.admits_of_ready hready hpower
    refine ⟨fun hphase hlast => ?_, fun hphase hlast => ?_, fun hphase hbehind => ?_, fun hphase hbehind => ?_⟩
    · simp [exec_orderedJobAdmit, hjob, hpot, hadmits, hphase, hlast, Option.filter, State.readmitted]
    · simp [exec_orderedJobAdmit, hjob, hlast, Option.filter, State.readmitted]
    · simp [exec_deferredJobAdmit, hjob, hpot, hadmits, hphase, hbehind, Option.filter, State.readmitted]
    · simp [exec_deferredJobAdmit, hjob, hbehind, Option.filter, State.readmitted]

-- The last item of a job and a job's removal (R246, R252)

/-- An item that completes posts its entry, with `LAST` when no other is unfinished. -/
theorem State.complete_of_live {s : State} {key idx : Nat} {j : Job} {i : Item} (h : s.live? key idx = some (j, i))
    (f : Item → Item) : s.complete key idx f =
      let last := j.items.all fun k => k.done || k.idx == idx
      if last then (s.postItem j (f i) last).endJob key
      else (s.postItem j (f i) last).modItem key idx fun i => { f i with done := true } := by
  simp only [State.complete, h]

/-- No core runs for a job that was removed. -/
theorem State.core_removeJob_run (s : State) (key : Nat) {c : Nat} (hc : c < 48) {r : Invocation}
    (h : ((s.removeJob key).core c).run = some r) : r.job ≠ key := by
  simp only [State.removeJob, State.core, hc, Vector.getElem?_eq_getElem, Vector.getElem_map, Option.getD_some] at h
  split at h
  next r' hr' =>
    split at h
    · simp [Core.idle] at h
    · next hne => rw [hr'] at h; cases h; exact hne
  next hnone => simp [hnone] at h

/-- No pot runs a job that was removed. -/
theorem State.pot_removeJob_running (s : State) (key : Nat) {p : Nat} (hp : p < 8) :
    ((s.removeJob key).pot p).running ≠ some key := by
  simp only [State.removeJob, State.pot, hp, Vector.getElem?_eq_getElem, Vector.getElem_map, Option.getD_some]
  split
  · simp
  · next h => simpa using h

/-- Settles O27: the completion of an item by whether others are unfinished, and what `removeJob` filters out. -/
theorem lastItemEndsTheJob : Obligations.LastItemEndsTheJob := by
  unfold Obligations.LastItemEndsTheJob
  refine ⟨fun s j i f hlive => ⟨fun hlast => ?_, fun hmore => ?_⟩, fun s key => ?_⟩
  · have hall : (j.items.all fun k => k.done || k.idx == i.idx) = true := by simpa using hlast
    rw [State.complete_of_live hlive]
    simp only [hall, if_pos]
  · have hall : (j.items.all fun k => k.done || k.idx == i.idx) = false := by
      rw [Bool.eq_false_iff, Ne, List.all_eq_true]
      intro hno
      obtain ⟨k, hk, hdone, hidx⟩ := hmore
      simpa [hdone, hidx] using hno k hk
    rw [State.complete_of_live hlive]
    simp only [hall, Bool.false_eq_true, if_false]
  · refine ⟨?_, ?_, ?_, ?_, ?_, ?_, ?_, fun c hc r => s.core_removeJob_run key hc, fun p hp => s.pot_removeJob_running key hp,
      rfl, rfl, rfl⟩
    all_goals simp only [State.removeJob, List.mem_filter, bne_iff_ne]
    · exact fun j hj => hj.2
    · exact fun j hj hne => ⟨hj, hne⟩
    · exact fun w hw => hw.2
    · exact fun x hx => hx.2
    · exact fun x hx => hx.2
    · exact fun r hr => hr.2
    · intro e he hstaging
      simp [hstaging] at he

-- Settings commits (R393, R425)

/-- A stopped pot runs again while no commit runs; the serving pot tells the peers (R425). -/
theorem State.restartPot_of_idle {s : State} {p : Fin 8} (hst : (s.pot p).st = 3) (hidle : s.boot.committing = none) :
    s.restartPot p = if p.val = s.servingPot
      then ({ s with pots := s.pots.set p { s.pot p with st := 1 } } : State).sendStatus
      else ({ s with pots := s.pots.set p { s.pot p with st := 1 } } : State) := by
  simp only [State.restartPot, hst, hidle, State.modPot_fin, Option.isSome_none, ne_eq, not_true, if_false, Bool.false_eq_true]
  rfl

/-- Settles O19: the branches of a commit request, of a commit's end, and of the stop and the restart of a pot. -/
theorem commitsAndPotControl : Obligations.CommitsAndPotControl := by
  unfold Obligations.CommitsAndPotControl
  refine ⟨fun s => ⟨?_, ?_, ?_, ?_, ?_, ?_⟩, fun s p => ⟨?_, ?_, ?_, ?_, ?_, ?_⟩⟩
  · intro hup hidle hok
    simp [exec, execCommit, State.commit, hup, hidle, hok, State.modBoot]
  · intro hup hidle hok
    simp [exec, execCommit, State.commit, hup, hidle, hok, State.modBoot]
  · intro hup hbusy
    have hsome := Option.isSome_iff_ne_none.mpr hbusy
    simp [exec, execCommit, State.commit, hup, hsome]
  · intro fn hfn
    simp [exec, execCommit, hfn]
  · intro snap hsnap
    change execCommitDone true s = _ ∧ execCommitDone false s = _
    simp only [execCommitDone, hsnap]
    exact ⟨rfl, rfl⟩
  · exact fun r limit => ⟨_, rfl, rfl⟩
  · exact fun hst => if_pos ⟨rfl, hst⟩
  · exact fun hst => if_neg fun h => hst h.2
  · exact fun fn hfn => ⟨if_neg fun h => hfn h.1, if_neg hfn⟩
  · intro hst hidle hserving
    exact congrArg (Host.Outcome.next ∘ State.tidy) ((State.restartPot_of_idle hst hidle).trans (if_neg hserving))
  · intro hst hidle hserving
    exact congrArg (Host.Outcome.next ∘ State.tidy) ((State.restartPot_of_idle hst hidle).trans (if_pos hserving))
  · intro hst hbusy
    have hsome := Option.isSome_iff_ne_none.mpr hbusy
    simp [exec, execPotRestart, State.restartPot, hst, hsome, State.modBoot]

end Sys2Proof.Machine
end

section
/-! Proofs about the job types of Table 10.3: admitted, each begins its work. -/

namespace Sys2Proof.Machine

section
variable {s : State} {j : Job}

/-- A fetched job that passes its checks and fits is admitted and begins; withheld grants are decided anew. -/
theorem State.jobAdmit_begins (hlife : s.sec.lifecycle = .operational) (hturn : j.ordered = false ∨ s.lastAwaited j = false)
    {isType : Job → Bool} (hfetched : s.fetchedJob j.key isType = some j) {a : Admission} (hwhole : a.whole = none)
    (hfit : s.footprintFits j.pot a.footprint = true) (begin_ : State → State) {start : State → Job → State}
    (hstart : start s j = s.admitWith j a begin_) :
    s.jobAdmit j.key isType start = ((begin_ ((s.markAdmitted j a.footprint).failItems j.key a.items)).regrant).tidy := by
  rw [State.jobAdmit_of_turn hfetched hturn, State.startAllowed_of_operational hlife, hstart,
    s.admitWith_of_passes j hwhole hfit]

end

/-- The work of a job's items, in order. -/
def eachItem (j : Job) (f : State → Job → Nat → State) (t : State) : State := (List.range j.nItems).foldl (fun t i => f t j i) t
/-- What an admitted steep begins on its home module. -/
def State.homeSteep (s : State) (j : Job) (t : State) : State :=
  t.beginHomeSteep j (s.liveImage j.imageId) (s.liveImage (j.f 0x38 4)) (s.coll? (j.f 0x34 4))
/-- What an admitted attention begins on the corpus it names. -/
def State.attendOf (s : State) (j : Job) (t : State) : State :=
  match j.corpusId.bind s.corpus? with
  | none => t
  | some c => t.beginAttend j c

-- What a claim of the DRAM pool leaves (R214)

/-- A change of the tiers alone. -/
def State.tiersOnly (s t : State) : Prop := ∃ T, t = { s with tiers := T }

theorem State.tiersOnly.refl (s : State) : s.tiersOnly s := ⟨s.tiers, rfl⟩
theorem State.tiersOnly.trans {s t u : State} (h : s.tiersOnly t) (h' : t.tiersOnly u) : s.tiersOnly u := by
  obtain ⟨T, rfl⟩ := h
  obtain ⟨U, rfl⟩ := h'
  exact ⟨U, rfl⟩
theorem State.tiersOnly.modTiers {s t : State} (h : s.tiersOnly t) (f : Tiers → Tiers) : s.tiersOnly (t.modTiers f) :=
  h.trans ⟨_, rfl⟩
theorem State.tiersOnly.ite {s t u : State} {c : Prop} [Decidable c] (ht : s.tiersOnly t) (hu : s.tiersOnly u) :
    s.tiersOnly (if c then t else u) := by
  split
  · exact ht
  · exact hu

theorem State.roomDram_tiersOnly (s : State) (p need n : Nat) : s.tiersOnly (s.roomDram p need n).1 := by
  induction n generalizing s with
  | zero => exact .refl s
  | succ n ih =>
    unfold State.roomDram
    split
    · exact .refl s
    split
    · exact .refl s
    · exact ((State.tiersOnly.refl s).modTiers _).trans (ih _)

theorem State.toDram_tiersOnly (s : State) (e : PoolEntry) : s.tiersOnly (s.toDram e) := by
  unfold State.toDram State.toFlash
  have hroom := (s.roomDram_tiersOnly e.pot e.size (2 * s.tiers.dram.length + 2)).modTiers
  exact .ite (hroom _) ((hroom _).modTiers _)

theorem State.roomQ_tiersOnly (s : State) (p need n : Nat) : s.tiersOnly (s.roomQ p need n).1 := by
  induction n generalizing s with
  | zero => exact .refl s
  | succ n ih =>
    unfold State.roomQ
    split
    · exact .refl s
    split
    · exact .refl s
    · have htake := (State.tiersOnly.refl s).modTiers
      exact (State.tiersOnly.ite ((htake _).trans (State.toDram_tiersOnly _ _)) (htake _)).trans (ih _)

/-- A pinned allocation changes the tiers alone. -/
theorem State.allocPinned_tiersOnly (s : State) (dram : Bool) (e : PoolEntry) : s.tiersOnly (s.allocPinned dram e).1 := by
  have hroom : s.tiersOnly (s.room dram e.pot e.size).1 := by
    cases dram
    · exact s.roomQ_tiersOnly _ _ _
    · exact s.roomDram_tiersOnly _ _ _
  exact .ite (.refl s) (.ite (hroom.modTiers _) (hroom.modTiers _))

theorem State.claim_tiersOnly (s : State) (e : PoolEntry) : s.tiersOnly (s.claim e) := s.allocPinned_tiersOnly true e

-- Images (R188)

/-- An image file whose checks pass, with room for its flash copy, is placed. -/
theorem State.beginImageLoad_of_good {t : State} {j : Job} {bytes : Bytes} (hread : t.hostRead (j.f 0x30 8) (j.f 0x38 8) = some bytes)
    (hgood : imgFail bytes = none) (hroom : imageUnits (weightSection bytes).length ≤ t.unitsFree j.pot) (hwrite : t.writeOk = true) :
    t.beginImageLoad j = t.placeImage j bytes := by
  simp [State.beginImageLoad, hread, hgood, hwrite, Nat.not_lt.mpr hroom]

/-- The image that a load of a file places. -/
def State.newImage (t : State) (j : Job) (bytes : Bytes) : Image :=
  let w := weightSection bytes
  let layers := field bytes 0x14 2
  let n := t.residentLayers j.pot w.length layers
  { id := t.nextId, pot := j.pot, header := slice bytes 0 256, variants := (variantSections bytes).map variantOfBytes
    regions := regionsOfBytes (regionSection bytes), weights := w
    modelTag := if (sectionsOf bytes).any (·.kind == 3) then field (sha3 w) 0 8 else 0
    resident := n, residentBytes := Nat.min w.length (n * (layerSplit w.length layers).2), units := imageUnits w.length }

theorem State.placeImage_image (t : State) (j : Job) (bytes : Bytes) : ∃ (u : State) (im : Image),
    t.placeImage j bytes = u.complete j.key 0 (fun i => { i with resA := t.nextId, resC := im.resident, resB := im.residentBytes }) ∧
      u.images = t.images ++ [im] ∧ u.nextId = t.nextId + 1 ∧ im.id = t.nextId ∧ im.pot = j.pot ∧
      im.weights = weightSection bytes ∧ im.variants = (variantSections bytes).map variantOfBytes ∧
      im.regions = regionsOfBytes (regionSection bytes) ∧ im.unloading = false := by
  unfold State.placeImage
  refine ⟨_, t.newImage j bytes, rfl, ?_, ?_, rfl, rfl, rfl, rfl, rfl, rfl⟩
  all_goals
    dsimp only
    split
    · rfl
    · obtain ⟨T, hT⟩ := t.claim_tiersOnly _
      rw [hT]
      rfl

/-- Settles O28: the admission of each type, and the branches of a load and of an unload. -/
theorem imageAndRunJobsBegin : Obligations.ImageAndRunJobsBegin := by
  unfold Obligations.ImageAndRunJobsBegin
  intro s j hlife hturn
  refine ⟨?_, ?_, ?_, ?_, ?_, ?_⟩
  · exact fun hf hw hfit => congrArg Host.Outcome.next (State.jobAdmit_begins hlife hturn hf hw hfit (·.beginImageLoad j) rfl)
  · exact fun hf hw hfit => congrArg Host.Outcome.next (State.jobAdmit_begins hlife hturn hf hw hfit (·.beginImageUnload j) rfl)
  · exact fun hf hw hfit => congrArg Host.Outcome.next (State.jobAdmit_begins hlife hturn hf hw hfit (·.beginRun j (s.liveImage j.imageId)) rfl)
  · intro t bytes hread hgood hroom hwrite
    rw [State.beginImageLoad_of_good hread hgood hroom hwrite]
    exact t.placeImage_image j bytes
  · intro t bytes st hread hbad
    simp only [State.beginImageLoad, hread, hbad]
  · exact fun t => ⟨_, rfl, rfl⟩

-- Corpora (R54)

/-- A new corpus is found by its number. -/
theorem State.corpus?_append (t : State) {id : Nat} (hnew : t.corpus? id = none) (c : Corpus) (hid : c.id = id) :
    ({ t with corpora := t.corpora ++ [c] } : State).corpus? id = some c := by
  simp only [State.corpus?] at hnew ⊢
  rw [List.find?_append, hnew]
  simp [hid]

/-- The corpus that a steep of a new one makes. -/
def State.steepedCorpus (t : State) (j : Job) (im : Image) (tag home : Nat) (coll : Option Coll) : Corpus :=
  let c := newCorpus j im home
  let extra := (coll.map fun (k : Coll) => t.collReserve j k c.tokens).getD 0
  { c with
    units := t.steepUnits c 0 im.layers + extra, collUnits := extra
    mark := { stage := 0, gen := 1, modelTag := im.modelTag, encTag := tag } }

/-- A steep of a new corpus adds it and claims its working set. -/
theorem State.beginSteep_of_new {t : State} {j : Job} (hnew : t.corpus? (j.f 0x30 4) = none) (im : Image) (tag home : Nat)
    (coll : Option Coll) : t.beginSteep j im tag home coll =
      (({ t with corpora := t.corpora ++ [t.steepedCorpus j im tag home coll] } : State).steepSpace j im
        (t.steepedCorpus j im tag home coll).tokens).makeRegions j im := by
  have hfound := t.corpus?_append hnew (t.steepedCorpus j im tag home coll) rfl
  have hbegin : t.beginSteep j im tag home coll =
      (({ t with corpora := t.corpora ++ [t.steepedCorpus j im tag home coll] } : State).steepSpace j im
        (((({ t with corpora := t.corpora ++ [t.steepedCorpus j im tag home coll] } : State).corpus? (j.f 0x30 4)).map
          fun (c : Corpus) => c.tokens).getD 0)).makeRegions j im := by
    simp only [State.beginSteep, hnew]
    rfl
  rw [hbegin, hfound]
  rfl

/-- Settles O29: the admission of each type, and the corpus that a new steep makes. -/
theorem generationJobsBegin : Obligations.GenerationJobsBegin := by
  unfold Obligations.GenerationJobsBegin
  intro s j hlife hturn
  refine ⟨?_, ?_, ?_, ?_, ?_⟩
  · intro hf hw hfit
    rw [id_eq]
    exact congrArg Host.Outcome.next (State.jobAdmit_begins hlife hturn hf hw hfit (s.homeSteep j) rfl)
  · intro hf hw hfit
    rw [id_eq]
    exact congrArg Host.Outcome.next (State.jobAdmit_begins hlife hturn hf hw hfit (s.homeSteep j) rfl)
  · intro hf hw hfit
    rw [id_eq]
    exact congrArg Host.Outcome.next (State.jobAdmit_begins hlife hturn hf hw hfit
      (fun t => t.beginGenerate j (s.liveImage j.imageId) (j.collId.bind s.coll?)) rfl)
  · exact fun hf hw hfit => congrArg (fun t : State => Host.Outcome.next (t.runAttend j.key).tidy)
      (State.jobAdmit_begins hlife hturn hf hw hfit (s.attendOf j) rfl)
  · intro t im tag home coll hnew
    exact ⟨_, _, State.beginSteep_of_new hnew im tag home coll, rfl, rfl, rfl, rfl, rfl, rfl, rfl, rfl, rfl⟩

-- Collections (R79, R100, R101)

/-- Settles O30: the admission of each type, and what a creation, a delete and a fetch do with the record they find. -/
theorem collectionJobsBegin : Obligations.CollectionJobsBegin := by
  unfold Obligations.CollectionJobsBegin
  intro s j hlife hturn
  refine ⟨?_, ?_, ?_, ?_, ?_, ?_, ?_, ?_, ?_, ?_⟩
  · exact fun hf hw hfit => congrArg Host.Outcome.next (State.jobAdmit_begins hlife hturn hf hw hfit (fun t => t.beginCollectionCreate j (s.newColl j)) rfl)
  · exact fun hfree hf hw hfit vectors => congrArg (fun t : State => Host.Outcome.next (t.runAppend j.key vectors).tidy)
      (State.jobAdmit_begins hlife hturn hf hw hfit id (if_neg (by simp [hfree])))
  · exact fun hfree hf hw hfit => congrArg Host.Outcome.next (State.jobAdmit_begins hlife hturn hf hw hfit (eachItem j State.deleteItem) (if_neg (by simp [hfree])))
  · exact fun hf hw hfit => congrArg Host.Outcome.next (State.jobAdmit_begins hlife hturn hf hw hfit (fun t => t.beginFilter j (s.coll? (j.f 0x30 4))) rfl)
  · exact fun hf hw hfit => congrArg Host.Outcome.next (State.jobAdmit_begins hlife hturn hf hw hfit (fun t => t.beginSearch j (s.coll? (j.f 0x30 4))) rfl)
  · exact fun hf hw hfit lost => congrArg (fun t : State => Host.Outcome.next (t.runRecall j.key lost).tidy)
      (State.jobAdmit_begins hlife hturn hf hw hfit (·.beginRecall j) rfl)
  · exact fun hf hw hfit => congrArg Host.Outcome.next (State.jobAdmit_begins hlife hturn hf hw hfit (eachItem j State.fetchItem) rfl)
  · intro t c hwrite
    simp [State.beginCollectionCreate, hwrite]
  · intro t i x c r rc hlive hcoll hrec hres hwrite
    have hfound : ((t.itemRec j i).bind fun r => c.resolve (field r 0 8)).filter (·.2.isNone) = some (rc, none) := by
      simp [hrec, hres, Option.filter]
    simp [State.deleteItem, hlive, hcoll, hfound, hwrite]
  · intro t i x c r b hlive hcoll hrec hfetched
    simp [State.fetchItem, hlive, hcoll, hrec, hfetched]

-- Tables (R112, R122)

theorem State.makeTable_tables (t : State) (x : Table) : (t.makeTable x).tables = t.tables ++ [x] := by
  let claimed := t.claim { key := .table x.id, pot := x.pot, cls := .pinned, size := x.bytes t.self }
  have hclaim : t.tiersOnly claimed := t.claim_tiersOnly _
  obtain ⟨T, hT⟩ := hclaim.trans (State.tiersOnly.ite (c := x.statBytes claimed.self = 0) (.refl claimed) (claimed.allocPinned_tiersOnly false
    { key := .table x.id, pot := x.pot, cls := .pinned, size := x.statBytes claimed.self }))
  exact (congrArg (fun u : State => u.tables ++ [x]) hT).trans rfl

/-- Settles O31: the admission of each type, and what a creation, a rule and a drop without peers do. -/
theorem tableJobsBegin : Obligations.TableJobsBegin := by
  unfold Obligations.TableJobsBegin
  intro s j hlife hturn
  refine ⟨?_, ?_, ?_, fun hfree => ⟨?_, ?_⟩, ?_, ?_, ?_, ?_, ?_, ?_⟩
  · exact fun hf hw hfit => congrArg Host.Outcome.next (State.jobAdmit_begins hlife hturn hf hw hfit (fun t => t.beginTableCreate j (s.newTable j)) rfl)
  · exact fun hf hw hfit => congrArg Host.Outcome.next (State.jobAdmit_begins hlife hturn hf hw hfit (fun t => t.beginTableRule j ((s.table? (j.f 0x30 4)).getD {}) (s.ruleValues j)) rfl)
  · exact fun hf hw hfit => congrArg Host.Outcome.next (State.jobAdmit_begins hlife hturn hf hw hfit (eachItem j State.bagItem) rfl)
  · exact fun hf hw hfit => congrArg Host.Outcome.next (State.jobAdmit_begins hlife hturn hf hw hfit (eachItem j fun t j i => t.rowsItem j i false) (if_neg (by simp [hfree])))
  · exact fun hf hw hfit => congrArg Host.Outcome.next (State.jobAdmit_begins hlife hturn hf hw hfit (eachItem j fun t j i => t.rowsItem j i true) (if_neg (by simp [hfree])))
  · exact fun hf hw hfit => congrArg Host.Outcome.next (State.jobAdmit_begins hlife hturn hf hw hfit (fun t => t.beginTableSave j ((s.table? (j.f 0x30 4)).getD {})) rfl)
  · exact fun hf hw hfit => congrArg Host.Outcome.next (State.jobAdmit_begins hlife hturn hf hw hfit (fun t => t.beginTableLoad j ((s.table? (j.f 0x30 4)).getD {})) rfl)
  · exact fun hf hw hfit => congrArg Host.Outcome.next (State.jobAdmit_begins hlife hturn hf hw hfit (fun t => t.beginDrop j (s.dropMembers j)) rfl)
  · intro t x halone
    refine ⟨t.makeTable x, ?_, t.makeTable_tables x⟩
    simp [State.beginTableCreate, Nat.not_lt.mpr halone]
  · intro t x h halone
    simp [State.beginTableRule, Nat.not_lt.mpr halone, State.modTable]
  · intro t
    unfold State.beginDrop
    simp only [List.length_singleton, Nat.lt_irrefl, if_false]
    split
    · next h => simp only [h]; rfl
    · next h => simp only [h]; rfl
    · next h1 h2 => rw [if_neg h1, if_neg h2]; rfl

end Sys2Proof.Machine
end

section
/-! Proofs about the dispatch and the firing of Koelnu instructions (chapter 7). -/

namespace Sys2Proof.Machine

-- Dispatch (R159, R160, R183)

section
variable {s : State} {c : Fin 48} {w : KWord}

theorem State.toFront_of_idle (htakes : s.takes c w = false) : s.toFront c w = .next s :=
  if_pos (by simp [htakes])

theorem State.toFront_of_bad (htakes : s.takes c w = true) (hbad : s.badWord c = true) :
    s.toFront c w = .next (s.failServed c 0x50).tidy :=
  (if_neg (by simp [htakes])).trans (if_pos hbad)

theorem State.toFront_of_takes (htakes : s.takes c w = true) (hgood : s.badWord c = false) :
    s.toFront c w = .next (
      { s with cores := s.cores.set c { s.cores[c] with front := some ((s.core c).entry w []) } } : State).tidy := by
  refine (if_neg (by simp [htakes])).trans ((if_neg (by simp [hgood])).trans ?_)
  rw [State.modCore_fin, State.core_fin]

variable {regs : List (BitVec 4)} {put : QEntry → Core → Core}

theorem State.enqueue_of_idle (htakes : s.takes c w = false) : s.enqueue c w regs put = .next s :=
  if_pos (by simp [htakes])

theorem State.enqueue_of_bad (htakes : s.takes c w = true) (hbad : s.badWord c = true) :
    s.enqueue c w regs put = .next (s.failServed c 0x50).tidy :=
  (if_neg (by simp [htakes])).trans (if_pos hbad)

theorem State.enqueue_of_takes (htakes : s.takes c w = true) (hgood : s.badWord c = false) :
    s.enqueue c w regs put = .next (
      { s with cores := s.cores.set c (put (s.cores[c].entry w regs) s.cores[c]).advance } : State).tidy := by
  refine (if_neg (by simp [htakes])).trans ((if_neg (by simp [hgood])).trans ?_)
  rw [State.modCore_fin]

end

/-- What a front-end word does that is the word of the command `i`. -/
theorem State.toFront_dispatch (s : State) (c : Fin 48) (w : KWord) {i : Instr} (hi : exec i s = s.toFront c w) :
    (s.takes c w = true → s.badWord c = false → ∃ u : State, exec i s = .next u.tidy ∧
      u = { s with cores := s.cores.set c { s.cores[c] with front := some ((s.core c).entry w []) } } ∧
      ((s.core c).entry w []).layer = s.cores[c].layer ∧ ((s.core c).entry w []).oper = s.cores[c].oper) ∧
    (s.takes c w = true → s.badWord c = true → exec i s = .next (s.failServed c 0x50).tidy) ∧
    (s.takes c w = false → exec i s = .next s) := by
  rw [hi]
  refine ⟨fun htakes hgood => ⟨_, State.toFront_of_takes htakes hgood, rfl, ?_, ?_⟩, State.toFront_of_bad, State.toFront_of_idle⟩
  · exact congrArg Core.layer (s.core_fin c)
  · exact congrArg Core.oper (s.core_fin c)

/-- Settles O38: every front-end command is `toFront` of its word. -/
theorem frontInstructionsAreDispatched : Obligations.FrontInstructionsAreDispatched := by
  unfold Obligations.FrontInstructionsAreDispatched
  intro s c h
  refine ⟨?_, ?_, ?_, ?_, ?_, ?_, ?_, ?_, ?_, ?_, ?_, ?_, ?_, ?_, ?_⟩
  · exact s.toFront_dispatch c ⟨h, .nop 0⟩ rfl
  · exact fun l o => s.toFront_dispatch c ⟨h, .group l o⟩ rfl
  · exact s.toFront_dispatch c ⟨h, .point⟩ rfl
  · exact fun m => s.toFront_dispatch c ⟨h, .fence m⟩ rfl
  · exact fun n b => s.toFront_dispatch c ⟨h, .loop n b⟩ rfl
  · exact s.toFront_dispatch c ⟨h, .endInv⟩ rfl
  · exact fun r v o => s.toFront_dispatch c ⟨h, .addr r v o⟩ rfl
  · exact fun r d => s.toFront_dispatch c ⟨h, .addri r d⟩ rfl
  · exact fun i m k n => s.toFront_dispatch c ⟨h, .shape i m k n⟩ rfl
  · exact fun i a b d => s.toFront_dispatch c ⟨h, .stride i a b d⟩ rfl
  · exact fun o => s.toFront_dispatch c ⟨h, .spout o⟩ rfl
  · exact fun i v w => s.toFront_dispatch c ⟨h, .spoutv i v w⟩ rfl
  · exact fun t v => s.toFront_dispatch c ⟨h, .tkset t v⟩ rfl
  · exact fun n u => s.toFront_dispatch c ⟨h, .semacq n u⟩ rfl
  · exact fun n u => s.toFront_dispatch c ⟨h, .semrel n u⟩ rfl

/-- What a unit's word does that is the word of the command `i`, when `put'` says what its queues take. -/
theorem State.enqueue_dispatch (s : State) (c : Fin 48) (w : KWord) (regs : List (BitVec 4)) (put : QEntry → Core → Core)
    {i : Instr} (hi : exec i s = s.enqueue c w regs put) (put' : Core → Core)
    (hput : put (s.cores[c].entry w regs) s.cores[c] = put' s.cores[c]) :
    (s.takes c w = true → s.badWord c = false →
      exec i s = .next (({ s with cores := s.cores.set c (put' s.cores[c]).advance } : State).tidy)) ∧
    (s.takes c w = true → s.badWord c = true → exec i s = .next (s.failServed c 0x50).tidy) ∧
    (s.takes c w = false → exec i s = .next s) := by
  rw [hi, ← hput]
  exact ⟨State.enqueue_of_takes, State.enqueue_of_bad, State.enqueue_of_idle⟩

/-- A core once a move to the address `dst` has entered its queue: a move to `JOB` or `PEER` marks its interval (R179). -/
def movedTo (q : QEntry) (dst : BitVec 48) (k : Core) : Core := { k with
  qMove := k.qMove ++ [q]
  run := if spaceOf dst = 4 ∨ spaceOf dst = 5 then k.run.map fun r => { r with wrote := true } else k.run }

theorem putOut_eq (q : QEntry) (k : Core) : putOut q k = movedTo q (q.reg 1) k := by
  unfold movedTo
  by_cases hout : spaceOf (q.reg 1) = 4 ∨ spaceOf (q.reg 1) = 5
  · have hb : (spaceOf (q.reg 1) == 4 || spaceOf (q.reg 1) == 5) = true := by simpa using hout
    simp only [putOut, putMove, hb, Bool.or_true, if_pos hout]
  · have hb : (spaceOf (q.reg 1) == 4 || spaceOf (q.reg 1) == 5) = false := by simpa using hout
    simp only [putOut, putMove, hb, Bool.or_false, if_neg hout]
    cases k.run <;> rfl

/-- Settles O39: every unit's command is `enqueue` of its word, with what its queues take. -/
theorem unitInstructionsEnterTheirQueues : Obligations.UnitInstructionsEnterTheirQueues := by
  unfold Obligations.UnitInstructionsEnterTheirQueues
  intro s c h
  have vec : ∀ (i : VOps → Instr) (v : VecOp), (∀ o, exec (i o) s = s.enqueue c ⟨h, .vec v o⟩ [o.dad, o.aad, o.bad] putVector) →
      ∀ o, _ := fun i v hi o => s.enqueue_dispatch c ⟨h, .vec v o⟩ [o.dad, o.aad, o.bad] putVector (hi o)
        (putVector (s.cores[c].entry ⟨h, .vec v o⟩ [o.dad, o.aad, o.bad])) rfl
  refine ⟨?_, ?_, ?_, ?_, ?_, ?_, ?_, ?_, ?_, ?_, ?_, ?_, ?_, ?_, ?_, ?_, ?_, ?_, ?_, ?_, ?_, ?_, ?_, ?_, ?_, ?_, ?_, ?_⟩
  · exact vec (.vadd c h) .vadd fun _ => rfl
  · exact vec (.vmul c h) .vmul fun _ => rfl
  · exact vec (.vfma c h) .vfma fun _ => rfl
  · exact vec (.vmax c h) .vmax fun _ => rfl
  · exact vec (.vmin c h) .vmin fun _ => rfl
  · exact vec (.vcmp c h) .vcmp fun _ => rfl
  · exact vec (.vsel c h) .vsel fun _ => rfl
  · exact vec (.vcvt c h) .vcvt fun _ => rfl
  · exact vec (.vexp c h) .vexp fun _ => rfl
  · exact vec (.vln c h) .vln fun _ => rfl
  · exact vec (.vrcp c h) .vrcp fun _ => rfl
  · exact vec (.vrsq c h) .vrsq fun _ => rfl
  · exact vec (.vtanh c h) .vtanh fun _ => rfl
  · exact vec (.vsum c h) .vsum fun _ => rfl
  · exact vec (.vrmax c h) .vrmax fun _ => rfl
  · exact vec (.vtopk c h) .vtopk fun _ => rfl
  · exact vec (.vpart c h) .vpart fun _ => rfl
  · exact vec (.vmerge c h) .vmerge fun _ => rfl
  · exact vec (.vsample c h) .vsample fun _ => rfl
  · exact fun o => s.enqueue_dispatch c ⟨h, .mm o⟩ [o.sad, o.xad, o.dad] (putMm o) rfl
      (putMm o (s.cores[c].entry ⟨h, .mm o⟩ [o.sad, o.xad, o.dad])) rfl
  · exact fun o => s.enqueue_dispatch c ⟨h, .mov o⟩ [o.src, o.dst] putOut rfl
      (movedTo (s.cores[c].entry ⟨h, .mov o⟩ [o.src, o.dst]) (s.cores[c].ad[o.dst.toNat]?.getD 0)) (putOut_eq _ _)
  · exact fun o => s.enqueue_dispatch c ⟨h, .mov2d o⟩ [o.src, o.dst] putOut rfl
      (movedTo (s.cores[c].entry ⟨h, .mov2d o⟩ [o.src, o.dst]) (s.cores[c].ad[o.dst.toNat]?.getD 0)) (putOut_eq _ _)
  · exact fun o => s.enqueue_dispatch c ⟨h, .leafrd o⟩ [o.list, o.dst] putMove rfl
      (putMove (s.cores[c].entry ⟨h, .leafrd o⟩ [o.list, o.dst])) rfl
  · exact s.enqueue_dispatch c ⟨h, .nop 1⟩ [] (putNop 1) rfl (putNop 1 (s.cores[c].entry ⟨h, .nop 1⟩ [])) rfl
  · exact s.enqueue_dispatch c ⟨h, .nop 2⟩ [] (putNop 2) rfl (putNop 2 (s.cores[c].entry ⟨h, .nop 2⟩ [])) rfl
  · exact s.enqueue_dispatch c ⟨h, .nop 3⟩ [] (putNop 3) rfl (putNop 3 (s.cores[c].entry ⟨h, .nop 3⟩ [])) rfl
  · exact s.enqueue_dispatch c ⟨h, .nop 4⟩ [] (putNop 4) rfl (putNop 4 (s.cores[c].entry ⟨h, .nop 4⟩ [])) rfl
  · exact s.enqueue_dispatch c ⟨h, .nop 5⟩ [] (putNop 5) rfl (putNop 5 (s.cores[c].entry ⟨h, .nop 5⟩ [])) rfl

end Sys2Proof.Machine
end

section
/-! Proofs about the front end's firing and the semaphores (R151, R159, R173 to R182, R271). -/

namespace Sys2Proof.Machine

-- A pot and a semaphore read as they were changed

theorem State.pot_modPot_self (s : State) {p : Nat} (hp : p < 8) (f : Pot → Pot) : (s.modPot p f).pot p = f (s.pot p) := by
  simp [State.pot, State.modPot, hp]

theorem State.modSem_loan (s : State) {p : Nat} (hp : p < 8) (n : Nat) (f : Sem → Sem) :
    ((s.modSem p n f).pot p).loan = (s.pot p).loan := by
  rw [State.modSem, s.pot_modPot_self hp]

/-- Two changes of a semaphore that agree on what it is are one. -/
theorem State.modSem_congr (s : State) (p n : Nat) {f g : Sem → Sem} (h : f (s.sem p n) = g (s.sem p n)) :
    s.modSem p n f = s.modSem p n g :=
  congrArg (fun m => s.modPot p fun q => { q with sems := q.sems.setIfInBounds n m }) h

-- Firing with the header wait met (R151, R159)

/-- A header count past 65,535 (R151, R158). -/
theorem tooMany_iff (h : KHdr) : tooMany h = true ↔
    65535 < h.wcnt.toNat * 2 ^ h.wexp.toNat ∨ 65535 < h.scnt.toNat * 2 ^ h.sexp.toNat := by
  rw [tooMany, Bool.or_eq_true, decide_eq_true_iff, decide_eq_true_iff]
  rfl

theorem tooMany_eq_false {h : KHdr} (hw : h.wcnt.toNat * 2 ^ h.wexp.toNat ≤ 65535) (hs : h.scnt.toNat * 2 ^ h.sexp.toNat ≤ 65535) :
    tooMany h = false := by
  rw [Bool.eq_false_iff, Ne, tooMany_iff]
  omega

/-- The firing of a word that changes the core alone, as a change of the one core. -/
theorem State.regFire_fin (s : State) (c : Fin 48) (q : QEntry) (f : Core → Core) : s.regFire c q f =
    ({ s with cores := s.cores.set c { f (s.cores[c].hdrTake q.word.hdr) with front := none }.advance } : State).signalIf c q := by
  rw [State.regFire, State.modCore_fin]

theorem State.frontDone_fin (s : State) (c : Fin 48) (q : QEntry) : s.frontDone c q =
    ({ s with cores := s.cores.set c { s.cores[c].hdrTake q.word.hdr with front := none }.advance } : State).signalIf c q := by
  rw [State.frontDone, State.modCore_fin]

section
variable {s : State} {c : Fin 48} {q : QEntry} {inv : Invocation}

theorem State.fireFront_of_tooMany (hfront : s.cores[c].front = some q) (hrun : s.cores[c].run = some inv)
    (hmany : tooMany q.word.hdr = true) : s.fireFront c = some (s.illegal c q) := by
  simp only [State.fireFront, State.core_fin, hfront, hrun, hmany, if_true]

theorem State.fireFront_of_waiting (hfront : s.cores[c].front = some q) (hrun : s.cores[c].run = some inv)
    (hmany : tooMany q.word.hdr = false) (hwait : s.cores[c].hdrReady q.word.hdr = false) : s.fireFront c = none := by
  simp only [State.fireFront, State.core_fin, hfront, hrun, hmany, hwait, Bool.not_false, Bool.false_eq_true, if_false, if_true]

/-- What the front end does with a word once its header wait is met. -/
def State.fireOp (s : State) (c : Fin 48) (q : QEntry) (inv : Invocation) : KOp → Option State
  | .nop _ => some (s.frontDone c q)
  | .group l o => some (s.fireGroup c q l o)
  | .point => if s.cores[c].unitsIdle then some (s.firePoint c q) else none
  | .fence m => if s.cores[c].fenceOk m then some (s.frontDone c q) else none
  | .loop n b => some (s.regFire c q fun k => { k with loops := { start := q.pc + 1, left := n.toNat, body := b.toNat } :: k.loops })
  | .endInv => if s.cores[c].unitsIdle then some (s.fireEnd c q) else none
  | .addr r v o => some (s.regFire c q fun k => k.setAd r (addrValue v o inv.ordinal))
  | .addri r d => some (s.regFire c q fun k => k.setAd r (addriValue (k.ad[r.toNat]?.getD 0) d))
  | .shape i m k n => some (s.regFire c q fun x => x.setShape i m k n)
  | .stride i a b d => some (s.regFire c q fun k => k.setStride i a b d)
  | .spout o => some (s.regFire c q fun k => k.setSpout o)
  | .spoutv i v w => some (s.regFire c q fun k => k.setSpoutv i v w)
  | .tkset t v => if s.cores[c].counterBusy t then none else some (s.regFire c q fun k => { k with tk := k.tk.setIfInBounds t.toNat v })
  | .semacq n u => s.fireSemacq c q n.toNat u.toNat
  | .semrel n u => some (s.fireSemrel c q n.toNat u.toNat)
  | _ => none

theorem State.fireFront_of_ready (hfront : s.cores[c].front = some q) (hrun : s.cores[c].run = some inv)
    (hmany : tooMany q.word.hdr = false) (hready : s.cores[c].hdrReady q.word.hdr = true) :
    s.fireFront c = s.fireOp c q inv q.word.op := by
  simp only [State.fireFront, State.core_fin, hfront, hrun, hmany, hready, Bool.not_true, Bool.false_eq_true, if_false]
  generalize q.word.op = op
  cases op <;> rfl

end

-- The registers that words change (R162, R163, R181)

/-- `ADDRI` keeps the space of the register and moves its offset by a signed count (R181). -/
theorem addriValue_spec (v : BitVec 48) (d : BitVec 32) :
    (addriValue v d).toNat / 2 ^ 44 = v.toNat / 2 ^ 44 ∧
      (((addriValue v d).toNat : Int) - v.toNat - d.toInt) % 2 ^ 44 = 0 := by
  have hv := v.isLt
  have hval : (addriValue v d).toNat =
      (((v.toNat / 2 ^ 44 * 2 ^ 44 : Nat) : Int) + (((v.toNat % 2 ^ 44 : Nat) : Int) + d.toInt) % 2 ^ 44).toNat % 2 ^ 48 :=
    BitVec.toNat_ofNat _ _
  rw [hval]
  generalize v.toNat = n at hv
  generalize d.toInt = e
  omega

/-- A header wait leaves the address registers as they are. -/
theorem Core.hdrTake_ad (k : Core) (h : KHdr) : (k.hdrTake h).ad = k.ad := by
  rw [Core.hdrTake_frame]

/-- A fence is met exactly when the units it names have nothing left (R178). -/
theorem Core.fenceOk_iff (k : Core) (m : BitVec 5) : k.fenceOk m = true ↔
    ¬ ((m.getLsbD 0 = true ∧ (k.qLoader ≠ [] ∨ k.mms ≠ [])) ∨ (m.getLsbD 1 = true ∧ (k.qArrays ≠ [] ∨ k.mms ≠ [])) ∨
      (m.getLsbD 2 = true ∧ (k.qSpout ≠ [] ∨ k.mms ≠ [])) ∨ (m.getLsbD 3 = true ∧ k.qVector ≠ []) ∨
      (m.getLsbD 4 = true ∧ (k.qMove ≠ [] ∨ k.moves ≠ []))) := by
  simp only [Core.fenceOk, Bool.and_eq_true, Bool.or_eq_true, Bool.not_eq_true', List.isEmpty_iff]
  cases m.getLsbD 0 <;> cases m.getLsbD 1 <;> cases m.getLsbD 2 <;> cases m.getLsbD 3 <;> cases m.getLsbD 4 <;>
    simp [and_assoc]

-- `GROUP` (R177)

/-- A word without a signal fires without one. -/
theorem State.signalIf_of_none (s : State) (c : Nat) {q : QEntry} (h : q.word.hdr.sen = false) : s.signalIf c q = s := by
  simp [State.signalIf, State.hdrSignal, h]

/-- A header wait takes the same tokens whatever the tags of its core are. -/
theorem Core.hdrTake_tags (k : Core) (h : KHdr) (l o : BitVec 16) :
    ({ k with layer := l, oper := o } : Core).hdrTake h = { k.hdrTake h with layer := l, oper := o } := by
  unfold Core.hdrTake
  split <;> rfl

/-- With group records off, `GROUP` sets the tags of its core. -/
theorem State.fireGroup_of_quiet {s : State} {c : Fin 48} {q : QEntry} {inv : Invocation} {j : Job}
    (hrun : s.cores[c].run = some inv) (hjob : s.job? inv.job = some j) (hwrote : inv.wrote = false)
    (hoff : s.obs.groupEn = false) (hsen : q.word.hdr.sen = false) (l o : BitVec 16) :
    s.fireGroup c q l o = (
      { s with cores := s.cores.set c { s.cores[c].hdrTake q.word.hdr with layer := l, oper := o, front := none }.advance } :
        State).signalIf c q := by
  have hcoreJob : s.coreJob c = some j := by simp only [State.coreJob, State.core_fin, hrun, Option.bind_some, hjob]
  have hdone : ((s.modCore c fun k => { k with layer := l, oper := o }).frontDone c q) =
      { s with cores := s.cores.set c { s.cores[c].hdrTake q.word.hdr with layer := l, oper := o, front := none }.advance } := by
    rw [State.frontDone_fin, State.signalIf_of_none _ _ hsen, State.modCore_fin]
    simp [Core.hdrTake_tags]
  rw [State.signalIf_of_none _ _ hsen]
  simp only [State.fireGroup, State.core_fin, hrun, hcoreJob, hwrote, Bool.false_and, Bool.false_eq_true, if_false, hdone, hoff]

-- Semaphores (R175, R271)

section
variable {s : State} {c : Fin 48} {q : QEntry} {inv : Invocation} {j : Job} {n units : Nat}

theorem State.coreJob_of_run (hrun : s.cores[c].run = some inv) (hjob : s.job? inv.job = some j) : s.coreJob c = some j := by
  simp only [State.coreJob, State.core_fin, hrun, Option.bind_some, hjob]

/-- An acquire that does not wait yet takes its place in the order of arrival. -/
theorem State.fireSemacq_arrives (hrun : s.cores[c].run = some inv) (hjob : s.job? inv.job = some j)
    (hnew : ∀ w ∈ (s.sem j.pot n).waiting, w.1 ≠ c.val) : s.fireSemacq c q n units =
      some (s.modSem j.pot n fun m => { m with waiting := m.waiting ++ [(c.val, inv.job, units)] }) := by
  have hany : ((s.sem j.pot n).waiting.any fun w => w.1 == c.val) = false := by simpa using hnew
  simp only [State.fireSemacq, State.core_fin, hrun, State.coreJob_of_run hrun hjob, hany, Bool.not_false, if_true]

/-- An acquire whose turn it is, and whose units are there, takes them, unless a bank is busy under `KEEP` in a large pot. -/
theorem State.fireSemacq_granted (hrun : s.cores[c].run = some inv) (hjob : s.job? inv.job = some j) {rest : List (Nat × Nat × Nat)}
    (hturn : (s.sem j.pot n).waiting = (c.val, inv.job, units) :: rest) (hunits : units ≤ (s.sem j.pot n).count) :
    s.fireSemacq c q n units = if 12 ≤ (s.potCores j.pot).length ∧ s.cores[c].keptBusy = true then some (s.illegal c q) else
      some ((s.modSem j.pot n fun m => { m with
        count := m.count - units, waiting := rest, held := upsert m.held inv.job 0 fun u => u + units }).frontDone c q) := by
  have hdrop : ∀ m : Sem, m = s.sem j.pot n → m.waiting.drop 1 = rest := by
    rintro m rfl
    rw [hturn]
    rfl
  have hsame : (s.modSem j.pot n fun m => { m with
      count := m.count - units, waiting := m.waiting.drop 1, held := upsert m.held inv.job 0 fun u => u + units }) =
      s.modSem j.pot n fun m => { m with
        count := m.count - units, waiting := rest, held := upsert m.held inv.job 0 fun u => u + units } := by
    refine s.modSem_congr j.pot n ?_
    simp only [hdrop _ rfl]
  have hany : ((s.sem j.pot n).waiting.any fun w => w.1 == c.val) = true := by simp [hturn]
  have hhead : (((s.sem j.pot n).waiting.head?.map fun w => w.1 == c.val).getD false && decide (units ≤ (s.sem j.pot n).count)) = true := by
    simp [hturn, hunits]
  rw [← hsame]
  simp only [State.fireSemacq, State.core_fin, hrun, State.coreJob_of_run hrun hjob, hany, hhead, Bool.not_true, Bool.false_eq_true,
    if_false, if_true]

theorem Core.keptBusy_iff (k : Core) : k.keptBusy = true ↔
    k.keep ≠ none ∨ ∃ r ∈ k.mms, r.cont = true ∨ (mmOps r.q).keep = true := by
  simp [Core.keptBusy, Option.isSome_iff_ne_none]

/-- An acquire that waits, while no holder of its units is pre-empted, goes on waiting. -/
theorem State.fireSemacq_waits (hrun : s.cores[c].run = some inv) (hjob : s.job? inv.job = some j) {x : Nat × Nat × Nat}
    {rest : List (Nat × Nat × Nat)} (hfirst : (s.sem j.pot n).waiting = x :: rest)
    (hwait : x.1 ≠ c.val ∨ (s.sem j.pot n).count < units) (hmine : ∃ w ∈ (s.sem j.pot n).waiting, w.1 = c.val)
    (hholders : ∀ h ∈ (s.sem j.pot n).held, ∀ y, s.job? h.1 = some y → y.phase ≠ .preempted) : s.fireSemacq c q n units = none := by
  have hany : ((s.sem j.pot n).waiting.any fun w => w.1 == c.val) = true := by simpa using hmine
  have hhead : (((s.sem j.pot n).waiting.head?.map fun w => w.1 == c.val).getD false && decide (units ≤ (s.sem j.pot n).count)) = false := by
    rw [hfirst]
    rcases hwait with hother | hfew
    · simp [hother]
    · simp [Nat.not_le.mpr hfew]
  simp only [State.fireSemacq, State.core_fin, hrun, State.coreJob_of_run hrun hjob, hany, hhead, Bool.not_true, Bool.false_eq_true,
    if_false]
  split
  next h hfound =>
    have hpre := List.find?_some hfound
    have hno := hholders h (List.mem_of_find?_eq_some hfound)
    cases hy : s.job? h.1 with
    | none => simp [hy] at hpre
    | some y => simp [hy, hno y hy] at hpre
  next => rfl

theorem State.fireSemrel_past (hrun : s.cores[c].run = some inv) (hjob : s.job? inv.job = some j)
    (hpast : 65535 < (s.sem j.pot n).count + units) : s.fireSemrel c q n units = s.illegal c q := by
  simp only [State.fireSemrel, State.core_fin, hrun, State.coreJob_of_run hrun hjob, hpast, if_true]

theorem State.fireSemrel_returns (hrun : s.cores[c].run = some inv) (hjob : s.job? inv.job = some j) (hpot : j.pot < 8)
    (hroom : (s.sem j.pot n).count + units ≤ 65535) (hloan : (s.pot j.pot).loan = none) : s.fireSemrel c q n units =
      (s.modSem j.pot n fun m => { m with
        count := m.count + units
        held := (upsert m.held inv.job 0 fun u => u - units).filter fun h => decide (0 < h.2) }).frontDone c q := by
  simp only [State.fireSemrel, State.core_fin, hrun, State.coreJob_of_run hrun hjob, Nat.not_lt.mpr hroom, if_false,
    s.modSem_loan hpot, hloan]

end

/-- Settles O40: each word by what `fireOp` does with it; the semaphores by the turn and the units. -/
theorem frontInstructionsFire : Obligations.FrontInstructionsFire := by
  unfold Obligations.FrontInstructionsFire
  refine ⟨fun s c q inv hfront hrun => ⟨?_, ?_, ?_⟩, fun s c q inv j n units hrun hjob hpot => ⟨?_, ?_, ?_, ?_, ?_, ?_⟩⟩
  · exact fun h => State.fireFront_of_tooMany hfront hrun ((tooMany_iff _).mpr h)
  · exact fun hw hs => State.fireFront_of_waiting hfront hrun (tooMany_eq_false hw hs)
  · intro hw hs hready
    have hfire := State.fireFront_of_ready hfront hrun (tooMany_eq_false hw hs) hready
    have becomes : ∀ (op : KOp) (f : Core → Core), s.fireOp c q inv op = some (s.regFire c q f) → q.word.op = op →
        s.fireFront c = some ((
          { s with cores := s.cores.set c { f (s.cores[c].hdrTake q.word.hdr) with front := none }.advance } : State).signalIf c q) := by
      intro op f hf hop
      rw [hfire, hop, hf, State.regFire_fin]
    refine ⟨?_, ?_, ?_, ?_, ?_, ?_, ?_, ?_, ?_, ?_, ?_, ?_, ?_, ?_⟩
    · exact fun r v o => becomes (.addr r v o) (fun k => k.setAd r (addrValue v o inv.ordinal)) rfl
    · intro r d hop
      refine ⟨addriValue (s.cores[c].ad[r.toNat]?.getD 0) d, ?_, addriValue_spec _ d⟩
      rw [becomes (.addri r d) (fun k => k.setAd r (addriValue (k.ad[r.toNat]?.getD 0) d)) rfl hop]
      simp only [Core.setAd, Core.hdrTake_ad]
    · exact fun i m n p => becomes (.shape i m n p) (fun k => k.setShape i m n p) rfl
    · exact fun i a b d => becomes (.stride i a b d) (fun k => k.setStride i a b d) rfl
    · exact fun o => becomes (.spout o) (fun k => k.setSpout o) rfl
    · exact fun i v w => becomes (.spoutv i v w) (fun k => k.setSpoutv i v w) rfl
    · exact fun n b => becomes (.loop n b)
        (fun k => { k with loops := { start := q.pc + 1, left := n.toNat, body := b.toNat } :: k.loops }) rfl
    · exact becomes (.nop 0) id rfl
    · intro m hop
      rw [hfire, hop]
      refine ⟨fun hleft => if_neg fun hok => (Core.fenceOk_iff _ _).mp hok hleft, fun hfree => ?_⟩
      exact (if_pos ((Core.fenceOk_iff _ _).mpr hfree)).trans (congrArg some (s.frontDone_fin c q))
    · intro hop hidle
      rw [hfire, hop]
      exact if_pos hidle
    · intro hop hidle hkeep
      rw [hfire, hop]
      have hkept : (s.core c).keep.isSome = true := by rw [State.core_fin]; exact Option.isSome_iff_ne_none.mpr hkeep
      exact (if_pos hidle).trans (congrArg some (if_pos hkept))
    · intro hop hbusy
      have hb : ¬ s.cores[c].unitsIdle = true := Bool.eq_false_iff.mp hbusy
      rcases hop with hop | hop
      · rw [hfire, hop]
        exact if_neg hb
      · rw [hfire, hop]
        exact if_neg hb
    · intro hop hidle
      rw [hfire, hop]
      exact if_pos hidle
    · intro l o j hop hjob hwrote hoff hsen
      rw [hfire, hop]
      exact congrArg some (State.fireGroup_of_quiet hrun hjob hwrote hoff hsen l o)
  · exact State.fireSemacq_arrives hrun hjob
  · intro rest hturn hunits hlarge hbusy
    rw [State.fireSemacq_granted hrun hjob hturn hunits]
    exact if_pos ⟨hlarge, (Core.keptBusy_iff _).mpr hbusy⟩
  · intro rest hturn hunits hfree
    rw [State.fireSemacq_granted hrun hjob hturn hunits]
    refine if_neg fun hbusy => ?_
    obtain ⟨hlarge, hkept⟩ := hbusy
    rcases hfree with hsmall | ⟨hkeep, hnone⟩
    · omega
    · rcases (Core.keptBusy_iff _).mp hkept with hk | ⟨r, hr, hcont⟩
      · exact hk hkeep
      · simp [hnone r hr] at hcont
  · exact fun x rest hfirst hwait hmine hholders => State.fireSemacq_waits hrun hjob hfirst hwait hmine hholders
  · exact State.fireSemrel_past hrun hjob
  · exact State.fireSemrel_returns hrun hjob hpot

end Sys2Proof.Machine
end

section
/-! Proofs about the vector unit (R148, R167, R168, Table 7.9): what an operation forms, element by element, and what firing writes. -/

namespace Sys2Proof.Machine

-- Lists of operands of one length

/-- A list whose length is `n` and whose element `i` is `x`. -/
def rowAt {α : Type} (l : List α) (n i : Nat) (x : α) : Prop := l.length = n ∧ l[i]? = some x

section
variable {α β : Type} {n i : Nat}

theorem rowAt.map {l : List α} {x : α} (h : rowAt l n i x) (f : α → β) : rowAt (l.map f) n i (f x) := by
  obtain ⟨hlen, hx⟩ := h
  exact ⟨by simp [hlen], by simp [hx]⟩

theorem rowAt.zip {l : List α} {m : List β} {x : α} {y : β} (h : rowAt l n i x) (h' : rowAt m n i y) : rowAt (l.zip m) n i (x, y) := by
  obtain ⟨hlen, hx⟩ := h
  obtain ⟨hlen', hy⟩ := h'
  exact ⟨by simp [hlen, hlen'], by simp [List.getElem?_zip_eq_some, hx, hy]⟩

theorem rowAt.zipIdx {l : List α} {x : α} (h : rowAt l n i x) : rowAt l.zipIdx n i (x, i) := by
  obtain ⟨hlen, hx⟩ := h
  exact ⟨by simp [hlen], by simp [hx]⟩

theorem rowAt_replicate (hi : i < n) (x : α) : rowAt (List.replicate n x) n i x :=
  ⟨List.length_replicate, by simp [hi]⟩

end

/-- The values of a row in a store format, one per element. -/
theorem rowAt_rowVals (fmt : Nat) (blk : Bool) (raw : Bytes) {n i : Nat} (hi : i < n) :
    rowAt (rowVals fmt blk raw n) n i ((rowVals fmt blk raw n).getD i .nan) := by
  have hlen : (rowVals fmt blk raw n).length = n := by simp [rowVals]
  refine ⟨hlen, ?_⟩
  rw [List.getD_eq_getElem?_getD, List.getElem?_eq_getElem (by omega)]
  rfl

/-- A result that is one value per element, with nothing for B and nothing raw. -/
def VResult.forms (r : VResult) (n i : Nat) (v : BitVec 32) : Prop :=
  r.vals[i]? = some (ofF32 v) ∧ r.vals.length = n ∧ r.raw = none ∧ r.toB = []

theorem VResult.forms_of_row {l : List (BitVec 32)} {n i : Nat} {v : BitVec 32} (h : rowAt l n i v) :
    VResult.forms { vals := vfp l } n i v := by
  obtain ⟨hlen, hv⟩ := h.map ofF32
  exact ⟨hv, hlen, rfl, rfl⟩

/-- Settles O42: operands are rows of `n` values, and each operation maps over them. -/
theorem vectorOperationsFormTheirResults : Obligations.VectorOperationsFormTheirResults := by
  unfold Obligations.VectorOperationsFormTheirResults
  intro c n i o A B D smp hi
  have ha := (rowAt_rowVals o.afmt.toNat o.blk A hi).map toF32
  have hd := (rowAt_rowVals o.dfmt.toNat o.blk D hi).map toF32
  have hb : rowAt (if o.bimm then List.replicate n o.imm else (rowVals o.afmt.toNat o.blk B n).map toF32) n i
      (if o.bimm then o.imm else toF32 ((rowVals o.afmt.toNat o.blk B n).getD i .nan)) := by
    cases o.bimm
    · exact (rowAt_rowVals o.afmt.toNat o.blk B hi).map toF32
    · exact rowAt_replicate hi o.imm
  refine ⟨?_, ?_, ?_, ?_, ?_, ?_, ?_, ?_, ?_, ?_, ?_, ?_, rfl, rfl, rfl, rfl, rfl, ?_, ?_, ?_, ?_⟩
  · exact VResult.forms_of_row ((ha.zip hb).zipIdx.map fun p => f32Add c p.2 p.1.1 p.1.2)
  · exact VResult.forms_of_row ((ha.zip hb).zipIdx.map fun p => f32Mul c p.2 p.1.1 p.1.2)
  · exact VResult.forms_of_row (((ha.zip hb).zip hd).zipIdx.map fun p => f32Fma c p.2 p.1.1.1 p.1.1.2 p.1.2)
  · exact VResult.forms_of_row ((ha.zip hb).zipIdx.map fun p => f32Max c p.2 p.1.1 p.1.2)
  · exact VResult.forms_of_row ((ha.zip hb).zipIdx.map fun p => f32Min c p.2 p.1.1 p.1.2)
  · exact VResult.forms_of_row ((ha.zip hb).map fun p => if vCond o.cond.toNat p.1 p.2 then 0x3F800000 else 0)
  · exact VResult.forms_of_row ((ha.zip hb).map fun p => if (ofF32 p.2).eq (.fin false 0 0) then o.imm else p.1)
  · exact VResult.forms_of_row (ha.zipIdx.map fun p => f32Exp c p.2 p.1)
  · exact VResult.forms_of_row (ha.zipIdx.map fun p => f32Ln c p.2 p.1)
  · exact VResult.forms_of_row (ha.zipIdx.map fun p => f32Rcp c p.2 p.1)
  · exact VResult.forms_of_row (ha.zipIdx.map fun p => f32Rsq c p.2 p.1)
  · exact VResult.forms_of_row (ha.zipIdx.map fun p => f32Tanh c p.2 2 p.1)
  · simp [vecResult, vPart, vfp, rowVals]
  · simp [vecResult]
  · exact ⟨_, rfl, rfl⟩
  · rintro seed pos tail rfl
    exact ⟨_, rfl, rfl⟩

-- Where operands lie (R168, R169)

/-- An operand lies in the core store exactly when its space is `CORE` and its bytes end within it. -/
theorem inCore_of_inside {v : BitVec 48} {n : Nat} (hspace : v.toNat / 2 ^ 44 = 0) (hend : v.toNat % 2 ^ 44 + n ≤ coreBytes) :
    inCore v n = some (v.toNat % 2 ^ 44) := by
  have hwindow : v.toNat % 2 ^ 44 < 2 ^ 25 := by
    simp only [coreBytes] at hend
    omega
  exact if_pos ⟨hspace, hwindow, hend⟩

theorem inCore_of_outside {v : BitVec 48} {n : Nat} (h : ¬ (v.toNat / 2 ^ 44 = 0 ∧ v.toNat % 2 ^ 44 + n ≤ coreBytes)) :
    inCore v n = none :=
  if_neg fun ⟨hspace, _, hend⟩ => h ⟨hspace, hend⟩

/-- An operation without B reads nothing at any place. -/
theorem inCore_of_unused {v : BitVec 48} {n : Nat} (h : n ≠ 0 → v.toNat / 2 ^ 44 = 0 ∧ v.toNat % 2 ^ 44 + n ≤ coreBytes) :
    inCore (if n = 0 then 0 else v) n = some (if n = 0 then 0 else v.toNat % 2 ^ 44) := by
  by_cases hn : n = 0
  · simp only [hn, if_true]
    exact (by decide : inCore 0 0 = some 0)
  · simp only [if_neg hn]
    exact inCore_of_inside (h hn).1 (h hn).2

/-- The operations whose result is a row of D alone. -/
def rowOp (op : VecOp) : Prop := op ∉ [VecOp.vtopk, .vpart, .vmerge, .vsample]

/-- They write no bytes to B and no raw bytes to D. -/
theorem vecResult_of_rowOp {op : VecOp} (h : rowOp op) (c : Nat) (o : VOps) (n : Nat) (A B D : Bytes)
    (smp : Option (Nat × Nat × List Nat)) : (vecResult c op o n A B D smp).toB = [] ∧ (vecResult c op o n A B D smp).raw = none := by
  cases op
  case vtopk => simp [rowOp] at h
  case vpart => simp [rowOp] at h
  case vmerge => simp [rowOp] at h
  case vsample => simp [rowOp] at h
  all_goals exact ⟨rfl, rfl⟩

/-- The bytes they write to D do not depend on a sampling block. -/
theorem vecDBytes_of_rowOp {op : VecOp} (h : rowOp op) (o : VOps) (n k : Nat) : vecDBytes op o n k = vecDBytes op o n 0 := by
  cases op
  case vsample => simp [rowOp] at h
  all_goals rfl

section
variable {s : State} {c : Fin 48} {q : QEntry} {op : VecOp} {o : VOps}

/-- An operand outside the core store is an illegal operation. -/
theorem State.fireVec_of_outside (hrow : rowOp op)
    (h : inCore (q.reg 1) (vecABytes op o (o.n1.toNat + 1)) = none ∨ inCore (q.reg 0) (vecDBytes op o (o.n1.toNat + 1) 0) = none ∨
      inCore (if vecBBytes op o (o.n1.toNat + 1) = 0 then 0 else q.reg 2) (vecBBytes op o (o.n1.toNat + 1)) = none) :
    s.fireVec c q op o = s.illegal c q := by
  simp only [State.fireVec]
  split
  next a b ha hb =>
    rw [ha, hb] at h
    have hd : inCore (q.reg 0) (vecDBytes op o (o.n1.toNat + 1) 0) = none := by simpa using h
    rw [vecDBytes_of_rowOp hrow, hd]
  next => rfl

/-- The poison that the row of a vector instruction carries (R152). -/
def Core.vecPoison (k : Core) (op : VecOp) (a an b bn d dn : Nat) : Option Arrival :=
  orPoison (k.poisonIn a an) (orPoison (k.poisonIn b bn) (if op = .vfma then k.poisonIn d dn else none))

/-- With its operands in the core store, a row operation is illegal where D overlaps another operand in part, and else writes its row. -/
theorem State.fireVec_of_inside (hrow : rowOp op) {a b d : Nat}
    (ha : inCore (q.reg 1) (vecABytes op o (o.n1.toNat + 1)) = some a)
    (hb : inCore (if vecBBytes op o (o.n1.toNat + 1) = 0 then 0 else q.reg 2) (vecBBytes op o (o.n1.toNat + 1)) = some b)
    (hd : inCore (q.reg 0) (vecDBytes op o (o.n1.toNat + 1) 0) = some d) :
    s.fireVec c q op o =
      if !apart d (vecDBytes op o (o.n1.toNat + 1) 0) a (vecABytes op o (o.n1.toNat + 1)) ||
          !apart d (vecDBytes op o (o.n1.toNat + 1) 0) b (vecBBytes op o (o.n1.toNat + 1)) then s.illegal c q
      else
        let r := s.used.narrowRowK c o.dfmt.toNat o.blk (op == .vcvt) q.tags (vecResult s.free op o (o.n1.toNat + 1)
          (s.coreRead c a (vecABytes op o (o.n1.toNat + 1))) (s.coreRead c b (vecBBytes op o (o.n1.toNat + 1)))
          (s.coreRead c d (vecDBytes op o (o.n1.toNat + 1) 0)) none).vals
        (r.1.coreWrite c 6 d (packCodes o.dfmt.toNat r.2.1 ++ r.2.2.1.map (BitVec.ofNat 8)) q.tags
          ((s.core c).vecPoison op a (vecABytes op o (o.n1.toNat + 1)) b (vecBBytes op o (o.n1.toNat + 1)) d
            (vecDBytes op o (o.n1.toNat + 1) 0))).countSats c o.dfmt.toNat q.tags r.2.2.2 := by
  have htopk : (op == .vtopk) = false := by
    cases op
    case vtopk => simp [rowOp] at hrow
    all_goals rfl
  have hsample : op ≠ .vsample := by
    rintro rfl
    simp [rowOp] at hrow
  have hsampleB : (op == .vsample) = false := beq_eq_false_iff_ne.mpr hsample
  obtain ⟨hB, hraw⟩ := vecResult_of_rowOp hrow s.free o (o.n1.toNat + 1) (s.coreRead c a (vecABytes op o (o.n1.toNat + 1)))
    (s.coreRead c b (vecBBytes op o (o.n1.toNat + 1))) (s.coreRead c d (vecDBytes op o (o.n1.toNat + 1) 0)) none
  simp only [State.fireVec, ha, hb, vecDBytes_of_rowOp hrow, hd, htopk, hsampleB, hsample, if_false, Bool.false_and, Bool.false_or,
    Bool.or_false, hB, hraw, List.isEmpty_nil, if_true]
  rfl

end

/-- Settles O43: where the operands lie, whether D lies apart from them, and the row that is narrowed and written. -/
theorem vectorInstructionsWriteTheirRow : Obligations.VectorInstructionsWriteTheirRow := by
  unfold Obligations.VectorInstructionsWriteTheirRow
  intro s c q op o hrow
  refine ⟨fun hout => ?_, fun ha hd hb hover => ?_, fun ha hd hb hapartA hapartB => ?_⟩
  · refine State.fireVec_of_outside hrow ?_
    rcases hout with h | h | ⟨hbn, h⟩
    · exact .inl (inCore_of_outside h)
    · exact .inr (.inl (inCore_of_outside h))
    · refine .inr (.inr ?_)
      rw [if_neg hbn]
      exact inCore_of_outside h
  · have h := State.fireVec_of_inside (s := s) (c := c) hrow (inCore_of_inside ha.1 ha.2) (inCore_of_unused hb)
      (inCore_of_inside hd.1 hd.2)
    refine h.trans (if_pos ?_)
    rcases hover with h | h
    · simp only [h, Bool.not_false, Bool.true_or]
    · simp only [h, Bool.not_false, Bool.or_true]
  · have h := State.fireVec_of_inside (s := s) (c := c) hrow (inCore_of_inside ha.1 ha.2) (inCore_of_unused hb)
      (inCore_of_inside hd.1 hd.2)
    refine ⟨_, _, _, _, _, rfl, h.trans (if_neg ?_)⟩
    simp only [hapartA, hapartB, Bool.not_true, Bool.or_false, Bool.false_eq_true, not_false_eq_true]

end Sys2Proof.Machine
end

section
/-! Proofs about a core's engines (R137 to R149) and its progress limit (R153, R176). -/

namespace Sys2Proof.Machine

-- The runs that the engines take next (R138, R142, R149)

/-- The loader's run has loads left, and fewer than four tiles are ahead of the fronts. -/
theorem Core.loadingRun_spec {k : Core} {r : MmRun} (h : k.loadingRun = some r) :
    r ∈ k.mms ∧ r.loaded < (foldOf r.q).passes ∧ (k.mms.map fun r => r.loaded - r.landed).sum < 4 := by
  unfold Core.loadingRun at h
  split at h
  · cases h
  · next hahead =>
    have hleft := List.find?_some h
    exact ⟨List.mem_of_find?_eq_some h, by simpa using hleft, by omega⟩

/-- The spout's run has a tile whose passes have all landed. -/
theorem Core.drainingRun_spec {k : Core} {r : MmRun} (h : k.drainingRun = some r) :
    r ∈ k.mms ∧ (r.drained + 1) * (foldOf r.q).kc ≤ r.landed := by
  unfold Core.drainingRun at h
  split at h
  next x hfind =>
    split at h
    next hdone =>
      cases h
      simp only [Bool.and_eq_true, decide_eq_true_eq] at hdone
      exact ⟨List.mem_of_find?_eq_some hfind, hdone.2⟩
    next => cases h
  next => cases h

/-- Whether an equality is written as a test or as a proposition. -/
theorem map_if_beq {α : Type} (l : List α) (p : α → Nat) (n : Nat) (f : α → α) :
    (l.map fun x => if p x == n then f x else x) = l.map fun x => if p x = n then f x else x := by
  simp only [beq_iff_eq]

section
variable {s : State} {c : Fin 48} {r : MmRun}

/-- A core once its loader has written a tile of a run. -/
def Core.withTile (k : Core) (free : Nat) (r : MmRun) : Core := { k with
  loads := k.loads ++ [k.readTile free r]
  mms := k.mms.map fun x => if x.num = r.num then { x with loaded := x.loaded + 1 } else x }

theorem exec_stationaryLoadDone (h : s.cores[c].loadingRun = some r) : exec (.stationaryLoadDone c) s =
    .next ({ s with free := s.free + 1, cores := s.cores.set c { s.cores[c].withTile s.free r with
      qLoader := if r.loaded + 1 = (foldOf r.q).passes then s.cores[c].qLoader.drop 1 else s.cores[c].qLoader } } : State).tidy := by
  have hrun : (s.core c).loadingRun = some r := by rw [State.core_fin]; exact h
  change execStationaryLoadDone c s = _
  simp only [execStationaryLoadDone, hrun, State.modCore_fin, map_if_beq _ MmRun.num, decide_eq_true_eq]
  rfl

theorem exec_passLanded (h : s.cores[c].landingRun = some r) : exec (.passLanded c) s =
    if r.landed + 1 = (foldOf r.q).passes then
      let t := ((s.landPass c r).modCore c fun k => { k with qArrays := k.qArrays.drop 1 }).syncSignal c r.q (mmOps r.q).xs
      .next (if (mmOps r.q).keep then t.signalIf c r.q else t).tidy
    else .next (s.landPass c r).tidy := by
  have hrun : (s.core c).landingRun = some r := by rw [State.core_fin]; exact h
  change execPassLanded c s = _
  simp only [execPassLanded, hrun]

theorem exec_spoutDrain_of_bad (h : s.cores[c].drainingRun = some r) (hbad : s.tileChecks c r = false) :
    exec (.spoutDrain c) s = .next (s.datapathFail (s.cores[c].phys.getD 52)) := by
  have hrun : (s.core c).drainingRun = some r := by rw [State.core_fin]; exact h
  change execSpoutDrain c s = _
  rw [← State.core_fin]
  simp only [execSpoutDrain, hrun, hbad, Bool.not_false, if_true]

/-- A tile that passes its check drains; the last one completes its instruction. -/
theorem exec_spoutDrain_of_good (h : s.cores[c].drainingRun = some r) (hgood : s.tileChecks c r = true) :
    (r.drained + 1 ≠ (foldOf r.q).tiles → exec (.spoutDrain c) s = .next (s.drainTile c r).tidy) ∧
    (∀ x rest, r.drained + 1 = (foldOf r.q).tiles → ((s.drainTile c r).core c).mms = x :: rest →
      exec (.spoutDrain c) s = .next ((s.drainTile c r).finishMm c x).tidy) := by
  have hrun : (s.core c).drainingRun = some r := by rw [State.core_fin]; exact h
  refine ⟨fun hmore => ?_, fun x rest hlast hmms => ?_⟩
  · change execSpoutDrain c s = _
    simp only [execSpoutDrain, hrun, hgood, Bool.not_true, Bool.false_eq_true, if_false, hmore]
  · change execSpoutDrain c s = _
    simp only [execSpoutDrain, hrun, hgood, Bool.not_true, Bool.false_eq_true, if_false, hlast, if_true, hmms]

theorem exec_moveArrived_of_none {n : Nat} (h : s.move? c n = none) (how : Arrival) : exec (.moveArrived c n how) s = .next s := by
  change execMoveArrived c n how s = _
  simp only [execMoveArrived, h]

theorem exec_moveArrived_of_some {n : Nat} {m : Move} (h : s.move? c n = some m) (hleaves : m.leaves = []) (hpeers : m.peers = [])
    (how : Arrival) : exec (.moveArrived c n how) s = .next (s.arriveMove c m how).tidy := by
  change execMoveArrived c n how s = _
  simp only [execMoveArrived, h, hleaves, hpeers, List.isEmpty_nil, Bool.not_true, Bool.or_false, Bool.false_eq_true, if_false]

end

-- CORE_PROGRESS_EXPIRY (R153, R176)

theorem any_range_iff (n : Nat) (f : Nat → Bool) : (List.range n).any f = true ↔ ∃ d : Fin n, f d = true := by
  simp only [List.any_eq_true, List.mem_range]
  exact ⟨fun ⟨d, hd, h⟩ => ⟨⟨d, hd⟩, h⟩, fun ⟨d, h⟩ => ⟨d, d.isLt, h⟩⟩

theorem any_toList_iff {α : Type} {n : Nat} (v : Vector α n) (f : α → Bool) : v.toList.any f = true ↔ ∃ p : Fin n, f v[p] = true := by
  simp only [List.any_eq_true, Vector.mem_toList_iff, Vector.mem_iff_getElem]
  constructor
  · rintro ⟨_, ⟨p, hp, rfl⟩, h⟩
    exact ⟨⟨p, hp⟩, h⟩
  · rintro ⟨p, h⟩
    exact ⟨v[p], ⟨p, p.isLt, rfl⟩, h⟩

/-- The place is in the store of a core. -/
def inStoreOf (c : Nat) : Option Place → Bool
  | some (.core d _) => d == c
  | _ => false

theorem inStoreOf_iff (c : Nat) (p : Option Place) : inStoreOf c p = true ↔ ∃ at_, p = some (.core c at_) := by
  unfold inStoreOf
  split
  next d a => simp
  next hno =>
    simp only [Bool.false_eq_true, false_iff, not_exists]
    exact hno c

/-- What is in flight for a core: a move of its own, another core's move into its store, a peer's transfer to its ordinal. -/
theorem State.inboundTo_iff (s : State) (c : Fin 48) (inv : Invocation) : s.inboundTo c inv = true ↔
    s.cores[c].moves ≠ [] ∨
      (∃ d : Fin 48, ∃ m ∈ s.cores[d].moves, ∃ at_, s.place d (m.regs.getD 1 0) 0 0 = some (.core c at_)) ∨
      (∃ p : Fin 4, ∃ x ∈ s.ports[p].inn, x.desc.kind = 1 ∧ x.job = inv.job ∧ x.desc.ordinal = inv.ordinal) := by
  have hform : s.inboundTo c inv = (!(s.core c).moves.isEmpty ||
      ((List.range 48).any fun d => (s.core d).moves.any fun m => inStoreOf c (s.place d (m.regs.getD 1 0) 0 0)) ||
      (s.ports.toList.any fun p => p.inn.any fun x => x.desc.kind == 1 && x.job == inv.job && x.desc.ordinal == inv.ordinal)) := rfl
  rw [hform, Bool.or_eq_true, Bool.or_eq_true, any_range_iff, any_toList_iff]
  simp only [State.core_fin, List.any_eq_true, inStoreOf_iff,
    Bool.and_eq_true, beq_iff_eq, and_assoc, or_assoc, Bool.not_eq_true', List.isEmpty_eq_false_iff]

/-- A job whose cores have fired within the limit. -/
def State.fires (s : State) (key : Nat) : Bool :=
  match s.job? key with
  | some x => decide (s.time ≤ x.firedAt + 2000000)
  | none => false

theorem State.fires_iff (s : State) (key : Nat) : s.fires key = true ↔ ∃ y, s.job? key = some y ∧ s.time ≤ y.firedAt + 2000000 := by
  unfold State.fires
  cases s.job? key <;> simp

/-- The semaphore that an operation acquires. -/
def semUnits : KOp → Option (BitVec 5)
  | .semacq n _ => some n
  | _ => none

theorem semUnits_iff (op : KOp) (n : BitVec 5) : semUnits op = some n ↔ ∃ units, op = .semacq n units := by
  cases op <;> simp [semUnits]

/-- What a core waits for at `SEMACQ`: units that another job holds whose cores still fire. -/
theorem State.semHeld_iff (s : State) (c : Fin 48) {inv : Invocation} (hrun : s.cores[c].run = some inv) : s.semHeld c inv = true ↔
    ∃ (q : QEntry) (n : BitVec 5) (units : BitVec 16) (j : Job), s.cores[c].front = some q ∧ q.word.op = .semacq n units ∧
      s.job? inv.job = some j ∧ ∃ h ∈ (s.sem j.pot n.toNat).held, h.1 ≠ inv.job ∧ 0 < h.2 ∧
        ∃ y, s.job? h.1 = some y ∧ s.time ≤ y.firedAt + 2000000 := by
  have hjob : s.coreJob c = s.job? inv.job := by simp only [State.coreJob, State.core_fin, hrun, Option.bind_some]
  have hform : s.semHeld c inv = match s.cores[c].front, s.job? inv.job with
      | some q, some j => (semUnits q.word.op).elim false fun n =>
        (s.sem j.pot n.toNat).held.any fun h => h.1 != inv.job && decide (0 < h.2) && s.fires h.1
      | _, _ => false := by
    simp only [State.semHeld, State.core_fin, hjob]
    cases s.cores[c].front with
    | none => rfl
    | some q =>
      cases s.job? inv.job with
      | none => rfl
      | some j => cases h : q.word.op <;> simp only [h] <;> rfl
  rw [hform]
  simp only [← State.fires_iff]
  cases s.cores[c].front with
  | none => simp
  | some q =>
    cases s.job? inv.job with
    | none => simp
    | some j =>
      have hop := semUnits_iff q.word.op
      cases hunits : semUnits q.word.op with
      | none => simp [← hop, hunits]
      | some n => simp [← hop, hunits, and_assoc]

/-- The limit of a core acts only on one that runs, not parked or ended, with nothing to wait for. -/
theorem exec_coreProgressExpiry {s : State} {c : Fin 48} {inv : Invocation} (hrun : s.cores[c].run = some inv) :
    exec (.coreProgressExpiry c) s =
      let k := s.cores[c]
      if k.parked || inv.ended || s.inboundTo c inv || s.semHeld c inv || !s.coresOn then .next s else
        let u := (s.count 1 c 7 1).faultRecord c 2 k.pc (k.layer, k.oper)
        if inv.kind = 0 then .next ((u.complete inv.job inv.item fun i => i.fail 0x50).modCore c Core.idle).tidy
        else .next (u.failServed c 0x50).tidy := by
  have hcore : (s.core c).run = some inv := by rw [State.core_fin]; exact hrun
  change execCoreProgressExpiry c s = _
  simp only [execCoreProgressExpiry, hcore]
  simp only [State.core_fin]

/-- Settles O44: the engines by the run they take next, the limit by what the core may wait for. -/
theorem coreEnginesAdvance : Obligations.CoreEnginesAdvance := by
  unfold Obligations.CoreEnginesAdvance
  refine ⟨fun s c => ⟨?_, ?_, ?_, ?_, ?_, ?_, ?_, ?_, ?_, ?_, ?_, ?_, ?_, ?_⟩, fun s c inv hrun => ⟨?_, ?_⟩⟩
  · intro r hr hmore
    refine ⟨_, exec_stationaryLoadDone hr, ?_⟩
    rw [if_neg (by omega)]
    rfl
  · intro r hr hlast
    refine ⟨_, exec_stationaryLoadDone hr, ?_⟩
    rw [if_pos hlast]
    rfl
  · intro r hr hmore
    exact (exec_passLanded hr).trans (if_neg (by omega))
  · intro r hr hlast
    exact (exec_passLanded hr).trans (if_pos hlast)
  · exact fun r hr hbad => exec_spoutDrain_of_bad hr hbad
  · exact fun r hr hgood hmore => (exec_spoutDrain_of_good hr hgood).1 (by omega)
  · exact fun r x rest hr hgood hlast => (exec_spoutDrain_of_good hr hgood).2 x rest hlast
  · intro hnone
    have h : (s.core c).loadingRun = none := by rw [State.core_fin]; exact hnone
    change execStationaryLoadDone c s = _
    simp only [execStationaryLoadDone, h]
  · intro hnone
    have h : (s.core c).landingRun = none := by rw [State.core_fin]; exact hnone
    change execPassLanded c s = _
    simp only [execPassLanded, h]
  · intro hnone
    have h : (s.core c).drainingRun = none := by rw [State.core_fin]; exact hnone
    change execSpoutDrain c s = _
    simp only [execSpoutDrain, h]
  · exact fun m how hm hleaves hpeers => exec_moveArrived_of_some hm hleaves hpeers how
  · exact fun n how hnone => exec_moveArrived_of_none hnone how
  · exact fun r hr => Core.loadingRun_spec hr
  · exact fun r hr => Core.drainingRun_spec hr
  · intro hparked hended hcomes hheld hon
    have hgo : ¬ (s.cores[c].parked || inv.ended || s.inboundTo c inv || s.semHeld c inv || !s.coresOn) = true := by
      rw [← State.inboundTo_iff] at hcomes
      rw [← State.semHeld_iff s c hrun] at hheld
      simp only [hparked, hended, hon, hcomes, hheld, Bool.or_eq_true, Bool.not_true, Bool.false_eq_true, or_self, not_false_eq_true]
    have h := (exec_coreProgressExpiry hrun).trans (if_neg hgo)
    exact ⟨fun hkind => h.trans (if_pos hkind), fun hkind => h.trans (if_neg hkind)⟩
  · intro hwait
    refine (exec_coreProgressExpiry hrun).trans (if_pos ?_)
    rw [← State.inboundTo_iff, ← State.semHeld_iff s c hrun] at hwait
    simpa only [Bool.or_eq_true, Bool.not_eq_true', or_assoc] using hwait

end Sys2Proof.Machine
end

section
/-! What a report leaves. Counts, trace records, watchpoint actions, host writes, events and completion entries change the host
interface, the observability state, the probe's halts and the free values; the module's own objects stay as they are. The objects are one
projection of the state (as `Held` is), so each operation has one lemma. -/

namespace Sys2Proof.Machine

/-- The parts of the state that reports leave. -/
structure Objects where
  pending : List Instr
  time : Nat
  nextId : Nat
  jobs : List Job
  images : List Image
  corpora : List Corpus
  colls : List Coll
  tables : List Table
  embed : Embed
  strains : List Strain
  searches : List Searching
  cups : List Cup
  waiting : List (Nat × Nat)
  reads : List LeafRead
  cores : Vector Core 48
  tiers : Tiers
  pots : Vector Pot 8
  nvme : Nvme
  media : Media
  ports : Vector Port 4
  sec : Sec
  power : Power
  boot : Boot

/-- The power state without the probe's halts and the trigger. -/
def Power.quiet (p : Power) : Power := { p with trigger := false, halted := 0 }

@[simp] theorem Power.quiet_trigger (p : Power) (b : Bool) : ({ p with trigger := b } : Power).quiet = p.quiet := rfl
@[simp] theorem Power.quiet_halted (p : Power) (h : BitVec 16) : ({ p with halted := h } : Power).quiet = p.quiet := rfl

/-- The objects of a state. -/
def State.objects (s : State) : Objects :=
  { pending := s.pending, time := s.time, nextId := s.nextId, jobs := s.jobs, images := s.images, corpora := s.corpora
    colls := s.colls, tables := s.tables, embed := s.embed, strains := s.strains, searches := s.searches, cups := s.cups
    waiting := s.waiting, reads := s.reads, cores := s.cores, tiers := s.tiers, pots := s.pots, nvme := s.nvme
    media := s.media, ports := s.ports, sec := s.sec, power := s.power.quiet, boot := s.boot }

/-- A choice between two states has the objects of the one chosen. -/
@[simp] theorem objects_ite (c : Prop) [Decidable c] (a b : State) : (if c then a else b).objects = if c then a.objects else b.objects := by
  split <;> rfl

/-- A fold keeps what every turn keeps. -/
theorem objects_foldl {α : Type} {f : State → α → State} (h : ∀ s x, (f s x).objects = s.objects) (l : List α) (s : State) :
    (l.foldl f s).objects = s.objects := by
  induction l generalizing s with
  | nil => rfl
  | cons x l ih => rw [List.foldl_cons, ih, h]

/-- Another host interface, observability state and number of free values change no object. -/
@[simp] theorem State.objects_reported (s : State) (host : HostIf) (obs : Obs) (free : Nat) :
    State.objects { s with host := host, obs := obs, free := free } = s.objects := rfl

section
variable (s : State)

@[simp] theorem State.modObs_objects (f : Obs → Obs) : (s.modObs f).objects = s.objects := rfl
@[simp] theorem State.modHost_objects (f : HostIf → HostIf) : (s.modHost f).objects = s.objects := rfl
@[simp] theorem State.used_objects : s.used.objects = s.objects := rfl

-- Counters, trace and watchpoints

@[simp] theorem State.count_objects (fam inst idx n : Nat) : (s.count fam inst idx n).objects = s.objects := by
  unfold State.count
  split <;> rfl

@[simp] theorem State.traceAt_objects (time : Option (BitVec 32)) (source kind aux : Nat) (value : BitVec 64) :
    (s.traceAt time source kind aux value).objects = s.objects := by
  unfold State.traceAt
  split
  · rfl
  · exact State.count_objects _ _ _ _ _

@[simp] theorem State.trace_objects (source kind aux : Nat) (value : BitVec 64) : (s.trace source kind aux value).objects = s.objects :=
  s.traceAt_objects none source kind aux value

@[simp] theorem State.stopTrace_objects (reason value : Nat) (discard : Bool) : (s.stopTrace reason value discard).objects = s.objects := by
  cases discard
  · unfold State.stopTrace
    split <;> rfl
  · unfold State.stopTrace
    split
    · rfl
    · exact State.count_objects _ _ _ _ _

/-- The probe's trigger and its halts are no objects. -/
@[simp] theorem State.objects_trigger (b : Bool) : State.objects { s with power := { s.power with trigger := b } } = s.objects := rfl
@[simp] theorem State.objects_halted (h : BitVec 16) : State.objects { s with power := { s.power with halted := h } } = s.objects := rfl

@[simp] theorem State.watchAct_objects (n : Nat) (w : Watch) (agent : Nat) (write : Bool) (first : Nat) :
    (s.watchAct n w agent write first).objects = s.objects := by
  unfold State.watchAct
  simp only [objects_ite, State.objects_halted, State.stopTrace_objects, State.objects_trigger, State.trace_objects,
    State.count_objects, ite_self]

@[simp] theorem State.watched_objects (space inst agent : Nat) (write : Bool) (first len : Nat) (tags : Option (BitVec 16 × BitVec 16)) :
    (s.watched space inst agent write first len tags).objects = s.objects :=
  objects_foldl (fun t n => by simp only [objects_ite, State.watchAct_objects, ite_self]) _ s

-- Host memory, rings and interrupts

@[simp] theorem State.hostWriteAs_objects (tags : Option (BitVec 16 × BitVec 16)) (a : Nat) (bs : Bytes) :
    (s.hostWriteAs tags a bs).objects = s.objects :=
  s.watched_objects 4 0 5 true a bs.length tags

@[simp] theorem State.hostWrite_objects (a : Nat) (bs : Bytes) : (s.hostWrite a bs).objects = s.objects := s.hostWriteAs_objects none a bs

@[simp] theorem State.hostSeen_objects (a n : Nat) : (s.hostSeen a n).objects = s.objects := s.watched_objects 4 0 5 false a n none

@[simp] theorem State.jobWrite_objects (key a : Nat) (bs : Bytes) : (s.jobWrite key a bs).objects = s.objects :=
  s.hostWriteAs_objects _ a bs

@[simp] theorem State.setRing_objects (pot : Option (Fin 8)) (sel : RingSel) (r : Ring) : (s.setRing pot sel r).objects = s.objects := by
  cases pot <;> cases sel <;> rfl

@[simp] theorem State.sendVector_objects (pot : Option (Fin 8)) (v : Nat) : (s.sendVector pot v).objects = s.objects := by
  unfold State.sendVector
  simp only [objects_ite]
  split
  · split
    · rfl
    · simp only [objects_ite, State.modHost_objects, ite_self]
  · split
    · rfl
    · simp only [objects_ite, State.modHost_objects, ite_self]

@[simp] theorem State.raiseRing_objects (pot : Option (Fin 8)) (sel : RingSel) : (s.raiseRing pot sel).objects = s.objects := by
  simp only [State.raiseRing, State.sendVector_objects, State.setRing_objects]

@[simp] theorem State.coalesce_objects (pot : Option (Fin 8)) (sel : RingSel) (noIrq : Bool) : (s.coalesce pot sel noIrq).objects = s.objects := by
  simp only [State.coalesce, objects_ite, State.raiseRing_objects, State.setRing_objects, ite_self]

@[simp] theorem State.lastPosted_objects (key : Nat) : (s.lastPosted key).objects = s.objects := rfl

@[simp] theorem State.putCq_objects (p : Fin 8) (c : Fin 16) (e : CqEntry) : (s.putCq p c e).objects = s.objects := by
  simp only [State.putCq, State.coalesce_objects, State.setRing_objects, objects_ite, State.lastPosted_objects,
    State.hostWrite_objects, ite_self]

@[simp] theorem State.postCq_objects (p : Fin 8) (c : Fin 16) (e : CqEntry) : (s.postCq p c e).objects = s.objects := by
  unfold State.postCq
  simp only [objects_ite, State.putCq_objects, State.setRing_objects]
  split
  · rfl
  split
  · rfl
  · exact ite_self _

-- Events

@[simp] theorem State.postEvent_objects (pot : Option (Fin 8)) (code jobId : Nat) (layer oper : BitVec 16) (payload : Bytes) :
    (s.postEvent pot code jobId layer oper payload).objects = s.objects := by
  unfold State.postEvent
  simp only [objects_ite, State.coalesce_objects, State.setRing_objects, State.hostWrite_objects]
  cases pot with
  | none => simp only [State.count_objects, State.setRing_objects, ite_self]
  | some p => simp only [State.count_objects, State.setRing_objects, ite_self]

@[simp] theorem State.modEvent_objects (code : Nat) (payload : Bytes) : (s.modEvent code payload).objects = s.objects :=
  s.postEvent_objects none code 0 0xFFFF 0xFFFF payload

@[simp] theorem State.modEvent_media (code : Nat) (payload : Bytes) : (s.modEvent code payload).media = s.media :=
  congrArg Objects.media (s.modEvent_objects code payload)
@[simp] theorem State.modEvent_nvme (code : Nat) (payload : Bytes) : (s.modEvent code payload).nvme = s.nvme :=
  congrArg Objects.nvme (s.modEvent_objects code payload)
@[simp] theorem State.modEvent_jobs (code : Nat) (payload : Bytes) : (s.modEvent code payload).jobs = s.jobs :=
  congrArg Objects.jobs (s.modEvent_objects code payload)

end

end Sys2Proof.Machine
end

section
/-! Proofs about flash media (chapter 13): stripes, die operations, groups that are moved, the journal. -/

namespace Sys2Proof.Machine

-- Bays named by their numbers

theorem State.bay_fin (s : State) (n : Fin 8) : s.bay n = s.media.bays[n] := by
  simp [State.bay]

theorem State.modBay_fin (s : State) (n : Fin 8) (f : Bay → Bay) :
    s.modBay n f = { s with media := { s.media with bays := s.media.bays.set n (f s.media.bays[n]) } } := by
  rw [State.modBay, State.bay_fin]
  simp [Vector.setIfInBounds, Vector.set, Array.setIfInBounds]

theorem State.bay_modBay_self (s : State) {n : Nat} (hn : n < 8) (f : Bay → Bay) : (s.modBay n f).bay n = f (s.bay n) := by
  simp [State.bay, hn]

/-- A state that differs from another in the media alone. -/
def State.mediaOnly (s t : State) : Prop := ∃ M, t = { s with media := M }

namespace State.mediaOnly

theorem refl (s : State) : s.mediaOnly s := ⟨s.media, rfl⟩
theorem trans {s t u : State} (h : s.mediaOnly t) (h' : t.mediaOnly u) : s.mediaOnly u := by
  obtain ⟨M, rfl⟩ := h
  obtain ⟨N, rfl⟩ := h'
  exact ⟨N, rfl⟩
theorem ite {s t u : State} {c : Prop} [Decidable c] (ht : s.mediaOnly t) (hu : s.mediaOnly u) : s.mediaOnly (if c then t else u) := by
  split
  · exact ht
  · exact hu
theorem foldl {α : Type} {f : State → α → State} (hf : ∀ (t : State) a, t.mediaOnly (f t a)) (l : List α) (s : State) : s.mediaOnly (l.foldl f s) := by
  induction l generalizing s with
  | nil => exact refl s
  | cons a l ih => exact (hf s a).trans (ih (f s a))
theorem modMedia (s : State) (f : Media → Media) : s.mediaOnly (s.modMedia f) := ⟨_, rfl⟩
theorem modBay (s : State) (n : Nat) (f : Bay → Bay) : s.mediaOnly (s.modBay n f) := ⟨_, rfl⟩
theorem modGroup (s : State) (g : Nat) (f : Group → Group) : s.mediaOnly (s.modGroup g f) := ⟨_, rfl⟩

section
variable {s t : State} (h : s.mediaOnly t)
include h
theorem nvme_eq : t.nvme = s.nvme := by obtain ⟨M, rfl⟩ := h; rfl
theorem host_eq : t.host = s.host := by obtain ⟨M, rfl⟩ := h; rfl
theorem jobs_eq : t.jobs = s.jobs := by obtain ⟨M, rfl⟩ := h; rfl
end

end State.mediaOnly

/-- What a change of some bays leaves of the media. -/
def Media.noBays (m : Media) : Media := { m with bays := Vector.replicate 8 {} }

@[simp] theorem State.modBay_noBays (s : State) (n : Nat) (f : Bay → Bay) : (s.modBay n f).media.noBays = s.media.noBays := rfl

theorem State.foldl_modBay_noBays {α : Type} (n : α → Nat) (f : α → Bay → Bay) (l : List α) (s : State) :
    (l.foldl (fun s a => s.modBay (n a) (f a)) s).media.noBays = s.media.noBays := by
  induction l generalizing s with
  | nil => rfl
  | cons a l ih => rw [List.foldl_cons, ih, State.modBay_noBays]

-- Stripes (R304)

section
variable (s : State) (g page : Nat) (pslc : Bool) (load : Payload) (data : Bytes)

/-- The programs of a new stripe, one to each writable bay. -/
def State.stripeOps : List MediaOp :=
  s.writables.zipIdx.map fun n =>
    { key := s.media.nextKey + 1 + n.2, kind := 1, bay := n.1, group := g, page := page, stripe := s.media.nextKey }
/-- A new stripe. -/
def State.newStripe : Stripe :=
  { key := s.media.nextKey, group := g, page := page, pslc := pslc, flying := s.writables, load := load, data := data
    mode := s.powerFailMode }

theorem State.beginStripe_mediaOnly : s.mediaOnly (s.beginStripe g page pslc load data) := by
  unfold State.beginStripe
  refine .trans ?_ (.modMedia _ _)
  refine .trans ?_ (.foldl (fun _ _ => .modBay _ _ _) _ _)
  refine .trans ?_ (.modGroup _ _ _)
  exact .ite (.refl s) (.modMedia s _)

/-- Beginning a stripe issues its programs and lists it. -/
theorem State.beginStripe_media : (s.beginStripe g page pslc load data).media.ops = s.media.ops ++ s.stripeOps g page ∧
    (s.beginStripe g page pslc load data).media.stripes = s.media.stripes ++ [s.newStripe g page pslc load data] ∧
    (s.beginStripe g page pslc load data).media.pslcBytes = if pslc then s.media.pslcBytes + 98304 else s.media.pslcBytes := by
  let st := if pslc then BlockState.openPslc else .openQlc
  let seq := s.media.seq + s.writables.length
  let s1 := if (s.group? g).isSome then s else s.modMedia fun m => { m with groups := m.groups ++ [{ pos := g, st := st, pslc := pslc }] }
  let s2 := s1.modGroup g fun x => { x with pages := page + 1, seq := seq }
  let s3 := s.writables.foldl (fun s n => s.modBay n fun b => b.modBlock (b.phys g) fun x => { x with st := st, pslc := pslc, seq := seq }) s2
  have h3 : s3.media.noBays = s2.media.noBays := State.foldl_modBay_noBays id _ s.writables s2
  have h1 : s1.media.ops = s.media.ops ∧ s1.media.stripes = s.media.stripes ∧ s1.media.pslcBytes = s.media.pslcBytes := by
    unfold s1
    split <;> exact ⟨rfl, rfl, rfl⟩
  obtain ⟨hops, hstripes, hbytes⟩ := h1
  have hmode : s3.powerFailMode = s.powerFailMode := by
    obtain ⟨M, hM⟩ : s.mediaOnly s3 := ((State.mediaOnly.ite (.refl s) (.modMedia s _)).trans (.modGroup _ g _)).trans
      (.foldl (fun _ _ => .modBay _ _ _) s.writables _)
    rw [hM]
    rfl
  refine ⟨?_, ?_, ?_⟩
  · exact congrArg (· ++ s.stripeOps g page) ((congrArg Media.ops h3).trans hops)
  · refine (congr (congrArg (fun l (m : Nat) => l ++ [({ s.newStripe g page pslc load data with mode := m } : Stripe)])
      ((congrArg Media.stripes h3).trans hstripes)) hmode)
  · exact congrArg (fun b : Nat => if pslc then b + 98304 else b) ((congrArg Media.pslcBytes h3).trans hbytes)

end

-- WRITE_BUFFER_PROGRAM (R306 to R308)

/-- A block that is to be programmed lies in the buffer, at the address named. -/
theorem State.unprogrammed_spec {s : State} {nsid lba : Nat} {b : BufBlock} (h : s.unprogrammed nsid lba = some b) :
    s.nvme.buffer.contains b = true ∧ b.nsid = nsid ∧ b.lba = lba := by
  have hmem := List.mem_of_find?_eq_some h
  have hp := List.find?_some h
  simp only [Bool.and_eq_true, beq_iff_eq] at hp
  exact ⟨List.contains_iff_mem.mpr hmem, hp.1.1, hp.1.2⟩

/-- Settles O46: the place is refused, erased first, or given a stripe. -/
theorem bufferedBlocksAreProgrammed : Obligations.BufferedBlocksAreProgrammed := by
  unfold Obligations.BufferedBlocksAreProgrammed
  intro s nsid lba g page pslc
  have hexec : exec (.writeBufferProgram nsid lba g page) s = execWriteBufferProgram nsid lba g page s := rfl
  refine ⟨?_, ?_, ?_, fun b => State.unprogrammed_spec⟩
  · intro b hb hwrite hready hplace hfree
    have hgo : ¬ (!s.writeOk || s.boot.phase != .ready || !s.placeable g page pslc ||
        (decide (s.freeGroups < 1524) && (s.group? g).isNone)) = true := by
      cases hg : s.group? g with
      | none => simp [hwrite, hready, hplace, (hfree hg).1]
      | some x => simp [hwrite, hready, hplace]
    have herased : ¬ ((s.group? g).isNone && s.unerased g) = true := by
      cases hg : s.group? g with
      | none => simp [(hfree hg).2]
      | some x => simp
    refine ⟨s.beginStripe g page pslc (.host nsid lba b.seq) b.data, s.stripeOps g page,
      s.newStripe g page pslc (.host nsid lba b.seq) b.data, ?_, ?_, ?_, ?_, ?_, rfl, rfl, rfl, rfl, ?_, ?_, ?_, ?_⟩
    · rw [hexec]
      simp only [execWriteBufferProgram, hb]
      exact (if_neg hgo).trans (if_neg herased)
    · exact (s.beginStripe_media g page pslc _ _).1
    · simp only [State.stripeOps, List.map_map, Function.comp_def]
      exact List.zipIdx_map_fst 0 s.writables
    · intro o ho
      simp only [State.stripeOps, List.mem_map] at ho
      obtain ⟨n, -, rfl⟩ := ho
      refine ⟨rfl, rfl, rfl, rfl, ?_⟩
      simp only [State.newStripe]
      omega
    · exact (s.beginStripe_media g page pslc _ _).2.1
    · exact (s.beginStripe_media g page pslc _ _).2.2
    · exact (s.beginStripe_mediaOnly g page pslc _ _).nvme_eq
    · exact (s.beginStripe_mediaOnly g page pslc _ _).host_eq
    · exact (s.beginStripe_mediaOnly g page pslc _ _).jobs_eq
  · intro b hb hwrite hready hplace hg hfree herased
    refine ⟨_, rfl, ?_⟩
    rw [hexec]
    simp only [execWriteBufferProgram, hb]
    refine (if_neg ?_).trans (if_pos ?_)
    · simp [hwrite, hready, show s.placeable g page (decide (s.media.pslcBytes + 98304 ≤ s.pslcRoom)) = true from hplace, Nat.not_lt.mpr hfree]
    · simp [hg, herased]
  · intro hno
    rw [hexec]
    cases hb : s.unprogrammed nsid lba with
    | none => simp only [execWriteBufferProgram, hb]
    | some b =>
      simp only [execWriteBufferProgram, hb]
      refine if_pos ?_
      rcases hno with hno | hno | hno
      · simp [hno] at hb
      · simp [hno]
      · simp [show s.placeable g page (decide (s.media.pslcBytes + 98304 ≤ s.pslcRoom)) = false from hno]

end Sys2Proof.Machine
end

section
/-! Proofs about die operations, moved groups and the journal (chapter 13). -/

namespace Sys2Proof.Machine

-- The operation that a command names (R14, Table 1.8)

/-- The operation of a key, when it has a slot and is of the kind. -/
theorem State.op?_of_find {s : State} {o : MediaOp} (h : (s.media.ops.take 131072).find? (fun x => x.key == o.key) = some o)
    {kind : Nat} (hkind : o.kind = kind) : s.op? o.key kind = some o := by
  have hfind := List.find?_eq_some_iff_append.mp h
  obtain ⟨hkey, l, r, hl, hbefore⟩ := hfind
  refine List.find?_eq_some_iff_append.mpr ⟨by simp [hkind], l, r, hl, fun x hx => ?_⟩
  have hno := hbefore x hx
  simp only [Bool.not_eq_true'] at hno ⊢
  simp [hno]

theorem State.op?_of_absent {s : State} {k : Nat} (h : ∀ o ∈ s.media.ops.take 131072, o.key ≠ k) (kind : Nat) : s.op? k kind = none :=
  List.find?_eq_none.mpr fun o ho => by simp [h o ho]

section
variable {s : State} {o : MediaOp}

/-- The state once a read of a die has ended, well or not. -/
def State.readEnded (s : State) (o : MediaOp) : State :=
  (s.servedBy o).modBay o.bay fun b => b.modBlock (b.phys o.group) fun x => { x with reads := x.reads + 1 }

theorem exec_flashReadDone (h : s.op? o.key 0 = some o) (ok : Bool) : exec (.flashReadDone o.key ok) s =
    if ok then .next (((s.readEnded o).dropOp o.key).modBay o.bay fun b => (b.count 0 1).count 3 (b2n (decide (0 < o.tries))))
    else .next ((s.readEnded o).readFailed o).feed.tidy := by
  change execFlashReadDone o.key ok s = _
  simp only [execFlashReadDone, h]
  rfl

theorem exec_flashProgramDone (h : s.op? o.key 1 = some o) (ok : Bool) : exec (.flashProgramDone o.key ok) s =
    let t := (s.dropOp o.key).modBay o.bay fun b => b.count 1 1
    let u := (t.voidStripe o.stripe).retireBlock o.bay o.group
    if ok then .next (t.memberDone o.stripe o.bay true)
    else .next (if u.movable o.group then (u.relocate o.group).settleStripes else u.settleStripes) := by
  change execFlashProgramDone o.key ok s = _
  simp only [execFlashProgramDone, h]

theorem exec_flashEraseDone (h : s.op? o.key 2 = some o) (ok : Bool) : exec (.flashEraseDone o.key ok) s =
    if o.suspended then .next s else
      let t := s.dropOp o.key
      .next ((if ok then (t.modBay o.bay fun b => (b.count 2 1).modBlock (b.phys o.group) fun x => { x with
          st := .free, erases := x.erases + 1, reads := 0, durable := 0, pslc := false, timeouts := 0 }).updateWear o.bay
        else t.retireBlock o.bay o.group).freeErased o.group) := by
  change execFlashEraseDone o.key ok s = _
  simp only [execFlashEraseDone, h]

theorem exec_eraseSuspend (h : s.op? o.key 2 = some o) : exec (.eraseSuspend o.key) s =
    if o.suspended || decide (12 ≤ o.suspends) then .next s else
      .next ((s.modOp o.key fun o => { o with suspended := true, suspends := o.suspends + 1, served := 0 }).modBay o.bay fun b =>
        b.modBlock (b.phys o.group) fun x => { x with st := .suspended }) := by
  change execEraseSuspend o.key s = _
  simp only [execEraseSuspend, h]

theorem exec_eraseResume (h : s.op? o.key 2 = some o) : exec (.eraseResume o.key) s =
    if o.suspended then .next (s.resumeErase o) else .next s := by
  change execEraseResume o.key s = _
  simp only [execEraseResume, h]

end

/-- A block reads as it was changed. -/
theorem Bay.block_modBlock (b : Bay) (k : Nat) (f : Block → Block) : (b.modBlock k f).block k = f (b.block k) := by
  have h := lookupD_upsert b.blocks k k b.blank f
  rw [if_pos (beq_self_eq_true k)] at h
  exact h

/-- A change of blocks moves no position. -/
theorem Bay.phys_modBlock (b : Bay) (k g : Nat) (f : Block → Block) : (b.modBlock k f).phys g = b.phys g := rfl

/-- The block of a position in a bay reads as it was changed. -/
theorem State.blockOf_modBay (s : State) {n : Nat} (hn : n < 8) (g : Nat) (f : Block → Block) :
    let t := s.modBay n fun b => b.modBlock (b.phys g) f
    (t.bay n).block ((t.bay n).phys g) = f ((s.bay n).block ((s.bay n).phys g)) := by
  intro t
  rw [s.bay_modBay_self hn, Bay.phys_modBlock, Bay.block_modBlock]

/-- Settles O47: each end by the operation it finds, its kind and what the drive answered. -/
theorem dieOperationsEnd : Obligations.DieOperationsEnd := by
  unfold Obligations.DieOperationsEnd
  refine ⟨⟨fun s k ok habsent => ?_, fun s o hfind => ?_⟩, fun s o hfind hbay => ?_⟩
  · have hop := State.op?_of_absent habsent
    have hslot : (s.opsInSlots.find? fun o => o.key == k) = none := List.find?_eq_none.mpr fun o ho => by simp [habsent o ho]
    refine ⟨?_, ?_, ?_, ?_, ?_, ?_⟩
    · change execFlashReadDone k ok s = _
      simp only [execFlashReadDone, hop]
    · change execFlashProgramDone k ok s = _
      simp only [execFlashProgramDone, hop]
    · change execFlashEraseDone k ok s = _
      simp only [execFlashEraseDone, hop]
    · change execEraseSuspend k s = _
      simp only [execEraseSuspend, hop]
    · change execEraseResume k s = _
      simp only [execEraseResume, hop]
    · change execDieOpTimeout k s = _
      simp only [execDieOpTimeout, hslot]
  · refine ⟨fun hkind => ⟨?_, ?_, ?_⟩, fun hkind => ⟨?_, ?_⟩, fun hkind hrun => ⟨?_, ?_⟩, fun hkind hsusp ok => ?_⟩
    · refine (exec_flashReadDone (State.op?_of_find hfind hkind) true).trans ((if_pos rfl).trans ?_)
      simp only [b2n, decide_eq_true_eq]
      rfl
    · exact fun htries => (exec_flashReadDone (State.op?_of_find hfind hkind) false).trans
        (congrArg (fun t : State => Host.Outcome.next t.feed.tidy) (if_pos htries))
    · exact fun htries => (exec_flashReadDone (State.op?_of_find hfind hkind) false).trans
        (congrArg (fun t : State => Host.Outcome.next t.feed.tidy) (if_neg (Nat.not_lt.mpr htries)))
    · exact exec_flashProgramDone (State.op?_of_find hfind hkind) true
    · exact ⟨_, rfl, exec_flashProgramDone (State.op?_of_find hfind hkind) false⟩
    · exact ⟨_, rfl, (exec_flashEraseDone (State.op?_of_find hfind hkind) true).trans (if_neg (by simp [hrun]))⟩
    · exact (exec_flashEraseDone (State.op?_of_find hfind hkind) false).trans (if_neg (by simp [hrun]))
    · exact (exec_flashEraseDone (State.op?_of_find hfind hkind) ok).trans (if_pos hsusp)
  · refine ⟨fun hkind hrun hfew => ?_, fun hkind hno => ?_, fun hkind hsusp => ?_, fun hkind hrun => ?_, ?_⟩
    · refine ⟨_, (exec_eraseSuspend (State.op?_of_find hfind hkind)).trans (if_neg ?_), rfl, ?_, rfl, rfl⟩
      · simp [hrun, Nat.not_le.mpr hfew]
      · rw [State.blockOf_modBay _ hbay]
    · refine (exec_eraseSuspend (State.op?_of_find hfind hkind)).trans (if_pos ?_)
      simpa using hno
    · refine ⟨_, (exec_eraseResume (State.op?_of_find hfind hkind)).trans (if_pos hsusp), rfl, ?_, rfl, rfl⟩
      rw [State.resumeErase, State.blockOf_modBay _ hbay]
    · exact (exec_eraseResume (State.op?_of_find hfind hkind)).trans (if_neg (by simp [hrun]))
    · have hslot : (s.opsInSlots.find? fun x => x.key == o.key) = some o := hfind
      refine ⟨fun honce => ?_, fun htwice => ?_⟩
      · change execDieOpTimeout o.key s = _
        simp only [execDieOpTimeout, hslot]
        exact congrArg Host.Outcome.next (if_neg (by simpa using honce))
      · change execDieOpTimeout o.key s = _
        simp only [execDieOpTimeout, hslot]
        exact congrArg Host.Outcome.next (if_pos (by simpa using htwice))

end Sys2Proof.Machine
end

section
/-! Proofs about garbage collection, folding, refresh (R306, R313 to R315) and the journal (R316, R317). -/

namespace Sys2Proof.Machine

-- The lowest free position

/-- A search that ends at a listed number has passed listed numbers alone. -/
theorem lowestFree_mem {used : List Nat} {k n : Nat} (h : lowestFree used k n ∈ used) : ∀ i ≤ k, n + i ∈ used := by
  induction k generalizing n with
  | zero =>
    intro i hi
    obtain rfl : i = 0 := by omega
    exact h
  | succ k ih =>
    unfold lowestFree at h
    split at h
    next hn =>
      intro i hi
      cases i with
      | zero => exact List.contains_iff_mem.mp hn
      | succ i =>
        have := ih h i (by omega)
        rwa [Nat.add_right_comm] at this
    next hn => exact absurd (List.contains_iff_mem.mpr h) hn

/-- The lowest free position is not listed: among one more number than there are positions, some is free. -/
theorem lowestFree_notMem (used : List Nat) : lowestFree used used.length 0 ∉ used := by
  intro h
  have hall : List.range (used.length + 1) ⊆ used := fun i hi => by
    have hi := List.mem_range.mp hi
    have := lowestFree_mem h i (by omega)
    rwa [Nat.zero_add] at this
  have hlen := List.Nodup.length_le_of_subset List.nodup_range hall
  rw [List.length_range] at hlen
  omega

-- Groups that give way (R313)

section
variable {s : State}

/-- The group that takes pages is another than the one that gives way. -/
theorem State.target_ne {g : Nat} (hg : ∃ x ∈ s.media.groups, x.pos = g) (n : Nat) : s.target g n ≠ g := by
  unfold State.target
  split
  next x hx =>
    have hp := List.find?_some hx
    simp only [Bool.and_eq_true, bne_iff_ne] at hp
    exact hp.1.2
  next =>
    intro heq
    obtain ⟨x, hx, hpos⟩ := hg
    have hfree := lowestFree_notMem (s.media.groups.map (·.pos))
    rw [List.length_map] at hfree
    exact hfree (List.mem_map.mpr ⟨x, hx, hpos.trans heq.symm⟩)

theorem State.foldl_modBay_groups (f : Nat → Bay → Bay) (l : List Nat) (s : State) :
    (l.foldl (fun s n => s.modBay n (f n)) s).media.groups = s.media.groups := by
  have h := congrArg Media.groups (State.foldl_modBay_noBays id f l s)
  exact h

/-- A group that a change of its position reaches. -/
theorem State.exists_mem_modGroup {g : Nat} (h : ∃ y ∈ s.media.groups, y.pos = g) (f : Group → Group) :
    ∃ y, y.pos = g ∧ f y ∈ (s.modGroup g f).media.groups := by
  obtain ⟨y, hy, hpos⟩ := h
  exact ⟨y, hpos, List.mem_map.mpr ⟨y, hy, by simp [hpos]⟩⟩

/-- Pages that are appended to a group are valid in it. -/
theorem State.appendPages_valid (g : Nat) (pages : List Payload) : ∃ x ∈ (s.appendPages g pages).media.groups,
    x.pos = g ∧ ∀ p ∈ pages, ∃ k, (k, p) ∈ x.valid := by
  let s1 := if (s.group? g).isSome then s else s.modMedia fun m => { m with groups := m.groups ++ [{ pos := g, st := .openQlc }] }
  let seq := s1.media.seq + 8 * pages.length
  have hlisted : ∃ y ∈ (s1.modMedia fun m => { m with seq := seq }).media.groups, y.pos = g := by
    unfold s1
    split
    next hsome =>
      obtain ⟨y, hy⟩ := Option.isSome_iff_exists.mp hsome
      exact ⟨y, List.mem_of_find?_eq_some hy, by simpa using List.find?_some hy⟩
    next => exact ⟨{ pos := g, st := .openQlc }, by simp, rfl⟩
  unfold State.appendPages
  simp only [State.foldl_modBay_groups]
  obtain ⟨y, hpos, hy⟩ := State.exists_mem_modGroup hlisted _
  refine ⟨_, hy, hpos, fun p hp => ?_⟩
  obtain ⟨i, hi, rfl⟩ := List.mem_iff_getElem.mp hp
  refine ⟨((s1.group? g).getD {}).pages + i, List.mem_append_right _ (List.mem_map.mpr ⟨(pages[i], i), ?_, rfl⟩)⟩
  exact List.mem_zipIdx_iff_getElem?.mpr (List.getElem?_eq_getElem hi)

/-- An erase leaves the other groups as they are. -/
theorem State.mem_eraseGroup {g : Nat} {x : Group} (hx : x ∈ s.media.groups) (hne : x.pos ≠ g) : x ∈ (s.eraseGroup g).media.groups := by
  have hfold : ∀ (l : List Nat) (t : State), (l.foldl (fun (s : State) n =>
      let op : MediaOp := { key := s.media.nextKey, kind := 2, bay := n, group := g }
      (s.modBay n fun b => b.modBlock (b.phys g) fun x => { x with st := .erasing }).modMedia fun m => { m with
        ops := m.ops ++ [op], nextKey := m.nextKey + 1 }) t).media.groups = t.media.groups := by
    intro l
    induction l with
    | nil => exact fun _ => rfl
    | cons n l ih => exact fun t => ih _
  refine List.mem_map.mpr ⟨x, ?_, if_neg (by simpa using hne)⟩
  exact (hfold _ s).symm ▸ hx

/-- Every valid page of a group that gives way is valid in another. -/
theorem State.relocate_keeps {x : Group} (hx : s.group? x.pos = some x) (hvalid : x.valid ≠ []) {p : Nat × Payload} (hp : p ∈ x.valid) :
    ∃ g ∈ (s.relocate x.pos).media.groups, g.pos ≠ x.pos ∧ ∃ k, (k, p.2) ∈ g.valid := by
  have hlisted : ∃ y ∈ s.media.groups, y.pos = x.pos := ⟨x, List.mem_of_find?_eq_some hx, rfl⟩
  obtain ⟨g, hg, hpos, hpages⟩ := s.appendPages_valid (s.target x.pos x.valid.length) (x.valid.map (·.2))
  refine ⟨g, ?_, hpos ▸ State.target_ne hlisted x.valid.length, hpages p.2 (List.mem_map_of_mem hp)⟩
  have hne : x.valid.isEmpty = false := List.isEmpty_eq_false_iff.mpr hvalid
  simp only [State.relocate, hx, hne, Bool.false_eq_true, if_false]
  refine State.mem_eraseGroup ?_ (hpos ▸ State.target_ne hlisted x.valid.length)
  split
  · exact hg
  · exact hg

end

/-- Settles O48: what gives way by the branches of R313, and where its pages go. -/
theorem groupsAreMovedAndErased : Obligations.GroupsAreMovedAndErased := by
  unfold Obligations.GroupsAreMovedAndErased
  intro s hwrite hready hpower
  have hpowered : decide (3 ≤ s.power.st) = false := decide_eq_false (Nat.not_le.mpr hpower)
  have hgo : ¬ (!s.writeOk || s.boot.phase != .ready || decide (3 ≤ s.power.st)) = true := by simp [hwrite, hready, hpower]
  refine ⟨fun x hx => ?_, fun hnone hfree => ?_, fun x hnone hfew hvictim => ?_, fun x hx hvalid p hp => State.relocate_keeps hx hvalid hp,
    fun x target page hx hpslc hclosed hflying hother hplace hroom hvalid => ?_, fun bay g hmovable => ⟨fun hreads => ?_, fun hreads => ?_⟩⟩
  · change execGarbageCollection s = _
    simp only [execGarbageCollection, hx]
    exact if_neg hgo
  · change execGarbageCollection s = _
    simp only [execGarbageCollection, hnone]
    exact (if_neg hgo).trans (if_pos hfree)
  · change execGarbageCollection s = _
    simp only [execGarbageCollection, hnone, hvictim]
    exact (if_neg hgo).trans (if_neg (Nat.not_le.mpr hfew))
  · have hnofly : (s.media.stripes.any fun t => t.group == x.pos) = false := by simpa using hflying
    have hne : x.valid.isEmpty = false := List.isEmpty_eq_false_iff.mpr hvalid
    refine ⟨_, rfl, ?_⟩
    change execFold x.pos target page s = _
    simp only [execFold, hx, hnofly, hne]
    refine (if_neg ?_).trans rfl
    simp [hwrite, hready, hpower, hpslc, hclosed, hother, hplace, hroom]
  · change execReadDisturbRefresh bay g s = _
    exact if_pos (by simp [hmovable, hreads])
  · change execReadDisturbRefresh bay g s = _
    exact if_neg (by simp [Nat.not_le.mpr hreads])

-- Journal, checkpoints and counters

/-- Settles O49. -/
theorem journalAndCheckpointsAreKept : Obligations.JournalAndCheckpointsAreKept := by
  unfold Obligations.JournalAndCheckpointsAreKept
  intro s
  refine ⟨fun hwrite hjournal => ?_, fun hno => ?_, fun hwrite => ?_, fun hwrite => ?_, ?_⟩
  · exact if_neg (by simp [hwrite, hjournal])
  · refine if_pos ?_
    rcases hno with h | h
    · simp [h]
    · simp [h]
  · exact if_neg (by simp [hwrite])
  · exact if_pos (by simp [hwrite])
  · refine ⟨s.persistCounters, rfl, fun n => ?_, rfl, rfl⟩
    simp [State.persistCounters]

end Sys2Proof.Machine
end

section
/-! Proofs about caddies in their bays (chapter 13, second part). -/

namespace Sys2Proof.Machine

/-- The state with another bay at a place. -/
def State.setBay (s : State) (n : Fin 8) (x : Bay) : State := { s with media := { s.media with bays := s.media.bays.set n x } }

theorem State.modBay_setBay (s : State) (n : Fin 8) (f : Bay → Bay) : s.modBay n f = s.setBay n (f s.media.bays[n]) := s.modBay_fin n f

@[simp] theorem State.setBay_bay (s : State) (n : Fin 8) (x : Bay) : (s.setBay n x).media.bays[n] = x := by
  simp [State.setBay]

@[simp] theorem State.modBay_bay (s : State) (n : Fin 8) (f : Bay → Bay) : (s.modBay n f).media.bays[n] = f s.media.bays[n] := by
  rw [State.modBay_setBay, State.setBay_bay]

-- Bring-up (Table 13.12)

/-- The element's answer about a caddy that passes every check of order 4. -/
def identGood (id : CaddyIdent) : Bool :=
  id.magicOk && id.formatOk && id.compat == 1 && id.keyDigestOk && id.chainOk && id.sigOk

section
variable {s : State} {n : Fin 8}

theorem exec_caddyInsert (h : s.media.bays[n].present = false) : exec (.caddyInsert n) s =
    let u := s.setBay n { s.media.bays[n] with
      present := true, stage := .idle, serial := 0, st := 0, lever := false, announced := false, quiet := false, member := none
      readOnly := false, safe := false }
    .next (if u.bayPower then u.powerBay n else u) := by
  rw [← State.bay_fin] at h
  refine (if_neg (by simp [h])).trans ?_
  rw [State.modBay_setBay]

theorem exec_caddyLinkTrained (lanes : Fin 13) (h : s.media.bays[n].stage = .powering) : exec (.caddyLinkTrained n lanes) s =
    if lanes.val < 8 then .next (s.refuseCaddy n)
    else .next (s.setBay n { s.media.bays[n] with stage := .linked, lanes := lanes.val }) := by
  rw [← State.bay_fin] at h
  refine (if_neg (by simp [h])).trans ?_
  rw [State.modBay_setBay]

theorem exec_caddyAuthenticate (id : CaddyIdent) (h : s.media.bays[n].stage = .linked) : exec (.caddyAuthenticate n id) s =
    let u := s.setBay n { s.media.bays[n] with serial := id.serial, rated := id.rated, stage := .authentic }
    .next (if identGood id then u else u.refuseCaddy n) := by
  rw [← State.bay_fin] at h
  refine (if_neg (by simp [h])).trans ?_
  rw [State.modBay_setBay]
  rfl

theorem exec_caddy_ofOrder (h : s.media.bays[n].stage = .idle ∨ s.media.bays[n].stage = .up) :
    (∀ lanes, exec (.caddyLinkTrained n lanes) s = .next s) ∧ (∀ id, exec (.caddyAuthenticate n id) s = .next s) ∧
      ∀ found, exec (.caddyClassify n found) s = .next s := by
  rw [← State.bay_fin] at h
  refine ⟨fun lanes => if_pos ?_, fun id => if_pos ?_, fun found => if_pos ?_⟩
  all_goals rcases h with h | h <;> simp [h]

end

-- The classes of Table 13.13

section
variable (s : State) (n : Fin 8) (found : CaddyMeta)

/-- The class of a caddy whose record can be read and names a set. -/
theorem State.classOf_member {d b e : Nat} (hr : found.readable = true) (hm : found.membership = some (d, b, e)) : s.classOf n found =
    if d ≠ s.sec.identity.toNat % 2 ^ 64 then .foreign
    else if b = n.val ∧ e = s.media.epoch ∧ s.lacks n = false ∧ s.media.bays[n].absent = false then .returning else .stale := by
  have hiff : (b == n.val && e == s.media.epoch && !s.lacks n && !s.media.bays[n].absent) = true ↔
      b = n.val ∧ e = s.media.epoch ∧ s.lacks n = false ∧ s.media.bays[n].absent = false := by
    simp only [Bool.and_eq_true, beq_iff_eq, Bool.not_eq_true', and_assoc]
  unfold State.classOf
  rw [State.bay_fin]
  simp only [hr, hm, hiff, bne_iff_ne, Bool.not_true, Bool.false_eq_true, if_false]

theorem State.classOf_foreign_iff : s.classOf n found = .foreign ↔
    found.readable = false ∨ ∃ d b e, found.membership = some (d, b, e) ∧ d ≠ s.sec.identity.toNat % 2 ^ 64 := by
  cases hr : found.readable with
  | false => simp [State.classOf, hr]
  | true =>
    cases hm : found.membership with
    | none => simp [State.classOf, hr, hm]
    | some m =>
      obtain ⟨d, b, e⟩ := m
      rw [State.classOf_member s n found hr hm]
      by_cases hd : d = s.sec.identity.toNat % 2 ^ 64
      · rw [if_neg (not_not_intro hd)]
        simp only [Option.some.injEq, Prod.mk.injEq, reduceCtorEq, false_or]
        constructor
        · split <;> exact fun h => nomatch h
        · rintro ⟨_, _, _, ⟨rfl, _, _⟩, hne⟩
          exact absurd hd hne
      · rw [if_pos hd]
        exact ⟨fun _ => .inr ⟨d, b, e, rfl, hd⟩, fun _ => rfl⟩

theorem State.classOf_blank_iff : s.classOf n found = .blank ↔ found.readable = true ∧ found.membership = none := by
  cases hr : found.readable with
  | false => simp [State.classOf, hr]
  | true =>
    cases hm : found.membership with
    | none => simp [State.classOf, hr, hm]
    | some m =>
      obtain ⟨d, b, e⟩ := m
      rw [State.classOf_member s n found hr hm]
      refine ⟨?_, fun h => nomatch h.2⟩
      repeat' split
      all_goals exact fun h => nomatch h

theorem State.classOf_returning_iff : s.classOf n found = .returning ↔ found.readable = true ∧
    found.membership = some (s.sec.identity.toNat % 2 ^ 64, n.val, s.media.epoch) ∧ s.lacks n = false ∧ s.media.bays[n].absent = false := by
  cases hr : found.readable with
  | false => simp [State.classOf, hr]
  | true =>
    cases hm : found.membership with
    | none => simp [State.classOf, hr, hm]
    | some m =>
      obtain ⟨d, b, e⟩ := m
      rw [State.classOf_member s n found hr hm]
      simp only [Option.some.injEq, Prod.mk.injEq, true_and]
      by_cases hd : d = s.sec.identity.toNat % 2 ^ 64
      · rw [if_neg (not_not_intro hd)]
        split
        next h =>
          obtain ⟨hb, he, hl, ha⟩ := h
          exact ⟨fun _ => ⟨⟨hd, hb, he⟩, hl, ha⟩, fun _ => rfl⟩
        next h =>
          refine ⟨(nomatch ·), ?_⟩
          rintro ⟨⟨_, hb, he⟩, hl, ha⟩
          exact absurd ⟨hb, he, hl, ha⟩ h
      · rw [if_pos hd]
        exact ⟨(nomatch ·), fun h => absurd h.1.1 hd⟩

end

-- CADDY_CLASSIFY (R323)

/-- A bay whose caddy has passed order 5. -/
def Bay.classed (b : Bay) (found : CaddyMeta) : Bay := { b with
  stage := .up, wearUsed := found.wearUsed, spareLeft := found.spareLeft, readOnly := false
  counters := Vector.ofFn fun (i : Fin 8) => found.counters.getD i.val 0
  durable := Vector.ofFn fun (i : Fin 8) => found.counters.getD i.val 0 }

/-- What is done with a caddy of a class. -/
def State.actOnClass (u : State) (n : Nat) (found : CaddyMeta) : CaddyClass → Out
  | .returning =>
    let v := if (u.bay n).member.isSome then u else u.postInserted n 1
    let w := v.modBay n fun b => { b with
      member := found.membership, st := if b.rebuild.isSome then 2 else 1, absent := b.rebuild.isSome, announced := true, quiet := false }
    .next (if 100 ≤ found.wearUsed then w.modBay n fun b => { b with readOnly := true, st := 3 } else w)
  | .stale =>
    let v := (u.postInserted n 1).forgetBlocks n
    let w := if v.media.unrecorded.contains (u.bay n).serial then
        (v.wearEntry n 3).modMedia fun m => { m with unrecorded := m.unrecorded.erase (u.bay n).serial } else v
    .next (((w.modBay n fun b => { b with member := some (0, n, 0), st := 1, absent := true }).bumpEpoch).joinSet n)
  | .blank => .next ((u.postInserted n 1).adopt n)
  | .foreign => .next ((u.postInserted n 1).modBay n fun b => { b with st := 4, member := none })

/-- A caddy whose bad-block map is good is classed, and its class acted on. -/
theorem exec_caddyClassify_of {s : State} {n : Fin 8} {found : CaddyMeta} (hst : s.media.bays[n].stage = .authentic)
    (hok : found.badMapOk = true) {cls : CaddyClass} (hcls : s.classOf n found = cls) :
    exec (.caddyClassify n found) s = (s.modBay n fun b => b.classed found).actOnClass n found cls := by
  rw [← State.bay_fin] at hst
  refine (if_neg (by simp [hst])).trans ((if_neg (by simp [hok])).trans ?_)
  rw [← hcls]
  cases h : s.classOf n found <;> rfl

/-- A change of a bay sees the media alone. -/
theorem State.modBay_media_congr {s t : State} (h : s.media = t.media) (n : Nat) (f : Bay → Bay) : (s.modBay n f).media = (t.modBay n f).media := by
  simp only [State.modBay, State.bay, h]

/-- An announced insertion changes only the flags of its bay. -/
theorem State.postInserted_media (s : State) (n auth : Nat) :
    (s.postInserted n auth).media = (s.modBay n fun b => { b with announced := true, quiet := false }).media := by
  unfold State.postInserted
  refine State.modBay_media_congr ?_ n _
  split
  · rfl
  · exact s.modEvent_media 0x0003 _

/-- Settles O50: a caddy's bring-up in the order of Table 13.12, then its class of Table 13.13. -/
theorem caddiesAreBroughtUp : Obligations.CaddiesAreBroughtUp := by
  unfold Obligations.CaddiesAreBroughtUp
  refine ⟨fun s n => ⟨fun h => ⟨_, rfl, exec_caddyInsert h⟩, fun h => ?_, fun lanes h hl => ?_, fun lanes h hl => ?_,
    fun id h => ⟨?_, ?_⟩, fun lanes id found h => ?_⟩, fun s n found hst => ⟨fun hbad => ?_, fun hok => ?_,
    s.classOf_foreign_iff n found, s.classOf_blank_iff n found, s.classOf_returning_iff n found⟩⟩
  · rw [← State.bay_fin] at h
    exact if_pos h
  · exact (exec_caddyLinkTrained lanes h).trans (if_neg (Nat.not_lt.mpr hl))
  · exact (exec_caddyLinkTrained lanes h).trans (if_pos hl)
  · rintro ⟨h1, h2, h3, h4, h5, h6⟩
    have hgood : identGood id = true := by simp [identGood, h1, h2, h3, h4, h5, h6]
    exact (exec_caddyAuthenticate id h).trans (congrArg Host.Outcome.next (if_pos hgood))
  · intro hbad
    have hgood : ¬ identGood id = true := by
      rcases hbad with h | h | h | h | h | h <;> simp [identGood, h]
    exact (exec_caddyAuthenticate id h).trans (congrArg Host.Outcome.next (if_neg hgood))
  · exact ⟨(exec_caddy_ofOrder h).1 lanes, (exec_caddy_ofOrder h).2.1 id, (exec_caddy_ofOrder h).2.2 found⟩
  · rw [← State.bay_fin] at hst
    exact (if_neg (by simp [hst])).trans (if_pos (by simp [hbad]))
  · let u := s.modBay n fun b => b.classed found
    have hbay : u.bay n = s.media.bays[n].classed found := (State.bay_fin u n).trans (s.modBay_bay n _)
    have hmember : (u.bay n).member.isSome = s.media.bays[n].member.isSome := by rw [hbay]; rfl
    have hserial : (u.bay n).serial = s.media.bays[n].serial := by rw [hbay]; rfl
    refine ⟨u, rfl, exec_caddyClassify_of hst hok, exec_caddyClassify_of hst hok, fun hc hw => ?_, fun hc hw => ?_, fun hc => ?_⟩
    · refine ⟨_, rfl, ?_⟩
      rw [exec_caddyClassify_of hst hok hc, ← hmember]
      exact congrArg Host.Outcome.next (if_neg (Nat.not_le.mpr hw))
    · refine ⟨_, (exec_caddyClassify_of hst hok hc).trans (congrArg Host.Outcome.next (if_pos hw)), ?_, ?_, ?_⟩
      · rw [State.modBay_bay]
      · rw [State.modBay_bay]
      · rw [State.modBay_bay, State.modBay_bay]
    · refine ⟨_, _, rfl, rfl, ?_⟩
      have hun : ((u.postInserted n 1).forgetBlocks n).media.unrecorded = s.media.unrecorded :=
        (congrArg Media.unrecorded (u.postInserted_media n 1) :)
      rw [exec_caddyClassify_of hst hok hc, ← hserial, ← hun]
      rfl

-- Removal (R324, R427)

theorem State.bayControl_iff (s : State) : s.bayControl = true ↔ s.sec.lifecycle = .provisioned ∨ s.sec.lifecycle = .operational := by
  simp [State.bayControl]

/-- What a removal request leaves on a bay. -/
def State.removalAsked (s : State) (n : Fin 8) (t : State) : Prop :=
  t.media.bays[n].removing = true ∧ t.media.bays[n].rebuild = none ∧
    t.media.rebuilds = s.media.rebuilds.erase n.val ∧ t.media.groups = s.media.groups ∧ t.nvme = s.nvme ∧ t.jobs = s.jobs

section
variable {s : State} {n : Fin 8}

theorem State.requestRemoval_of (hp : s.media.bays[n].present = true) (h7 : s.media.bays[n].st ≠ 7) (h5 : s.media.bays[n].st ≠ 5) :
    s.requestRemoval n = (s.modBay n fun b => { b with removing := true, rebuild := none }).modMedia fun m => { m with
      rebuilds := m.rebuilds.erase n } := by
  rw [← State.bay_fin] at hp h7 h5
  exact (if_neg (by simpa [hp] using h7)).trans (if_neg (by simpa using h5))

theorem State.requestRemoval_asked (hp : s.media.bays[n].present = true) (h7 : s.media.bays[n].st ≠ 7) (h5 : s.media.bays[n].st ≠ 5) :
    s.removalAsked n (s.requestRemoval n) := by
  rw [State.requestRemoval_of hp h7 h5]
  refine ⟨?_, ?_, rfl, rfl, rfl, rfl⟩
  · exact congrArg Bay.removing (s.modBay_bay n fun b => { b with removing := true, rebuild := none })
  · exact congrArg Bay.rebuild (s.modBay_bay n fun b => { b with removing := true, rebuild := none })

/-- What a change of bays keeps of each, it keeps of every bay. -/
theorem State.modBay_keeps {P : Bay → Prop} {f : Bay → Bay} (hf : ∀ b, P b → P (f b)) (k : Nat) (h : P s.media.bays[n]) :
    P (s.modBay k f).media.bays[n] := by
  by_cases hk : k = n.val
  · subst hk
    rw [State.modBay_bay]
    exact hf _ h
  · have : (s.modBay k f).media.bays[n] = s.media.bays[n] := Vector.getElem_setIfInBounds_ne n.isLt hk
    rwa [this]

theorem State.foldl_modBay_keeps {P : Bay → Prop} {f : Nat → Bay → Bay} (hf : ∀ k b, P b → P (f k b)) (l : List Nat) (h : P s.media.bays[n]) :
    P (l.foldl (fun s k => s.modBay k (f k)) s).media.bays[n] := by
  induction l generalizing s with
  | nil => exact h
  | cons k l ih => exact ih (State.modBay_keeps (hf k) k h)

/-- A bay without a member gets none by a new epoch. -/
theorem State.bumpEpoch_member (h : s.media.bays[n].member = none) : s.bumpEpoch.media.bays[n].member = none := by
  unfold State.bumpEpoch
  refine State.foldl_modBay_keeps (P := fun b => b.member = none) (fun k b hb => ?_) _ h
  simp [hb]

theorem State.leaveSet_member : (s.leaveSet n).media.bays[n].member = none := by
  unfold State.leaveSet
  rw [State.bay_fin]
  split
  next h => exact Option.isNone_iff_eq_none.mp h
  next => exact State.bumpEpoch_member (by simp [State.memberAbsent, State.bay_fin])

/-- What a leaving member and a new epoch keep of a bay. -/
theorem State.leaveSet_keeps {P : Bay → Prop} (hm : ∀ b x, P b → P { b with member := x }) (ha : ∀ b, P b → P { b with absent := true, rebuild := none })
    (h : P s.media.bays[n]) : P (s.leaveSet n).media.bays[n] := by
  unfold State.leaveSet
  split
  · exact h
  · have hmember := State.modBay_keeps (f := fun b => { b with member := none }) (fun b => hm b none) n h
    have habsent := State.modBay_keeps (f := fun b => { b with absent := true, rebuild := none }) ha n hmember
    unfold State.bumpEpoch
    refine State.foldl_modBay_keeps (fun k b hb => ?_) _ habsent
    dsimp only
    split
    · exact hm b _ hb
    · exact hb

/-- An announced removal changes only the flag of its bay. -/
theorem State.postRemoved_keeps {P : Bay → Prop} (hf : ∀ b, P b → P { b with announced := false }) (h : P s.media.bays[n]) :
    P (s.postRemoved n).media.bays[n] ∧ (s.postRemoved n).media.bays[n].announced = false := by
  have hb := State.bay_fin s n
  cases hann : s.media.bays[n].announced with
  | false =>
    have heq : s.postRemoved n = s := if_pos (by rw [hb, hann]; rfl)
    rw [heq]
    exact ⟨h, hann⟩
  | true =>
    have heq : (s.postRemoved n).media = (s.modBay n fun b => { b with announced := false }).media := by
      unfold State.postRemoved
      rw [if_neg (by rw [hb, hann]; exact Bool.false_ne_true), State.modEvent_media]
    have hbay : (s.postRemoved n).media.bays[n] = { s.media.bays[n] with announced := false } :=
      (congrArg (fun m : Media => m.bays[n]) heq).trans (s.modBay_bay n _)
    rw [hbay]
    exact ⟨hf _ h, rfl⟩

/-- A bay whose caddy is quiet and may be pulled. -/
def Bay.released (b : Bay) : Prop := b.removing = false ∧ b.safe = true ∧ b.st = 7 ∧ b.stage = .idle

/-- A bay that is powered starts its caddy's bring-up, where its optical engine works. -/
theorem State.powerBay_of (h : n.val ∉ s.boot.engines) : (s.powerBay n).media = (s.modBay n fun b => { b with
    stage := .powering, safe := false, removing := false, lanes := 0, lanesOut := [], st := 0 }).media := by
  unfold State.powerBay
  rw [if_neg (by simpa using h)]
  rfl

end

section
variable {s : State} {n : Fin 8}

/-- LEVER_OPEN on a seated caddy. -/
theorem exec_leverOpen_of (hp : s.media.bays[n].present = true) (hst : s.media.bays[n].st ∈ [1, 2, 3, 5, 6]) :
    exec (.leverOpen n) s = .next ((s.modBay n fun b => { b with lever := true }).requestRemoval n) := by
  rw [← State.bay_fin] at hp hst
  refine (if_neg (by simp [hp])).trans (congrArg Host.Outcome.next (if_pos ?_))
  simpa [or_assoc] using hst

/-- LEVER_CLOSE. -/
theorem exec_leverClose (s : State) (n : Fin 8) : exec (.leverClose n) s =
    let u := s.modBay n fun b => { b with lever := false }
    .next (if s.media.bays[n].present && s.media.bays[n].safe then
      if s.bayPower then (u.powerBay n).modBay n fun b => { b with tripped := false } else u.modBay n fun b => { b with safe := false, st := 0 } else u) := by
  rw [← State.bay_fin]
  rfl

end

/-- Settles O51: a caddy leaves by request, by its lever, by surprise or by a trip. -/
theorem caddiesLeave : Obligations.CaddiesLeave := by
  unfold Obligations.CaddiesLeave
  intro s n b owned asked
  have hcontrol : s.bayControl = true ↔ owned := s.bayControl_iff
  have hb : s.bay n = b := s.bay_fin n
  refine ⟨fun ho hp h7 h5 => ?_, fun ho => ⟨?_, ?_⟩, fun ho h4 => ?_, fun h4 => ?_, fun hp hst => ?_, fun hp h5 => ?_, fun hp hsafe hpower heng => ?_,
    fun hno => ?_, fun hrem hops => ?_, fun hno => ?_, fun hp hstage => ?_, fun hp hstage => ?_, fun hp hstage h7 h5 => ?_,
    fun hp htrip hstage hpower heng => ?_⟩
  · refine ⟨s.requestRemoval n, congrArg Host.Outcome.next (if_pos (hcontrol.mpr ho)), State.requestRemoval_asked hp h7 h5⟩
  · exact congrArg Host.Outcome.next (if_neg (mt hcontrol.mp ho))
  · exact congrArg Host.Outcome.next (if_neg (by simp [mt hcontrol.mp ho]))
  · exact congrArg Host.Outcome.next (if_pos (by simp [hcontrol.mpr ho, hb, h4]))
  · exact congrArg Host.Outcome.next (if_neg (by simpa [hb] using fun _ => h4))
  · have hbay := s.modBay_bay n fun b => { b with lever := true }
    refine ⟨_, exec_leverOpen_of hp ?_, ?_, ?_⟩
    · rcases hst with h | h | h | h <;> simp [b] at h <;> simp [h]
    · refine State.requestRemoval_asked (s := s.modBay n fun b => { b with lever := true }) ?_ ?_ ?_
      · rw [hbay]
        exact hp
      · rw [hbay]
        rcases hst with h | h | h | h <;> exact fun h' => nomatch h.symm.trans h'
      · rw [hbay]
        rcases hst with h | h | h | h <;> exact fun h' => nomatch h.symm.trans h'
    · have hkeep := State.modBay_bay (s.modBay n fun b => { b with lever := true }) n fun b => { b with removing := true, rebuild := none }
      rw [State.requestRemoval_of (by rw [hbay]; exact hp) (by rw [hbay]; rcases hst with h | h | h | h <;> exact fun h' => nomatch h.symm.trans h')
        (by rw [hbay]; rcases hst with h | h | h | h <;> exact fun h' => nomatch h.symm.trans h')]
      exact (congrArg Bay.lever hkeep).trans (congrArg Bay.lever hbay)
  · have hbay : (s.modBay n fun b => { b with lever := true }).bay n = { b with lever := true } :=
      (s.bay_modBay_self n.isLt _).trans (congrArg (fun b : Bay => { b with lever := true }) hb)
    have heq : (s.modBay n fun b => { b with lever := true }).requestRemoval n =
        (s.modBay n fun b => { b with lever := true }).modBay n fun b => { b with safe := true } := by
      unfold State.requestRemoval
      rw [hbay]
      exact (if_neg (by simp [hp, h5])).trans (if_pos (by simp [h5]))
    refine ⟨_, exec_leverOpen_of hp ?_, ?_⟩
    · exact (congrArg (· ∈ [1, 2, 3, 5, 6]) h5).mpr (by decide)
    · rw [heq, State.modBay_bay, State.modBay_bay]
  · have hpow := State.powerBay_of (s := s.modBay n fun b => { b with lever := false }) heng
    have hfin : (((s.modBay n fun b => { b with lever := false }).powerBay n).media.bays[n]) =
        { b with stage := .powering, safe := false, removing := false, lanes := 0, lanesOut := [], st := 0, lever := false } := by
      rw [hpow, State.modBay_bay, State.modBay_bay]
    refine ⟨_, (exec_leverClose s n).trans (congrArg Host.Outcome.next ((if_pos ?_).trans (if_pos hpower))), ?_⟩
    · exact Bool.and_eq_true_iff.mpr ⟨hp, hsafe⟩
    · rw [State.modBay_bay, hfin]
      exact ⟨rfl, rfl, rfl, rfl⟩
  · refine ⟨_, (exec_leverClose s n).trans (congrArg Host.Outcome.next (if_neg ?_)), s.modBay_fin n _⟩
    rw [Bool.and_eq_true_iff]
    rintro ⟨hp, hsafe⟩
    rcases hno with h | h
    · exact nomatch hp.symm.trans h
    · exact nomatch hsafe.symm.trans h
  · let s1 := if b.member.isSome then s.wearEntry n 2 else s
    let s2 := s1.modBay n fun b => { b with removing := false, stage := .idle, safe := true, st := 7, lanes := 0, readOnly := false }
    have hexec : exec (.removalQuiesced n) s = .next ((s2.postRemoved n).leaveSet n) := by
      change execRemovalQuiesced n s = _
      unfold execRemovalQuiesced
      dsimp only
      rw [hb]
      exact if_neg (by simpa [hrem] using hops)
    have hquiet : s2.media.bays[n].released := by
      rw [State.modBay_bay]
      exact ⟨rfl, rfl, rfl, rfl⟩
    obtain ⟨hposted, hann⟩ := State.postRemoved_keeps (P := Bay.released) (fun _ h => h) hquiet
    obtain ⟨h1, h2, h3, h4⟩ := State.leaveSet_keeps (P := Bay.released) (fun _ _ h => h) (fun _ h => h) hposted
    have hann' := State.leaveSet_keeps (P := fun b => b.announced = false) (fun _ _ h => h) (fun _ h => h) hann
    exact ⟨_, hexec, h1, h2, h3, State.leaveSet_member, hann', h4⟩
  · refine if_pos ?_
    rcases hno with h | ⟨o, ho, hbay⟩
    · simp [hb, h]
    · simp only [Bool.or_eq_true, List.any_eq_true]
      exact .inr ⟨o, ho, beq_iff_eq.mpr hbay⟩
  · refine ⟨_, _, _, rfl, rfl, rfl, State.leaveSet_member, ?_⟩
    change execCaddySurpriseRemoval n s = _
    unfold execCaddySurpriseRemoval
    dsimp only
    rw [hb]
    exact if_neg (by simpa [hp] using hstage)
  · let s1 := if b.st == 7 then s else (s.postRemoved n).leaveSet n
    refine ⟨s1.modBay n fun b => { b with
      present := false, st := 0, safe := false, serial := 0, lanes := 0, removing := false, tripped := false, readOnly := false }, ?_, ?_⟩
    · change execCaddyPulled n s = _
      unfold execCaddyPulled
      dsimp only
      rw [hb]
      exact if_neg (by simp [hp, hstage])
    · rw [State.modBay_bay]
      refine ⟨rfl, rfl, fun h7 => ?_⟩
      have hs1 : s1 = (s.postRemoved n).leaveSet n := if_neg (by simpa using h7)
      rw [hs1]
      exact State.leaveSet_member
  · obtain ⟨hr, hn, hrest⟩ := State.requestRemoval_asked hp h7 h5
    refine ⟨_, if_pos (by simpa [hb] using ⟨hp, hstage⟩), ⟨?_, ?_, hrest⟩, ?_⟩
    · rw [State.modBay_bay]
      exact hr
    · rw [State.modBay_bay]
      exact hn
    · rw [State.modBay_bay]
  · have hpow := State.powerBay_of heng
    refine ⟨(s.powerBay n).modBay n fun b => { b with tripped := false }, if_pos (by simp [hb, hp, htrip, hstage, hpower]), ?_⟩
    have hstage' := congrArg (fun m : Media => m.bays[n].stage) hpow
    rw [State.modBay_bay]
    exact ⟨hstage'.trans (congrArg Bay.stage (s.modBay_bay n _)), rfl⟩

-- Rebuild (R327 to R330)

theorem le_foldl_min {k stop : Nat} {l : List Nat} (hstop : k ≤ stop) (hl : ∀ x ∈ l, k ≤ x) : k ≤ l.foldl Nat.min stop := by
  induction l generalizing stop with
  | nil => exact hstop
  | cons x l ih =>
    exact ih (Nat.le_min.mpr ⟨hstop, hl x List.mem_cons_self⟩) fun y hy => hl y (List.mem_cons_of_mem x hy)

/-- One step of the walk moves the mark, and not beyond the last group. -/
theorem State.walkTo_bounds (s : State) (n : Nat) {k : Nat} (hk : k < 304896) : k < s.walkTo n k ∧ s.walkTo n k ≤ 304896 := by
  have hpercent : k < ceilDiv ((walked k + 1) * 304896) 100 ∧ ceilDiv ((walked k + 1) * 304896) 100 ≤ 304896 := by
    unfold ceilDiv walked
    omega
  refine ⟨Nat.lt_min.mpr ⟨Nat.lt_succ_of_le (le_foldl_min (Nat.le_of_lt hpercent.1) fun x hx => ?_), hpercent.1⟩, Nat.le_trans (Nat.min_le_right _ _) hpercent.2⟩
  obtain ⟨g, hg, rfl⟩ := List.mem_map.mp hx
  have hle := (List.mem_filter.mp hg).2
  rw [Bool.and_eq_true, decide_eq_true_eq] at hle
  exact hle.1

/-- How many stripes one step rebuilds. -/
def State.stripesTo (s : State) (n k stop : Nat) : Nat :=
  ((s.media.groups.filter fun g => decide (k ≤ g.pos) && decide (g.pos < stop)).map fun g => (g.degraded.filter fun d => d.2.contains n).length).sum
/-- The stripes that one step passes have the bay's member again, and the mark moves. -/
def State.rebuiltTo (s : State) (n k stop : Nat) : State :=
  (s.modMedia fun m => { m with groups := m.groups.map fun g => if decide (k ≤ g.pos) && decide (g.pos < stop) then g.rebuild n else g }).modBay n
    fun b => { (b.count 5 (s.stripesTo n k stop)).count 1 (s.stripesTo n k stop) with rebuild := some stop, rebuilt := b.rebuilt + s.stripesTo n k stop }
/-- Progress is posted at each whole percent. -/
def State.progress (s : State) (n k stop : Nat) : State :=
  if walked k < walked stop then s.modEvent 0x0006 (natLe 1 n ++ natLe 1 (walked stop) ++ zeros 6 ++ natLe 8 (s.bay n).rebuilt) else s

theorem State.progress_objects (s : State) (n k stop : Nat) : (s.progress n k stop).objects = s.objects := by
  unfold State.progress
  rw [objects_ite, State.modEvent_objects, ite_self]

theorem State.progress_kept (s : State) (n k stop : Nat) : (s.progress n k stop).media = s.media ∧ (s.progress n k stop).nvme = s.nvme ∧
    (s.progress n k stop).jobs = s.jobs :=
  have h := s.progress_objects n k stop
  ⟨congrArg Objects.media h, congrArg Objects.nvme h, congrArg Objects.jobs h⟩

section
variable {s : State} {n : Fin 8}

/-- The step of a rebuild that runs. -/
theorem exec_rebuildGroup_of {k : Nat} {rest : List Nat} (hk : s.media.bays[n].rebuild = some k) (hdue : s.media.rebuilds = n.val :: rest)
    (hw : s.media.bays[n].isWritable = true) (hr : 6 ≤ (s.readables.filter (· != n.val)).length) (hp : s.power.st < 3) (hboot : s.boot.phase = .ready) :
    exec (.rebuildGroup n) s =
      let stop := s.walkTo n k
      let u := (s.rebuiltTo n k stop).progress n k stop
      .next (if 304896 ≤ stop then u.rebuildDone n else u) := by
  rw [← State.bay_fin] at hk hw
  have hgo : ¬ (s.media.rebuilds.head? != some n.val || !(s.bay n).isWritable || decide ((s.readables.filter (· != n.val)).length < 6) ||
      decide (3 ≤ s.power.st) || s.boot.phase != .ready) = true := by
    simp [hdue, hw, hboot, Nat.not_lt.mpr hr, hp]
  change execRebuildGroup n s = _
  simp only [execRebuildGroup, hk]
  exact if_neg hgo

/-- A rebuild's end makes the bay's member count again. -/
theorem State.rebuildDone_bay : (s.rebuildDone n).media.bays[n].rebuild = none ∧ (s.rebuildDone n).media.bays[n].absent = false ∧
    (s.rebuildDone n).media.bays[n].st = 1 := by
  let v := (s.modBay n fun b => { b with rebuild := none, absent := false, st := 1 }).modMedia fun m => { m with rebuilds := m.rebuilds.erase n }
  have hv : v.media.bays[n] = { s.media.bays[n] with rebuild := none, absent := false, st := 1 } :=
    s.modBay_bay n fun b => { b with rebuild := none, absent := false, st := 1 }
  unfold State.rebuildDone State.wearEntry
  rw [State.modBay_bay]
  exact ⟨congrArg Bay.rebuild hv, congrArg Bay.absent hv, congrArg Bay.st hv⟩

/-- What a rebuild's end leaves. -/
theorem State.rebuildDone_kept : (s.rebuildDone n).media.groups = s.media.groups ∧ (s.rebuildDone n).media.rebuilds = s.media.rebuilds.erase n ∧
    (s.rebuildDone n).nvme = s.nvme ∧ (s.rebuildDone n).jobs = s.jobs := by
  simp only [State.rebuildDone, State.wearEntry, State.modBay_media, State.modMedia_media, State.modBay_nvme, State.modMedia_nvme,
    State.modBay_jobs, State.modMedia_jobs, and_self]

theorem State.memberAbsent_absent : (s.memberAbsent n).media.bays[n].absent = true :=
  congrArg Bay.absent (s.modBay_bay n fun b => { b with absent := true, rebuild := none })

/-- A lane that leaves service, and its counts. -/
def laneOut (s : State) (n : Fin 8) (lane : Fin 12) : State :=
  ((s.modBay n fun b => { b with lanes := b.lanes - 1, lanesOut := b.lanesOut ++ [lane.val] }).count 5 n 9 1).count 5 n 8 8

theorem laneOut_objects (s : State) (n : Fin 8) (lane : Fin 12) :
    (laneOut s n lane).objects = (s.modBay n fun b => { b with lanes := b.lanes - 1, lanesOut := b.lanesOut ++ [lane.val] }).objects := by
  unfold laneOut
  rw [State.count_objects, State.count_objects]

/-- A lane that leaves service is counted; with fewer than eight left its caddy has failed. -/
theorem exec_caddyLaneFrameFail_of {lane : Fin 12} (hi : s.media.bays[n].stage ≠ .idle) (hp : s.media.bays[n].stage ≠ .powering)
    (hl : lane.val ∉ s.media.bays[n].lanesOut) (h0 : 0 < s.media.bays[n].lanes) : exec (.caddyLaneFrameFail n lane) s =
      if 8 ≤ s.media.bays[n].lanes - 1 then .next (laneOut s n lane) else .next ((laneOut s n lane).failCaddy n) := by
  rw [← State.bay_fin] at hi hp hl h0
  have hne : ((s.bay n).lanes == 0) = false := beq_false_of_ne (Nat.ne_of_gt h0)
  refine (if_neg (by simp [hi, hp, hl, hne])).trans ?_
  rw [State.bay_fin]
  rfl

end

/-- Settles O52: the walk of a rebuild, and the lanes of a caddy. -/
theorem rebuildsWalkTheGroups : Obligations.RebuildsWalkTheGroups := by
  unfold Obligations.RebuildsWalkTheGroups
  refine ⟨fun s n k rest hk hlt hdue hw hr hp hboot => ?_, fun s n lane => ⟨fun hi hpw hl h9 => ?_, fun hi hpw hl h0 h8 => ?_, fun hno => ?_⟩⟩
  · have hexec := exec_rebuildGroup_of hk hdue hw hr hp hboot
    obtain ⟨hbelow, habove⟩ := s.walkTo_bounds n hlt
    generalize s.walkTo n k = stop at hexec hbelow habove
    obtain ⟨hmedia, hnvme, hjobs⟩ := (s.rebuiltTo n k stop).progress_kept n k stop
    dsimp only at hexec
    generalize (s.rebuiltTo n k stop).progress n k stop = u at hexec hmedia hnvme hjobs
    replace hnvme : u.nvme = s.nvme := by rw [hnvme, State.rebuiltTo, State.modBay_nvme, State.modMedia_nvme]
    replace hjobs : u.jobs = s.jobs := by rw [hjobs, State.rebuiltTo, State.modBay_jobs, State.modMedia_jobs]
    have hrebuilds : u.media.rebuilds = n.val :: rest := by rw [hmedia, ← hdue]; rfl
    have hbay : u.media.bays[n].rebuild = some stop := by rw [hmedia, State.rebuiltTo, State.modBay_bay]
    have hgroups : u.media.groups = s.media.groups.map (fun g => if k ≤ g.pos ∧ g.pos < stop then { g with
         degraded := (g.degraded.map fun d => (d.1, d.2.filter (· != n.val))).filter fun d => !d.2.isEmpty } else g) := by
      rw [hmedia]
      simp only [← Bool.decide_and, decide_eq_true_eq, State.rebuiltTo, Group.rebuild, State.modBay_media, State.modMedia_media]
    rcases Nat.lt_or_ge stop 304896 with hstop | hstop
    · rw [if_neg (Nat.not_le.mpr hstop)] at hexec
      exact ⟨u, stop, hexec, hbelow, habove, hgroups, fun _ => ⟨hbay, hrebuilds.trans hdue.symm⟩, fun h => absurd h (Nat.ne_of_lt hstop), hnvme, hjobs⟩
    · rw [if_pos hstop] at hexec
      obtain ⟨hr, ha, hst⟩ := State.rebuildDone_bay (s := u) (n := n)
      obtain ⟨hdone, herased, hdnvme, hdjobs⟩ := State.rebuildDone_kept (s := u) (n := n)
      rw [hrebuilds, List.erase_cons_head] at herased
      exact ⟨u.rebuildDone n, stop, hexec, hbelow, habove, hdone.trans hgroups, fun h => absurd h (Nat.not_lt.mpr hstop),
        fun _ => ⟨hr, ha, hst, herased⟩, hdnvme.trans hnvme, hdjobs.trans hjobs⟩
  · rw [exec_caddyLaneFrameFail_of hi hpw hl (by omega)]
    refine ⟨_, if_pos (by omega), ?_⟩
    have hcount := congrArg Objects.media (laneOut_objects s n lane)
    exact hcount.trans (congrArg State.media (s.modBay_fin n fun b => { b with lanes := b.lanes - 1, lanesOut := b.lanesOut ++ [lane.val] }))
  · rw [exec_caddyLaneFrameFail_of hi hpw hl h0]
    have hcount := laneOut_objects s n lane
    refine ⟨(laneOut s n lane).modBay n fun b => { b with st := 6, stage := .idle, lanes := 0 }, _, ?_, congrArg Objects.nvme hcount,
      congrArg Objects.jobs hcount, rfl, ?_, if_neg (by omega)⟩
    · refine (State.modBay_media_congr (congrArg Objects.media hcount) n _).trans ?_
      rw [State.modBay_fin, State.modBay_bay, State.modBay_fin]
      simp only [Vector.set_set]
    · exact State.memberAbsent_absent
  · have hb := s.bay_fin n
    change execCaddyLaneFrameFail n lane s = _
    refine if_pos ?_
    rw [hb]
    simp only [Bool.or_eq_true, beq_iff_eq, List.contains_iff_mem]
    rcases hno with h | h | h | h
    · exact .inl (.inl (.inl h))
    · exact .inl (.inl (.inr h))
    · exact .inr h
    · exact .inl (.inr h)

end Sys2Proof.Machine
end

section
/-! Proofs about peer links (chapter 14): training, flits, STATUS and transfers. -/

namespace Sys2Proof.Machine

-- Ports named by their numbers

theorem State.port_fin (s : State) (n : Fin 4) : s.port n = s.ports[n] := by
  simp [State.port]

theorem State.modPort_fin (s : State) (n : Fin 4) (f : Port → Port) : s.modPort n f = { s with ports := s.ports.set n (f s.ports[n]) } := by
  rw [State.modPort, State.port_fin]
  simp [Vector.setIfInBounds, Vector.set, Array.setIfInBounds]

theorem State.modPort_port (s : State) (n : Fin 4) (f : Port → Port) : (s.modPort n f).ports[n] = f s.ports[n] := by
  rw [State.modPort_fin]
  simp

theorem State.modPort_modPort (s : State) (n : Fin 4) (f g : Port → Port) : (s.modPort n f).modPort n g = s.modPort n fun q => g (f q) := by
  rw [State.modPort_fin, State.modPort_port, State.modPort_fin, State.modPort_fin]
  simp only [Vector.set_set]

theorem State.modPort_port_ne (s : State) {k : Nat} {m : Fin 4} (h : k ≠ m.val) (f : Port → Port) : (s.modPort k f).ports[m] = s.ports[m] :=
  Vector.getElem_setIfInBounds_ne m.isLt h

theorem State.count_ports (s : State) (fam inst idx n : Nat) : (s.count fam inst idx n).ports = s.ports :=
  congrArg Objects.ports (s.count_objects fam inst idx n)

-- Training (R334 to R337)

section
variable {s : State} {n : Fin 4}

/-- A link that a HELLO or a message of order 6 reaches. -/
theorem exec_hello_of (h : HelloPkt) (hst : s.ports[n].st = .training ∨ s.ports[n].st = .retraining) (hres : h.hdr.reserved = false) :
    exec (.hello n h) s =
      let u := s.modPort n fun q => { q with ordinal := h.own % 8 }
      if h.groupId ≠ s.groupId ∨ s.groupId = 0 then .next (u.mismatch n 1)
      else if h.own ≠ s.portOrdinal n ∨ h.expects ≠ s.self then .next (u.mismatch n 2)
      else if h.fwMajor ≠ 4 then .next (u.mismatch n 3)
      else if s.portDigest n ≠ 0 ∧ h.digest ≠ s.portDigest n then .next (u.mismatch n 4)
      else .next (u.modPort n fun q => { q with
        helloDigest := some h.digest, authed := q.authed && s.ports[n].st == .retraining && q.digest == h.digest }) := by
  rw [← State.port_fin] at hst ⊢
  have hheld : ¬ ((s.port n).st != .training && (s.port n).st != .retraining) = true := by
    rcases hst with h | h <;> simp [h]
  exact (if_neg hheld).trans (if_neg (by simp [hres]))

/-- A packet that this module takes on a port (R342). -/
theorem State.accepts_iff (h : PktHdr) : s.accepts n h = true ↔
    h.reserved = false ∧ h.groupId = s.groupId ∧ h.dst = s.self ∧ h.src = s.ports[n].ordinal := by
  rw [State.accepts, State.port_fin]
  simp only [Bool.and_eq_true, Bool.not_eq_true', beq_iff_eq, and_assoc]

end

/-- Settles O53. -/
theorem portsTrain : Obligations.PortsTrain := by
  unfold Obligations.PortsTrain
  intro s n p port held
  have hp : s.port n = p := s.port_fin n
  have hport : ∀ f : Port → Port, s.modPort n f = port (f p) := s.modPort_fin n
  have hheld : held → ¬ (p.st != .training && p.st != .retraining) = true := by
    rintro (h | h) <;> simp [h]
  refine ⟨fun hok hst => ?_, fun hok => ?_, fun hst => ?_, fun hst => ?_, fun h hst hres => ?_, fun h hst hres => ?_, fun hdr hst => ?_,
    fun lanes => ⟨fun hst ha hd hlit => ?_, fun hno => ?_⟩, fun hst => ?_⟩
  · refine (if_pos ?_).trans (congrArg Host.Outcome.next (hport _))
    rw [hp]
    rcases hst with h | h <;> simp [h, hok]
  · exact if_neg (by simp [hok])
  · exact (if_pos (by simp [hp, hst])).trans (congrArg Host.Outcome.next (hport _))
  · exact if_neg (by simp [hp, hst])
  · refine (if_neg ?_).trans (if_pos hres)
    rw [hp]
    exact hheld hst
  · have hexec := exec_hello_of h hst hres
    have hu : s.modPort n (fun q => { q with ordinal := h.own % 8 }) = port { p with ordinal := h.own % 8 } := hport _
    refine ⟨fun hg h0 ho he hf hd => ⟨_, ?_, rfl⟩, fun hg => ?_, fun hg h0 ho => ?_, fun hg h0 ho he => ⟨fun hf => ?_, fun hf hd hdig => ?_⟩⟩
    all_goals refine hexec.trans ?_
    · have hdig : ¬ (s.portDigest n ≠ 0 ∧ h.digest ≠ s.portDigest n) := by
        rintro ⟨h0, hne⟩
        exact hd.elim h0 hne
      refine (if_neg (by simp [hg, h0])).trans ((if_neg (by simp [ho, he])).trans ((if_neg (by simp [hf])).trans ((if_neg hdig).trans ?_)))
      rw [State.modPort_modPort, hport]
    · rw [hu]
      exact if_pos (.inl hg)
    · rw [hu]
      exact (if_neg (by simp [hg, h0])).trans (if_pos ho)
    · rw [hu]
      exact (if_neg (by simp [hg, h0])).trans ((if_neg (by simp [ho, he])).trans (if_pos hf))
    · rw [hu]
      exact (if_neg (by simp [hg, h0])).trans ((if_neg (by simp [ho, he])).trans ((if_neg (by simp [hf])).trans (if_pos ⟨hd, hdig⟩)))
  · intro mine
    have hmine : s.accepts n hdr = true ↔ mine := State.accepts_iff hdr
    have hst' : (p.st == .training || p.st == .retraining) = true := by
      rcases hst with h | h <;> simp [h]
    refine ⟨fun hnot e => ?_, fun d hm hd ha => ⟨?_, fun e he => ?_⟩⟩
    · refine if_pos ?_
      rw [hp, hst', Bool.true_and, Bool.not_eq_true', Bool.eq_false_iff]
      exact mt hmine.mp hnot
    · refine (if_neg ?_).trans ((if_neg ?_).trans ((if_pos ?_).trans (congrArg Host.Outcome.next (hport _))))
      · simp [hmine.mpr hm]
      · rw [hp]
        simp [hheld hst, hd, ha]
      · simp [hp, hd]
    · refine (if_neg ?_).trans ((if_neg ?_).trans (if_neg ?_))
      · simp [hmine.mpr hm]
      · rw [hp]
        simp [hheld hst, hd, ha]
      · simpa [hp, hd] using fun h : some d = e => he h.symm
  · have hlen : decide (((s.litLanes n).take lanes.val).length < 4) = false := decide_eq_false (Nat.not_lt.mpr hlit)
    have hgo : ¬ ((p.st != .training && p.st != .retraining) || !p.authed || p.helloDigest.isNone ||
        decide (((s.litLanes n).take lanes.val).length < 4)) = true := by
      rw [hlen, Bool.or_false]
      simp [hheld hst, ha, hd]
    refine ⟨fun hst' => ?_, fun hst' => ?_⟩
    · change execLinkUp n lanes s = _
      simp only [execLinkUp, hp, if_neg hgo]
      simp only [hst', beq_self_eq_true, if_true, Bool.not_true, Bool.and_false, hport]
      rfl
    · have hfresh : (p.st == .training) = false := by simp [hst']
      change execLinkUp n lanes s = _
      simp only [execLinkUp, hp, if_neg hgo]
      simp only [hfresh, Bool.false_eq_true, if_false, Bool.not_false, Bool.and_true, hport]
      rfl
  · refine if_pos ?_
    rw [hp]
    simp only [Bool.or_eq_true, decide_eq_true_eq, Bool.not_eq_true', Option.isNone_iff_eq_none]
    rcases hno with h | h | h | h
    · refine .inl (.inl (.inl ?_))
      simpa [held] using h
    · exact .inl (.inl (.inr h))
    · exact .inl (.inr h)
    · exact .inr h
  · have hne : ¬ ((s.port n).st == .retraining) = true := by simp [hp, hst]
    have heq : (s.mismatch n 5).ports = (s.modPort n fun q => { q with st := .mismatch, cause := 5, lanes := 0, authed := false }).ports := by
      unfold State.mismatch
      rw [if_neg hne]
      exact State.count_ports _ 6 n 13 1
    rw [heq, State.modPort_port]
    exact ⟨rfl, rfl⟩

-- Flits, lanes and retrains (R333, R335, R337, R343)

section
variable {s : State} {n : Fin 4}

theorem State.retrain_port : (s.retrain n).ports[n] = { s.ports[n] with st := .retraining, helloDigest := none, fails := 0 } := by
  unfold State.retrain
  rw [State.count_ports, State.modPort_port]

/-- A lane that leaves service is none of those in service. -/
theorem getLsbD_and_not_lane (lanes : BitVec 8) (lane : Fin 8) : (lanes &&& ~~~(BitVec.ofNat 8 (2 ^ lane.val))).getLsbD lane = false := by
  rw [BitVec.getLsbD_and, BitVec.getLsbD_not, BitVec.getLsbD_ofNat, Nat.testBit_two_pow_self]
  simp

/-- What a good flit gives a port: its acknowledgement and credits. -/
def Port.heard (q : Port) (f : FlitIn) : Port := { q with
  replay := if f.ackValid then ackTo q.replay f.ackSeq else q.replay
  acked := if f.ackValid then (f.ackSeq + 1) % 4096 else q.acked
  credits := q.credits.setIfInBounds f.crTc.val (Nat.min (classBuffer[f.crTc]) ((q.credits[f.crTc.val]?.getD 0) + f.crCount)) }
/-- What a good flit in sequence gives beyond that. -/
def Port.taken (q : Port) (f : FlitIn) : Port := { q with
  rxSeq := (q.rxSeq + 1) % 4096, fails := 0, nakDue := false
  owed := if f.idle then q.owed else q.owed.setIfInBounds f.tc.val ((q.owed[f.tc.val]?.getD 0) + 1) }

theorem Port.heard_eq (q : Port) (f : FlitIn) : q.heard f = { q with
    replay := if f.ackValid then ackTo q.replay f.ackSeq else q.replay
    acked := if f.ackValid then (f.ackSeq + 1) % 4096 else q.acked
    credits := q.credits.set f.crTc (min (#v[256, 1280, 1280, 1280][f.crTc]) (q.credits[f.crTc] + f.crCount)) } := by
  have hget : q.credits[f.crTc.val]?.getD 0 = q.credits[f.crTc] := by simp
  unfold Port.heard
  rw [hget]
  simp [Vector.setIfInBounds, Vector.set, Array.setIfInBounds, classBuffer]

theorem Port.taken_eq (q : Port) (f : FlitIn) : q.taken f = { q with
    rxSeq := (q.rxSeq + 1) % 4096, fails := 0, nakDue := false
    owed := if f.idle then q.owed else q.owed.set f.tc (q.owed[f.tc] + 1) } := by
  have hget : q.owed[f.tc.val]?.getD 0 = q.owed[f.tc] := by simp
  unfold Port.taken
  rw [hget]
  simp [Vector.setIfInBounds, Vector.set, Array.setIfInBounds]

/-- A good flit on a link that is UP. -/
theorem exec_flitReceive_of {f : FlitIn} (hst : s.ports[n].st = .up) (hok : f.checkOk = true) : exec (.flitReceive n f) s =
    let u := s.modPort n fun q => q.heard f
    let v := if f.nak then u.count 6 n 8 ((u.port n).replay.length) else u
    if f.seq ≠ s.ports[n].rxSeq then .next v else .next ((v.modPort n fun q => q.taken f).count 6 n (4 + f.tc.val) 1) := by
  rw [← State.port_fin] at hst ⊢
  refine (if_neg (by simp [hst])).trans ((if_neg (by simp [hok])).trans rfl)

end

/-- Settles O54. -/
theorem flitsAreTakenInSequence : Obligations.FlitsAreTakenInSequence := by
  unfold Obligations.FlitsAreTakenInSequence
  intro s n p port
  have hp : s.port n = p := s.port_fin n
  have hport : ∀ f : Port → Port, s.modPort n f = port (f p) := s.modPort_fin n
  refine ⟨fun f hst hbad => ⟨fun hf => ?_, fun hf => ?_⟩, fun f hst hok => ?_, fun lane hst hlane => ?_, fun lane hno => ?_,
    fun hst => ⟨?_, State.retrain_port⟩, fun hst => ⟨?_, fun f => ?_⟩, fun hst => ?_, fun hst => ?_⟩
  · refine (if_neg (by simp [hp, hst])).trans ((if_pos (by simp [hbad])).trans (congrArg Host.Outcome.next ((if_neg ?_).trans (hport _))))
    rw [hp]
    omega
  · refine (if_neg (by simp [hp, hst])).trans ((if_pos (by simp [hbad])).trans (congrArg Host.Outcome.next ((if_pos ?_).trans ?_)))
    · rw [hp]
      omega
    · rw [hport]
  · let q : Port := { p with
      replay := if f.ackValid then ackTo p.replay f.ackSeq else p.replay
      acked := if f.ackValid then (f.ackSeq + 1) % 4096 else p.acked
      credits := p.credits.set f.crTc (min (#v[256, 1280, 1280, 1280][f.crTc]) (p.credits[f.crTc] + f.crCount)) }
    intro _
    have hq : s.modPort n (fun q => q.heard f) = port q := by rw [hport, Port.heard_eq]
    have hexec := exec_flitReceive_of (n := n) hst hok
    rw [hq] at hexec
    have hqport : (port q).ports[n] = q := by rw [← hq, State.modPort_port, Port.heard_eq]
    have hqn : ((port q).port n).replay = q.replay := by rw [State.port_fin, hqport]
    dsimp only at hexec
    rw [hqn] at hexec
    refine ⟨_, rfl, fun hseq => ?_, fun hseq => ?_⟩
    · refine hexec.trans ((if_neg (not_not_intro hseq)).trans (congrArg Host.Outcome.next (congrArg (fun u : State => u.count 6 n (4 + f.tc.val) 1) ?_)))
      have hkept : (if f.nak then (port q).count 6 n 8 q.replay.length else port q).ports = (port q).ports := by
        split
        · exact State.count_ports _ 6 n 8 q.replay.length
        · rfl
      have hports := (congrArg (fun v : Vector Port 4 => v[n]) hkept).trans hqport
      rw [State.modPort_fin, hports, Port.taken_eq]
    · exact hexec.trans (if_pos hseq)
  · have heq : (s.modPort n fun q => { q with lanes := q.lanes &&& ~~~(BitVec.ofNat 8 (2 ^ lane.val)) }).count 6 n 9 1 =
        (port { p with lanes := p.lanes &&& ~~~(BitVec.ofNat 8 (2 ^ lane.val)) }).count 6 n 9 1 := congrArg (fun u : State => u.count 6 n 9 1) (hport _)
    refine ⟨_, rfl, ?_, ?_⟩
    · rw [← heq, State.count_ports, State.modPort_port]
      exact getLsbD_and_not_lane _ lane
    · rw [← heq, ← State.port_fin]
      exact if_neg (by simpa [hp, hst] using hlane)
  · refine if_pos ?_
    rw [hp]
    rcases hno with h | h
    · simp [h]
    · simp only [h, Bool.not_false, Bool.or_true]
  · exact if_pos (by simp [hp, hst])
  · exact if_neg (by simp [hp, hst])
  · exact if_pos (by simp [hp, hst])
  · exact if_pos (by simp [hp, hst])
  · exact if_neg (by simp [hp, hst])

-- Packets that are sent and taken (R341, R342)

/-- A count changes no host memory. -/
theorem State.count_host (s : State) (fam inst idx n : Nat) : (s.count fam inst idx n).host = s.host := by
  unfold State.count
  split <;> rfl

/-- A port that has sent a packet. -/
def Port.sends (q : Port) (k : PktOut) : Port := { q with
  sent := k :: q.sent, txSeq := (q.txSeq + k.flits) % 4096, credits := q.credits.setIfInBounds k.tc ((q.credits[k.tc]?.getD 0) - k.flits)
  replay := (q.replay ++ (List.range k.flits).map fun i => ((q.txSeq + i) % 4096, k.tc)).drop ((q.replay.length + k.flits) - 2048) }

section
variable (s : State) (k : PktOut)

/-- A packet that is sent changes its port and is counted. -/
theorem State.sendPkt_eq (n : Nat) : s.sendPkt n k = (s.modPort n fun q => q.sends k).count 6 n k.tc k.flits := rfl

theorem State.sendPkt_kept (n : Nat) : (s.sendPkt n k).jobs = s.jobs ∧ (s.sendPkt n k).media = s.media ∧ (s.sendPkt n k).host = s.host ∧
    (s.sendPkt n k).embed = s.embed := by
  have h := (s.modPort n fun q => q.sends k).count_objects 6 n k.tc k.flits
  have hhost := (s.modPort n fun q => q.sends k).count_host 6 n k.tc k.flits
  exact ⟨congrArg Objects.jobs h, congrArg Objects.media h, hhost, congrArg Objects.embed h⟩

theorem State.sendPkt_port (n : Fin 4) : (s.sendPkt n k).ports[n] = s.ports[n].sends k := by
  rw [State.sendPkt_eq, State.count_ports, State.modPort_port]

theorem State.sendPkt_port_ne {n : Nat} {m : Fin 4} (h : n ≠ m.val) : (s.sendPkt n k).ports[m] = s.ports[m] := by
  rw [State.sendPkt_eq, State.count_ports, State.modPort_port_ne s h]

end

/-- `STATUS` on one link (R341). -/
def State.statusOn (body : Bytes) (s : State) (n : Nat) : State :=
  if (s.port n).st == .up then s.sendPkt n { type := 0x03, dst := (s.port n).ordinal, xfer := 0, payload := body } else s

section
variable (body : Bytes) (s : State)

theorem State.statusOn_kept (n : Nat) : (s.statusOn body n).jobs = s.jobs ∧ (s.statusOn body n).media = s.media := by
  unfold State.statusOn
  split
  · exact ⟨(s.sendPkt_kept _ n).1, (s.sendPkt_kept _ n).2.1⟩
  · exact ⟨rfl, rfl⟩

theorem State.foldl_statusOn_kept (l : List Nat) : (l.foldl (State.statusOn body) s).jobs = s.jobs ∧ (l.foldl (State.statusOn body) s).media = s.media := by
  induction l generalizing s with
  | nil => exact ⟨rfl, rfl⟩
  | cons n l ih =>
    obtain ⟨hjobs, hmedia⟩ := s.statusOn_kept body n
    exact ⟨(ih _).1.trans hjobs, (ih _).2.trans hmedia⟩

theorem State.foldl_statusOn_port_ne {m : Fin 4} {l : List Nat} (h : m.val ∉ l) : (l.foldl (State.statusOn body) s).ports[m] = s.ports[m] := by
  induction l generalizing s with
  | nil => rfl
  | cons n l ih =>
    rw [List.foldl_cons, ih _ (fun hm => h (List.mem_cons_of_mem n hm))]
    unfold State.statusOn
    split
    · exact s.sendPkt_port_ne _ fun hn => h (hn ▸ List.mem_cons_self)
    · rfl

/-- Each port that is UP sends `STATUS` once, and the others stay as they are. -/
theorem State.foldl_statusOn_port (m : Fin 4) : ((List.range 4).foldl (State.statusOn body) s).ports[m] =
    if s.ports[m].st = .up then s.ports[m].sends { type := 0x03, dst := s.ports[m].ordinal, xfer := 0, payload := body } else s.ports[m] := by
  obtain ⟨l, l', hl⟩ := List.append_of_mem (List.mem_range.mpr m.isLt)
  have hnodup := hl ▸ List.nodup_range (n := 4)
  obtain ⟨-, hafter, hapart⟩ := List.nodup_append.mp hnodup
  have hl1 : m.val ∉ l := fun h => hapart _ h _ List.mem_cons_self rfl
  have hl2 : m.val ∉ l' := (List.nodup_cons.mp hafter).1
  rw [hl, List.foldl_append, List.foldl_cons, State.foldl_statusOn_port_ne body _ hl2]
  have hbefore := s.foldl_statusOn_port_ne body hl1
  generalize l.foldl (State.statusOn body) s = u at hbefore
  rw [← hbefore]
  have hport : u.port m = u.ports[m] := u.port_fin m
  unfold State.statusOn
  rw [hport]
  by_cases hst : u.ports[m].st = .up
  · rw [if_pos hst, if_pos (beq_iff_eq.mpr hst)]
    exact u.sendPkt_port _ m
  · rw [if_neg hst, if_neg (mt beq_iff_eq.mp hst)]

end

section
variable {s : State} {n : Fin 4} {h : PktHdr}

/-- What a packet on a link that is UP does. -/
theorem State.onPacket_of (f : State → State) (hst : s.ports[n].st = .up) :
    s.onPacket n h f = if s.accepts n h then .next (f s) else .next (s.count 6 n 12 1) := by
  rw [← State.port_fin] at hst
  exact if_neg (by simp [hst])

theorem State.onPacket_of_down (f : State → State) (hst : s.ports[n].st ≠ .up) : s.onPacket n h f = .next s := by
  rw [← State.port_fin] at hst
  exact if_pos (by simp [hst])

end

/-- Settles O55: `STATUS` and `STEP_CLOSE` by the branches of R342, and the timer by its fold over the ports. -/
theorem statusMakesPeersPresent : Obligations.StatusMakesPeersPresent := by
  unfold Obligations.StatusMakesPeersPresent
  intro s n h p mine
  have hmine : s.accepts n h = true ↔ mine := State.accepts_iff h
  have hp : s.port n = p := s.port_fin n
  have hstatus : ∀ state power steps, exec (.statusPacket n h state power steps) s =
      s.onPacket n h fun s => s.modPort n fun q => { q with present := decide (state ≤ 1), hold := state == 1 } := fun _ _ _ => rfl
  refine ⟨fun state power steps hst hm => ?_, fun state power steps hst hm => ?_, fun state power steps hst => ?_, ?_,
    ⟨s.sendStatus, rfl, rfl, ?_, ?_, fun m => ?_⟩, ?_⟩
  · rw [hstatus, State.onPacket_of _ hst, if_pos (hmine.mpr hm), State.modPort_fin]
  · rw [hstatus, State.onPacket_of _ hst, if_neg (mt hmine.mp hm)]
  · rw [hstatus, State.onPacket_of_down _ hst]
  · exact congrArg Host.Outcome.next (s.modPort_fin n fun q => { q with present := false, hold := false })
  · exact (s.foldl_statusOn_kept _ _).1
  · exact (s.foldl_statusOn_kept _ _).2
  · have hport := s.foldl_statusOn_port (natLe 1 s.ownStatus ++ natLe 1 s.power.st ++ natLe 4 (s.pot s.servingPot).loop.count ++ zeros 10) m
    refine ⟨fun hst => hport.trans (if_neg hst), fun hst => ⟨_, congrArg Port.sent (hport.trans (if_pos hst)), rfl, rfl⟩⟩
  · intro l now
    have hclose : ∀ k recs, p.st = .up → mine → exec (.stepClose n h k recs) s =
        .next (if (s.stepPeers s.servingPot).contains p.ordinal && k != now then s else
          s.modPot s.servingPot fun q => { q with loop := { q.loop with
            peers := q.loop.peers.erase p.ordinal, closes := q.loop.closes ++ [(p.ordinal, k, recs)] } }) := by
      intro k recs hst hm
      change execStepClose n h k recs s = _
      rw [execStepClose, State.onPacket_of _ hst, if_pos (hmine.mpr hm), ← hp] <;> rfl
    refine ⟨fun k recs hst hm hk => ?_, fun k recs hst hm hpeer hk => ?_⟩
    · refine (hclose k recs hst hm).trans (congrArg Host.Outcome.next (if_neg ?_))
      rw [Bool.and_eq_true, List.contains_iff_mem, bne_iff_ne]
      rintro ⟨hpeer, hne⟩
      exact hk.elim (fun h => h hpeer) hne
    · refine (hclose k recs hst hm).trans (congrArg Host.Outcome.next (if_pos ?_))
      rw [Bool.and_eq_true, List.contains_iff_mem, bne_iff_ne]
      exact ⟨hpeer, hk⟩

-- Transfers (R344 to R350)

theorem finalStatus_iff (st : Nat) : finalStatus st = true ↔
    st ∈ [0x00, 0x01, 0x02, 0x10, 0x11, 0x12, 0x20, 0x21, 0x22, 0x30, 0x31, 0x40, 0x41, 0x50] :=
  List.contains_iff_mem

section
variable {s : State} {n : Fin 4} {h : PktHdr}

/-- A packet for this module on a link that is UP acts, unless it is one that the protocol does not give. -/
theorem State.onPacket_final (f : State → State) (hst : s.ports[n].st = .up) (hm : s.accepts n h = true) :
    s.onPacket n { h with reserved := h.reserved || !finalStatus h.status } f =
      if finalStatus h.status then .next (f s) else .next (s.count 6 n 12 1) := by
  rw [State.onPacket_of f hst]
  rw [State.accepts_iff] at hm
  obtain ⟨hres, hgroup, hdst, hsrc⟩ := hm
  have hiff : s.accepts n { h with reserved := h.reserved || !finalStatus h.status } = true ↔ finalStatus h.status = true := by
    rw [State.accepts_iff]
    simp [hres, hgroup, hdst, hsrc]
  simp only [hiff]

/-- Bytes that are placed change no port. -/
theorem State.placeBytes_choice_ports (s : State) (x : XferIn) (off : Nat) (b : Bytes) :
    (if x.desc.kind = 1 then s.placeBytes x off b else s).ports = s.ports := by
  unfold State.placeBytes
  split
  · split <;> rfl
  · rfl

/-- The receiver's side of a transfer is gone. -/
theorem State.doneXfer_kept (s : State) (n tag st : Nat) : (s.doneXfer n tag st).jobs = s.jobs ∧ (s.doneXfer n tag st).host = s.host ∧
    (s.doneXfer n tag st).embed = s.embed := by
  obtain ⟨hjobs, _, hhost, hembed⟩ := (s.dropIn n tag).sendPkt_kept
    { type := 0x08, dst := (s.port n).ordinal, xfer := tag, status := st, tags := (s.port n).inTags tag } n
  exact ⟨hjobs, hhost, hembed⟩

theorem State.doneXfer_port (tag st : Nat) : (s.doneXfer n tag st).ports[n] =
    Port.sends { s.ports[n] with inn := s.ports[n].inn.filter fun x => !(x.tag == tag && !x.standing) }
      { type := 0x08, dst := s.ports[n].ordinal, xfer := tag, status := st, tags := s.ports[n].inTags tag } := by
  unfold State.doneXfer
  rw [State.sendPkt_port, State.port_fin, State.dropIn, State.modPort_port]

end

/-- Settles O56. -/
theorem transfersRun : Obligations.TransfersRun := by
  unfold Obligations.TransfersRun
  intro s n h p hst hres hgroup hdst hsrc port ends
  have hp : s.port n = p := s.port_fin n
  have hport : ∀ f : Port → Port, s.modPort n f = port (f p) := s.modPort_fin n
  have hm : s.accepts n h = true := (State.accepts_iff h).mpr ⟨hres, hgroup, hdst, hsrc⟩
  have hacts : ∀ f : State → State, s.onPacket n h f = .next (f s) := fun f => (State.onPacket_of f hst).trans (if_pos hm)
  refine ⟨fun d hd => ?_, fun x hstand hx h1 hmax => ?_, fun hstand hx => ?_, fun x payload hstand hx hheld harg hlen hroom => ?_,
    fun x payload hstand hx hbad => ?_, fun hstand => ?_, fun x payload hstand hx harg hroom hlen => ?_, ⟨fun hend hstand => ?_, fun hend => ?_,
    fun hend => ⟨?_, ?_⟩⟩, fun x hx => ⟨_, rfl, fun st => ?_⟩, fun hx => ?_, fun x hx => ?_, fun x hx => ⟨_, rfl, ?_⟩⟩
  · have hexec : exec (.announce n h d) s = .next (match s.announceFail p.ordinal d with
      | some st => s.nakXfer n h.xfer st
      | none =>
        let x : XferIn := { tag := h.xfer, desc := d, jobId := h.jobId, layer := BitVec.ofNat 16 h.layer, oper := BitVec.ofNat 16 h.oper, tc := h.tc, withheld := d.kind == 1 }
        let u := s.modPort n fun q => { q with inn := q.inn ++ [x] }
        if d.kind = 1 then u.decideWrite n x else u.grantXfer n x) := by
      change execAnnounce n h d s = _
      rw [execAnnounce, if_neg (by simp [hd]), hacts, ← hp] <;> rfl
    refine ⟨fun st hf => ?_, fun hf => ?_⟩
    · rw [hexec, hf]
    · rw [hf] at hexec
      let x : XferIn := { tag := h.xfer, desc := d, jobId := h.jobId, layer := BitVec.ofNat 16 h.layer, oper := BitVec.ofNat 16 h.oper, tc := h.tc, withheld := d.kind == 1 }
      have hu : s.modPort n (fun q => { q with inn := q.inn ++ [x] }) = port { p with inn := p.inn ++ [x] } := hport _
      exact ⟨fun hk => hexec.trans (congrArg Host.Outcome.next ((if_pos hk).trans (congrArg (fun u : State => u.decideWrite n x) hu))),
        fun hk => hexec.trans (congrArg Host.Outcome.next ((if_neg hk).trans (congrArg (fun u : State => u.grantXfer n x) hu)))⟩
  · change execXferReady n h s = _
    rw [execXferReady, hacts]
    simp only [hstand, hp, hx, Bool.false_eq_true, if_false]
    rw [if_neg (by omega)]
  · change execXferReady n h s = _
    rw [execXferReady, hacts]
    simp only [hstand, hp, hx, Bool.false_eq_true, if_false]
  · intro y v u
    have hgo : ¬ (x.withheld || h.arg != x.got || decide (Nat.min x.granted x.desc.total < h.arg + payload.length) || decide (4096 < payload.length)) = true := by
      have hroom' : ¬ Nat.min x.granted x.desc.total < h.arg + payload.length := Nat.not_lt.mpr (harg ▸ hroom)
      simp only [Bool.or_eq_true, decide_eq_true_eq, bne_iff_ne, hheld, harg]
      rintro (((h | h) | h) | h)
      · exact nomatch h
      · exact h rfl
      · exact hroom' (harg ▸ h)
      · exact Nat.not_lt.mpr hlen h
    have hv : v.ports = s.ports := State.placeBytes_choice_ports s x h.arg payload
    have hu : v.modPort n (fun q => { q with inn := q.inn.map fun z => if z.tag == x.tag && !z.standing then y else z }) = u := by
      rw [State.modPort_fin, hv]
    have hexec : exec (.dataPacket n h payload) s =
        .next (if x.desc.total ≤ y.got then u.takeXfer n y else if x.granted ≤ y.got then u.grantXfer n y else u) := by
      rw [← hu]
      change execDataPacket n h payload s = _
      rw [execDataPacket, hacts]
      simp only [hstand, hx, Bool.false_eq_true, if_false, if_neg hgo]
      rfl
    refine ⟨fun htot => hexec.trans (congrArg Host.Outcome.next (if_pos (Nat.le_of_eq htot))), fun htot hg => ?_, fun htot hg => ?_⟩
    · exact hexec.trans (congrArg Host.Outcome.next ((if_neg (Nat.not_le.mpr htot)).trans (if_pos (Nat.le_of_eq hg))))
    · exact hexec.trans (congrArg Host.Outcome.next ((if_neg (Nat.not_le.mpr htot)).trans (if_neg (Nat.not_le.mpr hg))))
  · change execDataPacket n h payload s = _
    rw [execDataPacket, hacts]
    simp only [hstand, hx, Bool.false_eq_true, if_false]
    refine congrArg Host.Outcome.next (if_pos ?_)
    simp only [Bool.or_eq_true, decide_eq_true_eq, bne_iff_ne]
    rcases hbad with h | h | h | h
    · exact .inl (.inl (.inl h))
    · exact .inl (.inl (.inr h))
    · exact .inl (.inr h)
    · exact .inr h
  · change execXferReady n h s = _
    rw [execXferReady, hacts]
    simp only [hstand, if_true]
    rw [hport]
  · have hx' : (s.port n).inn.find? (fun x => x.tag == h.xfer && x.standing) = some x := by rw [hp, hx]
    have hgo : ¬ (h.arg != x.got || decide (x.granted < h.arg + payload.length) || decide (4096 < payload.length)) = true := by
      simp [harg, Nat.not_lt.mpr hlen, harg ▸ Nat.not_lt.mpr hroom]
    have hexec : exec (.dataPacket n h payload) s = .next (
        let y := { x with got := x.got + payload.length, data := x.data ++ payload }
        if h.last then s.takeRecords n x y else s.modPort n fun q => { q with inn := q.inn.map fun z => if z == x then y else z }) := by
      change execDataPacket n h payload s = _
      rw [execDataPacket, hacts]
      simp only [hstand, if_true, hx', if_neg hgo]
    refine ⟨fun hlast => hexec.trans (congrArg Host.Outcome.next (if_pos hlast)), fun hlast => hexec.trans (congrArg Host.Outcome.next ?_)⟩
    refine (if_neg (by simp [hlast])).trans ((hport _).trans ?_)
    simp only [beq_iff_eq]
  · change execXferDone n h s = _
    rw [execXferDone, State.onPacket_final _ hst hm, if_pos ((finalStatus_iff _).mpr hend), if_neg (by simp [hstand])]
  · change execPeerNak n h s = _
    rw [execPeerNak, State.onPacket_final _ hst hm, if_pos ((finalStatus_iff _).mpr hend)]
  · change execXferDone n h s = _
    rw [execXferDone, State.onPacket_final _ hst hm, if_neg (mt (finalStatus_iff _).mp hend)]
  · change execPeerNak n h s = _
    rw [execPeerNak, State.onPacket_final _ hst hm, if_neg (mt (finalStatus_iff _).mp hend)]
  · unfold State.closeXfer
    rw [hp]
    simp only [hx]
    rw [hport] <;> rfl
  · change execCancel n h s = _
    rw [execCancel, hacts]
    simp only [hx]
  · let mine := fun (a : Arrive) => a.link == some (n.val, x.tag)
    let v := s.modEmbed fun e => { e with
      arrivals := e.arrivals.filter fun a => !mine a, buffer := e.buffer.map fun b => b.filter fun a => !mine a }
    let st := if Config.pick s.free 0 2 = 0 then 0x31 else 0x41
    obtain ⟨hjobs, hhost, hembed⟩ := v.doneXfer_kept n x.tag st
    have hdone : (v.doneXfer n x.tag st).ports[n] = _ := v.doneXfer_port x.tag st
    refine ⟨v.doneXfer n x.tag st, ?_, ?_, ?_, hhost, hjobs, ?_⟩
    · change execCancel n h s = _
      rw [execCancel, hacts]
      simp only [hx]
      rfl
    · rw [hdone]
      rintro y hy ⟨htag, hstand⟩
      have hkept := (List.mem_filter.mp hy).2
      simp [htag, hstand] at hkept
    · rw [hembed]
      intro a ha hlink
      have hkept := (List.mem_filter.mp ha).2
      simp [mine, hlink] at hkept
    · rw [hdone]
      refine ⟨_, rfl, rfl, rfl, ?_⟩
      change st = 0x31 ∨ st = 0x41
      unfold st
      split
      · exact .inl rfl
      · exact .inr rfl
  · change execGrantWaitExpiry n h.xfer s = _
    unfold execGrantWaitExpiry
    rw [hp]
    simp only [hx]
    rw [hport]

end Sys2Proof.Machine
end

section
/-! Proofs about registers and the sideband (chapter 19), trace (chapter 18) and the probe (chapter 16, R381). -/

namespace Sys2Proof.Machine

-- Accesses of registers (R421)

theorem regWrite_of_other {off size : Nat} (v : BitVec 64) (h8 : ¬ (size = 8 ∧ off % 8 = 0)) (h4 : ¬ (size = 4 ∧ off % 4 = 0)) :
    regWrite off size v = none := by
  have hlow : ¬ (size = 4 ∧ off % 8 = 0) := fun h => h4 ⟨h.1, by omega⟩
  exact (if_neg h8).trans ((if_neg hlow).trans (if_neg h4))

theorem regWrite_of_word {off : Nat} (v : BitVec 64) (h : off % 8 = 0) :
    regWrite off 8 v = some { val := v, mask := BitVec.allOnes 64 } := if_pos ⟨rfl, h⟩

theorem regWrite_of_high {off : Nat} (v : BitVec 64) (h : off % 8 = 4) :
    regWrite off 4 v = some { val := v <<< 32, mask := 0xFFFFFFFF00000000 } := by
  refine (if_neg (by omega)).trans ((if_neg (by omega)).trans (if_pos ⟨rfl, by omega⟩))

-- Snapshots (R409, R410)

/-- SNAPSHOT_DONE of a function whose snapshot runs. -/
theorem exec_snapshotDone_of_busy {fn : PcieFn} {s : State} (hbusy : s.host.snaps[snapSlot fn].busy = true) (a b : BitVec 64) :
    exec (.snapshotDone fn a b) s =
      let x := s.host.snaps[snapSlot fn]
      .next ((s.hostWrite x.addr.toNat (s.snapshot (snapSlot fn) x a b)).used.setSnap (snapSlot fn) { x with busy := false }) := by
  change execSnapshotDone fn a b s = _
  rw [← snaps_getElem?_getD] at hbusy ⊢
  dsimp only
  rw [← State.modHost_setIfInBounds]
  have hgo : ¬ (!(s.host.snaps[(snapSlot fn).val]?.getD {}).busy) = true := by rw [hbusy]; exact Bool.false_ne_true
  cases fn <;> exact if_neg hgo

theorem State.used_setSnap (u : State) (k : Fin 9) (x : Snap) : (u.used.setSnap k x).host.snaps[k] = x ∧ (u.used.setSnap k x).host.mem = u.host.mem ∧
    (u.used.setSnap k x).free = u.free + 1 ∧ (u.used.setSnap k x).jobs = u.jobs ∧ (u.used.setSnap k x).media = u.media :=
  ⟨State.setSnap_snaps_self _ _ _, rfl, rfl, rfl, rfl⟩

theorem exec_snapshotDone_spec {fn : PcieFn} {s : State} (hbusy : s.host.snaps[snapSlot fn].busy = true) (a b : BitVec 64) :
    let x := s.host.snaps[snapSlot fn]
    ∃ u t : State, u = s.hostWrite x.addr.toNat (s.snapshot (snapSlot fn) x a b) ∧ exec (.snapshotDone fn a b) s = .next t ∧
      t.host.snaps[snapSlot fn] = { x with busy := false } ∧ t.host.mem = u.host.mem ∧ t.free = u.free + 1 ∧ t.jobs = u.jobs ∧ t.media = u.media := by
  intro x
  let u := s.hostWrite x.addr.toNat (s.snapshot (snapSlot fn) x a b)
  have hexec : exec (.snapshotDone fn a b) s = .next (u.used.setSnap (snapSlot fn) { x with busy := false }) := exec_snapshotDone_of_busy hbusy a b
  obtain ⟨hsnaps, hmem, hfree, hjobs, hmedia⟩ := u.used_setSnap (snapSlot fn) { x with busy := false }
  exact ⟨u, _, rfl, hexec, hsnaps, hmem, hfree, hjobs, hmedia⟩

/-- SNAPSHOT_START of a function that is there and idle, with room for a header. -/
theorem exec_snapshotStart_of_long {fn : PcieFn} {s : State} (hup : s.boot.up = true) (hthere : (snapSlot fn).val ≤ s.host.numVfs)
    (hlen : 64 ≤ s.host.snaps[snapSlot fn].len.toNat) : exec (.snapshotStart fn) s = .next { s with host := { s.host with
      snaps := s.host.snaps.set (snapSlot fn) { s.host.snaps[snapSlot fn] with busy := true } } } := by
  have hstart : s.host.snaps[snapSlot fn].start = { s.host.snaps[snapSlot fn] with busy := true } := by
    rw [Snap.start, decide_eq_true hlen, Bool.or_true]
  rw [exec_snapshotStart, if_neg (by simpa [hup] using hthere), hstart]
  rfl

/-- A number that is shifted in place, as a word. -/
theorem natCast_shiftLeft (v : Nat) : (v : BitVec 64) <<< 32 = ((v <<< 32 : Nat) : BitVec 64) := by
  apply BitVec.eq_of_toNat_eq
  rw [BitVec.toNat_shiftLeft, BitVec.natCast_eq_ofNat, BitVec.natCast_eq_ofNat, BitVec.toNat_ofNat, BitVec.toNat_ofNat, Nat.shiftLeft_eq,
    Nat.shiftLeft_eq, Nat.mod_mul_mod]

-- The sideband (R424, R436)

theorem sidebandReach_iff (off : Nat) : sidebandReach off = true ↔ off < 0x80 ∨ (0x100 ≤ off ∧ off < 0x180) := by
  simp [sidebandReach]

/-- Settles O58. -/
theorem registersAndSidebandAct : Obligations.RegistersAndSidebandAct := by
  unfold Obligations.RegistersAndSidebandAct
  intro s fn
  refine ⟨fun hup hthere hlen => ?_, fun hbusy a b => ?_, fun off size v h8 h4 => ?_, fun hup off v h8 => ?_, fun hup off v h4 => ?_,
    fun hside off v hreach h8 => ⟨?_, fun hup => ?_, fun hup => ?_⟩, fun hside off v hreach => ⟨?_, ?_⟩, fun hside off v => ⟨?_, ?_⟩⟩
  · exact exec_snapshotStart_of_long hup hthere hlen
  · exact exec_snapshotDone_spec hbusy a b
  · exact exec_registerWrite_of_none s (regWrite_of_other v h8 h4)
  · have hoff : off / 8 * 8 = off := by omega
    rw [exec_registerWrite_of_some s (regWrite_of_word v h8), if_pos hup, hoff]
    rfl
  · have hoff : off / 8 * 8 = off - 4 := by omega
    rw [exec_registerWrite_of_some s (regWrite_of_high v h4), if_pos hup, hoff, natCast_shiftLeft]
    rfl
  · refine (if_neg (by simp [hside])).trans ((if_neg (by simp [(sidebandReach_iff off).mpr hreach])).trans ?_)
    rw [if_pos h8]
    rfl
  · change execSidebandWrite off v s = _
    refine (if_neg (by simp [hside])).trans ((if_neg (by simp [(sidebandReach_iff off).mpr hreach])).trans ?_)
    simp only [regWrite_of_word v h8]
    exact congrArg Host.Outcome.next (if_pos hup)
  · change execSidebandWrite off v s = _
    refine (if_neg (by simp [hside])).trans ((if_neg (by simp [(sidebandReach_iff off).mpr hreach])).trans ?_)
    simp only [regWrite_of_word v h8]
    exact congrArg Host.Outcome.next (if_neg (by simpa [State.answerSideband] using hup))
  · exact (if_neg (by simp [hside])).trans (if_pos (by simpa using mt (sidebandReach_iff off).mp hreach))
  · exact (if_neg (by simp [hside])).trans (if_pos (by simpa using mt (sidebandReach_iff off).mp hreach))
  · exact if_pos (by simp [hside])
  · exact if_pos (by simp [hside])

-- Trace (R415 to R418)

/-- A fold keeps what every turn keeps. -/
theorem foldl_keeps {α β : Type} (proj : State → β) {f : State → α → State} (h : ∀ s x, proj (f s x) = proj s) (l : List α) (s : State) :
    proj (l.foldl f s) = proj s := by
  induction l generalizing s with
  | nil => rfl
  | cons x l ih => rw [List.foldl_cons, ih, h]

/-- A fold whose every turn changes nothing changes nothing. -/
theorem foldl_fixed {α : Type} {f : State → α → State} {s : State} (h : ∀ x, f s x = s) (l : List α) : l.foldl f s = s := by
  induction l with
  | nil => rfl
  | cons x l ih => rw [List.foldl_cons, h, ih]

theorem State.count_marker (s : State) (fam inst idx n : Nat) : (s.count fam inst idx n).obs.marker = s.obs.marker := by
  unfold State.count
  split <;> rfl

/-- Records that are put into a buffer leave the marker. -/
theorem foldl_push_marker (l : List TraceRec) (a : Obs × Nat) :
    (l.foldl (fun (a : Obs × Nat) r => ((a.1.push r).1, if (a.1.push r).2 then a.2 else a.2 + 1)) a).1.marker = a.1.marker := by
  induction l generalizing a with
  | nil => rfl
  | cons r l ih =>
    rw [List.foldl_cons, ih]
    unfold Obs.push
    split <;> rfl

section
variable (s : State) (time : Option (BitVec 32)) (source kind aux : Nat) (value : BitVec 64)

/-- A source that is not enabled, or any while trace does not run, emits nothing. -/
theorem State.traceAt_of_off {s : State} {source : Nat} (h : s.obs.tracing = false ∨ s.obs.mask.getLsbD source = false) :
    s.traceAt time source kind aux value = s := by
  refine if_pos ?_
  rcases h with h | h
  · rw [h]; rfl
  · rw [h, Bool.not_false, Bool.or_true]

/-- An enabled source that has lost nothing and has room puts its record at the end of the buffer, and nothing else changes of trace. -/
theorem State.traceAt_of_on (t : BitVec 32) (hrun : s.obs.tracing = true) (hmask : s.obs.mask.getLsbD source = true) (hlost : s.obs.dropped = [])
    (hroom : (s.obs.buffer.filter fun x => x.source == source).length < 256) :
    (s.traceAt (some t) source kind aux value).obs = { s.obs with
      buffer := s.obs.buffer ++ [{ kind := kind, source := source, aux := aux, time := t, value := value }] } := by
  unfold State.traceAt
  rw [if_neg (by simp [hrun, hmask])]
  simp [hlost, lookupD, Obs.push, hroom, State.count, State.used]

/-- What trace records never change. -/
theorem State.traceAt_kept : (s.traceAt time source kind aux value).host = s.host ∧ (s.traceAt time source kind aux value).obs.marker = s.obs.marker := by
  unfold State.traceAt
  split
  · exact ⟨rfl, rfl⟩
  · refine ⟨State.count_host _ _ _ _ _, ?_⟩
    rw [State.count_marker]
    refine (foldl_push_marker _ _).trans ?_
    dsimp only
    split <;> rfl

end

section
variable (s : State) (source : Nat) (counter pc : BitVec 64)

theorem State.sync_host : (s.sync source counter pc).host = s.host := by
  unfold State.sync
  split
  · rw [(State.traceAt_kept _ _ _ _ _ _).1, (State.traceAt_kept _ _ _ _ _ _).1]
  · exact (State.traceAt_kept _ _ _ _ _ _).1

theorem State.sync_objects : (s.sync source counter pc).objects = s.objects := by
  unfold State.sync
  rw [objects_ite, State.traceAt_objects, State.traceAt_objects, ite_self]

/-- A `SYNC` of a source that is not enabled emits nothing. -/
theorem State.sync_of_off {s : State} {source : Nat} (h : s.obs.mask.getLsbD source = false) : s.sync source counter pc = s := by
  unfold State.sync
  rw [State.traceAt_of_off _ _ _ _ (.inr h)]
  dsimp only
  rw [State.traceAt_of_off _ _ _ _ (.inr h), ite_self]

end

/-- The state in which trace has started and the port has told so. -/
def State.traceStart (s : State) (mask : BitVec 67) (p : Nat) (g : Bool) : State :=
  (s.used.modObs fun o => { o with tracing := true, mask := mask, period := p, groupEn := g }).portRecord 1

theorem State.traceStart_objects (s : State) (mask : BitVec 67) (p : Nat) (g : Bool) : (s.traceStart mask p g).objects = s.objects := rfl
theorem State.traceStart_host (s : State) (mask : BitVec 67) (p : Nat) (g : Bool) : (s.traceStart mask p g).host = s.host := rfl

/-- TRACE_CONTROL starts trace: what is set, and every source's `SYNC`. -/
theorem exec_traceControl_start {s : State} (ha : s.traceAllowed = true) (mask : BitVec 67) (period : Nat) (g : Bool) :
    ∃ p, (1 ≤ period → period ≤ 1000 → p = period) ∧ exec (.traceControl true mask period g) s =
      .next ((List.range 66).foldl (fun s n => s.sync n (s.clock 1) (s.clock 2)) (s.traceStart mask p g)) := by
  refine ⟨if 1 ≤ period ∧ period ≤ 1000 then period else 1 + Config.pick s.free 0 1000, fun hlo hhi => if_pos ⟨hlo, hhi⟩, ?_⟩
  exact (if_neg (by simp [ha])).trans (if_neg (by simp))

/-- The `MARKER` records of a pulse (R419). -/
def State.markers (s : State) (counters : List (BitVec 64)) : State :=
  domains.zipIdx.foldl (fun t d =>
    t.traceAt (some (s.obs.marker.truncate 32)) 0x41 0x08 d.1 (counters.getD d.2 (Config.freeWord t.free (100 + d.2)))) s

theorem State.markers_objects (s : State) (counters : List (BitVec 64)) : (s.markers counters).objects = s.objects :=
  objects_foldl (fun t _ => t.traceAt_objects _ _ _ _ _) _ s

theorem State.markers_of_off {s : State} (counters : List (BitVec 64)) (h : s.obs.tracing = false ∨ s.obs.mask.getLsbD 0x41 = false) :
    s.markers counters = s :=
  foldl_fixed (fun _ => State.traceAt_of_off _ _ _ _ h) _

/-- Settles O59. -/
theorem traceRuns : Obligations.TraceRuns := by
  unfold Obligations.TraceRuns
  intro s
  refine ⟨fun ha hrun mask period g => ?_, fun ha period g hlo hhi => ?_, fun mask period g ha => ?_, fun n c p hn => ?_,
    fun n c p hn hrun hmask hlost hroom => ?_, fun hside l => ?_, fun ha => ?_, fun ha => ⟨?_, fun on mask period g => ?_⟩⟩
  · refine ⟨s.stopTrace 2 0 false, (if_neg (by simp [ha])).trans (if_pos rfl), ?_⟩
    unfold State.stopTrace
    rw [if_neg (by simp [hrun])]
    exact ⟨rfl, _, rfl, rfl, rfl, rfl⟩
  · obtain ⟨p, hp, hexec⟩ := exec_traceControl_start ha 0 period g
    obtain rfl := hp hlo hhi
    rw [foldl_fixed (fun n => State.sync_of_off _ _ (BitVec.getLsbD_zero))] at hexec
    exact ⟨_, hexec, rfl, rfl, rfl, rfl, _, rfl, rfl, rfl, rfl⟩
  · obtain ⟨p, -, hexec⟩ := exec_traceControl_start ha mask period g
    have hobj := (foldl_keeps State.objects (f := fun s n => s.sync n (s.clock 1) (s.clock 2)) (fun s n => s.sync_objects n _ _) (List.range 66)
      (s.traceStart mask p g)).trans (s.traceStart_objects mask p g)
    have hhost := (foldl_keeps State.host (f := fun s n => s.sync n (s.clock 1) (s.clock 2)) (fun s n => s.sync_host n _ _) (List.range 66)
      (s.traceStart mask p g)).trans (s.traceStart_host mask p g)
    generalize (List.range 66).foldl (fun s n => s.sync n (s.clock 1) (s.clock 2)) (s.traceStart mask p g) = t at hexec hobj hhost
    exact ⟨t, hexec, congrArg Objects.jobs hobj, hhost, congrArg Objects.media hobj, congrArg Objects.cores hobj⟩
  · exact congrArg Host.Outcome.next (if_pos hn)
  · let r : TraceRec := { kind := 1, source := n.val, aux := s.syncAux n.val, time := c.truncate 32, value := c }
    let q : TraceRec := { kind := 2, source := n.val, aux := 3, time := c.truncate 32, value := p }
    let u := s.traceAt (some (c.truncate 32)) n.val 0x01 (s.syncAux n.val) c
    have hfirst : u.obs = { s.obs with buffer := s.obs.buffer ++ [r] } := State.traceAt_of_on s _ _ _ _ _ hrun hmask hlost (by omega)
    have hsecond : (u.traceAt (some (c.truncate 32)) n.val 0x02 3 p).obs = { u.obs with buffer := u.obs.buffer ++ [q] } := by
      refine State.traceAt_of_on u _ _ _ _ _ ?_ ?_ ?_ ?_
      all_goals rw [hfirst]
      · exact hrun
      · exact hmask
      · exact hlost
      · rw [List.filter_append, List.length_append]
        have : ([r].filter fun x => x.source == n.val).length ≤ 1 := List.length_filter_le _ _
        omega
    refine ⟨r, q, ?_, rfl, rfl, rfl, rfl, rfl, rfl⟩
    have hsync : s.sync n.val c p = u.traceAt (some (c.truncate 32)) n.val 0x02 3 p := if_pos hn
    rw [hsync, hsecond, hfirst]
    exact List.append_assoc _ _ _
  · have hobj := s.markers_objects l
    refine ⟨(s.markers l).used.modObs fun o => { o with marker := s.obs.marker + 1 }, if_neg (by simp [hside]), rfl, congrArg Objects.jobs hobj,
      fun hoff => ?_⟩
    have hsame := State.markers_of_off l hoff
    change (s.markers l).obs.buffer = s.obs.buffer
    rw [hsame]
  · exact if_neg (by simp [ha])
  · exact if_pos (by simp [ha])
  · exact if_pos (by simp [ha])

-- The probe (R381)

/-- The bit of one control core. -/
theorem getLsbD_ccBit (c d : Fin 16) : (BitVec.ofNat 16 (2 ^ c.val)).getLsbD d = decide (c = d) := by
  rw [BitVec.getLsbD_ofNat, Nat.testBit_two_pow, decide_eq_true d.isLt, Bool.true_and]
  exact decide_eq_decide.mpr Fin.ext_iff.symm

theorem inTier_core (n : Fin 52) (a k : Nat) : inTier (.core n) a k = decide (a + k ≤ 20 * 2 ^ 20) := rfl

section
variable {s : State} {n : Fin 52} {c : Fin 48} (hmap : s.mappedTo n.val = some c.val) (a : Nat)
include hmap

/-- The probe reads the store of the logical core that a physical core serves. -/
theorem State.probeByte_core : s.probeByte (.core n) a = Memory.read s.cores[c].store a := by
  have hcore : s.probedCore (.core n) = some c.val := hmap
  unfold State.probeByte
  rw [hcore, ← State.core_fin]

/-- The probe writes the store of the logical core that a physical core serves. -/
theorem State.probeWrite_core (d : Bytes) : s.probeWrite (.core n) a d =
    { s.count 1 c 5 (partialWords a d.length) with cores := s.cores.set c { s.cores[c] with
      store := Memory.writeN s.cores[c].store a d
      poison := s.cores[c].poison.filter fun r => !(decide (a ≤ r.1) && decide (r.1 + r.2.1 ≤ a + d.length)) } } := by
  have hcore : s.probedCore (.core n) = some c.val := hmap
  have hcores : (s.count 1 c 5 (partialWords a d.length)).cores = s.cores := congrArg Objects.cores (s.count_objects 1 c 5 (partialWords a d.length))
  unfold State.probeWrite
  rw [hcore]
  dsimp only
  rw [State.modCore_fin, hcores]

end

/-- Settles O60. -/
theorem probeAccessFollowsTheDebugLevel : Obligations.ProbeAccessFollowsTheDebugLevel := by
  unfold Obligations.ProbeAccessFollowsTheDebugLevel
  intro s hside read
  have hup : ¬ (!s.sidebandUp) = true := by simp [hside]
  have hlevel : s.sec.debug ≠ .closed → (s.sec.debug == .opened || s.sec.debug == .service) = true := by
    cases s.sec.debug with
    | closed => exact fun h => absurd rfl h
    | service => exact fun _ => rfl
    | opened => exact fun _ => rfl
  refine ⟨fun hd a => ?_, fun a ha => ?_, fun hd f i k => ?_, fun hd off hoff h8 => ?_, fun hd t a n d c => ⟨?_, ?_, ?_, ?_⟩,
    fun hd => ⟨fun c => ?_, fun c => ?_, fun n c a d hmap hlen => ?_, fun n a k hlen => ?_, fun n a k d hlen => ⟨?_, fun hdl => ?_⟩⟩⟩
  · have hne : ¬ (s.sec.debug == .opened) = true := by simp [hd]
    cases a with
    | idcode | bypass | sample | extest | stepCc => exact if_neg hup
    | halt | resume => exact (if_neg hup).trans (congrArg Host.Outcome.next (if_neg hne))
    | readMem | writeMem => exact (if_neg hup).trans (if_pos (by simp [hd]))
    | readCounter => exact (if_neg hup).trans (if_neg (by simp [hd]))
    | readReg => exact (if_neg hup).trans (if_neg (by simp [hd]))
    | watch => exact (if_neg hup).trans (if_pos (by simp [hd]))
    | writeReg off v =>
      change execJtagAccess (.writeReg off v) s = _
      rw [execJtagAccess, if_neg hup]
      cases regWrite off 8 v with
      | none => rfl
      | some w => exact if_pos (by simp [hd])
  · obtain rfl | rfl | rfl | rfl | ⟨c, rfl⟩ := ha <;> exact if_neg hup
  · exact (if_neg hup).trans (if_pos (hlevel hd))
  · refine (if_neg hup).trans ((if_pos ?_).trans ?_)
    · have hstatus : statusOffset off = true := by simp [statusOffset, hoff]
      rw [hstatus, Bool.and_true]
      exact hlevel hd
    · rw [if_pos h8]
      rfl
  · exact (if_neg hup).trans (if_pos (by simp [hd]))
  · exact (if_neg hup).trans (if_pos (by simp [hd]))
  · exact (if_neg hup).trans (congrArg Host.Outcome.next (if_neg (by simp [hd])))
  · exact (if_neg hup).trans (congrArg Host.Outcome.next (if_neg (by simp [hd])))
  · refine ⟨_, (if_neg hup).trans (congrArg Host.Outcome.next (if_pos (by simp [hd]))), ?_, rfl, fun d hdc => ?_⟩
    · change (s.power.halted ||| BitVec.ofNat 16 (2 ^ c.val)).getLsbD c = true
      rw [BitVec.getLsbD_or, getLsbD_ccBit, decide_eq_true rfl, Bool.or_true]
    · change (s.power.halted ||| BitVec.ofNat 16 (2 ^ c.val)).getLsbD d = _
      rw [BitVec.getLsbD_or, getLsbD_ccBit, decide_eq_false (Ne.symm hdc), Bool.or_false]
  · refine ⟨_, (if_neg hup).trans (congrArg Host.Outcome.next (if_pos (by simp [hd]))), ?_, rfl, fun d hdc => ?_⟩
    · change (s.power.halted &&& ~~~(BitVec.ofNat 16 (2 ^ c.val))).getLsbD c = false
      rw [BitVec.getLsbD_and, BitVec.getLsbD_not, getLsbD_ccBit, decide_eq_true rfl, Bool.not_true, Bool.and_false, Bool.and_false]
    · change (s.power.halted &&& ~~~(BitVec.ofNat 16 (2 ^ c.val))).getLsbD d = _
      rw [BitVec.getLsbD_and, BitVec.getLsbD_not, getLsbD_ccBit, decide_eq_false (Ne.symm hdc), decide_eq_true d.isLt, Bool.not_false, Bool.and_true,
        Bool.and_true]
  · refine ⟨_, rfl, (if_neg hup).trans ((if_neg (by simp [hd])).trans ((if_neg ?_).trans (congrArg Host.Outcome.next ?_)))⟩
    · rw [inTier_core, decide_eq_true hlen]
      exact Bool.false_ne_true
    · exact State.probeWrite_core hmap a d
  · refine ⟨(List.range k).map fun i => s.probeByte (.core n) (a + i), by simp, (if_neg hup).trans ((if_neg (by simp [hd])).trans ((if_neg ?_).trans rfl)),
      fun c hmap i hi => ?_⟩
    · rw [inTier_core, decide_eq_true hlen]
      exact Bool.false_ne_true
    · rw [List.getElem?_map, List.getElem?_range hi]
      exact congrArg some (State.probeByte_core hmap (a + i))
  · refine (if_neg hup).trans ((if_neg (by simp [hd])).trans (if_pos ?_))
    rw [inTier_core, decide_eq_false (Nat.not_le.mpr hlen)]
    rfl
  · refine (if_neg hup).trans ((if_neg (by simp [hd])).trans (if_pos ?_))
    rw [inTier_core, hdl, decide_eq_false (Nat.not_le.mpr hlen)]
    rfl

end Sys2Proof.Machine
end

section
/-! Proofs about the storage function (chapter 12), firmware (chapter 17), and failures, retrains and scrub reads (chapter 15). -/

namespace Sys2Proof.Machine

-- Failures and scrub reads

/-- A scrub read of a word without errors is counted, and clears what was suspected of it. -/
theorem State.scrubWord_clean (s : State) (t : MemTier) (a : Nat) (retry : Bool) : s.scrubWord t a [] retry =
    (s.count 4 (tierCodes t).1 4 1).modTiers fun m => { m with suspects := m.suspects.filter fun e => !(e.1 == t && e.2.1 == a) } := by
  cases t <;> rfl

/-- Settles O14. -/
theorem linkRetrainFailureAndScrub : Obligations.LinkRetrainFailureAndScrub := by
  unfold Obligations.LinkRetrainFailureAndScrub
  intro s
  refine ⟨fun h => ?_, rfl, fun n ho hl hf => ?_, fun part ho hl hf hpart => ?_, fun hready => ⟨fun tier a errs retry => ?_, fun tier a retry => ?_,
    fun hp b g soft heavy bad => ?_⟩⟩
  · change execPcieRetrain false s = _
    rw [execPcieRetrain, if_pos (by rfl), if_neg (by simp [h])]
    rfl
  · exact if_neg (by simp [ho, hl, hf])
  · have hgo : ¬ (s.boot.phase = .off ∨ s.boot.phase = .lost ∨ s.boot.phase = .failed) := by simp [ho, hl, hf]
    let u := if part = .pcie then s else s.jobs.foldl (fun s j => s.abortJob j.key 0x50) s
    refine ⟨u.haltWork.dropLinks.modBoot fun b => { b with phase := .failed, failedPart := some part, hold := none }, ?_, rfl, rfl, rfl⟩
    refine (if_neg hgo).trans ?_
    cases part with
    | opticalEngine n => exact absurd rfl (hpart n)
    | _ => rfl
  · exact (if_neg (by simp [hready])).trans (if_neg (by simp [hready]))
  · have htiers := congrArg Objects.tiers (s.count_objects 4 (tierCodes tier).1 4 1)
    rw [State.scrubWord_clean]
    exact congrArg (fun t : Tiers => ({ s.count 4 (tierCodes tier).1 4 1 with
      tiers := { t with suspects := t.suspects.filter fun e => !(e.1 == tier && e.2.1 == a) } } : State)) htiers
  · exact (if_neg (by simp [hready])).trans ((if_neg (by simp [hready])).trans (if_neg (Nat.not_le.mpr hp)))

-- Commands that PF0 fetches (R276)

theorem State.nvRun_of {s : State} (h : s.nvFetches = true) (f : State → State) : s.nvRun f = f s := if_pos h

/-- A namespace that is there is among those that its number names. -/
theorem State.mem_nsNamed {s : State} {nsid : Nat} {n : Namespace} (hne : nsid ≠ 0xFFFFFFFF) (hn : s.ns? nsid = some n) : nsid ∈ s.nsNamed nsid := by
  unfold State.nsNamed
  rw [if_neg hne]
  have hid : n.nsid = nsid := by simpa using List.find?_some hn
  exact List.mem_filter.mpr ⟨List.mem_map.mpr ⟨n, List.mem_of_find?_eq_some hn, hid⟩, beq_self_eq_true nsid⟩

/-- Settles O16. -/
theorem namespaceCommandsRun : Obligations.NamespaceCommandsRun := by
  unfold Obligations.NamespaceCommandsRun
  intro s c hf hop
  have hrun : ∀ f : State → State, s.nvRun f = f s := State.nvRun_of hf
  have hserved : ¬ (s.sec.lifecycle != .operational) = true := by simp [hop]
  refine ⟨fun nsze vendor h0 hunit hbit hpot hroom hfree => ?_, fun n hn hdel => ?_, fun n attach hn hdel hatt => ?_, fun ses hnamed hses => ?_, ?_, ?_⟩
  · change execNamespaceCreate c nsze vendor s = _
    rw [execNamespaceCreate, hrun]
    refine congrArg Host.Outcome.next ((if_neg ?_).trans ((if_neg (Nat.not_le.mpr hroom)).trans ((if_neg (Nat.not_lt.mpr hfree)).trans rfl)))
    simp [hop, hbit, hpot, hunit, Nat.ne_of_gt h0]
  · change execNamespaceDelete c s = _
    rw [execNamespaceDelete, hrun]
    exact congrArg Host.Outcome.next ((if_neg hserved).trans (if_neg (by simp [hn, hdel])))
  · change execNamespaceAttachment c attach s = _
    rw [execNamespaceAttachment, hrun, if_neg hserved]
    simp only [hn]
    refine congrArg Host.Outcome.next ((if_neg (by simp [hdel])).trans (if_neg ?_))
    rw [hatt]
    cases attach <;> exact Bool.false_ne_true
  · change execFormatNvm c ses s = _
    rw [execFormatNvm, hrun]
    refine congrArg Host.Outcome.next ((if_neg ?_).trans (if_neg ?_))
    · simp [hop, hses]
    · rw [Bool.and_eq_true, bne_iff_ne, List.isEmpty_iff]
      rintro ⟨hnone, hne⟩
      obtain ⟨n, hn⟩ := Option.isSome_iff_exists.mp (hnamed.resolve_left hne)
      exact absurd hnone (List.ne_nil_of_mem (State.mem_nsNamed hne hn))
  · change Host.Outcome.next (s.sanitize c false) = _
    rw [State.sanitize, hrun, if_neg hserved]
    rfl
  · change Host.Outcome.next (s.sanitize c true) = _
    rw [State.sanitize, hrun, if_neg hserved]
    rfl

/-- Settles O17. -/
theorem adminCommandsRun : Obligations.AdminCommandsRun := by
  unfold Obligations.AdminCommandsRun
  refine ⟨fun s c hf => ?_, fun s c prp hf => ?_⟩
  · intro done
    have hrun : ∀ f : State → State, s.nvRun f = f s := State.nvRun_of hf
    refine ⟨fun qid size base h1 h128 h2 h64 => ⟨fun hfree any => ?_, fun cqid hfree hcq => ?_⟩, fun qid hq hsq => ?_, fun qid hq hw => ?_,
      fun sqid cid hw => ?_, fun he => ?_, fun page rest he => ?_, ?_, ?_, ?_, fun hlife => ⟨fun v h => ?_, fun v h hoff => ?_, fun v h hon hlen hunits => ?_⟩,
      fun op => ?_⟩
    · change execCreateIoQueue c true qid size any base s = _
      rw [execCreateIoQueue, hrun]
      refine congrArg Host.Outcome.next ((if_neg ?_).trans ((if_neg (by omega)).trans rfl))
      simp only [if_true, List.any_eq_true, beq_iff_eq]
      rintro (h | h | ⟨q, hq, h⟩)
      · omega
      · omega
      · exact hfree q hq h
    · change execCreateIoQueue c false qid size cqid base s = _
      rw [execCreateIoQueue, hrun]
      refine congrArg Host.Outcome.next ((if_neg ?_).trans ((if_neg (by omega)).trans ((if_neg Bool.false_ne_true).trans ((if_neg ?_).trans rfl))))
      · simp only [Bool.false_eq_true, if_false, List.any_eq_true, beq_iff_eq]
        rintro (h | h | ⟨q, hq, h⟩)
        · omega
        · omega
        · exact hfree q hq h
      · simpa using hcq
    · change execDeleteIoQueue c true qid s = _
      rw [execDeleteIoQueue, hrun]
      refine congrArg Host.Outcome.next ((if_pos rfl).trans ((if_neg ?_).trans ((if_neg ?_).trans rfl)))
      · simpa using hq
      · rw [List.any_eq_true]
        rintro ⟨q, hmem, h⟩
        exact hsq q hmem (beq_iff_eq.mp h)
    · have hgone : (s.nvme.waits.filter fun w => w.idle && w.cmd.sqid == qid) = [] := by
        refine List.filter_eq_nil_iff.mpr fun w hmem => ?_
        rw [Bool.and_eq_true, beq_iff_eq]
        exact fun h => hw w hmem h.1 h.2
      change execDeleteIoQueue c false qid s = _
      rw [execDeleteIoQueue, hrun]
      refine congrArg Host.Outcome.next ((if_neg Bool.false_ne_true).trans ((if_neg ?_).trans ?_))
      · simpa using hq
      · rw [hgone]
        rfl
    · have hnone : (s.nvme.waits.find? fun w => w.idle && w.cmd.sqid == sqid && w.cmd.cid == cid) = none := by
        refine List.find?_eq_none.mpr fun w hmem => ?_
        rw [Bool.and_eq_true, Bool.and_eq_true, beq_iff_eq, beq_iff_eq]
        exact fun h => hw w hmem h.1.1 h.1.2 h.2
      change execAbortCmd c sqid cid s = _
      rw [execAbortCmd, hrun]
      simp only [hnone]
      rfl
    · change execAsyncEventRequest c s = _
      rw [execAsyncEventRequest, hrun]
      split
      next e rest h => exact nomatch he.symm.trans h
      next => rfl
    · change execAsyncEventRequest c s = _
      rw [execAsyncEventRequest, hrun]
      simp only [he]
      rfl
    · exact congrArg Host.Outcome.next ((hrun _).trans (if_pos rfl))
    · exact congrArg Host.Outcome.next ((hrun _).trans (if_pos rfl))
    · exact congrArg Host.Outcome.next ((hrun _).trans (if_pos rfl))
    · refine congrArg Host.Outcome.next ((hrun _).trans ((if_neg ?_).trans (if_pos rfl)))
      rcases hlife with h | h <;> simp [h, supportedFeature]
    · refine congrArg Host.Outcome.next ((hrun _).trans ((if_neg ?_).trans ((if_neg (by decide)).trans ((if_pos rfl).trans (if_pos ?_)))))
      · rcases hlife with h | h <;> simp [h, supportedFeature]
      · rw [hoff]
        rfl
    · refine congrArg Host.Outcome.next ((hrun _).trans ((if_neg ?_).trans ((if_neg (by decide)).trans ((if_pos rfl).trans ((if_neg ?_).trans ((if_neg ?_).trans rfl))))))
      · rcases hlife with h | h <;> simp [h, supportedFeature]
      · rw [hon]
        exact Bool.false_ne_true
      · simp only [List.any_eq_true, Bool.or_eq_true, decide_eq_true_eq, bne_iff_ne]
        rintro (h | ⟨d, hd, h | h⟩)
        · omega
        · exact Nat.not_lt.mpr (hunits d hd).1 h
        · exact h (hunits d hd).2
    · exact congrArg Host.Outcome.next (hrun _)
  · have hrun : ∀ f : State → State, s.nvRun f = f s := State.nvRun_of hf
    refine ⟨fun cns hcns => ?_, fun cns hcns => ?_, fun lid off len lsp rae n hlen hoff => ?_, fun lid off len lsp rae hlen => ?_⟩
    · refine congrArg Host.Outcome.next ((hrun _).trans (if_neg ?_))
      rw [List.contains_iff_mem.mpr hcns]
      exact Bool.false_ne_true
    · refine congrArg Host.Outcome.next ((hrun _).trans (if_pos ?_))
      rw [Bool.not_eq_true', Bool.eq_false_iff]
      exact mt List.contains_iff_mem.mp hcns
    · change execGetLogPage c lid off len lsp rae prp s = _
      rw [execGetLogPage, hrun]
      simp only [hlen]
      exact congrArg Host.Outcome.next (if_neg (Nat.not_lt.mpr hoff))
    · change execGetLogPage c lid off len lsp rae prp s = _
      rw [execGetLogPage, hrun]
      simp only [hlen]

section
variable {s : State} {slot : Nat} {m : Manifest}

/-- What follows a commit that PF0 fetches. -/
theorem State.fwCommit_of (hf : s.nvFetches = true) (c : NvCmd) (after : State → State) : s.fwCommit c slot m after =
    match s.commitSlot slot m with
    | .error e => s.nvDone c e 0
    | .ok u => after u := State.nvRun_of hf _

variable (hserved : s.fwServed = true)
include hserved

/-- A commit of the inactive slot whose manifest passes. -/
theorem State.commitSlot_ok (hslot : slot = 0 ∨ slot = s.inactive) (hok : s.manifestOk m = true) : s.commitSlot slot m =
    .ok { s with boot := { s.boot with
      slots := s.boot.slots.setIfInBounds (s.inactive - 1) { s.slot s.inactive with record := some m, commits := (s.slot s.inactive).commits + 1, touched := false }
      rollback := Nat.max s.boot.rollback m.svn, revoked := s.boot.revoked ||| BitVec.ofNat 4 m.revoke } } :=
  (if_neg (by simp [hserved])).trans ((if_neg fun h => hslot.elim h.1 h.2).trans ((if_neg (by simp [hok])).trans rfl))

theorem State.commitSlot_bad (hslot : slot = 0 ∨ slot = s.inactive) (hbad : s.manifestOk m = false) : s.commitSlot slot m = .error .invalidFwImage :=
  (if_neg (by simp [hserved])).trans ((if_neg fun h => hslot.elim h.1 h.2).trans (if_pos (by simp [hbad])))

theorem State.commitSlot_other (m : Manifest) (h0 : slot ≠ 0) (hk : slot ≠ s.inactive) : s.commitSlot slot m = .error .invalidFwSlot :=
  (if_neg (by simp [hserved])).trans (if_pos ⟨h0, hk⟩)

end

/-- An asynchronous event touches neither the boot state nor the pause. -/
theorem State.nvEvent_kept (s : State) (page : Nat) : (s.nvEvent page).boot = s.boot ∧ (s.nvEvent page).nvme.paused = s.nvme.paused := by
  unfold State.nvEvent
  split <;> exact ⟨rfl, rfl⟩

/-- Settles O18. -/
theorem firmwareCommands : Obligations.FirmwareCommands := by
  unfold Obligations.FirmwareCommands
  refine ⟨fun s c m hf hserved => ?_, fun s => ⟨fun c => ?_, fun h hh hq => ?_, fun h hh => ?_⟩⟩
  · have hrun : ∀ f : State → State, s.nvRun f = f s := State.nvRun_of hf
    intro done k slots committed
    have hreplace : ∀ slot, exec (.fwCommitReplace c slot m) s = .next (s.fwCommit c slot m fun s => s.nvDone c .success 0) := fun _ => rfl
    have hnext : ∀ slot, exec (.fwCommitActivateNext c slot m) s =
        .next (s.fwCommit c slot m fun s => (s.modBoot fun b => { b with pointer := s.inactive }).nvDone c .success 0) := fun _ => rfl
    have hnow : ∀ slot, exec (.fwCommitActivateNow c slot m) s =
        .next (s.fwCommit c slot m fun s => if s.sameParts m then s.beginHold c else s.nvDone c .needsReset 0) := fun _ => rfl
    refine ⟨fun off data hptr hoff hdata => ?_, fun off data hptr => ?_, fun slot hslot hok => ⟨?_, ?_, fun hsame => ?_, fun hsame => ?_⟩,
      fun slot hslot hok => ⟨?_, ?_, ?_⟩, fun slot h0 hk => ?_, fun slot hslot hrec => ?_⟩
    · change execFirmwareImageDownload c off data s = _
      rw [execFirmwareImageDownload, hrun]
      exact congrArg Host.Outcome.next ((if_neg (by simp [hserved])).trans ((if_neg (not_not_intro hptr)).trans (if_neg (by omega))))
    · change execFirmwareImageDownload c off data s = _
      rw [execFirmwareImageDownload, hrun]
      exact congrArg Host.Outcome.next ((if_neg (by simp [hserved])).trans (if_pos hptr))
    · rw [hreplace, State.fwCommit_of hf, State.commitSlot_ok hserved hslot hok]
    · rw [hnext, State.fwCommit_of hf, State.commitSlot_ok hserved hslot hok]
      rfl
    · rw [hnow, State.fwCommit_of hf, State.commitSlot_ok hserved hslot hok]
      exact congrArg Host.Outcome.next (if_pos hsame)
    · rw [hnow, State.fwCommit_of hf, State.commitSlot_ok hserved hslot hok]
      exact congrArg Host.Outcome.next (if_neg (Bool.eq_false_iff.mp hsame))
    · rw [hreplace, State.fwCommit_of hf, State.commitSlot_bad hserved hslot hok]
    · rw [hnext, State.fwCommit_of hf, State.commitSlot_bad hserved hslot hok]
    · rw [hnow, State.fwCommit_of hf, State.commitSlot_bad hserved hslot hok]
    · rw [hreplace, State.fwCommit_of hf, State.commitSlot_other hserved m h0 hk]
    · have hn : (if slot = 0 then s.inactive else slot) = slot := if_neg (by omega)
      change execFwCommitSelectSlot c slot s = _
      rw [execFwCommitSelectSlot, hrun, hn]
      refine congrArg Host.Outcome.next ((if_neg (by simp [hserved])).trans ((if_neg (by omega)).trans ((if_neg ?_).trans rfl)))
      rw [Option.isNone_iff_eq_none]
      exact fun h => nomatch hrec.symm.trans (congrArg Option.isSome h)
  · let u := (s.modBoot fun b => { b with hold := some { cmd := c, slot := s.inactive } }).modNvme fun n => { n with paused := true }
    obtain ⟨hboot, hpaused⟩ := u.nvEvent_kept 0x03
    exact ⟨u.nvEvent 0x03, rfl, hboot, hpaused⟩
  · change execActivationQuiesced s = _
    simp only [execActivationQuiesced, hh]
    exact if_neg (by simp [hq])
  · change execActivationQuiesceExpiry s = _
    simp only [execActivationQuiesceExpiry, hh]

end Sys2Proof.Machine
end

section
/-! Proofs about the I/O commands of PF0 (chapter 12). -/

namespace Sys2Proof.Machine

-- Data that reads as zeros

theorem slice_nil (off n : Nat) : slice [] off n = zeros n := by
  refine List.ext_getElem (by simp [slice, zeros]) fun i hi _ => ?_
  simp [slice, zeros]

/-- A block without data reads as zeros (R282). -/
theorem Namespace.durable_of_none {n : Namespace} {lba seq : Nat}
    (h : n.blocks.find? (·.1 == lba) = some (lba, seq, []) ∨ n.blocks.find? (·.1 == lba) = none) : n.durable lba = zeros 4096 := by
  unfold Namespace.durable
  rcases h with h | h
  · rw [h]
    exact slice_nil 0 4096
  · rw [h]

-- Commands that PF0 fetches outside PS3 and PS4

section
variable {s : State} {c : NvCmd}

theorem State.fetchIo_of_shallow (hf : s.nvFetches = true) (hp : s.power.st < 3) (io : NvIo) : s.fetchIo c io = s.runIo c io :=
  (State.nvRun_of hf _).trans (if_neg (Nat.not_le.mpr hp))

/-- A command that PS3 or PS4 holds (Table 16.10). -/
theorem State.fetchIo_of_deep (hf : s.nvFetches = true) (hp : 3 ≤ s.power.st) (htrip : s.power.tripped = false) (io : NvIo) :
    ∃ t, s.fetchIo c io = t ∧ t.nvme = { s.nvme with waits := s.nvme.waits ++ [.io c io] } ∧ t.power.req = Nat.min s.power.req 2 ∧
      (s.power.step = none → t.power.step = some (s.power.st - 1)) ∧ t.host = s.host := by
  let s1 := s.modNvme fun n => { n with waits := n.waits ++ [.io c io] }
  let s2 := if s1.power.step.isNone then s1.modMedia fun m => { m with orderly := false } else s1
  have hkept : s2.nvme = s1.nvme ∧ s2.power = s.power ∧ s2.host = s.host := by
    unfold s2
    split <;> exact ⟨rfl, rfl, rfl⟩
  obtain ⟨hnvme, hpower, hhost⟩ := hkept
  refine ⟨s2.modPower fun p => { p with req := Nat.min p.req 2, step := p.step.orElse fun _ => some (p.st - 1) },
    (State.nvRun_of hf _).trans ((if_pos hp).trans (if_neg (Bool.eq_false_iff.mp htrip))), hnvme, ?_, fun hstep => ?_, hhost⟩
  · rw [State.modPower_power, hpower]
  · rw [State.modPower_power, hpower, hstep]
    rfl

end

-- Writes (R283 to R288)

/-- The blocks that a write reads from the host. -/
theorem foldr_bind_some (data : List Bytes) :
    (data.map some).foldr (fun x l => x.bind fun b => l.map (b :: ·)) (some []) = some data := by
  induction data with
  | nil => rfl
  | cons b l ih => rw [List.map_cons, List.foldr_cons, ih]; rfl

theorem foldr_hostRead {s : State} {prp : Prp} {data : List Bytes} {nlb : Nat} (hlen : data.length = nlb)
    (h : ∀ i < nlb, s.hostRead (prp.getD i 0) 4096 = some (data.getD i [])) :
    ((List.range nlb).map fun i => s.hostRead (prp.getD i 0) 4096).foldr (fun x l => x.bind fun b => l.map (b :: ·)) (some []) = some data := by
  have hread : ((List.range nlb).map fun i => s.hostRead (prp.getD i 0) 4096) = data.map some := by
    refine List.ext_getElem (by simp [hlen]) fun i hi hi' => ?_
    rw [List.length_map] at hi'
    rw [List.getElem_map, List.getElem_range, List.getElem_map, h i (hlen ▸ hi'), List.getD_eq_getElem?_getD, List.getElem?_eq_getElem hi', Option.getD_some]
  rw [hread, foldr_bind_some]

/-- The blocks of a write enter the buffer. -/
def State.putBlocks (s : State) (nsid slba seq : Nat) (l : List (Bytes × Nat)) : State :=
  l.foldl (fun s x => s.putBlock nsid (slba + x.2) x.1 seq x.2) s

/-- One block enters the buffer, and nothing else changes. -/
theorem State.putBlock_eq (s : State) (nsid lba : Nat) (data : Bytes) (seq i : Nat) : ∃ b : BufBlock,
    s.putBlock nsid lba data seq i = s.modNvme fun n => { n with buffer := n.buffer ++ [b] } := ⟨_, rfl⟩

/-- The blocks of a write enter the buffer, and nothing else changes. -/
theorem State.putBlocks_eq (nsid slba seq : Nat) (l : List (Bytes × Nat)) (s : State) : ∃ B : List BufBlock, B.length = l.length ∧
    s.putBlocks nsid slba seq l = s.modNvme fun n => { n with buffer := n.buffer ++ B } := by
  induction l generalizing s with
  | nil =>
    refine ⟨[], rfl, ?_⟩
    simp only [State.putBlocks, List.foldl_nil, State.modNvme, List.append_nil]
  | cons x l ih =>
    obtain ⟨b, hb⟩ := s.putBlock_eq nsid (slba + x.2) x.1 seq x.2
    obtain ⟨B, hlen, hB⟩ := ih (s.putBlock nsid (slba + x.2) x.1 seq x.2)
    refine ⟨b :: B, congrArg (· + 1) hlen, hB.trans ?_⟩
    rw [hb]
    simp only [State.modNvme, List.append_assoc, List.singleton_append]

/-- A write whose blocks are in the buffer takes its sequence number. -/
def State.numbered (s : State) (seq : Nat) : State := s.used.modNvme fun n => { n with seq := seq + 1 }

theorem State.acceptWrite_eq (s : State) (c : NvCmd) (slba : Nat) (data : List Bytes) (fua : Bool) : s.acceptWrite c slba data fua =
    let u := (s.putBlocks c.nsid slba s.nvme.seq data.zipIdx).numbered s.nvme.seq
    if u.writeThrough fua then u.modNvme fun n => { n with waits := n.waits ++ [.write c s.nvme.seq] }
    else (u.modNvme fun n => { n with intents := n.intents ++
      [{ nsid := c.nsid, slba := slba, nlb := data.length, sqid := c.sqid, cid := c.cid, seq := s.nvme.seq }] }).nvDone c .success 0 := rfl

/-- What an accepted write leaves of the state. -/
theorem State.acceptWrite_spec (s : State) (c : NvCmd) (slba : Nat) (data : List Bytes) (fua : Bool) :
    let t := s.acceptWrite c slba data fua
    t.nvme.seq = s.nvme.seq + 1 ∧ t.nvme.buffer.length = s.nvme.buffer.length + data.length ∧ t.nvme.spaces = s.nvme.spaces ∧ t.host = s.host ∧
      t.media = s.media ∧
      (s.writeThrough fua = false → t.nvme.intents = s.nvme.intents ++
          [{ nsid := c.nsid, slba := slba, nlb := data.length, sqid := c.sqid, cid := c.cid, seq := s.nvme.seq }] ∧
        t.nvme.done = { cmd := c, status := .success } :: s.nvme.done ∧ t.nvme.waits = s.nvme.waits) ∧
      (s.writeThrough fua = true → t.nvme.intents = s.nvme.intents ∧ t.nvme.done = s.nvme.done ∧ t.nvme.waits = s.nvme.waits ++ [.write c s.nvme.seq]) := by
  obtain ⟨B, hlen, hB⟩ := State.putBlocks_eq c.nsid slba s.nvme.seq data.zipIdx s
  rw [List.length_zipIdx] at hlen
  have hbuffer : (s.nvme.buffer ++ B).length = s.nvme.buffer.length + data.length := by rw [List.length_append, hlen]
  rw [State.acceptWrite_eq, hB]
  have hthrough : ((s.modNvme fun n => { n with buffer := n.buffer ++ B }).numbered s.nvme.seq).writeThrough fua = s.writeThrough fua := rfl
  cases h : s.writeThrough fua with
  | false =>
    rw [h] at hthrough
    simp only [hthrough, Bool.false_eq_true, if_false]
    exact ⟨rfl, hbuffer, rfl, rfl, rfl, fun _ => ⟨rfl, rfl, rfl⟩, (nomatch ·)⟩
  | true =>
    rw [h] at hthrough
    simp only [hthrough, if_true]
    exact ⟨rfl, hbuffer, rfl, rfl, rfl, (nomatch ·), fun _ => ⟨rfl, rfl, rfl⟩⟩

/-- Settles O15. -/
theorem ioCommandsRun : Obligations.IoCommandsRun := by
  unfold Obligations.IoCommandsRun
  refine ⟨fun s c slba nlb prp hf hp => ⟨fun n readable hio hn hflash => ?_, fun data fua hio hw hlen hdata hroom => ?_, fun hio hall hw => ?_,
    fun hio hw => ?_, fun ranges hio hranges => ⟨?_, ?_⟩⟩, fun s c slba nlb prp b hf => ⟨fun e hp hio => ⟨?_, ?_⟩, fun hlife => ?_, fun hlife hmap => ?_,
    fun hlife hmap hn => ?_, fun n hlife hmap hn hatt hdel hflag => ?_, fun hp hio hw => ?_, fun hp htrip => ?_⟩, fun n lba seq h => Namespace.durable_of_none h⟩
  · change Host.Outcome.next (s.fetchIo c (.read slba nlb prp readable)) = _
    rw [State.fetchIo_of_shallow hf hp, State.runIo]
    simp only [hio, hn, Option.getD_some]
    refine congrArg Host.Outcome.next (if_pos ?_)
    rw [Bool.or_eq_true]
    refine hflash.imp_right fun h => ?_
    rw [List.isEmpty_iff, List.filter_eq_nil_iff]
    intro lba hlba
    obtain ⟨i, hi, rfl⟩ := List.mem_map.mp hlba
    exact Bool.eq_false_iff.mp (h i (List.mem_range.mp hi))
  · refine ⟨s.acceptWrite c slba data fua, ?_, ?_⟩
    · change Host.Outcome.next (s.fetchIo c (.write slba nlb prp fua)) = _
      rw [State.fetchIo_of_shallow hf hp, State.runIo]
      simp only [hio, foldr_hostRead hlen hdata]
      exact congrArg Host.Outcome.next ((if_neg (by simp [hw])).trans (if_pos hroom))
    · have hspec := s.acceptWrite_spec c slba data fua
      rwa [hlen] at hspec
  · have hmine : (s.nvme.intents.filter fun i => i.nsid == c.nsid || c.nsid == 0xFFFFFFFF) = s.nvme.intents.filter fun i => i.nsid == c.nsid := by
      refine List.filter_congr fun i _ => ?_
      rw [beq_eq_false_iff_ne.mpr hall, Bool.or_false]
    change Host.Outcome.next (s.fetchIo c .flush) = _
    rw [State.fetchIo_of_shallow hf hp, State.runIo]
    simp only [if_neg hall, hio, hmine]
    refine congrArg Host.Outcome.next (if_neg ?_)
    rw [Bool.and_eq_true, Bool.not_eq_true', Bool.not_eq_true', List.isEmpty_eq_false_iff]
    rintro ⟨hno, hne⟩
    refine hw.elim (fun h => nomatch h.symm.trans hno) fun h => hne ?_
    exact List.filter_eq_nil_iff.mpr fun i hi => mt beq_iff_eq.mp (h i hi)
  · change Host.Outcome.next (s.fetchIo c (.zeroes slba nlb)) = _
    rw [State.fetchIo_of_shallow hf hp, State.runIo]
    simp only [hio]
    exact congrArg Host.Outcome.next (if_neg (by simp [hw]))
  · have hnone : ranges.findSome? (fun r => s.ioFail c r.1 r.2 false) = none := List.findSome?_eq_none_iff.mpr hranges
    change Host.Outcome.next (s.fetchIo c (.dsm true ranges)) = _
    rw [State.fetchIo_of_shallow hf hp, State.runIo]
    simp only [hnone, hio, Bool.not_true, Bool.false_eq_true, if_false]
  · have hnone : ranges.findSome? (fun r => s.ioFail c r.1 r.2 false) = none := List.findSome?_eq_none_iff.mpr hranges
    change Host.Outcome.next (s.fetchIo c (.dsm false ranges)) = _
    rw [State.fetchIo_of_shallow hf hp, State.runIo]
    simp only [hnone, hio, Bool.not_false, if_true]
  · change Host.Outcome.next (s.fetchIo c (.read slba nlb prp b)) = _
    rw [State.fetchIo_of_shallow hf hp, State.runIo]
    simp only [hio]
  · change Host.Outcome.next (s.fetchIo c (.write slba nlb prp b)) = _
    rw [State.fetchIo_of_shallow hf hp, State.runIo]
    simp only [hio]
  · exact if_pos (by simp [hlife])
  · exact (if_neg (by simp [hlife])).trans (if_pos hmap)
  · refine (if_neg (by simp [hlife])).trans ((if_neg (by simp [hmap])).trans ?_)
    simp only [hn]
  · refine (if_neg (by simp [hlife])).trans ((if_neg (by simp [hmap])).trans ?_)
    simp only [hn]
    exact (if_neg (by simp [hatt, hdel])).trans (if_pos hflag)
  · change Host.Outcome.next (s.fetchIo c (.write slba nlb prp b)) = _
    rw [State.fetchIo_of_shallow hf hp, State.runIo]
    simp only [hio]
    exact congrArg Host.Outcome.next (if_pos (by simp [hw]))
  · obtain ⟨t, heq, h⟩ := State.fetchIo_of_deep (c := c) hf hp htrip (.read slba nlb prp b)
    exact ⟨t, congrArg Host.Outcome.next heq, h⟩

end Sys2Proof.Machine
end

section
/-! Power states, the kettle and the temperature (O9, O10). -/

namespace Sys2Proof.Machine

/-- The step that `towards` begins when one is due: to the neighbour on the way to the wanted state. -/
theorem State.towards_of {s : State} (hr : s.boot.phase = .ready) (hs : s.power.step = none) (hw : s.powerWant ≠ s.power.st) :
    s.towards =
      (let goal := if s.power.st < s.powerWant then s.power.st + 1 else s.power.st - 1
       let u : State := { s with power := { s.power with step := some goal } }
       if s.power.st = 0 then (List.range 8).foldl State.preemptIdle u
       else if goal = 4 then u.dropLinks
       else if s.power.st = 4 then { u with media := { s.media with orderly := false } }
       else u) :=
  if_neg (by simp [hr, hs, hw])

/-- Settles O9. -/
theorem powerStatesMoveByStep : Obligations.PowerStatesMoveByStep := by
  unfold Obligations.PowerStatesMoveByStep
  refine ⟨fun s => ⟨fun v hup hv => ?_, fun fn v hno => ?_, fun goal hr hg hdone => ?_, fun goal hr hg hle => ?_⟩, fun s hr hs hw => ?_⟩
  · exact congrArg Host.Outcome.next ((if_pos ⟨rfl, hup⟩).trans (if_neg (by omega)))
  · change Host.Outcome.next _ = _
    by_cases hf : fn = .pf1 ∧ s.boot.up = true
    · rw [if_pos hf, State.requestPower, if_pos (hno.resolve_left (· hf.1))]
    · rw [if_neg hf]
  · refine congrArg Host.Outcome.next ((if_pos hr).trans ?_)
    rw [State.finishStep, hg]
    exact if_pos hdone
  · change execPowerStepLimitExpiry s = _
    rw [execPowerStepLimitExpiry, hg]
    exact if_neg (by simp [hr, hle])
  · let goal := if s.power.st < s.powerWant then s.power.st + 1 else s.power.st - 1
    refine ⟨goal, _, rfl, fun h => if_pos h, fun h => ?_, fun h0 => ?_, fun h0 hg => ?_, fun h4 hg => ?_, fun h0 h4 hg => ?_⟩
    · have : goal = s.power.st - 1 := if_neg (by omega)
      omega
    · exact (State.towards_of hr hs hw).trans (if_pos h0)
    · exact (State.towards_of hr hs hw).trans ((if_neg h0).trans (if_pos hg))
    · exact (State.towards_of hr hs hw).trans ((if_neg (by omega)).trans ((if_neg hg).trans (if_pos h4)))
    · exact (State.towards_of hr hs hw).trans ((if_neg h0).trans ((if_neg hg).trans (if_neg h4)))

-- The throttle level

/-- Another level: the sources of the tile cores send `SYNC`, no other object changes, and the host's interface stays. -/
theorem State.setLevel_objects (s : State) (n : Nat) :
    (s.setLevel n).objects = State.objects { s with power := { s.power with level := n } } := by
  unfold State.setLevel
  by_cases h : s.power.level = n
  · subst h
    rw [if_pos rfl]
  · rw [if_neg h]
    exact objects_foldl (fun s c => s.trace_objects _ _ _ _) _ _

theorem State.setLevel_host (s : State) (n : Nat) : (s.setLevel n).host = s.host := by
  unfold State.setLevel
  split
  · rfl
  · exact foldl_keeps State.host (fun s c => (s.traceAt_kept none _ _ _ _).1) _ _

/-- The power state at another level, but for the probe's halts. -/
theorem State.setLevel_power (s : State) (n : Nat) : (s.setLevel n).power.quiet = { s.power.quiet with level := n } :=
  congrArg Objects.power (s.setLevel_objects n)

theorem State.setLevel_level (s : State) (n : Nat) : (s.setLevel n).power.level = n :=
  congrArg Power.level (s.setLevel_power n)

theorem State.setLevel_samples (s : State) (n : Nat) : (s.setLevel n).power.samples = s.power.samples :=
  (congrArg Power.samples (s.setLevel_power n) :)

theorem State.setLevel_trial (s : State) (n : Nat) : (s.setLevel n).power.trial = s.power.trial :=
  (congrArg Power.trial (s.setLevel_power n) :)

theorem State.setLevel_hot (s : State) (n : Nat) : (s.setLevel n).power.hot = s.power.hot :=
  (congrArg Power.hot (s.setLevel_power n) :)

/-- A value just written is found. -/
theorem lookup_upsert_self (l : List (Nat × Int)) (k : Nat) (d v : Int) : (upsert l k d fun _ => v).lookup k = some v := by
  induction l with
  | nil => simp [upsert]
  | cons e l ih =>
    obtain ⟨i, x⟩ := e
    by_cases h : i = k
    · simp [upsert, h]
    · simp [upsert, h, ih, List.lookup_cons, beq_false_of_ne (Ne.symm h)]

/-- Where the kettle runs the module is neither off nor without power. -/
theorem State.phase_of_kettleRuns {s : State} (h : s.kettleRuns = true) : ¬ (s.boot.phase = .off ∨ s.boot.phase = .lost) := by
  rintro (hp | hp) <;> simp [State.kettleRuns, hp] at h

theorem Power.sumOf_of_le {p : Power} {n : Nat} (h : n ≤ p.samples.length) : p.sumOf n = some (p.samples.take n).sum := if_neg (by omega)

/-- A command that waits for the module to leave PS3 or PS4. -/
def NvWait.isIo : NvWait → Bool
  | .io _ _ => true
  | _ => false

/-- Settles O10. -/
theorem kettleAndThermalCommands : Obligations.KettleAndThermalCommands := by
  unfold Obligations.KettleAndThermalCommands
  refine ⟨fun s hk => ⟨fun mw => ?_, fun hl ht hh hd hs => ?_, fun level before ht hn hs hle => ?_, fun level before ht hn hs hlt => ?_⟩,
    fun s => ⟨fun hk hl => ?_, fun hk => ?_, fun k hk => if_neg (by simp [hk]), fun ht hio => ?_⟩⟩
  · intro w
    have he : exec (.kettleSample mw) s = if !w.kettleRuns then .next w else .next (w.modPower fun p => { p with
        samples := (mw :: p.samples).take 1000, sinceDeeper := p.sinceDeeper + 1, sincePaced := p.sincePaced + 1
        sinceTrial := p.sinceTrial + 1 }).recordFall.kettleMove := if_neg (State.phase_of_kettleRuns hk)
    clear_value w
    exact ⟨fun hw => he.trans (if_neg (by simp [hw])), fun hw => he.trans (if_pos (by simp [hw]))⟩
  · refine ⟨(s.setLevel (s.power.level - 1)).modPower fun p => { p with trial := some (p.level + 1, (p.samples.take 100).sum), sinceTrial := 0 },
      if_neg (by simp [hk, ht, hh]; omega), ?_⟩
    refine ⟨s.setLevel_level _, ?_, rfl, s.setLevel_host _, congrArg Objects.media (s.setLevel_objects _),
      congrArg Objects.jobs (s.setLevel_objects _), congrArg Objects.cores (s.setLevel_objects _)⟩
    change some ((s.setLevel _).power.level + 1, ((s.setLevel _).power.samples.take 100).sum) = _
    rw [State.setLevel_level, State.setLevel_samples, Nat.sub_add_cancel hl]
  · change execKettleTrialEnd s = _
    rw [execKettleTrialEnd, ht, Power.sumOf_of_le hn]
    exact (if_neg (by simp [hk]; omega)).trans (if_pos hle)
  · let u : State := s.modPower fun p => { p with trial := none }
    refine ⟨(u.setLevel level).modPower fun p => { p with
      deltas := upsert p.deltas level 0 fun _ => ((s.power.samples.take 100).sum : Int) - (before : Int) }, ?_, ?_⟩
    · change execKettleTrialEnd s = _
      rw [execKettleTrialEnd, ht, Power.sumOf_of_le hn]
      exact (if_neg (by simp [hk]; omega)).trans (if_neg (Nat.not_le.mpr hlt))
    · exact ⟨u.setLevel_level _, u.setLevel_trial _, lookup_upsert_self _ _ _ _⟩
  · let u : State := s.modPower fun p => { p with hot := true }
    refine ⟨u.deeper 1 false, ?_, ?_, u.setLevel_hot _, rfl, rfl⟩
    · exact (if_neg (by simp [hk])).trans (congrArg Host.Outcome.next (if_pos (decide_eq_true hl)))
    · refine (u.setLevel_level _).trans ?_
      change min 16 (s.power.level + 1) = _
      omega
  · exact (if_neg (by simp [hk])).trans (congrArg Host.Outcome.next (if_neg (by simp)))
  · change execThermalTripClear s = _
    refine (if_neg (by simp [ht])).trans ?_
    have hheld : s.nvme.waits.any NvWait.isIo = false := by
      refine List.any_eq_false.mpr fun w hw hw' => ?_
      cases w with
      | io c io => exact hio c io hw
      | _ => cases hw'
    exact congrArg (fun held : Bool => Host.Outcome.next (s.modPower fun p => { p with
      tripped := false, hot := false, req := if held then Nat.min p.req 2 else p.req }).towards) hheld

end Sys2Proof.Machine
end

section
/-! Power-on and start (O11). -/

namespace Sys2Proof.Machine

/-- The element's state without its media keys. -/
def Sec.unkeyed (x : Sec) : Sec := { x with nextKey := 0, metaKey := none, potKeys := Vector.replicate 8 none }

/-- A state that differs from another in its media keys alone. -/
def State.rekeys (t s : State) : Prop := ∃ x : Sec, t = { s with sec := x } ∧ x.unkeyed = s.sec.unkeyed

theorem State.rekeys_trans {u t s : State} (h : u.rekeys t) (h' : t.rekeys s) : u.rekeys s := by
  obtain ⟨x, rfl, hx⟩ := h
  obtain ⟨y, rfl, hy⟩ := h'
  exact ⟨x, rfl, hx.trans hy⟩

theorem State.foldl_rekeys {α : Type} {f : State → α → State} (h : ∀ s x, (f s x).rekeys s) (l : List α) (s : State) :
    (l.foldl f s).rekeys s := by
  induction l generalizing s with
  | nil => exact ⟨s.sec, rfl, rfl⟩
  | cons x l ih => exact State.rekeys_trans (ih _) (h s x)

/-- New media keys are all that `makeMediaKeys` changes. -/
theorem State.makeMediaKeys_rekeys (s : State) : s.makeMediaKeys.rekeys s := by
  unfold State.makeMediaKeys
  refine State.rekeys_trans (State.foldl_rekeys (fun t p => ?_) _ _) ⟨_, rfl, rfl⟩
  split
  · exact ⟨_, rfl, rfl⟩
  · exact ⟨_, rfl, rfl⟩

/-- What the settings record's restoration may change. -/
theorem State.restoreSettings_boot (s : State) (newer older : Bool) : ∃ w o n i, s.restoreSettings newer older =
    { s with boot := { s.boot with settings := w, older := o, settingsSeq := n, invalid := i } } := by
  unfold State.restoreSettings
  split
  · exact ⟨_, _, _, _, rfl⟩
  · split
    · split
      · exact ⟨_, _, _, _, rfl⟩
      · exact ⟨_, _, _, _, rfl⟩
    · exact ⟨_, _, _, _, rfl⟩

/-- A boot changes the boot state alone. -/
theorem State.bootSlot_boot (s : State) (ok : Nat → Bool) : ∃ phase active version, s.bootSlot ok =
    { s with boot := { s.boot with phase := phase, active := active, version := version } } := by
  unfold State.bootSlot
  dsimp only
  split
  · exact ⟨_, _, _, rfl⟩
  · exact ⟨_, _, _, rfl⟩

section
variable {s : State} {ok : Nat → Bool}

/-- The slot of the boot pointer boots where it passes. -/
theorem State.bootSlot_of_first (h : ok s.boot.pointer = true) :
    (s.bootSlot ok).boot.phase = .training ∧ (s.bootSlot ok).boot.active = s.boot.pointer := by
  unfold State.bootSlot
  simp [h, State.modBoot]

/-- The other slot boots where the boot pointer's fails and it passes. -/
theorem State.bootSlot_of_other (h : ok s.boot.pointer = false) (h' : ok (3 - s.boot.pointer) = true) :
    (s.bootSlot ok).boot.phase = .training ∧ (s.bootSlot ok).boot.active = 3 - s.boot.pointer := by
  unfold State.bootSlot
  simp [h, h', State.modBoot]

/-- None boots where both fail. -/
theorem State.bootSlot_of_none (h : ok s.boot.pointer = false) (h' : ok (3 - s.boot.pointer) = false) :
    (s.bootSlot ok).boot.phase = .bootFailed ∧ (s.bootSlot ok).boot.active = 0 := by
  unfold State.bootSlot
  simp [h, h', State.modBoot]

end

/-- The debug key set goes at a power-on, and media keys are made anew where the module is owned. -/
def State.dropDebugKeys (s : State) : State :=
  if s.sec.debugKeys then
    let s := s.modSec fun x => { x with debugKeys := false }
    if s.sec.lifecycle == .provisioned || s.sec.lifecycle == .operational then s.makeMediaKeys else s
  else s

theorem State.dropDebugKeys_sec (s : State) : ∃ x, s.dropDebugKeys = { s with sec := x } ∧ x.debugKeys = false := by
  unfold State.dropDebugKeys
  split
  · dsimp only
    split
    · obtain ⟨x, hx, hk⟩ := (s.modSec fun x => { x with debugKeys := false }).makeMediaKeys_rekeys
      exact ⟨x, hx, (congrArg Sec.debugKeys hk :)⟩
    · exact ⟨_, rfl, rfl⟩
  · exact ⟨s.sec, rfl, Bool.eq_false_iff.mpr ‹_›⟩

/-- The state whose slot POWER_ON boots: straps, feed, mapping, settings and keys are set. -/
def State.poweredOn (s : State) (straps : BitVec 3) (failed : List (Fin 52)) (copyA copyB : Bool) : State :=
  (((s.used.modPower fun p => { p with straps := straps, feeds := (Vector.replicate 2 false).setIfInBounds (Config.pick s.free 0 2) true
    }).mapCores failed).restoreSettings copyA copyB).dropDebugKeys

/-- What a power-on samples and maps, the debug keys it drops, and the parts of the boot state that it reads and keeps. -/
theorem State.poweredOn_spec (s : State) (straps : BitVec 3) (failed : List (Fin 52)) (copyA copyB : Bool) :
    ∃ t, s.poweredOn straps failed copyA copyB = t ∧ t.power.straps = straps ∧
    t.cores = Vector.ofFn (fun c : Fin 48 => ({ phys := (passing failed (c.val / 12))[c.val % 12]? } : Core)) ∧ t.sec.debugKeys = false ∧
    t.boot.pointer = s.boot.pointer ∧ t.boot.slots = s.boot.slots ∧ t.boot.revoked = s.boot.revoked ∧ t.boot.rollback = s.boot.rollback := by
  refine ⟨_, rfl, ?_⟩
  unfold State.poweredOn
  obtain ⟨w, o, n, i, h⟩ := (((s.used.modPower fun p => { p with
    straps := straps, feeds := (Vector.replicate 2 false).setIfInBounds (Config.pick s.free 0 2) true }).mapCores failed)).restoreSettings_boot copyA copyB
  rw [h]
  obtain ⟨x, hx, hk⟩ := State.dropDebugKeys_sec { ((s.used.modPower fun p => { p with
    straps := straps, feeds := (Vector.replicate 2 false).setIfInBounds (Config.pick s.free 0 2) true }).mapCores failed) with
    boot := { ((s.used.modPower fun p => { p with
      straps := straps, feeds := (Vector.replicate 2 false).setIfInBounds (Config.pick s.free 0 2) true }).mapCores failed).boot with
      settings := w, older := o, settingsSeq := n, invalid := i } }
  rw [hx]
  exact ⟨rfl, rfl, hk, rfl, rfl, rfl, rfl⟩

/-- A slot passes exactly where its check at power-on does. -/
theorem State.slotPasses_iff {s t : State} {n : Nat} {found : Option Manifest} (hs : t.boot.slots = s.boot.slots)
    (hr : t.boot.revoked = s.boot.revoked) (hb : t.boot.rollback = s.boot.rollback) :
    s.slotPasses n found ↔ ((t.slot n).record.isSome && (found.map t.manifestOk).getD false) = true := by
  have hslot : t.slot n = s.slot n := congrArg (fun l : Vector FwSlot 2 => l[n - 1]?.getD {}) hs
  have hok : ∀ m, t.manifestOk m = s.manifestOk m := fun m => by rw [State.manifestOk, State.manifestOk, hr, hb]
  rw [State.slotPasses, hslot]
  cases found with
  | none => simp
  | some m => simp [hok]

/-- A hard fault that is new joins the list, and ends no job. -/
theorem State.hardFault_new {s : State} {t : MemTier} {a : Nat} (h : (t, a) ∉ s.tiers.hard) :
    (s.hardFault t a).tiers.hard = s.tiers.hard ++ [(t, a)] ∧ (s.hardFault t a).jobs = s.jobs := by
  unfold State.hardFault
  rw [if_neg (by simpa using h)]
  dsimp only
  exact ⟨congrArg (fun o => o.tiers.hard) ((State.modEvent_objects _ _ _).trans (State.count_objects _ _ _ _ _)),
    congrArg Objects.jobs ((State.modEvent_objects _ _ _).trans (State.count_objects _ _ _ _ _))⟩

/-- A bay changes to what it becomes, by whichever function. -/
theorem State.modBay_congr {s : State} {n : Nat} {f g : Bay → Bay} (h : f (s.bay n) = g (s.bay n)) : s.modBay n f = s.modBay n g := by
  rw [State.modBay, State.modBay, h]

theorem State.nvEvent_loss (s : State) (page : Nat) :
    (s.nvEvent page).nvme.loss = s.nvme.loss ∧ (s.nvEvent page).nvme.dump = s.nvme.dump := by
  unfold State.nvEvent
  split <;> exact ⟨rfl, rfl⟩

/-- The module as it becomes ready: read counts, the loss log, the map and the boot pointer are set. -/
def State.madeReady (s : State) (readable : Bool) : State :=
  let u := s.setReads.buildLoss.modMedia fun m => { m with startOrderly := m.orderly, orderly := false, rebuildingMap := !readable }
  (u.modBoot fun b => { b with phase := .ready, pointer := b.active, lossDue := !u.nvme.loss.isEmpty }).modNvme fun n => { n with ready := n.enabled }

theorem State.madeReady_loss (s : State) (readable : Bool) : (s.madeReady readable).nvme.loss = s.nvme.loss ++ s.nvme.dump := rfl

theorem State.moduleReady_eq (s : State) (readable : Bool) (h : s.boot.phase = .booting) :
    exec (.moduleReady readable) s = .next (let u := s.madeReady readable; if u.nvme.loss.isEmpty then u else u.nvEvent 0xC0).towards :=
  if_neg (by simp [h])

/-- A loss log that has nothing to take in stays as it is. -/
theorem Nvme.built_of_nil {n : Nvme} (hl : n.loss = []) (hd : n.dump = []) :
    ({ n with loss := n.loss ++ n.dump, dump := [], ready := n.enabled } : Nvme) = { n with ready := n.enabled } := by
  cases n
  simp_all

/-- Settles O11. -/
theorem startRunsInOrder : Obligations.StartRunsInOrder := by
  unfold Obligations.StartRunsInOrder
  refine ⟨fun s straps failed slotA slotB copyA copyB hoff hptr => ?_, fun s => ⟨fun ht => ⟨if_neg (not_not_intro ht), fun t a errs retry => ?_⟩,
    fun n => ?_, fun t a h => if_pos (by simpa using h), fun t a h => State.hardFault_new h, fun readable hb hl hd => ?_,
    fun readable hb hne => ?_, fun im hf hr => ?_, rfl, fun he => ?_⟩⟩
  · intro found p
    obtain ⟨u, hu, hstraps, hcores, hkeys, hpointer, hslots, hrev, hroll⟩ := s.poweredOn_spec straps failed copyA copyB
    let ok := fun n => (u.slot n).record.isSome && ((found n).map u.manifestOk).getD false
    have hok : ∀ n, s.slotPasses n (found n) ↔ ok n = true := fun n => State.slotPasses_iff hslots hrev hroll
    have hbad : ∀ n, ¬ s.slotPasses n (found n) → ok n = false := fun n h => Bool.eq_false_iff.mpr fun h' => h ((hok n).mpr h')
    let v := (u.modMedia fun m => { m with fastScrub := true }).freshPots
    have he : exec (.powerOn straps failed slotA slotB copyA copyB) s = .next (v.bootSlot ok) := by
      subst hu
      exact if_neg fun h => hoff.elim h.1 h.2
    have hp : v.boot.pointer = p := hpointer
    refine ⟨v.bootSlot ok, he, ?_⟩
    obtain ⟨phase, active, version, hv⟩ := v.bootSlot_boot ok
    refine ⟨by rw [hv]; exact hstraps, by rw [hv]; rfl, by rw [hv]; exact hkeys, fun c => ?_, fun h => ?_, fun h h' => ?_, fun h h' => ?_⟩
    · rw [hv]
      exact (congrArg (fun l : Vector Core 48 => l[c].phys) hcores).trans (congrArg Core.phys (Vector.getElem_ofFn _))
    · rw [← hp] at h ⊢
      exact State.bootSlot_of_first ((hok _).mp h)
    · rw [← hp] at h h' ⊢
      exact State.bootSlot_of_other (hbad _ h) ((hok _).mp h')
    · rw [← hp] at h h'
      exact State.bootSlot_of_none (hbad _ h) (hbad _ h')
  · refine (if_pos ht).trans ?_
    cases errs <;> rfl
  · intro b
    have hb : s.bay n = b := s.bay_fin n
    refine ⟨fun h => ?_, fun h1 h2 h3 => ?_, fun h1 h2 h3 h4 => ?_, fun h1 h2 h3 h4 => ?_⟩
    · rw [State.bringUp, hb]
      exact if_pos (by simpa using h)
    · rw [State.bringUp, hb]
      exact (if_neg (by simp [h1, h2])).trans (if_neg (by simp [h3]))
    · rw [State.bringUp, hb]
      refine (if_neg (by simp [h1, h2])).trans ((if_pos h3).trans ((if_neg (c := b.member.isSome = true) (by simp [h4])).trans
        (State.modBay_congr ?_)))
      rw [hb, h4]
    · rw [State.bringUp, hb]
      exact (if_neg (by simp [h1, h2])).trans ((if_pos h3).trans (if_pos (Option.isSome_iff_ne_none.mpr h4)))
  · refine ⟨s.madeReady readable, (s.moduleReady_eq readable hb).trans (congrArg (fun u : State => Host.Outcome.next u.towards) (if_pos ?_)), ?_,
      Nvme.built_of_nil hl hd, rfl, rfl, rfl⟩
    · rw [State.madeReady_loss, hl, hd]
      rfl
    · change ({ s.boot with phase := .ready, pointer := s.boot.active, lossDue := !(s.nvme.loss ++ s.nvme.dump).isEmpty } : Boot) = _
      rw [hl, hd]
      rfl
  · have hne' : (s.madeReady readable).nvme.loss.isEmpty = false := by
      rw [State.madeReady_loss]
      simpa using hne
    obtain ⟨hloss, hdump⟩ := (s.madeReady readable).nvEvent_loss 0xC0
    refine ⟨(s.madeReady readable).nvEvent 0xC0,
      (s.moduleReady_eq readable hb).trans (congrArg (fun u : State => Host.Outcome.next u.towards) (if_neg (by simp [hne']))), ?_, hloss, hdump⟩
    refine ((s.madeReady readable).nvEvent_kept 0xC0).1.trans ?_
    change ({ s.boot with phase := .ready, pointer := s.boot.active, lossDue := !(s.madeReady readable).nvme.loss.isEmpty } : Boot) = _
    rw [hne']
    rfl
  · intro u r
    have he : exec (.weightReload im.id) s = .next (if r.2 = .refused then
        { r.1 with images := r.1.images.map fun i => if i.id == im.id then { i with resident := 0, residentBytes := 0 } else i } else r.1).tidy := by
      change execWeightReload im.id s = _
      rw [execWeightReload, hf]
      exact if_neg (by simp [hr])
    clear_value r
    exact ⟨fun h => by rw [he, if_neg h], fun h => by rw [he, if_pos h]⟩
  · change execControllerEnable s = _
    rw [execControllerEnable, he]
    rfl

end Sys2Proof.Machine
end

section
/-! Watchdogs, power losses and resets (O12, O13). -/

namespace Sys2Proof.Machine

/-- What a reset clears, whatever the state was. -/
structure State.Clear (t : State) : Prop where
  token : t.sec.token = none
  version : t.sec.versionOk = false
  algorithms : t.sec.algorithmsOk = false
  ports : t.ports = Vector.replicate 4 {}
  buffer : t.nvme.buffer = []
  intents : t.nvme.intents = []
  sq : t.host.sq = Vector.replicate 8 (Vector.replicate 16 {})
  regions : t.tiers.regions = []
  staged : t.boot.staged = []
  hold : t.boot.hold = none

/-- Clearness is of the host's interface and the objects it names. -/
theorem State.Clear.of_objects {t u : State} (h : t.Clear) (ho : u.objects = t.objects) (hh : u.host = t.host) : u.Clear where
  token := (congrArg (fun o => o.sec.token) ho).trans h.token
  version := (congrArg (fun o => o.sec.versionOk) ho).trans h.version
  algorithms := (congrArg (fun o => o.sec.algorithmsOk) ho).trans h.algorithms
  ports := (congrArg Objects.ports ho).trans h.ports
  buffer := (congrArg (fun o => o.nvme.buffer) ho).trans h.buffer
  intents := (congrArg (fun o => o.nvme.intents) ho).trans h.intents
  sq := (congrArg HostIf.sq hh).trans h.sq
  regions := (congrArg (fun o => o.tiers.regions) ho).trans h.regions
  staged := (congrArg (fun o => o.boot.staged) ho).trans h.staged
  hold := (congrArg (fun o => o.boot.hold) ho).trans h.hold

/-- A vector of equal values. -/
theorem map_const_eq {α β : Type} {n : Nat} (v : Vector α n) (b : β) : v.map (fun _ => b) = Vector.replicate n b := by
  ext i hi
  simp

/-- The pots anew, and the lost layers counted, leave what is clear. -/
theorem State.Clear.freshPots {t : State} (h : t.Clear) : t.freshPots.Clear :=
  ⟨h.token, h.version, h.algorithms, h.ports, h.buffer, h.intents, h.sq, h.regions, h.staged, h.hold⟩

theorem countLost_objects (lost : List Nat) (t : State) : (lost.foldl (fun s p => s.count 2 p 32 1) t).objects = t.objects :=
  objects_foldl (fun s p => s.count_objects 2 p 32 1) lost t

theorem countLost_host (lost : List Nat) (t : State) : (lost.foldl (fun s p => s.count 2 p 32 1) t).host = t.host :=
  foldl_keeps State.host (fun s p => s.count_host 2 p 32 1) lost t

/-- What a cold start clears besides. -/
structure State.Cold (t : State) : Prop extends t.Clear where
  debug : t.sec.debug = .closed
  cores : t.cores = Vector.replicate 48 {}

theorem State.Cold.counted {t : State} (h : t.Cold) (lost : List Nat) : (lost.foldl (fun s p => s.count 2 p 32 1) t).freshPots.Cold where
  toClear := (h.toClear.of_objects (countLost_objects lost t) (countLost_host lost t)).freshPots
  debug := (congrArg (fun o => o.sec.debug) (countLost_objects lost t)).trans h.debug
  cores := (congrArg Objects.cores (countLost_objects lost t)).trans h.cores

/-- What a reset clears is clear; a cold start also clears the debug level and the mapping. -/
theorem State.cleared_clear (s : State) (link : Bool) : (s.cleared false link).Clear := by
  unfold State.cleared
  generalize s.haltWork.cutMedia = u
  exact ⟨rfl, rfl, rfl, rfl, rfl, rfl, rfl, rfl, rfl, rfl⟩

theorem State.cleared_cold (s : State) : (s.cleared true false).Cold := by
  unfold State.cleared
  generalize s.haltWork.cutMedia = u
  exact State.Cold.counted ⟨⟨rfl, rfl, rfl, rfl, rfl, rfl, rfl, rfl, rfl, rfl⟩, rfl, map_const_eq u.cores ({} : Core)⟩ _

/-- The other feed carries the load exactly where it stands. -/
theorem feeds_any {v : Vector Bool 2} {f g : Fin 2} (h : g ≠ f) : (v.set f false).toList.any id = v[g] := by
  have hg : (v.set f false)[g] = v[g] := Vector.getElem_set_ne _ _ (by omega)
  rw [Bool.eq_iff_iff, any_toList_iff]
  refine ⟨fun ⟨i, hi⟩ => ?_, fun hi => ⟨g, hg.trans hi⟩⟩
  by_cases hif : i = f
  · subst hif
    simp at hi
  · have : i = g := by omega
    rwa [this, id, hg] at hi

/-- A power loss leaves what a cold start clears, off or lost, with no feed. -/
theorem State.losePower_cold {s : State} (h1 : s.boot.phase ≠ .off) (h2 : s.boot.phase ≠ .lost) : ∃ u : State, s.losePower =
    ((u.cleared true false).modBoot fun b => { b with
      phase := if s.power.st = 4 ∧ s.power.step = none then .off else .lost, active := 0, version := 0 }).modPower fun p =>
        { p with feeds := Vector.replicate 2 false } := by
  unfold State.losePower
  split
  · contradiction
  · contradiction
  · exact ⟨_, rfl⟩

/-- Settles O12. -/
theorem watchdogsAndPowerLoss : Obligations.WatchdogsAndPowerLoss := by
  unfold Obligations.WatchdogsAndPowerLoss
  refine ⟨fun s => ⟨fun hb ha => ?_, fun hb ha => ?_, fun h1 h2 h3 => if_neg (by simp [h1, h2, h3]), fun cc hr hh => ⟨fun hn ht => ?_, fun ok hor => ?_⟩⟩,
    fun s h1 h2 => ⟨fun f g hgf hg => ?_, fun f g hgf hg => ?_, fun f => if_neg (by simp [h1, h2]), ?_⟩⟩
  · exact (if_neg (by simp [hb])).trans (if_neg (by simp [ha]))
  · exact (if_neg (by simp [hb])).trans (if_pos ha)
  · have ht' : ∀ r ∈ s.boot.restartsAt, ¬ s.time < r.2 + 60000000 := fun r hr => by have := ht r hr; omega
    exact (if_neg fun h => h.elim (· hr) fun h => nomatch hh.symm.trans h).trans ((if_neg (by simpa [hn] using ht)).trans rfl)
  · refine (if_neg fun h => h.elim (· hr) fun h => nomatch hh.symm.trans h).trans (if_pos ?_)
    rcases hor with h | ⟨r, hr', ht⟩
    · simp [Option.isSome_iff_ne_none.mpr h]
    · exact Bool.or_eq_true_iff.mpr (.inr (List.any_eq_true.mpr ⟨r, hr', by simpa using ht⟩))
  · exact (if_neg (by simp [h1, h2])).trans (congrArg Host.Outcome.next (if_pos ((feeds_any hgf).trans hg)))
  · refine (if_neg (by simp [h1, h2])).trans (congrArg Host.Outcome.next (if_neg ?_))
    exact Bool.eq_false_iff.mp ((feeds_any hgf).trans hg)
  · obtain ⟨u, hu⟩ := State.losePower_cold h1 h2
    have hc := u.cleared_cold
    refine ⟨s.losePower, rfl, ?_⟩
    rw [hu]
    exact ⟨rfl, hc.debug, hc.token, hc.ports, hc.buffer, hc.intents, hc.sq, rfl, hc.regions, hc.cores⟩

-- Resets (R394 to R401)

/-- The end of the debug-open transition keeps what is clear. -/
theorem State.Clear.openDebug {t : State} (h : t.Clear) : t.openDebug.Clear := by
  have hm : (t.modSec fun x => { x with debug := .opened }).Clear :=
    ⟨h.token, h.version, h.algorithms, h.ports, h.buffer, h.intents, h.sq, h.regions, h.staged, h.hold⟩
  unfold State.openDebug
  dsimp only
  split
  · obtain ⟨x, hx, hk⟩ := (t.modSec fun x => { x with debug := .opened }).makeMediaKeys_rekeys
    rw [hx]
    exact ⟨(congrArg Sec.token hk).trans hm.token, (congrArg Sec.versionOk hk).trans hm.version, (congrArg Sec.algorithmsOk hk).trans hm.algorithms,
      h.ports, h.buffer, h.intents, h.sq, h.regions, h.staged, h.hold⟩
  · exact hm

/-- A boot keeps what is clear. -/
theorem State.Clear.bootSlot {t : State} (h : t.Clear) (ok : Nat → Bool) : (t.bootSlot ok).Clear := by
  obtain ⟨phase, active, version, hb⟩ := t.bootSlot_boot ok
  rw [hb]
  exact ⟨h.token, h.version, h.algorithms, h.ports, h.buffer, h.intents, h.sq, h.regions, h.staged, h.hold⟩

/-- The reset proper leaves a clear module. -/
theorem State.restart_clear (s : State) (next : Nat) : (s.restart next).Clear := by
  have hc := s.cleared_clear (next == 1 || next == 3)
  unfold State.restart
  generalize s.cleared false (next == 1 || next == 3) = t at hc ⊢
  dsimp only
  have ho : (if t.sec.debugKeys && t.sec.debug != .opened then t.openDebug else t).Clear := by
    split
    · exact hc.openDebug
    · exact hc
  split
  · exact ho.bootSlot _
  · exact ho.bootSlot _

theorem State.anyReset_host (s : State) : s.anyReset.host = s.host := by
  change (s.stopTrace 4 0 true).host = s.host
  unfold State.stopTrace
  split
  · rfl
  · exact State.count_host _ _ _ _ _

theorem State.anyReset_boot (s : State) : s.anyReset.boot = s.boot := congrArg Objects.boot (s.stopTrace_objects 4 0 true)

theorem State.anyReset_nvme (s : State) : s.anyReset.nvme = s.nvme := congrArg Objects.nvme (s.stopTrace_objects 4 0 true)

/-- Settles O13. -/
theorem resetsRestartTheModule : Obligations.ResetsRestartTheModule := by
  unfold Obligations.ResetsRestartTheModule
  refine ⟨fun s => ⟨rfl, rfl, rfl, rfl, fun fn v h => ?_, fun k hk => ⟨fun n => ?_, fun hw => ?_, fun hw hb => ?_, ?_⟩⟩, fun s => ?_⟩
  · exact congrArg Host.Outcome.next (if_neg fun h' => h.elim (· h'.1) (· h'.2))
  · unfold State.startDrain
    rw [hk]
  · let u := ((s.modNvme fun n => { n with waits := [], aers := [] }).drainBuffer.cutMedia.persistCounters).modMedia fun m => { m with orderly := true }
    have hc := u.restart_clear k
    refine ⟨u.restart k, ?_, hc.token, hc.version, hc.algorithms, hc.ports, hc.sq, hc.staged, hc.hold⟩
    change execResetDrainDone s = _
    rw [execResetDrainDone, hk]
    exact if_neg (by rcases hw with h | h <;> simp [h])
  · change execResetDrainDone s = _
    rw [execResetDrainDone, hk]
    exact if_pos (by simp [hw, hb])
  · let u := (s.dumpIntents false).modMedia fun m => { m with orderly := false }
    have hc := u.restart_clear k
    refine ⟨u.restart k, ?_, hc.token, hc.version, hc.algorithms, hc.ports, hc.sq, hc.staged, hc.hold⟩
    change execResetDrainExpiry s = _
    rw [execResetDrainExpiry, hk]
  · intro r
    have hhost : r.host = s.host := s.anyReset_host
    have hboot : r.boot = s.boot := s.anyReset_boot
    have hnvme : r.nvme = s.nvme := s.anyReset_nvme
    refine ⟨rfl, ?_, fun vf hvf => ?_, fun n hn => ?_, ?_⟩
    · rw [← hhost, ← hboot]
      rfl
    · refine (if_neg (by omega)).trans ?_
      rw [← hhost]
      rfl
    · refine (if_neg fun h => hn h.symm).trans ?_
      have hn' : (r.modHost fun h => { h with numVfs := n.val }) = { r with host := { s.host with numVfs := n.val } } := by
        rw [State.modHost, hhost]
      rw [← hn']
    · refine congrArg (fun v : Nvme => Host.Outcome.next { r with nvme := { v with
        enabled := false, ready := false, cfs := false, cqs := [], sqs := [], waits := [], aers := [], events := [], hmb := none
        buffer := v.buffer.filter fun b => s.acked b.seq } }) hnvme

end Sys2Proof.Machine
end

section
/-! Reads of leaves and centroid pages (O32). -/

namespace Sys2Proof.Machine

section
variable {s : State} {r : LeafRead} {pg : Bytes} {bays : BitVec 8}

/-- A read in flight whose copy comes without a wait for an operation slot. -/
theorem leafReadComplete_of (hr : s.reads.find? (·.key == r.key) = some r) (hc : r.cent = false)
    (hw : ((s.media.ops.drop 131072).any fun o => o.kind == 0 && o.read == r.key) = false) :
    exec (.leafReadComplete r.key pg) s =
      if r.passes pg then .next (s.deliver r pg).feed.tidy else .next (s.originalBad r.key true).feed.tidy := by
  change execLeafReadComplete r.key pg s = _
  rw [execLeafReadComplete, hr]
  exact if_neg (by simp [hc, hw])

/-- A reconstruction in progress whose page is good. -/
theorem reconstructComplete_of_good (hr : s.reads.find? (·.key == r.key) = some r) (hb : r.rebuilding = true) (hp : r.passes pg = true) :
    exec (.reconstructComplete r.key (some pg) bays) s = .next (s.deliver r pg).feed.tidy := by
  change execReconstructComplete r.key (some pg) bays s = _
  rw [execReconstructComplete, hr]
  refine (if_neg (by simp [hb])).trans ?_
  rw [Option.filter_some, hp]
  rfl

/-- A reconstruction in progress that gives no good page. -/
theorem reconstructComplete_of_bad {page : Option Bytes} (hr : s.reads.find? (·.key == r.key) = some r) (hb : r.rebuilding = true)
    (hp : page.filter r.passes = none) : exec (.reconstructComplete r.key page bays) s =
      .next ((s.modRead r.key fun r => { r with check := r.check || page.isSome, rebuildBad := some bays, rebuilding := false }).settleRead r.key
        ).feed.tidy := by
  change execReconstructComplete r.key page bays s = _
  rw [execReconstructComplete, hr]
  refine (if_neg (by simp [hb])).trans ?_
  rw [hp]

end

/-- Settles O32. -/
theorem leafReadsEnd : Obligations.LeafReadsEnd := by
  unfold Obligations.LeafReadsEnd
  refine ⟨fun s r pg bays hr => ?_, fun s c k pg hc => ?_⟩
  · intro good waits
    have hgood : r.cent = false → r.passes pg = good := fun hc => if_neg (by simp [hc])
    refine ⟨fun hc hw hg => ?_, fun hc hw hg => ⟨_, ?_, rfl⟩, fun hw => ?_, rfl, fun hb hp => reconstructComplete_of_good hr hb hp,
      fun hb hp => ?_, fun hb => ?_, fun hb p => ?_, fun hc ho hb => ?_, fun hc ho hb => ?_, fun h => ?_⟩
    · exact (leafReadComplete_of hr hc hw).trans (if_pos ((hgood hc).trans hg))
    · refine (leafReadComplete_of hr hc hw).trans ((if_neg (by simp [hgood hc, hg])).trans ?_)
      simp only [State.originalBad, State.modRead, Bool.or_true]
    · change execLeafReadComplete r.key pg s = _
      rw [execLeafReadComplete, hr]
      exact if_pos (Bool.or_eq_true_iff.mpr (.inr hw))
    · refine ⟨_, reconstructComplete_of_bad hr hb (by simp [hp]), ?_, rfl, rfl, rfl⟩
      simp only [State.modRead, Option.isSome_some, Bool.or_true]
    · refine ⟨_, reconstructComplete_of_bad hr hb rfl, ?_, rfl, rfl, rfl⟩
      simp only [State.modRead, Option.isSome_none, Bool.or_false]
    · change execReconstructComplete r.key p bays s = _
      rw [execReconstructComplete, hr]
      exact if_pos (by simp [hb])
    · intro e
      rw [State.settleRead, hr]
      dsimp only
      rw [ho, hb]
      exact if_neg (by simp [hc])
    · rw [State.settleRead, hr]
      dsimp only
      rw [ho, hb]
      exact if_pos hc
    · rw [State.settleRead, hr]
      dsimp only
      split
      next b ho hb => rcases h with h | h <;> simp_all
      next => rfl
  · intro want
    have hpot : s.spacePot false c.id = c.pot := by simp [State.spacePot, hc]
    have hsame : ∀ r, s.reads.find? want.same = some r → r.passes pg = centroidOk pg c.id (71 * k) := by
      intro r hr
      have hs := List.find?_some hr
      simp only [LeafRead.same, Bool.and_eq_true, beq_iff_eq, want] at hs
      obtain ⟨⟨⟨⟨⟨⟨hcent, hspace⟩, -⟩, -⟩, -⟩, hindex⟩, -⟩ := hs
      rw [LeafRead.passes, ← hcent, ← hspace, ← hindex]
      rfl
    have he : ∀ r, s.reads.find? want.same = some r → exec (.centroidPageRead c.id k pg) s =
        if r.passes pg then .next (s.deliver r pg).feed.tidy else .next (s.originalBad r.key true).feed.tidy := by
      intro r hr
      change execCentroidPageRead c.id k pg s = _
      rw [execCentroidPageRead, hc]
      dsimp only
      rw [hr]
    have hn : s.reads.find? want.same = none → exec (.centroidPageRead c.id k pg) s =
        if centroidOk pg c.id (71 * k) then .next (s.takePage want pg) else .next s := by
      intro hr
      change execCentroidPageRead c.id k pg s = _
      rw [execCentroidPageRead, hc]
      dsimp only
      rw [hr]
      rfl
    refine ⟨fun r hr hok => (he r hr).trans (if_pos ((hsame r hr).trans hok)), fun r hr hbad => (he r hr).trans (if_neg ?_), fun hr hok => ?_,
      fun hr hbad => (hn hr).trans (if_neg (by simp [hbad]))⟩
    · rw [hsame r hr, hbad]
      exact Bool.false_ne_true
    · refine (hn hr).trans ((if_pos hok).trans ?_)
      rw [State.takePage]
      change Host.Outcome.next (State.cache _ { key := .centroid c.id k, pot := s.spacePot false c.id, cls := .cached, size := 18432 }) = _
      rw [hpot]
      rfl

end Sys2Proof.Machine
end

section
/-! Step boundaries and tail leaves (O33). -/

namespace Sys2Proof.Machine

/-- A step boundary of a pot that some job drives, or whose belt carries cups of other modules. -/
theorem stepBoundary_of_driven {s : State} {p : Fin 8} {outs : List StepOut} {queries : List StepQ} {d : Option Job}
    (hd : d = (s.runningJob p).filter fun j => j.type == 0x04 && j.phase == .admitted && j.sliced) (h : d ≠ none ∨ s.strayBelt p = true) :
    exec (.stepBoundary p outs queries) s =
      if ((s.feedStep p).pot p).loop.running then
        if (s.feedStep p).stepOver p d then .next (((s.feedStep p).endStep p outs).boundary p d queries).tidy else .next (s.feedStep p)
      else .next ((s.feedStep p).boundary p d queries).tidy := by
  subst hd
  refine if_neg fun h' => ?_
  rw [Bool.and_eq_true, Option.isNone_iff_eq_none, Bool.not_eq_true'] at h'
  exact h.elim (· h'.1) fun h => by rw [h] at h'; exact nomatch h'.2

/-- A step boundary of a pot that nothing drives. -/
theorem stepBoundary_of_idle {s : State} {p : Fin 8} {outs : List StepOut} {queries : List StepQ}
    (hd : ((s.runningJob p).filter fun j => j.type == 0x04 && j.phase == .admitted && j.sliced) = none) (h : s.strayBelt p = false) :
    exec (.stepBoundary p outs queries) s =
      if (s.pot p).loop.running && s.jobs.any fun j => j.pot == p.val && j.type == 0x04 then .next s
      else .next ((s.modPot p fun q => { q with loop := { q.loop with
        running := false, between := false, pinned := [], spaces := [], peers := [], selected := [], queued := [], queries := none
        asked := [], records := [] } }).releaseLeft p).tidy := by
  refine if_pos ?_
  rw [hd, h]
  rfl

/-- A boundary of a belt that does not stop, driven by a job. -/
theorem State.boundary_of_job {t : State} {p : Fin 8} (j : Job) (queries : List StepQ) (h : (t.pot p).st ≠ 2) :
    t.boundary p (some j) queries =
      (let v := if (t.pot p).loop.between then t else t.boundaryWork p
       if v.preempting p then (if v.xfersOf j.key then v else (v.preempt p j.key).reschedule p)
       else if v.boot.hold.isSome || !v.coresOn then v
       else v.afterBoundary p (some j) queries) :=
  if_neg (by simpa using h)

/-- A tail leaf whose cup stands, while writes are possible. -/
theorem tailLeafProgramDone_of {s : State} {p : Fin 8} {c : Cup} {layer head index : Nat} (hc : s.cup? c.idx = some c) (hw : s.writeOk = true) :
    exec (.tailLeafProgramDone p c.idx layer head index) s =
      if (s.pot p).loop.growth.contains (c.idx, layer, head, index) then
        .next (((s.modPot p fun q => { q with loop := { q.loop with growth := q.loop.growth.erase (c.idx, layer, head, index) } }).dropEntries fun e =>
          e.key == .growth c.idx layer head index).cache { key := .leaf c.tail layer head index 0, pot := p, cls := .cached, size := 18432 })
      else .next (s.modPot p fun q => { q with loop := { q.loop with tailWait := q.loop.tailWait.erase (c.idx, layer, head, index) } }) := by
  have hs : ∀ (b : Bool) (t : State), (if (s.writeOk || b) = true then s else t) = s := fun b t => if_pos (by rw [hw, Bool.true_or])
  change execTailLeafProgramDone p c.idx layer head index s = _
  rw [execTailLeafProgramDone, hc]
  dsimp only
  rw [hs]
  by_cases h : (s.pot p).loop.growth.contains (c.idx, layer, head, index) = true
  · rw [if_pos h, if_pos h]
    split
    next c' hc' =>
      obtain rfl := Option.some.inj (hc'.symm.trans hc)
      rfl
    next hc' => exact nomatch hc'.symm.trans hc
  · rw [if_neg h, if_neg h]

/-- Settles O33. -/
theorem stepBoundariesRun : Obligations.StepBoundariesRun := by
  unfold Obligations.StepBoundariesRun
  refine ⟨fun s p outs queries => ?_, fun s p c layer head index hc hw => ?_⟩
  · intro d u
    have hdrive : d ≠ none ∨ s.strayBelt p = true → exec (.stepBoundary p outs queries) s =
        if (u.pot p).loop.running then (if u.stepOver p d then .next ((u.endStep p outs).boundary p d queries).tidy else .next u)
        else .next (u.boundary p d queries).tidy := stepBoundary_of_driven rfl
    refine ⟨fun hd => ⟨fun hr ho => ?_, fun hr ho => ?_, fun hr => ?_⟩, fun hd hb hr hj => ?_, fun hd hb h => ?_, fun t ht => ?_,
      fun t j ht => ?_, fun t => rfl⟩
    · exact (hdrive hd).trans ((if_pos hr).trans (if_pos ho))
    · exact (hdrive hd).trans ((if_pos hr).trans (if_neg (by simp [ho])))
    · exact (hdrive hd).trans (if_neg (by simp [hr]))
    · refine (stepBoundary_of_idle hd hb).trans (if_pos ?_)
      obtain ⟨j, hj, hp, ht⟩ := hj
      rw [hr, Bool.true_and, List.any_eq_true]
      exact ⟨j, hj, by simp [hp, ht]⟩
    · refine (stepBoundary_of_idle hd hb).trans (if_neg ?_)
      rcases h with h | h
      · simp [h]
      · have hno : (s.jobs.any fun j => j.pot == p.val && j.type == 0x04) = false := by simpa using h
        rw [hno, Bool.and_false]
        exact Bool.false_ne_true
    · exact if_pos (by simp [ht])
    · intro v
      have hv := State.boundary_of_job (p := p) j queries ht
      refine ⟨fun hp hh hc => hv.trans ((if_neg ?_).trans (if_neg ?_)), fun hp hx => hv.trans ((if_pos hp).trans (if_pos hx)),
        fun hp hx => hv.trans ((if_pos hp).trans (if_neg ?_))⟩
      · exact Bool.eq_false_iff.mp hp
      · change ¬ (v.boot.hold.isSome || !v.coresOn) = true
        simp [hh, hc]
      · exact Bool.eq_false_iff.mp hx
  · intro w l
    have he := tailLeafProgramDone_of (p := p) (layer := layer) (head := head) (index := index) hc hw
    have hg : exec (.groupStepLimitExpiry p) s =
        if (l.running && s.recordsDue p) || (l.between && !l.peers.isEmpty) then .next (s.loseStep p 0x22).tidy else .next s := rfl
    refine ⟨fun hin => ⟨_, rfl, he.trans ((if_pos (by simpa using hin)).trans ?_)⟩, fun hout => he.trans ((if_neg (by simpa using hout)).trans ?_),
      fun h => hg.trans (if_pos ?_), fun h h' => hg.trans (if_neg ?_), fun st => rfl⟩
    · exact congrArg (fun u : State => Host.Outcome.next ((u.dropEntries fun e => e.key == .growth c.idx layer head index).cache
        { key := .leaf c.tail layer head index 0, pot := p, cls := .cached, size := 18432 })) (s.modPot_fin p _)
    · exact congrArg Host.Outcome.next (s.modPot_fin p _)
    · rcases h with ⟨h1, h2⟩ | ⟨h1, h2⟩
      · simp [h1, h2]
      · simp [h1, h2]
    · rcases h with h | h <;> rcases h' with h' | h' <;> simp [h, h']

end Sys2Proof.Machine
end

section
/-! Commits of a steep (O34). -/

namespace Sys2Proof.Machine

/-- A steep whose commit is durable goes on with its next stage or layer. -/
def State.steepOn (key : Nat) (t : State) : State :=
  match t.job? key with
  | some k => (t.startSteep k).tidy
  | none => t.tidy

section
variable {s : State} {d : StageData} {j : Job} {c : Corpus} (hs : s.steeping j.key = some (j, c)) (hw : s.writeOk = true)
include hs hw

/-- The commit of stage 0 with its collection and image. -/
theorem steepCommit_of_stage0 {k : Coll} {im : Image} (h : c.mark.stage = 0) (hk : s.coll? c.coll = some k) (him : s.image? j.imageId = some im) :
    exec (.steepCheckpointCommit j.key d) s = match s.steepRecords j k im.vocab c.tokens with
      | .ok recs => .next ((s.commitStaged j c k recs).steepOn j.key)
      | .error e => .next (s.abortJob j.key e).tidy := by
  change execSteepCheckpointCommit j.key d s = _
  rw [execSteepCheckpointCommit, hs]
  refine (if_neg (by simp [hw])).trans ?_
  dsimp only
  rw [h, hk, him]
  rfl

/-- The commit of stage 1. -/
theorem steepCommit_of_stage1 (h : c.mark.stage = 1) : exec (.steepCheckpointCommit j.key d) s =
    .next ((s.modCorpus c.id fun c => { c with vecs := d.vectors, mark := { c.mark with stage := 2 } }).steepOn j.key) := by
  change execSteepCheckpointCommit j.key d s = _
  rw [execSteepCheckpointCommit, hs]
  refine (if_neg (by simp [hw])).trans ?_
  dsimp only
  rw [h]
  rfl

/-- The commit of stage 2 with its collection. -/
theorem steepCommit_of_stage2 {k : Coll} (h : c.mark.stage = 2) (hk : s.coll? c.coll = some k) :
    exec (.steepCheckpointCommit j.key d) s = .next ((s.commitIndexed c k).steepOn j.key) := by
  change execSteepCheckpointCommit j.key d s = _
  rw [execSteepCheckpointCommit, hs]
  refine (if_neg (by simp [hw])).trans ?_
  dsimp only
  rw [h, hk]
  rfl

/-- The commit of a layer. -/
theorem steepCommit_of_layer (h : 3 ≤ c.mark.stage) : exec (.steepCheckpointCommit j.key d) s =
    if (decide (c.range.1 + c.range.2 ≤ Nat.max c.range.1 c.mark.layers) || s.outsDue c (Nat.max c.range.1 c.mark.layers)) = true then .next s
    else if Nat.max c.range.1 c.mark.layers + 1 < c.range.1 + c.range.2 then
      .next (((s.commitLayer c (Nat.max c.range.1 c.mark.layers) d).sendPrefill j c (Nat.max c.range.1 c.mark.layers) d.outs).steepOn j.key)
    else .next (((s.commitLayer c (Nat.max c.range.1 c.mark.layers) d).sendPrefill j c (Nat.max c.range.1 c.mark.layers) d.outs).finishSteep j c).tidy := by
  obtain ⟨n, hn⟩ := Nat.exists_eq_add_of_le' h
  change execSteepCheckpointCommit j.key d s = _
  rw [execSteepCheckpointCommit, hs]
  refine (if_neg (by simp [hw])).trans ?_
  dsimp only
  rw [hn]
  rfl

end

/-- A steep that is not sharded awaits no outputs and sends none. -/
theorem State.outsDue_of_unsharded (s : State) {c : Corpus} (h : c.shard.1 = 0) (layer : Nat) : s.outsDue c layer = false := by
  simp [State.outsDue, h]

theorem State.sendPrefill_of_unsharded (s : State) (j : Job) {c : Corpus} (h : c.shard.1 = 0) (layer : Nat) (l : List HeadOut) :
    s.sendPrefill j c layer l = s := if_pos h

/-- Settles O34. -/
theorem steepsCommitInOrder : Obligations.SteepsCommitInOrder := by
  unfold Obligations.SteepsCommitInOrder
  intro s d j c hs next
  refine ⟨fun hw => ?_, fun hw => ⟨fun k im recs h hk him hr => ?_, fun k im e h hk him hr => ?_, fun h => steepCommit_of_stage1 hs hw h,
    fun k h hk => steepCommit_of_stage2 hs hw h hk, fun h hc hl => ?_, fun h hc hl => ?_, fun h hd => ?_, fun h hd hl => ?_, fun h hl => ?_⟩⟩
  · change execSteepCheckpointCommit j.key d s = _
    rw [execSteepCheckpointCommit, hs]
    exact if_pos (by simp [hw])
  · rw [steepCommit_of_stage0 hs hw h hk him, hr]
    rfl
  · rw [steepCommit_of_stage0 hs hw h hk him, hr]
  · refine (steepCommit_of_layer hs hw h).trans ((if_neg ?_).trans ((if_pos hl).trans ?_))
    · rw [s.outsDue_of_unsharded hc, Bool.or_false, decide_eq_true_eq]
      omega
    · rw [State.sendPrefill_of_unsharded _ _ hc]
      rfl
  · refine (steepCommit_of_layer hs hw h).trans ((if_neg ?_).trans ((if_neg (by omega)).trans ?_))
    · rw [s.outsDue_of_unsharded hc, Bool.or_false, decide_eq_true_eq]
      omega
    · rw [State.sendPrefill_of_unsharded _ _ hc]
  · exact (steepCommit_of_layer hs hw h).trans (if_pos (by rw [hd, Bool.or_true]))
  · refine (steepCommit_of_layer hs hw h).trans ((if_neg ?_).trans (if_pos hl))
    rw [hd, Bool.or_false, decide_eq_true_eq]
    omega
  · exact (steepCommit_of_layer hs hw h).trans (if_pos (by rw [decide_eq_true hl, Bool.true_or]))

end Sys2Proof.Machine
end

section
/-! The strainer, searches and mending (O35). -/

namespace Sys2Proof.Machine

section
variable {s : State} {c : Coll} {page : Option Bytes}

/-- A column page that a strain waits for, of a collection that stands. -/
theorem strainerPageEval_of {x : Strain} {col first : Nat} {p : Nat × Nat × Nat}
    (hx : s.strains.find? (fun y => y.job == x.job && y.item == x.item) = some x) (hc : s.coll? x.coll = some c)
    (hp : x.pages.find? (fun p => p.1 == col && p.2.1 == first) = some p) :
    exec (.strainerPageEval x.job x.item col first page) s =
      (let key : CollPage := { kind := 1, column := col, first := first }
       if !s.cached (c.pageKey key) && page.isNone then .next (s.failStrain x.job x.item).tidy
       else if s.cached (c.pageKey key) || (page.map (c.pageOk first)).getD false then
         .next ((s.usePage c key).strainStep { x with pages := x.pages.erase p, since := s.time, rebuilding := false }).tidy
       else .next { s with strains := s.strains.map fun y => if y.job == x.job && y.item == x.item then { y with rebuilding := true } else y }) := by
  change execStrainerPageEval x.job x.item col first page s = _
  simp only [execStrainerPageEval, hx, hc, hp]

/-- A list page that a search waits for, of a collection that stands. -/
theorem searchExpansion_of {x : Searching} (hx : s.search? x.job x.item = some x) (hc : s.coll? x.coll = some c) (ho : x.isOver = false)
    (hl : x.lostPages.contains ((x.front.map c.listPage).getD 0) = false) :
    exec (.searchExpansion x.job x.item page) s =
      (let p := (x.front.map c.listPage).getD 0
       let key : CollPage := { kind := 3, first := p * c.listsPer }
       if !s.cached (c.pageKey key) && page.isNone then .next (s.expandSearch c x false)
       else if s.cached (c.pageKey key) || (page.map (c.pageOk (p * c.listsPer))).getD false then .next ((s.usePage c key).expandSearch c x true)
       else .next { s with searches := s.searches.map fun y => if y.job == x.job && y.item == x.item then { y with rebuilding := true } else y }) := by
  change execSearchExpansion x.job x.item page s = _
  simp only [execSearchExpansion, hx, hc, ho, hl, Bool.false_or]
  exact if_neg Bool.false_ne_true

end

/-- Of a page that is here, or comes whole, the first test fails and the second passes. -/
theorem page_good {here : Bool} {page : Option Bytes} {ok : Bytes → Bool} (h : here = true ∨ ∃ b, page = some b ∧ ok b = true) :
    (!here && page.isNone) = false ∧ (here || (page.map ok).getD false) = true := by
  rcases h with rfl | ⟨b, rfl, hb⟩
  · exact ⟨rfl, rfl⟩
  · simp [hb]

/-- Settles O35. -/
theorem collectionEventsRun : Obligations.CollectionEventsRun := by
  unfold Obligations.CollectionEventsRun
  refine fun s => ⟨fun x c col first p hx hc hp => ?_, fun x c hx hc ho => ?_, fun x c j r bad hx hc ho hj hr => ?_, fun c hc hr hs => ?_, fun c hc hr => ?_⟩
  · intro key
    refine ⟨fun page h => (strainerPageEval_of hx hc hp).trans ?_, fun h => (strainerPageEval_of hx hc hp).trans (if_pos ?_),
      fun b h hb => (strainerPageEval_of hx hc hp).trans ((if_neg ?_).trans (if_neg ?_))⟩
    · obtain ⟨h1, h2⟩ := page_good h
      exact (if_neg (Bool.eq_false_iff.mp h1)).trans (if_pos h2)
    · simp [key, h]
    · simp
    · simp [key, h, hb]
  · intro p key hl
    refine ⟨fun page h => (searchExpansion_of hx hc ho hl).trans ?_, fun h => (searchExpansion_of hx hc ho hl).trans (if_pos ?_),
      fun b h hb => (searchExpansion_of hx hc ho hl).trans ((if_neg ?_).trans (if_neg ?_))⟩
    · obtain ⟨h1, h2⟩ := page_good h
      exact (if_neg (Bool.eq_false_iff.mp h1)).trans (if_pos h2)
    · simp [key, p, h]
    · simp
    · simp [key, p, h, hb]
  · change execSearchRerank x.job x.item bad s = _
    have hb : ((s.job? x.job).bind fun j => s.itemRec j x.item) = some r := by rw [hj]; exact hr
    rw [execSearchRerank, hx]
    dsimp only
    rw [hc, hb]
    exact if_neg (by simp [ho])
  · change execMendingPassEnd c.id s = _
    rw [execMendingPassEnd, hc]
    exact if_neg (by simpa [hr] using hs)
  · change execMendingPassEnd c.id s = _
    rw [execMendingPassEnd, hc]
    exact if_pos (by simp [hr])

end Sys2Proof.Machine
end

section
/-! The hot shelf (O36), and what arrives for tables and bags (O37). -/

namespace Sys2Proof.Machine

section
variable {s : State} {t : Table} {row : Nat} (ht : s.table? t.id = some t)
include ht

/-- The redirect entry of a row of a table that stands. -/
theorem State.redirect_of {r : Redirect} (hr : t.redirect.lookup row = some r) :
    ((s.table? t.id).bind fun t => (t.redirect.lookup row).map fun r => (t, r)) = some (t, r) := by
  rw [ht, Option.bind_some, hr]
  rfl

theorem State.redirect_of_none (hr : t.redirect.lookup row = none) :
    ((s.table? t.id).bind fun t => (t.redirect.lookup row).map fun r => (t, r)) = none := by
  rw [ht, Option.bind_some, hr]
  rfl

/-- A promotion that is abandoned. -/
theorem State.abandon_copy (hr : t.redirect.lookup row = some .copy) : s.abandon t.id row =
    (let h := ((s.setRedirect t.id row none).modTable t.id fun t => { t with shelf := t.shelf.filter (·.row != row) }).takeHeld t.id row
     let u := h.1.count 2 t.pot 37 1
     ((u.modEmbed fun e => { e with
       bar := e.bar.filter (fun b => !(b.1 == t.id && b.2.1 == row)) ++ [(t.id, row, u.time + 10000)] }).applyHeld h.2 false).promoteHot (quadOf row)) := by
  unfold State.abandon
  rw [State.redirect_of ht hr]
  dsimp only
  rw [show ∀ v : State, (v.count 2 t.pot 37 1).time = v.time from fun v => congrArg Objects.time (v.count_objects 2 t.pot 37 1)]

/-- A demotion that is abandoned. -/
theorem State.abandon_demote (hr : t.redirect.lookup row = some .demote) : s.abandon t.id row =
    (let h := (s.setRedirect t.id row (some .shelf)).takeHeld t.id row
     ((h.1.count 2 t.pot 37 1).applyHeld h.2 true).promoteHot (quadOf row)) := by
  unfold State.abandon
  rw [State.redirect_of ht hr]

/-- A row that does not migrate has nothing to abandon. -/
theorem State.abandon_of_still (hr : t.redirect.lookup row = none ∨ t.redirect.lookup row = some .shelf) : s.abandon t.id row = s := by
  unfold State.abandon
  rcases hr with hr | hr
  · rw [State.redirect_of_none ht hr]
  · rw [State.redirect_of ht hr]

end

/-- Settles O36. -/
theorem shelfMigrationsEnd : Obligations.ShelfMigrationsEnd := by
  unfold Obligations.ShelfMigrationsEnd
  refine fun s t row ht => ⟨fun hr => ?_, fun hr => ?_, fun hr => congrArg Host.Outcome.next (State.abandon_copy ht hr),
    fun hr => congrArg Host.Outcome.next (State.abandon_demote ht hr), fun hr => congrArg Host.Outcome.next (State.abandon_of_still ht hr),
    fun hs => ?_, fun hs => ?_, fun q => rfl⟩
  · change execShelfRedirectFlip t.id row s = _
    rw [execShelfRedirectFlip, State.redirect_of ht hr]
  · change execShelfRedirectFlip t.id row s = _
    unfold execShelfRedirectFlip
    cases h : t.redirect.lookup row with
    | none => rw [State.redirect_of_none ht h]
    | some r =>
      rw [State.redirect_of ht h]
      cases r with
      | copy => exact absurd h hr
      | _ => rfl
  · change execShelfDemotion t.id row s = _
    rw [execShelfDemotion, ht]
    exact if_neg (by simp [hs])
  · change execShelfDemotion t.id row s = _
    rw [execShelfDemotion, ht]
    exact if_pos (by simp [hs])

-- Arrivals (R345)

section
variable {s : State} {n : Nat} {a : Arrive} {grad : Bool}

/-- The state without an arrival. -/
def State.withoutArrival (s : State) (n : Nat) : State := { s with embed := { s.embed with arrivals := s.embed.arrivals.eraseIdx n } }

/-- A change of a row that migrates is held; a full buffer abandons the migration. -/
def State.holdArrive (s : State) (a : Arrive) : State :=
  let q := quadOf a.row
  let b := s.embed.buffer[q]?.getD [] ++ [a]
  let s := s.modEmbed fun e => { e with buffer := e.buffer.setIfInBounds q b }
  if b.length < 64 then s else s.abandon a.table a.row

variable (h : s.embed.takeable n grad = some a) (hs : a.link = none ∨ s.saving a.table = false)
include h hs

theorem State.arrival_of : ((s.embed.takeable n grad).filter fun a => a.link.isNone || !s.saving a.table) = some a := by
  rw [h, Option.filter_some]
  exact if_pos (by rcases hs with hs | hs <;> simp [hs])

/-- An arrival whose table has gone is acknowledged alone. -/
theorem State.takeArrival_of_noTable (ht : s.table? a.table = none) : s.takeArrival n grad = (s.withoutArrival n).acknowledge a := by
  unfold State.takeArrival
  rw [State.arrival_of h hs]
  dsimp only
  rw [show (State.table? (s.modEmbed fun e => { e with arrivals := e.arrivals.eraseIdx n }) a.table) = none from ht]
  rfl

/-- An arrival for a table goes where its row's redirect entry says, once the access is counted. -/
theorem State.takeArrival_of_table {t v : Table} {u : State} (ht : (s.withoutArrival n).table? a.table = some t)
    (hu : (s.withoutArrival n).access a.table a.row = u) (hv : u.table? a.table = some v) :
    s.takeArrival n grad = match v.redirect.lookup a.row with
      | some .copy => u.holdArrive a
      | some .demote => u.holdArrive a
      | some .shelf => (u.applyArrive a true).acknowledge a
      | none => (u.applyArrive a false).acknowledge a := by
  unfold State.takeArrival
  rw [State.arrival_of h hs]
  dsimp only
  have hu' : (s.modEmbed fun e => { e with arrivals := e.arrivals.eraseIdx n }).access a.table a.row = u := hu
  split
  next ht' => exact nomatch ht'.symm.trans ht
  next t' ht' =>
    rw [hu', hv, Option.getD_some]
    rfl

end

/-- An arrival from a link waits while a save of its table runs. -/
theorem State.takeArrival_of_saving {s : State} {n : Nat} {a : Arrive} {grad : Bool} (h : s.embed.takeable n grad = some a) (hl : a.link ≠ none)
    (hs : s.saving a.table = true) : s.takeArrival n grad = s := by
  have hf : ((s.embed.takeable n grad).filter fun a => a.link.isNone || !s.saving a.table) = none := by
    rw [h, Option.filter_some]
    exact if_neg (by simp [hl, hs])
  unfold State.takeArrival
  rw [hf]

section
variable {s : State} {w : BagWait}

/-- The bag items that wait, without one. -/
def Embed.withoutBag (e : Embed) (job item : Nat) : Embed := { e with bags := e.bags.filter fun x => !(x.job == job && x.item == item) }

/-- A member's part of a bag item that awaits it. -/
theorem State.partReceived_of {j : Job} {t : Table} {m : Nat} {part : Bytes}
    (hw : s.embed.bags.find? (fun x => x.job == w.job && x.item == w.item) = some w) (hj : s.job? w.job = some j)
    (ht : s.table? (j.f 0x30 4) = some t) (hm : m ∈ w.left) :
    s.partReceived w.job w.item m part =
      (let acc := t.joinPart s.free m w.acc part
       if (w.left.erase m).isEmpty then ((s.used.modEmbed fun e => e.withoutBag w.job w.item).finishBag w.job w.item acc).tidy
       else s.used.modEmbed fun e => { e with bags := e.bags.map fun x =>
         if x.job == w.job && x.item == w.item then { x with left := w.left.erase m, acc := acc } else x }) := by
  have hb : ((s.job? w.job).bind fun j => s.table? (j.f 0x30 4)) = some t := by rw [hj]; exact ht
  rw [State.partReceived, hw]
  dsimp only
  rw [hb]
  exact if_neg (by simp [hm])

/-- A bag item whose wait ends, and which no row change holds afterwards. -/
theorem State.endWait_of_bag {u : State} {st : Nat} (hw : s.embed.bags.find? (fun x => x.job == w.job && x.item == w.item) = some w)
    (hu : u = (s.modEmbed fun e => e.withoutBag w.job w.item).complete w.job w.item fun i => i.fail st)
    (hno : ∀ x ∈ u.embed.waits, ¬ (x.job = w.job ∧ x.item = w.item)) : s.endWait w.job w.item st = u := by
  have hany : (s.embed.bags.any fun x => x.job == w.job && x.item == w.item) = true :=
    List.any_eq_true.mpr ⟨w, List.mem_of_find?_eq_some hw, by simp⟩
  have hwait : (u.embed.waits.any fun x => x.job == w.job && x.item == w.item && !x.left.isEmpty) = false := by
    refine List.any_eq_false.mpr fun x hx h => hno x hx ?_
    simp only [Bool.and_eq_true, beq_iff_eq] at h
    exact h.1
  unfold State.endWait
  rw [if_pos hany]
  dsimp only
  rw [show ((s.modEmbed fun e => { e with bags := e.bags.filter fun x => !(x.job == w.job && x.item == w.item) }).complete w.job w.item
    fun i => i.fail st) = u from hu.symm]
  exact if_neg (Bool.eq_false_iff.mp hwait)

end

/-- Settles O37. -/
theorem arrivalsAreApplied : Obligations.ArrivalsAreApplied := by
  unfold Obligations.ArrivalsAreApplied
  refine ⟨fun s n a => ?_, fun s w j t m part hw hj ht hm => ?_⟩
  · intro gone taken
    have exec_of : ∀ u : State, (s.takeArrival n false = u → exec (.atomicAdd n) s = .next u.tidy) ∧
        (s.takeArrival n true = u → exec (.ruleApplication n) s = .next u.tidy) :=
      fun u => ⟨fun h => congrArg (fun u : State => Host.Outcome.next u.tidy) h, fun h => congrArg (fun u : State => Host.Outcome.next u.tidy) h⟩
    refine ⟨fun h ht => (exec_of _).1 (State.takeArrival_of_noTable h.1 h.2 ht), fun h ht => (exec_of _).2 (State.takeArrival_of_noTable h.1 h.2 ht),
      fun t u ht hu ⟨v, hv, hr⟩ => ?_, fun t u ht hu ⟨v, hv, hr⟩ => ?_, fun t u ht hu ⟨v, hv, hr⟩ => ?_, fun grad h hl hs => ⟨?_, ?_⟩⟩
    · have hgo : ∀ grad, taken grad → s.takeArrival n grad = (u.applyArrive a false).acknowledge a := fun grad h => by
        rw [State.takeArrival_of_table h.1 h.2 ht hu hv, hr]
      exact ⟨fun h => (exec_of _).1 (hgo _ h), fun h => (exec_of _).2 (hgo _ h)⟩
    · have hgo : ∀ grad, taken grad → s.takeArrival n grad = (u.applyArrive a true).acknowledge a := fun grad h => by
        rw [State.takeArrival_of_table h.1 h.2 ht hu hv, hr]
      exact ⟨fun h => (exec_of _).1 (hgo _ h), fun h => (exec_of _).2 (hgo _ h)⟩
    · intro q b held
      have hgo : ∀ grad, taken grad → s.takeArrival n grad = if b.length < 64 then held else held.abandon a.table a.row := fun grad h => by
        rw [State.takeArrival_of_table h.1 h.2 ht hu hv]
        rcases hr with hr | hr
        · rw [hr]
          rfl
        · rw [hr]
          rfl
      exact ⟨fun h hb => (exec_of _).1 ((hgo _ h).trans (if_pos hb)), fun h hb => (exec_of _).2 ((hgo _ h).trans (if_pos hb)),
        fun h hb => (exec_of _).1 ((hgo _ h).trans (if_neg (by omega))), fun h hb => (exec_of _).2 ((hgo _ h).trans (if_neg (by omega)))⟩
    · rintro rfl
      exact (exec_of _).1 (State.takeArrival_of_saving h hl hs)
    · rintro rfl
      exact (exec_of _).2 (State.takeArrival_of_saving h hl hs)
  · intro acc
    refine ⟨fun h => congrArg Host.Outcome.next ((State.partReceived_of hw hj ht hm).trans (if_pos (List.isEmpty_iff.mpr h))),
      fun h => congrArg Host.Outcome.next ((State.partReceived_of hw hj ht hm).trans (if_neg (by simpa using h))),
      fun _ => ⟨_, rfl, fun hno => congrArg (fun u : State => Host.Outcome.next u.tidy) (State.endWait_of_bag hw rfl hno)⟩⟩

end Sys2Proof.Machine
end

section
/-! What the loss of a link leaves of what a `RETURN` has dropped (R352, R383). The images, the corpora, the collections, the tables, the
storage function and the element's state are one projection of the objects, the goods: most operations keep them, and have one equation
each. Of the operations that end jobs, and so may drop or close an object, it is shown that they make none: a bare state stays bare. -/

namespace Sys2Proof.Machine

/-- The objects that a pot holds, the storage function and the element's state. -/
structure Goods where
  images : List Image
  corpora : List Corpus
  colls : List Coll
  tables : List Table
  nvme : Nvme
  sec : Sec

/-- The goods among the objects of a state. -/
def Objects.goods (o : Objects) : Goods :=
  { images := o.images, corpora := o.corpora, colls := o.colls, tables := o.tables, nvme := o.nvme, sec := o.sec }

/-- The goods of a state written out. -/
@[simp] theorem goods_mk (pending time free nextId host jobs images corpora colls tables embed strains searches cups waiting reads cores tiers pots nvme media ports sec power boot obs) :
    (State.objects ⟨pending, time, free, nextId, host, jobs, images, corpora, colls, tables, embed, strains, searches, cups,
      waiting, reads, cores, tiers, pots, nvme, media, ports, sec, power, boot, obs⟩).goods = ⟨images, corpora, colls, tables, nvme, sec⟩ := rfl

/-- The goods of one state are its goods. -/
@[simp] theorem goods_eta (t : State) : Goods.mk t.images t.corpora t.colls t.tables t.nvme t.sec = t.objects.goods := rfl

@[simp] theorem goods_ite (c : Prop) [Decidable c] (a b : Objects) : (if c then a else b).goods = if c then a.goods else b.goods := by
  split <;> rfl

/-- A fold keeps the goods that every turn keeps. -/
@[simp] theorem goods_foldl {α : Type} (f : State → α → State) (h : ∀ s x, (f s x).objects.goods = s.objects.goods) (l : List α) (s : State) :
    (l.foldl f s).objects.goods = s.objects.goods :=
  foldl_keeps (fun s => s.objects.goods) h l s

/-- A fold over a state and a value beside it does, too. -/
@[simp] theorem goods_foldl_pair {α β : Type} (f : State × β → α → State × β) (h : ∀ a x, (f a x).1.objects.goods = a.1.objects.goods) (l : List α)
    (a : State × β) : (l.foldl f a).1.objects.goods = a.1.objects.goods := by
  induction l generalizing a with
  | nil => rfl
  | cons x l ih => rw [List.foldl_cons, ih, h]

section
variable (s : State)

-- Parts of the state

@[simp] theorem State.modPot_goods (p : Nat) (f : Pot → Pot) : (s.modPot p f).objects.goods = s.objects.goods := by
  simp [State.modPot]

@[simp] theorem State.modCore_goods (c : Nat) (f : Core → Core) : (s.modCore c f).objects.goods = s.objects.goods := by
  simp [State.modCore]

@[simp] theorem State.modPort_goods (p : Nat) (f : Port → Port) : (s.modPort p f).objects.goods = s.objects.goods := by
  simp [State.modPort]

@[simp] theorem State.modMedia_goods (f : Media → Media) : (s.modMedia f).objects.goods = s.objects.goods := by
  simp [State.modMedia]

@[simp] theorem State.modTiers_goods (f : Tiers → Tiers) : (s.modTiers f).objects.goods = s.objects.goods := by
  simp [State.modTiers]

@[simp] theorem State.modEmbed_goods (f : Embed → Embed) : (s.modEmbed f).objects.goods = s.objects.goods := by
  simp [State.modEmbed]

-- Counters, jobs and posts

@[simp] theorem State.setCounter_goods (fam inst idx : Nat) (v : Int) : (s.setCounter fam inst idx v).objects.goods = s.objects.goods := by
  simp [State.setCounter]

/-- The operation that a law of the held part speaks of. -/
abbrev operationOf {F : State → Nat → Nat → Nat → BitVec 16 → BitVec 16 → Nat → Nat → State}
    (_ : ∀ s pot key jobId layer oper i n, (F s pot key jobId layer oper i n).held = s.held) := F

/-- An increment of an attribution counter (R411), the operation of `State.attribute_held`. -/
@[simp] theorem State.attribution_goods (pot key jobId : Nat) (layer oper : BitVec 16) (i n : Nat) :
    (operationOf State.attribute_held s pot key jobId layer oper i n).objects.goods = s.objects.goods := by
  change (State.objects (if _ then _ else _)).goods = _
  dsimp only
  (repeat' split) <;> simp

@[simp] theorem State.modJob_goods (key : Nat) (f : Job → Job) : (s.modJob key f).objects.goods = s.objects.goods := by
  simp [State.modJob]

@[simp] theorem State.modItem_goods (key idx : Nat) (f : Item → Item) : (s.modItem key idx f).objects.goods = s.objects.goods := by
  simp [State.modItem]

@[simp] theorem State.xferDone_goods (port tag status : Nat) : (s.xferDone port tag status).objects.goods = s.objects.goods := by
  simp [State.xferDone]

@[simp] theorem State.postItem_goods (j : Job) (i : Item) (last : Bool) : (s.postItem j i last).objects.goods = s.objects.goods := by
  unfold State.postItem
  split <;> simp

@[simp] theorem State.accountAs_goods (j : Job) (tags : BitVec 16 × BitVec 16) (idx n : Nat) :
    (s.accountAs j tags idx n).objects.goods = s.objects.goods := by
  simp [State.accountAs]

@[simp] theorem State.account_goods (j : Job) (idx n : Nat) : (s.account j idx n).objects.goods = s.objects.goods := by
  simp [State.account]

-- Packets and transfers

@[simp] theorem State.sendPkt_goods (port : Nat) (p : PktOut) : (s.sendPkt port p).objects.goods = s.objects.goods := by
  simp [State.sendPkt]

@[simp] theorem State.sendStatus_goods : s.sendStatus.objects.goods = s.objects.goods := by
  simp [State.sendStatus]

@[simp] theorem State.beginXfer_goods (port dst : Nat) (x : XferOut) : (s.beginXfer port dst x).1.objects.goods = s.objects.goods := by
  unfold State.beginXfer
  dsimp only
  split <;> simp

@[simp] theorem State.cancelXfers_goods (job : Nat) : (s.cancelXfers job).objects.goods = s.objects.goods := by
  simp [State.cancelXfers]

-- What a core counts and writes

@[simp] theorem State.attributeRun_goods (c : Nat) (tags : BitVec 16 × BitVec 16) (i n : Nat) :
    (s.attributeRun c tags i n).objects.goods = s.objects.goods := by
  unfold State.attributeRun
  split <;> simp

@[simp] theorem State.coreWrite_goods (c agent a : Nat) (bs : Bytes) (tags : BitVec 16 × BitVec 16) (poison : Option Arrival) :
    (s.coreWrite c agent a bs tags poison).objects.goods = s.objects.goods := by
  simp [State.coreWrite]

@[simp] theorem State.faultRecord_goods (c kind pc : Nat) (tags : BitVec 16 × BitVec 16) :
    (s.faultRecord c kind pc tags).objects.goods = s.objects.goods := by
  simp [State.faultRecord]

@[simp] theorem State.postSat_goods (key : Nat) : (s.postSat key).objects.goods = s.objects.goods := by
  unfold State.postSat
  split <;> simp

@[simp] theorem State.jobSats_goods (key fmt : Nat) (tags : BitVec 16 × BitVec 16) (n : Nat) :
    (s.jobSats key fmt tags n).objects.goods = s.objects.goods := by
  simp [State.jobSats]

@[simp] theorem State.countSatsOf_goods (job : Option Job) (c fmt : Nat) (tags : BitVec 16 × BitVec 16) (sats : List Sat) :
    (s.countSatsOf job c fmt tags sats).objects.goods = s.objects.goods := by
  unfold State.countSatsOf
  dsimp only
  split <;> simp

@[simp] theorem State.countSats_goods (c fmt : Nat) (tags : BitVec 16 × BitVec 16) (sats : List Sat) :
    (s.countSats c fmt tags sats).objects.goods = s.objects.goods := by
  simp [State.countSats]

@[simp] theorem State.addConv_goods (c fmt : Nat) (x q : List Val) : (s.addConv c fmt x q).objects.goods = s.objects.goods := by
  simp [State.addConv]

@[simp] theorem State.narrowBlockK_goods (c fmt : Nat) (mayClip : Bool) (tags : BitVec 16 × BitVec 16) (vs : List Val) :
    (s.narrowBlockK c fmt mayClip tags vs).1.objects.goods = s.objects.goods := by
  simp [State.narrowBlockK]

@[simp] theorem State.narrowRowK_goods (c fmt : Nat) (blk mayClip : Bool) (tags : BitVec 16 × BitVec 16) (vs : List Val) :
    (s.narrowRowK c fmt blk mayClip tags vs).1.objects.goods = s.objects.goods := by
  unfold State.narrowRowK
  split <;> simp

-- Pools

@[simp] theorem State.setPool_goods (dram : Bool) (l : List PoolEntry) : (s.setPool dram l).objects.goods = s.objects.goods := by
  simp [State.setPool]

@[simp] theorem State.roomDram_goods (p need fuel : Nat) : (s.roomDram p need fuel).1.objects.goods = s.objects.goods := by
  induction fuel generalizing s with
  | zero => rfl
  | succ n ih =>
    unfold State.roomDram
    split
    · rfl
    · split
      · rfl
      · simp [ih]

@[simp] theorem State.toFlash_goods (e : PoolEntry) : (s.toFlash e).objects.goods = s.objects.goods := by
  simp [State.toFlash]

@[simp] theorem State.toDram_goods (e : PoolEntry) : (s.toDram e).objects.goods = s.objects.goods := by
  simp [State.toDram]

@[simp] theorem State.roomQ_goods (p need fuel : Nat) : (s.roomQ p need fuel).1.objects.goods = s.objects.goods := by
  induction fuel generalizing s with
  | zero => rfl
  | succ n ih =>
    unfold State.roomQ
    split
    · rfl
    · split
      · rfl
      · dsimp only
        rw [ih]
        split <;> simp

@[simp] theorem State.room_goods (dram : Bool) (p need : Nat) : (s.room dram p need).1.objects.goods = s.objects.goods := by
  unfold State.room
  split <;> simp

@[simp] theorem State.allocOwned_goods (dram : Bool) (e : PoolEntry) : (s.allocOwned dram e).objects.goods = s.objects.goods := by
  simp [State.allocOwned]

@[simp] theorem State.moveBack_goods (dram : Bool) (e : PoolEntry) : (s.moveBack dram e).objects.goods = s.objects.goods := by
  simp [State.moveBack]

@[simp] theorem State.useFrames_goods (key : PoolKey) (dram : Bool) (a n : Nat) :
    (s.useFrames key dram a n).1.objects.goods = s.objects.goods := by
  simp [State.useFrames]

@[simp] theorem State.touch_goods (key : PoolKey) : (s.touch key).objects.goods = s.objects.goods := by
  unfold State.touch
  split <;> simp

@[simp] theorem State.touchDense_goods (key : PoolKey) : (s.touchDense key).objects.goods = s.objects.goods := by
  simp [State.touchDense]

@[simp] theorem State.dropEntries_goods (f : PoolEntry → Bool) : (s.dropEntries f).objects.goods = s.objects.goods := by
  simp [State.dropEntries]

@[simp] theorem State.pour_goods (im : Image) (a n : Nat) : (s.pour im a n).1.objects.goods = s.objects.goods := by
  simp [State.pour]

-- Leaves

@[simp] theorem State.modCup_goods (idx : Nat) (f : Cup → Cup) : (s.modCup idx f).objects.goods = s.objects.goods := by
  simp [State.modCup]

@[simp] theorem State.writeLost_goods (job item addr : Nat) (rec : LostRec) :
    (s.writeLost job item addr rec).objects.goods = s.objects.goods := by
  simp [State.writeLost]

@[simp] theorem State.chargeCup_goods (idx : Nat) (rec : LostRec) : (s.chargeCup idx rec).objects.goods = s.objects.goods := by
  unfold State.chargeCup
  dsimp only
  (repeat' split) <;> simp

@[simp] theorem State.chargeMove_goods (c : Nat) (r : LeafRead) (e : LostLeaf) (known : Bool) :
    (s.chargeMove c r e known).objects.goods = s.objects.goods := by
  unfold State.chargeMove
  split <;> simp

@[simp] theorem State.chargeAttend_goods (job item : Nat) (rec_ : LostRec) :
    (s.chargeAttend job item rec_).objects.goods = s.objects.goods := by
  simp [State.chargeAttend]

@[simp] theorem State.readCaddy_goods (r : LeafRead) : (s.readCaddy r).objects.goods = s.objects.goods := by
  simp [State.readCaddy]

@[simp] theorem State.reread_goods (r : LeafRead) : (s.reread r).objects.goods = s.objects.goods := by
  simp [State.reread]

-- Invocations and slices

@[simp] theorem State.enterCore_goods (c : Nat) (inv : Invocation) (j : Job) (pc : Nat) (params : Bytes) :
    (s.enterCore c inv j pc params).objects.goods = s.objects.goods := by
  simp [State.enterCore]

@[simp] theorem State.invoke_goods (j : Job) (image item kind layer rows tokens : Nat) (params : Bytes) :
    (s.invoke j image item kind layer rows tokens params).objects.goods = s.objects.goods := by
  unfold State.invoke
  dsimp only
  (repeat' split) <;> simp

@[simp] theorem State.writeRestart_goods (c pc : Nat) : (s.writeRestart c pc).objects.goods = s.objects.goods := by
  simp [State.writeRestart]

@[simp] theorem State.chargeCores_goods (p elapsed : Nat) : (s.chargeCores p elapsed).objects.goods = s.objects.goods := by
  unfold State.chargeCores
  (repeat' split) <;> simp

@[simp] theorem State.deficits_goods (p elapsed : Nat) : (s.deficits p elapsed).1.objects.goods = s.objects.goods := by
  unfold State.deficits
  dsimp only
  rw [State.used_objects, State.setCounter_goods, goods_foldl _ (fun s r => State.setCounter_goods ..), State.modPot_goods]

@[simp] theorem State.saveCore_goods (key c : Nat) : (s.saveCore key c).objects.goods = s.objects.goods := by
  unfold State.saveCore
  split <;> simp

@[simp] theorem State.preempt_goods (p key : Nat) : (s.preempt p key).objects.goods = s.objects.goods := by
  unfold State.preempt
  split <;> simp

@[simp] theorem State.restoreCore_goods (key : Nat) (inv : Invocation) (c : Nat) :
    (s.restoreCore key inv c).objects.goods = s.objects.goods := by
  simp [State.restoreCore]

@[simp] theorem State.resume_goods (p : Nat) (j : Job) : (s.resume p j).objects.goods = s.objects.goods := by
  unfold State.resume
  dsimp only
  refine (goods_foldl _ (fun _ _ => ?_) _ _).trans ?_
  · split <;> simp
  · simp

@[simp] theorem State.startSteep_goods (j : Job) : (s.startSteep j).objects.goods = s.objects.goods := by
  unfold State.startSteep
  split <;> simp

@[simp] theorem State.grantTasks_goods (p : Nat) : (s.grantTasks p).objects.goods = s.objects.goods := by
  unfold State.grantTasks
  refine goods_foldl _ (fun _ _ => ?_) _ _
  (repeat' split) <;> simp

@[simp] theorem State.settleStop_goods (p : Nat) : (s.settleStop p).objects.goods = s.objects.goods := by
  simp [State.settleStop]

@[simp] theorem State.noteServed_goods (c st : Nat) : (s.noteServed c st).objects.goods = s.objects.goods := by
  unfold State.noteServed
  split <;> simp

-- Moves and semaphores

@[simp] theorem State.seePlace_goods (c : Nat) (p : Place) (n : Nat) (tags : BitVec 16 × BitVec 16) :
    (s.seePlace c p n tags).1.objects.goods = s.objects.goods := by
  unfold State.seePlace
  dsimp only
  (repeat' split) <;> simp

@[simp] theorem State.linkSums_goods (c f : Nat) (b : Bytes) : (s.linkSums c f b).objects.goods = s.objects.goods := by
  simp [State.linkSums]

@[simp] theorem State.modSem_goods (p n : Nat) (f : Sem → Sem) : (s.modSem p n f).objects.goods = s.objects.goods := by
  simp [State.modSem]

@[simp] theorem State.sendTo_goods (ord kind object target : Nat) (x : XferOut) :
    (s.sendTo ord kind object target x).objects.goods = s.objects.goods := by
  unfold State.sendTo
  split <;> simp

end

-- What drops objects, and what calls it

/-- A state whose images, corpora, collections and tables are gone; `nv` and `x` name the rest that the loss of a link leaves. -/
def State.Bare (s : State) (nv : Nvme) (x : Sec) : Prop := s.objects.goods = ⟨[], [], [], [], nv, x⟩

theorem State.bare_iff {s : State} {nv : Nvme} {x : Sec} :
    s.Bare nv x ↔ s.images = [] ∧ s.corpora = [] ∧ s.colls = [] ∧ s.tables = [] ∧ s.nvme = nv ∧ s.sec = x := by
  simp only [State.Bare, State.objects, Objects.goods, Goods.mk.injEq]

namespace State.Bare

variable {s t : State} {nv : Nvme} {x : Sec}

/-- What keeps the goods keeps them gone. -/
theorem via (h : s.Bare nv x) (e : t.objects.goods = s.objects.goods) : t.Bare nv x := e.trans h

theorem foldl {α : Type} {f : State → α → State} (hf : ∀ {s : State} (a : α), s.Bare nv x → (f s a).Bare nv x) (l : List α)
    (h : s.Bare nv x) : (l.foldl f s).Bare nv x := by
  induction l generalizing s with
  | nil => exact h
  | cons a l ih => exact ih (hf a h)

theorem ite {c : Prop} [Decidable c] {a b : State} (ha : a.Bare nv x) (hb : b.Bare nv x) : (if c then a else b).Bare nv x := by
  split
  · exact ha
  · exact hb

/-- A change that is made, or left, keeps a bare state bare if the change does. -/
theorem iteThen {c : Prop} [Decidable c] {f : State → State} (hf : s.Bare nv x → (f s).Bare nv x) (h : s.Bare nv x) :
    (if c then f s else s).Bare nv x := .ite (hf h) h

theorem iteElse {c : Prop} [Decidable c] {f : State → State} (hf : s.Bare nv x → (f s).Bare nv x) (h : s.Bare nv x) :
    (if c then s else f s).Bare nv x := .ite h (hf h)

theorem mapTables (h : s.Bare nv x) (f : Table → Table) : State.Bare { s with tables := s.tables.map f } nv x := by
  obtain ⟨hi, hc, hk, ht, hn, hx⟩ := bare_iff.mp h
  exact bare_iff.mpr ⟨hi, hc, hk, congrArg (List.map f) ht, hn, hx⟩

theorem filterTables (h : s.Bare nv x) (f : Table → Bool) : State.Bare { s with tables := s.tables.filter f } nv x := by
  obtain ⟨hi, hc, hk, ht, hn, hx⟩ := bare_iff.mp h
  exact bare_iff.mpr ⟨hi, hc, hk, congrArg (List.filter f) ht, hn, hx⟩

theorem mapCorpora (h : s.Bare nv x) (f : Corpus → Corpus) : State.Bare { s with corpora := s.corpora.map f } nv x := by
  obtain ⟨hi, hc, hk, ht, hn, hx⟩ := bare_iff.mp h
  exact bare_iff.mpr ⟨hi, congrArg (List.map f) hc, hk, ht, hn, hx⟩

/-- Of an option: the state, if there is one, is bare. -/
def Opt (o : Option State) (nv : Nvme) (x : Sec) : Prop := ∀ t, o = some t → t.Bare nv x

theorem Opt.none : Opt none nv x := fun _ h => nomatch h

theorem Opt.some (h : t.Bare nv x) : Opt (some t) nv x := by
  rintro u ⟨rfl⟩
  exact h

theorem Opt.ite {c : Prop} [Decidable c] {a b : Option State} (ha : Opt a nv x) (hb : Opt b nv x) : Opt (if c then a else b) nv x := by
  split
  · exact ha
  · exact hb

theorem Opt.orElse {a : Option State} {b : Unit → Option State} (ha : Opt a nv x) (hb : Opt (b ()) nv x) : Opt (a.orElse b) nv x := by
  cases a with
  | none => exact hb
  | some a => exact ha

-- Jobs end

theorem removeJob (h : s.Bare nv x) (key : Nat) : (s.removeJob key).Bare nv x := by
  obtain ⟨hi, hc, hk, ht, hn, hx⟩ := bare_iff.mp h
  refine bare_iff.mpr ⟨hi, ?_, ?_, ht, hn, hx⟩
  · exact (congrArg (List.map _) hc)
  · exact (congrArg (List.map _) hk)

theorem settleUnloads (h : s.Bare nv x) : s.settleUnloads.Bare nv x := by
  unfold State.settleUnloads
  rw [(bare_iff.mp h).1]
  exact h

theorem endJob (h : s.Bare nv x) (key : Nat) : (s.endJob key).Bare nv x := (h.removeJob key).settleUnloads

theorem complete (h : s.Bare nv x) (key idx : Nat) (f : Item → Item) : (s.complete key idx f).Bare nv x := by
  unfold State.complete
  split
  · exact h
  · exact .ite ((h.via (by simp)).endJob key) (h.via (by simp))

theorem failJob (h : s.Bare nv x) (key st : Nat) : (s.failJob key st).Bare nv x := by
  unfold State.failJob
  split
  · exact h
  · exact foldl (fun i h => h.complete _ _ _) _ h

theorem refuseJob (h : s.Bare nv x) (key st : Nat) : (s.refuseJob key st).Bare nv x := by
  unfold State.refuseJob
  split
  · exact h
  · split
    · exact (h.via (by simp)).endJob key
    · exact (h.via (by simp)).endJob key

theorem stopJob (h : s.Bare nv x) (key st : Nat) : (s.stopJob key st).Bare nv x := by
  unfold State.stopJob
  split
  · exact h
  · exact .ite (h.refuseJob key st) (h.failJob key st)

theorem abortJob (h : s.Bare nv x) (key st : Nat) : (s.abortJob key st).Bare nv x := (h.via (by simp)).stopJob key st

theorem finishCup (h : s.Bare nv x) (c : Cup) : (s.finishCup c).Bare nv x := h.complete _ _ _

-- Illegal operations and signals of a core

theorem illegal (h : s.Bare nv x) (c : Nat) (q : QEntry) : (s.illegal c q).Bare nv x := by
  refine via ?_ (State.modCore_goods _ _ _)
  unfold State.failServed
  split
  · exact (h.via (by simp)).abortJob _ _
  · exact h.via (by simp)

theorem signal (h : s.Bare nv x) (c to_ : Nat) (q : QEntry) (t n : Nat) : (s.signal c to_ q t n).Bare nv x :=
  .ite (h.illegal c q) (h.via (by simp))

theorem hdrSignal (h : s.Bare nv x) (c to_ : Nat) (q : QEntry) : (s.hdrSignal c to_ q).Bare nv x := .ite (h.signal _ _ _ _ _) h

theorem syncSignal (h : s.Bare nv x) (c : Nat) (q : QEntry) (y : KSync) : (s.syncSignal c q y).Bare nv x := .ite (h.signal _ _ _ _ _) h

theorem signalIf (h : s.Bare nv x) (c : Nat) (q : QEntry) : (s.signalIf c q).Bare nv x := .ite (h.hdrSignal _ _ _) h

theorem frontDone (h : s.Bare nv x) (c : Nat) (q : QEntry) : (s.frontDone c q).Bare nv x := (h.via (by simp)).signalIf c q

theorem regFire (h : s.Bare nv x) (c : Nat) (q : QEntry) (f : Core → Core) : (s.regFire c q f).Bare nv x := (h.via (by simp)).signalIf c q

-- Reads of leaves

theorem endMove (h : s.Bare nv x) (c num to_ : Nat) : (s.endMove c num to_).Bare nv x := by
  unfold State.endMove
  split
  · exact h
  · exact (h.via (by simp)).hdrSignal _ _ _

theorem landLeaf (h : s.Bare nv x) (c num j : Nat) (r : LeafRead) (page : Option Bytes) : (s.landLeaf c num j r page).Bare nv x := by
  unfold State.landLeaf
  split
  · exact h
  · exact .ite ((h.via (by simp)).endMove _ _ _) (h.via (by simp))

theorem loseLeaf (h : s.Bare nv x) (r : LeafRead) (e : LostLeaf) (known : Bool) : (s.loseLeaf r e known).Bare nv x :=
  foldl (fun m h => (h.via (by simp)).landLeaf _ _ _ _ _) _ (h.via (by simp))

theorem startRead (h : s.Bare nv x) (r : LeafRead) : (s.startRead r).Bare nv x := by
  unfold State.startRead
  split
  · exact h.loseLeaf _ _ _
  · refine .ite (h.via rfl) (.ite (.ite (h.via (by simp)) (foldl (fun m h => h.landLeaf _ _ _ _ _) _ (.ite (h.via (by simp)) (h.via (by simp)))))
      (h.via (by simp)))

-- The next job

theorem nextRun (h : s.Bare nv x) (key n : Nat) : (s.nextRun key n).Bare nv x := by
  induction n generalizing s with
  | zero => exact h
  | succ n ih =>
    unfold State.nextRun
    split
    · exact h
    · split
      · exact h
      · dsimp only
        split
        · exact h.via (by simp)
        · exact ih (h.complete _ _ _)

theorem nextAppend (h : s.Bare nv x) (key n : Nat) : (s.nextAppend key n).Bare nv x := by
  induction n generalizing s with
  | zero => exact h
  | succ n ih =>
    unfold State.nextAppend
    split
    · exact h
    · dsimp only
      split
      · exact h.via (by simp)
      · exact ih (h.complete _ _ _)

theorem beginJob (h : s.Bare nv x) (j : Job) : (s.beginJob j).Bare nv x :=
  .ite (h.nextRun _ _) (.ite (h.via (by simp)) (.ite (h.nextAppend _ _) h))

theorem grant (h : s.Bare nv x) (p : Nat) : (s.grant p).Bare nv x := by
  unfold State.grant
  split
  · exact h
  · exact .ite h (.ite (h.via (by simp)) (.ite h ((h.via (by simp)).beginJob _)))

theorem schedule (h : s.Bare nv x) (p elapsed : Nat) : (s.schedule p elapsed).Bare nv x := by
  refine .ite h (via (grant ?_ p) (State.grantTasks_goods _ _))
  refine .ite h ?_
  split
  · exact .ite (h.via (by simp)) h
  · dsimp only
    split
    · exact h.via (by simp)
    · exact h.via (by simp)

theorem reschedule (h : s.Bare nv x) (p : Nat) : (s.reschedule p).Bare nv x := h.schedule p _

theorem settlePoint (h : s.Bare nv x) (p : Nat) : (s.settlePoint p).Bare nv x := by
  unfold State.settlePoint
  split
  next => exact h
  next key _ => exact .ite h (.ite ((h.abortJob key 0x41).via (by simp)) (.ite (.ite h ((h.via (by simp)).reschedule p)) h))

-- What a core fires

theorem issueMove (h : s.Bare nv x) (c : Nat) (q : QEntry) (rows len ss ds pf : Nat) (xs : KSync) :
    (s.issueMove c q rows len ss ds pf xs).Bare nv x := by
  unfold State.issueMove
  dsimp only
  refine .ite (h.illegal c q) ((h.via ?_).syncSignal c q xs)
  simp

theorem issueLeafrd (h : s.Bare nv x) (c : Nat) (q : QEntry) (n : Nat) : (s.issueLeafrd c q n).Bare nv x := by
  unfold State.issueLeafrd
  split
  · refine .ite (h.illegal c q) ?_
    split
    · exact h.illegal c q
    · exact foldl (fun r h => h.startRead _) _ (h.via (by simp))
  · exact h.illegal c q

theorem fireVec (h : s.Bare nv x) (c : Nat) (q : QEntry) (op : VecOp) (o : VOps) : (s.fireVec c q op o).Bare nv x := by
  unfold State.fireVec
  dsimp only
  split
  · split
    · exact h.illegal c q
    · refine .ite (h.illegal c q) ?_
      split
      · exact h.via (by simp)
      · exact h.via (by simp)
  · exact h.illegal c q

theorem finishMm (h : s.Bare nv x) (c : Nat) (r : MmRun) : (s.finishMm c r).Bare nv x := .ite (h.via (by simp)) ((h.via (by simp)).signalIf c _)

theorem invocationEnded (h : s.Bare nv x) (key : Nat) (inv : Invocation) : (s.invocationEnded key inv).Bare nv x := by
  have hidle : ((s.coresOf key).foldl (fun s c => s.modCore c Core.idle) s).Bare nv x := h.via (by simp)
  unfold State.invocationEnded
  generalize (s.coresOf key).foldl (fun s c => s.modCore c Core.idle) s = u at hidle
  dsimp only
  split
  · exact hidle
  · split
    · exact .ite ((hidle.complete _ _ _).nextRun _ _) (((hidle.complete key inv.item id).via (by simp)).reschedule _)
    · exact .ite (hidle.via (by simp)) hidle
    · exact hidle.via (by simp)
    · exact .ite hidle (.ite (hidle.via (by simp)) (hidle.via (by simp)))
    · split
      · exact hidle.via (by simp)
      · exact hidle
    · exact hidle

theorem fireEnd (h : s.Bare nv x) (c : Nat) (q : QEntry) : (s.fireEnd c q).Bare nv x := by
  unfold State.fireEnd
  have hsig := (h.via (State.modCore_goods s c fun k => { k.hdrTake q.word.hdr with
    front := none, run := k.run.map fun r => { r with ended := true } })).signalIf c q
  generalize State.signalIf _ c q = u at hsig
  dsimp only
  split
  · exact .ite (hsig.invocationEnded _ _) (hsig.settlePoint _)
  · exact hsig

theorem fireGroup (h : s.Bare nv x) (c : Nat) (q : QEntry) (layer oper : BitVec 16) : (s.fireGroup c q layer oper).Bare nv x := by
  have hdone := (h.via (State.modCore_goods s c fun k => { k with layer := layer, oper := oper })).frontDone c q
  unfold State.fireGroup
  split
  · exact .ite (h.illegal c q) (.ite (hdone.via (by simp)) hdone)
  · exact h

theorem firePoint (h : s.Bare nv x) (c : Nat) (q : QEntry) : (s.firePoint c q).Bare nv x := by
  have hdone := h.frontDone c q
  refine .ite (h.illegal c q) ?_
  dsimp only
  split
  · exact hdone
  · exact (hdone.via (by simp)).settlePoint _

theorem fireSemrel (h : s.Bare nv x) (c : Nat) (q : QEntry) (sem units : Nat) : (s.fireSemrel c q sem units).Bare nv x := by
  unfold State.fireSemrel
  split
  · refine .ite (h.illegal c q) (frontDone ?_ c q)
    split
    · exact .ite (h.via (by simp)) (h.via (by simp))
    · exact h.via (by simp)
  · exact h

theorem fireSemacq (h : s.Bare nv x) (c : Nat) (q : QEntry) (sem units : Nat) : Opt (s.fireSemacq c q sem units) nv x := by
  unfold State.fireSemacq
  split
  · refine .ite (.some (h.via (by simp))) (.ite (.ite (.some (h.illegal c q)) (.some ((h.via (by simp)).frontDone c q))) ?_)
    split
    · exact .ite .none (.ite (.some (h.illegal c q)) (.some ((h.via (by simp)).settlePoint _)))
    · exact .none
  · exact .none

theorem fireFront (h : s.Bare nv x) (c : Nat) : Opt (s.fireFront c) nv x := by
  unfold State.fireFront
  split
  next q inv _ _ =>
    refine .ite (.some (h.illegal c q)) (.ite .none ?_)
    split
    · exact .some (h.frontDone c q)
    · exact .some (h.fireGroup c q _ _)
    · exact .ite (.some (h.firePoint c q)) .none
    · exact .ite (.some (h.frontDone c q)) .none
    · exact .some (h.regFire c q _)
    · exact .ite (.some (h.fireEnd c q)) .none
    · exact .some (h.regFire c q _)
    · exact .some (h.regFire c q _)
    · exact .some (h.regFire c q _)
    · exact .some (h.regFire c q _)
    · exact .some (h.regFire c q _)
    · exact .some (h.regFire c q _)
    · exact .ite .none (.some (h.regFire c q _))
    · exact h.fireSemacq c q _ _
    · exact .some (h.fireSemrel c q _ _)
    · exact .none
    · exact .none
    · exact .none
    · exact .none
    · exact .none
  next => exact .none

theorem fireLoader (h : s.Bare nv x) (c : Nat) : Opt (s.fireLoader c) nv x := by
  unfold State.fireLoader
  split
  · exact .none
  · exact .ite (.some (h.illegal c _)) (.ite .none (.ite .none (.ite
      (.ite (.some (h.via (by simp))) (.some ((h.via (by simp)).illegal c _))) (.some ((h.via (by simp)).signalIf c _)))))

theorem fireArrays (h : s.Bare nv x) (c : Nat) : Opt (s.fireArrays c) nv x := by
  unfold State.fireArrays
  split
  · exact .none
  · refine .ite ?_ (.ite (.some (h.illegal c _)) (.ite .none (.some ((h.via (by simp)).signalIf c _))))
    split
    · exact .none
    · exact .ite .none (.some (h.via (by simp)))

theorem fireSpout (h : s.Bare nv x) (c : Nat) : Opt (s.fireSpout c) nv x := by
  unfold State.fireSpout
  split
  · exact .none
  · refine .ite ?_ (.ite (.some (h.illegal c _)) (.ite .none (.some ((h.via (by simp)).signalIf c _))))
    split
    · exact .none
    · exact .ite (.ite (.some (h.finishMm c _)) .none) (.ite .none (.some (h.via (by simp))))

theorem fireVector (h : s.Bare nv x) (c : Nat) : Opt (s.fireVector c) nv x := by
  unfold State.fireVector
  split
  · exact .none
  · refine .ite (.some (h.illegal c _)) (.ite .none (.some (signalIf ?_ c _)))
    split
    · exact (h.via (by simp)).fireVec c _ _ _
    · exact h.via (by simp)

theorem fireMover (h : s.Bare nv x) (c : Nat) : Opt (s.fireMover c) nv x := by
  unfold State.fireMover
  split
  · exact .none
  next q rest _ =>
    dsimp only
    generalize (match q.word.op with | .mov o => o.dw | .leafrd o => o.dw | _ => ({} : KSync)) = dw
    refine .ite (.some (h.illegal c q)) (.ite .none (.ite .none (.some ?_)))
    split
    · exact (h.via (by simp)).issueMove c q _ _ _ _ _ _
    · exact (h.via (by simp)).issueMove c q _ _ _ _ _ _
    · exact (h.via (by simp)).issueLeafrd c q _
    · exact (h.via (by simp)).signalIf c q

theorem fireUnit (h : s.Bare nv x) (c : Nat) : Opt (s.fireUnit c) nv x :=
  (h.fireFront c).orElse ((h.fireLoader c).orElse ((h.fireArrays c).orElse ((h.fireSpout c).orElse ((h.fireVector c).orElse (h.fireMover c)))))

theorem fireCore (h : s.Bare nv x) (c : Nat) : Opt (s.fireCore c) nv x := by
  unfold State.fireCore
  split
  · exact .none
  · refine .ite .none fun t ht => ?_
    obtain ⟨u, hu, rfl⟩ := Option.map_eq_some_iff.mp ht
    exact (h.fireUnit c u hu).via (by simp)

theorem pump (h : s.Bare nv x) (n : Nat) : (State.pump n s).Bare nv x := by
  induction n generalizing s with
  | zero => exact h
  | succ n ih =>
    unfold State.pump
    split
    next u hu =>
      obtain ⟨c, -, hc⟩ := List.exists_of_findSome?_eq_some hu
      exact ih (h.fireCore c u hc)
    next => exact h

theorem tidy (h : s.Bare nv x) : s.tidy.Bare nv x :=
  foldl (fun _ h => h.via (State.settleStop_goods _ _)) _
    (foldl (fun p h => .ite h (.ite (h.reschedule p) (.ite ((h.grant p).via (State.grantTasks_goods _ _)) h))) _ (h.pump _))

-- Members and transfers

theorem settleGroup (h : s.Bare nv x) (key : Nat) : (s.settleGroup key).Bare nv x := by
  unfold State.settleGroup
  split
  · exact h
  · refine .ite h (complete ?_ _ _ _)
    dsimp only
    refine iteThen (f := fun s => { s with tables := s.tables.map _ }) (fun h => h.mapTables _)
      (iteElse (f := fun s => { s with corpora := s.corpora.map _ }) (fun h => h.mapCorpora _) (.ite (foldl (fun n h => ?_) _ ?_) h))
    · exact h.via (State.sendTo_goods ..)
    · exact (h.filterTables _).via (State.dropEntries_goods _ _)

theorem memberAnswer (h : s.Bare nv x) (key ord st : Nat) : (s.memberAnswer key ord st).Bare nv x := by
  unfold State.memberAnswer
  dsimp only
  have ha : ((if st = 0 then s.modJob key fun j => { j with
      awaiting := j.awaiting.erase ord, answered := if st = 0 then j.answered ++ [ord] else j.answered }
    else (s.modJob key fun j => { j with
      awaiting := j.awaiting.erase ord, answered := if st = 0 then j.answered ++ [ord] else j.answered }).modItem key 0
        fun i => i.fail (peerStatus st))).Bare nv x := .ite (h.via (by simp)) (h.via (by simp))
  split
  · exact .ite (ha.abortJob _ _) (ha.settleGroup _)
  · exact ha

theorem loseStep (h : s.Bare nv x) (p st : Nat) : (s.loseStep p st).Bare nv x := by
  have hfailed := foldl (f := fun s c => (s.modItem c.job c.item fun i => i.fail st).modCup c.idx fun k => { k with phase := .leaving, failed := true })
    (fun c h => h.via (by simp)) (s.potCups p) h
  unfold State.loseStep
  generalize (s.potCups p).foldl _ s = u at hfailed
  exact (foldl (f := fun s c => s.finishCup c) (fun c h => h.finishCup c) (u.potCups p) hfailed).via (by simp)

theorem settleRows (h : s.Bare nv x) (job item : Nat) (force : Bool) : (s.settleRows job item force).Bare nv x := by
  unfold State.settleRows
  split
  · exact h
  · exact .ite h ((h.via (by simp)).complete _ _ _)

theorem endWait (h : s.Bare nv x) (job item st : Nat) : (s.endWait job item st).Bare nv x := by
  have hbag : (if s.embed.bags.any fun w => w.job == job && w.item == item then
      (s.modEmbed fun e => { e with bags := e.bags.filter fun w => !(w.job == job && w.item == item) }).complete job item fun i => i.fail st
    else s).Bare nv x := .ite ((h.via (by simp)).complete _ _ _) h
  exact .ite ((hbag.via (by simp)).settleRows _ _ _) hbag

theorem rowsAnswer (h : s.Bare nv x) (job item ord st : Nat) : (s.rowsAnswer job item ord st).Bare nv x :=
  settleRows (.ite (h.via (by simp)) (h.via (by simp))) _ _ _

theorem xferEnded (h : s.Bare nv x) (port ord : Nat) (y : XferOut) (st : Nat) : (s.xferEnded port ord y st).Bare nv x := by
  unfold State.xferEnded
  dsimp only
  split
  · split
    · exact h
    · split
      · split
        · exact h.abortJob _ _
        · exact h
      · split
        · exact .ite ((h.via (by simp)).endMove _ _ _) (h.via (by simp))
        · exact h.via (by simp)
  · exact .ite h (h.endWait _ _ _)
  · exact h.rowsAnswer _ _ _ _
  · exact h.rowsAnswer _ _ _ _
  · exact .ite (h.memberAnswer _ _ _) h
  · exact .ite h (h.abortJob _ _)
  · exact .ite h (h.abortJob _ _)
  · exact h

theorem linkLoss (h : s.Bare nv x) (n : Nat) : (s.linkLoss n).Bare nv x := by
  have hcut : (State.count { s.modPort n (fun q => { q with
      st := .down, present := false, hold := false, out := [], inn := [], authed := false, helloDigest := none, lanes := 0, replay := []
      credits := Vector.replicate 4 0, owed := Vector.replicate 4 0, fails := 0, nakDue := false }) with
      jobs := s.jobs.map fun j => if (j.remote.map (·.1)) == some n then { j with remote := j.remote.map fun r => (4, r.2) } else j } 6 n 11 1).Bare nv x :=
    h.via (by simp)
  unfold State.linkLoss
  dsimp only
  generalize State.count _ 6 n 11 1 = a at hcut
  have hout := foldl (f := fun u y => u.xferEnded n (s.port n).ordinal y 0x21) (fun y h => h.xferEnded _ _ y _) (s.port n).out hcut
  refine tidy (iteThen (f := fun u => u.loseStep u.servingPot 0x21) (fun h => h.loseStep _ _) ?_)
  exact foldl (f := fun u (w : RowWait) => u.rowsAnswer w.job w.item (s.port n).ordinal 0x21) (fun w h => h.rowsAnswer _ _ _ _) _
    (foldl (f := fun s (w : BagWait) => s.endWait w.job w.item (0x21 : Nat)) (fun w h => h.endWait _ _ _) _ hout)

theorem dropLinks (h : s.Bare nv x) : s.dropLinks.Bare nv x :=
  foldl (fun n h => .ite (h.linkLoss n) (h.via (by simp))) _ h

end State.Bare

end Sys2Proof.Machine
end

section
/-! `AUTHORISE` and `RELOCK` (O8). -/

namespace Sys2Proof.Machine

-- AUTHORISE (R380)

section
variable {s : State} {r : ActionRule} {a : Authorise} {act : State → State} (hup : s.elementUp = true)
include hup

/-- An `AUTHORISE` that meets every condition takes effect. -/
theorem State.authorise_of_accepted (hform : a.wellFormed = true) (hsigs : a.sigs.length = 1 ∨ a.sigs.length = 2) (hlen : a.token.length = 128)
    (htoken : s.sec.token = some a.token) (hvalid : a.sigs.all (·.valid) = true) (haction : field a.token 0x48 1 = r.number)
    (hfrom : r.from_ = true) (hsigned : r.signed = true) (hstopped : r.stopped = true) (hps0 : r.ps0 = true) :
    s.authorise r a act = (act (s.modSec fun x => { x with failures := 0, token := none })).answer (.status 0) := by
  have hfails : s.authFails r a = [] := by
    unfold State.authFails
    have hl : (a.sigs.length == 1 || a.sigs.length == 2) = true := by simpa using hsigs
    simp [hform, hl, hlen, htoken, haction, hfrom, hsigned, hstopped, hps0, hvalid]
  unfold State.authorise
  rw [hfails, if_neg (by simp [hup])]

/-- An `AUTHORISE` that names no outstanding token is not well formed (7), or fails with 6. -/
theorem State.authorise_of_stale (htoken : s.sec.token ≠ some a.token) : ∃ n, (n = 6 ∨ n = 7) ∧ s.authorise r a act = { s with
    free := s.free + 1
    sec := { s.sec with
      failures := s.sec.failures + 1
      locked := s.sec.locked || decide (3 ≤ s.sec.failures + 1)
      reply := .status n } } := by
  have hfails : s.authFails r a = [7] ∨ s.authFails r a = [6] := by
    unfold State.authFails
    dsimp only
    split
    · exact .inl rfl
    · exact .inr (if_pos (by simp [htoken]))
  have hone : ∀ n, s.authFails r a = [n] → s.authorise r a act = { s with
      free := s.free + 1
      sec := { s.sec with
        failures := s.sec.failures + 1
        locked := s.sec.locked || decide (3 ≤ s.sec.failures + 1)
        reply := .status n } } := by
    intro n hn
    have hpick : Config.pick s.free 0 1 = 0 := Nat.mod_one _
    unfold State.authorise
    rw [hn, if_neg (by simp [hup])]
    dsimp only [List.length_singleton]
    rw [hpick]
    exact congrArg State.used (State.answer_of_up (s := s.modSec fun x => { x with
      failures := s.sec.failures + 1, locked := x.locked || decide (3 ≤ s.sec.failures + 1) }) hup _)
  rcases hfails with h | h
  · exact ⟨7, .inr rfl, hone 7 h⟩
  · exact ⟨6, .inl rfl, hone 6 h⟩

end

/-- An answer leaves the lifecycle and the owner key. -/
theorem State.answer_lifecycle (s : State) (r : Reply) :
    (s.answer r).sec.lifecycle = s.held.lifecycle ∧ (s.answer r).sec.ownerKey = s.held.ownerKey :=
  ⟨congrArg Held.lifecycle (s.answer_held r), congrArg Held.ownerKey (s.answer_held r)⟩

-- RELOCK (R382)

/-- A count changes the observability state alone. -/
theorem State.count_obs (s : State) (fam inst idx n : Nat) : ∃ o, s.count fam inst idx n = { s with obs := o } := by
  unfold State.count
  split
  · exact ⟨s.obs, rfl⟩
  · exact ⟨_, rfl⟩

/-- A stop of trace changes the observability state and the number of free values alone, and leaves trace stopped. -/
theorem State.stopTrace_stops (s : State) (reason value : Nat) :
    ∃ o free, s.stopTrace reason value true = { s with obs := o, free := free } ∧ o.tracing = false := by
  unfold State.stopTrace
  split
  next h => exact ⟨s.obs, s.free, rfl, by simpa using h⟩
  next h =>
    obtain ⟨o, ho⟩ := State.count_obs { s with obs := { s.obs with buffer := [], dropped := [] } } 7 0 19 s.obs.buffer.length
    dsimp only
    rw [if_pos rfl, ho]
    exact ⟨_, _, rfl, rfl⟩

/-- The debug level closes: trace stops, and nothing but the element and the observability state changes. -/
theorem State.closeDebug_closes (s : State) :
    ∃ o free, s.closeDebug = { s with obs := o, free := free, sec := { s.sec with debug := .closed } } ∧ o.tracing = false := by
  obtain ⟨o, free, ho, ht⟩ := s.stopTrace_stops 5 0
  unfold State.closeDebug
  rw [ho]
  exact ⟨_, _, rfl, ht⟩

/-- An answer changes the element's answer alone. -/
theorem State.answer_reply (s : State) (r : Reply) : ∃ rep, s.answer r = { s with sec := { s.sec with reply := rep } } := by
  unfold State.answer
  split
  · exact ⟨r, rfl⟩
  · exact ⟨s.sec.reply, rfl⟩

/-- A new media key of an enabled pot leaves the held part. -/
theorem newPotKey_held (s : State) (p : Nat) : State.held (
    if s.potEnabled p then
      let (s, k) := s.makeKey
      s.modSec fun x => { x with potKeys := x.potKeys.setIfInBounds p (some k) }
    else s) = s.held := by
  split <;> rfl

/-- Settles O8. -/
theorem actionsTakeEffect : Obligations.ActionsTakeEffect := by
  unfold Obligations.ActionsTakeEffect
  refine ⟨fun s a hup hform hsigs hlen htoken hvalid => ?_, fun s a c hc hup htoken => ?_, fun s hup => ⟨fun hd => ?_, fun hd => ?_, fun hd => ?_⟩⟩
  · intro action service owner owned
    have accepted : ∀ (r : ActionRule) (act : State → State), action = r.number → r.from_ = true → r.signed = true → r.stopped = true →
        r.ps0 = true → (.next (s.authorise r a act) : Out) =
          .next ((act (s.modSec fun x => { x with failures := 0, token := none })).answer (.status 0)) :=
      fun r act hn hf hs ht hp => congrArg Host.Outcome.next (State.authorise_of_accepted hup hform hsigs hlen htoken hvalid hn hf hs ht hp)
    refine ⟨fun ha hsig => ?_, fun ha hsig howned => ?_, fun g ha hl hp hg hrole => ?_, fun ha hl hp ho => ?_, fun ha hl hp hstop ho => ?_,
      fun ha hl hp hsig => ?_⟩
    · have hany : (a.sigs.any fun g => s.serviceSig g || s.ownerSig g) = true := by
        rcases hsig with h | h
        · obtain ⟨g, hg, h⟩ := List.any_eq_true.mp h
          exact List.any_eq_true.mpr ⟨g, hg, by rw [h, Bool.true_or]⟩
        · obtain ⟨g, hg, h⟩ := List.any_eq_true.mp h
          exact List.any_eq_true.mpr ⟨g, hg, by rw [h, Bool.or_true]⟩
      refine (accepted _ _ ha rfl hany rfl rfl).trans (congrArg Host.Outcome.next ((if_pos (c := State.elementUp _ = true) hup).trans ?_))
      simp only [State.modSec, beq_iff_eq]
    · by_cases ho : owned
      · obtain ⟨hown, hstop⟩ := howned ho
        refine accepted _ _ ha rfl ?_ ?_ rfl
        · change ((a.sigs.any s.serviceSig) && (!_ || a.sigs.any s.ownerSig)) = true
          rw [show a.sigs.any s.serviceSig = true from hsig, show a.sigs.any s.ownerSig = true from hown, Bool.or_true, Bool.and_true]
        · change (!_ || s.potsStopped) = true
          rw [hstop, Bool.or_true]
      · have hob : (s.sec.lifecycle == .provisioned || s.sec.lifecycle == .operational) = false := by simpa [owned] using ho
        refine accepted _ _ ha rfl ?_ ?_ rfl
        · change ((a.sigs.any s.serviceSig) && (!_ || a.sigs.any s.ownerSig)) = true
          rw [show a.sigs.any s.serviceSig = true from hsig, hob, Bool.not_false, Bool.true_or, Bool.and_true]
        · change (!_ || s.potsStopped) = true
          rw [hob, Bool.not_false, Bool.true_or]
    · have hsigned : (a.sigs.length == 1 && a.sigs.all fun g => g.role == 1 && g.valid) = true := by
        rw [hg, List.all_cons, List.all_nil, Bool.and_true] at hvalid
        simp [hg, hrole, hvalid]
      refine ⟨_, accepted _ _ ha (by simp [hl]) hsigned rfl (by simp [hp]), ?_⟩
      obtain ⟨h1, h2⟩ := State.answer_lifecycle (State.writeDefaults _) (.status 0)
      rw [h1, h2, State.writeDefaults_held, hg]
      exact ⟨rfl, rfl⟩
    · refine ⟨_, accepted _ _ ha (by simp [hl]) ho rfl (by simp [hp]), ?_⟩
      obtain ⟨h1, h2⟩ := State.answer_lifecycle (State.sendStatus _) (.status 0)
      rw [h1, h2, State.sendStatus_held, held_foldl _ newPotKey_held]
      exact ⟨rfl, rfl⟩
    · have howned : (s.sec.lifecycle == .provisioned || s.sec.lifecycle == .operational) = true := by simpa using hl
      let u : State := s.modSec fun x => { x with failures := 0, token := none }
      let v := u.destroyKeys.dropObjects.modSec fun x => { x with lifecycle := .returned, ownerKey := none, slot1 := none, epoch := x.epoch + 1 }
      obtain ⟨hi, hc, hk, ht, hn, hx⟩ := State.bare_iff.mp (State.Bare.dropLinks (s := v) (State.bare_iff.mpr ⟨rfl, rfl, rfl, rfl, rfl, rfl⟩))
      obtain ⟨rep, hrep⟩ := v.dropLinks.answer_reply (.status 0)
      refine ⟨v.dropLinks.answer (.status 0), accepted _ _ ha howned ho hstop (by simp [hp]), ?_⟩
      rw [hrep]
      dsimp only
      rw [hi, hc, hk, ht, hn, hx]
      exact ⟨rfl, rfl, rfl, rfl, rfl, rfl, rfl, rfl, rfl⟩
    · refine ⟨_, accepted _ _ ha (by simp [hl]) hsig rfl (by simp [hp]), ?_⟩
      obtain ⟨h1, h2⟩ := State.answer_lifecycle (State.writeDefaults _) (.status 0)
      rw [h1, h2, State.writeDefaults_held]
      exact ⟨rfl, rfl⟩
  · rcases hc with rfl | rfl | rfl | rfl | rfl | rfl
    all_goals
      obtain ⟨n, hn, h⟩ := State.authorise_of_stale hup htoken
      exact ⟨n, hn, congrArg Host.Outcome.next h⟩
  · change ∃ t, execRelock s = _ ∧ _
    obtain ⟨o, free, ho, ht⟩ := s.closeDebug_closes
    refine ⟨{ s with obs := o, free := free, sec := { s.sec with debug := .closed, reply := .status 0 } }, (if_neg (by simp [hup])).trans ?_,
      rfl, rfl, ht, rfl, rfl, rfl, rfl, rfl, rfl, rfl, rfl⟩
    rw [hd]
    dsimp only
    rw [ho]
    exact congrArg Host.Outcome.next (State.answer_of_up (s := { s with obs := o, free := free, sec := { s.sec with debug := .closed } }) hup _)
  · refine (if_neg (by simp [hup])).trans ?_
    rw [hd]
    exact congrArg Host.Outcome.next (State.answer_of_up hup _)
  · refine (if_neg (by simp [hup])).trans ?_
    rw [hd]
    exact congrArg Host.Outcome.next (State.answer_of_up hup _)

end Sys2Proof.Machine
end
